-- ==== Sys2Proof/Word.lean ====
section
/-!
DEFINITION. Words and the plain operand types of UZJ-BSL2 (Basolalen): bit widths, the five engines of a
core, the header of a private instruction and the messages that the events of the opcode table carry.
-/
namespace Sys2Proof

/-- A 32-bit instruction word (R59). -/
abbrev Word32 := BitVec 32

/-- A 64-bit address-register value. -/
abbrev Word64 := BitVec 64

/-- A byte of memory. -/
abbrev Byte := BitVec 8

/-- Bits `hi..lo` of `x`, as a vector of width `w` (`w = hi - lo + 1`, so only `lo` is given). -/
abbrev field {n : Nat} (x : BitVec n) (lo w : Nat) : BitVec w := x.extractLsb' lo w

/-- One bit of `x` as a truth value. -/
abbrev bitAt {n : Nat} (x : BitVec n) (k : Nat) : Bool := x.getLsbD k

/-- A truth value as one bit. -/
abbrev bit1 (b : Bool) : BitVec 1 := BitVec.ofBool b

/-- The five engines of a core (Table 1.2): Steward, block transfer, matrix, vector, Thresher. -/
inductive Engine where
  | ctl | bte | mxe | vec | thr
deriving DecidableEq, Repr, Inhabited

/-- The engine tag of Table 1.2. -/
def Engine.tag : Engine → Nat
  | .ctl => 0
  | .bte => 1
  | .mxe => 2
  | .vec => 3
  | .thr => 4

/-- Header fields of a private instruction other than tag, opcode and modifiers (R64). -/
structure Hdr where
  pu : Bool
  pd : Bool
  qu : Bool
  qd : Bool
  stall : BitVec 3
deriving DecidableEq, Repr, Inhabited

/-- A header that pops and pushes nothing and holds nothing. -/
def Hdr.plain : Hdr := ⟨false, false, false, false, 0⟩

/-- A Moot message (Table 13.2); the event that carries it fixes TYPE. -/
structure MootMsg where
  member : BitVec 8
  pkg : BitVec 10
  seqNo : BitVec 32
  effective : BitVec 64
  sent : BitVec 64
  limit : BitVec 8
  cause : BitVec 4
  unann : Bool
  gid : BitVec 16
  arg : BitVec 32
deriving DecidableEq, Repr, Inhabited

/-- The limiters whose codes make up the local limit L (R452). -/
inductive Limiter where
  | thermal | power | current | sensor | firmware
deriving DecidableEq, Repr, Inhabited

/-- The host-port function through which a request arrives (R486). -/
inductive HostFn where
  | physical
  | virt (v : BitVec 4)
  | management
deriving DecidableEq, Repr, Inhabited

/-- What a host request asks for (R486): 8-byte reads and writes of registers, bytes of memory, or an AtomicOp. -/
inductive HostOp where
  | read (bytes : Nat)
  | write (data : List Byte)
  | fetchAdd (v : BitVec 64)
  | swap (v : BitVec 64)
  | cas (expect v : BitVec 64)
deriving DecidableEq, Repr, Inhabited

/-- A request at the host port: its function, the BAR (0 or 2), the offset in it and the operation (Table 14.3). -/
structure HostReq where
  fn : HostFn
  bar : Nat
  offset : Nat
  op : HostOp
deriving DecidableEq, Repr, Inhabited

/-- What an atomic request does at its executing unit (R396). -/
inductive AtomicKind where
  /-- `atom`: op code of Table 4.9 on 4 or 8 bytes. -/
  | rmw (op : BitVec 4) (wide : Bool) (v c : BitVec 64)
  /-- a reservation of `count` on the write index of queue `q` (R409). -/
  | reserve (q : Nat) (count : BitVec 64)
deriving DecidableEq, Repr, Inhabited

/-- A tagged atomic request: source port, sequence number, memory key of the location and the operation (R396). -/
structure AtomicReq where
  port : Nat
  seqNo : BitVec 16
  key : Nat
  kind : AtomicKind
deriving DecidableEq, Repr, Inhabited

/-- A difference-broadcast message for a configuration plane (R432). -/
structure PlaneDiff where
  gen : BitVec 32
  changes : List (Nat × Byte)
  crc : BitVec 32
deriving DecidableEq, Repr, Inhabited

end Sys2Proof
end

