-- ==== Sys2Proof/Syntax.lean ====
section
/-!
DEFINITION. The steps of UZJ-BSL2, one constructor for each row of the opcode table: the control words of the
shared control subset (chapter 2), the private instructions of the five engines (chapters 4 to 13), and the
events of the part, each carrying what it concerns. A private instruction holds its header fields (R64) and
every field of its modifiers and operand word that its entry does not require to be zero.
-/
namespace Sys2Proof

/-- A step of the part (one row of the opcode table). -/
inductive Instr where
  /-- ADD (R77). -/
  | add (ad : BitVec 5) (aa : BitVec 5) (ab : BitVec 5)
  /-- SUB (R77). -/
  | sub (ad : BitVec 5) (aa : BitVec 5) (ab : BitVec 5)
  /-- AND (R77). -/
  | and (ad : BitVec 5) (aa : BitVec 5) (ab : BitVec 5)
  /-- OR (R77). -/
  | or (ad : BitVec 5) (aa : BitVec 5) (ab : BitVec 5)
  /-- XOR (R77). -/
  | xor (ad : BitVec 5) (aa : BitVec 5) (ab : BitVec 5)
  /-- SLL (R77). -/
  | sll (ad : BitVec 5) (aa : BitVec 5) (ab : BitVec 5)
  /-- SRL (R77). -/
  | srl (ad : BitVec 5) (aa : BitVec 5) (ab : BitVec 5)
  /-- SRA (R77). -/
  | sra (ad : BitVec 5) (aa : BitVec 5) (ab : BitVec 5)
  /-- SLT (R77). -/
  | slt (ad : BitVec 5) (aa : BitVec 5) (ab : BitVec 5)
  /-- SLTU (R77). -/
  | sltu (ad : BitVec 5) (aa : BitVec 5) (ab : BitVec 5)
  /-- MUL (R77). -/
  | mul (ad : BitVec 5) (aa : BitVec 5) (ab : BitVec 5)
  /-- MULH (R77). -/
  | mulh (ad : BitVec 5) (aa : BitVec 5) (ab : BitVec 5)
  /-- MIN (R77). -/
  | min (ad : BitVec 5) (aa : BitVec 5) (ab : BitVec 5)
  /-- MAX (R77). -/
  | max (ad : BitVec 5) (aa : BitVec 5) (ab : BitVec 5)
  /-- ADDI (R78). -/
  | addi (ad : BitVec 5) (aa : BitVec 5) (imm : BitVec 15)
  /-- ANDI (R78). -/
  | andi (ad : BitVec 5) (aa : BitVec 5) (imm : BitVec 15)
  /-- ORI (R78). -/
  | ori (ad : BitVec 5) (aa : BitVec 5) (imm : BitVec 15)
  /-- XORI (R78). -/
  | xori (ad : BitVec 5) (aa : BitVec 5) (imm : BitVec 15)
  /-- SLTI (R78). -/
  | slti (ad : BitVec 5) (aa : BitVec 5) (imm : BitVec 15)
  /-- SLLI (R78). -/
  | slli (ad : BitVec 5) (aa : BitVec 5) (sh : BitVec 6)
  /-- SRLI (R78). -/
  | srli (ad : BitVec 5) (aa : BitVec 5) (sh : BitVec 6)
  /-- SRAI (R78). -/
  | srai (ad : BitVec 5) (aa : BitVec 5) (sh : BitVec 6)
  /-- LUI (R79). -/
  | lui (ad : BitVec 5) (imm : BitVec 20)
  /-- LHI (R79). -/
  | lhi (ad : BitVec 5) (imm : BitVec 20)
  /-- AUIPC (R79). -/
  | auipc (ad : BitVec 5) (imm : BitVec 20)
  /-- B_EQ (R80). -/
  | bEq (aa : BitVec 5) (ab : BitVec 5) (disp : BitVec 12)
  /-- B_NE (R80). -/
  | bNe (aa : BitVec 5) (ab : BitVec 5) (disp : BitVec 12)
  /-- B_LT (R80). -/
  | bLt (aa : BitVec 5) (ab : BitVec 5) (disp : BitVec 12)
  /-- B_GE (R80). -/
  | bGe (aa : BitVec 5) (ab : BitVec 5) (disp : BitVec 12)
  /-- B_LTU (R80). -/
  | bLtu (aa : BitVec 5) (ab : BitVec 5) (disp : BitVec 12)
  /-- B_GEU (R80). -/
  | bGeu (aa : BitVec 5) (ab : BitVec 5) (disp : BitVec 12)
  /-- J (R81). -/
  | j (disp : BitVec 25)
  /-- JAL (R81). -/
  | jal (disp : BitVec 25)
  /-- JR (R81). -/
  | jr (aa : BitVec 5) (imm : BitVec 15)
  /-- LOOP (R82). -/
  | loop (aa : BitVec 5) (len : BitVec 10) (cnt : BitVec 10)
  /-- LOOPM (R85). -/
  | loopm (aa : BitVec 5) (len : BitVec 10) (ii : BitVec 6) (sc : BitVec 4)
  /-- LOOPM_PASS (R87). -/
  | loopmPass (e : Engine)
  /-- BFCLR (R99). -/
  | bfclr (bf : BitVec 4)
  /-- BFSET (R99). -/
  | bfset (bf : BitVec 4) (field : BitVec 5) (aa : BitVec 5) (imm : BitVec 11)
  /-- BFADD (R99). -/
  | bfadd (bf : BitVec 4) (field : BitVec 5) (aa : BitVec 5) (imm : BitVec 11)
  /-- BFGET (R100). -/
  | bfget (bf : BitVec 4) (field : BitVec 5) (aa : BitVec 5)
  /-- BFMOV (R100). -/
  | bfmov (bf : BitVec 4) (src : BitVec 4)
  /-- TWAIT (R101). -/
  | twait (mask : BitVec 4) (sel : BitVec 2) (n : BitVec 4)
  /-- SLIPW (R103). -/
  | slipw (aa : BitVec 5) (imm : BitVec 15)
  /-- LD (R171). -/
  | ld (h : Hdr) (fe : BitVec 2) (sd : BitVec 1) (scope : BitVec 3) (ord : BitVec 2) (zext : BitVec 1) (size : BitVec 2) (ad : BitVec 5) (bf : BitVec 4) (aa : BitVec 5) (imm : BitVec 18)
  /-- ST (R171). -/
  | st (h : Hdr) (fe : BitVec 2) (sd : BitVec 1) (scope : BitVec 3) (ord : BitVec 2) (zext : BitVec 1) (size : BitVec 2) (src : BitVec 5) (bf : BitVec 4) (aa : BitVec 5) (imm : BitVec 18)
  /-- LDF (R173). -/
  | ldf (h : Hdr) (ad : BitVec 5) (bf : BitVec 4) (aa : BitVec 5) (imm : BitVec 18)
  /-- STF (R173). -/
  | stf (h : Hdr) (full : BitVec 1) (ab : BitVec 5) (bf : BitVec 4) (aa : BitVec 5) (imm : BitVec 18)
  /-- ATOM (R176). -/
  | atom (h : Hdr) (fe : BitVec 2) (sd : BitVec 1) (scope : BitVec 3) (ord : BitVec 2) (zext : BitVec 1) (size : BitVec 2) (ad : BitVec 5) (bf : BitVec 4) (aa : BitVec 5) (ab : BitVec 5) (op : BitVec 4) (imm : BitVec 9)
  /-- FENCE (R174). -/
  | fence (h : Hdr) (scope : BitVec 3) (ord : BitVec 2)
  /-- BARA (R178). -/
  | bara (h : Hdr) (scope : BitVec 3) (ad : BitVec 5) (aa : BitVec 5) (ab : BitVec 5) (bid : BitVec 4)
  /-- BARW (R178). -/
  | barw (h : Hdr) (scope : BitVec 3) (ad : BitVec 5) (ab : BitVec 5) (bid : BitVec 4)
  /-- BARS (R178). -/
  | bars (h : Hdr) (scope : BitVec 3) (ad : BitVec 5) (aa : BitVec 5) (ab : BitVec 5) (bid : BitVec 4)
  /-- HGIVE (R166). -/
  | hgive (h : Hdr) (aa : BitVec 5) (ab : BitVec 5) (imm : BitVec 13)
  /-- HTAKE (R167). -/
  | htake (h : Hdr) (ad : BitVec 5) (aa : BitVec 5) (imm : BitVec 13)
  /-- HQRY (R168). -/
  | hqry (h : Hdr) (ad : BitVec 5) (aa : BitVec 5) (imm : BitVec 13)
  /-- ABC (R180). -/
  | abc (h : Hdr) (ad : BitVec 5) (aa : BitVec 5)
  /-- ABC_RECEIVE (R13). -/
  | abcReceive (dst : BitVec 5)
  /-- FOOT (R181). -/
  | foot (h : Hdr) (eng : BitVec 3) (aa : BitVec 5) (imm : BitVec 13)
  /-- CSRR (R183). -/
  | csrr (h : Hdr) (reg : BitVec 12) (ad : BitVec 5)
  /-- CSRW (R183). -/
  | csrw (h : Hdr) (reg : BitVec 12) (aa : BitVec 5)
  /-- BELLR (R184). -/
  | bellr (h : Hdr) (ad : BitVec 5)
  /-- TTOK (R185). -/
  | ttok (h : Hdr) (n : BitVec 4)
  /-- TSTART (R186). -/
  | tstart (h : Hdr) (aa : BitVec 5) (ab : BitVec 5) (entry : BitVec 12)
  /-- TRAP (R187). -/
  | trap (h : Hdr) (imm : BitVec 13)
  /-- ERET (R188). -/
  | eret (h : Hdr)
  /-- TASKEND (R189). -/
  | taskend (h : Hdr) (aa : BitVec 5)
  /-- QRES (R440). -/
  | qres (h : Hdr) (ad : BitVec 5) (aa : BitVec 5) (ab : BitVec 5)
  /-- QTAIL (R441). -/
  | qtail (h : Hdr) (aa : BitVec 5) (ab : BitVec 5)
  /-- QHEAD (R442). -/
  | qhead (h : Hdr) (ad : BitVec 5) (aa : BitVec 5)
  /-- DITEM (R443). -/
  | ditem (h : Hdr) (ad : BitVec 5) (idx : BitVec 4)
  /-- DPUSH (R444). -/
  | dpush (h : Hdr) (aa : BitVec 5) (stg : BitVec 3)
  /-- GCLKR (R467). -/
  | gclkr (h : Hdr) (ad : BitVec 5)
  /-- BELLW (R468). -/
  | bellw (h : Hdr) (aa : BitVec 5) (imm : BitVec 13)
  /-- VADD (R205). -/
  | vadd (h : Hdr) (ty : BitVec 5) (rm : BitVec 3) (mz : BitVec 1) (vd : BitVec 6) (va : BitVec 6) (vb : BitVec 6) (pg : BitVec 4)
  /-- VSUB (R205). -/
  | vsub (h : Hdr) (ty : BitVec 5) (rm : BitVec 3) (mz : BitVec 1) (vd : BitVec 6) (va : BitVec 6) (vb : BitVec 6) (pg : BitVec 4)
  /-- VMUL (R205). -/
  | vmul (h : Hdr) (ty : BitVec 5) (rm : BitVec 3) (mz : BitVec 1) (vd : BitVec 6) (va : BitVec 6) (vb : BitVec 6) (pg : BitVec 4)
  /-- VMIN (R205). -/
  | vmin (h : Hdr) (ty : BitVec 5) (mz : BitVec 1) (vd : BitVec 6) (va : BitVec 6) (vb : BitVec 6) (pg : BitVec 4)
  /-- VMAX (R205). -/
  | vmax (h : Hdr) (ty : BitVec 5) (mz : BitVec 1) (vd : BitVec 6) (va : BitVec 6) (vb : BitVec 6) (pg : BitVec 4)
  /-- VMULH (R205). -/
  | vmulh (h : Hdr) (ty : BitVec 5) (mz : BitVec 1) (vd : BitVec 6) (va : BitVec 6) (vb : BitVec 6) (pg : BitVec 4)
  /-- VADDS (R207). -/
  | vadds (h : Hdr) (ty : BitVec 5) (mz : BitVec 1) (vd : BitVec 6) (va : BitVec 6) (vb : BitVec 6) (pg : BitVec 4)
  /-- VSUBS (R207). -/
  | vsubs (h : Hdr) (ty : BitVec 5) (mz : BitVec 1) (vd : BitVec 6) (va : BitVec 6) (vb : BitVec 6) (pg : BitVec 4)
  /-- VFMA (R205). -/
  | vfma (h : Hdr) (ty : BitVec 5) (rm : BitVec 3) (mz : BitVec 1) (vd : BitVec 6) (va : BitVec 6) (vb : BitVec 6) (vc : BitVec 6) (pg : BitVec 4)
  /-- VFMS (R205). -/
  | vfms (h : Hdr) (ty : BitVec 5) (rm : BitVec 3) (mz : BitVec 1) (vd : BitVec 6) (va : BitVec 6) (vb : BitVec 6) (vc : BitVec 6) (pg : BitVec 4)
  /-- VFNMA (R205). -/
  | vfnma (h : Hdr) (ty : BitVec 5) (rm : BitVec 3) (mz : BitVec 1) (vd : BitVec 6) (va : BitVec 6) (vb : BitVec 6) (vc : BitVec 6) (pg : BitVec 4)
  /-- VABS (R206). -/
  | vabs (h : Hdr) (ty : BitVec 5) (mz : BitVec 1) (vd : BitVec 6) (va : BitVec 6) (pg : BitVec 4)
  /-- VNEG (R206). -/
  | vneg (h : Hdr) (ty : BitVec 5) (mz : BitVec 1) (vd : BitVec 6) (va : BitVec 6) (pg : BitVec 4)
  /-- VAND (R205). -/
  | vand (h : Hdr) (ty : BitVec 5) (mz : BitVec 1) (vd : BitVec 6) (va : BitVec 6) (vb : BitVec 6) (pg : BitVec 4)
  /-- VOR (R205). -/
  | vor (h : Hdr) (ty : BitVec 5) (mz : BitVec 1) (vd : BitVec 6) (va : BitVec 6) (vb : BitVec 6) (pg : BitVec 4)
  /-- VXOR (R205). -/
  | vxor (h : Hdr) (ty : BitVec 5) (mz : BitVec 1) (vd : BitVec 6) (va : BitVec 6) (vb : BitVec 6) (pg : BitVec 4)
  /-- VNOT (R205). -/
  | vnot (h : Hdr) (ty : BitVec 5) (mz : BitVec 1) (vd : BitVec 6) (va : BitVec 6) (pg : BitVec 4)
  /-- VSLL (R205). -/
  | vsll (h : Hdr) (ty : BitVec 5) (mz : BitVec 1) (vd : BitVec 6) (va : BitVec 6) (vb : BitVec 6) (pg : BitVec 4)
  /-- VSRL (R205). -/
  | vsrl (h : Hdr) (ty : BitVec 5) (mz : BitVec 1) (vd : BitVec 6) (va : BitVec 6) (vb : BitVec 6) (pg : BitVec 4)
  /-- VSRA (R205). -/
  | vsra (h : Hdr) (ty : BitVec 5) (mz : BitVec 1) (vd : BitVec 6) (va : BitVec 6) (vb : BitVec 6) (pg : BitVec 4)
  /-- VCMP (R208). -/
  | vcmp (h : Hdr) (ty : BitVec 5) (mz : BitVec 1) (cond : BitVec 3) (pd : BitVec 4) (va : BitVec 6) (vb : BitVec 6) (pg : BitVec 4)
  /-- VSEL (R209). -/
  | vsel (h : Hdr) (ty : BitVec 5) (vd : BitVec 6) (va : BitVec 6) (vb : BitVec 6) (pg : BitVec 4)
  /-- PAND (R210). -/
  | pand (h : Hdr) (pd : BitVec 4) (pa : BitVec 4) (pb : BitVec 4)
  /-- POR (R210). -/
  | por (h : Hdr) (pd : BitVec 4) (pa : BitVec 4) (pb : BitVec 4)
  /-- PXOR (R210). -/
  | pxor (h : Hdr) (pd : BitVec 4) (pa : BitVec 4) (pb : BitVec 4)
  /-- PNOT (R210). -/
  | pnot (h : Hdr) (pd : BitVec 4) (pa : BitVec 4)
  /-- PCNT (R211). -/
  | pcnt (h : Hdr) (ty : BitVec 5) (ad : BitVec 5) (pa : BitVec 4)
  /-- VCVT (R212). -/
  | vcvt (h : Hdr) (ty : BitVec 5) (rm : BitVec 3) (mz : BitVec 1) (aux : BitVec 3) (vd : BitVec 6) (va : BitVec 6) (dty : BitVec 5) (pg : BitVec 4)
  /-- VRED (R213). -/
  | vred (h : Hdr) (ty : BitVec 5) (rm : BitVec 3) (op : BitVec 3) (vd : BitVec 6) (va : BitVec 6) (pg : BitVec 4) (seg : BitVec 4)
  /-- VPERM (R214). -/
  | vperm (h : Hdr) (ty : BitVec 5) (mz : BitVec 1) (aux : BitVec 3) (vd : BitVec 6) (va : BitVec 6) (vb : BitVec 6) (pg : BitVec 4)
  /-- VDUP (R215). -/
  | vdup (h : Hdr) (ty : BitVec 5) (mz : BitVec 1) (vd : BitVec 6) (aa : BitVec 5) (pg : BitVec 4)
  /-- VZIP (R216). -/
  | vzip (h : Hdr) (ty : BitVec 5) (vd : BitVec 6) (va : BitVec 6) (vb : BitVec 6)
  /-- VUNZIP (R216). -/
  | vunzip (h : Hdr) (ty : BitVec 5) (vd : BitVec 6) (va : BitVec 6)
  /-- VGETX (R217). -/
  | vgetx (h : Hdr) (ty : BitVec 5) (ad : BitVec 5) (va : BitVec 6) (aa : BitVec 5)
  /-- VLD (R219). -/
  | vld (h : Hdr) (ty : BitVec 5) (mz : BitVec 1) (fe : BitVec 2) (vd : BitVec 6) (bf : BitVec 4) (aa : BitVec 5) (pg : BitVec 4) (imm : BitVec 13)
  /-- VST (R219). -/
  | vst (h : Hdr) (ty : BitVec 5) (fe : BitVec 2) (vs : BitVec 6) (bf : BitVec 4) (aa : BitVec 5) (pg : BitVec 4) (imm : BitVec 13)
  /-- VLDG (R221). -/
  | vldg (h : Hdr) (ty : BitVec 5) (mz : BitVec 1) (vd : BitVec 6) (bf : BitVec 4) (aa : BitVec 5) (pg : BitVec 4) (vi : BitVec 6)
  /-- VSTS (R221). -/
  | vsts (h : Hdr) (ty : BitVec 5) (vs : BitVec 6) (bf : BitVec 4) (aa : BitVec 5) (pg : BitVec 4) (vi : BitVec 6)
  /-- VQLD (R226). -/
  | vqld (h : Hdr) (ty : BitVec 5) (rm : BitVec 3) (mz : BitVec 1) (cb : BitVec 2) (vd : BitVec 6) (bf : BitVec 4) (aa : BitVec 5) (pg : BitVec 4)
  /-- VQST (R227). -/
  | vqst (h : Hdr) (ty : BitVec 5) (imp : BitVec 1) (cb : BitVec 2) (vs : BitVec 6) (bf : BitVec 4) (aa : BitVec 5) (pg : BitVec 4) (ab : BitVec 5) (vb : BitVec 6)
  /-- VRCP (R230). -/
  | vrcp (h : Hdr) (ty : BitVec 5) (mz : BitVec 1) (vd : BitVec 6) (va : BitVec 6) (pg : BitVec 4)
  /-- VRSQRT (R230). -/
  | vrsqrt (h : Hdr) (ty : BitVec 5) (mz : BitVec 1) (vd : BitVec 6) (va : BitVec 6) (pg : BitVec 4)
  /-- VSQRT (R230). -/
  | vsqrt (h : Hdr) (ty : BitVec 5) (mz : BitVec 1) (vd : BitVec 6) (va : BitVec 6) (pg : BitVec 4)
  /-- VEXP2 (R230). -/
  | vexp2 (h : Hdr) (ty : BitVec 5) (mz : BitVec 1) (vd : BitVec 6) (va : BitVec 6) (pg : BitVec 4)
  /-- VLOG2 (R230). -/
  | vlog2 (h : Hdr) (ty : BitVec 5) (mz : BitVec 1) (vd : BitVec 6) (va : BitVec 6) (pg : BitVec 4)
  /-- VSINPI (R230). -/
  | vsinpi (h : Hdr) (ty : BitVec 5) (mz : BitVec 1) (vd : BitVec 6) (va : BitVec 6) (pg : BitVec 4)
  /-- VCOSPI (R230). -/
  | vcospi (h : Hdr) (ty : BitVec 5) (mz : BitVec 1) (vd : BitVec 6) (va : BitVec 6) (pg : BitVec 4)
  /-- VTANH (R230). -/
  | vtanh (h : Hdr) (ty : BitVec 5) (mz : BitVec 1) (vd : BitVec 6) (va : BitVec 6) (pg : BitVec 4)
  /-- VSIGM (R230). -/
  | vsigm (h : Hdr) (ty : BitVec 5) (mz : BitVec 1) (vd : BitVec 6) (va : BitVec 6) (pg : BitVec 4)
  /-- VGELU (R230). -/
  | vgelu (h : Hdr) (ty : BitVec 5) (mz : BitVec 1) (vd : BitVec 6) (va : BitVec 6) (pg : BitVec 4)
  /-- VSILU (R230). -/
  | vsilu (h : Hdr) (ty : BitVec 5) (mz : BitVec 1) (vd : BitVec 6) (va : BitVec 6) (pg : BitVec 4)
  /-- VERF (R230). -/
  | verf (h : Hdr) (ty : BitVec 5) (mz : BitVec 1) (vd : BitVec 6) (va : BitVec 6) (pg : BitVec 4)
  /-- MLOAD (R257). -/
  | mload (h : Hdr) (st : BitVec 1) (fe : BitVec 2) (tr : BitVec 1) (pfmt : BitVec 3) (cb : BitVec 2) (bf : BitVec 4) (aa : BitVec 5) (ab : BitVec 5) (ac : BitVec 5)
  /-- MLOAD_FILL_COMPLETE (R257). -/
  | mloadFillComplete (op : Nat)
  /-- MFLIP (R258). -/
  | mflip (h : Hdr) (st : BitVec 1)
  /-- MFLIP_TAKES_EFFECT (R258). -/
  | mflipTakesEffect (op : Nat)
  /-- MDROP (R259). -/
  | mdrop (h : Hdr)
  /-- MSTREAM (R260). -/
  | mstream (h : Hdr) (st : BitVec 1) (fe : BitVec 2) (acc : BitVec 1) (zd : BitVec 2) (pfmt : BitVec 3) (cb : BitVec 2) (bf : BitVec 4) (aa : BitVec 5) (ab : BitVec 5) (ac : BitVec 5) (am : BitVec 5) (m1 : BitVec 7)
  /-- MSTREAM_COMPLETE (R260). -/
  | mstreamComplete (op : Nat)
  /-- MZERO (R261). -/
  | mzero (h : Hdr) (zd : BitVec 2)
  /-- MWIN (R261). -/
  | mwin (h : Hdr) (zd : BitVec 2) (w : BitVec 7)
  /-- MCOPY (R261). -/
  | mcopy (h : Hdr) (zd : BitVec 2) (za : BitVec 2)
  /-- MADD (R261). -/
  | madd (h : Hdr) (zd : BitVec 2) (za : BitVec 2)
  /-- MGETZ (R262). -/
  | mgetz (h : Hdr) (zd : BitVec 2) (q : BitVec 1) (hi : BitVec 1) (ad : BitVec 5) (aa : BitVec 5)
  /-- MDRAIN (R263). -/
  | mdrain (h : Hdr) (st : BitVec 1) (clr : BitVec 1) (grad : BitVec 1) (zd : BitVec 2) (rm : BitVec 3) (bf : BitVec 4) (aa : BitVec 5) (ab : BitVec 5) (ac : BitVec 5) (am : BitVec 5)
  /-- TILE_SIGNATURE_FORMED (R248). -/
  | tileSignatureFormed (op : Nat)
  /-- MSIGR (R266). -/
  | msigr (h : Hdr) (ad : BitVec 5) (ab : BitVec 5)
  /-- MSYNC (R267). -/
  | msync (h : Hdr)
  /-- MCB (R268). -/
  | mcb (h : Hdr) (fe : BitVec 2) (cbn : BitVec 2) (n256 : BitVec 1) (bf : BitVec 4) (aa : BitVec 5)
  /-- MSTAT (R269). -/
  | mstat (h : Hdr) (clr : BitVec 1) (ad : BitVec 5)
  /-- MPERT (R284). -/
  | mpert (h : Hdr) (aa : BitVec 5) (ab : BitVec 5) (ac : BitVec 5)
  /-- MPOFF (R285). -/
  | mpoff (h : Hdr)
  /-- MPSTEP (R286). -/
  | mpstep (h : Hdr) (ib : BitVec 1) (imm : BitVec 16)
  /-- MPREF (R287). -/
  | mpref (h : Hdr) (fe : BitVec 2) (tr : BitVec 1) (bf : BitVec 4) (aa : BitVec 5) (ab : BitVec 5) (ac : BitVec 5)
  /-- MPSAMP (R288). -/
  | mpsamp (h : Hdr) (q : BitVec 1) (hh : BitVec 1) (ad : BitVec 5) (aa : BitVec 5)
  /-- RSTAT (R351). -/
  | rstat (h : Hdr) (sel : BitVec 4) (ad : BitVec 5)
  /-- RCHK (R352). -/
  | rchk (h : Hdr) (aa : BitVec 5)
  /-- RMODE (R353). -/
  | rmode (h : Hdr) (aa : BitVec 5)
  /-- RINJ (R354). -/
  | rinj (h : Hdr) (q : BitVec 1) (aa : BitVec 5) (ab : BitVec 5)
  /-- BCOPY (R319). -/
  | bcopy (h : Hdr) (ac : BitVec 4) (cr : BitVec 1) (fe : BitVec 2) (bfd : BitVec 4) (bfs : BitVec 4) (ad : BitVec 5) (src : BitVec 5) (an : BitVec 5)
  /-- BCOPY_S (R310). -/
  | bcopyS (h : Hdr) (ac : BitVec 4) (cr : BitVec 1) (fe : BitVec 2) (bfd : BitVec 4) (bfs : BitVec 4) (ad : BitVec 5) (src : BitVec 5) (an : BitVec 5) (ag : BitVec 5)
  /-- BFILL (R319). -/
  | bfill (h : Hdr) (ac : BitVec 4) (cr : BitVec 1) (bfd : BitVec 4) (ad : BitVec 5) (src : BitVec 5) (an : BitVec 5)
  /-- BDEDUP (R321). -/
  | bdedup (h : Hdr) (ac : BitVec 4) (cr : BitVec 1) (bft : BitVec 4) (bfs : BitVec 4) (slot : BitVec 5) (src : BitVec 5)
  /-- BCOW (R322). -/
  | bcow (h : Hdr) (ac : BitVec 4) (cr : BitVec 1) (bft : BitVec 4) (bfs : BitVec 4) (slot : BitVec 5) (src : BitVec 5) (ap : BitVec 5)
  /-- BCMP (R323). -/
  | bcmp (h : Hdr) (ac : BitVec 4) (cr : BitVec 1) (bft : BitVec 4) (bfs : BitVec 4) (slot : BitVec 5) (src : BitVec 5)
  /-- BWAIT (R324). -/
  | bwait (h : Hdr) (ac : BitVec 4) (ring : BitVec 1) (aa : BitVec 5) (imm : BitVec 16)
  /-- BACNT (R325). -/
  | bacnt (h : Hdr) (ac : BitVec 4) (ad : BitVec 5)
  /-- BSYNC (R326). -/
  | bsync (h : Hdr)
  /-- COPY_COMPLETION (R302). -/
  | copyCompletion (op : Nat)
  /-- TCVT (R368). -/
  | tcvt (h : Hdr) (rm : BitVec 3) (fe : BitVec 2) (sf : BitVec 1) (aux : BitVec 4) (bfd : BitVec 4) (bfs : BitVec 4) (ad : BitVec 5) (src : BitVec 5) (an : BitVec 5)
  /-- TCVTI (R369). -/
  | tcvti (h : Hdr) (fe : BitVec 2) (sf : BitVec 1) (aux : BitVec 4) (bfd : BitVec 4) (bfs : BitVec 4) (ad : BitVec 5) (src : BitVec 5) (an : BitVec 5) (ax : BitVec 5)
  /-- TAMAX (R370). -/
  | tamax (h : Hdr) (fe : BitVec 2) (sf : BitVec 1) (bs : BitVec 2) (bfd : BitVec 4) (bfs : BitVec 4) (ad : BitVec 5) (src : BitVec 5) (an : BitVec 5)
  /-- TSQZE (R371). -/
  | tsqze (h : Hdr) (fe : BitVec 2) (sf : BitVec 1) (bfd : BitVec 4) (bfs : BitVec 4) (ad : BitVec 5) (src : BitVec 5) (an : BitVec 5)
  /-- TSQZD (R372). -/
  | tsqzd (h : Hdr) (fe : BitVec 2) (sf : BitVec 1) (bfd : BitVec 4) (bfs : BitVec 4) (ad : BitVec 5) (src : BitVec 5) (an : BitVec 5)
  /-- TTR (R373). -/
  | ttr (h : Hdr) (fe : BitVec 2) (sf : BitVec 1) (bfd : BitVec 4) (bfs : BitVec 4) (ad : BitVec 5) (src : BitVec 5) (an : BitVec 5)
  /-- TBARA (R377). -/
  | tbara (h : Hdr) (bid : BitVec 4) (aa : BitVec 5)
  /-- TBARW (R377). -/
  | tbarw (h : Hdr) (bid : BitVec 4)
  /-- TBARS (R377). -/
  | tbars (h : Hdr) (bid : BitVec 4) (aa : BitVec 5)
  /-- TLD (R374). -/
  | tld (h : Hdr) (ad : BitVec 5) (bf : BitVec 4) (aa : BitVec 5) (imm : BitVec 18)
  /-- TST (R374). -/
  | tst (h : Hdr) (src : BitVec 5) (bf : BitVec 4) (aa : BitVec 5) (imm : BitVec 18)
  /-- TRD (R375). -/
  | trd (h : Hdr) (reg : BitVec 12) (ad : BitVec 5)
  /-- TWR (R375). -/
  | twr (h : Hdr) (reg : BitVec 12) (aa : BitVec 5)
  /-- TSYNC (R376). -/
  | tsync (h : Hdr)
  /-- CADD (R386). -/
  | cadd (h : Hdr) (rm : BitVec 3) (bfd : BitVec 4) (bfs : BitVec 4) (ad : BitVec 5) (src : BitVec 5) (an : BitVec 5)
  /-- CMIN (R386). -/
  | cmin (h : Hdr) (bfd : BitVec 4) (bfs : BitVec 4) (ad : BitVec 5) (src : BitVec 5) (an : BitVec 5)
  /-- CMAX (R386). -/
  | cmax (h : Hdr) (bfd : BitVec 4) (bfs : BitVec 4) (ad : BitVec 5) (src : BitVec 5) (an : BitVec 5)
  /-- CAXPY (R386). -/
  | caxpy (h : Hdr) (rm : BitVec 3) (bfd : BitVec 4) (bfs : BitVec 4) (ad : BitVec 5) (src : BitVec 5) (an : BitVec 5) (ab : BitVec 5)
  /-- CSCAL (R386). -/
  | cscal (h : Hdr) (rm : BitVec 3) (bfd : BitVec 4) (ad : BitVec 5) (an : BitVec 5) (ab : BitVec 5)
  /-- BINIT (R391). -/
  | binit (h : Hdr) (scope : BitVec 3) (ad : BitVec 5) (bf : BitVec 4) (aa : BitVec 5) (ab : BitVec 5)
  /-- CBAR (R392). -/
  | cbar (h : Hdr) (ad : BitVec 5) (bf : BitVec 4) (aa : BitVec 5) (ab : BitVec 5)
  /-- CBWAIT (R393). -/
  | cbwait (h : Hdr) (ad : BitVec 5) (bf : BitVec 4) (aa : BitVec 5) (ab : BitVec 5)
  /-- BARRIER_LINE_POISON (R394). -/
  | barrierLinePoison (key : Nat)
  /-- ATOMIC_REQUEST (R396). -/
  | atomicRequest (req : AtomicReq)
  /-- REGISTER_RESULT_LANDING (R22). -/
  | registerResultLanding (op : Nat)
  /-- LOAD_DATA_RETURN (R159). -/
  | loadDataReturn (op : Nat)
  /-- PENDING_PUSH (R17). -/
  | pendingPush (e : Engine)
  /-- TOKEN_TIMEOUT (R18). -/
  | tokenTimeout (e : Engine)
  /-- FE_TIMEOUT (R20). -/
  | feTimeout (e : Engine)
  /-- TRANSLATION_RESOLVE (R51). -/
  | translationResolve (part : BitVec 4) (vpn : BitVec 40)
  /-- TRANSLATION_ABORT (R51). -/
  | translationAbort (part : BitVec 4) (vpn : BitVec 40)
  /-- PAGE_WALK (R405). -/
  | pageWalk (part : BitVec 4) (vpn : BitVec 40)
  /-- TLBI_ALL (R405). -/
  | tlbiAll (die : BitVec 3) (part : BitVec 4)
  /-- TLBI_PAGES (R405). -/
  | tlbiPages (die : BitVec 3) (part : BitVec 4) (vpn : BitVec 40) (pages : BitVec 27)
  /-- ALIAS_WRITEBACK (R401). -/
  | aliasWriteback (line : Nat)
  /-- FR_ENABLE (R399). -/
  | frEnable (stack : BitVec 4) (region : BitVec 4) (v : BitVec 64)
  /-- FR_DISABLE (R399). -/
  | frDisable (stack : BitVec 4) (region : BitVec 4)
  /-- CHANNEL_MIGRATION (R406). -/
  | channelMigration (stack : BitVec 4) (unit64k : Nat) (channel : BitVec 9)
  /-- SLIPW_WRITE (R9). -/
  | slipwWrite (v : BitVec 64)
  /-- CRING_HEAD_WRITE (R307). -/
  | cringHeadWrite (v : BitVec 64)
  /-- REEVE_MODE_WRITE (R349). -/
  | reeveModeWrite (v : BitVec 64)
  /-- WQ_ENABLE (R408). -/
  | wqEnable (q : BitVec 14) (v : BitVec 64)
  /-- WQ_DISABLE (R408). -/
  | wqDisable (q : BitVec 14) (v : BitVec 64)
  /-- WQ_TAIL_WRITE (R410). -/
  | wqTailWrite (q : BitVec 14) (v : BitVec 64)
  /-- HOST_FETCHADD (R409). -/
  | hostFetchadd (fn : HostFn) (q : BitVec 14) (v : BitVec 64)
  /-- STAGE0_ITEM_GENERATE (R415). -/
  | stage0ItemGenerate (pipe : Nat)
  /-- INSTANCE_END (R417). -/
  | instanceEnd (pipe : Nat)
  /-- PIPELINE_STALL (R424). -/
  | pipelineStall (pipe : Nat)
  /-- PARTITION_ENABLE (R433). -/
  | partitionEnable (part : BitVec 4)
  /-- PARTITION_DISABLE (R438). -/
  | partitionDisable (part : BitVec 4)
  /-- RESUME (R436). -/
  | resume (part : BitVec 4) (core : BitVec 8)
  /-- ABORT (R436). -/
  | abort (part : BitVec 4) (core : BitVec 8)
  /-- RUN (R434). -/
  | run (part : BitVec 4) (core : BitVec 8)
  /-- HALT (R438). -/
  | halt (part : BitVec 4)
  /-- PLANE_DIFF_BROADCAST (R432). -/
  | planeDiffBroadcast (msg : PlaneDiff)
  /-- SHADOW_PLANE_LOAD (R432). -/
  | shadowPlaneLoad (offset : Nat) (data : List Byte)
  /-- CRIER (R454). -/
  | crier (msg : MootMsg)
  /-- LIMIT_LOWER (R453). -/
  | limitLower (lim : Limiter) (code : BitVec 8) (effective : BitVec 64)
  /-- UNANNOUNCED_CLAMP (R457). -/
  | unannouncedClamp (code : BitVec 8) (cause : BitVec 4)
  /-- HEARTBEAT (R461). -/
  | heartbeat (msg : MootMsg)
  /-- ROUND (R455). -/
  | round (msg : MootMsg)
  /-- RPARAM (R459). -/
  | rparam (msg : MootMsg)
  /-- PEER_SILENCE_TIMEOUT (R461). -/
  | peerSilenceTimeout (member : BitVec 8)
  /-- SILENT (R462). -/
  | silent (msg : MootMsg)
  /-- JOIN (R463). -/
  | join (msg : MootMsg)
  /-- LEAVE (R464). -/
  | leave (msg : MootMsg)
  /-- MOOT_JOIN_COMMAND (R463). -/
  | mootJoinCommand (place : BitVec 8)
  /-- QUOTA_EXHAUSTED (R475). -/
  | quotaExhausted (part : BitVec 4)
  /-- RPCAP_WRITE (R476). -/
  | rpcapWrite (cap : BitVec 13) (code : BitVec 8) (effective : BitVec 64)
  /-- SENS_FAIL_CLEAR (R473). -/
  | sensFailClear (die : BitVec 3) (mask : BitVec 64)
  /-- FLIT_RECEIVE (R478). -/
  | flitReceive (port : Nat) (flit : List Byte)
  /-- LINK_DOWN (R484). -/
  | linkDown (port : Nat)
  /-- ROUTE_WAIT_TIMEOUT (R482). -/
  | routeWaitTimeout (pkg : BitVec 10)
  /-- HOST_BAR_ACCESS (R487). -/
  | hostBarAccess (req : HostReq)
  /-- REPLAY_TIMEOUT (R478). -/
  | replayTimeout (port : Nat)
  /-- RESTORE (R490). -/
  | restore (core : BitVec 8) (path : BitVec 2)
  /-- PKGNUM (R490). -/
  | pkgnum (number : BitVec 10)
  /-- STARTUP_STAGE (R491). -/
  | startupStage (ok : Bool) (code : BitVec 8)
  /-- REGISTER_WRITE (R3). -/
  | registerWrite (offset : Nat) (v : BitVec 64)
  /-- RESERVED_ENCODING (R63). -/
  | reservedEncoding (w0 w1 : BitVec 32)
  /-- WRITE_BACK_ACKNOWLEDGED (R157). -/
  | writeBackAcknowledged (op : Nat)
  /-- SENSOR_FAIL (R473). -/
  | sensorFail (die : BitVec 3) (site : BitVec 6)
  /-- LINK_UP (R485). -/
  | linkUp (port : Nat) (peer : BitVec 10)
  /-- CONTROL_PATH_ERROR (R492). -/
  | controlPathError (die : BitVec 3)
  /-- LANE_SPARE (R480). -/
  | laneSpare (port : Nat) (lane : BitVec 3)
  /-- HOST_COMPLETION (R488). -/
  | hostCompletion (op : Nat) (error : Bool)
  /-- LINK_OFF (R483). -/
  | linkOff (port : Nat)
  /-- STAMPED_ISSUE (R32). -/
  | stampedIssue
  /-- POUND_COMMIT (R249). -/
  | poundCommit
  /-- REEVE_MISMATCH (R336). -/
  | reeveMismatch
  /-- REEVE_SAMPLED_CHECK (R345). -/
  | reeveSampledCheck
  /-- REEVE_FORCED_CHECK (R330). -/
  | reeveForcedCheck
  /-- TRANSFORM_COMPLETION (R366). -/
  | transformCompletion
  /-- FAULT_RECORD (R49). -/
  | faultRecord
  /-- INVALIDATION_COMPLETE (R312). -/
  | invalidationComplete
  /-- STRAND_LAUNCH (R425). -/
  | strandLaunch
  /-- SLICE_EXPIRY (R434). -/
  | sliceExpiry
  /-- CONTEXT_SWAP (R435). -/
  | contextSwap
  /-- PLANE_DIFF_APPLY (R432). -/
  | planeDiffApply
  /-- SWAP_TOKEN (R432). -/
  | swapToken
  /-- PLANE_SWAP (R431). -/
  | planeSwap
  /-- CEILING_EFFECTIVE (R451). -/
  | ceilingEffective
  /-- HEARTBEAT_SEND (R461). -/
  | heartbeatSend
  /-- ROUND_SEND (R455). -/
  | roundSend
  /-- ROUND_TICK (R455). -/
  | roundTick
  /-- ROUND_MISS (R456). -/
  | roundMiss
  /-- MOOT_LEAVE_COMMAND (R464). -/
  | mootLeaveCommand
  /-- QUIESCE (R483). -/
  | quiesce
  /-- RESET (R490). -/
  | reset
  /-- POWER_ON_RESET (R491). -/
  | powerOnReset
  /-- POWER_FAULT (R493). -/
  | powerFault
  /-- BELL_TARGET_REACHED (R468). -/
  | bellTargetReached
  /-- STAGE (R85). -/
  | stage
  /-- PHASE (R25). -/
  | phase
  /-- NOP (R104). -/
  | nop
  /-- END (R105). -/
  | endText
deriving DecidableEq, Repr

end Sys2Proof
end

