-- ==== Sys2Proof/Decode.lean ====
section
/-!
DEFINITION. The decoder of instruction words (chapter 2, R59 to R66, and the encoding tables of the engine
chapters), total on any two words, and the encoder written from the same tables. Decoding checks the major
opcode or the tag and opcode, and that every field an entry requires to be zero is zero; what a field's value
means, a reserved code among them, is checked where the instruction executes.
-/
namespace Sys2Proof

/-- Why words are no instruction: a reserved control word (R63), a private opcode that no table lists or a
nonzero zero field (R66), or a tag that no engine owns (R65). -/
inductive DecodeError where
  | reservedMajor
  | reservedOpcode
  | reservedTag
deriving DecidableEq, Repr

/-- The instruction when `c` holds, else the reserved encoding it would be. -/
def whenZero (c : Bool) (i : Instr) : Option Instr := if c then some i else none

/-- Decode a control word (bit 31 = 0) by its major opcode (Tables 2.1, 2.2, 2.8). -/
def decodeControl (w : Word32) : Option Instr :=
  match (field w 25 6).toNat with
  | 0x1 =>
    match (field w 0 10).toNat with
    | 0 => some (.add (field w 20 5) (field w 15 5) (field w 10 5))
    | 1 => some (.sub (field w 20 5) (field w 15 5) (field w 10 5))
    | 2 => some (.and (field w 20 5) (field w 15 5) (field w 10 5))
    | 3 => some (.or (field w 20 5) (field w 15 5) (field w 10 5))
    | 4 => some (.xor (field w 20 5) (field w 15 5) (field w 10 5))
    | 5 => some (.sll (field w 20 5) (field w 15 5) (field w 10 5))
    | 6 => some (.srl (field w 20 5) (field w 15 5) (field w 10 5))
    | 7 => some (.sra (field w 20 5) (field w 15 5) (field w 10 5))
    | 8 => some (.slt (field w 20 5) (field w 15 5) (field w 10 5))
    | 9 => some (.sltu (field w 20 5) (field w 15 5) (field w 10 5))
    | 10 => some (.mul (field w 20 5) (field w 15 5) (field w 10 5))
    | 11 => some (.mulh (field w 20 5) (field w 15 5) (field w 10 5))
    | 12 => some (.min (field w 20 5) (field w 15 5) (field w 10 5))
    | 13 => some (.max (field w 20 5) (field w 15 5) (field w 10 5))
    | _ => none
  | 0x2 => some (.addi (field w 20 5) (field w 15 5) (field w 0 15))
  | 0x3 => some (.andi (field w 20 5) (field w 15 5) (field w 0 15))
  | 0x4 => some (.ori (field w 20 5) (field w 15 5) (field w 0 15))
  | 0x5 => some (.xori (field w 20 5) (field w 15 5) (field w 0 15))
  | 0x6 => some (.slti (field w 20 5) (field w 15 5) (field w 0 15))
  | 0x7 => whenZero (decide (field w 6 9 = 0)) (.slli (field w 20 5) (field w 15 5) (field w 0 6))
  | 0x8 => whenZero (decide (field w 6 9 = 0)) (.srli (field w 20 5) (field w 15 5) (field w 0 6))
  | 0x9 => whenZero (decide (field w 6 9 = 0)) (.srai (field w 20 5) (field w 15 5) (field w 0 6))
  | 0xa => some (.lui (field w 20 5) (field w 0 20))
  | 0xb => some (.lhi (field w 20 5) (field w 0 20))
  | 0xc => some (.auipc (field w 20 5) (field w 0 20))
  | 0x10 =>
    match (field w 12 3).toNat with
    | 0 => some (.bEq (field w 20 5) (field w 15 5) (field w 0 12))
    | 1 => some (.bNe (field w 20 5) (field w 15 5) (field w 0 12))
    | 2 => some (.bLt (field w 20 5) (field w 15 5) (field w 0 12))
    | 3 => some (.bGe (field w 20 5) (field w 15 5) (field w 0 12))
    | 4 => some (.bLtu (field w 20 5) (field w 15 5) (field w 0 12))
    | 5 => some (.bGeu (field w 20 5) (field w 15 5) (field w 0 12))
    | _ => none
  | 0x11 => some (.j (field w 0 25))
  | 0x12 => some (.jal (field w 0 25))
  | 0x13 => whenZero (decide (field w 20 5 = 0)) (.jr (field w 15 5) (field w 0 15))
  | 0x18 => some (.loop (field w 20 5) (field w 10 10) (field w 0 10))
  | 0x19 => some (.loopm (field w 20 5) (field w 10 10) (field w 4 6) (field w 0 4))
  | 0x1a => whenZero (decide (field w 0 25 = 0)) (.stage)
  | 0x1b => whenZero (decide (field w 0 21 = 0)) (.bfclr (field w 21 4))
  | 0x1c => some (.bfset (field w 21 4) (field w 16 5) (field w 11 5) (field w 0 11))
  | 0x1d => some (.bfadd (field w 21 4) (field w 16 5) (field w 11 5) (field w 0 11))
  | 0x1e => whenZero (decide (field w 0 11 = 0)) (.bfget (field w 21 4) (field w 16 5) (field w 11 5))
  | 0x1f => whenZero (decide (field w 4 17 = 0)) (.bfmov (field w 21 4) (field w 0 4))
  | 0x20 => whenZero (decide (field w 0 15 = 0)) (.twait (field w 21 4) (field w 19 2) (field w 15 4))
  | 0x21 => whenZero (decide (field w 0 25 = 0)) (.phase)
  | 0x22 => whenZero (decide (field w 20 5 = 0)) (.slipw (field w 15 5) (field w 0 15))
  | 0x23 => whenZero (decide (field w 0 25 = 0)) (.nop)
  | 0x24 => whenZero (decide (field w 0 25 = 0)) (.endText)
  | _ => none

/-- Decode a private instruction of tag 0 from its header fields, opcode, modifiers `m` and operand word `v`. -/
def decodeCtl (h : Hdr) (op : Nat) (m : BitVec 12) (v : Word32) : Option Instr :=
  match op with
  | 0x0 => whenZero (decide (field m 11 1 = 0)) (.ld h (field m 9 2) (field m 8 1) (field m 5 3) (field m 3 2) (field m 2 1) (field m 0 2) (field v 27 5) (field v 23 4) (field v 18 5) (field v 0 18))
  | 0x1 => whenZero (decide (field m 11 1 = 0)) (.st h (field m 9 2) (field m 8 1) (field m 5 3) (field m 3 2) (field m 2 1) (field m 0 2) (field v 27 5) (field v 23 4) (field v 18 5) (field v 0 18))
  | 0x2 => whenZero (decide (field m 0 12 = 0)) (.ldf h (field v 27 5) (field v 23 4) (field v 18 5) (field v 0 18))
  | 0x3 => whenZero (decide (field m 1 11 = 0)) (.stf h (field m 0 1) (field v 27 5) (field v 23 4) (field v 18 5) (field v 0 18))
  | 0x8 => whenZero (decide (field m 11 1 = 0)) (.atom h (field m 9 2) (field m 8 1) (field m 5 3) (field m 3 2) (field m 2 1) (field m 0 2) (field v 27 5) (field v 23 4) (field v 18 5) (field v 13 5) (field v 9 4) (field v 0 9))
  | 0x10 => whenZero (decide (field m 0 3 = 0) && decide (field m 8 4 = 0) && decide (field v 0 32 = 0)) (.fence h (field m 5 3) (field m 3 2))
  | 0x18 => whenZero (decide (field m 0 5 = 0) && decide (field m 8 4 = 0) && decide (field v 4 9 = 0) && decide (field v 23 4 = 0)) (.bara h (field m 5 3) (field v 27 5) (field v 18 5) (field v 13 5) (field v 0 4))
  | 0x19 => whenZero (decide (field m 0 5 = 0) && decide (field m 8 4 = 0) && decide (field v 4 9 = 0) && decide (field v 18 9 = 0)) (.barw h (field m 5 3) (field v 27 5) (field v 13 5) (field v 0 4))
  | 0x1a => whenZero (decide (field m 0 5 = 0) && decide (field m 8 4 = 0) && decide (field v 4 9 = 0) && decide (field v 23 4 = 0)) (.bars h (field m 5 3) (field v 27 5) (field v 18 5) (field v 13 5) (field v 0 4))
  | 0x20 => whenZero (decide (field m 0 12 = 0) && decide (field v 23 9 = 0)) (.hgive h (field v 18 5) (field v 13 5) (field v 0 13))
  | 0x21 => whenZero (decide (field m 0 12 = 0) && decide (field v 13 5 = 0) && decide (field v 23 4 = 0)) (.htake h (field v 27 5) (field v 18 5) (field v 0 13))
  | 0x22 => whenZero (decide (field m 0 12 = 0) && decide (field v 13 5 = 0) && decide (field v 23 4 = 0)) (.hqry h (field v 27 5) (field v 18 5) (field v 0 13))
  | 0x28 => whenZero (decide (field m 0 12 = 0) && decide (field v 0 18 = 0) && decide (field v 23 4 = 0)) (.abc h (field v 27 5) (field v 18 5))
  | 0x29 => whenZero (decide (field m 3 9 = 0) && decide (field v 13 5 = 0) && decide (field v 23 9 = 0)) (.foot h (field m 0 3) (field v 18 5) (field v 0 13))
  | 0x30 => whenZero (decide (field v 0 27 = 0)) (.csrr h (field m 0 12) (field v 27 5))
  | 0x31 => whenZero (decide (field v 0 18 = 0) && decide (field v 23 9 = 0)) (.csrw h (field m 0 12) (field v 18 5))
  | 0x32 => whenZero (decide (field m 0 12 = 0) && decide (field v 0 27 = 0)) (.bellr h (field v 27 5))
  | 0x38 => whenZero (decide (field m 0 12 = 0) && decide (field v 4 28 = 0)) (.ttok h (field v 0 4))
  | 0x39 => whenZero (decide (field m 0 12 = 0) && decide (field v 12 1 = 0) && decide (field v 23 9 = 0)) (.tstart h (field v 18 5) (field v 13 5) (field v 0 12))
  | 0x40 => whenZero (decide (field m 0 12 = 0) && decide (field v 13 19 = 0)) (.trap h (field v 0 13))
  | 0x41 => whenZero (decide (field m 0 12 = 0) && decide (field v 0 32 = 0)) (.eret h)
  | 0x42 => whenZero (decide (field m 0 12 = 0) && decide (field v 0 18 = 0) && decide (field v 23 9 = 0)) (.taskend h (field v 18 5))
  | 0x1c0 => whenZero (decide (field m 0 12 = 0) && decide (field v 0 13 = 0) && decide (field v 23 4 = 0)) (.qres h (field v 27 5) (field v 18 5) (field v 13 5))
  | 0x1c1 => whenZero (decide (field m 0 12 = 0) && decide (field v 0 13 = 0) && decide (field v 23 9 = 0)) (.qtail h (field v 18 5) (field v 13 5))
  | 0x1c2 => whenZero (decide (field m 0 12 = 0) && decide (field v 0 18 = 0) && decide (field v 23 4 = 0)) (.qhead h (field v 27 5) (field v 18 5))
  | 0x1c8 => whenZero (decide (field m 0 12 = 0) && decide (field v 4 23 = 0)) (.ditem h (field v 27 5) (field v 0 4))
  | 0x1c9 => whenZero (decide (field m 0 12 = 0) && decide (field v 3 15 = 0) && decide (field v 23 9 = 0)) (.dpush h (field v 18 5) (field v 0 3))
  | 0x1e0 => whenZero (decide (field m 0 12 = 0) && decide (field v 0 27 = 0)) (.gclkr h (field v 27 5))
  | 0x1e1 => whenZero (decide (field m 0 12 = 0) && decide (field v 13 5 = 0) && decide (field v 23 9 = 0)) (.bellw h (field v 18 5) (field v 0 13))
  | _ => none

/-- Decode a private instruction of tag 1 from its header fields, opcode, modifiers `m` and operand word `v`. -/
def decodeBte (h : Hdr) (op : Nat) (m : BitVec 12) (v : Word32) : Option Instr :=
  match op with
  | 0x0 => whenZero (decide (field m 0 5 = 0) && decide (field v 0 9 = 0)) (.bcopy h (field m 8 4) (field m 7 1) (field m 5 2) (field v 28 4) (field v 24 4) (field v 19 5) (field v 14 5) (field v 9 5))
  | 0x1 => whenZero (decide (field m 0 5 = 0) && decide (field v 0 4 = 0)) (.bcopyS h (field m 8 4) (field m 7 1) (field m 5 2) (field v 28 4) (field v 24 4) (field v 19 5) (field v 14 5) (field v 9 5) (field v 4 5))
  | 0x2 => whenZero (decide (field m 0 7 = 0) && decide (field v 0 9 = 0) && decide (field v 24 4 = 0)) (.bfill h (field m 8 4) (field m 7 1) (field v 28 4) (field v 19 5) (field v 14 5) (field v 9 5))
  | 0x10 => whenZero (decide (field m 0 7 = 0) && decide (field v 0 14 = 0)) (.bdedup h (field m 8 4) (field m 7 1) (field v 28 4) (field v 24 4) (field v 19 5) (field v 14 5))
  | 0x11 => whenZero (decide (field m 0 7 = 0) && decide (field v 0 9 = 0)) (.bcow h (field m 8 4) (field m 7 1) (field v 28 4) (field v 24 4) (field v 19 5) (field v 14 5) (field v 9 5))
  | 0x12 => whenZero (decide (field m 0 7 = 0) && decide (field v 0 14 = 0)) (.bcmp h (field m 8 4) (field m 7 1) (field v 28 4) (field v 24 4) (field v 19 5) (field v 14 5))
  | 0x20 => whenZero (decide (field m 0 7 = 0) && decide (field v 16 11 = 0)) (.bwait h (field m 8 4) (field m 7 1) (field v 27 5) (field v 0 16))
  | 0x21 => whenZero (decide (field m 0 8 = 0) && decide (field v 0 27 = 0)) (.bacnt h (field m 8 4) (field v 27 5))
  | 0x22 => whenZero (decide (field m 0 12 = 0) && decide (field v 0 32 = 0)) (.bsync h)
  | _ => none

/-- Decode a private instruction of tag 2 from its header fields, opcode, modifiers `m` and operand word `v`. -/
def decodeMxe (h : Hdr) (op : Nat) (m : BitVec 12) (v : Word32) : Option Instr :=
  match op with
  | 0x0 => whenZero (decide (field m 0 1 = 0) && decide (field m 6 2 = 0) && decide (field v 0 13 = 0)) (.mload h (field m 11 1) (field m 9 2) (field m 8 1) (field m 3 3) (field m 1 2) (field v 28 4) (field v 23 5) (field v 18 5) (field v 13 5))
  | 0x1 => whenZero (decide (field m 0 11 = 0) && decide (field v 0 32 = 0)) (.mflip h (field m 11 1))
  | 0x2 => whenZero (decide (field m 0 12 = 0) && decide (field v 0 32 = 0)) (.mdrop h)
  | 0x8 => whenZero (decide (field m 0 1 = 0) && decide (field v 0 1 = 0)) (.mstream h (field m 11 1) (field m 9 2) (field m 8 1) (field m 6 2) (field m 3 3) (field m 1 2) (field v 28 4) (field v 23 5) (field v 18 5) (field v 13 5) (field v 8 5) (field v 1 7))
  | 0x10 => whenZero (decide (field m 0 6 = 0) && decide (field m 8 4 = 0) && decide (field v 0 32 = 0)) (.mzero h (field m 6 2))
  | 0x11 => whenZero (decide (field m 0 6 = 0) && decide (field m 8 4 = 0) && decide (field v 7 25 = 0)) (.mwin h (field m 6 2) (field v 0 7))
  | 0x12 => whenZero (decide (field m 0 4 = 0) && decide (field m 8 4 = 0) && decide (field v 0 32 = 0)) (.mcopy h (field m 6 2) (field m 4 2))
  | 0x13 => whenZero (decide (field m 0 4 = 0) && decide (field m 8 4 = 0) && decide (field v 0 32 = 0)) (.madd h (field m 6 2) (field m 4 2))
  | 0x14 => whenZero (decide (field m 2 4 = 0) && decide (field m 8 4 = 0) && decide (field v 0 22 = 0)) (.mgetz h (field m 6 2) (field m 1 1) (field m 0 1) (field v 27 5) (field v 22 5))
  | 0x18 => whenZero (decide (field m 0 3 = 0) && decide (field m 8 1 = 0) && decide (field v 0 8 = 0)) (.mdrain h (field m 11 1) (field m 10 1) (field m 9 1) (field m 6 2) (field m 3 3) (field v 28 4) (field v 23 5) (field v 18 5) (field v 13 5) (field v 8 5))
  | 0x19 => whenZero (decide (field m 0 12 = 0) && decide (field v 0 22 = 0)) (.msigr h (field v 27 5) (field v 22 5))
  | 0x1a => whenZero (decide (field m 0 12 = 0) && decide (field v 0 32 = 0)) (.msync h)
  | 0x20 => whenZero (decide (field m 1 5 = 0) && decide (field m 8 1 = 0) && decide (field m 11 1 = 0) && decide (field v 0 23 = 0)) (.mcb h (field m 9 2) (field m 6 2) (field m 0 1) (field v 28 4) (field v 23 5))
  | 0x21 => whenZero (decide (field m 1 11 = 0) && decide (field v 0 27 = 0)) (.mstat h (field m 0 1) (field v 27 5))
  | 0x100 => whenZero (decide (field m 0 12 = 0) && decide (field v 0 17 = 0)) (.mpert h (field v 27 5) (field v 22 5) (field v 17 5))
  | 0x101 => whenZero (decide (field m 0 12 = 0) && decide (field v 0 32 = 0)) (.mpoff h)
  | 0x102 => whenZero (decide (field m 1 11 = 0) && decide (field v 16 16 = 0)) (.mpstep h (field m 0 1) (field v 0 16))
  | 0x108 => whenZero (decide (field m 0 8 = 0) && decide (field m 11 1 = 0) && decide (field v 0 13 = 0)) (.mpref h (field m 9 2) (field m 8 1) (field v 28 4) (field v 23 5) (field v 18 5) (field v 13 5))
  | 0x110 => whenZero (decide (field m 2 10 = 0) && decide (field v 0 22 = 0)) (.mpsamp h (field m 1 1) (field m 0 1) (field v 27 5) (field v 22 5))
  | 0x180 => whenZero (decide (field m 4 8 = 0) && decide (field v 0 27 = 0)) (.rstat h (field m 0 4) (field v 27 5))
  | 0x181 => whenZero (decide (field m 0 12 = 0) && decide (field v 0 27 = 0)) (.rchk h (field v 27 5))
  | 0x182 => whenZero (decide (field m 0 12 = 0) && decide (field v 0 27 = 0)) (.rmode h (field v 27 5))
  | 0x183 => whenZero (decide (field m 1 11 = 0) && decide (field v 0 22 = 0)) (.rinj h (field m 0 1) (field v 27 5) (field v 22 5))
  | _ => none

/-- Decode a private instruction of tag 3 from its header fields, opcode, modifiers `m` and operand word `v`. -/
def decodeVec (h : Hdr) (op : Nat) (m : BitVec 12) (v : Word32) : Option Instr :=
  match op with
  | 0x0 => whenZero (decide (field m 0 3 = 0) && decide (field v 0 4 = 0) && decide (field v 8 6 = 0)) (.vadd h (field m 7 5) (field m 4 3) (field m 3 1) (field v 26 6) (field v 20 6) (field v 14 6) (field v 4 4))
  | 0x1 => whenZero (decide (field m 0 3 = 0) && decide (field v 0 4 = 0) && decide (field v 8 6 = 0)) (.vsub h (field m 7 5) (field m 4 3) (field m 3 1) (field v 26 6) (field v 20 6) (field v 14 6) (field v 4 4))
  | 0x2 => whenZero (decide (field m 0 3 = 0) && decide (field v 0 4 = 0) && decide (field v 8 6 = 0)) (.vmul h (field m 7 5) (field m 4 3) (field m 3 1) (field v 26 6) (field v 20 6) (field v 14 6) (field v 4 4))
  | 0x3 => whenZero (decide (field m 0 3 = 0) && decide (field m 4 3 = 0) && decide (field v 0 4 = 0) && decide (field v 8 6 = 0)) (.vmin h (field m 7 5) (field m 3 1) (field v 26 6) (field v 20 6) (field v 14 6) (field v 4 4))
  | 0x4 => whenZero (decide (field m 0 3 = 0) && decide (field m 4 3 = 0) && decide (field v 0 4 = 0) && decide (field v 8 6 = 0)) (.vmax h (field m 7 5) (field m 3 1) (field v 26 6) (field v 20 6) (field v 14 6) (field v 4 4))
  | 0x5 => whenZero (decide (field m 0 3 = 0) && decide (field m 4 3 = 0) && decide (field v 0 4 = 0) && decide (field v 8 6 = 0)) (.vmulh h (field m 7 5) (field m 3 1) (field v 26 6) (field v 20 6) (field v 14 6) (field v 4 4))
  | 0x6 => whenZero (decide (field m 0 3 = 0) && decide (field m 4 3 = 0) && decide (field v 0 4 = 0) && decide (field v 8 6 = 0)) (.vadds h (field m 7 5) (field m 3 1) (field v 26 6) (field v 20 6) (field v 14 6) (field v 4 4))
  | 0x7 => whenZero (decide (field m 0 3 = 0) && decide (field m 4 3 = 0) && decide (field v 0 4 = 0) && decide (field v 8 6 = 0)) (.vsubs h (field m 7 5) (field m 3 1) (field v 26 6) (field v 20 6) (field v 14 6) (field v 4 4))
  | 0x8 => whenZero (decide (field m 0 3 = 0) && decide (field v 0 4 = 0)) (.vfma h (field m 7 5) (field m 4 3) (field m 3 1) (field v 26 6) (field v 20 6) (field v 14 6) (field v 8 6) (field v 4 4))
  | 0x9 => whenZero (decide (field m 0 3 = 0) && decide (field v 0 4 = 0)) (.vfms h (field m 7 5) (field m 4 3) (field m 3 1) (field v 26 6) (field v 20 6) (field v 14 6) (field v 8 6) (field v 4 4))
  | 0xa => whenZero (decide (field m 0 3 = 0) && decide (field v 0 4 = 0)) (.vfnma h (field m 7 5) (field m 4 3) (field m 3 1) (field v 26 6) (field v 20 6) (field v 14 6) (field v 8 6) (field v 4 4))
  | 0x10 => whenZero (decide (field m 0 3 = 0) && decide (field m 4 3 = 0) && decide (field v 0 4 = 0) && decide (field v 8 12 = 0)) (.vabs h (field m 7 5) (field m 3 1) (field v 26 6) (field v 20 6) (field v 4 4))
  | 0x11 => whenZero (decide (field m 0 3 = 0) && decide (field m 4 3 = 0) && decide (field v 0 4 = 0) && decide (field v 8 12 = 0)) (.vneg h (field m 7 5) (field m 3 1) (field v 26 6) (field v 20 6) (field v 4 4))
  | 0x20 => whenZero (decide (field m 0 3 = 0) && decide (field m 4 3 = 0) && decide (field v 0 4 = 0) && decide (field v 8 6 = 0)) (.vand h (field m 7 5) (field m 3 1) (field v 26 6) (field v 20 6) (field v 14 6) (field v 4 4))
  | 0x21 => whenZero (decide (field m 0 3 = 0) && decide (field m 4 3 = 0) && decide (field v 0 4 = 0) && decide (field v 8 6 = 0)) (.vor h (field m 7 5) (field m 3 1) (field v 26 6) (field v 20 6) (field v 14 6) (field v 4 4))
  | 0x22 => whenZero (decide (field m 0 3 = 0) && decide (field m 4 3 = 0) && decide (field v 0 4 = 0) && decide (field v 8 6 = 0)) (.vxor h (field m 7 5) (field m 3 1) (field v 26 6) (field v 20 6) (field v 14 6) (field v 4 4))
  | 0x23 => whenZero (decide (field m 0 3 = 0) && decide (field m 4 3 = 0) && decide (field v 0 4 = 0) && decide (field v 8 12 = 0)) (.vnot h (field m 7 5) (field m 3 1) (field v 26 6) (field v 20 6) (field v 4 4))
  | 0x24 => whenZero (decide (field m 0 3 = 0) && decide (field m 4 3 = 0) && decide (field v 0 4 = 0) && decide (field v 8 6 = 0)) (.vsll h (field m 7 5) (field m 3 1) (field v 26 6) (field v 20 6) (field v 14 6) (field v 4 4))
  | 0x25 => whenZero (decide (field m 0 3 = 0) && decide (field m 4 3 = 0) && decide (field v 0 4 = 0) && decide (field v 8 6 = 0)) (.vsrl h (field m 7 5) (field m 3 1) (field v 26 6) (field v 20 6) (field v 14 6) (field v 4 4))
  | 0x26 => whenZero (decide (field m 0 3 = 0) && decide (field m 4 3 = 0) && decide (field v 0 4 = 0) && decide (field v 8 6 = 0)) (.vsra h (field m 7 5) (field m 3 1) (field v 26 6) (field v 20 6) (field v 14 6) (field v 4 4))
  | 0x30 => whenZero (decide (field m 4 3 = 0) && decide (field v 0 4 = 0) && decide (field v 8 6 = 0) && decide (field v 30 2 = 0)) (.vcmp h (field m 7 5) (field m 3 1) (field m 0 3) (field v 26 4) (field v 20 6) (field v 14 6) (field v 4 4))
  | 0x31 => whenZero (decide (field m 0 7 = 0) && decide (field v 0 4 = 0) && decide (field v 8 6 = 0)) (.vsel h (field m 7 5) (field v 26 6) (field v 20 6) (field v 14 6) (field v 4 4))
  | 0x38 => whenZero (decide (field m 0 12 = 0) && decide (field v 0 14 = 0) && decide (field v 18 2 = 0) && decide (field v 24 2 = 0) && decide (field v 30 2 = 0)) (.pand h (field v 26 4) (field v 20 4) (field v 14 4))
  | 0x39 => whenZero (decide (field m 0 12 = 0) && decide (field v 0 14 = 0) && decide (field v 18 2 = 0) && decide (field v 24 2 = 0) && decide (field v 30 2 = 0)) (.por h (field v 26 4) (field v 20 4) (field v 14 4))
  | 0x3a => whenZero (decide (field m 0 12 = 0) && decide (field v 0 14 = 0) && decide (field v 18 2 = 0) && decide (field v 24 2 = 0) && decide (field v 30 2 = 0)) (.pxor h (field v 26 4) (field v 20 4) (field v 14 4))
  | 0x3b => whenZero (decide (field m 0 12 = 0) && decide (field v 0 20 = 0) && decide (field v 24 2 = 0) && decide (field v 30 2 = 0)) (.pnot h (field v 26 4) (field v 20 4))
  | 0x3c => whenZero (decide (field m 0 7 = 0) && decide (field v 0 20 = 0) && decide (field v 24 2 = 0) && decide (field v 31 1 = 0)) (.pcnt h (field m 7 5) (field v 26 5) (field v 20 4))
  | 0x40 => whenZero (decide (field v 0 4 = 0) && decide (field v 13 7 = 0)) (.vcvt h (field m 7 5) (field m 4 3) (field m 3 1) (field m 0 3) (field v 26 6) (field v 20 6) (field v 8 5) (field v 4 4))
  | 0x50 => whenZero (decide (field m 3 1 = 0) && decide (field v 8 12 = 0)) (.vred h (field m 7 5) (field m 4 3) (field m 0 3) (field v 26 6) (field v 20 6) (field v 4 4) (field v 0 4))
  | 0x60 => whenZero (decide (field m 4 3 = 0) && decide (field v 0 4 = 0) && decide (field v 8 6 = 0)) (.vperm h (field m 7 5) (field m 3 1) (field m 0 3) (field v 26 6) (field v 20 6) (field v 14 6) (field v 4 4))
  | 0x61 => whenZero (decide (field m 0 3 = 0) && decide (field m 4 3 = 0) && decide (field v 0 4 = 0) && decide (field v 8 12 = 0) && decide (field v 25 1 = 0)) (.vdup h (field m 7 5) (field m 3 1) (field v 26 6) (field v 20 5) (field v 4 4))
  | 0x62 => whenZero (decide (field m 0 7 = 0) && decide (field v 0 14 = 0)) (.vzip h (field m 7 5) (field v 26 6) (field v 20 6) (field v 14 6))
  | 0x63 => whenZero (decide (field m 0 7 = 0) && decide (field v 0 20 = 0)) (.vunzip h (field m 7 5) (field v 26 6) (field v 20 6))
  | 0x64 => whenZero (decide (field m 0 7 = 0) && decide (field v 0 14 = 0) && decide (field v 19 1 = 0) && decide (field v 31 1 = 0)) (.vgetx h (field m 7 5) (field v 26 5) (field v 20 6) (field v 14 5))
  | 0x80 => whenZero (decide (field m 0 1 = 0) && decide (field m 4 3 = 0)) (.vld h (field m 7 5) (field m 3 1) (field m 1 2) (field v 26 6) (field v 22 4) (field v 17 5) (field v 13 4) (field v 0 13))
  | 0x81 => whenZero (decide (field m 0 1 = 0) && decide (field m 3 4 = 0)) (.vst h (field m 7 5) (field m 1 2) (field v 26 6) (field v 22 4) (field v 17 5) (field v 13 4) (field v 0 13))
  | 0x82 => whenZero (decide (field m 0 3 = 0) && decide (field m 4 3 = 0) && decide (field v 0 7 = 0)) (.vldg h (field m 7 5) (field m 3 1) (field v 26 6) (field v 22 4) (field v 17 5) (field v 13 4) (field v 7 6))
  | 0x83 => whenZero (decide (field m 0 7 = 0) && decide (field v 0 7 = 0)) (.vsts h (field m 7 5) (field v 26 6) (field v 22 4) (field v 17 5) (field v 13 4) (field v 7 6))
  | 0x88 => whenZero (decide (field m 2 1 = 0) && decide (field v 0 13 = 0)) (.vqld h (field m 7 5) (field m 4 3) (field m 3 1) (field m 0 2) (field v 26 6) (field v 22 4) (field v 17 5) (field v 13 4))
  | 0x89 => whenZero (decide (field m 3 4 = 0) && decide (field v 0 2 = 0)) (.vqst h (field m 7 5) (field m 2 1) (field m 0 2) (field v 26 6) (field v 22 4) (field v 17 5) (field v 13 4) (field v 8 5) (field v 2 6))
  | 0xa0 => whenZero (decide (field m 0 3 = 0) && decide (field m 4 3 = 0) && decide (field v 0 4 = 0) && decide (field v 8 12 = 0)) (.vrcp h (field m 7 5) (field m 3 1) (field v 26 6) (field v 20 6) (field v 4 4))
  | 0xa1 => whenZero (decide (field m 0 3 = 0) && decide (field m 4 3 = 0) && decide (field v 0 4 = 0) && decide (field v 8 12 = 0)) (.vrsqrt h (field m 7 5) (field m 3 1) (field v 26 6) (field v 20 6) (field v 4 4))
  | 0xa2 => whenZero (decide (field m 0 3 = 0) && decide (field m 4 3 = 0) && decide (field v 0 4 = 0) && decide (field v 8 12 = 0)) (.vsqrt h (field m 7 5) (field m 3 1) (field v 26 6) (field v 20 6) (field v 4 4))
  | 0xa3 => whenZero (decide (field m 0 3 = 0) && decide (field m 4 3 = 0) && decide (field v 0 4 = 0) && decide (field v 8 12 = 0)) (.vexp2 h (field m 7 5) (field m 3 1) (field v 26 6) (field v 20 6) (field v 4 4))
  | 0xa4 => whenZero (decide (field m 0 3 = 0) && decide (field m 4 3 = 0) && decide (field v 0 4 = 0) && decide (field v 8 12 = 0)) (.vlog2 h (field m 7 5) (field m 3 1) (field v 26 6) (field v 20 6) (field v 4 4))
  | 0xa5 => whenZero (decide (field m 0 3 = 0) && decide (field m 4 3 = 0) && decide (field v 0 4 = 0) && decide (field v 8 12 = 0)) (.vsinpi h (field m 7 5) (field m 3 1) (field v 26 6) (field v 20 6) (field v 4 4))
  | 0xa6 => whenZero (decide (field m 0 3 = 0) && decide (field m 4 3 = 0) && decide (field v 0 4 = 0) && decide (field v 8 12 = 0)) (.vcospi h (field m 7 5) (field m 3 1) (field v 26 6) (field v 20 6) (field v 4 4))
  | 0xa7 => whenZero (decide (field m 0 3 = 0) && decide (field m 4 3 = 0) && decide (field v 0 4 = 0) && decide (field v 8 12 = 0)) (.vtanh h (field m 7 5) (field m 3 1) (field v 26 6) (field v 20 6) (field v 4 4))
  | 0xa8 => whenZero (decide (field m 0 3 = 0) && decide (field m 4 3 = 0) && decide (field v 0 4 = 0) && decide (field v 8 12 = 0)) (.vsigm h (field m 7 5) (field m 3 1) (field v 26 6) (field v 20 6) (field v 4 4))
  | 0xa9 => whenZero (decide (field m 0 3 = 0) && decide (field m 4 3 = 0) && decide (field v 0 4 = 0) && decide (field v 8 12 = 0)) (.vgelu h (field m 7 5) (field m 3 1) (field v 26 6) (field v 20 6) (field v 4 4))
  | 0xaa => whenZero (decide (field m 0 3 = 0) && decide (field m 4 3 = 0) && decide (field v 0 4 = 0) && decide (field v 8 12 = 0)) (.vsilu h (field m 7 5) (field m 3 1) (field v 26 6) (field v 20 6) (field v 4 4))
  | 0xab => whenZero (decide (field m 0 3 = 0) && decide (field m 4 3 = 0) && decide (field v 0 4 = 0) && decide (field v 8 12 = 0)) (.verf h (field m 7 5) (field m 3 1) (field v 26 6) (field v 20 6) (field v 4 4))
  | _ => none

/-- Decode a private instruction of tag 4 from its header fields, opcode, modifiers `m` and operand word `v`. -/
def decodeThr (h : Hdr) (op : Nat) (m : BitVec 12) (v : Word32) : Option Instr :=
  match op with
  | 0x0 => whenZero (decide (field m 0 2 = 0) && decide (field v 0 9 = 0)) (.tcvt h (field m 9 3) (field m 7 2) (field m 6 1) (field m 2 4) (field v 28 4) (field v 24 4) (field v 19 5) (field v 14 5) (field v 9 5))
  | 0x1 => whenZero (decide (field m 0 2 = 0) && decide (field m 9 3 = 0) && decide (field v 0 4 = 0)) (.tcvti h (field m 7 2) (field m 6 1) (field m 2 4) (field v 28 4) (field v 24 4) (field v 19 5) (field v 14 5) (field v 9 5) (field v 4 5))
  | 0x8 => whenZero (decide (field m 0 2 = 0) && decide (field m 4 2 = 0) && decide (field m 9 3 = 0) && decide (field v 0 9 = 0)) (.tamax h (field m 7 2) (field m 6 1) (field m 2 2) (field v 28 4) (field v 24 4) (field v 19 5) (field v 14 5) (field v 9 5))
  | 0x10 => whenZero (decide (field m 0 6 = 0) && decide (field m 9 3 = 0) && decide (field v 0 9 = 0)) (.tsqze h (field m 7 2) (field m 6 1) (field v 28 4) (field v 24 4) (field v 19 5) (field v 14 5) (field v 9 5))
  | 0x11 => whenZero (decide (field m 0 6 = 0) && decide (field m 9 3 = 0) && decide (field v 0 9 = 0)) (.tsqzd h (field m 7 2) (field m 6 1) (field v 28 4) (field v 24 4) (field v 19 5) (field v 14 5) (field v 9 5))
  | 0x18 => whenZero (decide (field m 0 6 = 0) && decide (field m 9 3 = 0) && decide (field v 0 9 = 0)) (.ttr h (field m 7 2) (field m 6 1) (field v 28 4) (field v 24 4) (field v 19 5) (field v 14 5) (field v 9 5))
  | 0x20 => whenZero (decide (field m 4 8 = 0) && decide (field v 0 27 = 0)) (.tbara h (field m 0 4) (field v 27 5))
  | 0x21 => whenZero (decide (field m 4 8 = 0) && decide (field v 0 32 = 0)) (.tbarw h (field m 0 4))
  | 0x22 => whenZero (decide (field m 4 8 = 0) && decide (field v 0 27 = 0)) (.tbars h (field m 0 4) (field v 27 5))
  | 0x28 => whenZero (decide (field m 0 12 = 0)) (.tld h (field v 27 5) (field v 23 4) (field v 18 5) (field v 0 18))
  | 0x29 => whenZero (decide (field m 0 12 = 0)) (.tst h (field v 27 5) (field v 23 4) (field v 18 5) (field v 0 18))
  | 0x30 => whenZero (decide (field v 0 27 = 0)) (.trd h (field m 0 12) (field v 27 5))
  | 0x31 => whenZero (decide (field v 0 27 = 0)) (.twr h (field m 0 12) (field v 27 5))
  | 0x38 => whenZero (decide (field m 0 12 = 0) && decide (field v 0 32 = 0)) (.tsync h)
  | _ => none

/-- Decode a private instruction of tag 5 from its header fields, opcode, modifiers `m` and operand word `v`. -/
def decodeBank (h : Hdr) (op : Nat) (m : BitVec 12) (v : Word32) : Option Instr :=
  match op with
  | 0x0 => whenZero (decide (field m 0 9 = 0) && decide (field v 0 9 = 0)) (.cadd h (field m 9 3) (field v 28 4) (field v 24 4) (field v 19 5) (field v 14 5) (field v 9 5))
  | 0x1 => whenZero (decide (field m 0 12 = 0) && decide (field v 0 9 = 0)) (.cmin h (field v 28 4) (field v 24 4) (field v 19 5) (field v 14 5) (field v 9 5))
  | 0x2 => whenZero (decide (field m 0 12 = 0) && decide (field v 0 9 = 0)) (.cmax h (field v 28 4) (field v 24 4) (field v 19 5) (field v 14 5) (field v 9 5))
  | 0x3 => whenZero (decide (field m 0 9 = 0) && decide (field v 0 4 = 0)) (.caxpy h (field m 9 3) (field v 28 4) (field v 24 4) (field v 19 5) (field v 14 5) (field v 9 5) (field v 4 5))
  | 0x4 => whenZero (decide (field m 0 9 = 0) && decide (field v 0 4 = 0) && decide (field v 14 5 = 0) && decide (field v 24 4 = 0)) (.cscal h (field m 9 3) (field v 28 4) (field v 19 5) (field v 9 5) (field v 4 5))
  | 0x20 => whenZero (decide (field m 0 5 = 0) && decide (field m 8 4 = 0) && decide (field v 0 13 = 0)) (.binit h (field m 5 3) (field v 27 5) (field v 23 4) (field v 18 5) (field v 13 5))
  | 0x21 => whenZero (decide (field m 0 12 = 0) && decide (field v 0 13 = 0)) (.cbar h (field v 27 5) (field v 23 4) (field v 18 5) (field v 13 5))
  | 0x22 => whenZero (decide (field m 0 12 = 0) && decide (field v 0 13 = 0)) (.cbwait h (field v 27 5) (field v 23 4) (field v 18 5) (field v 13 5))
  | _ => none

/-- The header fields of a private instruction (R64). -/
def decodeHdr (w : Word32) : Hdr :=
  ⟨bitAt w 27, bitAt w 26, bitAt w 25, bitAt w 24, field w 21 3⟩

/-- Decode a private instruction by its tag (Tables 2.3, 2.4). -/
def decodePrivate (w v : Word32) : Option Instr :=
  let h := decodeHdr w
  let op := (field w 12 9).toNat
  let m := field w 0 12
  match (field w 28 3).toNat with
  | 0 => decodeCtl h op m v
  | 1 => decodeBte h op m v
  | 2 => decodeMxe h op m v
  | 3 => decodeVec h op m v
  | 4 => decodeThr h op m v
  | 5 => decodeBank h op m v
  | _ => none

/-- The instruction that stands at two words, the second used only by a private instruction (R59). -/
def decode (w v : Word32) : Option Instr :=
  if bitAt w 31 then decodePrivate w v else decodeControl w

/-- Why `decode` gives nothing: the tag, the opcode or a zero field, or the major opcode. -/
def decodeErrorOf (w : Word32) : DecodeError :=
  if bitAt w 31 then (if (field w 28 3).toNat < 6 then .reservedOpcode else .reservedTag) else .reservedMajor

/-- The header word of a private instruction. -/
def encodeHdr (tag : BitVec 3) (h : Hdr) (op : BitVec 9) (m : BitVec 12) : Word32 :=
  1#1 ++ tag ++ bit1 h.pu ++ bit1 h.pd ++ bit1 h.qu ++ bit1 h.qd ++ h.stall ++ op ++ m

/-- The words of an instruction of program text: one for a control word, two for a private instruction; none
for an event, which has no encoding. -/
def encode : Instr → Option (List Word32)
  | .add ad aa ab => some [(0#1 ++ 1#6) ++ ad ++ aa ++ ab ++ 0#10]
  | .sub ad aa ab => some [(0#1 ++ 1#6) ++ ad ++ aa ++ ab ++ 1#10]
  | .and ad aa ab => some [(0#1 ++ 1#6) ++ ad ++ aa ++ ab ++ 2#10]
  | .or ad aa ab => some [(0#1 ++ 1#6) ++ ad ++ aa ++ ab ++ 3#10]
  | .xor ad aa ab => some [(0#1 ++ 1#6) ++ ad ++ aa ++ ab ++ 4#10]
  | .sll ad aa ab => some [(0#1 ++ 1#6) ++ ad ++ aa ++ ab ++ 5#10]
  | .srl ad aa ab => some [(0#1 ++ 1#6) ++ ad ++ aa ++ ab ++ 6#10]
  | .sra ad aa ab => some [(0#1 ++ 1#6) ++ ad ++ aa ++ ab ++ 7#10]
  | .slt ad aa ab => some [(0#1 ++ 1#6) ++ ad ++ aa ++ ab ++ 8#10]
  | .sltu ad aa ab => some [(0#1 ++ 1#6) ++ ad ++ aa ++ ab ++ 9#10]
  | .mul ad aa ab => some [(0#1 ++ 1#6) ++ ad ++ aa ++ ab ++ 10#10]
  | .mulh ad aa ab => some [(0#1 ++ 1#6) ++ ad ++ aa ++ ab ++ 11#10]
  | .min ad aa ab => some [(0#1 ++ 1#6) ++ ad ++ aa ++ ab ++ 12#10]
  | .max ad aa ab => some [(0#1 ++ 1#6) ++ ad ++ aa ++ ab ++ 13#10]
  | .addi ad aa imm => some [(0#1 ++ 2#6) ++ ad ++ aa ++ imm]
  | .andi ad aa imm => some [(0#1 ++ 3#6) ++ ad ++ aa ++ imm]
  | .ori ad aa imm => some [(0#1 ++ 4#6) ++ ad ++ aa ++ imm]
  | .xori ad aa imm => some [(0#1 ++ 5#6) ++ ad ++ aa ++ imm]
  | .slti ad aa imm => some [(0#1 ++ 6#6) ++ ad ++ aa ++ imm]
  | .slli ad aa sh => some [(0#1 ++ 7#6) ++ ad ++ aa ++ 0#9 ++ sh]
  | .srli ad aa sh => some [(0#1 ++ 8#6) ++ ad ++ aa ++ 0#9 ++ sh]
  | .srai ad aa sh => some [(0#1 ++ 9#6) ++ ad ++ aa ++ 0#9 ++ sh]
  | .lui ad imm => some [(0#1 ++ 10#6) ++ ad ++ imm]
  | .lhi ad imm => some [(0#1 ++ 11#6) ++ ad ++ imm]
  | .auipc ad imm => some [(0#1 ++ 12#6) ++ ad ++ imm]
  | .bEq aa ab disp => some [(0#1 ++ 16#6) ++ aa ++ ab ++ 0#3 ++ disp]
  | .bNe aa ab disp => some [(0#1 ++ 16#6) ++ aa ++ ab ++ 1#3 ++ disp]
  | .bLt aa ab disp => some [(0#1 ++ 16#6) ++ aa ++ ab ++ 2#3 ++ disp]
  | .bGe aa ab disp => some [(0#1 ++ 16#6) ++ aa ++ ab ++ 3#3 ++ disp]
  | .bLtu aa ab disp => some [(0#1 ++ 16#6) ++ aa ++ ab ++ 4#3 ++ disp]
  | .bGeu aa ab disp => some [(0#1 ++ 16#6) ++ aa ++ ab ++ 5#3 ++ disp]
  | .j disp => some [(0#1 ++ 17#6) ++ disp]
  | .jal disp => some [(0#1 ++ 18#6) ++ disp]
  | .jr aa imm => some [(0#1 ++ 19#6) ++ 0#5 ++ aa ++ imm]
  | .loop aa len cnt => some [(0#1 ++ 24#6) ++ aa ++ len ++ cnt]
  | .loopm aa len ii sc => some [(0#1 ++ 25#6) ++ aa ++ len ++ ii ++ sc]
  | .bfclr bf => some [(0#1 ++ 27#6) ++ bf ++ 0#21]
  | .bfset bf field aa imm => some [(0#1 ++ 28#6) ++ bf ++ field ++ aa ++ imm]
  | .bfadd bf field aa imm => some [(0#1 ++ 29#6) ++ bf ++ field ++ aa ++ imm]
  | .bfget bf field aa => some [(0#1 ++ 30#6) ++ bf ++ field ++ aa ++ 0#11]
  | .bfmov bf src => some [(0#1 ++ 31#6) ++ bf ++ 0#17 ++ src]
  | .twait mask sel n => some [(0#1 ++ 32#6) ++ mask ++ sel ++ n ++ 0#15]
  | .slipw aa imm => some [(0#1 ++ 34#6) ++ 0#5 ++ aa ++ imm]
  | .ld h fe sd scope ord zext size ad bf aa imm => some [encodeHdr 0 h 0x0 ((0#1) ++ fe ++ sd ++ scope ++ ord ++ zext ++ size), ad ++ bf ++ aa ++ imm]
  | .st h fe sd scope ord zext size src bf aa imm => some [encodeHdr 0 h 0x1 ((0#1) ++ fe ++ sd ++ scope ++ ord ++ zext ++ size), src ++ bf ++ aa ++ imm]
  | .ldf h ad bf aa imm => some [encodeHdr 0 h 0x2 (0#12), ad ++ bf ++ aa ++ imm]
  | .stf h full ab bf aa imm => some [encodeHdr 0 h 0x3 ((0#11) ++ full), ab ++ bf ++ aa ++ imm]
  | .atom h fe sd scope ord zext size ad bf aa ab op imm => some [encodeHdr 0 h 0x8 ((0#1) ++ fe ++ sd ++ scope ++ ord ++ zext ++ size), ad ++ bf ++ aa ++ ab ++ op ++ imm]
  | .fence h scope ord => some [encodeHdr 0 h 0x10 ((0#4) ++ scope ++ ord ++ (0#3)), 0#32]
  | .bara h scope ad aa ab bid => some [encodeHdr 0 h 0x18 ((0#4) ++ scope ++ (0#5)), ad ++ (0#4) ++ aa ++ ab ++ (0#9) ++ bid]
  | .barw h scope ad ab bid => some [encodeHdr 0 h 0x19 ((0#4) ++ scope ++ (0#5)), ad ++ (0#9) ++ ab ++ (0#9) ++ bid]
  | .bars h scope ad aa ab bid => some [encodeHdr 0 h 0x1a ((0#4) ++ scope ++ (0#5)), ad ++ (0#4) ++ aa ++ ab ++ (0#9) ++ bid]
  | .hgive h aa ab imm => some [encodeHdr 0 h 0x20 (0#12), (0#9) ++ aa ++ ab ++ imm]
  | .htake h ad aa imm => some [encodeHdr 0 h 0x21 (0#12), ad ++ (0#4) ++ aa ++ (0#5) ++ imm]
  | .hqry h ad aa imm => some [encodeHdr 0 h 0x22 (0#12), ad ++ (0#4) ++ aa ++ (0#5) ++ imm]
  | .abc h ad aa => some [encodeHdr 0 h 0x28 (0#12), ad ++ (0#4) ++ aa ++ (0#18)]
  | .foot h eng aa imm => some [encodeHdr 0 h 0x29 ((0#9) ++ eng), (0#9) ++ aa ++ (0#5) ++ imm]
  | .csrr h reg ad => some [encodeHdr 0 h 0x30 (reg), ad ++ (0#27)]
  | .csrw h reg aa => some [encodeHdr 0 h 0x31 (reg), (0#9) ++ aa ++ (0#18)]
  | .bellr h ad => some [encodeHdr 0 h 0x32 (0#12), ad ++ (0#27)]
  | .ttok h n => some [encodeHdr 0 h 0x38 (0#12), (0#28) ++ n]
  | .tstart h aa ab entry => some [encodeHdr 0 h 0x39 (0#12), (0#9) ++ aa ++ ab ++ (0#1) ++ entry]
  | .trap h imm => some [encodeHdr 0 h 0x40 (0#12), (0#19) ++ imm]
  | .eret h => some [encodeHdr 0 h 0x41 (0#12), 0#32]
  | .taskend h aa => some [encodeHdr 0 h 0x42 (0#12), (0#9) ++ aa ++ (0#18)]
  | .qres h ad aa ab => some [encodeHdr 0 h 0x1c0 (0#12), ad ++ (0#4) ++ aa ++ ab ++ (0#13)]
  | .qtail h aa ab => some [encodeHdr 0 h 0x1c1 (0#12), (0#9) ++ aa ++ ab ++ (0#13)]
  | .qhead h ad aa => some [encodeHdr 0 h 0x1c2 (0#12), ad ++ (0#4) ++ aa ++ (0#18)]
  | .ditem h ad idx => some [encodeHdr 0 h 0x1c8 (0#12), ad ++ (0#23) ++ idx]
  | .dpush h aa stg => some [encodeHdr 0 h 0x1c9 (0#12), (0#9) ++ aa ++ (0#15) ++ stg]
  | .gclkr h ad => some [encodeHdr 0 h 0x1e0 (0#12), ad ++ (0#27)]
  | .bellw h aa imm => some [encodeHdr 0 h 0x1e1 (0#12), (0#9) ++ aa ++ (0#5) ++ imm]
  | .vadd h ty rm mz vd va vb pg => some [encodeHdr 3 h 0x0 (ty ++ rm ++ mz ++ (0#3)), vd ++ va ++ vb ++ (0#6) ++ pg ++ (0#4)]
  | .vsub h ty rm mz vd va vb pg => some [encodeHdr 3 h 0x1 (ty ++ rm ++ mz ++ (0#3)), vd ++ va ++ vb ++ (0#6) ++ pg ++ (0#4)]
  | .vmul h ty rm mz vd va vb pg => some [encodeHdr 3 h 0x2 (ty ++ rm ++ mz ++ (0#3)), vd ++ va ++ vb ++ (0#6) ++ pg ++ (0#4)]
  | .vmin h ty mz vd va vb pg => some [encodeHdr 3 h 0x3 (ty ++ (0#3) ++ mz ++ (0#3)), vd ++ va ++ vb ++ (0#6) ++ pg ++ (0#4)]
  | .vmax h ty mz vd va vb pg => some [encodeHdr 3 h 0x4 (ty ++ (0#3) ++ mz ++ (0#3)), vd ++ va ++ vb ++ (0#6) ++ pg ++ (0#4)]
  | .vmulh h ty mz vd va vb pg => some [encodeHdr 3 h 0x5 (ty ++ (0#3) ++ mz ++ (0#3)), vd ++ va ++ vb ++ (0#6) ++ pg ++ (0#4)]
  | .vadds h ty mz vd va vb pg => some [encodeHdr 3 h 0x6 (ty ++ (0#3) ++ mz ++ (0#3)), vd ++ va ++ vb ++ (0#6) ++ pg ++ (0#4)]
  | .vsubs h ty mz vd va vb pg => some [encodeHdr 3 h 0x7 (ty ++ (0#3) ++ mz ++ (0#3)), vd ++ va ++ vb ++ (0#6) ++ pg ++ (0#4)]
  | .vfma h ty rm mz vd va vb vc pg => some [encodeHdr 3 h 0x8 (ty ++ rm ++ mz ++ (0#3)), vd ++ va ++ vb ++ vc ++ pg ++ (0#4)]
  | .vfms h ty rm mz vd va vb vc pg => some [encodeHdr 3 h 0x9 (ty ++ rm ++ mz ++ (0#3)), vd ++ va ++ vb ++ vc ++ pg ++ (0#4)]
  | .vfnma h ty rm mz vd va vb vc pg => some [encodeHdr 3 h 0xa (ty ++ rm ++ mz ++ (0#3)), vd ++ va ++ vb ++ vc ++ pg ++ (0#4)]
  | .vabs h ty mz vd va pg => some [encodeHdr 3 h 0x10 (ty ++ (0#3) ++ mz ++ (0#3)), vd ++ va ++ (0#12) ++ pg ++ (0#4)]
  | .vneg h ty mz vd va pg => some [encodeHdr 3 h 0x11 (ty ++ (0#3) ++ mz ++ (0#3)), vd ++ va ++ (0#12) ++ pg ++ (0#4)]
  | .vand h ty mz vd va vb pg => some [encodeHdr 3 h 0x20 (ty ++ (0#3) ++ mz ++ (0#3)), vd ++ va ++ vb ++ (0#6) ++ pg ++ (0#4)]
  | .vor h ty mz vd va vb pg => some [encodeHdr 3 h 0x21 (ty ++ (0#3) ++ mz ++ (0#3)), vd ++ va ++ vb ++ (0#6) ++ pg ++ (0#4)]
  | .vxor h ty mz vd va vb pg => some [encodeHdr 3 h 0x22 (ty ++ (0#3) ++ mz ++ (0#3)), vd ++ va ++ vb ++ (0#6) ++ pg ++ (0#4)]
  | .vnot h ty mz vd va pg => some [encodeHdr 3 h 0x23 (ty ++ (0#3) ++ mz ++ (0#3)), vd ++ va ++ (0#12) ++ pg ++ (0#4)]
  | .vsll h ty mz vd va vb pg => some [encodeHdr 3 h 0x24 (ty ++ (0#3) ++ mz ++ (0#3)), vd ++ va ++ vb ++ (0#6) ++ pg ++ (0#4)]
  | .vsrl h ty mz vd va vb pg => some [encodeHdr 3 h 0x25 (ty ++ (0#3) ++ mz ++ (0#3)), vd ++ va ++ vb ++ (0#6) ++ pg ++ (0#4)]
  | .vsra h ty mz vd va vb pg => some [encodeHdr 3 h 0x26 (ty ++ (0#3) ++ mz ++ (0#3)), vd ++ va ++ vb ++ (0#6) ++ pg ++ (0#4)]
  | .vcmp h ty mz cond pd va vb pg => some [encodeHdr 3 h 0x30 (ty ++ (0#3) ++ mz ++ cond), (0#2) ++ pd ++ va ++ vb ++ (0#6) ++ pg ++ (0#4)]
  | .vsel h ty vd va vb pg => some [encodeHdr 3 h 0x31 (ty ++ (0#7)), vd ++ va ++ vb ++ (0#6) ++ pg ++ (0#4)]
  | .pand h pd pa pb => some [encodeHdr 3 h 0x38 (0#12), (0#2) ++ pd ++ (0#2) ++ pa ++ (0#2) ++ pb ++ (0#14)]
  | .por h pd pa pb => some [encodeHdr 3 h 0x39 (0#12), (0#2) ++ pd ++ (0#2) ++ pa ++ (0#2) ++ pb ++ (0#14)]
  | .pxor h pd pa pb => some [encodeHdr 3 h 0x3a (0#12), (0#2) ++ pd ++ (0#2) ++ pa ++ (0#2) ++ pb ++ (0#14)]
  | .pnot h pd pa => some [encodeHdr 3 h 0x3b (0#12), (0#2) ++ pd ++ (0#2) ++ pa ++ (0#20)]
  | .pcnt h ty ad pa => some [encodeHdr 3 h 0x3c (ty ++ (0#7)), (0#1) ++ ad ++ (0#2) ++ pa ++ (0#20)]
  | .vcvt h ty rm mz aux vd va dty pg => some [encodeHdr 3 h 0x40 (ty ++ rm ++ mz ++ aux), vd ++ va ++ (0#7) ++ dty ++ pg ++ (0#4)]
  | .vred h ty rm op vd va pg seg => some [encodeHdr 3 h 0x50 (ty ++ rm ++ (0#1) ++ op), vd ++ va ++ (0#12) ++ pg ++ seg]
  | .vperm h ty mz aux vd va vb pg => some [encodeHdr 3 h 0x60 (ty ++ (0#3) ++ mz ++ aux), vd ++ va ++ vb ++ (0#6) ++ pg ++ (0#4)]
  | .vdup h ty mz vd aa pg => some [encodeHdr 3 h 0x61 (ty ++ (0#3) ++ mz ++ (0#3)), vd ++ (0#1) ++ aa ++ (0#12) ++ pg ++ (0#4)]
  | .vzip h ty vd va vb => some [encodeHdr 3 h 0x62 (ty ++ (0#7)), vd ++ va ++ vb ++ (0#14)]
  | .vunzip h ty vd va => some [encodeHdr 3 h 0x63 (ty ++ (0#7)), vd ++ va ++ (0#20)]
  | .vgetx h ty ad va aa => some [encodeHdr 3 h 0x64 (ty ++ (0#7)), (0#1) ++ ad ++ va ++ (0#1) ++ aa ++ (0#14)]
  | .vld h ty mz fe vd bf aa pg imm => some [encodeHdr 3 h 0x80 (ty ++ (0#3) ++ mz ++ fe ++ (0#1)), vd ++ bf ++ aa ++ pg ++ imm]
  | .vst h ty fe vs bf aa pg imm => some [encodeHdr 3 h 0x81 (ty ++ (0#4) ++ fe ++ (0#1)), vs ++ bf ++ aa ++ pg ++ imm]
  | .vldg h ty mz vd bf aa pg vi => some [encodeHdr 3 h 0x82 (ty ++ (0#3) ++ mz ++ (0#3)), vd ++ bf ++ aa ++ pg ++ vi ++ (0#7)]
  | .vsts h ty vs bf aa pg vi => some [encodeHdr 3 h 0x83 (ty ++ (0#7)), vs ++ bf ++ aa ++ pg ++ vi ++ (0#7)]
  | .vqld h ty rm mz cb vd bf aa pg => some [encodeHdr 3 h 0x88 (ty ++ rm ++ mz ++ (0#1) ++ cb), vd ++ bf ++ aa ++ pg ++ (0#13)]
  | .vqst h ty imp cb vs bf aa pg ab vb => some [encodeHdr 3 h 0x89 (ty ++ (0#4) ++ imp ++ cb), vs ++ bf ++ aa ++ pg ++ ab ++ vb ++ (0#2)]
  | .vrcp h ty mz vd va pg => some [encodeHdr 3 h 0xa0 (ty ++ (0#3) ++ mz ++ (0#3)), vd ++ va ++ (0#12) ++ pg ++ (0#4)]
  | .vrsqrt h ty mz vd va pg => some [encodeHdr 3 h 0xa1 (ty ++ (0#3) ++ mz ++ (0#3)), vd ++ va ++ (0#12) ++ pg ++ (0#4)]
  | .vsqrt h ty mz vd va pg => some [encodeHdr 3 h 0xa2 (ty ++ (0#3) ++ mz ++ (0#3)), vd ++ va ++ (0#12) ++ pg ++ (0#4)]
  | .vexp2 h ty mz vd va pg => some [encodeHdr 3 h 0xa3 (ty ++ (0#3) ++ mz ++ (0#3)), vd ++ va ++ (0#12) ++ pg ++ (0#4)]
  | .vlog2 h ty mz vd va pg => some [encodeHdr 3 h 0xa4 (ty ++ (0#3) ++ mz ++ (0#3)), vd ++ va ++ (0#12) ++ pg ++ (0#4)]
  | .vsinpi h ty mz vd va pg => some [encodeHdr 3 h 0xa5 (ty ++ (0#3) ++ mz ++ (0#3)), vd ++ va ++ (0#12) ++ pg ++ (0#4)]
  | .vcospi h ty mz vd va pg => some [encodeHdr 3 h 0xa6 (ty ++ (0#3) ++ mz ++ (0#3)), vd ++ va ++ (0#12) ++ pg ++ (0#4)]
  | .vtanh h ty mz vd va pg => some [encodeHdr 3 h 0xa7 (ty ++ (0#3) ++ mz ++ (0#3)), vd ++ va ++ (0#12) ++ pg ++ (0#4)]
  | .vsigm h ty mz vd va pg => some [encodeHdr 3 h 0xa8 (ty ++ (0#3) ++ mz ++ (0#3)), vd ++ va ++ (0#12) ++ pg ++ (0#4)]
  | .vgelu h ty mz vd va pg => some [encodeHdr 3 h 0xa9 (ty ++ (0#3) ++ mz ++ (0#3)), vd ++ va ++ (0#12) ++ pg ++ (0#4)]
  | .vsilu h ty mz vd va pg => some [encodeHdr 3 h 0xaa (ty ++ (0#3) ++ mz ++ (0#3)), vd ++ va ++ (0#12) ++ pg ++ (0#4)]
  | .verf h ty mz vd va pg => some [encodeHdr 3 h 0xab (ty ++ (0#3) ++ mz ++ (0#3)), vd ++ va ++ (0#12) ++ pg ++ (0#4)]
  | .mload h st fe tr pfmt cb bf aa ab ac => some [encodeHdr 2 h 0x0 (st ++ fe ++ tr ++ (0#2) ++ pfmt ++ cb ++ (0#1)), bf ++ aa ++ ab ++ ac ++ (0#13)]
  | .mflip h st => some [encodeHdr 2 h 0x1 (st ++ (0#11)), 0#32]
  | .mdrop h => some [encodeHdr 2 h 0x2 (0#12), 0#32]
  | .mstream h st fe acc zd pfmt cb bf aa ab ac am m1 => some [encodeHdr 2 h 0x8 (st ++ fe ++ acc ++ zd ++ pfmt ++ cb ++ (0#1)), bf ++ aa ++ ab ++ ac ++ am ++ m1 ++ (0#1)]
  | .mzero h zd => some [encodeHdr 2 h 0x10 ((0#4) ++ zd ++ (0#6)), 0#32]
  | .mwin h zd w => some [encodeHdr 2 h 0x11 ((0#4) ++ zd ++ (0#6)), (0#25) ++ w]
  | .mcopy h zd za => some [encodeHdr 2 h 0x12 ((0#4) ++ zd ++ za ++ (0#4)), 0#32]
  | .madd h zd za => some [encodeHdr 2 h 0x13 ((0#4) ++ zd ++ za ++ (0#4)), 0#32]
  | .mgetz h zd q hi ad aa => some [encodeHdr 2 h 0x14 ((0#4) ++ zd ++ (0#4) ++ q ++ hi), ad ++ aa ++ (0#22)]
  | .mdrain h st clr grad zd rm bf aa ab ac am => some [encodeHdr 2 h 0x18 (st ++ clr ++ grad ++ (0#1) ++ zd ++ rm ++ (0#3)), bf ++ aa ++ ab ++ ac ++ am ++ (0#8)]
  | .msigr h ad ab => some [encodeHdr 2 h 0x19 (0#12), ad ++ ab ++ (0#22)]
  | .msync h => some [encodeHdr 2 h 0x1a (0#12), 0#32]
  | .mcb h fe cbn n256 bf aa => some [encodeHdr 2 h 0x20 ((0#1) ++ fe ++ (0#1) ++ cbn ++ (0#5) ++ n256), bf ++ aa ++ (0#23)]
  | .mstat h clr ad => some [encodeHdr 2 h 0x21 ((0#11) ++ clr), ad ++ (0#27)]
  | .mpert h aa ab ac => some [encodeHdr 2 h 0x100 (0#12), aa ++ ab ++ ac ++ (0#17)]
  | .mpoff h => some [encodeHdr 2 h 0x101 (0#12), 0#32]
  | .mpstep h ib imm => some [encodeHdr 2 h 0x102 ((0#11) ++ ib), (0#16) ++ imm]
  | .mpref h fe tr bf aa ab ac => some [encodeHdr 2 h 0x108 ((0#1) ++ fe ++ tr ++ (0#8)), bf ++ aa ++ ab ++ ac ++ (0#13)]
  | .mpsamp h q hh ad aa => some [encodeHdr 2 h 0x110 ((0#10) ++ q ++ hh), ad ++ aa ++ (0#22)]
  | .rstat h sel ad => some [encodeHdr 2 h 0x180 ((0#8) ++ sel), ad ++ (0#27)]
  | .rchk h aa => some [encodeHdr 2 h 0x181 (0#12), aa ++ (0#27)]
  | .rmode h aa => some [encodeHdr 2 h 0x182 (0#12), aa ++ (0#27)]
  | .rinj h q aa ab => some [encodeHdr 2 h 0x183 ((0#11) ++ q), aa ++ ab ++ (0#22)]
  | .bcopy h ac cr fe bfd bfs ad src an => some [encodeHdr 1 h 0x0 (ac ++ cr ++ fe ++ (0#5)), bfd ++ bfs ++ ad ++ src ++ an ++ (0#9)]
  | .bcopyS h ac cr fe bfd bfs ad src an ag => some [encodeHdr 1 h 0x1 (ac ++ cr ++ fe ++ (0#5)), bfd ++ bfs ++ ad ++ src ++ an ++ ag ++ (0#4)]
  | .bfill h ac cr bfd ad src an => some [encodeHdr 1 h 0x2 (ac ++ cr ++ (0#7)), bfd ++ (0#4) ++ ad ++ src ++ an ++ (0#9)]
  | .bdedup h ac cr bft bfs slot src => some [encodeHdr 1 h 0x10 (ac ++ cr ++ (0#7)), bft ++ bfs ++ slot ++ src ++ (0#14)]
  | .bcow h ac cr bft bfs slot src ap => some [encodeHdr 1 h 0x11 (ac ++ cr ++ (0#7)), bft ++ bfs ++ slot ++ src ++ ap ++ (0#9)]
  | .bcmp h ac cr bft bfs slot src => some [encodeHdr 1 h 0x12 (ac ++ cr ++ (0#7)), bft ++ bfs ++ slot ++ src ++ (0#14)]
  | .bwait h ac ring aa imm => some [encodeHdr 1 h 0x20 (ac ++ ring ++ (0#7)), aa ++ (0#11) ++ imm]
  | .bacnt h ac ad => some [encodeHdr 1 h 0x21 (ac ++ (0#8)), ad ++ (0#27)]
  | .bsync h => some [encodeHdr 1 h 0x22 (0#12), 0#32]
  | .tcvt h rm fe sf aux bfd bfs ad src an => some [encodeHdr 4 h 0x0 (rm ++ fe ++ sf ++ aux ++ (0#2)), bfd ++ bfs ++ ad ++ src ++ an ++ (0#9)]
  | .tcvti h fe sf aux bfd bfs ad src an ax => some [encodeHdr 4 h 0x1 ((0#3) ++ fe ++ sf ++ aux ++ (0#2)), bfd ++ bfs ++ ad ++ src ++ an ++ ax ++ (0#4)]
  | .tamax h fe sf bs bfd bfs ad src an => some [encodeHdr 4 h 0x8 ((0#3) ++ fe ++ sf ++ (0#2) ++ bs ++ (0#2)), bfd ++ bfs ++ ad ++ src ++ an ++ (0#9)]
  | .tsqze h fe sf bfd bfs ad src an => some [encodeHdr 4 h 0x10 ((0#3) ++ fe ++ sf ++ (0#6)), bfd ++ bfs ++ ad ++ src ++ an ++ (0#9)]
  | .tsqzd h fe sf bfd bfs ad src an => some [encodeHdr 4 h 0x11 ((0#3) ++ fe ++ sf ++ (0#6)), bfd ++ bfs ++ ad ++ src ++ an ++ (0#9)]
  | .ttr h fe sf bfd bfs ad src an => some [encodeHdr 4 h 0x18 ((0#3) ++ fe ++ sf ++ (0#6)), bfd ++ bfs ++ ad ++ src ++ an ++ (0#9)]
  | .tbara h bid aa => some [encodeHdr 4 h 0x20 ((0#8) ++ bid), aa ++ (0#27)]
  | .tbarw h bid => some [encodeHdr 4 h 0x21 ((0#8) ++ bid), 0#32]
  | .tbars h bid aa => some [encodeHdr 4 h 0x22 ((0#8) ++ bid), aa ++ (0#27)]
  | .tld h ad bf aa imm => some [encodeHdr 4 h 0x28 (0#12), ad ++ bf ++ aa ++ imm]
  | .tst h src bf aa imm => some [encodeHdr 4 h 0x29 (0#12), src ++ bf ++ aa ++ imm]
  | .trd h reg ad => some [encodeHdr 4 h 0x30 (reg), ad ++ (0#27)]
  | .twr h reg aa => some [encodeHdr 4 h 0x31 (reg), aa ++ (0#27)]
  | .tsync h => some [encodeHdr 4 h 0x38 (0#12), 0#32]
  | .cadd h rm bfd bfs ad src an => some [encodeHdr 5 h 0x0 (rm ++ (0#9)), bfd ++ bfs ++ ad ++ src ++ an ++ (0#9)]
  | .cmin h bfd bfs ad src an => some [encodeHdr 5 h 0x1 (0#12), bfd ++ bfs ++ ad ++ src ++ an ++ (0#9)]
  | .cmax h bfd bfs ad src an => some [encodeHdr 5 h 0x2 (0#12), bfd ++ bfs ++ ad ++ src ++ an ++ (0#9)]
  | .caxpy h rm bfd bfs ad src an ab => some [encodeHdr 5 h 0x3 (rm ++ (0#9)), bfd ++ bfs ++ ad ++ src ++ an ++ ab ++ (0#4)]
  | .cscal h rm bfd ad an ab => some [encodeHdr 5 h 0x4 (rm ++ (0#9)), bfd ++ (0#4) ++ ad ++ (0#5) ++ an ++ ab ++ (0#4)]
  | .binit h scope ad bf aa ab => some [encodeHdr 5 h 0x20 ((0#4) ++ scope ++ (0#5)), ad ++ bf ++ aa ++ ab ++ (0#13)]
  | .cbar h ad bf aa ab => some [encodeHdr 5 h 0x21 (0#12), ad ++ bf ++ aa ++ ab ++ (0#13)]
  | .cbwait h ad bf aa ab => some [encodeHdr 5 h 0x22 (0#12), ad ++ bf ++ aa ++ ab ++ (0#13)]
  | .stage => some [(0#1 ++ 26#6) ++ 0#25]
  | .phase => some [(0#1 ++ 33#6) ++ 0#25]
  | .nop => some [(0#1 ++ 35#6) ++ 0#25]
  | .endText => some [(0#1 ++ 36#6) ++ 0#25]
  | .loopmPass _ => none
  | .abcReceive _ => none
  | .mloadFillComplete _ => none
  | .mflipTakesEffect _ => none
  | .mstreamComplete _ => none
  | .tileSignatureFormed _ => none
  | .copyCompletion _ => none
  | .barrierLinePoison _ => none
  | .atomicRequest _ => none
  | .registerResultLanding _ => none
  | .loadDataReturn _ => none
  | .pendingPush _ => none
  | .tokenTimeout _ => none
  | .feTimeout _ => none
  | .translationResolve _ _ => none
  | .translationAbort _ _ => none
  | .pageWalk _ _ => none
  | .tlbiAll _ _ => none
  | .tlbiPages _ _ _ _ => none
  | .aliasWriteback _ => none
  | .frEnable _ _ _ => none
  | .frDisable _ _ => none
  | .channelMigration _ _ _ => none
  | .slipwWrite _ => none
  | .cringHeadWrite _ => none
  | .reeveModeWrite _ => none
  | .wqEnable _ _ => none
  | .wqDisable _ _ => none
  | .wqTailWrite _ _ => none
  | .hostFetchadd _ _ _ => none
  | .stage0ItemGenerate _ => none
  | .instanceEnd _ => none
  | .pipelineStall _ => none
  | .partitionEnable _ => none
  | .partitionDisable _ => none
  | .resume _ _ => none
  | .abort _ _ => none
  | .run _ _ => none
  | .halt _ => none
  | .planeDiffBroadcast _ => none
  | .shadowPlaneLoad _ _ => none
  | .crier _ => none
  | .limitLower _ _ _ => none
  | .unannouncedClamp _ _ => none
  | .heartbeat _ => none
  | .round _ => none
  | .rparam _ => none
  | .peerSilenceTimeout _ => none
  | .silent _ => none
  | .join _ => none
  | .leave _ => none
  | .mootJoinCommand _ => none
  | .quotaExhausted _ => none
  | .rpcapWrite _ _ _ => none
  | .sensFailClear _ _ => none
  | .flitReceive _ _ => none
  | .linkDown _ => none
  | .routeWaitTimeout _ => none
  | .hostBarAccess _ => none
  | .hostCompletion _ _ => none
  | .restore _ _ => none
  | .pkgnum _ => none
  | .startupStage _ _ => none
  | .registerWrite _ _ => none
  | .reservedEncoding _ _ => none
  | .writeBackAcknowledged _ => none
  | .sensorFail _ _ => none
  | .linkUp _ _ => none
  | .controlPathError _ => none
  | .laneSpare _ _ => none
  | .replayTimeout _ => none
  | .linkOff _ => none
  | .stampedIssue => none
  | .poundCommit => none
  | .reeveMismatch => none
  | .reeveSampledCheck => none
  | .reeveForcedCheck => none
  | .transformCompletion => none
  | .faultRecord => none
  | .invalidationComplete => none
  | .strandLaunch => none
  | .sliceExpiry => none
  | .contextSwap => none
  | .planeDiffApply => none
  | .swapToken => none
  | .planeSwap => none
  | .ceilingEffective => none
  | .heartbeatSend => none
  | .roundSend => none
  | .roundTick => none
  | .roundMiss => none
  | .mootLeaveCommand => none
  | .quiesce => none
  | .reset => none
  | .powerOnReset => none
  | .powerFault => none
  | .bellTargetReached => none

/-- The instruction your decoder reads from the bits of an opcode-table row: `nbits` bits of `w`, the first
word in bits 31..0 and the second, where there is one, in bits 63..32; bits above `nbits` are zero (R59). -/
def decodeTableWord (nbits w : Nat) : Option Instr :=
  let x := BitVec.ofNat 64 (w % 2 ^ nbits)
  decode (field x 0 32) (field x 32 32)

end Sys2Proof
end

