-- ==== Sys2Proof/Config.lean ====
section
/-!
DEFINITION. What the spec leaves open and no rule fixes: free values, opaque constants with no body, so that nothing in
Lean can evaluate them or prove a value of them.
-/
namespace Sys2Proof

/-- Free value number `n` of width `w`: a value that the spec does not state (DESIGN CHOICE: assumption 5). The step draws the next
number from `State.free`. -/
opaque Config.freeValue (w n : Nat) : BitVec w

/-- Where in the allowed interval a special-function result lies (R230 bounds it and does not state it), by function and
FP32 source code; used modulo the number of allowed codes (DESIGN CHOICE: assumption 6). -/
opaque Config.sfuChoice (fn src : Nat) : Nat

end Sys2Proof
end

