-- ==== Sys2Proof/Machine/Numbers.lean ====
section
/-! DEFINITION. Numbers (chapter 3): exact rationals, the element formats, rounding, sticky flags and SOW-MIX. -/
namespace Sys2Proof.Machine

/-- An exact rational `num / den` (`den > 0`); not kept in lowest terms. -/
structure Q where
  num : Int
  den : Nat
deriving DecidableEq, Repr, Inhabited

/-- What an arithmetic instruction adds to the sticky flags (Table 3.5) and to the counts of R139. -/
structure Fx where
  nv : Bool := false
  dz : Bool := false
  of : Bool := false
  uf : Bool := false
  nx : Bool := false
  sat : Bool := false
  nan : Bool := false
  asat : Bool := false
  eccz : Bool := false
  satq : Bool := false
  undq : Bool := false
  nsat : Nat := 0
  nund : Nat := 0
deriving DecidableEq, Repr, Inhabited

/-- An exact value of an element: a finite real (`neg` is the sign, which matters for zero), an infinity or a NaN
(`sig` marks a signalling one, R110). -/
inductive Val where
  | fin (neg : Bool) (q : Q)
  | inf (neg : Bool)
  | nan (sig : Bool)
deriving DecidableEq, Repr, Inhabited

/-- Rounding modes (Table 3.4), DYN already resolved. -/
inductive RMode where
  | rne | rz | ru | rd | sr
deriving DecidableEq, Repr, Inhabited

/-- Which NaN codes a floating format has. -/
inductive NanKind where
  | none | ieee | e4m3 | e5m2
deriving DecidableEq, Repr, Inhabited

/-- A floating format (Tables 3.2 and 3.3): exponent and mantissa widths, bias, whether it has infinities, its NaN
codes, and its largest finite value `maxNum * 2 ^ maxExp`. -/
structure FFmt where
  ebits : Nat
  mbits : Nat
  bias : Nat
  hasInf : Bool
  nans : NanKind
  maxNum : Nat
  maxExp : Int
deriving DecidableEq, Repr, Inhabited

/-- The element formats of Table 3.1. -/
inductive Fmt where
  | int8 | uint8 | int16 | int32 | int64 | int4
  | fp32 | bf16 | fp16
  | e4m3 | e5m2 | e3m2 | e2m3 | e2m1
  | mxe4m3 | mxe5m2 | mxe3m2 | mxe2m3 | mxfp4 | mxint8
  | mxe4m3t | mxe5m2t | mxe3m2t | mxe2m3t | mxfp4t | mxint8t
  | tl8 | tl4 | cb4 | cb8 | sqz8 | mld16
deriving DecidableEq, Repr, Inhabited

/-- Flags join by OR and counts by addition (R123, R198). -/
def Fx.join (a b : Fx) : Fx :=
  { nv := a.nv || b.nv, dz := a.dz || b.dz, of := a.of || b.of, uf := a.uf || b.uf, nx := a.nx || b.nx,
    sat := a.sat || b.sat, nan := a.nan || b.nan, asat := a.asat || b.asat, eccz := a.eccz || b.eccz,
    satq := a.satq || b.satq, undq := a.undq || b.undq, nsat := a.nsat + b.nsat, nund := a.nund + b.nund }

/-- The flag settings of a list of elements. -/
def Fx.joinAll (l : List Fx) : Fx := l.foldl Fx.join {}

/-! ### Exact rationals -/

def Q.zero : Q := ⟨0, 1⟩
def Q.ofInt (n : Int) : Q := ⟨n, 1⟩
def Q.isZero (x : Q) : Bool := x.num == 0
def Q.neg (x : Q) : Q := ⟨-x.num, x.den⟩
def Q.abs (x : Q) : Q := ⟨x.num.natAbs, x.den⟩
def Q.mul (x y : Q) : Q := ⟨x.num * y.num, x.den * y.den⟩

/-- Exact sum; where one denominator divides the other the larger one is kept, so dyadic sums stay small. -/
def Q.add (x y : Q) : Q :=
  if x.den % y.den = 0 then ⟨x.num + y.num * ((x.den / y.den : Nat) : Int), x.den⟩
  else if y.den % x.den = 0 then ⟨x.num * ((y.den / x.den : Nat) : Int) + y.num, y.den⟩
  else ⟨x.num * (y.den : Int) + y.num * (x.den : Int), x.den * y.den⟩

def Q.sub (x y : Q) : Q := x.add y.neg
def Q.lt (x y : Q) : Bool := x.num * (y.den : Int) < y.num * (x.den : Int)
def Q.le (x y : Q) : Bool := x.num * (y.den : Int) ≤ y.num * (x.den : Int)
def Q.eqv (x y : Q) : Bool := x.num * (y.den : Int) == y.num * (x.den : Int)
def Q.max (x y : Q) : Q := if x.lt y then y else x

/-- `x * 2 ^ k`, exactly. -/
def Q.scale (x : Q) (k : Int) : Q :=
  if k ≥ 0 then ⟨x.num * ((2 ^ k.toNat : Nat) : Int), x.den⟩ else ⟨x.num, x.den * 2 ^ (-k).toNat⟩

/-- `x / y` for `y > 0`. -/
def Q.divPos (x y : Q) : Q := ⟨x.num * (y.den : Int), x.den * y.num.toNat⟩

/-- `2 ^ k`. -/
def Q.pow2 (k : Int) : Q := (Q.ofInt 1).scale k

/-- Largest integer not above `x`. -/
def Q.floor (x : Q) : Int := x.num / (x.den : Int)

/-- `floor_log2 (abs x)` for `x ≠ 0`. -/
def Q.log2 (x : Q) : Int :=
  let n := x.num.natAbs
  let k : Int := (Nat.log2 n : Int) - (Nat.log2 x.den : Int)
  if (Q.pow2 k).le ⟨n, x.den⟩ then k else k - 1

/-! ### Formats -/

def FFmt.fp32 : FFmt := ⟨8, 23, 127, true, .ieee, 2 ^ 24 - 1, 104⟩
def FFmt.bf16 : FFmt := ⟨8, 7, 127, true, .ieee, 2 ^ 8 - 1, 120⟩
def FFmt.fp16 : FFmt := ⟨5, 10, 15, true, .ieee, 2 ^ 11 - 1, 5⟩
def FFmt.e4m3 : FFmt := ⟨4, 3, 7, false, .e4m3, 14, 5⟩
def FFmt.e5m2 : FFmt := ⟨5, 2, 15, true, .e5m2, 7, 13⟩
def FFmt.e3m2 : FFmt := ⟨3, 2, 3, false, .none, 7, 2⟩
def FFmt.e2m3 : FFmt := ⟨2, 3, 1, false, .none, 15, -1⟩
def FFmt.e2m1 : FFmt := ⟨2, 1, 1, false, .none, 3, 1⟩
/-- The unsigned block scale of the two-level formats (R135). -/
def FFmt.ue4m3 : FFmt := ⟨4, 3, 7, false, .none, 15, 5⟩

def FFmt.width (f : FFmt) : Nat := 1 + f.ebits + f.mbits
/-- Exponent of the smallest normal. -/
def FFmt.emin (f : FFmt) : Int := 1 - (f.bias : Int)
def FFmt.maxQ (f : FFmt) : Q := (Q.ofInt f.maxNum).scale f.maxExp
/-- Exponent of the largest finite value (`emax` of Table 3.3). -/
def FFmt.emax (f : FFmt) : Int := (Nat.log2 f.maxNum : Int) + f.maxExp

/-- The canonical NaN (R111); 0 for a format without one. -/
def FFmt.canonNan (f : FFmt) : Nat :=
  match f.nans with
  | .none => 0
  | .ieee => (2 ^ f.ebits - 1) * 2 ^ f.mbits + 2 ^ (f.mbits - 1)
  | .e4m3 => 0x7F
  | .e5m2 => 0x7E

/-- The code of an infinity (of the largest finite value where the format has none). -/
def FFmt.infCode (f : FFmt) (neg : Bool) : Nat :=
  let s := if neg then 2 ^ (f.width - 1) else 0
  if f.hasInf then s + (2 ^ f.ebits - 1) * 2 ^ f.mbits
  else s + (if f.nans = .e4m3 then 0x7E else 2 ^ (f.width - 1) - 1)

/-- The code of the largest finite value. -/
def FFmt.maxCode (f : FFmt) (neg : Bool) : Nat :=
  let s := if neg then 2 ^ (f.width - 1) else 0
  if f.hasInf then s + (2 ^ f.ebits - 1) * 2 ^ f.mbits - 1 else f.infCode neg

/-- The exact value of a code (R110, R112, R113). -/
def FFmt.value (f : FFmt) (code : Nat) : Val :=
  let neg := code / 2 ^ (f.width - 1) % 2 == 1
  let e := code / 2 ^ f.mbits % 2 ^ f.ebits
  let m := code % 2 ^ f.mbits
  let top := e == 2 ^ f.ebits - 1
  let finite : Val :=
    let mag : Q := if e = 0 then (Q.ofInt m).scale (f.emin - f.mbits)
      else (Q.ofInt ((2 ^ f.mbits + m : Nat) : Int)).scale ((e : Int) - f.bias - f.mbits)
    .fin neg (if neg then mag.neg else mag)
  match f.nans with
  | .none => finite
  | .e4m3 => if top && m == 7 then .nan false else finite
  | .ieee => if top then (if m = 0 then .inf neg else .nan (m < 2 ^ (f.mbits - 1))) else finite
  | .e5m2 => if top then (if m = 0 then .inf neg else .nan false) else finite

/-- The value of a UE4M3 scale code; bit 7 is read as 0 (R135). -/
def ue4m3Value (code : Nat) : Q :=
  let e := code / 8 % 16
  let m := code % 8
  if e = 0 then (Q.ofInt m).scale (-9) else (Q.ofInt ((8 + m : Nat) : Int)).scale ((e : Int) - 10)

/-! ### Rounding (R115 to R119) -/

/-- `x` rounded to an integer in mode `m`; `u` is `sr_bits()`. -/
def Q.round (x : Q) (m : RMode) (u : Nat) : Int :=
  let lo := x.floor
  let r := (x.num % (x.den : Int)).toNat
  if r = 0 then lo else
  match m with
  | .rne => if 2 * r < x.den then lo else if x.den < 2 * r then lo + 1 else if lo % 2 = 0 then lo else lo + 1
  | .rz => if x.num > 0 then lo else lo + 1
  | .ru => lo + 1
  | .rd => lo
  | .sr => if u < r * 65536 / x.den then lo + 1 else lo

/-- The exponent of the spacing of `f` around `x ≠ 0` (`q = 2 ^ this` in R115). -/
def FFmt.spacing (f : FFmt) (x : Q) : Int := (if x.log2 < f.emin then f.emin else x.log2) - f.mbits

/-- The code whose magnitude is `k * 2 ^ e`, which `f` represents exactly. -/
def FFmt.encodeExact (f : FFmt) (neg : Bool) (k : Nat) (e : Int) : Nat :=
  let s := if neg then 2 ^ (f.width - 1) else 0
  if k = 0 then s else
  let l : Int := (Nat.log2 k : Int) + e
  if l < f.emin then s + k * 2 ^ (e - (f.emin - f.mbits)).toNat
  else
    let n := Nat.log2 k
    let sig := if n ≥ f.mbits then k / 2 ^ (n - f.mbits) else k * 2 ^ (f.mbits - n)
    s + (l + f.bias).toNat * 2 ^ f.mbits + (sig - 2 ^ f.mbits)

/-- R115 with R117 to R119: the code of the exact real `x` in `f`, and the flags. `sat` selects the second row of the
overflow table for a format that has infinities; `zneg` is the sign of an exact zero. -/
def FFmt.roundTo (f : FFmt) (m : RMode) (u : Nat) (sat : Bool) (x : Q) (zneg : Bool) : Nat × Fx :=
  if x.isZero then (if zneg then 2 ^ (f.width - 1) else 0, {}) else
  let e := f.spacing x
  let k := (x.scale (-e)).round m u
  let neg := x.num < 0
  let y := (Q.ofInt k).scale e
  if f.maxQ.lt y.abs then
    let toInf := f.hasInf && !sat && (match m with
      | .rne => true
      | .sr => true
      | .rz => false
      | .ru => !neg
      | .rd => neg)
    (if toInf then f.infCode neg else f.maxCode neg, { of := true, nx := true })
  else
    let inexact := !(x.eqv y)
    (f.encodeExact neg k.natAbs e,
      { nx := inexact, uf := inexact && y.abs.lt (Q.pow2 f.emin) })

/-- A code of FP32, BF16 or FP16 whose value is subnormal. -/
def FFmt.isSub (f : FFmt) (code : Nat) : Bool :=
  code / 2 ^ f.mbits % 2 ^ f.ebits == 0 && code % 2 ^ f.mbits != 0

/-- R120: a subnormal source reads as a zero of its sign while FZ is set. -/
def FFmt.flushSrc (f : FFmt) (fz : Bool) (code : Nat) : Nat :=
  if fz && f.nans = .ieee && f.isSub code then code / 2 ^ (f.width - 1) % 2 * 2 ^ (f.width - 1) else code

/-- R120: a subnormal result becomes a zero of its sign, with UF and NX, while FZ is set. -/
def FFmt.flushRes (f : FFmt) (fz : Bool) (r : Nat × Fx) : Nat × Fx :=
  if fz && f.nans = .ieee && f.isSub r.1 then
    (r.1 / 2 ^ (f.width - 1) % 2 * 2 ^ (f.width - 1), { r.2 with uf := true, nx := true })
  else r

/-- A value converted to a floating format (Table 3.6): NaN and infinity rows, then R115. -/
def FFmt.convert (f : FFmt) (m : RMode) (u : Nat) (sat : Bool) (v : Val) : Nat × Fx :=
  match v with
  | .nan sig => if f.nans = .none then (0, { nv := true }) else (f.canonNan, { nv := sig })
  | .inf neg => if f.hasInf then (f.infCode neg, {}) else (f.maxCode neg, { of := true })
  | .fin neg q => f.roundTo m u sat q neg

/-! ### Integers (R109, R125, R126) -/

/-- `n` as a two's complement or unsigned code of `w` bits (low bits kept). -/
def intCode (w : Nat) (n : Int) : Nat := (n % ((2 ^ w : Nat) : Int)).toNat

/-- The value of an integer code. -/
def intValue (w : Nat) (signed : Bool) (code : Nat) : Int :=
  let c := code % 2 ^ w
  if signed && c ≥ 2 ^ (w - 1) then (c : Int) - ((2 ^ w : Nat) : Int) else (c : Int)

def intMin (w : Nat) (signed : Bool) : Int := if signed then -((2 ^ (w - 1) : Nat) : Int) else 0
def intMax (w : Nat) (signed : Bool) : Int := ((2 ^ (if signed then w - 1 else w) : Nat) : Int) - 1

/-- `n` clamped to the range of an integer type, and whether it was clamped. -/
def clampInt (w : Nat) (signed : Bool) (n : Int) : Int × Bool :=
  if n < intMin w signed then (intMin w signed, true)
  else if intMax w signed < n then (intMax w signed, true) else (n, false)

/-- R125: a floating value converted to an integer format. -/
def floatToInt (w : Nat) (signed : Bool) (m : RMode) (u : Nat) (v : Val) : Nat × Fx :=
  match v with
  | .nan _ => (0, { nv := true })
  | .inf neg => (intCode w (if neg then intMin w signed else intMax w signed), { nv := true })
  | .fin _ q =>
    let n := q.round m u
    let c := clampInt w signed n
    if c.2 then (intCode w c.1, { nv := true, nx := true })
    else (intCode w c.1, { nx := !(q.eqv (Q.ofInt n)) })

/-- R126: an integer converted to another integer format. -/
def intToInt (w : Nat) (signed : Bool) (n : Int) : Nat × Fx :=
  let c := clampInt w signed n
  (intCode w c.1, { sat := c.2 })

/-! ### Format codes (Table 3.1) -/

/-- The format of a code; a code not in Table 3.1 is reserved (R106). -/
def Fmt.ofCode (c : Nat) : Option Fmt :=
  match c with
  | 0x00 => some .int8 | 0x01 => some .uint8 | 0x02 => some .int16 | 0x03 => some .int32 | 0x04 => some .int64
  | 0x05 => some .int4 | 0x08 => some .fp32 | 0x09 => some .bf16 | 0x0A => some .fp16
  | 0x10 => some .e4m3 | 0x11 => some .e5m2 | 0x12 => some .e3m2 | 0x13 => some .e2m3 | 0x14 => some .e2m1
  | 0x20 => some .mxe4m3 | 0x21 => some .mxe5m2 | 0x22 => some .mxe3m2 | 0x23 => some .mxe2m3
  | 0x24 => some .mxfp4 | 0x25 => some .mxint8
  | 0x28 => some .mxe4m3t | 0x29 => some .mxe5m2t | 0x2A => some .mxe3m2t | 0x2B => some .mxe2m3t
  | 0x2C => some .mxfp4t | 0x2D => some .mxint8t
  | 0x30 => some .tl8 | 0x31 => some .tl4 | 0x38 => some .cb4 | 0x39 => some .cb8
  | 0x40 => some .sqz8 | 0x48 => some .mld16
  | _ => none

/-- Element width in bits (column b); SQZ8 has none. -/
def Fmt.bits : Fmt → Nat
  | .int8 | .uint8 | .e4m3 | .e5m2 | .mxe4m3 | .mxe5m2 | .mxint8 | .mxe4m3t | .mxe5m2t | .mxint8t | .tl8 | .cb8 => 8
  | .int16 | .bf16 | .fp16 | .mld16 => 16
  | .int32 | .fp32 => 32
  | .int64 => 64
  | .int4 | .e2m1 | .mxfp4 | .mxfp4t | .tl4 | .cb4 => 4
  | .e3m2 | .e2m3 | .mxe3m2 | .mxe2m3 | .mxe3m2t | .mxe2m3t => 6
  | .sqz8 => 8

/-- Block size of a scaled format; 0 for the others. -/
def Fmt.block : Fmt → Nat
  | .mxe4m3 | .mxe5m2 | .mxe3m2 | .mxe2m3 | .mxfp4 | .mxint8 => 32
  | .mxe4m3t | .mxe5m2t | .mxe3m2t | .mxe2m3t | .mxfp4t | .mxint8t => 32
  | .tl8 | .tl4 => 16
  | _ => 0

/-- Scale width in bytes; 0 for the formats without one. -/
def Fmt.scaleBytes : Fmt → Nat
  | .mxe4m3 | .mxe5m2 | .mxe3m2 | .mxe2m3 | .mxfp4 | .mxint8 => 1
  | .mxe4m3t | .mxe5m2t | .mxe3m2t | .mxe2m3t | .mxfp4t | .mxint8t => 2
  | .tl8 | .tl4 => 2
  | _ => 0

def Fmt.isMx (f : Fmt) : Bool := f.block == 32
def Fmt.isTl (f : Fmt) : Bool := f.block == 16
def Fmt.isTagged (f : Fmt) : Bool := f.scaleBytes == 2
def Fmt.isCb (f : Fmt) : Bool := f = .cb4 || f = .cb8
/-- Formats whose elements lie one beside another with no scale, codebook slot or tile (R295 calls them plain). -/
def Fmt.isPlain (f : Fmt) : Bool := f.block == 0 && f != .sqz8

/-- Integer formats: width and signedness. -/
def Fmt.int? : Fmt → Option (Nat × Bool)
  | .int8 => some (8, true)
  | .uint8 => some (8, false)
  | .int16 => some (16, true)
  | .int32 => some (32, true)
  | .int64 => some (64, true)
  | .int4 => some (4, true)
  | _ => none

/-- Floating element format of a format, scaled ones included. -/
def Fmt.float? : Fmt → Option FFmt
  | .fp32 => some .fp32
  | .bf16 => some .bf16
  | .fp16 => some .fp16
  | .e4m3 | .mxe4m3 | .mxe4m3t | .tl8 => some .e4m3
  | .e5m2 | .mxe5m2 | .mxe5m2t => some .e5m2
  | .e3m2 | .mxe3m2 | .mxe3m2t => some .e3m2
  | .e2m3 | .mxe2m3 | .mxe2m3t => some .e2m3
  | .e2m1 | .mxfp4 | .mxfp4t | .tl4 => some .e2m1
  | _ => none

/-! ### SOW-MIX (R276) and stochastic bits (R116) -/

def sowMix (seed stream index : BitVec 32) : BitVec 32 :=
  let h := seed ^^^ (stream * 0x9E37#32) ^^^ (index * 0x85EB#32)
  let h := h ^^^ (h >>> 16)
  let h := h * 0x7FEB#32
  let h := h ^^^ (h >>> 15)
  let h := h * 0x846D#32
  h ^^^ (h >>> 16)

/-- The integer `n` of R276 (`z = n * 2 ^ -8`). -/
def sowN (seed stream index : BitVec 32) : Int :=
  let h := sowMix seed stream index
  2 * (((field h 0 8).toNat + (field h 8 8).toNat + (field h 16 8).toNat : Nat) : Int) - 765

def sowZ (seed stream index : BitVec 32) : Q := (Q.ofInt (sowN seed stream index)).scale (-8)

/-- `sr_bits()` (R116): bits 31:16 of the final value of SOW-MIX. -/
def srBits (seed stream index : BitVec 32) : Nat := (field (sowMix seed stream index) 16 16).toNat

/-- Table 3.4 with DYN taken from VCTL.RM; none for a reserved mode (R114). -/
def RMode.ofCode (code : BitVec 3) (dyn : BitVec 3) : Option RMode :=
  let base (c : BitVec 3) : Option RMode :=
    match c.toNat with
    | 0 => some .rne
    | 1 => some .rz
    | 2 => some .ru
    | 3 => some .rd
    | 4 => some .sr
    | _ => none
  if code = 5#3 then base dyn else base code

/-! ### MLD16 (R146, R147) -/

/-- The deviation of a weight pair: `2 ^ floor(ls / 4) * f[ls mod 4]`. -/
def mldSigma (ls : BitVec 8) : Q :=
  let l := ls.toInt
  let f : Q := match (l % 4).toNat with
    | 0 => ⟨1, 1⟩
    | 1 => ⟨19, 16⟩
    | 2 => ⟨181, 128⟩
    | _ => ⟨215, 128⟩
  f.scale (l / 4)

/-- R147: the E4M3 code of the perturbed weight of pair `pair` with sample `z`. -/
def mldPerturb (pair : BitVec 16) (z : Q) : Nat :=
  match FFmt.e4m3.value (field pair 8 8).toNat with
  | .fin _ mu => (FFmt.e4m3.roundTo .rne 0 true (mu.add ((mldSigma (field pair 0 8)).mul z)) false).1
  | _ => 0x7F

end Sys2Proof.Machine
end

