-- ==== Sys2Proof/Machine/Scaled.lean ====
section
/-! DEFINITION. Scaled, codebook and compressed formats (chapter 3): row layout, block encoding and decoding. -/
namespace Sys2Proof.Machine

def ceilDiv (a b : Nat) : Nat := (a + (b - 1)) / b
def align4 (n : Nat) : Nat := (n + 3) / 4 * 4

/-! ### Row layout (R127) -/

/-- Bytes of the element codes of a scaled row of `ext0` elements (`D` of R127). -/
def Fmt.dataBytes (f : Fmt) (ext0 : Nat) : Nat := ceilDiv ext0 f.block * f.block * f.bits / 8
/-- Offset in its row of the scale of block `j`. -/
def Fmt.scaleOff (f : Fmt) (ext0 j : Nat) : Nat := f.dataBytes ext0 + j * f.scaleBytes
/-- Offset in its row of the FP32 group scale of group `g` of a two-level row. -/
def Fmt.groupOff (f : Fmt) (ext0 g : Nat) : Nat := align4 (f.dataBytes ext0 + 2 * ceilDiv ext0 f.block) + 4 * g
/-- Bytes of one row of `ext0` elements, its scales included; an SQZ8 row is whole 160-byte slots (R143). -/
def Fmt.rowBytes (f : Fmt) (ext0 : Nat) : Nat :=
  if f = .sqz8 then 160 * ceilDiv ext0 256
  else if f.isTl then f.groupOff ext0 (ceilDiv (ceilDiv ext0 16) 64)
  else if f.isMx then f.scaleOff ext0 (ceilDiv ext0 32)
  else ceilDiv (ext0 * f.bits) 8
/-- The tag of block `j` of row `(i1, i2)` before it is cut to 8 bits (`blk` of R133). -/
def blockIndex (f : Fmt) (ext0 ext1 i1 i2 j : Nat) : Nat := (i2 * ext1 + i1) * ceilDiv ext0 f.block + j

/-! ### Values -/

/-- Multiplies a decoded element by an exact scale factor. -/
def Val.scaleBy (v : Val) (s : Q) : Val :=
  match v with
  | .nan sig => .nan sig
  | .inf neg => .inf (neg != decide (s.num < 0))
  | .fin neg q => .fin (neg != decide (s.num < 0)) (q.mul s)

/-- The value of a plain element code: integers, floats, MLD16 as its mean. -/
def Fmt.value (f : Fmt) (code : Nat) : Val :=
  match f.int? with
  | some (w, signed) => let n := intValue w signed code; .fin (n < 0) (Q.ofInt n)
  | none =>
    match f.float? with
    | some ff => ff.value code
    | none => if f = .mld16 then FFmt.e4m3.value (code / 256) else .fin false (Q.ofInt code)

/-- The value of an MX element code under scale code `s` (R130). -/
def mxValue (f : Fmt) (code s : Nat) : Val :=
  if s = 255 then .nan false else
  let sc := Q.pow2 ((s : Int) - 127)
  match f.float? with
  | some ff => (ff.value code).scaleBy sc
  | none => let n := intValue 8 true code; .fin (n < 0) (((Q.ofInt n).scale (-6)).mul sc)

/-- The value of a TL element code under block scale code `bs` and group scale bits `gs` (R136). A group scale of -0 is a zero
that reverses no element's sign (DESIGN CHOICE: assumption 72). -/
def tlValue (f : Fmt) (code bs gs : Nat) : Val :=
  match (f.float?.getD .e4m3).value code with
  | .nan sig => .nan sig
  | v =>
    match FFmt.fp32.value gs with
    | .fin _ g => ((v.scaleBy (ue4m3Value bs)).scaleBy g)
    | _ => .nan false

/-! ### Encoding one element -/

/-- One element encoded into a floating element format, saturating: code, flags, and the counts of R139. `u` is
`sr_bits()`; `x` is the source divided by its scale. -/
def encElem (ff : FFmt) (m : RMode) (u : Nat) (x : Q) (neg count : Bool) : Nat × Fx :=
  let r := ff.roundTo m u true x neg
  let satd := count && ff.maxQ.lt x.abs
  let und := count && !x.isZero && r.1 % 2 ^ (ff.width - 1) == 0
  (r.1, { r.2 with satq := satd, undq := und, nsat := if satd then 1 else 0, nund := if und then 1 else 0 })

/-- One MXINT8 element: a multiple of `2 ^ -6` in the symmetric range (R131). -/
def encMxInt8 (m : RMode) (u : Nat) (x : Q) (count : Bool) : Nat × Fx :=
  let n := (x.scale 6).round m u
  let big := n > 127 || n < -127
  let c := if n > 127 then 127 else if n < -127 then -127 else n
  let satd := count && (Q.mk 127 64).lt x.abs
  let und := count && !x.isZero && c == 0
  (intCode 8 c, { of := big, nx := big || !((x.scale 6).eqv (Q.ofInt c)), satq := satd, undq := und,
                  nsat := if satd then 1 else 0, nund := if und then 1 else 0 })

/-- A source of a block encoder: its value, whether R139 counts it (not pad, not inactive), and its `sr_bits()`. -/
structure Src where
  v : Val
  count : Bool := true
  u : Nat := 0
deriving DecidableEq, Repr, Inhabited

/-- A signalling NaN (R111). -/
def Val.signals : Val → Bool
  | .nan sig => sig
  | _ => false

def Val.isFinite : Val → Bool
  | .fin _ _ => true
  | _ => false

def Val.mag : Val → Q
  | .fin _ q => q.abs
  | _ => Q.zero

def amaxOf (xs : List Src) : Q := xs.foldl (fun a x => a.max x.v.mag) Q.zero

/-- The computed scale code of an MX block (R131). -/
def mxScale (f : Fmt) (amax : Q) : Nat :=
  if amax.isZero then 0 else
  let e : Int := match f.float? with
    | some ff => ff.emax
    | none => 0
  let s := amax.log2 - e + 127
  if s < 0 then 0 else if s > 254 then 254 else s.toNat

/-- R131, R132, R138: scale code, element codes and flags of one MX block. -/
def encMxBlock (f : Fmt) (m : RMode) (imposed : Option Nat) (xs : List Src) : Nat × List Nat × Fx :=
  let s := imposed.getD (mxScale f (amaxOf xs))
  if !(xs.all fun x => x.v.isFinite) || s = 255 then (255, xs.map fun _ => 0, { nan := true })
  else
    let rs := xs.map fun x =>
      match x.v with
      | .fin neg q =>
        let y := q.scale (127 - (s : Int))
        match f.float? with
        | some ff => encElem ff m x.u y neg x.count
        | none => encMxInt8 m x.u y x.count
      | _ => (0, {})
    (s, rs.map (·.1), Fx.joinAll (rs.map (·.2)))

/-- Largest element value of a two-level format (`Emax` of R137). -/
def tlEmax (f : Fmt) : Q := (f.float?.getD .e4m3).maxQ

/-- The group scale bits that R137 computes for a group whose largest magnitude is `g`. -/
def tlGroupScale (f : Fmt) (g : Q) : Nat :=
  if g.isZero then 0x3F800000 else
  let r := (FFmt.fp32.roundTo .ru 0 false (g.divPos ((tlEmax f).mul (Q.ofInt 480))) false).1
  if r = 0 then 1 else r

/-- The block scale code that R137 computes, rounded up and saturated to 480. -/
def tlBlockScale (f : Fmt) (a gs : Q) : Nat :=
  (FFmt.ue4m3.roundTo .ru 0 true (a.divPos ((tlEmax f).mul gs)) false).1

/-- The block rule of R137 and R138 under a finite positive group scale `gs`. -/
def encTlBlock (f : Fmt) (m : RMode) (gs : Q) (imposed : Option Nat) (xs : List Src) : Nat × List Nat × Fx :=
  let ff := f.float?.getD .e4m3
  let bs := (imposed.getD (tlBlockScale f (amaxOf xs) gs)) % 128
  let b := ue4m3Value bs
  let rs := xs.map fun x =>
    match x.v with
    | .fin neg q =>
      if b.isZero then
        let und := x.count && !q.isZero
        ((0 : Nat), ({ uf := !q.isZero, nx := !q.isZero, undq := und, nund := if und then 1 else 0 } : Fx))
      else encElem ff m x.u (⟨q.num * ((b.mul gs).den : Int), q.den * (b.mul gs).num.toNat⟩) neg x.count
    | _ => (0, {})
  (bs, rs.map (·.1), Fx.joinAll (rs.map (·.2)))

/-! ### Codebooks (R140, R141) -/

/-- The value of a codebook index. -/
def cbValue (entries : List (BitVec 8)) (idx : Nat) : Val := FFmt.e4m3.value ((entries.getD idx 0).toNat)

/-- The scan of R141 over the entries with their indices. -/
def cbScan (x : Val) : List (BitVec 8) → Nat → Option (Nat × Q) → Option (Nat × Q)
  | [], _, best => best
  | e :: es, i, best =>
    match FFmt.e4m3.value e.toNat with
    | .fin _ q =>
      let d : Q := match x with
        | .fin _ y => (y.sub q).abs
        | .inf false => q.neg
        | .inf true => q
        | .nan _ => Q.zero
      let better := match best with
        | none => true
        | some b => d.lt b.2
      cbScan x es (i + 1) (if better then some (i, d) else best)
    | _ => cbScan x es (i + 1) best

/-- The largest finite entry magnitude of a codebook; a codebook of NaNs has none, so that nothing exceeds it
(DEDUCED: assumption 12). -/
def cbMax (entries : List (BitVec 8)) : Option Q :=
  entries.foldl (fun a e => match FFmt.e4m3.value e.toNat, a with
    | .fin _ q, some m => some (m.max q.abs)
    | .fin _ q, none => some q.abs
    | _, a => a) none

/-- R141 with the counts of R139: the index of `x` in the codebook. -/
def cbQuantise (entries : List (BitVec 8)) (x : Val) (count : Bool) : Nat × Fx :=
  match x with
  | .nan _ => (0, { nan := true })
  | _ =>
    let idx := match cbScan x entries 0 none with
      | some b => b.1
      | none => 0
    let satd := count && (match cbMax entries, x with
      | none, _ => false
      | some m, .fin _ q => m.lt q.abs
      | some _, _ => true)
    let und := count && (match x with
      | .fin _ q => !q.isZero && (match cbValue entries idx with
        | .fin _ v => v.isZero
        | _ => false)
      | _ => false)
    (idx, { satq := satd, undq := und, nsat := if satd then 1 else 0, nund := if und then 1 else 0 })

/-! ### SQZ8 (R142 to R145) -/

def popByte (b : BitVec 8) : Nat := (List.range 8).foldl (fun a k => if b.getLsbD k then a + 1 else a) 0

/-- Set bits of a 32-byte occupancy mask. -/
def sqzCount (mask : List (BitVec 8)) : Nat := mask.foldl (fun a b => a + popByte b) 0

/-- Spreads the payload bytes over the 256 positions of the mask. -/
def sqzSpread : List Bool → List (BitVec 8) → List (BitVec 8)
  | [], _ => []
  | true :: bs, p :: ps => p :: sqzSpread bs ps
  | true :: bs, [] => 0 :: sqzSpread bs []
  | false :: bs, ps => 0 :: sqzSpread bs ps

/-- The 256 elements of a slot (R142), or none when its mask has more than 128 set bits (R144). -/
def sqzDecode (slot : List (BitVec 8)) : Option (List (BitVec 8)) :=
  let mask := slot.take 32
  if sqzCount mask > 128 then none
  else
    let bits := (List.range 256).map fun k => (mask.getD (k / 8) 0).getLsbD (k % 8)
    some (sqzSpread bits (slot.drop 32))

/-- The 160-byte slot of 256 elements with at most 128 nonzero bytes (R142, R143). -/
def sqzEncode (xs : List (BitVec 8)) : List (BitVec 8) :=
  let mask := (List.range 32).map fun k =>
    (List.range 8).foldl (fun (b : BitVec 8) j =>
      if xs.getD (8 * k + j) 0 != 0 then b ||| (1#8 <<< j) else b) 0#8
  let payload := xs.filter (· != 0)
  (mask ++ payload ++ List.replicate 160 0).take 160

end Sys2Proof.Machine
end

