-- ==== Sys2Proof/Machine/State.lean ====
section
/-!
DEFINITION. The state of UZJ-BSL2 as plain data: one core with its five engines, the quad's scratchpads and handles,
the package's memory, Commons, Dispatcher, Moot, links and host port, and `State.reset`, the state after power-on reset.
Fields marked MODEL'S OWN are not the spec's: they hold what the spec leaves open or order the steps.
-/
namespace Sys2Proof.Machine

/-- Bytes by key in canonical form: keys strictly rise and no listed byte is 0, which is what an unlisted key reads. -/
abbrev Mem := List Host.Cell

/-! ### Faults of the strand (they are next states, R46) -/

/-- Fault codes of Table 1.11. -/
inductive Code where
  | illegalOp | illegalTag | scoreboardUnderrun | scheduleMiss | footprintEscape | footprintOverlap
  | translation | permission | bounds | handleNotHeld | barrierClobber
  | sqzDecode | scaleStep | format | poison | reeveUnresolved | reeveResolved
  | feTimeout | tokenTimeout | trap | peerSilent | energyQuota
deriving DecidableEq, Repr, Inhabited

/-- A fault as detected: code, reported tag (Table 1.12), and the two operands of Table 1.13. -/
structure FaultInfo where
  code : Code
  tag : BitVec 3
  async : Bool
  op0 : BitVec 64
  op1 : BitVec 64
deriving DecidableEq, Repr, Inhabited

/-- Core states of Table 12.7; SWAP is `Disp.swapping`. -/
inductive CoreStatus where
  | idle | running | boundary | stopped | handler | halted
deriving DecidableEq, Repr, Inhabited

/-- A stop in progress or recorded (R46): its fault, MULTI, whether the Steward resumes past a trap (R52), whether the
record has been written, and whether the host (not the handler) was chosen (R436). `was` is the core's state before the
stop, `at_` the cycle in which its fault was detected (R48); `resuming` a resume that waits for the energy quota (R475). -/
structure Stop where
  info : FaultInfo
  at_ : Nat
  multi : Bool
  afterTrap : Bool
  recorded : Bool
  toHost : Bool
  was : CoreStatus
  resuming : Bool
deriving DecidableEq, Repr, Inhabited

/-! ### Engines -/

/-- A loop-stack entry (R82): body range and passes left. -/
structure LoopEntry where
  start : BitVec 64
  stop : BitVec 64
  count : Nat
deriving DecidableEq, Repr, Inhabited

/-- The modulo sequencer (R87): body range, trips `T`, `II`, `SC`, pass `k`, the stage the walk is in, the cycle in
which the pass started, and whether the next pass has yet to start. The rotating base is RRB. -/
structure ModSeq where
  start : BitVec 64
  stop : BitVec 64
  trips : Nat
  ii : Nat
  sc : Nat
  k : Nat
  stage : Nat
  passStart : Nat
  between : Bool
  rrb : BitVec 5
deriving DecidableEq, Repr, Inhabited

/-- What a stalled engine waits for; the timed kinds are those of Table 1.13a. A granule wait names the first granule of its
access, all its granules, and the state that it wants them in (R161, R162). -/
inductive WaitKind where
  /-- token pop; the low bit position of the counter in TOKEN.STATE -/
  | token (bit : Nat)
  /-- pending push -/
  | push (bit : Nat)
  /-- full/empty granules, the first at a byte offset of a core's scratchpad -/
  | granule (core off : Nat) (gs : List Nat) (want : Bool)
  | handle (designation : BitVec 64)
  | net (scope id : Nat)
  | arrival (ac : Nat)
  | ring
  | object (addr : BitVec 64)
  | stageQueue (stage : Nat)
  /-- the Bell's value that bellw waits for -/
  | bell (t : BitVec 64)
  /-- a translation miss held for the driver (R51), with OPERAND0 and OPERAND1 of the fault that an abort makes of it -/
  | miss (part : BitVec 4) (vpn : Nat) (op0 op1 : BitVec 64)
  /-- a package with no route (R482) -/
  | route (pkg : Nat)
  /-- an untimed wait: a resource, an interlock, a join or an ordering wait -/
  | other
deriving DecidableEq, Repr, Inhabited

/-- A stall: its kind, and the cycle and the reference time at which it began (R18, R20, R482). Waits for tokens and pending pushes of
one instruction are one stall (R18). -/
structure Wait where
  kind : WaitKind
  since : Nat
  time : Nat
deriving DecidableEq, Repr, Inhabited

/-- A push not yet made (R16, R17): it waits until no operation of its engine numbered below `upto` is outstanding.
Operations `first` to `upto - 1` are its own instruction's; one token goes to each counter named by `qu`, `qd`, and `ct`
tokens of a ttok to TK.CT (R185). -/
structure Push where
  qu : Bool
  qd : Bool
  ct : Nat
  first : Nat
  upto : Nat
deriving DecidableEq, Repr, Inhabited

/-- A footprint range in granules (Table 4.10): ATTR 01 read, 10 write, 11 read-write. -/
structure FootRange where
  attr : BitVec 2
  base : Nat
  len : Nat
deriving DecidableEq, Repr, Inhabited

/-- One engine: its registers (R10), program counter, loop stack (R84), modulo sequencer (R92), walk count (R8), the
holds of R21 (`drainTo` numbers the first operation that a STALL of 7 does not wait for), its stall (`feWait` is the granule wait of
an instruction that a blocked push of an earlier one stands before as well, R17, R20), its pushes (R17) and its footprints (R26). `atStop` marks an engine that has reached `end`,
`taskend` or PHASE and issues nothing more; `prepared` is the MODEL'S OWN mark that the waiting instruction has
already started its ordering actions (R157), `begun` that a waiting bars has arrived (R178). -/
structure Eng where
  a : Vector (BitVec 64) 32
  bf : Vector (BitVec 256) 16
  pc : BitVec 64
  loops : List LoopEntry
  seq : Option ModSeq
  walk : Nat
  holdUntil : Nat
  drain : Bool
  drainTo : Nat
  paceUntil : Nat
  wait : Option Wait
  feWait : Option Wait
  pushes : List Push
  active : List FootRange
  pending : Option (List FootRange)
  atStop : Bool
  atPhase : Bool
  prepared : Bool
  begun : Bool
deriving DecidableEq, Repr, Inhabited

/-- The five engines of the core (Table 1.2). -/
structure Engines where
  ctl : Eng
  bte : Eng
  mxe : Eng
  vec : Eng
  thr : Eng
deriving DecidableEq, Repr, Inhabited

/-- The resident overlay's text (R60): the virtual address of its first word, its words as they stood when it became
resident, and the address of its header. -/
structure Text where
  base : BitVec 64
  words : List (BitVec 32)
deriving DecidableEq, Repr, Inhabited

/-- A register named as a target or a source of an instruction; `v` is a physical vector register. -/
inductive Reg where
  | a (n : Nat)
  | v (n : Nat)
  | p (n : Nat)
deriving DecidableEq, Repr, Inhabited

/-- One register result (R22). -/
inductive RegWrite where
  | a (n : Nat) (x : BitVec 64)
  | v (n : Nat) (x : BitVec 4096)
  | p (n : Nat) (x : BitVec 1024)
deriving DecidableEq, Repr, Inhabited

/-- The vector engine's registers and system registers (R192 to R198); `sfuFree` is the cycle in which the
special-function unit takes its next instruction (R203). -/
structure Vec where
  v : Vector (BitVec 4096) 64
  p : Vector (BitVec 1024) 16
  cb : Vector (List (BitVec 8)) 4
  fz : Bool
  rm : BitVec 3
  flags : Fx
  seed : BitVec 32
  stream : BitVec 32
  ibase : BitVec 32
  satcnt : BitVec 32
  undcnt : BitVec 32
  sfuFree : Nat
deriving DecidableEq, Repr, Inhabited

/-! ### Matrix engine, Sower and Reeve (chapters 6, 7, 9) -/

/-- Tag of an accumulator element (R148). -/
inductive AccTag where
  | none | posInf | negInf | nan
deriving DecidableEq, Repr, Inhabited

/-- An element of an accumulator tile (R148). -/
structure AccElem where
  z : BitVec 80
  t : AccTag
deriving DecidableEq, Repr, Inhabited

/-- An accumulator tile: its window W and its rows; a row or element not listed is zero with no tag. -/
structure Tile where
  w : BitVec 7
  rows : List (List AccElem)
deriving DecidableEq, Repr, Inhabited

/-- Sower registers (Tables 7.2 to 7.5). -/
structure Sow where
  seed : BitVec 32
  stream : BitVec 32
  ibase : BitVec 32
  en : Bool
deriving DecidableEq, Repr, Inhabited

/-- A captured matrix operand: record, register values, TR, PFMT and CB (R236). -/
structure OpDesc where
  bfr : BitVec 256
  aa : BitVec 64
  ab : BitVec 64
  ac : BitVec 64
  tr : Bool
  pfmt : BitVec 3
  cb : BitVec 2
deriving DecidableEq, Repr, Inhabited

/-- A captured mcb: record, register value and N256 (R268). -/
structure CbDesc where
  bfr : BitVec 256
  aa : BitVec 64
  n256 : Bool
deriving DecidableEq, Repr, Inhabited

/-- A captured mload or mpref: its operand, the Sower state of the Mill's and of the Quern's copy (R243, R274, R280, R287), the
address of its instruction, and the mcb that filled the codebook that its plane was decoded with (R333). -/
structure LoadDesc where
  op : OpDesc
  sow : Sow
  sowQ : Sow
  pc : BitVec 64
  book : Option CbDesc
deriving DecidableEq, Repr, Inhabited

/-- States of a weight plane (R234). -/
inductive PlaneState where
  | empty | filling | full
deriving DecidableEq, Repr, Inhabited

/-- A weight plane: its state, its class, its columns of decoded weights (a weight not listed is +0), and the mload that
last filled it. -/
structure Plane where
  st : PlaneState
  dbl : Bool
  cols : List (List Val)
  desc : Option LoadDesc
deriving DecidableEq, Repr, Inhabited

/-- One path of the matrix engine (R233): planes, tiles, deviation map (by row k then column n: ls and L) and Sower. -/
structure MPath where
  active : Plane
  shadow : Plane
  tiles : Vector Tile 4
  map : List (List (Option (BitVec 8 × BitVec 32)))
  sow : Sow
deriving DecidableEq, Repr, Inhabited

/-- A region of a tile (R263). -/
structure Area where
  row0 : Nat
  col0 : Nat
  rows : Nat
  cols : Nat
deriving DecidableEq, Repr, Inhabited

/-- A captured mstream: its operand, rows, overwrite, the window at issue, the load of the plane it uses and the mcb that filled
the codebook of its activations (R333). -/
structure StreamDesc where
  op : OpDesc
  row0 : Nat
  m : Nat
  acc : Bool
  w : BitVec 7
  plane : Option LoadDesc
  book : Option CbDesc
deriving DecidableEq, Repr, Inhabited

/-- What a step of a tile journal records (R333). -/
inductive JKind where
  | stream (d : StreamDesc)
  | zero
  | add (shift : Int)
  | clear (a : Area)
deriving DecidableEq, Repr, Inhabited

/-- A step of a tile journal. The copy that an ADD step at depth `d` holds follows it at depth `d + 1`. -/
structure JStep where
  depth : Nat
  kind : JKind
deriving DecidableEq, Repr, Inhabited

/-- A tile's journal with JOVF (R333). -/
structure Journal where
  steps : List JStep
  jovf : Bool
deriving DecidableEq, Repr, Inhabited

/-- Which paths drain into an entry: both, or the one that runs (R345). -/
inductive PathMode where
  | dual | mill | quern | offline
deriving DecidableEq, Repr, Inhabited

/-- A captured mdrain: tile, region, records, register values, rounding mode, MSR, DSEQ and Sower state (R263, R281), the
mpref that filled the map (R334), the pending forced check and injections it consumed, whether its DSEQ samples it in single-path
mode and with how many units (R345, R352, R354), and the paths that drain, those that run when it reads its region. `sow` and
`sowQ` are the Sower state of the Mill's and of the Quern's copy, `sunits` the UNITS of REEVE.MODE at its issue. -/
structure DrainDesc where
  tile : BitVec 2
  area : Area
  clr : Bool
  grad : Bool
  bfr : BitVec 256
  bfr2 : BitVec 256
  aa : BitVec 64
  ab : BitVec 64
  ac : BitVec 64
  rm : BitVec 3
  seed : BitVec 32
  stream : BitVec 32
  dseq : BitVec 32
  sow : Sow
  sowQ : Sow
  ref : Option LoadDesc
  forced : Option Area
  injM : Option (BitVec 64 × BitVec 8)
  injQ : Option (BitVec 64 × BitVec 8)
  sampled : Option Nat
  sunits : Nat
  mode : PathMode
  part : BitVec 4
deriving DecidableEq, Repr, Inhabited

/-- Kinds of a Reeve request (R330). -/
inductive ReeveKind where
  | mismatch | sampled | forced
deriving DecidableEq, Repr, Inhabited

/-- What a resolved request left to the commit (R337 to R344): the bytes released, the paths named, the number of units in
D, whether only the signatures differed, and the paths that its naming retires. -/
structure Settled where
  bytes : List Byte
  mill : Bool
  quern : Bool
  units : Nat
  sigOnly : Bool
  retireM : Bool
  retireQ : Bool
deriving DecidableEq, Repr, Inhabited

/-- A Pound entry (R247 to R251): the operation of its mdrain, its first unit and units, and once its signatures are formed
the halves, the signatures, the flags, the window and the journal at the drain; `settled` is what the Reeve left. -/
structure PEntry where
  op : Nat
  pc : BitVec 64
  off : Nat
  units : Nat
  d : DrainDesc
  formed : Bool
  commitAt : Nat
  mill : List Byte
  quern : List Byte
  sigM : BitVec 64
  sigQ : BitVec 64
  fx : Fx
  w : BitVec 7
  journal : Journal
  settled : Option Settled
deriving DecidableEq, Repr, Inhabited

/-- The core's matrix engine (R234, R247, R271, R333, R344): paths, journals by tile, the Pound, the cycle in which the
next mstream may issue, the stamp that the MXE waits for (R252), REEVE.HEALTH, MSTAT.MODE and REEVE.POLICY; `before` is the mode in
which the paths ran before the core went offline, in which what had issued runs on (R272, R346). `rvErr` is an
uncorrectable error in the Reeve's own storage or microcode: the number of units that its next request settles before it is
detected (R339). -/
structure Mx where
  mill : MPath
  quern : MPath
  journals : Vector Journal 4
  pound : List PEntry
  streamFree : Nat
  parked : Option (BitVec 64)
  merr : BitVec 32
  qerr : BitVec 32
  rvErr : Option Nat
  mode : PathMode
  before : PathMode
  thresh : BitVec 16
  action : BitVec 2
  slmin : BitVec 4
  slmax : BitVec 4
  umax : BitVec 8
  injok : Bool
  forceok : Bool
  modeok : Bool
deriving DecidableEq, Repr, Inhabited

/-- The context's matrix, Sower and Reeve registers (R243, R253, R279, R349): MSTAT flags, MECC, MDSEQ, MSR, MZWIN, the MXE
codebooks with their 8-byte words that hold an uncorrectable error (R241, R492) and the loads that filled them, REF and its descriptor, the Sower registers and plane loads as a swap saves
them, REEVE.MODE, REEVE.LOG, REEVE.LOGIDX, REEVE.LAST, the signature registers, the pending check, injections and
sampling (R345, R352, R354), and the signatures of the strand's latest mdrain (R266). -/
structure MxCtx where
  flags : Fx
  meccValid : Bool
  meccMore : Bool
  meccKind : BitVec 2
  meccI2 : BitVec 10
  meccI1 : BitVec 25
  meccI0 : BitVec 25
  mdseq : BitVec 32
  msrSeed : BitVec 32
  msrStream : BitVec 32
  zBase : BitVec 2
  zCount : BitVec 3
  cb : Vector (List Byte) 4
  cbEcc : Vector (List Nat) 4
  cbDesc : Vector (Option CbDesc) 4
  ref : Bool
  refDesc : Option LoadDesc
  sowSaved : Sow
  activeSaved : Option LoadDesc
  shadowSaved : Option LoadDesc
  units : BitVec 8
  slog2 : BitVec 4
  logAddr : BitVec 46
  logLog2 : BitVec 4
  logSpace : Bool
  logEn : Bool
  logTail : BitVec 32
  logLost : Bool
  last : BitVec 64
  lsigM : BitVec 64
  lsigQ : BitVec 64
  csig : BitVec 64
  cseed : BitVec 64
  rchk : Option (Option Area)
  injM : Option (BitVec 64 × BitVec 8)
  injQ : Option (BitVec 64 × BitVec 8)
  sampleNext : Bool
  latest : Option (Nat × BitVec 64 × BitVec 64)
deriving DecidableEq, Repr, Inhabited

/-- What an issued matrix, Sower or Reeve instruction does when it completes (R270). -/
inductive MxAct where
  | load (d : LoadDesc) (fe : BitVec 2)
  | flip
  | stream (zd : BitVec 2) (d : StreamDesc) (fe : BitVec 2) (mill quern : Plane) (rowsAt : Nat)
  | zero (zd : BitVec 2)
  | win (zd : BitVec 2) (w : BitVec 7)
  | copy (zd za : BitVec 2)
  | add (zd za : BitVec 2)
  | getz (zd : BitVec 2) (q hi : Bool) (ad : BitVec 5) (m n : Nat)
  | drain (tile : BitVec 2) (clr grad formed : Bool)
  /-- msigr, the mdrain whose signatures it still waits for, and the signatures that it returns (R266) -/
  | sigr (ad ab : BitVec 5) (of : Option Nat) (sigM sigQ : BitVec 64)
  | sync
  | cb (n : BitVec 2) (d : CbDesc) (fe : BitVec 2)
  | stat (clr : Bool) (ad : BitVec 5)
  | pref (d : LoadDesc) (fe : BitVec 2)
  | rstat (sel : BitVec 4) (ad : BitVec 5)
  | plain
deriving DecidableEq, Repr, Inhabited

/-! ### Block transfer and Thresher (chapters 8, 10) -/

/-- The context's block-transfer registers (Tables 8.1, 8.4, 8.5, 8.9 to 8.12, 8.16, 8.17). -/
structure Bte where
  arrive : Vector (BitVec 15 × Bool) 16
  sretry : BitVec 4
  iseq : BitVec 16
  ringAddr : BitVec 46
  ringLog2 : BitVec 4
  ringSpace : Bool
  ringEn : Bool
  tail : BitVec 16
  head : BitVec 16
  herr : Bool
  dstore : BitVec 40
  nblk : BitVec 32
  dtable : BitVec 40
  dlog2 : BitVec 5
  dfree : BitVec 46
deriving DecidableEq, Repr, Inhabited

/-- Forms of a copy-class instruction (R292). -/
inductive CopyForm where
  | copy | signed | fill | dedup | cow | cmp
deriving DecidableEq, Repr, Inhabited

/-- A captured copy-class instruction: form, counter, CR, FE, ISEQ, the records, the origin, shape and value words, the
signature and seed, the registers that it captures (R307, R316), how often a bcopy.s has been sent again (R310), and the cycle
since which a full ring holds its completion. -/
structure CopyDesc where
  form : CopyForm
  ac : BitVec 4
  cr : Bool
  fe : BitVec 2
  iseq : BitVec 16
  rd : BitVec 256
  rs : BitVec 256
  d : BitVec 64
  s : BitVec 64
  n : BitVec 64
  sig : BitVec 64
  seed : BitVec 64
  regs : Bte
  tries : Nat
  ringSince : Option Nat
deriving DecidableEq, Repr, Inhabited

/-- Thresher registers (Table 10.1). -/
structure ThrRegs where
  flags : Fx
  seed : BitVec 32
  stream : BitVec 32
  ibase : BitVec 32
  satcnt : BitVec 32
  undcnt : BitVec 32
deriving DecidableEq, Repr, Inhabited

/-- Forms of a transform (R366). -/
inductive TrForm where
  | cvt | cvti | amax (bs : BitVec 2) | sqze | sqzd | tr
deriving DecidableEq, Repr, Inhabited

/-- A captured transform. -/
structure TrDesc where
  form : TrForm
  rm : BitVec 3
  fe : BitVec 2
  sf : Bool
  rd : BitVec 256
  rs : BitVec 256
  rx : BitVec 256
  d : BitVec 64
  s : BitVec 64
  n : BitVec 64
  ax : BitVec 64
  seed : BitVec 32
  stream : BitVec 32
  ibase : BitVec 32
deriving DecidableEq, Repr, Inhabited

/-! ### Outstanding operations -/

/-- What happens when an outstanding operation completes, beside its register writes. -/
inductive OpKind where
  /-- register results only (REGISTER_RESULT_LANDING) -/
  | result
  /-- the copy of a TSTART from the scratchpad into Thresher instruction memory (R186) -/
  | text
  /-- the result of a CSRR, which takes a load's entry (R153) -/
  | sysRead
  /-- a load or an atomic (LOAD_DATA_RETURN); `acq` is the scope whose acquire actions follow
  the read, `bad` the fault and OPERAND0 of data that did not arrive, reported with `tag` -/
  | load (acq : Option (BitVec 3)) (bad : Option (Code × BitVec 64)) (tag : BitVec 3)
  /-- write-backs of a release on their way to their homes (WRITE_BACK_ACKNOWLEDGED) -/
  | writeBack (scope : BitVec 3)
  /-- a vector store whose writes land: keys are written already; `bad` is an asynchronous fault -/
  | store (bad : Option (Code × BitVec 64))
  | mx (a : MxAct)
  | copy (c : CopyDesc)
  | transform (t : TrDesc)
deriving DecidableEq, Repr, Inhabited

/-- An issued instruction that is not yet complete (R16): its number in issue order, its engine, the address of its
instruction, the strand it belongs to, the cycle at whose end it completes, its register results (`fixed` latency or
interlocked, R22), its flag settings (R123), what else its completion does, the page whose missing translation holds it
and the pages that the driver has aborted, first to last (R51), OPERAND0 of a load's address, the package without a route that it
waits for, with the reference time since when (R482), and the handles whose bytes it touches (R166). -/
structure Op where
  id : Nat
  eng : Engine
  pc : BitVec 64
  strand : Nat
  due : Nat
  ws : List RegWrite
  fixed : Bool
  fx : Fx
  kind : OpKind
  held : Option Nat
  aborted : List Nat
  addr : BitVec 64 := 0
  route : Option (Nat × Nat) := none
  touches : List Nat := []
deriving DecidableEq, Repr, Inhabited

/-! ### Contexts and strands -/

/-- A barrier network's state for the instance this core belongs to (R177): arrivals registered in the current
episode, its count, episodes completed, for each participant (Steward, Thresher) the episode of its latest
arrival, and the abandoned episodes, each with the package whose declaration abandoned it (R179, R462). -/
structure Net where
  arrived : Nat
  target : Nat
  episode : Nat
  mine : Option Nat
  thr : Option Nat
  abandoned : List (Nat × Nat)
deriving DecidableEq, Repr, Inhabited

/-- A strand's context (R435): everything that a swap moves, and the identity of the strand. -/
structure Ctx where
  /-- partition and resident slot (CORE.ID) -/
  part : BitVec 4
  slot : BitVec 1
  status : CoreStatus
  /-- counts the strands of this core; an operation of an earlier strand pushes no token of this one (R429) -/
  strand : Nat
  eng : Engines
  text : Text
  /-- token counters by field of TOKEN.STATE (Table 1.6): CB BM MV VC BC MB VM CV CT TC -/
  tokens : Vector (BitVec 4) 10
  /-- ABC broadcast queues (R13), each entry with its destination register -/
  abcBte : List (BitVec 5 × BitVec 64)
  abcMxe : List (BitVec 5 × BitVec 64)
  abcVec : List (BitVec 5 × BitVec 64)
  /-- SLIPW.WINDOW -/
  window : BitVec 13
  /-- STRAND.CFG -/
  thrrun : Bool
  det : Bool
  schk : Bool
  /-- DETPER.PERLOG2 -/
  perlog2 : BitVec 5
  /-- WAITTO -/
  feto : BitVec 16
  tokto : BitVec 16
  /-- FREC.BASE bits 51:6 and the SEQ of the next record -/
  frec : BitVec 46
  recSeq : BitVec 32
  /-- SP.WIN -/
  winBase : BitVec 6
  winCount : BitVec 6
  /-- PACE.e INTERVAL (CTL, BTE, MXE, VEC, THR) and the EXTRA of R475 -/
  pace : Vector (BitVec 16) 5
  paceExtra : BitVec 16
  /-- item register (Table 12.6) and TASK.ID -/
  item : Vector (BitVec 64) 16
  taskQueue : BitVec 14
  taskHandler : Bool
  taskStage : BitVec 3
  /-- pipeline instance the item belongs to -/
  inst : Option Nat
  /-- outgoing trailer mask of the overlay (R189): BTE, MXE, VEC, THR -/
  trailer : BitVec 4
  stop : Option Stop
  /-- further faults raised during a stop (R48) -/
  heldFaults : List FaultInfo
  vec : Vec
  /-- Thresher instruction memory by byte offset, and the length of the last nonempty load (R186, R358) -/
  imem : Mem
  imemLen : Nat
  mx : MxCtx
  bte : Bte
  thr : ThrRegs
  /-- barrier networks as a swap saves them (R178, R179): those of .core whole, of the others this core's latest arrivals -/
  nets : List Net
deriving DecidableEq, Repr, Inhabited

/-! ### Handles and translation -/

/-- A scratchpad handle of the quad (R164, R165): held by a core of the quad, in transit from one to another, or
holding overlay text. -/
inductive Handle where
  | held (c : BitVec 2)
  | transit (giver target : BitVec 2)
  | text
deriving DecidableEq, Repr, Inhabited

/-- A translation held by the TLBs (R405): virtual page range, physical page, W and MS. -/
structure TlbEntry where
  part : BitVec 4
  vpn : Nat
  pages : Nat
  pfn : Nat
  w : Bool
  ms : Bool
deriving DecidableEq, Repr, Inhabited

/-- A remembered reply of an executing unit (R396). -/
structure Reply where
  unit : Nat
  port : Nat
  seqNo : BitVec 16
  old : BitVec 64
deriving DecidableEq, Repr, Inhabited

/-! ### Dispatcher -/

/-- Registers of a work queue (Table 12.1); `held` is an examination that waits for the driver at HEAD (R411). -/
structure Wq where
  base : BitVec 45
  en : Bool
  part : BitVec 4
  maxinst : BitVec 8
  log2n : BitVec 5
  widx : BitVec 64
  tail : BitVec 64
  head : BitVec 64
  errcnt : BitVec 16
  lasterr : BitVec 8
  stall : Bool
  live : BitVec 8
  held : Option Nat
deriving DecidableEq, Repr, Inhabited

/-- An overlay header (Table 12.9) as captured at admission. -/
structure OvlHdr where
  tlen : Nat
  llen : Nat
  clen : Nat
  trailer : BitVec 4
  mx : Bool
  loff : Nat
  coff : Nat
  entry : Nat
deriving DecidableEq, Repr, Inhabited

/-- One stage of a pipeline descriptor (Table 12.5) with its overlay's header. -/
structure Stage where
  ovl : BitVec 64
  minc : Nat
  maxc : Nat
  depth : Nat
  hiw : Nat
  low : Nat
  hdr : OvlHdr
deriving DecidableEq, Repr, Inhabited

/-- A waiting item: the place of the stage-queue area that holds its 128 bytes (Table 12.6), and the core it is pinned to. -/
structure Item where
  place : Nat
  pin : Option (BitVec 8)
deriving DecidableEq, Repr, Inhabited

/-- A live pipeline instance (R415): the captured descriptor, its stage queues with the first place of each
in the partition's stage-queue area, the next INDEX of each stage, its deficit (R421), whether an item reported a nonzero status, and the Bell at its last progress, or since when its
strand runs again after a time without one and without waiting items (R424). -/
structure Pipe where
  id : Nat
  queue : BitVec 14
  seqNo : BitVec 64
  prio : BitVec 3
  weight : Nat
  nitems : Nat
  generated : Nat
  pins : Option (List (BitVec 8))
  payload : List (BitVec 64)
  done : BitVec 64
  stages : List Stage
  queues : List (List Item)
  bases : List Nat
  nextIdx : List Nat
  deficit : Int
  bad : Bool
  progress : BitVec 64
  stalled : Bool
deriving DecidableEq, Repr, Inhabited

/-- A completion word that waits for a page held for the driver (R414, R417): its queue, the partition and address of DONE, the
word, the entry's sequence number, and the page. -/
structure DoneWord where
  queue : Nat
  part : BitVec 4
  addr : BitVec 64
  word : BitVec 64
  seqNo : BitVec 64
  vpn : Nat
deriving DecidableEq, Repr, Inhabited

/-- Registers of a partition (Table 12.10) and the energy registers of Table 13.6 that belong to it. -/
structure Part where
  qmask : BitVec 64
  en : Bool
  err : Bool
  root : BitVec 39
  slot : BitVec 1
  tcount : BitVec 3
  tbase : BitVec 2
  hcount : BitVec 6
  hbase : BitVec 6
  hovl : BitVec 64
  save : BitVec 36
  frec : BitVec 38
  dqsize : BitVec 10
  dqbase : BitVec 10
  dqdie : BitVec 3
  stallto : BitVec 32
  slice : BitVec 32
  cmSize : Vector (BitVec 10) 8
  cmBase : Vector (BitVec 10) 8
  halted : Bool
  cmdign : Bool
  quota : BitVec 32
  eqEn : Bool
  eqAction : Bool
  eqExtra : BitVec 16
  eqPeriod : BitVec 16
  used : BitVec 64
  debt : BitVec 64
  remain : BitVec 32
  exh : Bool
deriving DecidableEq, Repr, Inhabited

/-- What the part reports to the host or to firmware. -/
inductive Report where
  | refused (queue : BitVec 14) (seqNo : BitVec 64) (reason : Nat)
  | doneFail (queue : BitVec 14) (seqNo : BitVec 64)
  | launchFail (queue : BitVec 14) (seqNo : BitVec 64)
  | pipelineStall (queue : BitVec 14) (seqNo : BitVec 64)
  | strandFault (core : BitVec 8) (code : Code)
  | partitionHalted (part : BitVec 4)
  | planeRolledBack (gen : BitVec 32)
  | swapRefused
  | miss (part : BitVec 4) (vpn : Nat)
  | clobberRefused (offset : Nat)
  | unmapped (die : BitVec 3)
  | late (member : BitVec 8)
  | groupSplit
  | silent (slot : Nat)
  | sensor (die : BitVec 3) (site : BitVec 6)
  | lane (port : Nat)
  | linkDown (port : Nat)
  | linkUp (port : Nat)
  | unreachable (pkg : BitVec 10)
  | controlPath (die : BitVec 3)
  | powerFault
  | startup (stage : Nat) (ok : Bool)
  | ringOverflow
  | hostError (offset : Nat)
  | pathRetired (path : Nat)
  | other (n : Nat)
deriving DecidableEq, Repr, Inhabited

/-- The Dispatcher: queues (those not listed hold their reset values), partitions, live instances, the ring of each
priority level with its pointer at the head (R421), what this core served last, the configuration planes of this core
(R431), and the MODEL'S OWN `launching`, the item taken for a launch that waits (R425), `launchHeld`, a page of it held
for the driver, `swapping`, a swap that waits for the core to drain (R434), `dones`, completion words held for the driver, and
`aborts`, the pages whose misses the driver is aborting in this step. -/
structure Disp where
  wqs : List (Nat × Wq)
  parts : Vector Part 16
  pipes : List Pipe
  rings : Vector (List Nat) 8
  nextPipe : Nat
  lastInst : Option Nat
  curStage : Option Nat
  launching : Option (Nat × Nat × Vector (BitVec 64) 16)
  sliceStart : BitVec 64
  plane : Mem
  shadow : Mem
  gen : BitVec 32
  last : BitVec 2
  diffs : List PlaneDiff
  swapToken : Bool
  launchHeld : Bool
  swapping : Bool
  dones : List DoneWord
  aborts : List (BitVec 4 × Nat)
deriving DecidableEq, Repr, Inhabited

/-! ### Memory side -/

/-- A format region of an HBM stack (Tables 11.6 to 11.10). -/
structure Region where
  dbase : BitVec 31
  sbase : BitVec 46
  abase : BitVec 31
  en : Bool
  err : Bool
  fmt : BitVec 8
  asize : BitVec 14
  tagerr : BitVec 16
  undcnt : BitVec 24
  satcnt : BitVec 24
deriving DecidableEq, Repr, Inhabited

/-- What an invalidation names (R405). -/
structure TlbiReq where
  addr : BitVec 40
  part : BitVec 4
  all : Bool
  pages : BitVec 27
deriving DecidableEq, Repr, Inhabited

/-- A die's TLBI.ADDR and TLBI.CMD, and its invalidation in progress (R312, R405): `cur` is what that one names, `marker` the
number of the first operation behind its marker. -/
structure Tlbi where
  addr : BitVec 40
  part : BitVec 4
  all : Bool
  pages : BitVec 27
  busy : Bool
  marker : Nat
  cur : TlbiReq
deriving DecidableEq, Repr, Inhabited

/-! ### Moot -/

/-- A row of the member table (Table 13.1): `posting` the last posting that counts for a past round, `later` the later ones
with their SENT, oldest first; `rack` RPCAP_GROUP ID as last heard; `heardAt` the reference time of the last message;
`left`, the package has left the group, and holds its slot no more; `reported`, this member has reported it to the
coordinator (R461). -/
structure Member where
  slot : BitVec 8
  pkg : BitVec 10
  live : Bool
  posting : BitVec 8
  rack : BitVec 16
  heardAt : Nat
  left : Bool
  later : List (BitVec 64 × BitVec 8)
  reported : Bool
deriving DecidableEq, Repr, Inhabited

/-- A sensor site of a die as last read (R473): its temperature in thousandths of a degree, its current in hundredths of a percent of
full scale, whether they lie in the sensor's range, and the reference time since which neither has changed. -/
structure Site where
  die : BitVec 3
  site : BitVec 6
  temp : Int
  cur : Int
  inRange : Bool
  since : Nat
deriving DecidableEq, Repr, Inhabited

/-- A pending Crier limit (Table 13.1); `mine`, this member sent it. -/
structure Crier where
  limit : BitVec 8
  sent : BitVec 64
  effective : BitVec 64
  mine : Bool
deriving DecidableEq, Repr, Inhabited

/-- A JOIN that the coordinator has received: slot, package, the Bell at its receipt, and the package's last posting. -/
structure Joiner where
  slot : BitVec 8
  pkg : BitVec 10
  at_ : BitVec 64
  posting : BitVec 8
deriving DecidableEq, Repr, Inhabited

/-- The round at which this package joins a group: the own Bell at which its instant falls, its tick, number and decision,
and the coordinator that announced it. -/
structure JoinPlan where
  at_ : BitVec 64
  tick : BitVec 64
  round : BitVec 32
  ceil : BitVec 8
  slot : BitVec 8
  pkg : BitVec 10
deriving DecidableEq, Repr, Inhabited

/-- This member's copy of the group's shared state, its limiters and its management registers (chapter 13).
`own` are the lowerings of this member that are not yet in effect, each with its limiter unless that has risen since (R452);
`mine` says that a Crier of its own announced it; `joins` and `leaves` (with the Bell of receipt)
what the coordinator has received, `parting` the slots that leave at the next round, `silents` the slots declared silent
with their ticks of effect (R462 to R464); `plan`, `planParams` and `planCriers` the round at which this package joins and the
Criers that it has heard of its group; `nextDeadline` the posting deadline of the next round once reached, `hbSent` the one at which
the posting has been sent; `sites` the sensors' readings (R473); `clamp` the code of an unannounced clamp and the tick of its Crier
(R457); `rises` codes that a risen cap allows a limiter from a round on, with the Bell of the change (R476); `time` the
reference time in units of which a group cycle at code n is `refUnit / n`; `hbNext` that of the next heartbeat; `hist` GCLK
as it stood at earlier Bells (R467); `lost` packages whose route has timed out (R482).
`round` and `tick` are the number and the Bell tick of the next round, `deadline` the posting deadline P_k of the last round;
`decision`, `params` what has arrived for the next round; `outbox` the messages sent, newest last, with their TYPE. -/
structure Moot where
  gid : BitVec 16
  gmax : BitVec 8
  silto : BitVec 14
  lead : BitVec 10
  cfgGmax : BitVec 8
  cfgSilto : BitVec 14
  cfgLead : BitVec 10
  gceil : BitVec 8
  slot : BitVec 8
  members : List Member
  criers : List Crier
  own : List (Option Limiter × Crier)
  round : BitVec 32
  tick : BitVec 64
  deadline : BitVec 64
  decision : Option (BitVec 8)
  params : List (BitVec 64)
  sentRound : Bool
  missed : Bool
  seqNo : BitVec 32
  seen : List (BitVec 8 × BitVec 32)
  limits : Vector (BitVec 8) 5
  clamp : Option (BitVec 8 × BitVec 64)
  rises : List (Limiter × BitVec 8 × BitVec 64)
  skip : Nat
  unann : BitVec 16
  late : BitVec 16
  rmiss : BitVec 16
  silentCnt : BitVec 16
  state : BitVec 3
  split : Bool
  refused : Bool
  glat : BitVec 16
  joins : List Joiner
  leaves : List (BitVec 8 × BitVec 64)
  silents : List (BitVec 8 × BitVec 64)
  parting : List (BitVec 8)
  plan : Option JoinPlan
  planParams : List (BitVec 64)
  planCriers : List Crier
  nextDeadline : Option (BitVec 64)
  time : Nat
  hbNext : Nat
  hbSent : Option (BitVec 64)
  hist : List (BitVec 64 × BitVec 64)
  lost : List (BitVec 10)
  sensFail : Vector (BitVec 64) 8
  sites : List Site
  rpcap : BitVec 13
  rackId : BitVec 16
  rbudget : BitVec 32
  outbox : List (BitVec 4 × MootMsg)
deriving DecidableEq, Repr, Inhabited

/-! ### Links, host port and start-up -/

/-- The access that a request belongs to: the engine, the address of its instruction, its strand, and its operation, if it has
one. -/
structure Sender where
  eng : Engine
  pc : BitVec 64
  strand : Nat
  op : Option Nat
deriving DecidableEq, Repr, Inhabited

/-- What the package has to send over a Rilaic link: CLASS, destination, the address whose bits 17:12 choose the port (R482),
the payload, the tag of a request (R396, R479), the access that it belongs to, and the reference time since which it has had no
route. -/
structure Outbound where
  cls : BitVec 3
  dpkg : BitVec 10
  key : Nat
  payload : List Byte
  tag : Option (Nat × BitVec 16) := none
  sender : Option Sender := none
  since : Nat := 0
deriving DecidableEq, Repr, Inhabited

/-- A request that goes out to the host (R488): its requester ID's virtual function, its address there, its length and whether it
writes. -/
structure HostRequest where
  vf : BitVec 4
  addr : Nat
  len : Nat
  write : Bool
deriving DecidableEq, Repr, Inhabited

/-- MODEL'S OWN input: a soft error that strikes a die's structure of Table 14.6 (R492), corrected or not, and a key in the word
that it strikes, where memory holds it. -/
structure SoftError where
  die : BitVec 3
  unit : Nat
  corrected : Bool
  key : Option Nat
deriving DecidableEq, Repr, Inhabited

/-- A flit in a replay buffer: its SEQ, what it carries, and its bytes. -/
structure SentFlit where
  seqNo : BitVec 8
  out : Outbound
  bytes : List Byte
deriving DecidableEq, Repr, Inhabited

/-- A Rilaic port (R477 to R481). STATE codes: 0 OFF, 1 TRAINING, 2 UP, 3 DOWN, 4 QUIESCING. `txNext` is the SEQ of the
next flit sent, `replayBuf` the unacknowledged flits oldest first, `resends` how often the oldest has been resent in a row,
`sentAt` the reference time at which the oldest was last sent or an earlier one acknowledged, `rxNext` the expected SEQ,
`naked` that the pending gap has been answered, `sent` and `delivered` what went out and what was handed on, newest last.
`unanswered` are the requests that the far end has acknowledged and not answered (R479); `laneHits` the flits that each lane has
damaged in the present window, `window` the flits received in it, `retrain` the reference time at which a retraining ends (R480), and
`damagedBy` the MODEL'S OWN input of the lanes that damage the damaged flits to come, none when it is empty. -/
structure Port where
  en : Bool
  lthr : BitVec 16
  rto : BitVec 16
  rmax : BitVec 8
  sretry : BitVec 4
  state : BitVec 4
  width : BitVec 2
  lspare : Bool
  badlane : BitVec 5
  peer : BitVec 10
  replay : BitVec 32
  damaged : BitVec 32
  txNext : BitVec 8
  replayBuf : List SentFlit
  resends : Nat
  sentAt : Nat
  rxNext : BitVec 8
  naked : Bool
  unanswered : List Outbound
  laneHits : Vector Nat 5
  window : Nat
  retrain : Option Nat
  damagedBy : List (BitVec 3)
  sent : List (List Byte)
  delivered : List (List Byte)
deriving DecidableEq, Repr, Inhabited

/-- Host port, management port and start-up (Table 14.3a): BAR2 window, start-up stage and failure code, commands
ignored, refusals, soft-error counters by index (die × 16 + i), the command in progress, and whether the dies have
power (R493). `reads` are the data returned to host requests, newest last. -/
structure HostPort where
  hwin : BitVec 4
  stage : BitVec 4
  fail : BitVec 8
  ignored : BitVec 16
  lastvf : BitVec 4
  refused : BitVec 32
  soft : List (Nat × BitVec 32)
  restoring : Option (BitVec 8 × BitVec 2)
  quiescing : Bool
  powered : Bool
  reads : List (List Byte)
deriving DecidableEq, Repr, Inhabited

/-! ### The machine -/

/-- MODEL'S OWN: within a cycle the engines act in tag order (R48), then the cycle closes: results land, pushes and
completions happen, and time advances. -/
inductive Turn where
  | eng (e : Engine)
  | close
deriving DecidableEq, Repr, Inhabited

/-- Bytes held by a cache, by physical address: keys strictly rise; an unlisted byte is not held (R156). -/
abbrev Overlay := List Host.Cell

/-- A cache of 64-byte lines (R156): the lines held, most recently used first, each with its KEEP mark, and their bytes,
dirty and clean. A byte listed in both is dirty. -/
structure Cache where
  lines : List (Nat × Bool)
  dirty : Overlay
  clean : Overlay
deriving DecidableEq, Repr, Inhabited

/-- A line that a die's last-level cache holds (R397): the CACHE code under which it was allocated, whether its bytes have come in
whole, which for an alias line means that it has been decoded, and whether its data are uncorrectable (R400). -/
structure LlcLine where
  line : Nat
  policy : BitVec 3
  filled : Bool
  bad : Bool
deriving DecidableEq, Repr, Inhabited

/-- A directory entry held by a die's translation cache (R405): partition, the indices that lead to it from the root, and the
PFN of the table that it points to. -/
structure DirEntry where
  part : BitVec 4
  path : List Nat
  table : Nat
deriving DecidableEq, Repr, Inhabited

/-- The state of the machine. -/
structure State where
  /-- core cycles since reset -/
  cycle : Nat
  /-- the Bell (R450) -/
  bell : BitVec 64
  /-- MODEL'S OWN: whose turn it is in the cycle -/
  turn : Turn
  /-- MODEL'S OWN: events due now, executed one per step before anything else -/
  inbox : List Instr
  /-- MODEL'S OWN: inputs from outside the package and the core's neighbours, each with the cycle in which it arrives -/
  script : List (Nat × Instr)
  /-- MODEL'S OWN: readings of sensors (R473) and soft errors (R492) to come, each with the cycle in which it comes -/
  sensed : List (Nat × Site)
  softErrors : List (Nat × SoftError)
  /-- MODEL'S OWN: counts the free values drawn so far -/
  free : Nat
  /-- MODEL'S OWN: latencies of the variable-latency operations to come; each takes one, 1 when the list is empty -/
  delays : List Nat
  /-- MODEL'S OWN: number of the next operation in issue order -/
  nextId : Nat
  /-- CORE.ID.CORE, hard-wired, and PKGNUM -/
  coreNo : BitVec 8
  pkgNo : BitVec 10
  /-- the running context, the context in the shadow context store, and those in the save areas, each with what its area
  held when the Dispatcher sealed it (R434, R436, R437) -/
  ctx : Ctx
  held : Option Ctx
  saved : List (Ctx × Mem)
  /-- outstanding operations in issue order -/
  ops : List Op
  /-- every byte of the package: HBM, host and pod memory by physical address, scratchpads and Commons above (memKey) -/
  mem : Mem
  /-- the core's matrix engine -/
  mx : Mx
  /-- the L1 and the quad cache (R156) -/
  l1 : Cache
  qc : Cache
  /-- dirty bytes of alias lines in the last-level caches (R401), and the lines that they hold while a format region is enabled,
  most recently used first (R397, R400) -/
  llc : Overlay
  llcLines : List LlcLine
  /-- first keys of the protected words that hold an uncorrectable error (R492) -/
  poison : List Nat
  /-- first keys of the Commons lines that binit has armed (R389, R391); it holds what the lines' ARMED fields show -/
  armed : List Nat
  /-- granules of the quad's scratchpads that are full, by core of the quad × 196,608 + granule (R161) -/
  full : List Nat
  handles : Vector Handle 192
  /-- translations and directory entries in use (R405) and misses held for the driver (R51) -/
  tlb : List TlbEntry
  dirs : List DirEntry
  misses : List (BitVec 4 × Nat)
  /-- barrier networks, scope × 16 + id (R5) -/
  nets : Vector Net 80
  /-- remembered replies (R396) and the sequence counters of this core's engines and of the host port -/
  replies : List Reply
  portSeq : Vector (BitVec 16) 8
  /-- format regions by stack × 16 + n; those not listed hold their reset values -/
  regions : List (Nat × Region)
  tlbi : Vector Tlbi 8
  disp : Disp
  moot : Moot
  ports : Vector Port 24
  /-- route-table entries by die × 1,024 + package (R482) -/
  routes : List (Nat × BitVec 64)
  /-- what waits to be sent over the links, oldest first (R478, R482) -/
  outq : List Outbound
  host : HostPort
  /-- memory requests that have gone out to the host (R488), newest last -/
  pcie : List HostRequest
  /-- reports to the host and firmware, newest last -/
  reports : List Report
deriving DecidableEq, Repr

/-- Why a step can stop the model. -/
inductive Fault where
  /-- Raised by `step` when the dies have no power (R493) and no power-on reset is to come: nothing executes. Safe: the
  hardware does nothing either. -/
  | noPower
deriving DecidableEq, Repr

/-- Why an instruction has no meaning. -/
inductive Refusal where
  /-- Raised by an arm of `exec` whose instruction has no meaning yet, with its mnemonic. Safe. -/
  | notModelled (mnemonic : String)
deriving DecidableEq, Repr

/-! ### Reset -/

def Sow.reset : Sow := ⟨0, 0, 0, false⟩

def Plane.reset : Plane := ⟨.empty, false, [], none⟩

/-- A tile after reset: window -32 (R148). -/
def Tile.reset : Tile := ⟨0x60#7, []⟩

def MPath.reset : MPath := ⟨Plane.reset, Plane.reset, Vector.replicate 4 Tile.reset, [], Sow.reset⟩

/-- Tables 9.3 and 9.4, R148, R234. -/
def Mx.reset : Mx :=
  { mill := MPath.reset, quern := MPath.reset, journals := Vector.replicate 4 ⟨[], false⟩, pound := [], streamFree := 0,
    parked := none, merr := 0, qerr := 0, rvErr := none, mode := .dual, before := .dual, thresh := 16#16, action := 0, slmin := 0, slmax := 10#4,
    umax := 64#8, injok := false, forceok := true, modeok := true }

/-- Tables 6.2 to 6.7 and 9.5 to 9.9. -/
def MxCtx.reset : MxCtx :=
  { flags := {}, meccValid := false, meccMore := false, meccKind := 0, meccI2 := 0, meccI1 := 0, meccI0 := 0, mdseq := 0,
    msrSeed := 0, msrStream := 0, zBase := 0, zCount := 4#3, cb := Vector.replicate 4 [], cbEcc := Vector.replicate 4 [], cbDesc := Vector.replicate 4 none,
    ref := false, refDesc := none, sowSaved := Sow.reset, activeSaved := none, shadowSaved := none, units := 16#8,
    slog2 := 6#4, logAddr := 0, logLog2 := 0, logSpace := false, logEn := false, logTail := 0, logLost := false, last := 0,
    lsigM := 0, lsigQ := 0, csig := 0, cseed := 0, rchk := none, injM := none, injQ := none, sampleNext := false,
    latest := none }

/-- Tables 8.1, 8.4, 8.5, 8.9 to 8.12, 8.16, 8.17. -/
def Bte.reset : Bte :=
  { arrive := Vector.replicate 16 (0, false), sretry := 3#4, iseq := 0, ringAddr := 0, ringLog2 := 4#4, ringSpace := false,
    ringEn := false, tail := 0, head := 0, herr := false, dstore := 0, nblk := 0, dtable := 0, dlog2 := 10#5, dfree := 0 }

/-- Table 10.1. -/
def ThrRegs.reset : ThrRegs := ⟨{}, 0, 0, 0, 0, 0⟩

def Eng.reset : Eng :=
  { a := Vector.replicate 32 0, bf := Vector.replicate 16 0, pc := 0, loops := [], seq := none, walk := 0,
    holdUntil := 0, drain := false, drainTo := 0, paceUntil := 0, wait := none, feWait := none, pushes := [], active := [], pending := none,
    atStop := false, atPhase := false, prepared := false, begun := false }

def Engines.reset : Engines := ⟨Eng.reset, Eng.reset, Eng.reset, Eng.reset, Eng.reset⟩

/-- R426: registers and predicates zero, codebooks 0x00, control registers at reset. -/
def Vec.reset : Vec :=
  { v := Vector.replicate 64 0, p := Vector.replicate 16 0, cb := Vector.replicate 4 (List.replicate 256 0),
    fz := false, rm := 0, flags := {}, seed := 0, stream := 0, ibase := 0, satcnt := 0, undcnt := 0, sfuFree := 0 }

/-- A context as R426 and the Reset columns leave it, with no strand in it. -/
def Ctx.reset : Ctx :=
  { part := 0, slot := 0, status := .idle, strand := 0, eng := Engines.reset, text := ⟨0, []⟩,
    tokens := Vector.replicate 10 0, abcBte := [], abcMxe := [], abcVec := [], window := 1024#13, thrrun := false,
    det := false, schk := false, perlog2 := 12#5, feto := 0x0400#16, tokto := 0x0400#16, frec := 0, recSeq := 0,
    winBase := 0, winCount := 48#6, pace := Vector.replicate 5 0, paceExtra := 0, item := Vector.replicate 16 0,
    taskQueue := 0, taskHandler := false, taskStage := 0, inst := none, trailer := 0xF#4, stop := none,
    heldFaults := [], vec := Vec.reset, imem := [], imemLen := 0, mx := MxCtx.reset, bte := Bte.reset,
    thr := ThrRegs.reset, nets := [] }

def Wq.reset : Wq :=
  { base := 0, en := false, part := 0, maxinst := 1#8, log2n := 3#5, widx := 0, tail := 0, head := 0, errcnt := 0,
    lasterr := 0, stall := false, live := 0, held := none }

def Part.reset : Part :=
  { qmask := 0, en := false, err := false, root := 0, slot := 0, tcount := 4#3, tbase := 0, hcount := 48#6, hbase := 0,
    hovl := 0, save := 0, frec := 0, dqsize := 0, dqbase := 0, dqdie := 0, stallto := 0, slice := 0,
    cmSize := Vector.replicate 8 0, cmBase := Vector.replicate 8 0, halted := false, cmdign := false, quota := 0,
    eqEn := false, eqAction := false, eqExtra := 0, eqPeriod := 1#16, used := 0, debt := 0, remain := 0, exh := false }

def Disp.reset : Disp :=
  { wqs := [], parts := Vector.replicate 16 Part.reset, pipes := [], rings := Vector.replicate 8 [], nextPipe := 0,
    lastInst := none, curStage := none, launching := none, sliceStart := 0, plane := [], shadow := [], gen := 0,
    last := 0, diffs := [], swapToken := false, launchHeld := false, swapping := false, dones := [], aborts := [] }

def Region.reset : Region :=
  { dbase := 0, sbase := 0, abase := 0, en := false, err := false, fmt := 0, asize := 0, tagerr := 0, undcnt := 0,
    satcnt := 0 }

def Tlbi.reset : Tlbi := ⟨0, 0, false, 0, false, 0, ⟨0, 0, false, 0⟩⟩

def Net.reset : Net := ⟨0, 0, 0, none, none, []⟩

/-- Reference time in these units: a group cycle at code n, 1 / (25 n) µs, takes `refUnit / n` of them, and the least common
multiple of the codes 32 to 96 makes each a whole number. -/
def refUnit : Nat := 718766754945489455304472257065075294400

/-- A group of one in slot 0 at the lowest code (Tables 13.5 and 13.6). -/
def Moot.reset : Moot :=
  { gid := 0, gmax := 96#8, silto := 250#14, lead := 50#10, cfgGmax := 96#8, cfgSilto := 250#14, cfgLead := 50#10,
    gceil := 32#8, slot := 0, members := [⟨0, 0, true, 32#8, 0, 0, false, [], false⟩], criers := [], own := [],
    round := 1#32, tick := 800000#64, deadline := 0, decision := none, params := [], sentRound := false, missed := false,
    seqNo := 0, seen := [], limits := ⟨#[96, 96, 96, 96, 32], rfl⟩, clamp := none, rises := [], skip := 0,
    unann := 0, late := 0, rmiss := 0, silentCnt := 0, state := 0, split := false, refused := false, glat := 2000#16,
    joins := [], leaves := [], silents := [], parting := [], plan := none, planParams := [], planCriers := [],
    nextDeadline := none, time := 0, hbNext := 500 * refUnit, hbSent := none, hist := [], lost := [],
    sensFail := Vector.replicate 8 0, sites := [], rpcap := 4400#13, rackId := 0, rbudget := 0,
    outbox := [] }

def Port.reset : Port :=
  { en := true, lthr := 64#16, rto := 2000#16, rmax := 16#8, sretry := 3#4, state := 0, width := 0, lspare := false,
    badlane := 0, peer := 0, replay := 0, damaged := 0, txNext := 0, replayBuf := [], resends := 0, sentAt := 0, rxNext := 0,
    naked := false, unanswered := [], laneHits := Vector.replicate 5 0, window := 0, retrain := none, damagedBy := [], sent := [],
    delivered := [] }

def HostPort.reset : HostPort :=
  { hwin := 0, stage := 0, fail := 0, ignored := 0, lastvf := 0, refused := 0, soft := [], restoring := none,
    quiescing := false, powered := true, reads := [] }

/-- A cache that holds nothing. -/
def Cache.reset : Cache := ⟨[], [], []⟩

/-- The machine right after power-on reset: the Reset columns of the register tables, R161, R426, R485 and R491. The
values that the spec does not state are named in the assumption log (1 and 2). -/
def State.reset : State :=
  { cycle := 0, bell := 0, turn := .eng .ctl, inbox := [], script := [], sensed := [], softErrors := [], free := 0, delays := [], nextId := 0,
    coreNo := 0, pkgNo := 0, ctx := Ctx.reset, held := none, saved := [], ops := [], mem := [], mx := Mx.reset,
    l1 := Cache.reset, qc := Cache.reset, llc := [], llcLines := [], poison := [], armed := [], full := [],
    handles := Vector.ofFn fun (i : Fin 192) => .held (BitVec.ofNat 2 (i.val / 48)),
    tlb := [], dirs := [], misses := [], nets := Vector.replicate 80 Net.reset, replies := [], portSeq := Vector.replicate 8 0,
    regions := [], tlbi := Vector.replicate 8 Tlbi.reset, disp := Disp.reset, moot := Moot.reset,
    ports := Vector.replicate 24 Port.reset, routes := [], outq := [], host := HostPort.reset, pcie := [], reports := [] }

end Sys2Proof.Machine
end

