-- ==== Sys2Proof/Machine/Memory.lean ====
section
/-! DEFINITION. Named operations over memory: the canonical byte list, caches, protected words, format regions,
the physical map and address translation (chapters 1, 4 and 11). -/
namespace Sys2Proof.Machine

/-- Draws a free value of width `w`. -/
def drawFree (s : State) (w : Nat) : BitVec w × State := (Config.freeValue w s.free, { s with free := s.free + 1 })

/-! ### Bytes -/

/-- What an unlisted byte reads as (DESIGN CHOICE: assumption 3). -/
def memDefault : Byte := 0

/-- The byte at a key. -/
def memGet : Mem → Nat → Byte
  | [], _ => memDefault
  | (k, b) :: r, a => if a = k then b else memGet r a

/-- The memory with one byte written; canonical form is kept. -/
def memSet : Mem → Nat → Byte → Mem
  | [], a, b => if b = memDefault then [] else [(a, b)]
  | (k, c) :: r, a, b =>
    if a < k then (if b = memDefault then (k, c) :: r else (a, b) :: (k, c) :: r)
    else if a = k then (if b = memDefault then r else (a, b) :: r)
    else (k, c) :: memSet r a b

/-- Canonical form: every key is at least `lo`, keys strictly rise, and no listed byte is the default. -/
def memWfFrom : Nat → Mem → Bool
  | _, [] => true
  | lo, (k, b) :: r => decide (lo ≤ k) && (b != memDefault) && memWfFrom (k + 1) r

/-- The canonical form of a memory. -/
def Memory.wf (m : Mem) : Bool := memWfFrom 0 m

/-- A byte of a list of held bytes. -/
def ovGet : Overlay → Nat → Option Byte
  | [], _ => none
  | (k, b) :: r, a => if a = k then some b else ovGet r a

def ovSet : Overlay → Nat → Byte → Overlay
  | [], a, b => [(a, b)]
  | (k, c) :: r, a, b =>
    if a < k then (a, b) :: (k, c) :: r else if a = k then (a, b) :: r else (k, c) :: ovSet r a b

def ovErase (o : Overlay) (a : Nat) : Overlay := o.filter fun c => c.1 != a

/-- Whether a byte of the 64-byte line of `a` is held. -/
def ovHasLine (o : Overlay) (a : Nat) : Bool := o.any fun c => c.1 / 64 == a / 64

def memWrite (m : Mem) (l : List (Nat × Byte)) : Mem := l.foldl (fun m c => memSet m c.1 c.2) m
def ovWrite (o : Overlay) (l : List (Nat × Byte)) : Overlay := l.foldl (fun o c => ovSet o c.1 c.2) o

/-- Little-endian value of bytes (R2). -/
def leValue : List Byte → Nat
  | [] => 0
  | b :: r => b.toNat + 256 * leValue r

/-- The `n` low bytes of a number, lowest first (R2). -/
def leBytes : Nat → Nat → List Byte
  | 0, _ => []
  | n + 1, v => BitVec.ofNat 8 v :: leBytes n (v / 256)

/-- One byte of CRC-32C (reflected polynomial 0x82F63B78). -/
def crcByte (c : BitVec 32) (b : Byte) : BitVec 32 :=
  (List.range 8).foldl (fun c _ => (c >>> 1) ^^^ (if c.getLsbD 0 then 0x82F63B78#32 else 0)) (c ^^^ b.setWidth 32)

/-- CRC-32C of bytes. -/
def crc32c (bs : List Byte) : BitVec 32 := ~~~(bs.foldl crcByte 0xFFFFFFFF#32)

/-! ### Keys and the physical map -/

/-- Key of byte `off` of the scratchpad of core `core` of the package. -/
def scratchKey (core off : Nat) : Nat := 2 ^ 60 + core * 2 ^ 22 + off

/-- Key of byte `off` of the Commons of die `die` of package `pkg`. -/
def commonsKey (pkg die off : Nat) : Nat := 2 ^ 61 + (pkg * 8 + die) * 2 ^ 26 + off

/-- The ranges of Table 1.15 (R57). -/
inductive PaClass where
  | hbm
  | host
  | pod (pkg : Nat)
  | bad
deriving DecidableEq, Repr

/-- The class of a physical address; the pod-window name of this package's HBM is its HBM (R58). -/
def paClass (pkgNo : BitVec 10) (pa : Nat) : PaClass :=
  if pa < 2 ^ 40 then .hbm
  else if pa ≥ 0x4000000000000 && pa < 0x8000000000000 then .host
  else if pa ≥ 0x8000000000000 && pa < 0xC000000000000 then
    let p := pa / 2 ^ 40 % 1024
    if p = pkgNo.toNat then .hbm else .pod p
  else .bad

/-- The one key of a physical address under both its names (R58). -/
def paKey (pkgNo : BitVec 10) (pa : Nat) : Nat :=
  if pa ≥ 0x8000000000000 && pa < 0xC000000000000 && pa / 2 ^ 40 % 1024 = pkgNo.toNat then pa % 2 ^ 40 else pa

/-- First key of the protected word of a key: 64 bytes in HBM, 8 bytes in SRAM (R492). -/
def wordBase (key : Nat) : Nat := if key < 2 ^ 60 then key / 64 * 64 else key / 8 * 8
def wordSize (key : Nat) : Nat := if key < 2 ^ 60 then 64 else 8

/-- Whether any of the keys lies in a word with an uncorrectable error. -/
def poisoned (s : State) (keys : List Nat) : Bool := keys.any fun k => s.poison.contains (wordBase k)

/-- Words wholly covered by the written keys lose their error (R384, R492). -/
def clearPoison (poison : List Nat) (l : List (Nat × Byte)) : List Nat :=
  if poison.isEmpty then poison
  else poison.filter fun w => !((List.range (wordSize w)).all fun i => l.any fun c => c.1 == w + i)

/-- Words all of whose bytes a run of writes has covered lose their error, however the bytes came (R384, R397, R492). -/
def coverPoison (s : State) (keys : List Nat) : State :=
  if s.poison.isEmpty then s
  else { s with poison := s.poison.filter fun w => !((List.range (wordSize w)).all fun i => keys.contains (w + i)) }

/-- Writes bytes at their home, by key. -/
def rawWrite (s : State) (l : List (Nat × Byte)) : State :=
  { s with mem := memWrite s.mem l, poison := clearPoison s.poison l }

def rawRead (s : State) (keys : List Nat) : List Byte := keys.map (memGet s.mem)

/-- Keys `base` to `base + n - 1`. -/
def keyRange (base n : Nat) : List Nat := (List.range n).map (base + ·)

/-- The little-endian value of `n` bytes at a key. -/
def memVal (s : State) (base n : Nat) : Nat := leValue (rawRead s (keyRange base n))

def writeVal (s : State) (base n v : Nat) : State := rawWrite s ((keyRange base n).zip (leBytes n v))

/-! ### Format regions (R398 to R402) -/

/-- The region whose alias window holds the byte `pa` of this package's HBM. -/
def aliasRegion (s : State) (pa : Nat) : Option (Nat × Region) :=
  s.regions.find? fun r =>
    r.2.en && decide (r.2.abase.toNat * 2 ^ 21 ≤ pa) && decide (pa < r.2.abase.toNat * 2 ^ 21 + r.2.asize.toNat * 2 ^ 21)

def Region.format (r : Region) : Fmt := (Fmt.ofCode r.fmt.toNat).getD .mxe4m3
def Region.elems (r : Region) : Nat := r.asize.toNat * 2 ^ 20

/-- The code of `b` bits at bit `bit` above byte key `base` (R95, R108). -/
def codeAt (m : Mem) (base bit b : Nat) : Nat :=
  let k := base + bit / 8
  ((memGet m k).toNat + 256 * (memGet m (k + 1)).toNat) / 2 ^ (bit % 8) % 2 ^ b

/-- Bytes that place a code of `b` bits at bit `bit` above byte key `base`. -/
def placeCode (m : Mem) (base bit b code : Nat) : Mem :=
  let k := base + bit / 8
  let old := (memGet m k).toNat + 256 * (memGet m (k + 1)).toNat
  let sh := bit % 8
  let new := old - (old / 2 ^ sh % 2 ^ b) * 2 ^ sh + (code % 2 ^ b) * 2 ^ sh
  let m := memSet m k (BitVec.ofNat 8 new)
  if sh + b > 8 then memSet m (k + 1) (BitVec.ofNat 8 (new / 256)) else m

/-- Scale code, tag check and group scale of block `j` of a region (R399). -/
def Region.scales (r : Region) (m : Mem) (j : Nat) : Nat × Bool × Nat :=
  let f := r.format
  let at_ := r.sbase.toNat * 64 + f.scaleBytes * j
  let tagOk := !f.isTagged || (memGet m (at_ + 1)).toNat == j % 256
  let g := r.sbase.toNat * 64 + 2 * (r.elems / 16) + 4 * (j / 64)
  ((memGet m at_).toNat, tagOk,
    (memGet m g).toNat + 256 * (memGet m (g + 1)).toNat + 65536 * (memGet m (g + 2)).toNat
      + 16777216 * (memGet m (g + 3)).toNat)

/-- The exact value of element `e` of a region, and whether its block's tag agrees. -/
def Region.value (r : Region) (m : Mem) (e : Nat) : Val × Bool :=
  let f := r.format
  let sc := r.scales m (e / f.block)
  let code := codeAt m (r.dbase.toNat * 2 ^ 21) (e * f.bits) f.bits
  (if f.isTl then tlValue f code sc.1 sc.2.2 else mxValue f code sc.1, sc.2.1)

/-- The BF16 code that an alias read of element `e` delivers (R400). -/
def Region.aliasCode (r : Region) (m : Mem) (e : Nat) : Nat :=
  (FFmt.bf16.convert .rne 0 false (r.value m e).1).1

/-- A byte of this package at its home: an alias byte is decoded unless its line holds it dirty. -/
def homeByte (s : State) (pa : Nat) : Byte :=
  match aliasRegion s pa with
  | none => memGet s.mem pa
  | some (_, r) =>
    match ovGet s.llc pa with
    | some b => b
    | none =>
      let o := pa - r.abase.toNat * 2 ^ 21
      BitVec.ofNat 8 (r.aliasCode s.mem (o / 2) / (if o % 2 = 1 then 256 else 1))

def setAssoc {α : Type} (l : List (Nat × α)) (k : Nat) (x : α) : List (Nat × α) :=
  if l.any fun c => c.1 == k then l.map fun c => if c.1 == k then (k, x) else c else l ++ [(k, x)]

def getAssoc {α : Type} (l : List (Nat × α)) (k : Nat) (d : α) : α :=
  match l.find? fun c => c.1 == k with
  | some c => c.2
  | none => d

def satAdd {w : Nat} (x : BitVec w) (n : Nat) : BitVec w := BitVec.ofNat w (min (x.toNat + n) (2 ^ w - 1))

/-- R401 for one block: substitutes the dirty alias bytes, encodes, and writes codes, scale and tag. A NaN or an infinity among the
values of a two-level block makes its scale and codes 0 (DESIGN CHOICE: assumption 27: R137 would make the group scale NaN, which R401
never changes). -/
def aliasBlock (s : State) (n : Nat) (r : Region) (j : Nat) : State :=
  let f := r.format
  let base := r.abase.toNat * 2 ^ 21
  let srcs := (List.range f.block).map fun i =>
    let e := j * f.block + i
    let lo := ovGet s.llc (base + 2 * e)
    let hi := ovGet s.llc (base + 2 * e + 1)
    let v := match lo, hi with
      | none, none => (r.value s.mem e).1
      | _, _ =>
        let old := r.aliasCode s.mem e
        let l := match lo with
          | some b => b.toNat
          | none => old % 256
        let h := match hi with
          | some b => b.toNat
          | none => old / 256
        FFmt.bf16.value (l + 256 * h)
    ({ v := v } : Src)
  let sc := r.scales s.mem j
  let enc : Nat × List Nat × Fx :=
    if f.isTl then
      match FFmt.fp32.value sc.2.2 with
      | .fin neg g =>
        if neg || g.isZero || !(srcs.all fun x => x.v.isFinite) then (0, srcs.map fun _ => 0, { nan := true })
        else encTlBlock f .rne g none srcs
      | _ => (0, srcs.map fun _ => 0, { nan := true })
    else encMxBlock f .rne none srcs
  let m := (List.range f.block).foldl
    (fun m i => placeCode m (r.dbase.toNat * 2 ^ 21) ((j * f.block + i) * f.bits) f.bits (enc.2.1.getD i 0)) s.mem
  let at_ := r.sbase.toNat * 64 + f.scaleBytes * j
  let m := memSet m at_ (BitVec.ofNat 8 enc.1)
  let m := if f.isTagged then memSet m (at_ + 1) (BitVec.ofNat 8 j) else m
  { s with
    mem := m
    regions := setAssoc s.regions n
      { r with satcnt := satAdd r.satcnt enc.2.2.nsat, undcnt := satAdd r.undcnt enc.2.2.nund } }

/-- Writes back and invalidates the alias line at `line` (a physical address, multiple of 64) in the last-level cache. -/
def aliasWriteLine (s : State) (line : Nat) : State :=
  match aliasRegion s line with
  | none => s
  | some (n, r) =>
    let e0 := (line - r.abase.toNat * 2 ^ 21) / 2
    let b := r.format.block
    let dirty (j : Nat) : Bool := (List.range b).any fun i =>
      (ovGet s.llc (r.abase.toNat * 2 ^ 21 + 2 * (j * b + i))).isSome ||
      (ovGet s.llc (r.abase.toNat * 2 ^ 21 + 2 * (j * b + i) + 1)).isSome
    let blocks := (List.range (32 / b)).map (e0 / b + ·)
    let s' := blocks.foldl (fun t j => if dirty j then aliasBlock t n (getAssoc t.regions n r) j else t) s
    { s' with llc := s'.llc.filter fun c => c.1 / 64 != line / 64,
              llcLines := s'.llcLines.filter fun c => c.line != line / 64 }

/-- Alias lines whose blocks have raw bytes (codes, scales or group scale) at `pa`. -/
def rawAliasLines (s : State) (pa : Nat) : List Nat :=
  s.regions.flatMap fun c =>
    let r := c.2
    if !r.en then [] else
    let f := r.format
    let d := r.dbase.toNat * 2 ^ 21
    let sc := r.sbase.toNat * 64
    let base := r.abase.toNat * 2 ^ 21
    let line (e : Nat) : Nat := base + e / 32 * 64
    if d ≤ pa && pa < d + r.elems * f.bits / 8 then [line ((pa - d) * 8 / f.bits)]
    else if sc ≤ pa && pa < sc + f.scaleBytes * (r.elems / f.block) then [line ((pa - sc) / f.scaleBytes * f.block)]
    else if f.isTl && sc + 2 * (r.elems / 16) ≤ pa && pa < sc + 2 * (r.elems / 16) + 4 * (r.elems / 1024) then
      (List.range 32).map fun i => line ((pa - sc - 2 * (r.elems / 16)) / 4 * 1024 + 32 * i)
    else []

/-- R402: a raw access first writes back the dirty alias lines of the blocks it touches. -/
def homePrep (s : State) (pas : List Nat) : State :=
  if s.regions.isEmpty then s else
  pas.foldl (fun t pa => (rawAliasLines t pa).foldl
    (fun u l => if ovHasLine u.llc l then aliasWriteLine u l else u) t) s

/-- The first addresses of the 64-byte lines of a list of bytes, each once. -/
def linesOf (pas : List Nat) : List Nat := pas.foldl (fun l pa => if l.contains (pa / 64 * 64) then l else l ++ [pa / 64 * 64]) []

/-- A format region is enabled. Only then do the last-level caches' lines matter to any value, and only then are they followed
(assumption 66). -/
def anyRegion (s : State) : Bool := s.regions.any (·.2.en)

/-- Every policy but NOALLOC allocates in the last-level cache. -/
def fillsLlc (cache : BitVec 3) : Bool := cache ≠ 2

/-- The set of a line in its die's last-level cache: 65,536 sets of 16 ways, by the low bits of the line's number (PRESUMED:
assumption 66). -/
def llcSet (line : Nat) : Nat := line / 2 ^ 31 * 65536 + line % 65536

/-- R397: the line that an allocation under a policy replaces: beyond 12 KEEP lines a KEEP line replaces the least recently used of
them; any other allocation in a full set replaces a STREAM line first, then the least recently used line that is not KEEP. -/
def llcVictim (ls : List LlcLine) (line : Nat) (cache : BitVec 3) : Option Nat :=
  let set := ls.filter fun x => llcSet x.line == llcSet line
  let kept := set.filter fun x => x.policy == 3
  let last (l : List LlcLine) : Option Nat := l.getLast?.map (·.line)
  if cache = 3 && 12 ≤ kept.length then last kept
  else if set.length < 16 then none
  else match last (set.filter fun x => x.policy == 1) with
    | some v => some v
    | none => last (set.filter fun x => x.policy != 3)

/-- The last-level cache gives up a line; a dirty alias line goes home first (R397, R401). -/
def llcEvict (s : State) (line : Nat) : State :=
  let s := aliasWriteLine s (line * 64)
  { s with llcLines := s.llcLines.filter fun c => c.line != line }

/-- The line's entry in the last-level cache. -/
def llcFind (s : State) (line : Nat) : Option LlcLine := s.llcLines.find? fun c => c.line == line

/-- An access under a policy to a line of this package's HBM: a held line becomes the most recently used; another is allocated where
the policy says so, `filled` and `bad` being what is known of its bytes. -/
def llcTouch (s : State) (line : Nat) (cache : BitVec 3) (filled bad : Bool) : State :=
  match llcFind s line with
  | some c => { s with llcLines := { c with filled := filled, bad := bad } :: s.llcLines.filter fun x => x.line != line }
  | none =>
    if !fillsLlc cache || 2 ^ 34 ≤ line then s
    else
      let s := match llcVictim s.llcLines line cache with
        | some v => llcEvict s v
        | none => s
      { s with llcLines := ⟨line, cache, filled, bad⟩ :: s.llcLines }

/-- One line of a read at the home. -/
def llcReadLine (cache : BitVec 3) (pas : List Nat) (t : State × Bool) (line : Nat) : State × Bool :=
  let s := t.1
  let old := (llcFind s (line / 64)).getD ⟨line / 64, cache, false, false⟩
  match aliasRegion s line with
  | none => (llcTouch s (line / 64) cache true false, t.2)
  | some (n, r) =>
    if old.filled || pas.all fun k => k / 64 != line / 64 || (ovGet s.llc k).isSome then
      (llcTouch s (line / 64) cache old.filled old.bad, t.2 || old.bad)
    else
      let b := r.format.block
      let j0 := (line - r.abase.toNat * 2 ^ 21) / 2 / b
      let wrong := ((List.range (32 / b)).filter fun i => !(r.scales s.mem (j0 + i)).2.1).length
      let s := if wrong = 0 then s
        else { s with regions := setAssoc s.regions n { r with tagerr := satAdd r.tagerr wrong } }
      (llcTouch s (line / 64) cache true (decide (wrong ≠ 0)), t.2 || decide (wrong ≠ 0))

/-- R400: reads at their home, under a policy, and whether the data are uncorrectable. An alias line whose bytes the last-level cache
does not hold is decoded, which counts its tag mismatches once; it is held from then on where the policy allocates it. A held line
with a wrong tag stays uncorrectable, its dirty bytes too, until a write covers it whole (R397). -/
def noteAliasRead (s : State) (cache : BitVec 3) (pas : List Nat) : State × Bool :=
  if !anyRegion s then (s, false) else (linesOf pas).foldl (llcReadLine cache pas) (s, false)

/-- A byte of an alias line that a read at its home would find uncorrectable. -/
def aliasBad (s : State) (pa : Nat) : Bool := (noteAliasRead s 2 [pa]).2

/-- Bytes by line, in the order of their first bytes. -/
def byLine (l : List (Nat × Byte)) : List (Nat × List (Nat × Byte)) :=
  (linesOf (l.map (·.1))).map fun a => (a / 64, l.filter fun c => c.1 / 64 == a / 64)

/-- One line of a write of alias bytes at the home: they become dirty bytes of the line, which is converted at once where it is not
held and the policy does not allocate it (R401). A write of all 64 bytes clears the line's mark (R397). -/
def llcWriteLine (cache : BitVec 3) (s : State) (x : Nat × List (Nat × Byte)) : State :=
  let held := (llcFind s x.1).isSome || ovHasLine s.llc (x.1 * 64)
  let old := (llcFind s x.1).getD ⟨x.1, cache, false, false⟩
  let whole := (keyRange (x.1 * 64) 64).all fun k => x.2.any fun c => c.1 == k
  let s := llcTouch s x.1 cache (old.filled || whole) (old.bad && !whole)
  let s := { s with llc := ovWrite s.llc x.2 }
  if held || fillsLlc cache then s else aliasWriteLine s (x.1 * 64)

/-- Writes bytes of global memory at their home, under a policy: raw bytes, over whose decoded alias lines the last-level cache loses
its copies (R402), and alias bytes (R401). -/
def homeWriteVia (s : State) (cache : BitVec 3) (l : List (Nat × Byte)) : State :=
  let s := homePrep s (l.map (·.1))
  if !anyRegion s then rawWrite s l else
  let al := l.filter fun c => (aliasRegion s c.1).isSome
  let raw := l.filter fun c => (aliasRegion s c.1).isNone
  let stale := raw.flatMap fun c => (rawAliasLines s c.1).map (· / 64)
  let s := rawWrite s raw
  let s := { s with llcLines := s.llcLines.filter fun c => !stale.contains c.line }
  let s := (linesOf (raw.map (·.1))).foldl (fun s a => llcTouch s (a / 64) cache true false) s
  (byLine al).foldl (llcWriteLine cache) s

/-- A write at the home under the policy NORMAL, as write-backs and writes without a record are. -/
def homeWrite (s : State) (l : List (Nat × Byte)) : State := homeWriteVia s 0 l

/-! ### Caches (R97, R156 to R158) -/

/-- NORMAL and KEEP allocate in the L1 and the quad cache (Table 2.12). -/
def fillsCaches (cache : BitVec 3) : Bool := cache = 0 || cache = 3

/-- KEEP marks its lines in the quad cache. -/
def keeps (cache : BitVec 3) : Bool := cache = 3

/-- A byte that a cache holds. -/
def Cache.get (c : Cache) (pa : Nat) : Option Byte :=
  match ovGet c.dirty pa with
  | some b => some b
  | none => ovGet c.clean pa

def Cache.holds (c : Cache) (line : Nat) : Bool := c.lines.any fun x => x.1 == line

/-- The line becomes the one most recently used; a line that was held keeps its KEEP mark. -/
def Cache.touch (c : Cache) (line : Nat) (keep : Bool) : Cache :=
  { c with lines := (match c.lines.find? fun x => x.1 == line with
      | some x => x
      | none => (line, keep)) :: c.lines.filter fun x => x.1 != line }

/-- A cache without a line. -/
def Cache.drop (c : Cache) (line : Nat) : Cache :=
  ⟨c.lines.filter fun x => x.1 != line, c.dirty.filter fun x => x.1 / 64 != line, c.clean.filter fun x => x.1 / 64 != line⟩

/-- The dirty bytes of a line. -/
def Cache.dirtyOf (c : Cache) (line : Nat) : List (Nat × Byte) := c.dirty.filter fun x => x.1 / 64 == line

/-- Bytes that were missing, now held clean. -/
def Cache.fill (c : Cache) (l : List (Nat × Byte)) : Cache :=
  { c with clean := ovWrite c.clean (l.filter fun x => (ovGet c.clean x.1).isNone) }

/-- Bytes written to held lines. -/
def Cache.store (c : Cache) (l : List (Nat × Byte)) : Cache := { c with dirty := ovWrite c.dirty l }

/-- A write made elsewhere updates the copies that a cache holds. -/
def Cache.update (c : Cache) (l : List (Nat × Byte)) : Cache :=
  { c with
    dirty := ovWrite c.dirty (l.filter fun x => (ovGet c.dirty x.1).isSome)
    clean := ovWrite c.clean (l.filter fun x => (ovGet c.clean x.1).isSome) }

/-- Every dirty byte has been written back: it stays held, clean. -/
def Cache.cleaned (c : Cache) : Cache := { c with dirty := [], clean := ovWrite c.clean c.dirty }

/-- The set of a line in the quad cache: 4,096 sets of 16 ways, by the low bits of the line's number (PRESUMED: log 66). -/
def quadSet (line : Nat) : Nat := line % 4096

/-- R156: the line that an allocation in the quad cache replaces, the least recently used of those it may replace. -/
def quadVictim (c : Cache) (line : Nat) (keep : Bool) : Option Nat :=
  if c.holds line then none else
  let set := c.lines.filter fun x => quadSet x.1 == quadSet line
  let kept := set.filter (·.2)
  if keep && 12 ≤ kept.length then kept.getLast?.map (·.1)
  else if 16 ≤ set.length then (set.filter fun x => !x.2).getLast?.map (·.1)
  else none

/-- The quad cache comes to hold a line; what that replaces is written back to its home. -/
def quadAlloc (s : State) (line : Nat) (keep : Bool) : State :=
  let s := match quadVictim s.qc line keep with
    | none => s
    | some v => homeWrite { s with qc := s.qc.drop v } (s.qc.dirtyOf v)
  { s with qc := s.qc.touch line keep }

/-- One line's bytes written into the quad cache. -/
def quadLineStore (keep : Bool) (s : State) (x : Nat × List (Nat × Byte)) : State :=
  let s := quadAlloc s x.1 keep
  { s with qc := s.qc.store x.2 }

/-- Bytes written into the quad cache. -/
def quadStore (s : State) (keep : Bool) (l : List (Nat × Byte)) : State := (byLine l).foldl (quadLineStore keep) s

/-- The L1 comes to hold a line. It has 1,024 lines; which one a full L1 replaces is open, so it is a free value (log 66). -/
def l1Alloc (s : State) (line : Nat) : State :=
  if s.l1.holds line || s.l1.lines.length < 1024 then { s with l1 := s.l1.touch line false }
  else
    let d := drawFree s 10
    let v := (s.l1.lines.getD d.1.toNat (line, false)).1
    let s := quadStore { d.2 with l1 := s.l1.drop v } false (s.l1.dirtyOf v)
    { s with l1 := s.l1.touch line false }

/-- A byte of global memory as the core sees it through its L1 and the quad cache. -/
def cachedByte (s : State) (pa : Nat) : Byte :=
  match s.l1.get pa with
  | some b => b
  | none =>
    match s.qc.get pa with
    | some b => b
    | none => homeByte s pa

/-- What the caches give of a byte to an access that is performed at a point of Table 4.4: 0 the L1, 1 the quad cache, 2 the
home. Dirty bytes nearer to the core are seen (R34), clean ones are not. -/
def heldAt (s : State) (point pa : Nat) : Option Byte :=
  match (if point = 0 then s.l1.get pa else ovGet s.l1.dirty pa) with
  | some b => some b
  | none => if point = 2 then ovGet s.qc.dirty pa else s.qc.get pa

/-- The point of Table 4.4 at a scope. -/
def scopePoint (scope : Option (BitVec 3)) : Nat :=
  match scope with
  | none => 0
  | some sc => min sc.toNat 2

/-- A byte read at a point. -/
def byteAt (s : State) (point pa : Nat) : Byte := (heldAt s point pa).getD (homeByte s pa)

/-- The bytes of a line as the quad cache gives them. -/
def quadLine (s : State) (line : Nat) : List (Nat × Byte) :=
  (keyRange (line * 64) 64).map fun k => (k, (s.qc.get k).getD (homeByte s k))

/-- The whole line comes into the quad cache from where it is held, if it is not there already. -/
def fillQuad (s : State) (keep : Bool) (line : Nat) : State :=
  let bytes := quadLine s line
  let s := quadAlloc s line keep
  { s with qc := s.qc.fill bytes }

/-- The whole line comes into the L1 and the quad cache from where it is held. -/
def fillLine (s : State) (keep : Bool) (line : Nat) : State :=
  if s.l1.holds line && (keyRange (line * 64) 64).all fun k => (s.l1.get k).isSome then { s with l1 := s.l1.touch line keep }
  else
    let bytes := quadLine s line
    let s := l1Alloc (fillQuad s keep line) line
    { s with l1 := s.l1.fill bytes }

/-- What a read of bytes of the line at `a` leaves in the caches. -/
def fetchLine (cache : BitVec 3) (point : Nat) (s : State) (a : Nat) : State :=
  if point = 2 then s
  else if fillsCaches cache then
    let missing := (keyRange a 64).filter fun k => (heldAt s point k).isNone
    let s := homePrep s missing
    let n := noteAliasRead s cache missing
    if n.2 || poisoned n.1 missing then n.1
    else if point = 0 then fillLine n.1 (keeps cache) (a / 64) else fillQuad n.1 (keeps cache) (a / 64)
  else if point = 0 && s.l1.holds (a / 64) then { s with l1 := s.l1.touch (a / 64) false }
  else if s.qc.holds (a / 64) then { s with qc := s.qc.touch (a / 64) false }
  else s

/-- R97: what a read of global bytes by the Steward or the vector engine at a point of Table 4.4 leaves in the caches. A line that
cannot be read whole at its home is not held. -/
def fetchLines (s : State) (cache : BitVec 3) (point : Nat) (pas : List Nat) : State :=
  (linesOf pas).foldl (fetchLine cache point) s

/-- The bytes of a store that no cache has taken are written at home. -/
def writeRest (cache : BitVec 3) (r : State × List (Nat × Byte)) : State :=
  if r.2.isEmpty then r.1 else homeWriteVia r.1 cache r.2

/-- One line of a plain store: into the L1 or the quad cache, or left for the home. -/
def cachedLine (cache : BitVec 3) (t : State × List (Nat × Byte)) (x : Nat × List (Nat × Byte)) : State × List (Nat × Byte) :=
  let s := t.1
  if s.l1.holds x.1 then ({ s with l1 := (s.l1.touch x.1 false).store x.2 }, t.2)
  else if fillsCaches cache then
    let s := l1Alloc (quadAlloc s x.1 (keeps cache)) x.1
    ({ s with l1 := s.l1.store x.2 }, t.2)
  else if s.qc.holds x.1 then ({ s with qc := (s.qc.touch x.1 false).store x.2 }, t.2)
  else (s, t.2 ++ x.2)

/-- A plain store by the Steward or the vector engine (R97, Table 2.12): NORMAL and KEEP allocate in the L1 and the quad cache;
STREAM and NOALLOC write where the line is held, or at home. -/
def cachedWrite (s : State) (cache : BitVec 3) (l : List (Nat × Byte)) : State :=
  writeRest cache ((byLine l).foldl (cachedLine cache) (s, []))

/-- One line of a write performed at the quad cache. -/
def quadWriteLine (cache : BitVec 3) (t : State × List (Nat × Byte)) (x : Nat × List (Nat × Byte)) :
    State × List (Nat × Byte) :=
  if fillsCaches cache || t.1.qc.holds x.1 then (quadStore t.1 (keeps cache) x.2, t.2) else (t.1, t.2 ++ x.2)

/-- A write performed at the quad cache (Table 4.4) that updates the L1's copies; STREAM and NOALLOC write where the line is held,
or at home. -/
def quadWrite (s : State) (cache : BitVec 3) (l : List (Nat × Byte)) : State :=
  let s := writeRest cache ((byLine l).foldl (quadWriteLine cache) (s, []))
  { s with l1 := s.l1.update l }

/-- A write performed at the home that updates the copies in the core's caches (R299). -/
def homeStore (s : State) (cache : BitVec 3) (l : List (Nat × Byte)) : State :=
  let s := homeWriteVia s cache l
  { s with l1 := s.l1.update l, qc := s.qc.update l }

/-- One line of a drain's store. -/
def drainLine (cache : BitVec 3) (t : State × List (Nat × Byte)) (x : Nat × List (Nat × Byte)) : State × List (Nat × Byte) :=
  let s := t.1
  if s.l1.holds x.1 then ({ s with l1 := (s.l1.touch x.1 false).store x.2 }, t.2)
  else if fillsCaches cache || s.qc.holds x.1 then (quadStore s (keeps cache) x.2, t.2)
  else (s, t.2 ++ x.2)

/-- A drain's store (R249): to a line that the L1 holds, else through to the quad cache, which allocates by the policy, else at
home. -/
def drainStore (s : State) (cache : BitVec 3) (l : List (Nat × Byte)) : State :=
  writeRest cache ((byLine l).foldl (drainLine cache) (s, []))

/-- Writes every dirty byte of the L1 to the quad cache. -/
def flushL1 (s : State) : State := quadStore { s with l1 := s.l1.cleaned } false s.l1.dirty

/-- Writes every dirty byte of the quad cache to its home. -/
def flushQc (s : State) : State := homeWrite { s with qc := s.qc.cleaned } s.qc.dirty

/-- A release's actions at a scope (Table 4.4): what is written back stays held. -/
def releaseActions (s : State) (scope : BitVec 3) : State :=
  if scope = 0 then s else if scope = 1 then flushL1 s else flushQc (flushL1 s)

def dropL1 (s : State) : State := { s with l1 := Cache.reset }
def dropQc (s : State) : State := { s with qc := Cache.reset }

/-- An acquire's actions at a scope (Table 4.4): the caches are written back and invalidated. -/
def cacheActions (s : State) (scope : BitVec 3) : State :=
  if scope = 0 then s else if scope = 1 then dropL1 (flushL1 s) else dropQc (flushQc (dropL1 (flushL1 s)))

/-- Whether a release at a scope has anything to write back. -/
def dirtyAt (s : State) (scope : BitVec 3) : Bool :=
  if scope = 0 then false
  else if scope = 1 then !s.l1.dirty.isEmpty
  else !(s.l1.dirty.isEmpty && s.qc.dirty.isEmpty)

/-! ### Translation (R403 to R405) -/

/-- What a translation gives. -/
inductive Tr where
  | ok (pa : Nat) (ms : Bool)
  | miss (vpn : Nat)
  | perm
deriving DecidableEq, Repr

/-- The translation in use for a virtual page. -/
def tlbFind (s : State) (part : BitVec 4) (vpn : Nat) : Option TlbEntry :=
  s.tlb.find? fun e => e.part == part && decide (e.vpn ≤ vpn) && decide (vpn < e.vpn + e.pages)

/-- Two ranges, by base and length, share an address. -/
def rangesMeet (a n b m : Nat) : Bool := decide (0 < n) && decide (0 < m) && decide (a < b + m) && decide (b < a + n)

/-- An enabled alias window lies within `n` bytes from `pa` of this package's HBM (R402, R404). -/
def aliasWithin (s : State) (pa n : Nat) : Bool := s.regions.any fun r =>
  r.2.en && rangesMeet pa n (r.2.abase.toNat * 2 ^ 21) (r.2.asize.toNat * 2 ^ 21)

/-- R404: an MS leaf that no access may use: it is not in this package's HBM or the pod window, or it maps an alias window. -/
def msRefused (s : State) (e : TlbEntry) : Bool :=
  e.ms && (paClass s.pkgNo (e.pfn * 4096) = .host || aliasWithin s (paKey s.pkgNo (e.pfn * 4096)) (e.pages * 4096))

/-- Translates one virtual address for a read or a write (R57, R404). -/
def translate (s : State) (part : BitVec 4) (write : Bool) (va : Nat) : Tr :=
  match tlbFind s part (va / 4096) with
  | none => .miss (va / 4096)
  | some e =>
    let pa := (e.pfn + (va / 4096 - e.vpn)) * 4096 + va % 4096
    if paClass s.pkgNo pa = .bad || (write && !e.w) || msRefused s e then .perm
    else .ok (paKey s.pkgNo pa) e.ms

/-- A range translated byte by byte (R58): each byte's key and whether its line is memory-side, the first page that misses, or
the first address that permission forbids. -/
inductive TrRange where
  | ok (pas : List (Nat × Bool))
  | miss (vpn : Nat)
  | perm (va : Nat)
deriving DecidableEq, Repr

def translateBytes (s : State) (part : BitVec 4) (write : Bool) : List Nat → TrRange
  | [] => .ok []
  | va :: r =>
    match translate s part write va with
    | .perm => .perm va
    | .miss v =>
      match translateBytes s part write r with
      | .perm b => .perm b
      | _ => .miss v
    | .ok pa ms =>
      match translateBytes s part write r with
      | .ok pas => .ok ((pa, ms) :: pas)
      | x => x

/-- What a page walk finds: a leaf, or no valid mapping. -/
structure Leaf where
  pfn : Nat
  pages : Nat
  w : Bool
  ms : Bool
deriving DecidableEq, Repr

/-- A leaf's SIZE in 4 KiB pages. -/
def leafPages (size : Nat) : Nat :=
  match size with
  | 0 => 1
  | 1 => 16
  | 2 => 512
  | _ => 262144

/-- What one entry of a table says: a leaf, the next table, or nothing valid. -/
inductive PtEntry where
  | leaf (l : Leaf)
  | table (pfn : Nat)
  | none
deriving DecidableEq, Repr

/-- A page-table entry met at a level (R403, R404). -/
def readPte (level : Nat) (w : BitVec 64) : PtEntry :=
  let pfn := (field w 12 40).toNat
  let size := (field w 4 2).toNat
  if !bitAt w 0 || field w 52 12 ≠ 0#12 || field w 6 6 ≠ 0#6 then .none
  else if bitAt w 1 then
    if (level = 3 && size ≤ 2 || level = 2 && size = 3) && pfn % leafPages size = 0 then
      .leaf ⟨pfn, leafPages size, bitAt w 2, bitAt w 3⟩
    else .none
  else if level = 3 || size ≠ 0 || pfn % 2 ≠ 0 then .none
  else .table pfn

/-- One level of the walk after another (R403 to R405): `path` are the indices used and the last argument those still to use,
that of the table at hand first. Entries are read at their home; the directory entries met stay in the translation cache. -/
def walkTables (s : State) (part : BitVec 4) (table : Nat) (path : List Nat) : List Nat → State × Option Leaf
  | [] => (s, none)
  | idx :: rest =>
    let pa := table * 4096 + 8 * idx
    if paClass s.pkgNo pa ≠ .hbm then (s, none) else
    let ks := keyRange (paKey s.pkgNo pa) 8
    let s := homePrep s ks
    match readPte path.length (BitVec.ofNat 64 (leValue (ks.map (homeByte s)))) with
    | .none => (s, none)
    | .leaf l => (s, some l)
    | .table pfn =>
      let here := path ++ [idx]
      walkTables { s with dirs := s.dirs ++ [⟨part, here, pfn⟩] } part pfn here rest

/-- The directory entry held for the longest part of a path (R405): the path that it covers, and its table. -/
def heldDir (s : State) (part : BitVec 4) (idxs : List Nat) : Option (List Nat × Nat) :=
  [3, 2, 1].findSome? fun n =>
    (s.dirs.find? fun d => d.part == part && d.path == idxs.take n).map fun d => (d.path, d.table)

/-- The page walk of a partition for a virtual page, from the deepest directory entry that the translation cache holds. -/
def pageWalkOf (s : State) (part : BitVec 4) (vpn : Nat) : State × Option Leaf :=
  let idxs := [vpn / 2 ^ 30 % 1024, vpn / 2 ^ 20 % 1024, vpn / 2 ^ 10 % 1024, vpn % 1024]
  match heldDir s part idxs with
  | some (path, table) => walkTables s part table path (idxs.drop path.length)
  | none => walkTables s part ((s.disp.parts[part.toNat]).root.toNat * 2) [] idxs

end Sys2Proof.Machine
end

