-- ==== Sys2Proof/Machine/Operands.lean ====
section
/-! DEFINITION. Operand forms: registers, buffer records, addresses, bounds, windows, handles and footprints
(chapters 1, 2 and 4). -/
namespace Sys2Proof.Machine

/-! ### Engines and their registers -/

def Engines.get (x : Engines) : Engine → Eng
  | .ctl => x.ctl
  | .bte => x.bte
  | .mxe => x.mxe
  | .vec => x.vec
  | .thr => x.thr

def Engines.set (x : Engines) : Engine → Eng → Engines
  | .ctl, e => { x with ctl := e }
  | .bte, e => { x with bte := e }
  | .mxe, e => { x with mxe := e }
  | .vec, e => { x with vec := e }
  | .thr, e => { x with thr := e }

def State.eng (s : State) (e : Engine) : Eng := s.ctx.eng.get e

def State.setEng (s : State) (e : Engine) (x : Eng) : State :=
  { s with ctx := { s.ctx with eng := s.ctx.eng.set e x } }

/-- Register `n` of an engine; A0 reads zero (R10). -/
def Eng.areg (x : Eng) (n : BitVec 5) : BitVec 64 := if n = 0 then 0 else x.a.getD n.toNat 0

/-- An engine with one register written; a write to A0 is discarded (R74). -/
def Eng.setA (x : Eng) (n : BitVec 5) (v : BitVec 64) : Eng :=
  if n = 0 then x else { x with a := x.a.setIfInBounds n.toNat v }

def Eng.breg (x : Eng) (n : BitVec 4) : BitVec 256 := x.bf.getD n.toNat 0
def Eng.setB (x : Eng) (n : BitVec 4) (v : BitVec 256) : Eng := { x with bf := x.bf.setIfInBounds n.toNat v }

def readA (s : State) (e : Engine) (n : BitVec 5) : BitVec 64 := (s.eng e).areg n
def readBf (s : State) (e : Engine) (n : BitVec 4) : BitVec 256 := (s.eng e).breg n

/-- Writes a register of an engine at once. -/
def putA (s : State) (e : Engine) (n : BitVec 5) (v : BitVec 64) : State := s.setEng e ((s.eng e).setA n v)

/-! ### Buffer records (R93, Table 2.10) -/

/-- A captured buffer record. -/
structure Rec where
  base : BitVec 57
  fmt : BitVec 7
  ext0 : Nat
  ext1 : Nat
  ext2 : Nat
  str1 : Int
  str2 : Int
  bmode : BitVec 2
  scope : BitVec 3
  cache : BitVec 3
  space : BitVec 2
deriving DecidableEq, Repr, Inhabited

def Rec.of (r : BitVec 256) : Rec :=
  { base := field r 0 57, fmt := field r 57 7, ext0 := (field r 64 32).toNat, ext1 := (field r 96 32).toNat,
    ext2 := (field r 160 32).toNat, str1 := (field r 128 32).toInt, str2 := (field r 192 32).toInt,
    bmode := field r 224 2, scope := field r 226 3, cache := field r 229 3, space := field r 232 2 }

/-- The record an engine's instruction captures (R94). -/
def recOf (s : State) (e : Engine) (bf : BitVec 4) : Rec := Rec.of (readBf s e bf)

def Rec.format (r : Rec) : Option Fmt := Fmt.ofCode r.fmt.toNat

/-- The low bit and the width of a record field code (Table 2.10); none for a reserved code. -/
def bfField (code : BitVec 5) : Option (Nat × Nat) :=
  match code.toNat with
  | 0 => some (0, 57)
  | 1 => some (57, 7)
  | 2 => some (64, 32)
  | 3 => some (96, 32)
  | 4 => some (128, 32)
  | 5 => some (160, 32)
  | 6 => some (192, 32)
  | 7 => some (224, 2)
  | 8 => some (226, 3)
  | 9 => some (229, 3)
  | 10 => some (232, 2)
  | _ => none

/-! ### Traps -/

/-- A fault that a check finds: its code, the operands that Table 1.13 gives its class, and the tag it is reported with
when that is not its engine's (R63, bank operations). -/
structure Trap where
  code : Code
  op0 : BitVec 64 := 0
  op1 : BitVec 64 := 0
  tag : Option (BitVec 3) := none
deriving DecidableEq, Repr, Inhabited

/-- Access types of an access-class record (Table 1.13). -/
inductive Acc where
  | read | write | atomic | fetch
deriving DecidableEq, Repr, Inhabited

def Acc.code : Acc → BitVec 64
  | .read => 0
  | .write => 1
  | .atomic => 2
  | .fetch => 3

def Acc.writes : Acc → Bool
  | .write => true
  | .atomic => true
  | _ => false

/-! ### Addresses (R55, R56, R95) -/

/-- The BASE field read by its space, and whether the bits that Table 1.14 requires to be zero are zero. -/
def Rec.baseAddr (r : Rec) : Nat × Bool :=
  match r.space.toNat with
  | 0 => ((field r.base 0 52).toNat, field r.base 52 5 = 0#5)
  | 1 => ((field r.base 0 22).toNat, field r.base 22 35 = 0#35)
  | 2 => ((field r.base 0 16).toNat, field r.base 24 33 = 0#33 && (field r.base 16 6).toNat < 48)
  | _ => ((field r.base 0 26).toNat, field r.base 39 18 = 0#18)

/-- First address past the end of a record's space (Table 1.14). -/
def Rec.limit (r : Rec) : Nat :=
  match r.space.toNat with
  | 0 => 2 ^ 52
  | 1 => 0x300000
  | 2 => 0x10000
  | _ => 0x3000000

def Rec.isScratch (r : Rec) : Bool := r.space = 1 || r.space = 2

/-- The core of the package whose scratchpad a scratchpad record names. -/
def Rec.core (s : State) (r : Rec) : Nat :=
  if r.space = 2 then s.coreNo.toNat / 4 * 4 + (field r.base 22 2).toNat else s.coreNo.toNat

/-- The byte offset within its scratchpad of offset `o` of a scratchpad record. -/
def Rec.spOff (r : Rec) (o : Nat) : Nat := if r.space = 2 then (field r.base 16 6).toNat * 0x10000 + o else o

def Rec.die (r : Rec) : Nat := (field r.base 26 3).toNat
def Rec.pkg (r : Rec) : Nat := (field r.base 29 10).toNat

/-- The memory key of offset `o` of a record whose space is not global. -/
def Rec.key (s : State) (r : Rec) (o : Nat) : Nat :=
  if r.space = 3 then commonsKey r.pkg r.die o else scratchKey (r.core s) (r.spOff o)

/-- An address of a record's space in the form of the base field (Table 1.14): the virtual address, or the offset with its handle
or its die and package. -/
def Rec.faultAddr (r : Rec) (a : Int) : BitVec 64 :=
  BitVec.ofInt 64 a + (match r.space.toNat with
    | 2 => ((field r.base 16 8).setWidth 64) <<< 16
    | 3 => ((field r.base 26 13).setWidth 64) <<< 26
    | _ => 0#64)

/-- OPERAND0 of an access-class record (Table 1.13): the virtual address, or space and offset: the base-field form with the code
of Table 1.14 above it, in bits 58:57 (DEDUCED: assumption 9). -/
def Rec.spaceAddr (r : Rec) (a : Int) : BitVec 64 := r.faultAddr a + ((r.space.setWidth 64) <<< 57)

def accTrap (code : Code) (r : Rec) (a : Int) (acc : Acc) : Trap := { code := code, op0 := r.spaceAddr a, op1 := acc.code }

/-- R95 for row `(i1, i2)`: the byte address of its first element. -/
def Rec.rowAddr (r : Rec) (i1 i2 : Nat) : Int := (r.baseAddr.1 : Int) + (i1 : Int) * r.str1 + (i2 : Int) * r.str2

/-- R95 and R108: the byte address and the bit within it of an element of `b` bits. -/
def Rec.elemAddr (r : Rec) (b i0 i1 i2 : Nat) : Int × Nat :=
  (r.rowAddr i1 i2 + ((i0 * b / 8 : Nat) : Int), i0 * b % 8)

/-- The indices of linear index `l` (R218). -/
def Rec.indices (r : Rec) (l : Int) : Int × Nat × Nat :=
  if r.ext0 = 0 || r.ext1 = 0 || l < 0 then (l, 0, 0)
  else
    let n := l.toNat
    (((n % r.ext0 : Nat) : Int), n / r.ext0 % r.ext1, n / (r.ext0 * r.ext1))

def Rec.inBounds (r : Rec) (l : Int) : Bool := decide (0 ≤ l) && decide (l < ((r.ext0 * r.ext1 * r.ext2 : Nat) : Int))

/-! ### Checks of an access (R494 step 3) -/

/-- R98: the record's own fields. `useScope` when the instruction takes its scope from the record. -/
def Rec.check (r : Rec) (useScope : Bool) : Option Trap :=
  if r.bmode = 3 || 4 ≤ r.cache.toNat || (useScope && 6 ≤ r.scope.toNat) then some { code := .illegalOp }
  else if r.format.isNone then some { code := .format, op0 := r.fmt.setWidth 64 }
  else none

/-- The window of the resident context (R155): handles `a` to `b` of any core. -/
def inWindow (s : State) (lo n : Nat) : Bool :=
  n = 0 || (decide (s.ctx.winBase.toNat ≤ lo / 0x10000) &&
    decide ((lo + n - 1) / 0x10000 < s.ctx.winBase.toNat + s.ctx.winCount.toNat))

/-- Every handle of core `core` touched by the range is held by this core (R165). -/
def handlesHeld (s : State) (core lo n : Nat) : Bool :=
  n = 0 || ((List.range ((lo + n - 1) / 0x10000 - lo / 0x10000 + 1)).all fun i =>
    s.handles.getD (core % 4 * 48 + lo / 0x10000 + i) .text == .held (field s.coreNo 0 2))

/-- Whether one granule lies in a footprint with the needed attribute (R27). -/
def footHas (l : List FootRange) (write : Bool) (g : Nat) : Bool :=
  l.any fun f => decide (f.base ≤ g) && decide (g < f.base + f.len) &&
    (if write then bitAt f.attr 1 else bitAt f.attr 0)

/-- The lowest byte offset of the range outside the footprint, if any (R27, Table 1.13). -/
def footEscape (l : List FootRange) (write : Bool) (lo n : Nat) : Option Nat :=
  if n = 0 then none else
  let gs := (List.range ((lo + n - 1) / 16 - lo / 16 + 1)).map (lo / 16 + ·)
  match gs.find? fun g => !footHas l write g with
  | none => none
  | some g => some (max lo (g * 16))

/-- The first offset of a range that the window leaves out (R155). -/
def outsideAt (s : State) (lo : Nat) : Nat :=
  if s.ctx.winBase.toNat ≤ lo / 0x10000 then max lo ((s.ctx.winBase.toNat + s.ctx.winCount.toNat) * 0x10000) else lo

/-- The first offset of a range whose handle this core does not hold (R165). -/
def unheldAt (s : State) (core lo n : Nat) : Nat :=
  match (List.range ((lo + n - 1) / 0x10000 - lo / 0x10000 + 1)).find? fun i =>
      s.handles.getD (core % 4 * 48 + lo / 0x10000 + i) .text != .held (field s.coreNo 0 2) with
  | some i => max lo ((lo / 0x10000 + i) * 0x10000)
  | none => lo

/-- Window, holder and footprint checks of a scratchpad range of `n` bytes at scratchpad offset `lo` of core `core`
(R155, R165, R27, R182); the record names the first byte that fails (Table 1.13). -/
def scratchCheck (s : State) (e : Engine) (r : Rec) (lo n : Nat) (acc : Acc) : Option Trap :=
  let core := r.core s
  let off := r.spOff lo
  if !inWindow s off n then some (accTrap .bounds r ((lo + (outsideAt s off - off) : Nat) : Int) acc)
  else if !handlesHeld s core off n then some (accTrap .handleNotHeld r ((lo + (unheldAt s core off n - off) : Nat) : Int) acc)
  else if s.ctx.det && n ≠ 0 then
    if core ≠ s.coreNo.toNat then some { code := .footprintEscape, op0 := BitVec.ofNat 64 off }
    else match footEscape (s.eng e).active acc.writes off n with
      | some o => some { code := .footprintEscape, op0 := BitVec.ofNat 64 o }
      | none => none
  else none

/-- The Commons range granted to the context's partition on a die of this package (R383). -/
def commonsGranted (s : State) (r : Rec) (lo n : Nat) : Bool :=
  n = 0 || r.pkg ≠ s.pkgNo.toNat ||
    (let p := s.disp.parts[s.ctx.part.toNat]
     let b := (p.cmBase.getD r.die 0).toNat * 0x10000
     decide (b ≤ lo) && decide (lo + n ≤ b + (p.cmSize.getD r.die 0).toNat * 0x10000))

/-- The first byte of a range that lies outside the grant (R383). -/
def ungrantedAt (s : State) (r : Rec) (lo : Nat) : Nat :=
  let p := s.disp.parts[s.ctx.part.toNat]
  let b := (p.cmBase.getD r.die 0).toNat * 0x10000
  if b ≤ lo then max lo (b + (p.cmSize.getD r.die 0).toNat * 0x10000) else lo

/-- R56: what an access meets in every bounds mode: BASE bits that must be zero, an address below 0 or past its space's limit. -/
def Rec.pastLimit (r : Rec) (a : Int) (n : Nat) : Bool := !r.baseAddr.2 || a < 0 || (r.limit : Int) < a + n

/-- The first byte of a range that R56 refuses. -/
def Rec.pastAt (r : Rec) (a : Int) : Int := if !r.baseAddr.2 || a < 0 then a else max a (r.limit : Int)

/-- The checks of a range `[a, a + n)` of a record, in the order of R494: BASE bits and limit (R56), then those of its
space. Translation is separate. The record of a failing check names the first byte that fails it (Table 1.13). -/
def rangeCheck (s : State) (e : Engine) (r : Rec) (a : Int) (n : Nat) (acc : Acc) : Option Trap :=
  if r.pastLimit a n then some (accTrap .bounds r (r.pastAt a) acc)
  else if r.isScratch then scratchCheck s e r a.toNat n acc
  else if r.space = 3 && !commonsGranted s r a.toNat n then
    some (accTrap .permission r ((ungrantedAt s r a.toNat : Nat) : Int) acc)
  else none

/-- First failing check of a list. -/
def firstTrap (l : List (Option Trap)) : Option Trap := l.findSome? id

/-! ### Granules (R161) -/

/-- Number of a granule of the quad's scratchpads in `State.full`. -/
def granuleNo (core off : Nat) : Nat := core % 4 * 196608 + off / 16

def granuleFull (s : State) (g : Nat) : Bool := s.full.contains g

/-- Insert in a strictly rising list. -/
def insNat : List Nat → Nat → List Nat
  | [], a => [a]
  | k :: r, a => if a < k then a :: k :: r else if a = k then k :: r else k :: insNat r a

def setFull (s : State) (gs : List Nat) (v : Bool) : State :=
  if v then { s with full := gs.foldl insNat s.full } else { s with full := s.full.filter fun g => !gs.contains g }

/-- Granules of a scratchpad range. -/
def rangeGranules (core off n : Nat) : List Nat :=
  if n = 0 then [] else (List.range ((off + n - 1) / 16 - off / 16 + 1)).map fun i => granuleNo core off + i

/-- Every granule of a list is in the wanted state (R161). -/
def granulesAre (s : State) (gs : List Nat) (want : Bool) : Bool := gs.all fun g => granuleFull s g == want

/-! ### Steward extents (R160) -/

/-- The byte extent of a record as the Steward sees it. -/
def Rec.extent (r : Rec) : Nat :=
  match r.format with
  | some .sqz8 => 160 * ceilDiv r.ext0 256
  | some f => r.ext0 * f.bits / 8
  | none => 0

/-- Where a Steward access of `n` bytes at offset `o` falls. -/
def Rec.stewardIn (r : Rec) (o : Int) (n : Nat) : Bool := decide (0 ≤ o) && decide (o + n ≤ (r.extent : Int))

end Sys2Proof.Machine
end

