-- ==== Sys2Proof/Machine/Ops.lean ====
section
/-! DEFINITION. Named operations over the engines: tokens, results and their landing, issue, walking the text, taking
an exception (`strandStop`) and returning from one (`resumeStrand`). -/
namespace Sys2Proof.Machine

/-- What a meaning finds: it issues and gives the next state, it stalls, or it faults. -/
inductive Res where
  | done (s : State)
  | wait (s : State) (k : WaitKind)
  | trap (t : Trap)

/-- The engine whose turn it is; control-subset instructions execute on it (R74). -/
def State.cur (s : State) : Engine :=
  match s.turn with
  | .eng e => e
  | .close => .ctl

/-! ### Free values and open latencies -/

/-- Takes the latency of the next variable-latency operation. -/
def takeDelay (s : State) : Nat × State :=
  match s.delays with
  | [] => (1, s)
  | d :: r => (d, { s with delays := r })

/-! ### Tokens (Table 1.5) -/

/-- Counter that PU pops, by its field of TOKEN.STATE. -/
def puCounter : Engine → Nat
  | .ctl => 3
  | .bte => 0
  | .mxe => 1
  | .vec => 2
  | .thr => 8

/-- Counter that PD pops. -/
def pdCounter : Engine → Nat
  | .ctl => 4
  | .bte => 5
  | .mxe => 6
  | .vec => 7
  | .thr => 8

/-- Counter that QU pushes. -/
def quCounter : Engine → Nat
  | .ctl => 7
  | .bte => 4
  | .mxe => 5
  | .vec => 6
  | .thr => 9

/-- Counter that QD pushes. -/
def qdCounter : Engine → Nat
  | .ctl => 0
  | .bte => 1
  | .mxe => 2
  | .vec => 3
  | .thr => 9

def tokGet (s : State) (i : Nat) : Nat := (s.ctx.tokens.getD i 0).toNat

def tokSet (s : State) (i n : Nat) : State :=
  { s with ctx := { s.ctx with tokens := s.ctx.tokens.setIfInBounds i (BitVec.ofNat 4 n) } }

/-- Tokens that the queued pushes of an engine put on a counter (R17, R185). -/
def queuedPushes (s : State) (e : Engine) (i : Nat) : Nat :=
  (s.eng e).pushes.foldl (fun n p => n + (if p.qu && quCounter e == i || p.qd && qdCounter e == i then 1 else 0) +
    (if i = 8 then p.ct else 0)) 0

/-- A counter of the engine has no room for all its queued pushes: one of them is pending or will be, so no further instruction
that pushes may issue (R17). -/
def pushCrowded (s : State) (e : Engine) : Bool := [quCounter e, qdCounter e, 8].any fun i =>
  queuedPushes s e i ≠ 0 && decide (16 ≤ tokGet s i + queuedPushes s e i)

/-- The first empty counter an instruction would pop (R15); an instruction that pushes waits besides while earlier pushes crowd a
counter (R17). -/
def popWait (s : State) (e : Engine) (h : Hdr) : Option WaitKind :=
  if h.pu && tokGet s (puCounter e) = 0 then some (.token (4 * puCounter e))
  else if h.pd && tokGet s (pdCounter e) = 0 then some (.token (4 * pdCounter e))
  else if (h.qu || h.qd) && pushCrowded s e then some .other
  else none

/-- Pops what the header asks for, both counters in one step (R15). -/
def popTokens (s : State) (e : Engine) (h : Hdr) : State :=
  let s := if h.pu then tokSet s (puCounter e) (tokGet s (puCounter e) - 1) else s
  if h.pd then tokSet s (pdCounter e) (tokGet s (pdCounter e) - 1) else s

/-! ### Outstanding operations -/

def RegWrite.reg : RegWrite → Reg
  | .a n _ => .a n
  | .v n _ => .v n
  | .p n _ => .p n

/-- Whether an operation writes a register. -/
def Op.writes (o : Op) (r : Reg) : Bool := o.ws.any fun w => w.reg == r

/-- An interlocked result of the register is outstanding (R22). -/
def regBusy (s : State) (e : Engine) (r : Reg) : Bool := s.ops.any fun o => o.eng == e && !o.fixed && o.writes r

/-- A fixed-latency result of the register is outstanding: a reader is in its shadow (R22, R24). -/
def regShadow (s : State) (e : Engine) (r : Reg) : Bool := s.ops.any fun o => o.eng == e && o.fixed && o.writes r

/-- Results to one register land in issue order (R23): no earlier than the last outstanding one. -/
def dueFor (s : State) (e : Engine) (ws : List RegWrite) (d : Nat) : Nat :=
  s.ops.foldl (fun d o => if o.eng == e && ws.any (fun w => o.writes w.reg) then max d o.due else d) d

/-- Starts an operation of the engine that completes `lat` cycles after this one. -/
def addOp (s : State) (e : Engine) (lat : Nat) (ws : List RegWrite) (fixed : Bool) (fx : Fx) (kind : OpKind) : State :=
  { s with
    ops := s.ops ++ [{ id := s.nextId, eng := e, pc := (s.eng e).pc, strand := s.ctx.strand,
                       due := dueFor s e ws (s.cycle + lat), ws := ws, fixed := fixed, fx := fx, kind := kind, held := none,
                       aborted := [] }]
    nextId := s.nextId + 1 }

/-- Starts an operation whose latency the spec leaves open. -/
def addVarOp (s : State) (e : Engine) (ws : List RegWrite) (kind : OpKind) : State :=
  let d := takeDelay s
  addOp d.2 e d.1 ws false {} kind

def findOp (s : State) (id : Nat) : Option Op := s.ops.find? fun o => o.id == id
def removeOp (s : State) (id : Nat) : State := { s with ops := s.ops.filter fun o => o.id != id }
def updateOp (s : State) (id : Nat) (f : Op → Op) : State :=
  { s with ops := s.ops.map fun o => if o.id == id then f o else o }

/-- Notes the address that a fault of the operation's access reports (R488) and the handles whose bytes it touches (R166). -/
def withAccess (s : State) (id : Nat) (a : BitVec 64) (touches : List Nat) : State :=
  updateOp s id fun o => { o with addr := a, touches := touches }

/-- Handles of the quad by core of the quad × 48 + handle, of a scratchpad range. -/
def rangeHandles (core off n : Nat) : List Nat :=
  if n = 0 then [] else (List.range ((off + n - 1) / 65536 - off / 65536 + 1)).map fun i => core % 4 * 48 + off / 65536 + i

/-- The operation tries again in the next cycle; `pkg` is the package without a route that it waits for (R482). -/
def retryOp (s : State) (id : Nat) (pkg : Option Nat) : State :=
  updateOp s id fun o => { o with
    due := s.cycle + 1
    route := match pkg, o.route with
      | some p, some r => if r.1 = p then some r else some (p, s.moot.time)
      | some p, none => some (p, s.moot.time)
      | none, _ => none }

/-- An operation of a strand that is saved while its handling strand runs: a completion that a full ring holds. It is set aside
until that strand is back (R307, R327, assumption 78). -/
def Op.aside (s : State) (o : Op) : Bool :=
  o.strand != s.ctx.strand && s.saved.any fun c => c.1.part == s.ctx.part && c.1.strand == o.strand

/-- Outstanding operations of an engine. -/
def outstanding (s : State) (e : Engine) : Bool := s.ops.any fun o => o.eng == e && !o.aside s

/-- One register result lands. -/
def landWrite (s : State) (e : Engine) : RegWrite → State
  | .a n x => putA s e (BitVec.ofNat 5 n) x
  | .v n x => { s with ctx := { s.ctx with vec := { s.ctx.vec with v := s.ctx.vec.v.setIfInBounds n x } } }
  | .p n x =>
    if n = 0 then s
    else { s with ctx := { s.ctx with vec := { s.ctx.vec with p := s.ctx.vec.p.setIfInBounds n x } } }

def landWrites (s : State) (e : Engine) (ws : List RegWrite) : State := ws.foldl (fun s w => landWrite s e w) s

/-! ### Walking the text (R59, R83, R84, R87) -/

/-- R83: the test at the boundary `p` against the top of the loop stack, repeated while entries end. -/
def passEnds : List LoopEntry → BitVec 64 → BitVec 64 × List LoopEntry
  | [], p => (p, [])
  | l :: r, p =>
    if p = l.stop then (if l.count - 1 = 0 then passEnds r p else (l.start, { l with count := l.count - 1 } :: r))
    else (p, l :: r)

/-- The passes of a modulo loop (R87). -/
def ModSeq.passes (m : ModSeq) : Nat := if m.trips = 0 then 0 else m.trips + m.sc - 1

/-- R87: whether stage `st` is live in the pass. -/
def ModSeq.live (m : ModSeq) (st : Nat) : Bool := decide (st < m.sc) && decide (st ≤ m.k) && decide (m.k - st < m.trips)

/-- The engine at the sequential boundary `p`, after `n` more words. While the body of a modulo loop is walked, ends of enclosing
loops are tested only where the sequencer leaves it (DESIGN CHOICE: assumption 70). -/
def Eng.toBoundary (x : Eng) (p : BitVec 64) (n : Nat) : Eng :=
  let x := { x with walk := x.walk + n }
  match x.seq with
  | none => let q := passEnds x.loops p; { x with pc := q.1, loops := q.2 }
  | some m =>
    if p = m.stop then
      if m.k + 1 = m.passes then
        let q := passEnds x.loops p
        { x with pc := q.1, loops := q.2, seq := none }
      else { x with pc := m.start, seq := some { m with k := m.k + 1, stage := 0, between := true, rrb := m.rrb - 1 } }
    else { x with pc := p }

/-- A taken branch or jump (R84): entries whose body does not hold the target are popped. -/
def Eng.jump (x : Eng) (target : BitVec 64) : Eng :=
  { x with pc := target, walk := x.walk + 1,
           loops := x.loops.dropWhile fun l => !(decide (l.start ≤ target) && decide (target < l.stop)) }

/-- The engine of a control word passes it. -/
def passWord (s : State) (e : Engine) : State := s.setEng e ((s.eng e).toBoundary ((s.eng e).pc + 4) 1)

/-- The engine of a private instruction passes both its words. -/
def passPair (s : State) (e : Engine) : State := s.setEng e ((s.eng e).toBoundary ((s.eng e).pc + 8) 2)

/-- The word an engine fetches at an address: shared text (R60), or Thresher instruction memory. -/
def fetchWord (s : State) (e : Engine) (pc : BitVec 64) : Option (BitVec 32) :=
  match e with
  | .thr => if pc.toNat + 4 ≤ 16384 then
      some (BitVec.ofNat 32 (leValue ((keyRange pc.toNat 4).map (memGet s.ctx.imem)))) else none
  | _ =>
    let t := s.ctx.text
    if decide (t.base ≤ pc) && (pc - t.base).toNat % 4 = 0 then t.words[(pc - t.base).toNat / 4]? else none

/-- The words of the instruction at an engine's boundary as OPERAND0 holds them (Table 1.13). -/
def instrOperand (s : State) (e : Engine) : BitVec 64 :=
  let w0 := (fetchWord s e (s.eng e).pc).getD 0
  if bitAt w0 31 then (((fetchWord s e ((s.eng e).pc + 4)).getD 0).setWidth 64) <<< 32 ||| w0.setWidth 64
  else w0.setWidth 64

/-! ### Taking an exception (R46 to R49) -/

/-- Every ring engine has passed the stop point of the strand that has ended (R425, R429). -/
def ringsStopped (s : State) : Bool :=
  s.ctx.text.words.isEmpty || ((s.eng .bte).atStop && (s.eng .mxe).atStop && (s.eng .vec).atStop)

/-- R48: of two faults detected in one cycle the record reports that of the engine with the lower tag. -/
def FaultInfo.before (s : State) (a : FaultInfo) (st : Stop) : Bool :=
  st.at_ == s.cycle && !st.recorded && decide ((if a.tag = 5 then 0 else a.tag.toNat) < (if st.info.tag = 5 then 0 else st.info.tag.toNat))

/-- A fault stops the strand: no engine issues past its boundary from here on, issued work runs on (`close` in Step),
and the record follows (FAULT_RECORD). A further fault of an operation during a stop sets MULTI and is held (R48), as is the
one of two faults of a cycle that the record does not report; a fault with no strand to stop is held for the next. -/
def strandStop (s : State) (info : FaultInfo) (afterTrap : Bool) : State :=
  match s.ctx.stop with
  | some st =>
    if info.before s st then
      { s with ctx := { s.ctx with
          heldFaults := if st.info.async then s.ctx.heldFaults ++ [st.info] else s.ctx.heldFaults
          stop := some { st with info := info, afterTrap := afterTrap, multi := st.multi || st.info.async } } }
    else
      { s with ctx := { s.ctx with
          heldFaults := s.ctx.heldFaults ++ [info]
          stop := some { st with multi := st.multi || !st.recorded } } }
  | none =>
    if (match s.ctx.status with
      | .running | .handler | .boundary => true
      | .idle => !ringsStopped s || s.ctx.thrrun
      | _ => false) then
      { s with ctx := { s.ctx with
          status := .stopped
          stop := some { info := info, at_ := s.cycle, multi := false, afterTrap := afterTrap, recorded := false,
                         toHost := false, was := s.ctx.status, resuming := false } } }
    else { s with ctx := { s.ctx with heldFaults := s.ctx.heldFaults ++ [info] } }

/-- The class operands that the machine fills in (Table 1.13): words for encoding, the Bell for scheduling, the
instruction address for data. -/
def trapInfo (s : State) (e : Engine) (t : Trap) : FaultInfo :=
  let base : FaultInfo :=
    { code := t.code, tag := t.tag.getD (BitVec.ofNat 3 e.tag), async := false, op0 := t.op0, op1 := t.op1 }
  match t.code with
  | .illegalOp | .illegalTag => { base with op0 := instrOperand s e, op1 := 0 }
  | .scoreboardUnderrun | .scheduleMiss => { base with op0 := s.bell }
  | .sqzDecode | .scaleStep | .format | .poison => { base with op1 := (s.eng e).pc }
  | _ => base

/-- A check of the instruction at the engine's boundary fails: it does not issue (R46 step 1). -/
def raise (s : State) (e : Engine) (t : Trap) : State := strandStop s (trapInfo s e t) (t.code = .trap)

/-- A fault of an operation after its issue (R47): ASYNC, and the address of its instruction in OPERAND1. -/
def raiseAsync (s : State) (e : Engine) (pc : BitVec 64) (code : Code) (op0 : BitVec 64) : State :=
  strandStop s { code := code, tag := BitVec.ofNat 3 e.tag, async := true, op0 := op0, op1 := pc } false

/-- A fault of shared text that the Steward reports (R63). -/
def stewardTrap (e : Engine) (c : Code) : Trap := { code := c, tag := if e = .thr then none else some 0 }

/-- Two waits are one stall: the same wait, or waits for tokens and pending pushes, whichever counter stands in the way
(R18). -/
def WaitKind.continues : WaitKind → WaitKind → Bool
  | .token _, .token _ | .token _, .push _ | .push _, .token _ | .push _, .push _ => true
  | a, b => a == b

/-- The object waited on is there: a token, or granules in the wanted state. -/
def WaitKind.over (s : State) : WaitKind → Bool
  | .token b => tokGet s (b / 4) ≠ 0
  | .granule _ _ gs want => granulesAre s gs want
  | _ => false

/-- The stall of an engine that waits in `x` and finds `k` (R18, R20): a wait that goes on counts from its first cycle. A granule
wait goes on beside that for a blocked push of an earlier instruction, as long as its granules are not right. -/
def stallWaits (s : State) (x : Eng) (k : WaitKind) : Option Wait × Option Wait :=
  let new : Wait := ⟨k, s.cycle, s.moot.time⟩
  let kept := x.feWait.filter fun w => !w.kind.over s
  match x.wait with
  | some w =>
    if k.continues w.kind then (some { w with kind := k }, kept)
    else match k, w.kind with
      | .push _, .granule _ _ _ _ => (some new, some w)
      | .granule _ _ _ _, _ => (some (match kept with
          | some g => if k.continues g.kind then g else new
          | none => new), none)
      | _, _ => (some new, kept)
  | none => (some new, none)

/-- The engine stalls; the wait counts from its first cycle (R18, R20). -/
def stall (s : State) (e : Engine) (k : WaitKind) : State :=
  let x := s.eng e
  let w := stallWaits s x k
  s.setEng e { x with wait := w.1, feWait := w.2 }

def clearWait (s : State) (e : Engine) : State :=
  s.setEng e { (s.eng e) with wait := none, feWait := none, prepared := false, begun := false }

/-- The end of a meaning at engine `e`. -/
def conclude (s : State) (e : Engine) : Res → Host.Outcome State Fault Refusal
  | .done t => .next (clearWait t e)
  | .wait t k => .next (stall t e k)
  | .trap t => .next (raise s e t)

/-! ### Resuming (R52, R188, R436) -/

def Eng.rested (x : Eng) : Eng := { x with wait := none, feWait := none, prepared := false }

/-- Every engine resumes at its recorded boundary; the Steward resumes past a TRAP. A held fault is delivered before
any engine issues (R48). A stamped instruction takes its stamp again, and a completion that a full ring holds is timed
anew. -/
def resumeStrand (s : State) : State :=
  match s.ctx.stop with
  | none => s
  | some st =>
    let g := s.ctx.eng
    let ctl := if st.afterTrap then g.ctl.toBoundary (g.ctl.pc + 8) 2 else g.ctl
    let again (o : Op) : Op := match o.kind with
      | .copy c => { o with kind := .copy { c with ringSince := none } }
      | _ => o
    let s := { s with mx := { s.mx with parked := none }, ops := s.ops.map again, ctx := { s.ctx with
      stop := none
      status := st.was
      eng := ⟨ctl.rested, g.bte.rested, g.mxe.rested, g.vec.rested, g.thr.rested⟩ } }
    match s.ctx.heldFaults with
    | [] => s
    | i :: r => strandStop { s with ctx := { s.ctx with heldFaults := r } } i false

/-! ### Issue (R11, R21 to R24, R74, R494) -/

/-- Interlocks and shadows of the registers an instruction reads. -/
def readHazard (s : State) (e : Engine) (rs : List Reg) : Option (WaitKind ⊕ Trap) :=
  if rs.any (regBusy s e) then some (.inl .other)
  else if s.ctx.schk then
    match rs.find? (regShadow s e) with
    | some r => some (.inr { code := .scoreboardUnderrun, op1 := BitVec.ofNat 64 (match r with
        | .a n => n
        | .v n => n
        | .p n => n) })
    | none => none
  else none

def isLocal (n : BitVec 5) : Bool := decide (16 ≤ n.toNat)
def isUniform (n : BitVec 5) : Bool := decide (1 ≤ n.toNat) && decide (n.toNat ≤ 15)

/-- R11 for a control-subset instruction in shared text: a uniform destination with a local source. -/
def uniformOk (e : Engine) (dst : Option (BitVec 5)) (srcs : List (BitVec 5)) : Bool :=
  e = .thr || !((match dst with
    | some d => isUniform d
    | none => false) && srcs.any isLocal)

/-- R11 and R75 for operands that must be uniform in shared text. -/
def allUniform (e : Engine) (srcs : List (BitVec 5)) : Bool := e = .thr || !(srcs.any isLocal)

/-- A control-subset result: available to the next instruction unless an earlier result of the register is still
outstanding (R23). -/
def ctlResult (s : State) (e : Engine) (n : BitVec 5) (v : BitVec 64) : State :=
  if n = 0 then s
  else if s.ops.any (fun o => o.eng == e && o.writes (.a n.toNat)) then addOp s e 0 [.a n.toNat v] false {} .result
  else putA s e n v

/-- The end of a control-subset meaning: it is about to issue only where its body lets it, and then the read of a register in a
shadow faults instead (R24). -/
def concludeRead (s : State) (e : Engine) (shadow : Option Trap) : Res → Host.Outcome State Fault Refusal
  | .done t => (match shadow with
    | some u => .next (raise s e u)
    | none => conclude s e (.done t))
  | r => conclude s e r

/-- A control-subset instruction: `legal` are its ILLEGAL_OP conditions, `srcs` the registers it reads. -/
def issueControl (s : State) (legal : Bool) (srcs : List (BitVec 5)) (body : Engine → Res) :
    Host.Outcome State Fault Refusal :=
  let e := s.cur
  if !legal then .next (raise s e (stewardTrap e .illegalOp))
  else match readHazard s e (srcs.map fun r => .a r.toNat) with
    | some (.inl k) => .next (stall s e k)
    | some (.inr t) => concludeRead s e (some t) (body e)
    | none => conclude s e (body e)

/-- A control-subset instruction that writes one register and passes on. -/
def controlWrite (s : State) (legal : Bool) (dst : BitVec 5) (srcs : List (BitVec 5)) (value : Engine → BitVec 64) :
    Host.Outcome State Fault Refusal :=
  issueControl s (legal && uniformOk s.cur (some dst) srcs) srcs fun e =>
    .done (passWord (ctlResult s e dst (value e)) e)

/-- R16: what an instruction pushes waits for it and for every earlier operation of its engine. -/
def queuePush (s : State) (e : Engine) (qu qd : Bool) (ct first : Nat) : State :=
  if qu || qd || ct ≠ 0 then
    let x := s.eng e
    s.setEng e { x with pushes := x.pushes ++ [⟨qu, qd, ct, first, s.nextId⟩] }
  else s

/-- R21: the holds after an issue in this cycle. -/
def holdAfter (s : State) (e : Engine) (h : Hdr) : State :=
  let x := s.eng e
  s.setEng e { x with
    holdUntil := if h.stall = 7#3 then x.holdUntil else max x.holdUntil (s.cycle + 1 + h.stall.toNat)
    drain := h.stall = 7#3
    drainTo := if h.stall = 7#3 then s.nextId else x.drainTo
    paceUntil := s.cycle + (s.ctx.pace.getD e.tag 0).toNat + s.ctx.paceExtra.toNat }

/-- The issue cycle: tokens are popped, pushes queued, holds set, and both words passed. -/
def issued (s0 s : State) (e : Engine) (h : Hdr) : State :=
  holdAfter (queuePush (passPair (popTokens s e h) e) e h.qu h.qd 0 s0.nextId) e h

/-- A private instruction, in the order of R494: the encoding faults `legal`, the waits for tokens and `need`, the
interlocks of the registers it reads, then the checks, full/empty waits and effect of `body`. SCOREBOARD_UNDERRUN comes where the
instruction would otherwise issue (R24). -/
def issuePrivate (s : State) (e : Engine) (h : Hdr) (tag : Option (BitVec 3)) (legal : Bool) (reads : List Reg)
    (need : State → Option WaitKind) (body : State → Res) : Host.Outcome State Fault Refusal :=
  if !legal then .next (raise s e { code := .illegalOp, tag := tag })
  else match popWait s e h with
    | some k => .next (stall s e k)
    | none =>
      match need s with
      | some k => .next (stall s e k)
      | none =>
        match readHazard s e reads with
        | some (.inl k) => .next (stall s e k)
        | some (.inr u) => privateEnd s e h tag (some u) (body s)
        | none => privateEnd s e h tag none (body s)
where
  /-- The end of a private meaning; `shadow` is the fault of a register read in a shadow. -/
  privateEnd (s : State) (e : Engine) (h : Hdr) (tag : Option (BitVec 3)) (shadow : Option Trap) :
      Res → Host.Outcome State Fault Refusal
    | .done t => (match shadow with
      | some u => .next (raise s e u)
      | none => .next (clearWait (issued s t e h) e))
    | .wait t k => .next (stall t e k)
    | .trap t => .next (raise s e (if tag.isSome then { t with tag := tag } else t))

/-- No wait before issue beyond tokens. -/
def noNeed : State → Option WaitKind := fun _ => none

def ra (n : BitVec 5) : Reg := .a n.toNat

/-! ### Pushes (R16, R17) -/

/-- The head push of an engine is due: no operation that it waits for is outstanding. -/
def pushDue (s : State) (e : Engine) : Option Push :=
  match (s.eng e).pushes with
  | [] => none
  | p :: _ => if s.ops.any (fun o => o.eng == e && decide (o.id < p.upto) && !o.aside s) then none else some p

/-- The counter that keeps a push waiting, if any (R17, R185): what it pushes must fit below 16. -/
def pushFull (s : State) (e : Engine) (p : Push) : Option Nat :=
  if p.qu && tokGet s (quCounter e) = 15 then some (4 * quCounter e)
  else if p.qd && tokGet s (qdCounter e) = 15 then some (4 * qdCounter e)
  else if p.ct ≠ 0 && tokGet s 8 + p.ct > 15 then some 32
  else none

/-- Makes the head push, on all its counters in one step. -/
def makePush (s : State) (e : Engine) (p : Push) : State :=
  let s := if p.qu then tokSet s (quCounter e) (tokGet s (quCounter e) + 1) else s
  let s := if p.qd then tokSet s (qdCounter e) (tokGet s (qdCounter e) + 1) else s
  let s := if p.ct ≠ 0 then tokSet s 8 (tokGet s 8 + p.ct) else s
  s.setEng e { (s.eng e) with pushes := (s.eng e).pushes.tail }

/-- R17: an operation that ends early drops its pushes. -/
def dropPush (s : State) (e : Engine) (id : Nat) : State :=
  let x := s.eng e
  s.setEng e { x with pushes := x.pushes.filter fun p => !(decide (p.first ≤ id) && decide (id < p.upto)) }

/-! ### Places of an access -/

/-- Where the bytes of an access are: scratchpad or Commons keys, or translated global bytes, each with whether its line is
memory-side (R58). -/
inductive Place where
  | local (keys : List Nat)
  | global (ls : List (Nat × Bool))
deriving DecidableEq, Repr

/-- A place, a wait (a held miss or a missing route), or a fault. -/
inductive PlaceRes where
  | ok (p : Place)
  | wait (k : WaitKind)
  | trap (t : Trap)
deriving DecidableEq, Repr

/-- The other package that a key belongs to. -/
def remotePkg (s : State) (key : Nat) : Option Nat :=
  if key < 2 ^ 60 then
    match paClass s.pkgNo key with
    | .pod p => some p
    | _ => none
  else if key < 2 ^ 61 then none
  else if (key - 2 ^ 61) / 2 ^ 29 = s.pkgNo.toNat then none else some ((key - 2 ^ 61) / 2 ^ 29)

/-- A package that the group has declared silent, or whose route has timed out (R462, R482). -/
def silentPkg (s : State) (p : Nat) : Bool :=
  (s.moot.members.any fun m => m.pkg.toNat == p && !m.live) || s.moot.lost.any fun q => q.toNat == p

/-- OPERAND0 of a PEER_SILENT record (R462). -/
def silentOperand (s : State) (p : Nat) : BitVec 64 :=
  let slot := match s.moot.members.find? fun m => m.pkg.toNat == p && !m.left with
    | some m => m.slot.toNat
    | none => 255
  BitVec.ofNat 64 (p + slot * 65536)

/-- The UP ports of a die's route to a package (R482). -/
def routePorts (s : State) (p : Nat) : List Nat :=
  let r := getAssoc s.routes (s.coreNo.toNat / 32 * 1024 + p) 0
  if bitAt r 63 then (List.range 24).filter fun i => bitAt r i && (s.ports.getD i Port.reset).state = 2#4 else []

/-- A route to a package exists now. -/
def routeUp (s : State) (p : Nat) : Bool := !(routePorts s p).isEmpty

/-- The port that traffic for a key of a package takes: of index bits 17:12 of the address among those that are UP (R482). -/
def portFor (s : State) (p key : Nat) : Option Nat :=
  let l := routePorts s p
  l[key / 4096 % 64 % l.length]?

/-- Whether another package can be reached now (R462, R482). -/
def remoteCheck (s : State) (keys : List Nat) : Option (WaitKind ⊕ Trap) :=
  let pkgs := keys.filterMap (remotePkg s)
  match pkgs.filter (silentPkg s) with
  | p :: ps => some (.inr { code := .peerSilent, op0 := silentOperand s (ps.foldl min p) })
  | [] =>
    match pkgs.find? fun p => !routeUp s p with
    | some p => some (.inl (.route p))
    | none => none

/-- The package of a missing route. -/
def WaitKind.pkg : WaitKind → Option Nat
  | .route p => some p
  | _ => none

/-- The place of `n` bytes at address `a` of a record, after `rangeCheck`. -/
def placeOf (s : State) (r : Rec) (a n : Nat) (acc : Acc) : PlaceRes :=
  if r.space = 0 then
    match translateBytes s s.ctx.part acc.writes (keyRange a n) with
    | .perm b => .trap (accTrap .permission r (b : Int) acc)
    | .miss v => .wait (.miss s.ctx.part v (r.faultAddr ((max a (v * 4096) : Nat) : Int)) acc.code)
    | .ok ls =>
      match remoteCheck s (ls.map (·.1)) with
      | some (.inl k) => .wait k
      | some (.inr t) => .trap t
      | none => .ok (.global ls)
  else
    let keys := (List.range n).map fun i => r.key s (a + i)
    match remoteCheck s keys with
    | some (.inl k) => .wait k
    | some (.inr t) => .trap t
    | none => .ok (.local keys)

def Place.keys : Place → List Nat
  | .local ks => ks
  | .global ls => ls.map (·.1)

/-- A byte of global memory as the core reads it at a point: through its caches unless its line is memory-side. -/
def globalByte (s : State) (point : Nat) (l : Nat × Bool) : Byte := if l.2 then homeByte s l.1 else byteAt s point l.1

/-- The bytes of a place as an access at a point of Table 4.4 reads them. -/
def readPlace (s : State) (point : Nat) : Place → List Byte
  | .local ks => rawRead s ks
  | .global ls => ls.map (globalByte s point)

/-- The bytes of a list of global bytes that an access at a point reads at their home. -/
def homeReads (s : State) (point : Nat) (ls : List (Nat × Bool)) : List Nat :=
  (ls.filter fun l => l.2 || (heldAt s point l.1).isNone).map (·.1)

/-- A read of global bytes by the Steward or the vector engine, about to be made: raw accesses to format regions write back dirty
alias lines first, a tag mismatch or an uncorrectable word makes the data bad (R400, R402, R492), and the read leaves its lines in
the caches as its policy says (R97). -/
def prepareRead (s : State) (cache : BitVec 3) (point : Nat) (ls : List (Nat × Bool)) : State × Bool :=
  let homes := homeReads s point ls
  let s := homePrep s homes
  let n := noteAliasRead s cache homes
  let bad := n.2 || poisoned n.1 homes
  (fetchLines n.1 cache point ((ls.filter fun l => !l.2).map (·.1)), bad)

/-- A read of a place is ready. -/
def readState (s : State) (cache : BitVec 3) (point : Nat) : Place → State × Bool
  | .local ks => (s, poisoned s ks)
  | .global ls => prepareRead s cache point ls

/-- A plain store of the core to global bytes, by the record's cache policy (R97). -/
def storeGlobal (s : State) (cache : BitVec 3) (l : List ((Nat × Bool) × Byte)) : State :=
  let plain := (l.filter fun c => !c.1.2).map fun c => (c.1.1, c.2)
  let side := (l.filter (·.1.2)).map fun c => (c.1.1, c.2)
  let s := if plain.isEmpty then s else cachedWrite s cache plain
  if side.isEmpty then s else homeWriteVia s cache side

/-- A plain store of the core to a place. -/
def writePlace (s : State) (cache : BitVec 3) (p : Place) (bs : List Byte) : State :=
  match p with
  | .local ks => rawWrite s (ks.zip bs)
  | .global ls => storeGlobal s cache (ls.zip bs)

/-- An armed barrier line (R389, R394): binit alone arms a line, so data that happen to hold a 1 at ARMED's place are no
object. -/
def armedLine (s : State) (key : Nat) : Bool := s.armed.contains (key / 64 * 64)

end Sys2Proof.Machine
end

