-- ==== Sys2Proof/Machine/Checks.lean ====
section
/-! DEFINITION. The ILLEGAL_OP conditions that an instruction's words alone decide, beyond the zero fields that the
decoder rejects (R494 step 1). -/
namespace Sys2Proof.Machine

/-- R12: a destination field of a private instruction does not name A1 to A15. -/
def destOk (ad : BitVec 5) : Bool := !(isUniform ad)

/-- R170 for SCOPE, ORD and SD. -/
def memOrdOk (scope : BitVec 3) (ord : BitVec 2) (sd : BitVec 1) : Bool :=
  decide (scope.toNat < 6) && !(ord == 0 && (scope != 0 || sd == 1)) && !(sd == 1 && scope != 0)

/-- System registers that an owning chapter defines (Table 4.1, R154). -/
def sysregDefined (reg : BitVec 12) : Bool :=
  let n := reg.toNat
  n == 0x000 || (decide (0x010 ≤ n) && decide (n ≤ 0x015)) || n == 0x020 ||
  (decide (0x030 ≤ n) && decide (n ≤ 0x033)) || (decide (0x040 ≤ n) && decide (n ≤ 0x045)) || (decide (0x050 ≤ n) && decide (n ≤ 0x053)) ||
  (decide (0x060 ≤ n) && decide (n ≤ 0x06B)) || (decide (0x070 ≤ n) && decide (n ≤ 0x079)) ||
  (decide (0x080 ≤ n) && decide (n ≤ 0x084)) ||
  (decide (0x090 ≤ n) && decide (n ≤ 0x098)) || n == 0x0A0 || n == 0x0A1

/-! ### Vector element types (Table 5.1) -/

/-- A TYPE from 0x13 up is reserved (R192). -/
def tyOk (ty : BitVec 5) : Bool := decide (ty.toNat < 0x13)

/-- Lane width of a TYPE. -/
def vtWidth (ty : BitVec 5) : Nat :=
  match ty.toNat with
  | 2 | 3 | 9 | 10 => 16
  | 4 | 5 | 8 => 32
  | 6 | 7 => 64
  | 15 | 16 | 18 => 4
  | _ => 8

/-- Elements of a register of a TYPE. -/
def vtCount (ty : BitVec 5) : Nat := 4096 / vtWidth ty

/-- Integer types of 8 to 64 bits. -/
def vtInt (ty : BitVec 5) : Bool := decide (ty.toNat < 8)
/-- Integer types, INT4 included. -/
def vtAnyInt (ty : BitVec 5) : Bool := vtInt ty || ty == 16
def vtSigned (ty : BitVec 5) : Bool := ty == 0 || ty == 2 || ty == 4 || ty == 6 || ty == 16
/-- f32, bf16 and f16. -/
def vtFloat (ty : BitVec 5) : Bool := ty == 8 || ty == 9 || ty == 10
/-- Narrow floating types. -/
def vtNarrow (ty : BitVec 5) : Bool := decide (11 ≤ ty.toNat) && decide (ty.toNat ≤ 15)
def vtCb (ty : BitVec 5) : Bool := ty == 17 || ty == 18

/-- Registers of 32-bit indices that vldg and vsts read (R221). -/
def idxRegs (ty : BitVec 5) : Nat := ceilDiv (vtCount ty) 128

/-- Ratio of the widths of two types (R212). -/
def cvtRatio (s d : BitVec 5) : Nat := max (vtWidth s) (vtWidth d) / min (vtWidth s) (vtWidth d)

/-- R199 and R212: rounding mode, codebook number and .sat of a vcvt. -/
def cvtOk (s d : BitVec 5) (rm aux : BitVec 3) : Bool :=
  let rounds := vtFloat d || vtNarrow d || ((vtFloat s || vtNarrow s) && vtAnyInt d)
  (rm == 0 || (rounds && decide (rm.toNat < 6))) && ((vtCb s || vtCb d) || aux.toNat % 4 == 0) &&
  (d == 12 || !bitAt aux 2) && decide (cvtRatio s d ≤ 4)

/-- R194: the wider side of a vcvt of ratio 2 or 4 is a register group. -/
def cvtGroups (s d : BitVec 5) (vd va : BitVec 6) : Bool :=
  if vtWidth s < vtWidth d then vd.toNat % cvtRatio s d == 0
  else if vtWidth d < vtWidth s then va.toNat % cvtRatio s d == 0 else true


/-- R67 and R359: Thresher headers pop and push only TK.CT and TK.TC, and carry no STALL. -/
def thrHeader (h : Hdr) : Bool := !h.pd && !h.qu && h.stall == 0

/-- The encoding of an instruction is legal; `inThr` in Thresher text. R194 is read to hold for the pair that vunzip writes, which
R216 names by vd alone: an odd vd is illegal (DEDUCED: assumption 84). -/
def encodingOk (i : Instr) (inThr : Bool) : Bool :=
  match i with
  | .add _ _ _ => true
  | .sub _ _ _ => true
  | .and _ _ _ => true
  | .or _ _ _ => true
  | .xor _ _ _ => true
  | .sll _ _ _ => true
  | .srl _ _ _ => true
  | .sra _ _ _ => true
  | .slt _ _ _ => true
  | .sltu _ _ _ => true
  | .mul _ _ _ => true
  | .mulh _ _ _ => true
  | .min _ _ _ => true
  | .max _ _ _ => true
  | .addi _ _ _ => true
  | .andi _ _ _ => true
  | .ori _ _ _ => true
  | .xori _ _ _ => true
  | .slti _ _ _ => true
  | .slli _ _ _ => true
  | .srli _ _ _ => true
  | .srai _ _ _ => true
  | .lui _ _ => true
  | .lhi _ _ => true
  | .auipc _ _ => true
  | .bEq _ _ _ => true
  | .bNe _ _ _ => true
  | .bLt _ _ _ => true
  | .bGe _ _ _ => true
  | .bLtu _ _ _ => true
  | .bGeu _ _ _ => true
  | .j _ => true
  | .jal _ => true
  | .jr _ _ => true
  | .loop aa len cnt => len != 0 && (aa == 0 || cnt == 0)
  | .loopm _ len _ sc => len != 0 && decide (sc.toNat < 8)
  | .loopmPass _ => true
  | .bfclr _ => true
  | .bfset _ field _ _ => decide (field.toNat ≤ 10)
  | .bfadd _ field _ _ => decide (field.toNat ≤ 10)
  | .bfget _ field _ => decide (field.toNat ≤ 10)
  | .bfmov _ _ => true
  | .twait mask sel n => n != 0 && sel != 3 && (if inThr then mask == 0 && sel == 2 else mask != 0 && (sel != 2 || mask == 1))
  | .slipw _ _ => !inThr
  | .ld _ fe sd scope ord zext size ad _ _ _ => memOrdOk scope ord sd && fe != 3 && decide (ord.toNat < 2) && !(zext == 1 && size == 3) && destOk ad
  | .st _ fe sd scope ord zext _ _ _ _ _ => memOrdOk scope ord sd && fe != 3 && (ord == 0 || ord == 2) && zext == 0
  | .ldf _ ad _ _ _ => destOk ad
  | .stf _ _ _ _ _ _ => true
  | .atom _ fe sd scope ord zext size ad _ _ _ op _ => memOrdOk scope ord sd && fe == 0 && zext == 0 && decide (2 ≤ size.toNat) && decide (op.toNat < 10) && destOk ad
  | .fence _ scope ord => decide (scope.toNat < 6) && ord != 0
  | .bara _ scope _ _ _ _ => decide (scope.toNat < 5)
  | .barw _ scope _ _ _ => decide (scope.toNat < 5)
  | .bars _ scope _ _ _ _ => decide (scope.toNat < 5)
  | .hgive _ _ _ _ => true
  | .htake _ ad _ _ => destOk ad
  | .hqry _ ad _ _ => destOk ad
  | .abc _ ad _ => isUniform ad
  | .abcReceive _ => true
  | .foot _ eng _ _ => decide (eng.toNat ≤ 4)
  | .csrr _ reg ad => destOk ad && sysregDefined reg
  | .csrw _ reg _ => sysregDefined reg
  | .bellr _ ad => destOk ad
  | .ttok _ n => n != 0
  | .tstart _ _ _ _ => true
  | .trap _ _ => true
  | .eret _ => true
  | .taskend _ _ => true
  | .qres _ ad _ _ => isLocal ad
  | .qtail _ _ _ => true
  | .qhead _ ad _ => isLocal ad
  | .ditem _ ad _ => isLocal ad
  | .dpush _ _ _ => true
  | .gclkr _ ad => isLocal ad
  | .bellw _ _ _ => true
  | .vadd _ ty rm _ _ _ _ _ => tyOk ty && (rm == 0 || (vtFloat ty && decide (rm.toNat < 6)))
  | .vsub _ ty rm _ _ _ _ _ => tyOk ty && (rm == 0 || (vtFloat ty && decide (rm.toNat < 6)))
  | .vmul _ ty rm _ _ _ _ _ => tyOk ty && (rm == 0 || (vtFloat ty && decide (rm.toNat < 6)))
  | .vmin _ ty _ _ _ _ _ => tyOk ty
  | .vmax _ ty _ _ _ _ _ => tyOk ty
  | .vmulh _ ty _ _ _ _ _ => tyOk ty
  | .vadds _ ty _ _ _ _ _ => tyOk ty
  | .vsubs _ ty _ _ _ _ _ => tyOk ty
  | .vfma _ ty rm _ _ _ _ _ _ => tyOk ty && (rm == 0 || (vtFloat ty && decide (rm.toNat < 6)))
  | .vfms _ ty rm _ _ _ _ _ _ => tyOk ty && (rm == 0 || (vtFloat ty && decide (rm.toNat < 6)))
  | .vfnma _ ty rm _ _ _ _ _ _ => tyOk ty && (rm == 0 || (vtFloat ty && decide (rm.toNat < 6)))
  | .vabs _ ty _ _ _ _ => tyOk ty
  | .vneg _ ty _ _ _ _ => tyOk ty
  | .vand _ ty _ _ _ _ _ => tyOk ty
  | .vor _ ty _ _ _ _ _ => tyOk ty
  | .vxor _ ty _ _ _ _ _ => tyOk ty
  | .vnot _ ty _ _ _ _ => tyOk ty
  | .vsll _ ty _ _ _ _ _ => tyOk ty
  | .vsrl _ ty _ _ _ _ _ => tyOk ty
  | .vsra _ ty _ _ _ _ _ => tyOk ty
  | .vcmp _ ty _ cond _ _ _ _ => tyOk ty && cond != 7 && !(cond == 6 && vtAnyInt ty)
  | .vsel _ ty _ _ _ _ => tyOk ty
  | .pand _ _ _ _ => true
  | .por _ _ _ _ => true
  | .pxor _ _ _ _ => true
  | .pnot _ _ _ => true
  | .pcnt _ ty ad _ => tyOk ty && isLocal ad
  | .vcvt _ ty rm _ aux vd va dty _ => tyOk ty && tyOk dty && cvtOk ty dty rm aux && cvtGroups ty dty vd va
  | .vred _ ty rm op _ _ _ seg => tyOk ty && op != 7 && (rm == 0 || (op == 0 && vtFloat ty && decide (rm.toNat < 6))) && decide (seg.toNat ≤ 10) && (seg == 0 || decide (2 ^ seg.toNat ≤ vtCount ty))
  | .vperm _ ty _ aux _ _ _ _ => tyOk ty && decide (aux.toNat < 2) && (aux == 0 || vtWidth ty == 8) && vtWidth ty != 4
  | .vdup _ ty _ _ _ _ => tyOk ty
  | .vzip _ ty vd _ _ => tyOk ty && vd.toNat % 2 == 0
  | .vunzip _ ty vd va => tyOk ty && va.toNat % 2 == 0 && vd.toNat % 2 == 0
  | .vgetx _ ty ad _ _ => tyOk ty && isLocal ad
  | .vld _ ty _ fe _ _ _ _ _ => tyOk ty && fe != 3
  | .vst _ ty fe _ _ _ _ _ => tyOk ty && fe != 3
  | .vldg _ ty _ _ _ _ _ vi => tyOk ty && vi.toNat % idxRegs ty == 0
  | .vsts _ ty _ _ _ _ vi => tyOk ty && vi.toNat % idxRegs ty == 0
  | .vqld _ ty rm _ _ _ _ _ _ => tyOk ty && decide (rm.toNat < 6)
  | .vqst _ ty imp _ _ _ _ _ _ vb => tyOk ty && (imp = 1 || vb = 0)
  | .vrcp _ ty _ _ _ _ => tyOk ty
  | .vrsqrt _ ty _ _ _ _ => tyOk ty
  | .vsqrt _ ty _ _ _ _ => tyOk ty
  | .vexp2 _ ty _ _ _ _ => tyOk ty
  | .vlog2 _ ty _ _ _ _ => tyOk ty
  | .vsinpi _ ty _ _ _ _ => tyOk ty
  | .vcospi _ ty _ _ _ _ => tyOk ty
  | .vtanh _ ty _ _ _ _ => tyOk ty
  | .vsigm _ ty _ _ _ _ => tyOk ty
  | .vgelu _ ty _ _ _ _ => tyOk ty
  | .vsilu _ ty _ _ _ _ => tyOk ty
  | .verf _ ty _ _ _ _ => tyOk ty
  | .mload _ _ fe _ pfmt _ _ _ _ _ => fe != 3 && decide (pfmt.toNat < 5)
  | .mloadFillComplete _ => true
  | .mflip _ _ => true
  | .mflipTakesEffect _ => true
  | .mdrop _ => true
  | .mstream _ _ fe _ _ pfmt _ _ _ _ _ _ _ => fe != 3 && decide (pfmt.toNat < 5)
  | .mstreamComplete _ => true
  | .mzero _ _ => true
  | .mwin _ _ _ => true
  | .mcopy _ _ _ => true
  | .madd _ _ _ => true
  | .mgetz _ _ _ _ ad _ => isLocal ad
  | .mdrain _ _ _ grad _ rm bf _ _ _ _ => decide (rm.toNat < 5) && !(grad = 1 && bf = 15)
  | .tileSignatureFormed _ => true
  | .msigr _ ad ab => (ad == 0 || isLocal ad) && (ab == 0 || isLocal ab)
  | .msync _ => true
  | .mcb _ fe _ _ _ _ => fe != 3
  | .mstat _ _ ad => isLocal ad
  | .mpert _ _ _ _ => true
  | .mpoff _ => true
  | .mpstep _ _ _ => true
  | .mpref _ fe _ _ _ _ _ => fe != 3
  | .mpsamp _ _ _ ad _ => isLocal ad
  | .rstat _ sel ad => isLocal ad && decide (sel.toNat < 10)
  | .rchk _ _ => true
  | .rmode _ _ => true
  | .rinj _ _ _ _ => true
  | .bcopy _ _ _ fe _ _ _ _ _ => fe != 3
  | .bcopyS _ _ _ fe _ _ _ _ _ ag => fe != 3 && decide (1 ≤ ag.toNat) && decide (ag.toNat ≤ 30)
  | .bfill _ _ _ _ _ _ _ => true
  | .bdedup _ _ _ _ _ _ _ => true
  | .bcow _ _ _ _ _ _ _ _ => true
  | .bcmp _ _ _ _ _ _ _ => true
  | .bwait _ ac ring _ _ => (ring == 0 || ac == 0)
  | .bacnt _ _ ad => isLocal ad
  | .bsync _ => true
  | .copyCompletion _ => true
  | .tcvt h rm fe _ _ _ _ _ _ _ => thrHeader h && fe != 3 && decide (rm.toNat < 5)
  | .tcvti h fe _ _ _ _ _ _ _ _ => thrHeader h && fe != 3
  | .tamax h fe _ _ _ _ _ _ _ => thrHeader h && fe != 3
  | .tsqze h fe _ _ _ _ _ _ => thrHeader h && fe != 3
  | .tsqzd h fe _ _ _ _ _ _ => thrHeader h && fe != 3
  | .ttr h fe _ _ _ _ _ _ => thrHeader h && fe != 3
  | .tbara h _ _ => thrHeader h
  | .tbarw h _ => thrHeader h
  | .tbars h _ _ => thrHeader h
  | .tld h _ _ _ _ => thrHeader h
  | .tst h _ _ _ _ => thrHeader h
  | .trd h reg _ => thrHeader h && decide (0x080 ≤ reg.toNat) && decide (reg.toNat ≤ 0x084)
  | .twr h reg _ => thrHeader h && decide (0x080 ≤ reg.toNat) && decide (reg.toNat ≤ 0x084)
  | .tsync h => thrHeader h
  | .cadd _ rm _ _ _ _ _ => decide (rm.toNat < 4)
  | .cmin _ _ _ _ _ _ => true
  | .cmax _ _ _ _ _ _ => true
  | .caxpy _ rm _ _ _ _ _ _ => decide (rm.toNat < 4)
  | .cscal _ rm _ _ _ _ => decide (rm.toNat < 4)
  | .binit _ scope ad _ _ _ => decide (scope.toNat < 5) && isLocal ad
  | .cbar _ ad _ _ _ => isLocal ad
  | .cbwait _ ad _ _ _ => isLocal ad
  | .barrierLinePoison _ => true
  | .atomicRequest _ => true
  | .registerResultLanding _ => true
  | .loadDataReturn _ => true
  | .pendingPush _ => true
  | .tokenTimeout _ => true
  | .feTimeout _ => true
  | .translationResolve _ _ => true
  | .translationAbort _ _ => true
  | .pageWalk _ _ => true
  | .tlbiAll _ _ => true
  | .tlbiPages _ _ _ _ => true
  | .aliasWriteback _ => true
  | .frEnable _ _ _ => true
  | .frDisable _ _ => true
  | .channelMigration _ _ _ => true
  | .slipwWrite _ => true
  | .cringHeadWrite _ => true
  | .reeveModeWrite _ => true
  | .wqEnable _ _ => true
  | .wqDisable _ _ => true
  | .wqTailWrite _ _ => true
  | .hostFetchadd _ _ _ => true
  | .stage0ItemGenerate _ => true
  | .instanceEnd _ => true
  | .pipelineStall _ => true
  | .partitionEnable _ => true
  | .partitionDisable _ => true
  | .resume _ _ => true
  | .abort _ _ => true
  | .run _ _ => true
  | .halt _ => true
  | .planeDiffBroadcast _ => true
  | .shadowPlaneLoad _ _ => true
  | .crier _ => true
  | .limitLower _ _ _ => true
  | .unannouncedClamp _ _ => true
  | .heartbeat _ => true
  | .round _ => true
  | .rparam _ => true
  | .peerSilenceTimeout _ => true
  | .silent _ => true
  | .join _ => true
  | .leave _ => true
  | .mootJoinCommand _ => true
  | .quotaExhausted _ => true
  | .rpcapWrite _ _ _ => true
  | .sensFailClear _ _ => true
  | .flitReceive _ _ => true
  | .linkDown _ => true
  | .routeWaitTimeout _ => true
  | .hostBarAccess _ => true
  | .hostCompletion _ _ => true
  | .startupStage _ _ => true
  | .controlPathError _ => true
  | .registerWrite _ _ => true
  | .linkUp _ _ => true
  | .reservedEncoding _ _ => true
  | .writeBackAcknowledged _ => true
  | .sensorFail _ _ => true
  | .restore _ _ => true
  | .pkgnum _ => true
  | .laneSpare _ _ => true
  | .replayTimeout _ => true
  | .linkOff _ => true
  | .stampedIssue => true
  | .poundCommit => true
  | .reeveMismatch => true
  | .reeveSampledCheck => true
  | .reeveForcedCheck => true
  | .transformCompletion => true
  | .faultRecord => true
  | .invalidationComplete => true
  | .strandLaunch => true
  | .sliceExpiry => true
  | .contextSwap => true
  | .planeDiffApply => true
  | .swapToken => true
  | .planeSwap => true
  | .ceilingEffective => true
  | .heartbeatSend => true
  | .roundSend => true
  | .roundTick => true
  | .roundMiss => true
  | .mootLeaveCommand => true
  | .quiesce => true
  | .reset => true
  | .powerOnReset => true
  | .powerFault => true
  | .bellTargetReached => true
  | .stage => true
  | .phase => !inThr
  | .nop => true
  | .endText => true

/-- R67 alone, for instructions that a modulo loop squashes (R88). -/
def squashOk (i : Instr) : Bool :=
  match i with
  | .add _ _ _ => true
  | .sub _ _ _ => true
  | .and _ _ _ => true
  | .or _ _ _ => true
  | .xor _ _ _ => true
  | .sll _ _ _ => true
  | .srl _ _ _ => true
  | .sra _ _ _ => true
  | .slt _ _ _ => true
  | .sltu _ _ _ => true
  | .mul _ _ _ => true
  | .mulh _ _ _ => true
  | .min _ _ _ => true
  | .max _ _ _ => true
  | .addi _ _ _ => true
  | .andi _ _ _ => true
  | .ori _ _ _ => true
  | .xori _ _ _ => true
  | .slti _ _ _ => true
  | .slli _ _ _ => true
  | .srli _ _ _ => true
  | .srai _ _ _ => true
  | .lui _ _ => true
  | .lhi _ _ => true
  | .auipc _ _ => true
  | .bEq _ _ _ => true
  | .bNe _ _ _ => true
  | .bLt _ _ _ => true
  | .bGe _ _ _ => true
  | .bLtu _ _ _ => true
  | .bGeu _ _ _ => true
  | .j _ => true
  | .jal _ => true
  | .jr _ _ => true
  | .loop _ _ _ => true
  | .loopm _ _ _ _ => true
  | .loopmPass _ => true
  | .bfclr _ => true
  | .bfset _ _ _ _ => true
  | .bfadd _ _ _ _ => true
  | .bfget _ _ _ => true
  | .bfmov _ _ => true
  | .twait _ _ _ => true
  | .slipw _ _ => true
  | .ld _ _ _ _ _ _ _ _ _ _ _ => true
  | .st _ _ _ _ _ _ _ _ _ _ _ => true
  | .ldf _ _ _ _ _ => true
  | .stf _ _ _ _ _ _ => true
  | .atom _ _ _ _ _ _ _ _ _ _ _ _ _ => true
  | .fence _ _ _ => true
  | .bara _ _ _ _ _ _ => true
  | .barw _ _ _ _ _ => true
  | .bars _ _ _ _ _ _ => true
  | .hgive _ _ _ _ => true
  | .htake _ _ _ _ => true
  | .hqry _ _ _ _ => true
  | .abc _ _ _ => true
  | .abcReceive _ => true
  | .foot _ _ _ _ => true
  | .csrr _ _ _ => true
  | .csrw _ _ _ => true
  | .bellr _ _ => true
  | .ttok _ _ => true
  | .tstart _ _ _ _ => true
  | .trap _ _ => true
  | .eret _ => true
  | .taskend _ _ => true
  | .qres _ _ _ _ => true
  | .qtail _ _ _ => true
  | .qhead _ _ _ => true
  | .ditem _ _ _ => true
  | .dpush _ _ _ => true
  | .gclkr _ _ => true
  | .bellw _ _ _ => true
  | .vadd _ _ _ _ _ _ _ _ => true
  | .vsub _ _ _ _ _ _ _ _ => true
  | .vmul _ _ _ _ _ _ _ _ => true
  | .vmin _ _ _ _ _ _ _ => true
  | .vmax _ _ _ _ _ _ _ => true
  | .vmulh _ _ _ _ _ _ _ => true
  | .vadds _ _ _ _ _ _ _ => true
  | .vsubs _ _ _ _ _ _ _ => true
  | .vfma _ _ _ _ _ _ _ _ _ => true
  | .vfms _ _ _ _ _ _ _ _ _ => true
  | .vfnma _ _ _ _ _ _ _ _ _ => true
  | .vabs _ _ _ _ _ _ => true
  | .vneg _ _ _ _ _ _ => true
  | .vand _ _ _ _ _ _ _ => true
  | .vor _ _ _ _ _ _ _ => true
  | .vxor _ _ _ _ _ _ _ => true
  | .vnot _ _ _ _ _ _ => true
  | .vsll _ _ _ _ _ _ _ => true
  | .vsrl _ _ _ _ _ _ _ => true
  | .vsra _ _ _ _ _ _ _ => true
  | .vcmp _ _ _ _ _ _ _ _ => true
  | .vsel _ _ _ _ _ _ => true
  | .pand _ _ _ _ => true
  | .por _ _ _ _ => true
  | .pxor _ _ _ _ => true
  | .pnot _ _ _ => true
  | .pcnt _ _ _ _ => true
  | .vcvt _ _ _ _ _ _ _ _ _ => true
  | .vred _ _ _ _ _ _ _ _ => true
  | .vperm _ _ _ _ _ _ _ _ => true
  | .vdup _ _ _ _ _ _ => true
  | .vzip _ _ _ _ _ => true
  | .vunzip _ _ _ _ => true
  | .vgetx _ _ _ _ _ => true
  | .vld _ _ _ _ _ _ _ _ _ => true
  | .vst _ _ _ _ _ _ _ _ => true
  | .vldg _ _ _ _ _ _ _ _ => true
  | .vsts _ _ _ _ _ _ _ => true
  | .vqld _ _ _ _ _ _ _ _ _ => true
  | .vqst _ _ _ _ _ _ _ _ _ _ => true
  | .vrcp _ _ _ _ _ _ => true
  | .vrsqrt _ _ _ _ _ _ => true
  | .vsqrt _ _ _ _ _ _ => true
  | .vexp2 _ _ _ _ _ _ => true
  | .vlog2 _ _ _ _ _ _ => true
  | .vsinpi _ _ _ _ _ _ => true
  | .vcospi _ _ _ _ _ _ => true
  | .vtanh _ _ _ _ _ _ => true
  | .vsigm _ _ _ _ _ _ => true
  | .vgelu _ _ _ _ _ _ => true
  | .vsilu _ _ _ _ _ _ => true
  | .verf _ _ _ _ _ _ => true
  | .mload _ _ _ _ _ _ _ _ _ _ => true
  | .mloadFillComplete _ => true
  | .mflip _ _ => true
  | .mflipTakesEffect _ => true
  | .mdrop _ => true
  | .mstream _ _ _ _ _ _ _ _ _ _ _ _ _ => true
  | .mstreamComplete _ => true
  | .mzero _ _ => true
  | .mwin _ _ _ => true
  | .mcopy _ _ _ => true
  | .madd _ _ _ => true
  | .mgetz _ _ _ _ _ _ => true
  | .mdrain _ _ _ _ _ _ _ _ _ _ _ => true
  | .tileSignatureFormed _ => true
  | .msigr _ _ _ => true
  | .msync _ => true
  | .mcb _ _ _ _ _ _ => true
  | .mstat _ _ _ => true
  | .mpert _ _ _ _ => true
  | .mpoff _ => true
  | .mpstep _ _ _ => true
  | .mpref _ _ _ _ _ _ _ => true
  | .mpsamp _ _ _ _ _ => true
  | .rstat _ _ _ => true
  | .rchk _ _ => true
  | .rmode _ _ => true
  | .rinj _ _ _ _ => true
  | .bcopy _ _ _ _ _ _ _ _ _ => true
  | .bcopyS _ _ _ _ _ _ _ _ _ _ => true
  | .bfill _ _ _ _ _ _ _ => true
  | .bdedup _ _ _ _ _ _ _ => true
  | .bcow _ _ _ _ _ _ _ _ => true
  | .bcmp _ _ _ _ _ _ _ => true
  | .bwait _ _ _ _ _ => true
  | .bacnt _ _ _ => true
  | .bsync _ => true
  | .copyCompletion _ => true
  | .tcvt h _ _ _ _ _ _ _ _ _ => thrHeader h
  | .tcvti h _ _ _ _ _ _ _ _ _ => thrHeader h
  | .tamax h _ _ _ _ _ _ _ _ => thrHeader h
  | .tsqze h _ _ _ _ _ _ _ => thrHeader h
  | .tsqzd h _ _ _ _ _ _ _ => thrHeader h
  | .ttr h _ _ _ _ _ _ _ => thrHeader h
  | .tbara h _ _ => thrHeader h
  | .tbarw h _ => thrHeader h
  | .tbars h _ _ => thrHeader h
  | .tld h _ _ _ _ => thrHeader h
  | .tst h _ _ _ _ => thrHeader h
  | .trd h _ _ => thrHeader h
  | .twr h _ _ => thrHeader h
  | .tsync h => thrHeader h
  | .cadd _ _ _ _ _ _ _ => true
  | .cmin _ _ _ _ _ _ => true
  | .cmax _ _ _ _ _ _ => true
  | .caxpy _ _ _ _ _ _ _ _ => true
  | .cscal _ _ _ _ _ _ => true
  | .binit _ _ _ _ _ _ => true
  | .cbar _ _ _ _ _ => true
  | .cbwait _ _ _ _ _ => true
  | .barrierLinePoison _ => true
  | .atomicRequest _ => true
  | .registerResultLanding _ => true
  | .loadDataReturn _ => true
  | .pendingPush _ => true
  | .tokenTimeout _ => true
  | .feTimeout _ => true
  | .translationResolve _ _ => true
  | .translationAbort _ _ => true
  | .pageWalk _ _ => true
  | .tlbiAll _ _ => true
  | .tlbiPages _ _ _ _ => true
  | .aliasWriteback _ => true
  | .frEnable _ _ _ => true
  | .frDisable _ _ => true
  | .channelMigration _ _ _ => true
  | .slipwWrite _ => true
  | .cringHeadWrite _ => true
  | .reeveModeWrite _ => true
  | .wqEnable _ _ => true
  | .wqDisable _ _ => true
  | .wqTailWrite _ _ => true
  | .hostFetchadd _ _ _ => true
  | .stage0ItemGenerate _ => true
  | .instanceEnd _ => true
  | .pipelineStall _ => true
  | .partitionEnable _ => true
  | .partitionDisable _ => true
  | .resume _ _ => true
  | .abort _ _ => true
  | .run _ _ => true
  | .halt _ => true
  | .planeDiffBroadcast _ => true
  | .shadowPlaneLoad _ _ => true
  | .crier _ => true
  | .limitLower _ _ _ => true
  | .unannouncedClamp _ _ => true
  | .heartbeat _ => true
  | .round _ => true
  | .rparam _ => true
  | .peerSilenceTimeout _ => true
  | .silent _ => true
  | .join _ => true
  | .leave _ => true
  | .mootJoinCommand _ => true
  | .quotaExhausted _ => true
  | .rpcapWrite _ _ _ => true
  | .sensFailClear _ _ => true
  | .flitReceive _ _ => true
  | .linkDown _ => true
  | .routeWaitTimeout _ => true
  | .hostBarAccess _ => true
  | .hostCompletion _ _ => true
  | .startupStage _ _ => true
  | .controlPathError _ => true
  | .registerWrite _ _ => true
  | .linkUp _ _ => true
  | .reservedEncoding _ _ => true
  | .writeBackAcknowledged _ => true
  | .sensorFail _ _ => true
  | .restore _ _ => true
  | .pkgnum _ => true
  | .laneSpare _ _ => true
  | .replayTimeout _ => true
  | .linkOff _ => true
  | .stampedIssue => true
  | .poundCommit => true
  | .reeveMismatch => true
  | .reeveSampledCheck => true
  | .reeveForcedCheck => true
  | .transformCompletion => true
  | .faultRecord => true
  | .invalidationComplete => true
  | .strandLaunch => true
  | .sliceExpiry => true
  | .contextSwap => true
  | .planeDiffApply => true
  | .swapToken => true
  | .planeSwap => true
  | .ceilingEffective => true
  | .heartbeatSend => true
  | .roundSend => true
  | .roundTick => true
  | .roundMiss => true
  | .mootLeaveCommand => true
  | .quiesce => true
  | .reset => true
  | .powerOnReset => true
  | .powerFault => true
  | .bellTargetReached => true
  | .stage => true
  | .phase => true
  | .nop => true
  | .endText => true

/-- R86: what the body of a modulo loop may not contain. -/
def loopmForbidden (i : Instr) : Bool :=
  match i with
  | .add _ _ _ => false
  | .sub _ _ _ => false
  | .and _ _ _ => false
  | .or _ _ _ => false
  | .xor _ _ _ => false
  | .sll _ _ _ => false
  | .srl _ _ _ => false
  | .sra _ _ _ => false
  | .slt _ _ _ => false
  | .sltu _ _ _ => false
  | .mul _ _ _ => false
  | .mulh _ _ _ => false
  | .min _ _ _ => false
  | .max _ _ _ => false
  | .addi _ _ _ => false
  | .andi _ _ _ => false
  | .ori _ _ _ => false
  | .xori _ _ _ => false
  | .slti _ _ _ => false
  | .slli _ _ _ => false
  | .srli _ _ _ => false
  | .srai _ _ _ => false
  | .lui _ _ => false
  | .lhi _ _ => false
  | .auipc _ _ => false
  | .bEq _ _ _ => true
  | .bNe _ _ _ => true
  | .bLt _ _ _ => true
  | .bGe _ _ _ => true
  | .bLtu _ _ _ => true
  | .bGeu _ _ _ => true
  | .j _ => true
  | .jal _ => true
  | .jr _ _ => true
  | .loop _ _ _ => true
  | .loopm _ _ _ _ => true
  | .loopmPass _ => false
  | .bfclr _ => false
  | .bfset _ _ _ _ => false
  | .bfadd _ _ _ _ => false
  | .bfget _ _ _ => false
  | .bfmov _ _ => false
  | .twait _ _ _ => false
  | .slipw _ _ => false
  | .ld _ _ _ _ _ _ _ _ _ _ _ => false
  | .st _ _ _ _ _ _ _ _ _ _ _ => false
  | .ldf _ _ _ _ _ => false
  | .stf _ _ _ _ _ _ => false
  | .atom _ _ _ _ _ _ _ _ _ _ _ _ _ => false
  | .fence _ _ _ => false
  | .bara _ _ _ _ _ _ => false
  | .barw _ _ _ _ _ => false
  | .bars _ _ _ _ _ _ => false
  | .hgive _ _ _ _ => false
  | .htake _ _ _ _ => false
  | .hqry _ _ _ _ => false
  | .abc _ _ _ => true
  | .abcReceive _ => false
  | .foot _ _ _ _ => false
  | .csrr _ _ _ => false
  | .csrw _ _ _ => false
  | .bellr _ _ => false
  | .ttok _ _ => false
  | .tstart _ _ _ _ => false
  | .trap _ _ => false
  | .eret _ => false
  | .taskend _ _ => true
  | .qres _ _ _ _ => false
  | .qtail _ _ _ => false
  | .qhead _ _ _ => false
  | .ditem _ _ _ => false
  | .dpush _ _ _ => false
  | .gclkr _ _ => false
  | .bellw _ _ _ => false
  | .vadd _ _ _ _ _ _ _ _ => false
  | .vsub _ _ _ _ _ _ _ _ => false
  | .vmul _ _ _ _ _ _ _ _ => false
  | .vmin _ _ _ _ _ _ _ => false
  | .vmax _ _ _ _ _ _ _ => false
  | .vmulh _ _ _ _ _ _ _ => false
  | .vadds _ _ _ _ _ _ _ => false
  | .vsubs _ _ _ _ _ _ _ => false
  | .vfma _ _ _ _ _ _ _ _ _ => false
  | .vfms _ _ _ _ _ _ _ _ _ => false
  | .vfnma _ _ _ _ _ _ _ _ _ => false
  | .vabs _ _ _ _ _ _ => false
  | .vneg _ _ _ _ _ _ => false
  | .vand _ _ _ _ _ _ _ => false
  | .vor _ _ _ _ _ _ _ => false
  | .vxor _ _ _ _ _ _ _ => false
  | .vnot _ _ _ _ _ _ => false
  | .vsll _ _ _ _ _ _ _ => false
  | .vsrl _ _ _ _ _ _ _ => false
  | .vsra _ _ _ _ _ _ _ => false
  | .vcmp _ _ _ _ _ _ _ _ => false
  | .vsel _ _ _ _ _ _ => false
  | .pand _ _ _ _ => false
  | .por _ _ _ _ => false
  | .pxor _ _ _ _ => false
  | .pnot _ _ _ => false
  | .pcnt _ _ _ _ => false
  | .vcvt _ _ _ _ _ _ _ _ _ => false
  | .vred _ _ _ _ _ _ _ _ => false
  | .vperm _ _ _ _ _ _ _ _ => false
  | .vdup _ _ _ _ _ _ => false
  | .vzip _ _ _ _ _ => false
  | .vunzip _ _ _ _ => false
  | .vgetx _ _ _ _ _ => false
  | .vld _ _ _ _ _ _ _ _ _ => false
  | .vst _ _ _ _ _ _ _ _ => false
  | .vldg _ _ _ _ _ _ _ _ => false
  | .vsts _ _ _ _ _ _ _ => false
  | .vqld _ _ _ _ _ _ _ _ _ => false
  | .vqst _ _ _ _ _ _ _ _ _ _ => false
  | .vrcp _ _ _ _ _ _ => false
  | .vrsqrt _ _ _ _ _ _ => false
  | .vsqrt _ _ _ _ _ _ => false
  | .vexp2 _ _ _ _ _ _ => false
  | .vlog2 _ _ _ _ _ _ => false
  | .vsinpi _ _ _ _ _ _ => false
  | .vcospi _ _ _ _ _ _ => false
  | .vtanh _ _ _ _ _ _ => false
  | .vsigm _ _ _ _ _ _ => false
  | .vgelu _ _ _ _ _ _ => false
  | .vsilu _ _ _ _ _ _ => false
  | .verf _ _ _ _ _ _ => false
  | .mload _ _ _ _ _ _ _ _ _ _ => false
  | .mloadFillComplete _ => false
  | .mflip _ _ => false
  | .mflipTakesEffect _ => false
  | .mdrop _ => false
  | .mstream _ _ _ _ _ _ _ _ _ _ _ _ _ => false
  | .mstreamComplete _ => false
  | .mzero _ _ => false
  | .mwin _ _ _ => false
  | .mcopy _ _ _ => false
  | .madd _ _ _ => false
  | .mgetz _ _ _ _ _ _ => false
  | .mdrain _ _ _ _ _ _ _ _ _ _ _ => false
  | .tileSignatureFormed _ => false
  | .msigr _ _ _ => false
  | .msync _ => false
  | .mcb _ _ _ _ _ _ => false
  | .mstat _ _ _ => false
  | .mpert _ _ _ _ => false
  | .mpoff _ => false
  | .mpstep _ _ _ => false
  | .mpref _ _ _ _ _ _ _ => false
  | .mpsamp _ _ _ _ _ => false
  | .rstat _ _ _ => false
  | .rchk _ _ => false
  | .rmode _ _ => false
  | .rinj _ _ _ _ => false
  | .bcopy _ _ _ _ _ _ _ _ _ => false
  | .bcopyS _ _ _ _ _ _ _ _ _ _ => false
  | .bfill _ _ _ _ _ _ _ => false
  | .bdedup _ _ _ _ _ _ _ => false
  | .bcow _ _ _ _ _ _ _ _ => false
  | .bcmp _ _ _ _ _ _ _ => false
  | .bwait _ _ _ _ _ => false
  | .bacnt _ _ _ => false
  | .bsync _ => false
  | .copyCompletion _ => false
  | .tcvt _ _ _ _ _ _ _ _ _ _ => false
  | .tcvti _ _ _ _ _ _ _ _ _ _ => false
  | .tamax _ _ _ _ _ _ _ _ _ => false
  | .tsqze _ _ _ _ _ _ _ _ => false
  | .tsqzd _ _ _ _ _ _ _ _ => false
  | .ttr _ _ _ _ _ _ _ _ => false
  | .tbara _ _ _ => false
  | .tbarw _ _ => false
  | .tbars _ _ _ => false
  | .tld _ _ _ _ _ => false
  | .tst _ _ _ _ _ => false
  | .trd _ _ _ => false
  | .twr _ _ _ => false
  | .tsync _ => false
  | .cadd _ _ _ _ _ _ _ => false
  | .cmin _ _ _ _ _ _ => false
  | .cmax _ _ _ _ _ _ => false
  | .caxpy _ _ _ _ _ _ _ _ => false
  | .cscal _ _ _ _ _ _ => false
  | .binit _ _ _ _ _ _ => false
  | .cbar _ _ _ _ _ => false
  | .cbwait _ _ _ _ _ => false
  | .barrierLinePoison _ => false
  | .atomicRequest _ => false
  | .registerResultLanding _ => false
  | .loadDataReturn _ => false
  | .pendingPush _ => false
  | .tokenTimeout _ => false
  | .feTimeout _ => false
  | .translationResolve _ _ => false
  | .translationAbort _ _ => false
  | .pageWalk _ _ => false
  | .tlbiAll _ _ => false
  | .tlbiPages _ _ _ _ => false
  | .aliasWriteback _ => false
  | .frEnable _ _ _ => false
  | .frDisable _ _ => false
  | .channelMigration _ _ _ => false
  | .slipwWrite _ => false
  | .cringHeadWrite _ => false
  | .reeveModeWrite _ => false
  | .wqEnable _ _ => false
  | .wqDisable _ _ => false
  | .wqTailWrite _ _ => false
  | .hostFetchadd _ _ _ => false
  | .stage0ItemGenerate _ => false
  | .instanceEnd _ => false
  | .pipelineStall _ => false
  | .partitionEnable _ => false
  | .partitionDisable _ => false
  | .resume _ _ => false
  | .abort _ _ => false
  | .run _ _ => false
  | .halt _ => false
  | .planeDiffBroadcast _ => false
  | .shadowPlaneLoad _ _ => false
  | .crier _ => false
  | .limitLower _ _ _ => false
  | .unannouncedClamp _ _ => false
  | .heartbeat _ => false
  | .round _ => false
  | .rparam _ => false
  | .peerSilenceTimeout _ => false
  | .silent _ => false
  | .join _ => false
  | .leave _ => false
  | .mootJoinCommand _ => false
  | .quotaExhausted _ => false
  | .rpcapWrite _ _ _ => false
  | .sensFailClear _ _ => false
  | .flitReceive _ _ => false
  | .linkDown _ => false
  | .routeWaitTimeout _ => false
  | .hostBarAccess _ => false
  | .hostCompletion _ _ => false
  | .startupStage _ _ => false
  | .controlPathError _ => false
  | .registerWrite _ _ => false
  | .linkUp _ _ => false
  | .reservedEncoding _ _ => false
  | .writeBackAcknowledged _ => false
  | .sensorFail _ _ => false
  | .restore _ _ => false
  | .pkgnum _ => false
  | .laneSpare _ _ => false
  | .replayTimeout _ => false
  | .linkOff _ => false
  | .stampedIssue => false
  | .poundCommit => false
  | .reeveMismatch => false
  | .reeveSampledCheck => false
  | .reeveForcedCheck => false
  | .transformCompletion => false
  | .faultRecord => false
  | .invalidationComplete => false
  | .strandLaunch => false
  | .sliceExpiry => false
  | .contextSwap => false
  | .planeDiffApply => false
  | .swapToken => false
  | .planeSwap => false
  | .ceilingEffective => false
  | .heartbeatSend => false
  | .roundSend => false
  | .roundTick => false
  | .roundMiss => false
  | .mootLeaveCommand => false
  | .quiesce => false
  | .reset => false
  | .powerOnReset => false
  | .powerFault => false
  | .bellTargetReached => false
  | .stage => false
  | .phase => true
  | .nop => false
  | .endText => true

end Sys2Proof.Machine
end

