-- ==== Sys2Proof/Machine/Flags.lean ====
section
/-! DEFINITION. Flag computations: where the sticky flags of each engine live and how they read and clear (R122, R123). -/
namespace Sys2Proof.Machine

/-- Bits 8:0 of VCTL (Table 5.2). -/
def vctlFlags (f : Fx) : BitVec 9 :=
  bit1 f.undq ++ bit1 f.satq ++ bit1 f.nan ++ bit1 f.sat ++ bit1 f.nx ++ bit1 f.uf ++ bit1 f.of ++ bit1 f.dz ++ bit1 f.nv

/-- The flags of a W1C write of VCTL: each 1 clears its bit. -/
def vctlClear (f : Fx) (v : BitVec 64) : Fx :=
  { f with nv := f.nv && !bitAt v 0, dz := f.dz && !bitAt v 1, of := f.of && !bitAt v 2, uf := f.uf && !bitAt v 3,
           nx := f.nx && !bitAt v 4, sat := f.sat && !bitAt v 5, nan := f.nan && !bitAt v 6,
           satq := f.satq && !bitAt v 7, undq := f.undq && !bitAt v 8 }

/-- The flags alone, without counts. -/
def Fx.sticky (f : Fx) : Fx := { f with nsat := 0, nund := 0 }

/-- The vector engine's flag settings and counts land (R123, R198). -/
def Vec.landFx (v : Vec) (f : Fx) : Vec :=
  { v with flags := (v.flags.join f).sticky, satcnt := satAdd v.satcnt f.nsat, undcnt := satAdd v.undcnt f.nund }

end Sys2Proof.Machine
end

