-- ==== Sys2Proof/Machine/Flits.lean ====
section
/-! DEFINITION. Rilaic flits and what the ports send (R477, R478, R482): the header, the choice of port, the replay buffer and
the requests of accesses to other packages. -/
namespace Sys2Proof.Machine

/-- Header of a flit: bytes 240 to 247 (Table 14.1). -/
def flitHeader (f : List Byte) : BitVec 64 := BitVec.ofNat 64 (leValue ((f.drop 240).take 8))

/-- A damaged flit: a bad CRC, a reserved CLASS or a reserved bit. -/
def flitDamaged (f : List Byte) : Bool :=
  let h := flitHeader f
  f.length ≠ 256 || crc32c (f.take 252) ≠ BitVec.ofNat 32 (leValue (f.drop 252)) || 5 ≤ (field h 17 3).toNat ||
    field h 20 12 ≠ 0#12 || field h 52 12 ≠ 0#12 || leValue ((f.drop 248).take 4) ≠ 0

/-- A flit of a payload of 240 bytes under a header, with its check. -/
def flitOf (payload : List Byte) (h : BitVec 64) : List Byte :=
  let b := payload ++ leBytes 8 h.toNat ++ List.replicate 4 0
  b ++ leBytes 4 (crc32c b).toNat

/-- A flit's header (Table 14.1). -/
def flitWord (s : State) (seqNo ack : BitVec 8) (nak : Bool) (cls : BitVec 3) (dpkg : BitVec 10) : BitVec 64 :=
  0#12 ++ s.pkgNo ++ dpkg ++ 0#12 ++ cls ++ bit1 nak ++ ack ++ seqNo

/-- A link-control flit that acknowledges, or asks for a replay from, flit `ack`. -/
def controlFlit (s : State) (ack : BitVec 8) (nak : Bool) (peer : BitVec 10) : List Byte :=
  flitOf (List.replicate 240 0) (flitWord s 0 ack nak 4 peer)

def getPort (s : State) (p : Nat) : Port := s.ports.getD p Port.reset
def setPort (s : State) (p : Nat) (x : Port) : State := { s with ports := s.ports.setIfInBounds p x }

/-! ### Sending -/

/-- A port sends a flit: it takes the next SEQ and stays in the replay buffer until it is acknowledged (R478). -/
def Port.send (s : State) (x : Port) (o : Outbound) : Port :=
  let f := flitOf o.payload (flitWord s x.txNext x.rxNext false o.cls o.dpkg)
  { x with
    txNext := x.txNext + 1
    replayBuf := x.replayBuf ++ [⟨x.txNext, o, f⟩]
    sentAt := if x.replayBuf.isEmpty then s.moot.time else x.sentAt
    sent := x.sent ++ [f] }

/-- An earlier request to the same 4 KiB page has gone through another port and has not been answered (R482). -/
def pageElsewhere (s : State) (o : Outbound) (p : Nat) : Bool :=
  o.cls == 0#3 && (List.range 24).any fun i => decide (i ≠ p) &&
    ((getPort s i).replayBuf.map (·.out) ++ (getPort s i).unanswered).any fun x =>
      x.cls == 0#3 && x.dpkg == o.dpkg && x.key / 4096 == o.key / 4096

/-- Ports that traffic to a package can leave by: those of its route that are UP, or, for what was accepted before a quiesce, still
QUIESCING (R482, R483). -/
def sendPorts (s : State) (p : Nat) : List Nat :=
  let r := getAssoc s.routes (s.coreNo.toNat / 32 * 1024 + p) 0
  if bitAt r 63 then (List.range 24).filter fun i => bitAt r i && ((getPort s i).state = 2 || (getPort s i).state = 4) else []

/-- A port has room among the 128 flits that may be unacknowledged, and is not retraining (R478, R480). -/
def Port.open (x : Port) : Bool := decide (x.replayBuf.length < 128) && x.retrain.isNone

/-- Where something to be sent can go now: the port of its route by bits 17:12 of its address, if it is open, and with no earlier
request to its page on another port (R482). -/
def sendPlace (s : State) (o : Outbound) : Option (Outbound × Nat) :=
  let l := sendPorts s o.dpkg.toNat
  match l[o.key / 4096 % 64 % l.length]? with
  | some p => if (getPort s p).open && !pageElsewhere s o p then some (o, p) else none
  | none => none

/-- What is sent next: the Moot class is served ahead of every other (R477), and the oldest first. -/
def nextSend (s : State) : Option (Outbound × Nat) :=
  (s.outq.filter (fun o => o.cls == 3#3) ++ s.outq.filter fun o => o.cls != 3#3).findSome? (sendPlace s)

/-- The links after at most `n` sends: the ports and what still waits. -/
def pumpGo (s : State) : Nat → Vector Port 24 × List Outbound
  | 0 => (s.ports, s.outq)
  | n + 1 =>
    match nextSend s with
    | none => (s.ports, s.outq)
    | some (o, p) => pumpGo { s with ports := s.ports.setIfInBounds p ((getPort s p).send s o), outq := s.outq.erase o } n

/-- Everything that a port can take is sent; the rest waits for a route or for an acknowledgement. -/
def pump (s : State) : State :=
  let r := pumpGo s s.outq.length
  { s with ports := r.1, outq := r.2 }

/-- Sends payloads. -/
def sendOut (s : State) (l : List Outbound) : State := pump { s with outq := s.outq ++ l }

/-- A Moot message as bytes (Table 13.2). -/
def mootBytes (ty : BitVec 4) (m : MootMsg) : List Byte :=
  leBytes 8 (m.seqNo ++ 0#6 ++ m.pkg ++ m.member ++ 0#4 ++ ty).toNat ++ leBytes 8 m.effective.toNat ++ leBytes 8 m.sent.toNat ++
    leBytes 8 (m.arg ++ m.gid ++ 0#3 ++ bit1 m.unann ++ m.cause ++ m.limit).toNat

/-- A Moot message on its way to packages: it stands at the start of the payload, the rest of which is 0 (DESIGN CHOICE:
assumption 58). -/
def mootFlits (s : State) (ty : BitVec 4) (m : MootMsg) (pkgs : List (BitVec 10)) : State :=
  if pkgs.isEmpty then s
  else sendOut s (pkgs.map fun p => { cls := 3, dpkg := p, key := 0, payload := mootBytes ty m ++ List.replicate 208 0 })

/-- What a flit of a class to a package carries, where the spec does not lay it out: a free value (DESIGN CHOICE:
assumption 58). -/
def openPayload (s : State) (n : Nat) : List Byte := leBytes 240 (Config.freeValue 1920 (s.free + n)).toNat

/-- The other packages that a list of keys names, each once, with the first key of each. -/
def remoteTargets (s : State) (keys : List Nat) : List (Nat × Nat) :=
  keys.foldl (fun l k => match remotePkg s k with
    | some p => if l.any fun x => x.1 == p then l else l ++ [(p, k)]
    | none => l) []

/-- First physical address of host memory (R488). -/
def hostBase : Nat := 0x4000000000000

/-- Runs of neighbouring host addresses in a list of keys: first address and length. -/
def hostRuns (s : State) (keys : List Nat) : List (Nat × Nat) :=
  ((keys.filter fun k => decide (hostBase ≤ k) && paClass s.pkgNo k == .host).foldl (fun (l : List (Nat × Nat)) k => match l with
    | (a, n) :: r => if a + n = k then (a, n + 1) :: r else (k, 1) :: l
    | [] => [(k, 1)]) []).reverse

/-- An access to host memory goes out as requests under the virtual function of a partition (R488); a store's go out at its access,
whichever cache it leaves its bytes in (DESIGN CHOICE: assumption 58). -/
def hostRequests (s : State) (vf : BitVec 4) (write : Bool) (keys : List Nat) : State :=
  match hostRuns s keys with
  | [] => s
  | l => { s with pcie := s.pcie ++ l.map fun x => ⟨vf, x.1 - hostBase, x.2, write⟩ }

/-- The source port of an engine of this core (R396). -/
def corePort (s : State) (e : Engine) : Nat := s.pkgNo.toNat * 4096 + s.coreNo.toNat * 8 + e.tag

/-- Requests of an engine to other packages (R479): one flit of class 0 to each, which carries the engine's next tag; an atomic
step's own tag is counted where its unit performs it (R396). -/
def podRequests (s : State) (e : Engine) (acc : Acc) (who : Option Sender) (keys : List Nat) : State :=
  match remoteTargets s keys with
  | [] => s
  | l =>
    let n := s.portSeq.getD e.tag 0
    sendOut { s with
        free := s.free + l.length
        portSeq := if acc = .atomic then s.portSeq else s.portSeq.setIfInBounds e.tag (n + BitVec.ofNat 16 l.length) }
      (l.zipIdx.map fun x =>
        { cls := 0, dpkg := BitVec.ofNat 10 x.1.1, key := x.1.2, payload := openPayload s x.2
          tag := some (corePort s e, if acc = .atomic then n else n + BitVec.ofNat 16 x.2), sender := who, since := s.moot.time })

/-- The requests of an operation, to other packages and to the host, in the step in which it reads or writes. -/
def engineFlits (s : State) (e : Engine) (acc : Acc) (keys : List Nat) : State :=
  hostRequests (podRequests s e acc none keys) s.ctx.part acc.writes keys

/-- The requests of an access in its issue. -/
def requestFlits (s : State) (e : Engine) (acc : Acc) (keys : List Nat) : State :=
  let who : Sender := ⟨e, (s.eng e).pc, s.ctx.strand, if acc = .write then none else some s.nextId⟩
  hostRequests (podRequests s e acc (some who) keys) s.ctx.part acc.writes keys

/-! ### Requests that cannot reach their package (R462, R479, R482) -/

/-- What waits and has a route counts its time without one from now on. -/
def stampWaiting (s : State) : State :=
  { s with outq := s.outq.map fun o => if (sendPorts s o.dpkg.toNat).isEmpty then o else { o with since := s.moot.time } }

/-- The access of a request fails with PEER_SILENT: what a load was to return does not arrive, and a store faults after its issue. -/
def failAccess (s : State) (o : Outbound) : State :=
  let op0 := silentOperand s o.dpkg.toNat
  match o.sender with
  | none => s
  | some w =>
    match w.op.bind (findOp s) with
    | some op => (match op.kind with
      | .load acq none tag => updateOp s op.id fun op => { op with kind := .load acq (some (.peerSilent, op0)) tag }
      | _ => s)
    | none => if w.op.isNone && w.strand = s.ctx.strand then raiseAsync s w.eng w.pc .peerSilent op0 else s

/-- Requests that wait for a package that is gone are sent no more. -/
def failRequests (s : State) (gone : Nat → Bool) : State :=
  let dead (o : Outbound) : Bool := o.cls == 0#3 && gone o.dpkg.toNat
  (s.outq.filter dead).foldl failAccess { s with outq := s.outq.filter fun o => !dead o }

end Sys2Proof.Machine
end

