-- ==== Sys2Proof/Machine/Strand.lean ====
section
/-! DEFINITION. The Dispatcher's shared operations (chapter 12): configuration planes, reading and writing for the
Dispatcher, choosing work, launching a strand, ending an item, admission of entries. -/
namespace Sys2Proof.Machine

def report (s : State) (r : Report) : State := { s with reports := s.reports ++ [r] }
def post (s : State) (i : Instr) : State := { s with inbox := s.inbox ++ [i] }
def setCtx (s : State) (c : Ctx) : State := { s with ctx := c }
def setDisp (s : State) (d : Disp) : State := { s with disp := d }

/-! ### Configuration planes (Table 12.11) -/

/-- `n` bytes of the active plane at an offset, as a number. -/
def planeVal (s : State) (off n : Nat) : Nat := leValue ((keyRange off n).map (memGet s.disp.plane))

/-- A footprint descriptor of eight entries (Table 4.10). -/
def footEntries (bytes : List Byte) : List FootRange :=
  (List.range 8).filterMap fun i =>
    let w := BitVec.ofNat 64 (leValue ((bytes.drop (8 * i)).take 8))
    let len := (field w 18 18).toNat
    if field w 36 2 = 0#2 || len = 0 then none else some ⟨field w 36 2, (field w 0 18).toNat, len⟩

/-- The footprint default of an engine (R26). -/
def footDefault (s : State) (e : Engine) : List FootRange :=
  footEntries ((keyRange (0x40 + 64 * e.tag) 64).map (memGet s.disp.plane))

/-- WINDOW clamped to 64 to 4,096 (R9). -/
def clampWindow (n : Int) : BitVec 13 := if n < 64 then 64#13 else if n > 4096 then 4096#13 else BitVec.ofInt 13 n

/-- REEVE.POLICY as a plane's word loads it (Table 9.4). -/
def Mx.setPolicy (x : Mx) (v : BitVec 64) : Mx :=
  { x with
    thresh := field v 32 16
    action := if field v 30 2 = 0#2 then 0 else 1
    slmin := field v 24 4
    slmax := if (field v 20 4).toNat > 10 then 10#4 else field v 20 4
    umax := if field v 8 8 = 0#8 then 1 else field v 8 8
    injok := bitAt v 3
    forceok := bitAt v 2
    modeok := bitAt v 1 }

/-- A context with the registers that the active plane feeds (R425, R431). -/
def planeCtx (s : State) (c : Ctx) : Ctx :=
  let b := BitVec.ofNat 8 (planeVal s 0x00A 1)
  let per := (field b 1 5).toNat
  let w := planeVal s 0x00C 4
  { c with
    window := clampWindow (planeVal s 0x008 2)
    det := bitAt b 0
    schk := bitAt b 6
    perlog2 := if per < 8 then 8#5 else if per > 16 then 16#5 else BitVec.ofNat 5 per
    feto := BitVec.ofNat 16 (w / 65536)
    tokto := BitVec.ofNat 16 w
    pace := Vector.ofFn fun (i : Fin 5) => BitVec.ofNat 16 (planeVal s (0x020 + 2 * i.val) 2)
    bte := { c.bte with sretry := BitVec.ofNat 4 (planeVal s 0x014 1) } }

/-- Loads the registers that the active plane feeds for the running context (R425). -/
def loadPlane (s : State) : State :=
  { s with ctx := planeCtx s s.ctx, mx := s.mx.setPolicy (BitVec.ofNat 64 (planeVal s 0x018 8)) }

/-! ### Reads and writes on the Dispatcher's behalf -/

/-- What a read of the Dispatcher finds: bytes, a miss held for the driver, or a failure. -/
inductive DRead where
  | ok (bytes : List Byte) (s : State)
  | hold (vpn : Nat) (s : State)
  | fail (s : State)
deriving DecidableEq, Repr

/-- Installs the leaf that a walk found. -/
def tlbInsert (s : State) (part : BitVec 4) (vpn : Nat) (l : Leaf) : State :=
  { s with tlb := s.tlb ++ [⟨part, vpn / l.pages * l.pages, l.pages, l.pfn, l.w, l.ms⟩] }

/-- Reports a miss to the driver and holds it (R51). -/
def holdMiss (s : State) (part : BitVec 4) (vpn : Nat) : State :=
  if s.misses.contains (part, vpn) then s else report { s with misses := s.misses ++ [(part, vpn)] } (.miss part vpn)

/-- Makes the pages of a range resident in the TLB where the tables map them; the first unmapped page otherwise. -/
def walkPages (s : State) (part : BitVec 4) : List Nat → State × Option Nat
  | [] => (s, none)
  | v :: r =>
    match tlbFind s part v with
    | some _ => walkPages s part r
    | none =>
      match pageWalkOf s part v with
      | (s, some l) => walkPages (tlbInsert s part v l) part r
      | (s, none) => (holdMiss s part v, some v)

/-- Makes the mapped pages of a list resident in the TLB; a page without a mapping stays away, and nobody is told. -/
def quietWalk (s : State) (part : BitVec 4) : List Nat → State
  | [] => s
  | v :: r =>
    match tlbFind s part v with
    | some _ => quietWalk s part r
    | none =>
      match pageWalkOf s part v with
      | (s, some l) => quietWalk (tlbInsert s part v l) part r
      | (s, none) => quietWalk s part r

/-- Pages of a byte range. -/
def pagesOf (va n : Nat) : List Nat :=
  if n = 0 then [] else (List.range ((va + n - 1) / 4096 - va / 4096 + 1)).map (va / 4096 + ·)

/-- The driver aborts the miss of a page in this step; each abort serves the one access that holds the miss (R51, R411). -/
def abortedPage (s : State) (part : BitVec 4) (v : Nat) : Bool := s.disp.aborts.contains (part, v)
def useAbort (s : State) (part : BitVec 4) (v : Nat) : State :=
  { s with misses := s.misses.filter (· != (part, v)), disp := { s.disp with aborts := s.disp.aborts.filter (· != (part, v)) } }

/-- Reads `n` bytes of a partition's virtual space at their home. -/
def dispRead (s : State) (part : BitVec 4) (va n : Nat) : DRead :=
  if va + n > 2 ^ 52 then .fail s else
  match walkPages s part (pagesOf va n) with
  | (s, some v) => if abortedPage s part v then .fail (useAbort s part v) else .hold v s
  | (s, none) =>
    match translateBytes s part false (keyRange va n) with
    | .ok ls =>
      let pas := ls.map (·.1)
      let s := homePrep (hostRequests s part false pas) pas
      let a := noteAliasRead s 0 pas
      if a.2 || poisoned a.1 pas then .fail a.1 else .ok (pas.map (homeByte a.1)) a.1
    | .miss v => .hold v s
    | .perm _ => .fail s

/-- Writes bytes of a partition's virtual space at their home: done, held for the driver at a page, or failed. -/
def dispWrite (s : State) (part : BitVec 4) (va : Nat) (bs : List Byte) : State × Option (Option Nat) :=
  if va + bs.length > 2 ^ 52 then (s, some none) else
  match walkPages s part (pagesOf va bs.length) with
  | (s, some v) => if abortedPage s part v then (useAbort s part v, some none) else (s, some (some v))
  | (s, none) =>
    match translateBytes s part true (keyRange va bs.length) with
    | .ok ls => (homeWrite (hostRequests s part true (ls.map (·.1))) ((ls.map (·.1)).zip bs), none)
    | .miss v => (s, some (some v))
    | .perm _ => (s, some none)

/-- A write of Commons bytes on the Dispatcher's behalf; bytes of armed barrier lines keep their values (R394). -/
def commonsWrite (s : State) (l : List (Nat × Byte)) : State := rawWrite s (l.filter fun c => !armedLine s c.1)

/-! ### Queues and instances -/

def getWq (s : State) (q : Nat) : Wq := getAssoc s.disp.wqs q Wq.reset
def setWq (s : State) (q : Nat) (w : Wq) : State := setDisp s { s.disp with wqs := setAssoc s.disp.wqs q w }
def getPart (s : State) (p : BitVec 4) : Part := s.disp.parts[p.toNat]
def setPart (s : State) (p : BitVec 4) (x : Part) : State :=
  setDisp s { s.disp with parts := s.disp.parts.set p.toNat x }
def findPipe (s : State) (id : Nat) : Option Pipe := s.disp.pipes.find? fun p => p.id == id
def updPipe (s : State) (id : Nat) (f : Pipe → Pipe) : State :=
  setDisp s { s.disp with pipes := s.disp.pipes.map fun p => if p.id == id then f p else p }

/-- A partition owns this core's quad. -/
def partHasCore (s : State) (p : BitVec 4) (core : Nat) : Bool := bitAt (getPart s p).qmask (core / 4)

def Pipe.queueOf (p : Pipe) (st : Nat) : List Item := p.queues.getD st []
def setNth {α : Type} (l : List α) (n : Nat) (x : α) : List α := l.set n x

/-- Places of stage `st` are all taken. -/
def Pipe.stageFull (p : Pipe) (st : Nat) : Bool :=
  match p.stages[st]? with
  | some g => decide (g.depth ≤ (p.queueOf st).length)
  | none => true

/-- Memory key of a place of a partition's stage-queue area (R415, Table 12.10). -/
def placeKey (s : State) (part : BitVec 4) (place : Nat) : Nat :=
  let p := getPart s part
  commonsKey s.pkgNo.toNat p.dqdie.toNat (p.dqbase.toNat * 0x10000 + 128 * place)

/-- The item's 16 dwords as the stage-queue area holds them, and their writing there. -/
def readItem (s : State) (part : BitVec 4) (place : Nat) : Vector (BitVec 64) 16 :=
  Vector.ofFn fun (i : Fin 16) => BitVec.ofNat 64 (memVal s (placeKey s part place + 8 * i.val) 8)
def writeItem (s : State) (part : BitVec 4) (place : Nat) (dw : Vector (BitVec 64) 16) : State :=
  commonsWrite s ((keyRange (placeKey s part place) 128).zip (dw.toList.flatMap fun x => leBytes 8 x.toNat))

/-- The lowest free place of a stage's queue. -/
def Pipe.freePlace (p : Pipe) (st : Nat) : Nat :=
  let base := p.bases.getD st 0
  let depth := match p.stages[st]? with
    | some g => g.depth
    | none => 0
  ((List.range depth).find? fun i => !(p.queueOf st).any fun it => it.place == base + i).getD 0 + base

/-- An item that core `c` may take (R419). -/
def Item.mayTake (it : Item) (c : BitVec 8) : Bool :=
  match it.pin with
  | none => true
  | some p => p == c

/-- The core is offline for matrix work (R346). -/
def coreOffline (s : State) : Bool := s.mx.mode = .offline

/-- R419: stage `st` of an instance is eligible for this core. No other core holds the stage in this model. -/
def stageEligible (s : State) (p : Pipe) (st : Nat) : Bool :=
  match p.stages[st]? with
  | none => false
  | some g =>
    (p.queueOf st).any (fun it => it.mayTake s.coreNo) && decide (0 < g.maxc) &&
    (st + 1 = p.stages.length || !p.stageFull (st + 1)) && (!coreOffline s || !g.hdr.mx)

def eligibleStages (s : State) (p : Pipe) : List Nat := (List.range p.stages.length).filter (stageEligible s p)

/-- Instances whose queue belongs to a partition, and to the running context's. -/
def Pipe.ofPart (s : State) (part : BitVec 4) (p : Pipe) : Bool := (getWq s p.queue.toNat).part == part
def Pipe.mine (s : State) (p : Pipe) : Bool := p.ofPart s s.ctx.part

/-- A partition has an eligible stage for this core (R434). -/
def partEligible (s : State) (part : BitVec 4) : Bool :=
  s.disp.pipes.any fun p => p.ofPart s part && !(eligibleStages s p).isEmpty

/-- A context whose energy quota holds it back (R475). -/
def quotaHolds (s : State) (part : BitVec 4) : Bool :=
  let p := getPart s part
  p.eqEn && p.eqAction && p.exh

/-- Highest level with an eligible instance. -/
def topLevel (s : State) : Option Nat :=
  (s.disp.pipes.filter fun p => p.mine s && !(eligibleStages s p).isEmpty).foldl
    (fun b p => match b with
      | none => some p.prio.toNat
      | some x => some (max x p.prio.toNat)) none

/-- Rules 2 to 4 of R420 for instance `p`. -/
def chooseStage (s : State) (p : Pipe) : Option Nat :=
  let el := eligibleStages s p
  let occ (st : Nat) : Nat := (p.queueOf st).length
  match el.find? fun st => decide (0 < (p.stages.getD st default).minc) with
  | some st => some st
  | none =>
    let cur := match s.disp.curStage with
      | some st => if s.disp.lastInst = some p.id && el.contains st && (p.stages.getD st default).low ≤ occ st
          then some st else none
      | none => none
    match cur with
    | some st => some st
    | none =>
      let high := el.filter fun st => decide ((p.stages.getD st default).hiw ≤ occ st)
      let best := high.foldl (fun (b : Option Nat) st => match b with
        | none => some st
        | some x => if occ x - (p.stages.getD x default).hiw ≤ occ st - (p.stages.getD st default).hiw
            then some st else some x) none
      match best with
      | some st => some st
      | none => el.getLast?

/-- R421: the deficit round robin at a level; `fuel` bounds the turns, twice round the ring and one more suffice. -/
def drr (s : State) (lvl : Nat) : Nat → State × Option (Nat × Nat)
  | 0 => (s, none)
  | fuel + 1 =>
    match s.disp.rings.getD lvl [] with
    | [] => (s, none)
    | id :: rest =>
      let rotate (s : State) : State := setDisp s { s.disp with rings := s.disp.rings.setIfInBounds lvl (rest ++ [id]) }
      match findPipe s id with
      | none => drr (setDisp s { s.disp with rings := s.disp.rings.setIfInBounds lvl rest }) lvl fuel
      | some p =>
        if !p.mine s || (eligibleStages s p).isEmpty then
          drr (rotate (updPipe s id fun p => { p with deficit := 0 })) lvl fuel
        else if p.deficit < 1 then
          drr (rotate (updPipe s id fun p => { p with deficit := p.deficit + p.weight })) lvl fuel
        else
          let s := updPipe s id fun p => { p with deficit := p.deficit - 1 }
          match chooseStage s p with
          | some st => (s, some (id, st))
          | none => (s, none)

/-- WORK_SELECTION (R420): the stage this core serves next. -/
def chooseWork (s : State) : State × Option (Nat × Nat) :=
  match topLevel s with
  | none => (s, none)
  | some lvl =>
    let rule5 := drr s lvl (2 * (s.disp.rings.getD lvl []).length + 1)
    match s.disp.lastInst.bind (findPipe s) with
    | none => rule5
    | some p =>
      if !p.mine s || p.prio.toNat < lvl || p.deficit < 1 then rule5
      else match chooseStage s p with
        | some st => (updPipe s p.id fun p => { p with deficit := p.deficit - 1 }, some (p.id, st))
        | none => rule5

/-- Takes the oldest item of the stage that this core may take, for launch. -/
def takeItem (s : State) (id st : Nat) : State :=
  match findPipe s id with
  | none => s
  | some p =>
    match (p.queueOf st).find? fun it => it.mayTake s.coreNo with
    | none => s
    | some it =>
      let dw := readItem s (getWq s p.queue.toNat).part it.place
      let s := updPipe s id fun p =>
        { p with queues := p.queues.set st ((p.queueOf st).erase it), progress := s.bell, stalled := false }
      let s := setDisp s { s.disp with launching := some (id, st, dw), lastInst := some id, curStage := some st }
      post (if st = 0 then post s (.stage0ItemGenerate id) else s) .strandLaunch

/-- The held context is made to run when the running one has no eligible stage, or is held back by its quota, and it has one
(R434). -/
def yieldOut (s : State) : State :=
  match s.held with
  | none => s
  | some h =>
    if !s.disp.swapping && s.host.stage = 7#4 && (quotaHolds s s.ctx.part || !partEligible s s.ctx.part) &&
        partEligible s h.part && !(getPart s h.part).halted && !quotaHolds s h.part
    then setDisp s { s.disp with swapping := true } else s

/-- A swap that is wanted and may be made: the incoming context is not held back by its quota (R475). -/
def swapWanted (s : State) : Bool :=
  s.disp.swapping && (match s.held with
    | some h => !quotaHolds s h.part
    | none => true)

/-- At a boundary or idle core the Dispatcher chooses work; without any, the core is IDLE. -/
def chooseItem (s : State) : State :=
  match s.ctx.status with
  | .idle | .boundary =>
    let p := getPart s s.ctx.part
    if s.disp.launching.isSome || swapWanted s || !p.en || p.halted || !partHasCore s s.ctx.part s.coreNo.toNat ||
        s.host.stage ≠ 7#4 || s.host.quiescing || quotaHolds s s.ctx.part then s
    else match chooseWork s with
      | (s, some (id, st)) => takeItem s id st
      | (s, none) => setCtx s { s.ctx with status := .idle }
  | _ => s

/-- The Dispatcher's choice at this core: of an item for a core that is free, and of the context that runs. -/
def selectWork (s : State) : State := yieldOut (chooseItem s)

/-! ### Ending an item (R189, R417, R430, R436) -/

/-- A strand, a launch or a saved context of the instance exists. -/
def instBusy (s : State) (id : Nat) : Bool :=
  s.ctx.inst == some id || (match s.held with
    | some c => c.inst == some id
    | none => false) || (s.saved.any fun c => c.1.inst == some id) || (match s.disp.launching with
    | some l => l.1 == id
    | none => false)

/-- R417: everything generated, every queue empty, nothing running. -/
def instDone (s : State) (p : Pipe) : Bool :=
  p.generated == p.nitems && p.queues.all (·.isEmpty) && !instBusy s p.id

/-- Posts the end of every instance that has ended. -/
def postEnds (s : State) : State :=
  s.disp.pipes.foldl (fun t p => if instDone s p && !t.inbox.contains (.instanceEnd p.id) then post t (.instanceEnd p.id)
    else t) s

/-- Notes an item's status in its instance. -/
def noteStatus (s : State) (inst : Option Nat) (status : BitVec 64) : State :=
  match inst with
  | none => s
  | some id => updPipe s id fun p =>
      { p with bad := p.bad || status ≠ 0, progress := s.bell, stalled := false }

/-- No engine of the strand walks on. -/
def Engines.stopped (g : Engines) : Engines :=
  let f (x : Eng) : Eng := { x with atStop := true, wait := none, feWait := none, pushes := [] }
  ⟨f g.ctl, f g.bte, f g.mxe, f g.vec, g.thr⟩

/-- The strand's item ends with a status: the Dispatcher's release (R430), the boundary, and the next choice. A
handling strand ends the stopped item, whose saved context is dropped (R436). -/
def endItem (s : State) (status : BitVec 64) : State :=
  let s := releaseActions s 3
  let s := noteStatus s s.ctx.inst status
  let s := { s with saved := s.saved.filter fun c => c.1.part != s.ctx.part || !s.ctx.taskHandler }
  let s := setCtx s { s.ctx with status := .boundary, inst := none, taskHandler := false }
  selectWork (postEnds (s.setEng .ctl { (s.eng .ctl) with atStop := true, wait := none, feWait := none }))

/-! ### Launch (R425 to R429) -/

/-- Handles that a text of `n` bytes takes: the highest of the window (R428). -/
def textHandles (s : State) (n : Nat) : List Nat :=
  let k := ceilDiv n 0x10000
  (List.range k).map (s.ctx.winBase.toNat + s.ctx.winCount.toNat - k + ·)

/-- Handles of this core that hold text now. -/
def heldText (s : State) : List Nat :=
  (List.range 48).filter fun h => s.handles.getD (s.coreNo.toNat % 4 * 48 + h) .text == .text &&
    decide (s.ctx.winBase.toNat ≤ h) && decide (h < s.ctx.winBase.toNat + s.ctx.winCount.toNat)

def setHandle (s : State) (i : Nat) (h : Handle) : State := { s with handles := s.handles.setIfInBounds i h }

/-- Step 1 of R425: the overlay's text becomes resident; handles that leave it return to their core, empty. -/
def residentText (s : State) (ovl : Nat) (hdr : OvlHdr) (bytes : List Byte) : State :=
  let c := s.coreNo.toNat
  let new := textHandles s hdr.tlen
  let gone := (heldText s).filter fun h => !new.contains h
  let s := gone.foldl (fun s h => setFull (setHandle s (c % 4 * 48 + h) (.held (field s.coreNo 0 2)))
    ((List.range 4096).map fun g => granuleNo c (h * 0x10000) + g) false) s
  let s := new.foldl (fun s h => setHandle s (c % 4 * 48 + h) .text) s
  let s := rawWrite s ((List.range bytes.length).zip bytes |>.map fun p =>
    (scratchKey c ((new.headD 0) * 0x10000 + p.1), p.2))
  let words := (List.range (hdr.tlen / 4)).map fun i =>
    BitVec.ofNat 32 (leValue ((bytes.drop (4 * i)).take 4))
  setCtx s { s.ctx with text := ⟨BitVec.ofNat 64 (ovl + 0x40), words⟩ }

/-- A ring engine at the start of a strand: registers zero but A1, empty stacks, the default footprint. -/
def freshEng (s : State) (e : Engine) (a1 : BitVec 64) (pc : BitVec 64) : Eng :=
  { Eng.reset with a := (Vector.replicate 32 0).set 1 a1, pc := pc, active := footDefault s e }

/-- What the unit chapters reset at a launch (R243, R266, R279, R304, R357). -/
def launchUnits (s : State) : State :=
  let c := s.ctx
  let seed := BitVec.ofNat 32 (planeVal s 0x010 4)
  let w : Sow := ⟨seed, 0, 0, false⟩
  let x := s.mx
  { s with
    mx := { x with mill := { x.mill with sow := w }, quern := { x.quern with sow := w }, parked := none }
    ctx := { c with
      mx := { c.mx with mdseq := 0, latest := none, sampleNext := false }
      bte := { c.bte with arrive := Vector.replicate 16 (0, false), iseq := 0 }
      thr := ⟨{}, seed, 0, 0, 0, 0⟩ } }

/-- Barrier networks within a core, scope .core: both participants are the core's (R177). -/
def coreNets : Nat := 16

/-- R178: the Dispatcher clears every barrier state of the core's participants. What the dead strand had arrived at in an
incomplete episode of a wider scope stays counted there (DESIGN CHOICE: assumption 85). -/
def clearNets (s : State) : State :=
  { s with nets := Vector.ofFn fun (i : Fin 80) =>
      let n := { s.nets[i] with mine := none, thr := none }
      if i.val < coreNets then { n with arrived := 0, target := 0 } else n }

/-- R179: the barrier state of a context that comes back: its networks of scope .core, and its latest arrivals elsewhere. -/
def restoreNets (s : State) (l : List Net) : State :=
  { clearNets s with nets := Vector.ofFn fun (i : Fin 80) =>
      match l[i.val]? with
      | none => (clearNets s).nets[i]
      | some m => if i.val < coreNets then m else { s.nets[i] with mine := m.mine, thr := m.thr } }

/-- Steps 3 to 5 of R425 for a strand with first argument `a1`, entry `pc`, item and stage. -/
def startStrand (s : State) (a1 pc : BitVec 64) (hdr : OvlHdr) (it : Vector (BitVec 64) 16) (inst : Option Nat)
    (handler : Bool) : State :=
  let s := loadPlane (cacheActions s 3)
  let p := getPart s s.ctx.part
  let c := s.ctx
  let thr := { Eng.reset with a := c.eng.thr.a, bf := c.eng.thr.bf, pc := c.eng.thr.pc, active := footDefault s .thr }
  let s := setCtx s { c with
    status := if handler then .handler else .running
    strand := c.strand + 1
    eng := ⟨freshEng s .ctl a1 pc, freshEng s .bte a1 pc, freshEng s .mxe a1 pc, freshEng s .vec a1 pc, thr⟩
    tokens := Vector.replicate 10 0
    abcBte := []
    abcMxe := []
    abcVec := []
    thrrun := false
    frec := BitVec.ofNat 46 ((p.frec.toNat * 2 ^ 14 + 64 * s.coreNo.toNat) / 64)
    item := it
    taskQueue := field (it.getD 2 0) 16 14
    taskStage := field (it.getD 2 0) 0 3
    taskHandler := handler
    inst := inst
    trailer := hdr.trailer
    stop := none }
  launchUnits (clearNets s)

/-- The item cannot be run: it ends with status 0xFFFF_FFFE (R425). -/
def launchFailed (s : State) (id : Nat) : State :=
  let s := match findPipe s id with
    | some p => report s (.launchFail p.queue p.seqNo)
    | none => s
  let s := noteStatus s (some id) 0xFFFFFFFE#64
  let s := setDisp s { s.disp with launching := none, launchHeld := false }
  selectWork (postEnds (setCtx s { s.ctx with status := .boundary }))

/-- Handles that a text needs and a core holds now (R428). -/
def withdrawn (s : State) (hdr : OvlHdr) : List Nat := (textHandles s hdr.tlen).filter fun h => !(heldText s).contains h

/-- An issued access to a handle that the text withdraws is not yet complete (R428). -/
def handlesBusy (s : State) (hdr : OvlHdr) : Bool :=
  s.ops.any fun o => (withdrawn s hdr).any fun h => o.touches.contains (s.coreNo.toNat % 4 * 48 + h)

/-- The overlay is resident in the running context already. -/
def isResident (s : State) (ovl : Nat) (hdr : OvlHdr) : Bool :=
  s.ctx.text.base = BitVec.ofNat 64 (ovl + 0x40) && s.ctx.text.words.length = hdr.tlen / 4 && (withdrawn s hdr).isEmpty

/-- Reads what a launch needs of an overlay: its text, unless it is resident, and its local image. -/
def overlayRead (s : State) (part : BitVec 4) (ovl : Nat) (hdr : OvlHdr) : DRead :=
  if isResident s ovl hdr then dispRead s part (ovl + 0x40 + hdr.tlen) hdr.llen
  else dispRead s part (ovl + 0x40) (hdr.tlen + hdr.llen)

/-- Steps 1 and 2 of R425, with the bytes that `overlayRead` gave: the text becomes resident and the local image is copied. -/
def placeOverlay (s : State) (ovl : Nat) (hdr : OvlHdr) (bytes : List Byte) : State :=
  let img := if isResident s ovl hdr then bytes else bytes.drop hdr.tlen
  let s := if isResident s ovl hdr then s else residentText s ovl hdr (bytes.take hdr.tlen)
  let c := s.coreNo.toNat
  let s := rawWrite s ((List.range img.length).zip img |>.map fun q => (scratchKey c (hdr.loff + q.1), q.2))
  setFull s (rangeGranules c hdr.loff hdr.llen) true

/-- ACTION 1 of R475: the strand stops at its next boundary with ENERGY_QUOTA; OPERAND0 is filled in at its record. -/
def quotaStop (s : State) : State :=
  strandStop s { code := .energyQuota, tag := 0, async := false, op0 := 0, op1 := 0 } false

/-- STRAND_LAUNCH (R425): waits until the outgoing strand's engines have stopped, and until issued accesses to the
handles it withdraws are complete. A context whose quota was exhausted while its launch waited stops at the new strand's first
boundary (R475). -/
def launchStrand (s : State) : State :=
  match s.disp.launching with
  | none => s
  | some (id, st, dw) =>
    match findPipe s id with
    | none => setDisp s { s.disp with launching := none }
    | some p =>
      let g := p.stages.getD st default
      let hdr := g.hdr
      if (getPart s s.ctx.part).halted || !ringsStopped s || handlesBusy s hdr then s else
      match overlayRead s s.ctx.part g.ovl.toNat hdr with
      | .hold _ s => setDisp s { s.disp with launchHeld := true }
      | .fail s => launchFailed s id
      | .ok bytes s =>
        let s := placeOverlay s g.ovl.toNat hdr bytes
        let s := setDisp s { s.disp with launching := none, launchHeld := false }
        let s := startStrand s (dw.getD 0 0) (g.ovl + 0x40 + BitVec.ofNat 64 hdr.entry) hdr dw (some id) false
        if quotaHolds s s.ctx.part then quotaStop s else s

/-! ### Admission (R411, R414 to R416, R427) -/

/-- R427: a valid overlay header, or none. -/
def parseHdr (s : State) (part : BitVec 4) (b : List Byte) : Option OvlHdr :=
  let at4 (o : Nat) : Nat := leValue ((b.drop o).take 4)
  let at8 (o : Nat) : Nat := leValue ((b.drop o).take 8)
  let t := BitVec.ofNat 32 (at4 0xC)
  let p := getPart s part
  let h : OvlHdr := { tlen := at4 0, llen := at4 4, clen := at4 8, trailer := field t 0 4, mx := bitAt t 8,
                      loff := at8 0x10, coff := at8 0x18, entry := at8 0x20 }
  let lim := (p.hbase.toNat + p.hcount.toNat - ceilDiv h.tlen 0x10000) * 0x10000
  if h.tlen = 0 || h.tlen % 4 ≠ 0 || h.tlen > 262144 || h.llen % 16 ≠ 0 || h.coff % 16 ≠ 0 ||
      t &&& 0xFFFFFEF0#32 ≠ 0 || at8 0x28 ≠ 0 || at8 0x30 ≠ 0 || at8 0x38 ≠ 0 ||
      h.entry ≥ h.tlen || h.loff + h.llen > lim then none
  else some h

/-- R416: one stage of a descriptor, without its header. -/
def parseStage (b : List Byte) : Option Stage :=
  let w (o : Nat) : BitVec 64 := BitVec.ofNat 64 (leValue ((b.drop o).take 8))
  let c := w 8
  let d := w 16
  let g : Stage := { ovl := w 0, minc := (field c 0 9).toNat, maxc := (field c 16 9).toNat, depth := (field d 0 13).toNat,
                     hiw := (field d 16 13).toNat, low := (field d 32 13).toNat, hdr := default }
  if c &&& 0xFFFFFFFFFE00FE00#64 ≠ 0 || d &&& 0xFFFFE000E000E000#64 ≠ 0 || w 24 ≠ 0 || g.minc > g.maxc || g.maxc = 0 ||
      g.maxc > 256 || g.depth < 16 || g.depth > 4096 || g.low > g.hiw || g.hiw > g.depth || g.ovl.toNat % 64 ≠ 0 then none
  else some g

/-- What reading a descriptor or its headers finds. -/
inductive Parsed (α : Type) where
  | ok (x : α) (s : State)
  | hold (vpn : Nat) (s : State)
  | bad (s : State)

/-- Reads the header of each stage. -/
def readHeaders (s : State) (part : BitVec 4) : List Stage → List Stage → Parsed (List Stage)
  | [], acc => .ok acc s
  | g :: r, acc =>
    match dispRead s part g.ovl.toNat 64 with
    | .hold v s => .hold v s
    | .fail s => .bad s
    | .ok b s =>
      match parseHdr s part b with
      | none => .bad s
      | some h => readHeaders s part r (acc ++ [{ g with hdr := h }])

/-- Reads a pipeline descriptor: level, weight and stages. -/
def readDesc (s : State) (part : BitVec 4) (va : BitVec 64) : Parsed (BitVec 3 × Nat × List Stage) :=
  if field va 52 12 ≠ 0#12 || field va 0 6 ≠ 0#6 then .bad s else
  match dispRead s part va.toNat 64 with
  | .hold v s => .hold v s
  | .fail s => .bad s
  | .ok b s =>
    let d := BitVec.ofNat 64 (leValue (b.take 8))
    let rest := leValue (b.drop 8)
    let n := (field d 0 3).toNat + 1
    let weight := (field d 16 16).toNat
    if d &&& 0xFFFFFFFF0000FF88#64 ≠ 0 || rest ≠ 0 || weight = 0 then .bad s else
    match dispRead s part (va.toNat + 0x40) (32 * n) with
    | .hold v s => .hold v s
    | .fail s => .bad s
    | .ok sb s =>
      let gs := (List.range n).map fun i => parseStage ((sb.drop (32 * i)).take 32)
      if gs.any (·.isNone) then .bad s else
      match readHeaders s part (gs.filterMap id) [] with
      | .ok x s => .ok (field d 4 3, weight, x) s
      | .hold v s => .hold v s
      | .bad s => .bad s

/-- Lowest quad of a partition. -/
def lowestQuad (p : Part) : Nat := ((List.range 64).find? fun i => bitAt p.qmask i).getD 0

/-- R427: the Commons images are copied at admission; COFF counts from the base of the grant (DEDUCED: assumption 34). -/
def copyImages (s : State) (part : BitVec 4) : List Stage → Parsed Unit
  | [] => .ok () s
  | g :: r =>
    let p := getPart s part
    let die := lowestQuad p / 8
    if (p.cmSize.getD die 0).toNat * 0x10000 < g.hdr.coff + g.hdr.clen then .bad s else
    match dispRead s part (g.ovl.toNat + 0x40 + g.hdr.tlen + g.hdr.llen) g.hdr.clen with
    | .hold v s => .hold v s
    | .fail s => .bad s
    | .ok b s =>
      let base := commonsKey s.pkgNo.toNat die ((p.cmBase.getD die 0).toNat * 0x10000 + g.hdr.coff)
      copyImages (commonsWrite s ((keyRange base b.length).zip b)) part r

/-- Stores a completion word (R417); one whose page the driver has yet to map waits for it, and a failure is counted and
reported. -/
def storeDone (s : State) (d : DoneWord) : State :=
  if d.addr = 0 then s else
  match dispWrite s d.part d.addr.toNat (leBytes 8 d.word.toNat) with
  | (s, none) => s
  | (s, some (some v)) => setDisp s { s.disp with dones := s.disp.dones ++ [{ d with vpn := v }] }
  | (s, some none) =>
    let w := getWq s d.queue
    report (setWq s d.queue { w with errcnt := satAdd w.errcnt 1, lasterr := 6 }) (.doneFail (BitVec.ofNat 14 d.queue) d.seqNo)

/-- The completion word of an entry of queue `q`: its sequence number with the bits that R414 and R417 set. -/
def doneWord (s : State) (q : Nat) (done seqNo bits : BitVec 64) : DoneWord :=
  ⟨q, (getWq s q).part, done, seqNo ||| bits, seqNo, 0⟩

/-- ENTRY_REFUSAL (R414). -/
def refuseEntry (s : State) (q : Nat) (reason : Nat) (done : BitVec 64) : State :=
  let w := getWq s q
  storeDone (report (setWq s q { w with head := w.head + 1, errcnt := satAdd w.errcnt 1, lasterr := BitVec.ofNat 8 reason,
                                        held := none }) (.refused (BitVec.ofNat 14 q) w.head reason))
    (doneWord s q done w.head (1#64 <<< 62))

/-- Places of the stage-queue area that live instances of a partition hold: first place and number. -/
def usedPlaces (s : State) (part : BitVec 4) : List (Nat × Nat) :=
  (s.disp.pipes.filter fun p => p.ofPart s part).flatMap fun p => p.bases.zip (p.stages.map (·.depth))

/-- The first places of queues of the given depths in an area of `n` places, each the lowest that is free (DESIGN CHOICE:
assumption 74); none when the area cannot hold them (R414). -/
def allocPlaces (n : Nat) : List (Nat × Nat) → List Nat → Option (List Nat)
  | _, [] => some []
  | used, d :: r =>
    let fits (c : Nat) : Bool := decide (c + d ≤ n) && used.all fun u => !rangesMeet c d u.1 u.2
    match (0 :: used.map fun u => u.1 + u.2).filter fits with
    | [] => none
    | c :: cs =>
      let b := cs.foldl min c
      (allocPlaces n ((b, d) :: used) r).map (b :: ·)

/-- Stage-0 items are generated while places are free (R415). -/
def generateItems (s : State) (id : Nat) : Nat → State
  | 0 => s
  | fuel + 1 =>
    match findPipe s id with
    | none => s
    | some p =>
      if p.generated ≥ p.nitems || p.stageFull 0 then s else
      let dw : Vector (BitVec 64) 16 := Vector.ofFn fun (i : Fin 16) =>
        if i.val = 0 then BitVec.ofNat 64 p.generated
        else if i.val = 1 then p.seqNo
        else if i.val = 2 then BitVec.ofNat 64 (p.queue.toNat * 65536)
        else if i.val = 3 then BitVec.ofNat 64 p.nitems
        else p.payload.getD (i.val - 4) 0
      let it : Item := { place := p.freePlace 0, pin := p.pins.bind fun l => l[p.generated]? }
      generateItems (updPipe (writeItem s (getWq s p.queue.toNat).part it.place dw) id fun p =>
        { p with generated := p.generated + 1, queues := p.queues.set 0 (p.queueOf 0 ++ [it]) }) id fuel

/-- R413: a slot lies in this package's HBM or in host memory. -/
def ringOk (s : State) (part : BitVec 4) (slot : Nat) : Bool :=
  match translate s part false slot with
  | .ok pa _ => paClass s.pkgNo pa == .hbm || paClass s.pkgNo pa == .host
  | _ => true

/-- ENTRY_ADMIT (R411, R415): the entry of bytes 0x08 to 0x7F, read from `slot`, is admitted or refused. -/
def admitEntry (s : State) (q slot : Nat) (b : List Byte) : State :=
  let w := getWq s q
  let at8 (o : Nat) : BitVec 64 := BitVec.ofNat 64 (leValue ((b.drop (o - 8)).take 8))
  let ctl := at8 0x10
  let nitems := (field ctl 0 32).toNat
  let pin := bitAt ctl 32
  let done := at8 0x18
  let pins := (b.drop (0x60 - 8)).take 32
  let inRing := ringOk s w.part slot
  match readDesc s w.part (at8 0x08) with
  | .hold v s => setWq s q { (getWq s q) with held := some v }
  | .bad s => refuseEntry s q 1 done
  | .ok (prio, weight, stages) s =>
    if !inRing then refuseEntry s q 1 done
    else if pin && (nitems > 32 || (pins.take nitems).any fun c => !partHasCore s w.part c.toNat) then refuseEntry s q 2 done
    else if nitems = 0 || field ctl 33 31 ≠ 0#31 then refuseEntry s q 3 done
    else match allocPlaces ((getPart s w.part).dqsize.toNat * 512) (usedPlaces s w.part) (stages.map (·.depth)) with
    | none => refuseEntry s q 4 done
    | some bases =>
    match copyImages s w.part stages with
      | .hold v s => setWq s q { (getWq s q) with held := some v }
      | .bad s => refuseEntry s q 1 done
      | .ok _ s =>
        let id := s.disp.nextPipe
        let p : Pipe := { id := id, queue := BitVec.ofNat 14 q, seqNo := w.head, prio := prio, weight := weight,
                          nitems := nitems, generated := 0, pins := if pin then some pins else none,
                          payload := (List.range 12).map fun i => at8 (0x20 + 8 * i), done := done, stages := stages,
                          queues := stages.map fun _ => [], bases := bases, nextIdx := stages.map fun _ => 0, deficit := 0, bad := false,
                          progress := s.bell, stalled := false }
        let d := s.disp
        let s := setDisp s { d with
          pipes := d.pipes ++ [p], nextPipe := id + 1
          rings := d.rings.setIfInBounds prio.toNat (d.rings.getD prio.toNat [] ++ [id]) }
        let w := getWq s q
        let s := setWq s q { w with head := w.head + 1, live := w.live + 1, held := none }
        generateItems s id nitems

/-- `(a - b) mod 2 ^ 64` lies from 1 to `2 ^ 63 - 1`. -/
def ahead (a b : BitVec 64) : Bool := a ≠ b && !bitAt (a - b) 63

/-- R411: examines the head slot, and goes on while entries are consumed or refused; after `fuel` slots the examination goes on
as an event of its own. -/
def examine (s : State) (q : Nat) : Nat → State
  | 0 => post s (.wqTailWrite (BitVec.ofNat 14 q) (getWq s q).tail)
  | fuel + 1 =>
    let w := getWq s q
    if w.held.isSome || !w.en || !ahead w.tail w.head || !(decide (w.live.toNat < w.maxinst.toNat)) ||
        (getPart s w.part).halted || s.host.stage ≠ 7#4 then s else
    let slot := w.base.toNat * 128 + 128 * (w.head.toNat % 2 ^ w.log2n.toNat)
    match dispRead s w.part slot 8 with
    | .hold v s => setWq s q { (getWq s q) with held := some v }
    | .fail s => examine (refuseEntry s q 5 0) q fuel
    | .ok sl s =>
      if BitVec.ofNat 64 (leValue sl) ≠ w.head then setWq s q { (getWq s q) with held := none } else
      match dispRead s w.part (slot + 8) 120 with
      | .hold v s => setWq s q { (getWq s q) with held := some v }
      | .fail s => examine (refuseEntry s q 5 0) q fuel
      | .ok b s =>
        let t := admitEntry s q slot b
        if (getWq t q).head = w.head then t else examine t q fuel

/-- An examination of queue `q`, and the work it may bring. -/
def examineQueue (s : State) (q : Nat) : State :=
  selectWork (examine s q (2 ^ (getWq s q).log2n.toNat + 1))

/-- R410: a write of TAIL; the Dispatcher examines the head slot once more whatever the value. -/
def writeTail (s : State) (q : Nat) (v : BitVec 64) : State :=
  let w := getWq s q
  examineQueue (setWq s q { w with tail := if ahead v w.tail then v else w.tail }) q

end Sys2Proof.Machine
end

