-- ==== Sys2Proof/Machine/Control.lean ====
section
/-! DEFINITION. The shared control subset (chapter 2, R74 to R105): every control word executes on the engine whose turn
it is, on that engine's own registers. -/
namespace Sys2Proof.Machine

/-- Sign extension of an immediate to 64 bits. -/
def simm {w : Nat} (x : BitVec w) : BitVec 64 := x.signExtend 64

/-- A register-register form of the integer group (R77). -/
def intOp (ad aa ab : BitVec 5) (f : BitVec 64 → BitVec 64 → BitVec 64) (s : State) : Host.Outcome State Fault Refusal :=
  controlWrite s true ad [aa, ab] fun e => f (readA s e aa) (readA s e ab)

/-- A register-immediate form (R78). -/
def immOp (ad aa : BitVec 5) (y : BitVec 64) (f : BitVec 64 → BitVec 64 → BitVec 64) (s : State) :
    Host.Outcome State Fault Refusal :=
  controlWrite s true ad [aa] fun e => f (readA s e aa) y

def boolWord (b : Bool) : BitVec 64 := if b then 1 else 0

/-- Shift amount: bits 5:0 of the source (R77). -/
def shAmt (y : BitVec 64) : Nat := (field y 0 6).toNat

def aluSlt (x y : BitVec 64) : BitVec 64 := boolWord (x.slt y)
def aluSltu (x y : BitVec 64) : BitVec 64 := boolWord (x.ult y)
def aluMin (x y : BitVec 64) : BitVec 64 := if x.slt y then x else y
def aluMax (x y : BitVec 64) : BitVec 64 := if y.slt x then x else y
/-- High half of the signed product (R77). -/
def aluMulh (x y : BitVec 64) : BitVec 64 := BitVec.ofInt 64 (x.toInt * y.toInt / (2 ^ 64 : Int))

/-- mul and mulh: interlocked, available three cycles after issue (R74). -/
def mulOp (ad aa ab : BitVec 5) (f : BitVec 64 → BitVec 64 → BitVec 64) (s : State) : Host.Outcome State Fault Refusal :=
  issueControl s (uniformOk s.cur (some ad) [aa, ab]) [aa, ab] fun e =>
    let s' := if ad = 0 then s
      else addOp s e 2 [.a ad.toNat (f (readA s e aa) (readA s e ab))] false {} .result
    .done (passWord s' e)

def execAdd (ad aa ab : BitVec 5) (s : State) : Host.Outcome State Fault Refusal := intOp ad aa ab (· + ·) s
def execSub (ad aa ab : BitVec 5) (s : State) : Host.Outcome State Fault Refusal := intOp ad aa ab (· - ·) s
def execAnd (ad aa ab : BitVec 5) (s : State) : Host.Outcome State Fault Refusal := intOp ad aa ab (· &&& ·) s
def execOr (ad aa ab : BitVec 5) (s : State) : Host.Outcome State Fault Refusal := intOp ad aa ab (· ||| ·) s
def execXor (ad aa ab : BitVec 5) (s : State) : Host.Outcome State Fault Refusal := intOp ad aa ab (· ^^^ ·) s
def execSll (ad aa ab : BitVec 5) (s : State) : Host.Outcome State Fault Refusal :=
  intOp ad aa ab (fun x y => x <<< shAmt y) s
def execSrl (ad aa ab : BitVec 5) (s : State) : Host.Outcome State Fault Refusal :=
  intOp ad aa ab (fun x y => x >>> shAmt y) s
def execSra (ad aa ab : BitVec 5) (s : State) : Host.Outcome State Fault Refusal :=
  intOp ad aa ab (fun x y => x.sshiftRight (shAmt y)) s
def execSlt (ad aa ab : BitVec 5) (s : State) : Host.Outcome State Fault Refusal := intOp ad aa ab aluSlt s
def execSltu (ad aa ab : BitVec 5) (s : State) : Host.Outcome State Fault Refusal := intOp ad aa ab aluSltu s
def execMin (ad aa ab : BitVec 5) (s : State) : Host.Outcome State Fault Refusal := intOp ad aa ab aluMin s
def execMax (ad aa ab : BitVec 5) (s : State) : Host.Outcome State Fault Refusal := intOp ad aa ab aluMax s
def execMul (ad aa ab : BitVec 5) (s : State) : Host.Outcome State Fault Refusal := mulOp ad aa ab (· * ·) s
def execMulh (ad aa ab : BitVec 5) (s : State) : Host.Outcome State Fault Refusal := mulOp ad aa ab aluMulh s

def execAddi (ad aa : BitVec 5) (imm : BitVec 15) (s : State) : Host.Outcome State Fault Refusal :=
  immOp ad aa (simm imm) (· + ·) s
def execAndi (ad aa : BitVec 5) (imm : BitVec 15) (s : State) : Host.Outcome State Fault Refusal :=
  immOp ad aa (simm imm) (· &&& ·) s
def execOri (ad aa : BitVec 5) (imm : BitVec 15) (s : State) : Host.Outcome State Fault Refusal :=
  immOp ad aa (simm imm) (· ||| ·) s
def execXori (ad aa : BitVec 5) (imm : BitVec 15) (s : State) : Host.Outcome State Fault Refusal :=
  immOp ad aa (simm imm) (· ^^^ ·) s
def execSlti (ad aa : BitVec 5) (imm : BitVec 15) (s : State) : Host.Outcome State Fault Refusal :=
  immOp ad aa (simm imm) aluSlt s
def execSlli (ad aa : BitVec 5) (sh : BitVec 6) (s : State) : Host.Outcome State Fault Refusal :=
  immOp ad aa (sh.setWidth 64) (fun x y => x <<< shAmt y) s
def execSrli (ad aa : BitVec 5) (sh : BitVec 6) (s : State) : Host.Outcome State Fault Refusal :=
  immOp ad aa (sh.setWidth 64) (fun x y => x >>> shAmt y) s
def execSrai (ad aa : BitVec 5) (sh : BitVec 6) (s : State) : Host.Outcome State Fault Refusal :=
  immOp ad aa (sh.setWidth 64) (fun x y => x.sshiftRight (shAmt y)) s

/-- R79. -/
def execLui (ad : BitVec 5) (imm : BitVec 20) (s : State) : Host.Outcome State Fault Refusal :=
  controlWrite s true ad [] fun _ => simm imm <<< 12

/-- R79: lhi reads its destination as a source. -/
def execLhi (ad : BitVec 5) (imm : BitVec 20) (s : State) : Host.Outcome State Fault Refusal :=
  controlWrite s true ad [ad] fun e => (simm imm <<< 32) + (field (readA s e ad) 0 32).setWidth 64

/-- R79: pc is the address of the auipc itself. -/
def execAuipc (ad : BitVec 5) (imm : BitVec 20) (s : State) : Host.Outcome State Fault Refusal :=
  controlWrite s true ad [] fun e => (s.eng e).pc + (simm imm <<< 12)

/-! ### Branches and jumps (R80, R81) -/

/-- The executing engine walks the body of a modulo loop (R86). -/
def inBody (s : State) : Bool := (s.eng s.cur).seq.isSome

/-- A taken branch or jump of an engine. -/
def jumpTo (s : State) (e : Engine) (target : BitVec 64) : State := s.setEng e ((s.eng e).jump target)

/-- Target of a word displacement (R80, R81). -/
def dispTarget {w : Nat} (s : State) (e : Engine) (disp : BitVec w) : BitVec 64 := (s.eng e).pc + (simm disp <<< 2)

/-- A compare-and-branch (R80, R11). -/
def branchOp (aa ab : BitVec 5) (disp : BitVec 12) (c : BitVec 64 → BitVec 64 → Bool) (s : State) :
    Host.Outcome State Fault Refusal :=
  issueControl s (allUniform s.cur [aa, ab] && !inBody s) [aa, ab] fun e =>
    .done (if c (readA s e aa) (readA s e ab) then jumpTo s e (dispTarget s e disp) else passWord s e)

def execBEq (aa ab : BitVec 5) (disp : BitVec 12) (s : State) : Host.Outcome State Fault Refusal :=
  branchOp aa ab disp (fun x y => x == y) s
def execBNe (aa ab : BitVec 5) (disp : BitVec 12) (s : State) : Host.Outcome State Fault Refusal :=
  branchOp aa ab disp (fun x y => x != y) s
def execBLt (aa ab : BitVec 5) (disp : BitVec 12) (s : State) : Host.Outcome State Fault Refusal :=
  branchOp aa ab disp (fun x y => x.slt y) s
def execBGe (aa ab : BitVec 5) (disp : BitVec 12) (s : State) : Host.Outcome State Fault Refusal :=
  branchOp aa ab disp (fun x y => !x.slt y) s
def execBLtu (aa ab : BitVec 5) (disp : BitVec 12) (s : State) : Host.Outcome State Fault Refusal :=
  branchOp aa ab disp (fun x y => x.ult y) s
def execBGeu (aa ab : BitVec 5) (disp : BitVec 12) (s : State) : Host.Outcome State Fault Refusal :=
  branchOp aa ab disp (fun x y => !x.ult y) s

def execJ (disp : BitVec 25) (s : State) : Host.Outcome State Fault Refusal :=
  issueControl s (!inBody s) [] fun e => .done (jumpTo s e (dispTarget s e disp))

/-- jal writes pc + 4 to a15 first. -/
def execJal (disp : BitVec 25) (s : State) : Host.Outcome State Fault Refusal :=
  issueControl s (!inBody s) [] fun e =>
    .done (jumpTo (ctlResult s e 15 ((s.eng e).pc + 4)) e (dispTarget s e disp))

/-- jr: aa is uniform in shared text (R75); a target that is not a word address faults. -/
def execJr (aa : BitVec 5) (imm : BitVec 15) (s : State) : Host.Outcome State Fault Refusal :=
  issueControl s (allUniform s.cur [aa] && !inBody s) [aa] fun e =>
    let t := readA s e aa + simm imm
    if field t 0 2 ≠ 0#2 then .trap (stewardTrap e .illegalOp) else .done (jumpTo s e t)

/-! ### Loops (R82 to R92) -/

/-- Continues at the end of a body without a pass (R83). -/
def skipBody (s : State) (e : Engine) (stop : BitVec 64) : State :=
  let x := s.eng e
  let q := passEnds x.loops stop
  s.setEng e { x with walk := x.walk + 1, pc := q.1, loops := q.2 }

/-- R82, R84. -/
def execLoop (aa : BitVec 5) (len cnt : BitVec 10) (s : State) : Host.Outcome State Fault Refusal :=
  issueControl s (encodingOk (.loop aa len cnt) (s.cur = .thr) && allUniform s.cur [aa] && !inBody s) [aa] fun e =>
    let x := s.eng e
    let start := x.pc + 4
    let stop := start + (len.setWidth 64 <<< 2)
    let n := if aa = 0 then cnt.toNat else (x.areg aa).toNat
    if n = 0 then .done (skipBody s e stop)
    else if x.loops.length ≥ 4 then .trap (stewardTrap e .illegalOp)
    else .done (s.setEng e { x with walk := x.walk + 1, pc := start, loops := ⟨start, stop, n⟩ :: x.loops })

/-- R85, R87. -/
def execLoopm (aa : BitVec 5) (len : BitVec 10) (ii : BitVec 6) (sc : BitVec 4) (s : State) :
    Host.Outcome State Fault Refusal :=
  issueControl s (encodingOk (.loopm aa len ii sc) (s.cur = .thr) && allUniform s.cur [aa] && !inBody s) [aa] fun e =>
    let x := s.eng e
    let start := x.pc + 4
    let stop := start + (len.setWidth 64 <<< 2)
    let n := (x.areg aa).toNat
    if n = 0 then .done (skipBody s e stop)
    else .done (s.setEng e { x with
      walk := x.walk + 1
      pc := start
      seq := some { start := start, stop := stop, trips := n, ii := ii.toNat + 1, sc := sc.toNat + 1, k := 0, stage := 0,
                    passStart := 0, between := true, rrb := 0 } })

/-- R87, R90: the predicates of a pass, p8 to p15. -/
def passPredicates (v : Vec) (m : ModSeq) : Vec :=
  { v with p := (List.range 8).foldl (fun p i => p.setIfInBounds (8 + i) (if m.live i then BitVec.allOnes 1024 else 0)) v.p }

/-- R91: a pass may start: `II` cycles after the last one started, and for the vector engine once no outstanding
result writes p8 to p15, which the pass would write before it (DESIGN CHOICE: assumption 71). -/
def passReady (s : State) (e : Engine) (m : ModSeq) : Bool :=
  m.between && !(m.k ≠ 0 && s.cycle < m.passStart + m.ii) &&
    !(e = .vec && (List.range 8).any fun i => s.ops.any fun o => o.eng == .vec && o.writes (.p (8 + i)))

/-- A pass of the modulo sequencer starts (R87, R91). -/
def execLoopmPass (e : Engine) (s : State) : Host.Outcome State Fault Refusal :=
  match (s.eng e).seq with
  | none => .next s
  | some m =>
    if !passReady s e m then .next s
    else
      let s := s.setEng e { (s.eng e) with seq := some { m with between := false, passStart := s.cycle, stage := 0 } }
      .next (if e = .vec then setCtx s { s.ctx with vec := passPredicates s.ctx.vec m } else s)

/-- R85, R86: marks the end of a stage; legal only in a body, fewer than SC times. -/
def execStage (s : State) : Host.Outcome State Fault Refusal :=
  match (s.eng s.cur).seq with
  | none => .next (raise s s.cur (stewardTrap s.cur .illegalOp))
  | some m =>
    issueControl s (decide (m.stage + 1 < m.sc)) [] fun e =>
      .done (passWord (s.setEng e { (s.eng e) with seq := some { m with stage := m.stage + 1 } }) e)

/-! ### Buffer records (R99, R100) -/

/-- A record with `w` bits from `lo` replaced. -/
def setField (r : BitVec 256) (lo w : Nat) (v : BitVec 64) : BitVec 256 :=
  let mask := (BitVec.ofNat 256 (2 ^ w - 1)) <<< lo
  (r &&& ~~~mask) ||| ((v.setWidth 256 <<< lo) &&& mask)

/-- Bits `lo` to `lo + w - 1` of a record, zero-extended. -/
def getField (r : BitVec 256) (lo w : Nat) : BitVec 64 := ((r >>> lo) &&& BitVec.ofNat 256 (2 ^ w - 1)).setWidth 64

def putBf (s : State) (e : Engine) (bf : BitVec 4) (v : BitVec 256) : State := s.setEng e ((s.eng e).setB bf v)

def execBfclr (bf : BitVec 4) (s : State) : Host.Outcome State Fault Refusal :=
  issueControl s true [] fun e => .done (passWord (putBf s e bf 0) e)

/-- bfset and bfadd (R99, R75). -/
def bfWrite (bf : BitVec 4) (fld aa : BitVec 5) (imm : BitVec 11) (accum : Bool) (s : State) :
    Host.Outcome State Fault Refusal :=
  issueControl s ((bfField fld).isSome && allUniform s.cur [aa]) [aa] fun e =>
    match bfField fld with
    | none => .done s
    | some (lo, w) =>
      let v := readA s e aa + simm imm
      let v := if accum then v + getField (readBf s e bf) lo w else v
      .done (passWord (putBf s e bf (setField (readBf s e bf) lo w v)) e)

def execBfset (bf : BitVec 4) (fld aa : BitVec 5) (imm : BitVec 11) (s : State) : Host.Outcome State Fault Refusal :=
  bfWrite bf fld aa imm false s
def execBfadd (bf : BitVec 4) (fld aa : BitVec 5) (imm : BitVec 11) (s : State) : Host.Outcome State Fault Refusal :=
  bfWrite bf fld aa imm true s

/-- A record field as bfget writes it: STR1 and STR2 sign-extended (R100). -/
def fieldValue (r : BitVec 256) (fld : BitVec 5) : BitVec 64 :=
  match bfField fld with
  | none => 0
  | some (lo, w) => if fld = 4 || fld = 6 then (field r lo 32).signExtend 64 else getField r lo w

def execBfget (bf : BitVec 4) (fld aa : BitVec 5) (s : State) : Host.Outcome State Fault Refusal :=
  controlWrite s (bfField fld).isSome aa [] fun e => fieldValue (readBf s e bf) fld

def execBfmov (bf src : BitVec 4) (s : State) : Host.Outcome State Fault Refusal :=
  issueControl s true [] fun e => .done (passWord (putBf s e bf (readBf s e src)) e)

/-! ### Tokens, phases, the window and the end of text (R101 to R105) -/

/-- The counter a twait selects for an engine (R101). -/
def twaitCounter (e : Engine) (sel : BitVec 2) : Nat :=
  match sel.toNat with
  | 0 => puCounter e
  | 1 => pdCounter e
  | _ => if e = .thr then 8 else 9

/-- The engine's bit in a twait mask; the Thresher's word has an empty mask. -/
def twaitNamed (e : Engine) (mask : BitVec 4) : Bool := e = .thr || bitAt mask e.tag

def execTwait (mask : BitVec 4) (sel : BitVec 2) (n : BitVec 4) (s : State) : Host.Outcome State Fault Refusal :=
  issueControl s (encodingOk (.twait mask sel n) (s.cur = .thr)) [] fun e =>
    if !twaitNamed e mask then .done (passWord s e)
    else
      let c := twaitCounter e sel
      if tokGet s c < n.toNat then .wait s (.token (4 * c))
      else .done (passWord (tokSet s c (tokGet s c - n.toNat)) e)

def ringEngines : List Engine := [.ctl, .bte, .mxe, .vec]
def allEngines : List Engine := [.ctl, .bte, .mxe, .vec, .thr]

/-- The footprint an engine takes at a PHASE (R26). -/
def nextFoot (s : State) (e : Engine) : List FootRange :=
  match (s.eng e).pending with
  | some l => l
  | none => footDefault s e

/-- R28: an engine of `l` whose footprint there writes granule `g` while another's reads or writes it. -/
def overlapAt (s : State) (g : Nat) : Option (Engine × Engine) :=
  match allEngines.find? fun e => footHas (nextFoot s e) true g &&
      allEngines.any fun f => f != e && (footHas (nextFoot s f) true g || footHas (nextFoot s f) false g) with
  | none => none
  | some e =>
    match allEngines.find? fun f => f != e && (footHas (nextFoot s f) true g || footHas (nextFoot s f) false g) with
    | none => none
    | some f => some (e, f)

/-- R28: the lowest granule at which two footprints overlap; it begins some range. -/
def footOverlap (s : State) : Option (Nat × Engine × Engine) :=
  let gs := (allEngines.flatMap fun e => (nextFoot s e).map (·.base)).filter fun g => (overlapAt s g).isSome
  match gs with
  | [] => none
  | g :: r =>
    let m := r.foldl min g
    (overlapAt s m).map fun p => (m, p.1, p.2)

/-- The four ring engines leave a PHASE in one cycle, with their new footprints (R25, R26, R29). -/
def leavePhase (s : State) : State :=
  let s := allEngines.foldl (fun t e => t.setEng e { (t.eng e) with active := nextFoot s e, pending := none }) s
  ringEngines.foldl (fun t e =>
    let x := (t.eng e).toBoundary ((t.eng e).pc + 4) 1
    t.setEng e { x with atPhase := false, wait := none, feWait := none, holdUntil := max x.holdUntil (t.cycle + 1) }) s

/-- An outstanding operation that accesses memory (R25). -/
def Op.touchesMemory (o : Op) : Bool :=
  match o.kind with
  | .result => false
  | .text => true
  | .sysRead => false
  | .load _ _ _ => true
  | .writeBack _ => true
  | .store _ => true
  | .mx (.load _ _) => true
  | .mx (.stream _ _ _ _ _ _) => true
  | .mx (.drain _ _ _ _) => true
  | .mx (.cb _ _ _) => true
  | .mx (.pref _ _) => true
  | .mx _ => false
  | .copy _ => true
  | .transform _ => true

/-- PHASE (R25, R102): a join of the ring engines once every access of the closing phase is complete; operations of a strand that
is set aside are none of its phase. -/
def execPhase (s : State) : Host.Outcome State Fault Refusal :=
  issueControl s (s.cur ≠ .thr && !inBody s) [] fun e =>
    let s := s.setEng e { (s.eng e) with atPhase := true }
    if !(ringEngines.all fun f => (s.eng f).atPhase && !(s.ops.any fun o => o.eng == f && o.touchesMemory && !o.aside s)) then .wait s .other
    else match (if s.ctx.det then footOverlap s else none) with
      | some (g, w, o) =>
        .trap { code := .footprintOverlap, op0 := BitVec.ofNat 64 (16 * g),
                op1 := BitVec.ofNat 64 (w.tag + 8 * o.tag), tag := some 0 }
      | none => .done (leavePhase s)

/-- slipw (R103): the Steward writes WINDOW; the others spend the cycle. -/
def execSlipw (aa : BitVec 5) (imm : BitVec 15) (s : State) : Host.Outcome State Fault Refusal :=
  issueControl s (s.cur ≠ .thr && allUniform s.cur [aa]) [aa] fun e =>
    let s' := if e = .ctl then
        setCtx s { s.ctx with window := clampWindow (((readA s e aa).toNat : Int) + imm.toInt) }
      else s
    .done (passWord s' e)

def execNop (s : State) : Host.Outcome State Fault Refusal := issueControl s true [] fun e => .done (passWord s e)

/-- Everything issued by the ring engines is complete; Pound entries are operations of the MXE. -/
def ringsQuiet (s : State) : Bool := ringEngines.all fun e => !outstanding s e

/-- A running Thresher halts at its boundary and its pending pushes are discarded (R105, R189). -/
def haltThresher (s : State) : State :=
  let s := setCtx s { s.ctx with thrrun := false }
  s.setEng .thr { (s.eng .thr) with pushes := [], wait := none, feWait := none, atStop := true }

/-- The Thresher has reached its own end and its work is complete. -/
def thresherDone (s : State) : Bool := !s.ctx.thrrun && !outstanding s .thr

/-- END (R105). -/
def execEndText (s : State) : Host.Outcome State Fault Refusal :=
  issueControl s (!inBody s) [] fun e =>
    match e with
    | .thr =>
      let s := s.setEng .thr { (s.eng .thr) with atStop := true }
      if outstanding s .thr then .wait s .other else .done (setCtx s { s.ctx with thrrun := false })
    | .ctl =>
      if !((s.eng .bte).atStop && (s.eng .mxe).atStop && (s.eng .vec).atStop && ringsQuiet s) then .wait s .other
      else if bitAt s.ctx.trailer 3 then (if thresherDone s then .done (endItem s 0) else .wait s .other)
      else .done (endItem (haltThresher s) 0)
    | f => .done (s.setEng f { (s.eng f) with atStop := true })

end Sys2Proof.Machine
end

