-- ==== Sys2Proof/Machine/Fetch.lean ====
section
/-! DEFINITION. An engine's slot in a cycle: which engine may act, its walk of the text, the holds before issue, and the
instruction it reaches (R6 to R8, R17, R21, R59 to R67, R84 to R92). -/
namespace Sys2Proof.Machine

/-- What an engine does in its slot of the cycle. -/
inductive Slot where
  /-- it acts without executing an instruction, and its slot is used up: it holds or squashes -/
  | idle (s : State)
  /-- it passes over an instruction of another engine, and its slot goes on -/
  | pass (s : State)
  /-- it executes an instruction, and its slot is used up -/
  | exec (i : Instr)
  /-- it executes a step that uses no issue cycle, and its slot goes on -/
  | free (i : Instr)

/-- The swap that is wanted may stop the engines (R434): the incoming context is not held back by its quota (R475), and no
launch is under way. -/
def swapStops (s : State) : Bool := swapWanted s && s.disp.launching.isNone

/-- An engine that may take steps of its walk; after the end of an item the unnamed engines walk on to the stop point (R429). -/
def engineRuns (s : State) (e : Engine) : Bool :=
  s.ctx.stop.isNone && !swapStops s && (match s.ctx.status with
    | .running => true
    | .handler => true
    | .boundary => e ≠ .ctl
    | .idle => e ≠ .ctl && !s.ctx.text.words.isEmpty
    | _ => false) && (if e = .thr then s.ctx.thrrun else !(s.eng e).atStop)

/-- The smallest walk count among the ring engines (R8). -/
def minWalk (s : State) : Nat :=
  min (min (s.eng .ctl).walk (s.eng .bte).walk) (min (s.eng .mxe).walk (s.eng .vec).walk)

/-- R8: the slip window stops this engine. The Thresher is not counted. -/
def slipHeld (s : State) (e : Engine) : Bool :=
  e ≠ .thr && decide (s.ctx.window.toNat ≤ (s.eng e).walk - minWalk s)

/-! ### Full/empty waits (R161, R162) -/

/-- R162: another engine has waited longer for granules that this request touches (of two that arrived in one cycle, the one with
the lower tag has), can take its slot, and its wait could end now: it is served first. -/
def granuleAhead (s : State) (e : Engine) (gs : List Nat) : Bool :=
  let mine := match (s.eng e).wait with
    | some ⟨.granule _ _ _ _, since, _⟩ => since
    | _ => s.cycle
  allEngines.any fun f => f != e && engineRuns s f && !slipHeld s f && (match (s.eng f).wait with
    | some ⟨.granule _ _ hs want, since, _⟩ =>
      (decide (since < mine) || since == mine && decide (f.tag < e.tag)) && gs.any (hs.contains ·) && granulesAre s hs want
    | _ => false)

/-- The wait of an engine's access for its granules, all in one step; it names the first of them (R161, R162, Table 1.13a). -/
def granuleWait (s : State) (e : Engine) (gs : List Nat) (want : Bool) : Option WaitKind :=
  match gs with
  | [] => none
  | g :: _ =>
    if granulesAre s gs want && !granuleAhead s e gs then none
    else some (.granule (s.coreNo.toNat / 4 * 4 + g / 196608) (g % 196608 * 16) gs want)

/-! ### What holds an engine -/

/-- R21: a STALL hold is in force; one of 7 waits for the results of the operations issued up to its own instruction. -/
def stallHeld (s : State) (e : Engine) : Bool :=
  let x := s.eng e
  decide (s.cycle < x.holdUntil) || (x.drain && s.ops.any fun o => o.eng == e && !o.ws.isEmpty && decide (o.id < x.drainTo))

/-- The engine still has operations of an earlier strand (R429). -/
def carryOver (s : State) (e : Engine) : Bool := s.ops.any fun o => o.eng == e && decide (o.strand < s.ctx.strand) && !o.aside s

/-- What keeps a private instruction of the engine from issuing besides its own waits: pacing (R21), a push that waits (R17). -/
def privateHeld (s : State) (e : Engine) : Option WaitKind :=
  match (pushDue s e).bind (pushFull s e) with
  | some b => some (.push b)
  | none => if s.cycle < (s.eng e).paceUntil then some .other else none

/-- R84: the second word of a private instruction would lie at or beyond the end of the body it stands in. R84 speaks of the bodies
of the loop stack; the body of a modulo loop is treated alike (DESIGN CHOICE: assumption 70). -/
def pairBroken (x : Eng) : Bool :=
  let cut (stop : BitVec 64) : Bool := x.pc + 4 == stop
  match x.seq with
  | some m => cut m.stop
  | none => match x.loops with
    | l :: _ => cut l.stop
    | [] => false

/-- The stage the engine's walk is in is squashed (R87). -/
def squashed (x : Eng) : Bool :=
  match x.seq with
  | some m => !m.live m.stage
  | none => false

/-- A squashed instruction: only the encoding faults of R63 to R67 are raised (R88); the decoder rejects all of them but those of
`squashOk`. -/
def squash (s : State) (e : Engine) (i : Instr) (control : Bool) : Slot :=
  if squashOk i then .idle (if control then passWord s e else passPair s e)
  else .idle (raise s e (if control then stewardTrap e .illegalOp else { code := .illegalOp }))

/-- An instruction that carries a stamp: no hold keeps it from its stamp (R32, R252). -/
def stamped : Option Instr → Bool
  | some (.mload _ st _ _ _ _ _ _ _ _) => st = 1
  | some (.mflip _ st) => st = 1
  | some (.mstream _ st _ _ _ _ _ _ _ _ _ _ _) => st = 1
  | some (.mdrain _ st _ _ _ _ _ _ _ _ _) => st = 1
  | _ => false

/-- The engine that owns a tag of shared text. -/
def tagOwner (t : BitVec 3) : Option Engine :=
  match t.toNat with
  | 0 => some .ctl
  | 1 => some .bte
  | 2 => some .mxe
  | 3 => some .vec
  | 5 => some .ctl
  | _ => none

/-- A tag that no engine of the text owns (R65, Table 2.3). -/
def reservedTag (e : Engine) (w : Word32) : Bool :=
  if e = .thr then field w 28 3 ≠ 4#3 else (tagOwner (field w 28 3)).isNone

/-- A ring engine reaches a private instruction of another engine (R6, R7, R189): passing over it takes no
issue cycle (DEDUCED: assumption 11). A receive point waits for operations of an earlier strand (R429), and a STALL hold does not
stop it (DESIGN CHOICE: assumption 70). -/
def foreign (s : State) (e : Engine) (i : Option Instr) : Slot :=
  match e, i with
  | .ctl, _ => .pass (passPair s e)
  | .thr, _ => .pass (passPair s e)
  | _, some (.abc _ ad _) =>
    if inBodyOf s e then .idle (raise s e (stewardTrap e .illegalOp))
    else if isUniform ad then (if carryOver s e then .idle s else .exec (.abcReceive ad)) else .pass (passPair s e)
  | _, some (.taskend _ _) => .idle (s.setEng e { (s.eng e) with atStop := true, wait := none })
  | _, _ => .pass (passPair s e)
where
  /-- The engine walks the body of a modulo loop. -/
  inBodyOf (s : State) (e : Engine) : Bool := (s.eng e).seq.isSome

/-- The instruction at the engine's boundary, whose first word is `w`. An engine under a STALL hold, or with operations of an
earlier strand (R429), has not yet reached a word that is its own, so a fault of that word comes when the hold is over (DESIGN
CHOICE: assumption 70). The faults that a private instruction's words decide come before every wait (R494). -/
def reach (s : State) (e : Engine) (w : Word32) : Slot :=
  let x := s.eng e
  let kept := stallHeld s e || carryOver s e
  if !bitAt w 31 then
    if kept then .idle s else
    match decode w 0 with
    | none => .exec (.reservedEncoding w 0)
    | some i =>
      if x.seq.isSome && loopmForbidden i then .idle (raise s e (stewardTrap e .illegalOp))
      else if squashed x && i ≠ .stage then squash s e i true
      else .exec i
  else if reservedTag e w then
    if kept then .idle s else .exec (.reservedEncoding w ((fetchWord s e (x.pc + 4)).getD 0))
  else
    match fetchWord s e (x.pc + 4) with
    | none => .idle (raise s e { code := .bounds, op0 := x.pc + 4, op1 := 3 })
    | some v =>
      if pairBroken x then .idle (raise s e { code := .illegalOp })
      else if e ≠ .thr && tagOwner (field w 28 3) ≠ some e then foreign s e (decode w v)
      else if stallHeld s e && !stamped (decode w v) || carryOver s e then .idle s
      else match decode w v with
        | none => .exec (.reservedEncoding w v)
        | some i =>
          if x.seq.isSome && loopmForbidden i then .idle (raise s e (stewardTrap e .illegalOp))
          else if squashed x then squash s e i false
          else if stamped (some i) || !encodingOk i (e = .thr) then .exec i
          else match privateHeld s e with
            | some k => .idle (stall s e k)
            | none => .exec i

/-- Kinds of Table 1.13a: their code and OPERAND0; none for a wait that no rule times. -/
def waitCode : WaitKind → Option (Nat × BitVec 64)
  | .token b => some (1, BitVec.ofNat 64 b)
  | .push b => some (1, BitVec.ofNat 64 b)
  | .granule c o _ _ => some (2, BitVec.ofNat 64 (c * 2 ^ 56 + o))
  | .handle d => some (3, d)
  | .net sc id => some (4, BitVec.ofNat 64 (sc * 16 + id))
  | .arrival ac => some (5, BitVec.ofNat 64 (0x100 + ac))
  | .ring => some (6, 0x110)
  | .object a => some (7, a)
  | .stageQueue st => some (8, BitVec.ofNat 64 (0x200 + st))
  | .bell _ => some (9, 0x300)
  | .miss _ _ _ _ => none
  | .route _ => none
  | .other => none

/-- An engine that the slip window stops stands before no token, granule or other timed object: that wait is over (R8, R18, R20). -/
def slipStop (s : State) (e : Engine) : State :=
  match (s.eng e).wait with
  | some w => if (waitCode w.kind).isSome then s.setEng e { (s.eng e) with wait := none, feWait := none } else s
  | none => s

/-- The slot of engine `e`. -/
def slot (s : State) (e : Engine) : Slot :=
  let x := s.eng e
  if !engineRuns s e then .idle s
  else if slipHeld s e then .idle (slipStop s e)
  else match if e = .mxe then s.mx.parked else none with
  | some t => if s.bell < t then .idle s else .exec .stampedIssue
  | none => match x.seq with
    | some m => if m.between then (if passReady s e m then .free (.loopmPass e) else .idle s) else walk s e x
    | none => walk s e x
where
  /-- Fetches at the boundary (R60). -/
  walk (s : State) (e : Engine) (x : Eng) : Slot :=
    match fetchWord s e x.pc with
    | none => .idle (raise s e { code := .bounds, op0 := x.pc, op1 := 3 })
    | some w => reach s e w

/-- The turn after an engine's. -/
def nextTurn : Engine → Turn
  | .ctl => .eng .bte
  | .bte => .eng .mxe
  | .mxe => .eng .vec
  | .vec => .eng .thr
  | .thr => .close

/-- The slot of `e` is used up. -/
def advance (s : State) (e : Engine) : State := { s with turn := nextTurn e }

/-- A reserved word is reached (R63 to R66): the tags of Table 2.3 fault ILLEGAL_TAG, everything else ILLEGAL_OP;
reserved control words and tags of shared text are reported by the Steward, reserved bank operations with TAG 101 (R385). -/
def execReservedEncoding (w0 _w1 : BitVec 32) (s : State) : Host.Outcome State Fault Refusal :=
  let e := s.cur
  if !bitAt w0 31 then .next (raise s e (stewardTrap e .illegalOp))
  else if reservedTag e w0 then
    .next (raise s e (stewardTrap e .illegalTag))
  else .next (raise s e { code := .illegalOp, tag := if field w0 28 3 = 5#3 then some 5 else none })

end Sys2Proof.Machine
end

