-- ==== Sys2Proof/Machine/Steward.lean ====
section
/-! DEFINITION. The Steward's memory instructions, atomics, fences, barriers, handles, ABC, FOOT and Thresher start
(chapter 4), over operations that bank operations and the Thresher share. -/
namespace Sys2Proof.Machine

/-! ### Ordering (R153, R157, R172) -/

/-- A memory access of an engine is outstanding; a Thresher transform's reads and writes are its accesses. -/
def Op.isAccess (o : Op) : Bool :=
  match o.kind with
  | .load _ _ _ => true
  | .store _ => true
  | .transform _ => true
  | _ => false

/-- An acquire of the engine still has its actions to do. -/
def acquireHeld (s : State) (e : Engine) : Bool := s.ops.any fun o => o.eng == e && (match o.kind with
  | .load (some _) _ _ => true
  | _ => false)

/-- Write-backs of a release of the engine are still on their way. -/
def releaseHeld (s : State) (e : Engine) : Bool := s.ops.any fun o => o.eng == e && (match o.kind with
  | .writeBack _ => true
  | _ => false)

/-- Entries in use: of loads, LDF, atomics and CSRR, or of stores and STF, which bank operations (tag 101) occupy, too (R153,
R385). -/
def entriesUsed (s : State) (stores : Bool) : Nat := (s.ops.filter fun o => o.eng == .ctl && (match o.kind with
  | .load _ _ t => (t == 5) == stores
  | .sysRead => !stores
  | _ => false)).length

/-- The holds of an acquire and, for what a release holds, of a release (R172). -/
def orderNeed (e : Engine) (store : Bool) (s : State) : Option WaitKind :=
  if acquireHeld s e || (store && releaseHeld s e) then some .other else none

/-- The waits that stand before an access: those of order (R172), and for the Steward an entry of the loads or of the stores
(R153). -/
def accessNeed (e : Engine) (store storeEntry : Bool) (s : State) : Option WaitKind :=
  if acquireHeld s e || (store && releaseHeld s e) || (e = .ctl && entriesUsed s storeEntry ≥ 32) then some .other else none

/-- A .sys release that wrote back host lines reads the last of their addresses, with length zero, to flush the port (R157, R488). -/
def hostFlush (s : State) (scope : BitVec 3) (l : Overlay) : State :=
  match if scope = 4 then (l.filter fun c => paClass s.pkgNo c.1 == .host).getLast? else none with
  | some c => { s with pcie := s.pcie ++ [⟨s.ctx.part, c.1 - hostBase, 0, false⟩] }
  | none => s

/-- R157 and R172: the actions of a release at a scope, before its own write: it waits for the engine's earlier accesses,
starts its write-backs once, and waits for their acknowledgement. The result says whether it may go on. -/
def releasePrep (s : State) (e : Engine) (scope : BitVec 3) : State × Bool :=
  if s.ops.any fun o => o.eng == e && o.isAccess then (s, false)
  else if (s.eng e).prepared then (s, !releaseHeld s e)
  else if dirtyAt s scope then
    let t := hostFlush (releaseActions s scope) scope (s.l1.dirty ++ s.qc.dirty)
    if scope.toNat < 2 then (t, true)
    else
      let t := addVarOp t e [] (.writeBack scope)
      (t.setEng e { (t.eng e) with prepared := true }, false)
  else (s, true)

/-- The wider of two scopes. -/
def widerScope (a b : Option (BitVec 3)) : Option (BitVec 3) :=
  match a, b with
  | some x, some y => some (if x.toNat < y.toNat then y else x)
  | some x, none => some x
  | none, y => y

/-- The scope of a full/empty release or acquire (R163). -/
def feScope (r : Rec) (on : Bool) : Option (BitVec 3) := if on then some (if r.space = 2 then 1 else 0) else none

/-- The scope that an ordered form names: its field, or the record's with SD (R169). -/
def ordScope (on : Bool) (sd : BitVec 1) (scope : BitVec 3) (r : Rec) : Option (BitVec 3) :=
  if on then some (if sd = 1 then r.scope else scope) else none

/-! ### Accesses (R160, R161, R171) -/

/-- Where a scalar access falls. -/
inductive SAcc where
  | clip
  | ok (a : Nat) (p : Place)
  | wait (k : WaitKind)
  | trap (t : Trap)
deriving DecidableEq, Repr

/-- R394: a plain store touches an armed barrier line. -/
def clobbers (s : State) (r : Rec) (a n : Nat) : Bool :=
  r.space = 3 && ((List.range n).any fun i => armedLine s (r.key s (a + i)))

/-- The checks of a scalar access of `n` bytes at offset `o` of a record, in the order of R494. -/
def scalarPlace (s : State) (e : Engine) (r : Rec) (o : Int) (n : Nat) (acc : Acc) (useScope feOn : Bool) : SAcc :=
  let a := (r.baseAddr.1 : Int) + o
  if feOn && !r.isScratch then .trap { code := .illegalOp }
  else match r.check useScope with
    | some t => .trap t
    | none =>
      if !r.stewardIn o n then
        if r.bmode = 0 || r.pastLimit a n then .trap (accTrap .bounds r a acc) else .clip
      else match rangeCheck s e r a n acc with
        | some t => .trap t
        | none =>
          match placeOf s r a.toNat n acc with
          | .wait k => .wait k
          | .trap t => .trap t
          | .ok p => if acc.writes && clobbers s r a.toNat n then .trap (accTrap .barrierClobber r a acc) else .ok a.toNat p

/-- Granules of a scratchpad access. -/
def accGranules (s : State) (r : Rec) (a n : Nat) : List Nat := rangeGranules (r.core s) (r.spOff a) n

/-- Extension of the low `8 n` bits of a loaded value (R171). -/
def extendLoad (n : Nat) (zext : Bool) (v : Nat) : BitVec 64 :=
  if zext then BitVec.ofNat 64 v else BitVec.ofInt 64 (intValue (8 * n) true v)

/-- The register write of a destination that may be a0, whose value is discarded. -/
def destWrite (ad : BitVec 5) (v : BitVec 64) : List RegWrite := if ad = 0 then [] else [.a ad.toNat v]

/-- Value of a signed offset operand: `sint(A[aa]) + sint(imm)`. -/
def signedOff {w : Nat} (s : State) (e : Engine) (aa : BitVec 5) (imm : BitVec w) : Int := (readA s e aa).toInt + imm.toInt

/-- Handles whose bytes a scalar access touches (R166). -/
def accHandles (s : State) (r : Rec) (a n : Nat) : List Nat := if r.isScratch then rangeHandles (r.core s) (r.spOff a) n else []

/-- ld and tld (R171, R374): `fe` 1 waits for full granules, 2 also empties them; `acq` an acquire at a scope. The address that a
POISON record gives for a scratchpad or Commons access, which has no virtual address, is its base-field form (DEDUCED:
assumption 9). -/
def loadBody (e : Engine) (r : Rec) (o : Int) (n : Nat) (zext useScope : Bool) (fe : BitVec 2) (acq : Option (BitVec 3))
    (ad : BitVec 5) (s : State) : Res :=
  match scalarPlace s e r o n .read useScope (fe ≠ 0) with
  | .trap t => .trap t
  | .wait k => .wait s k
  | .clip => .done (addVarOp s e (destWrite ad 0) (.load acq none 0))
  | .ok a p =>
    let gs := if fe = 0 then [] else accGranules s r a n
    match granuleWait s e gs true with
    | some k => .wait s k
    | none =>
      let scope := widerScope acq (feScope r (fe ≠ 0))
      let t := readState (requestFlits s e .read p.keys) r.cache (scopePoint scope) p
      let v := leValue (readPlace t.1 (scopePoint scope) p)
      let s := if fe = 2 then setFull t.1 gs false else t.1
      let bad := if t.2 then some (Code.poison, r.faultAddr (a : Int)) else none
      .done (withAccess (addVarOp s e (destWrite ad (extendLoad n zext v)) (.load scope bad 0))
        s.nextId (r.faultAddr (a : Int)) (accHandles s r a n))

/-- A release store writes at its scope's point (Table 4.4). -/
def releaseWrite (s : State) (scope : Option (BitVec 3)) (cache : BitVec 3) (p : Place) (bs : List Byte) : State :=
  match p with
  | .local _ => writePlace s cache p bs
  | .global ls =>
    if scopePoint scope = 0 then writePlace s cache p bs
    else
      let l := ls.zip bs
      let plain := (l.filter fun c => !c.1.2).map fun c => (c.1.1, c.2)
      let side := (l.filter (·.1.2)).map fun c => (c.1.1, c.2)
      let s := if plain.isEmpty then s else if scopePoint scope = 1 then quadWrite s cache plain else homeStore s cache plain
      if side.isEmpty then s else homeWriteVia s cache side

/-- st and tst (R171, R374): `fe` 1 sets its granules full, 2 first waits until they are empty. The whole access, each of its bytes,
is performed at its issue, and so in program order; R33 and R35 leave both orders open (DESIGN CHOICE: assumption 68). -/
def storeBody (e : Engine) (r : Rec) (o : Int) (n : Nat) (useScope : Bool) (fe : BitVec 2) (rel : Option (BitVec 3))
    (v : BitVec 64) (s : State) : Res :=
  match scalarPlace s e r o n .write useScope (fe ≠ 0) with
  | .trap t => .trap t
  | .wait k => .wait s k
  | .clip => .done s
  | .ok a p =>
    let gs := if fe = 0 then [] else accGranules s r a n
    match granuleWait s e (if fe = 2 then gs else []) false with
    | some k => .wait s k
    | none =>
      let write (s : State) (sc : Option (BitVec 3)) : State :=
        setFull (releaseWrite (requestFlits s e .write p.keys) sc r.cache p (leBytes n v.toNat)) gs true
      match widerScope rel (feScope r (fe ≠ 0)) with
      | none => .done (write s none)
      | some sc =>
        match releasePrep s e sc with
        | (t, false) => .wait t .other
        | (t, true) => .done (write t (some sc))

def accBytes (size : BitVec 2) : Nat := 2 ^ size.toNat

def execLd (h : Hdr) (fe : BitVec 2) (sd : BitVec 1) (scope : BitVec 3) (ord : BitVec 2) (zext : BitVec 1)
    (size : BitVec 2) (ad : BitVec 5) (bf : BitVec 4) (aa : BitVec 5) (imm : BitVec 18) (s : State) :
    Host.Outcome State Fault Refusal :=
  issuePrivate s .ctl h none (encodingOk (.ld h fe sd scope ord zext size ad bf aa imm) false) [ra aa]
    (accessNeed .ctl false false) fun s =>
      let r := recOf s .ctl bf
      loadBody .ctl r (signedOff s .ctl aa imm) (accBytes size) (zext = 1) (sd = 1) fe
        (ordScope (ord ≠ 0) sd scope r) ad s

def execSt (h : Hdr) (fe : BitVec 2) (sd : BitVec 1) (scope : BitVec 3) (ord : BitVec 2) (zext : BitVec 1)
    (size : BitVec 2) (src : BitVec 5) (bf : BitVec 4) (aa : BitVec 5) (imm : BitVec 18) (s : State) :
    Host.Outcome State Fault Refusal :=
  issuePrivate s .ctl h none (encodingOk (.st h fe sd scope ord zext size src bf aa imm) false) [ra aa, ra src]
    (accessNeed .ctl true true) fun s =>
      let r := recOf s .ctl bf
      storeBody .ctl r (signedOff s .ctl aa imm) (accBytes size) (sd = 1) fe (ordScope (ord ≠ 0) sd scope r)
        (readA s .ctl src) s

/-! ### ldf and stf (R173) -/

/-- The byte address of the first granule of ldf and stf, rounded down, where there is work to do; or the fault of its record. EXT0
and BMODE are not applied: for stf the spec says so, for ldf it is silent (DESIGN CHOICE: assumption 73). -/
def granuleBase (s : State) (bf : BitVec 4) (aa : BitVec 5) (imm : BitVec 18) (acc : Acc) (work : Bool) : Trap ⊕ (Rec × Nat) :=
  let r := recOf s .ctl bf
  let a := (r.baseAddr.1 : Int) + signedOff s .ctl aa imm
  if !r.isScratch then .inl { code := .illegalOp }
  else match r.check false with
    | some t => .inl t
    | none =>
      if work && (!r.baseAddr.2 || a < 0 || (r.limit : Int) ≤ a) then .inl (accTrap .bounds r a acc)
      else .inr (r, a.toNat / 16 * 16)

def execLdf (h : Hdr) (ad : BitVec 5) (bf : BitVec 4) (aa : BitVec 5) (imm : BitVec 18) (s : State) :
    Host.Outcome State Fault Refusal :=
  issuePrivate s .ctl h none (encodingOk (.ldf h ad bf aa imm) false) [ra aa] (accessNeed .ctl false false) fun s =>
    match granuleBase s bf aa imm .read true with
    | .inl t => .trap t
    | .inr (r, a) =>
      let n := min 1024 (r.limit - a)
      match rangeCheck s .ctl r (a : Int) n .read with
      | some t => .trap t
      | none =>
        let gs := accGranules s r a n
        let v := leValue ((List.range 8).map fun i => (List.range 8).foldl (fun (b : Byte) j =>
          match gs[8 * i + j]? with
          | some g => if granuleFull s g then b ||| (1#8 <<< j) else b
          | none => b) 0)
        .done (withAccess (addVarOp s .ctl (destWrite ad (BitVec.ofNat 64 v)) (.load none none 0)) s.nextId 0
          (accHandles s r a n))

/-- stf (R173); a count of 0 does nothing. -/
def execStf (h : Hdr) (full : BitVec 1) (ab : BitVec 5) (bf : BitVec 4) (aa : BitVec 5) (imm : BitVec 18) (s : State) :
    Host.Outcome State Fault Refusal :=
  issuePrivate s .ctl h none (encodingOk (.stf h full ab bf aa imm) false) [ra aa, ra ab] (accessNeed .ctl true true)
    fun s =>
      let n := 16 * (readA s .ctl ab).toNat
      match granuleBase s bf aa imm .write (n ≠ 0) with
      | .inl t => .trap t
      | .inr (r, a) =>
        if n = 0 then .done s
        else match rangeCheck s .ctl r (a : Int) n .write with
        | some t => .trap t
        | none =>
          if full = 0 then .done (setFull s (accGranules s r a n) false)
          else match releasePrep s .ctl (if r.space = 2 then 1 else 0) with
            | (t, false) => .wait t .other
            | (t, true) => .done (setFull t (accGranules s r a n) true)

/-! ### Atomics (R41, R175, R176, R395, R396) -/

/-- Table 4.9 on `w` bits. -/
def atomicNew (op : BitVec 4) (w : Nat) (old v c : Nat) : Nat :=
  let so := intValue w true old
  let sv := intValue w true v
  match op.toNat with
  | 0 => (old + v) % 2 ^ w
  | 1 => old &&& v
  | 2 => old ||| v
  | 3 => old ^^^ v
  | 4 => if sv < so then v else old
  | 5 => if so < sv then v else old
  | 6 => min old v
  | 7 => max old v
  | 8 => v
  | _ => if old = c then v else old

/-- The executing unit of a location (R396): a Commons bank, a base-die unit of a package (by stack and 64-byte line, DESIGN CHOICE:
assumption 10), or a work queue's register unit. -/
def unitOf (pkgNo : BitVec 10) (key : Nat) : Nat :=
  if 2 ^ 61 ≤ key then 2 ^ 20 + (key - 2 ^ 61) / 2 ^ 26 * 64 + (key - 2 ^ 61) % 2 ^ 26 / 256 % 64
  else
    let pkg := if key < 2 ^ 40 then pkgNo.toNat else key / 2 ^ 40 % 1024
    2 ^ 42 + pkg * 1024 + key / 2 ^ 36 % 16 * 64 + key / 64 % 64

/-- The request's unit. -/
def atomicUnit (pkgNo : BitVec 10) (q : AtomicReq) : Nat :=
  match q.kind with
  | .rmw _ _ _ _ => unitOf pkgNo q.key
  | .reserve n _ => 2 ^ 40 + n

/-- The source port of the host port (R396). -/
def hostPortNo (s : State) : Nat := s.pkgNo.toNat * 4096 + 2048

/-- A reservation on a work queue's write index (R409): the old index. -/
def reserveIndex (s : State) (q : Nat) (count : BitVec 64) : BitVec 64 × State :=
  let w := getWq s q
  (w.widx, setWq s q { w with widx := w.widx + count })

/-- One atomic step at its unit: the old value, and the state after; an armed barrier line and an uncorrectable word
are not changed (R384, R394). An update in HBM is a raw write, which no cache takes (R395, R402). -/
def performAtomic (s : State) (q : AtomicReq) : BitVec 64 × State :=
  match q.kind with
  | .reserve n count => reserveIndex s n count
  | .rmw op wide v c =>
    let n := if wide then 8 else 4
    let s := homePrep s (if q.key < 2 ^ 60 then keyRange q.key n else [])
    let old := memVal s q.key n
    let bytes := (keyRange q.key n).zip (leBytes n (atomicNew op (8 * n) old (v.toNat % 2 ^ (8 * n)) (c.toNat % 2 ^ (8 * n))))
    let t := if armedLine s q.key || poisoned s (keyRange q.key n) then s
      else if q.key < 2 ^ 60 then homeWriteVia s 2 bytes else rawWrite s bytes
    (BitVec.ofInt 64 (intValue (8 * n) true old), t)

/-- Keeps the last 64 replies of a port at a unit (R396). -/
def remember (l : List Reply) (r : Reply) : List Reply :=
  let mine := l.filter fun x => x.unit == r.unit && x.port == r.port
  let l := if mine.length < 64 then l
    else match mine.head? with
      | some x => l.erase x
      | none => l
  l ++ [r]

/-- R396: a request whose tag matches a remembered reply gets that reply and is not applied again. -/
def applyAtomic (s : State) (q : AtomicReq) : BitVec 64 × State :=
  match s.replies.find? fun r => r.unit == (atomicUnit s.pkgNo q) && r.port == q.port && r.seqNo == q.seqNo with
  | some r => (r.old, s)
  | none =>
    let t := performAtomic s q
    (t.1, { t.2 with replies := remember t.2.replies ⟨atomicUnit s.pkgNo q, q.port, q.seqNo, t.1⟩ })

/-- An engine's atomic step that its unit has just performed carries the engine's next tag, and the unit remembers the reply
(R396). -/
def noteStep (s : State) (e : Engine) (key : Nat) (old : BitVec 64) : State :=
  let seqNo := s.portSeq.getD e.tag 0
  { s with portSeq := s.portSeq.setIfInBounds e.tag (seqNo + 1)
           replies := remember s.replies ⟨unitOf s.pkgNo key, corePort s e, seqNo, old⟩ }

/-- Sends an engine's next atomic request. -/
def sendAtomic (s : State) (e : Engine) (key : Nat) (kind : AtomicKind) : BitVec 64 × State :=
  let seqNo := s.portSeq.getD e.tag 0
  applyAtomic { s with portSeq := s.portSeq.setIfInBounds e.tag (seqNo + 1) } ⟨corePort s e, seqNo, key, kind⟩

def execAtom (h : Hdr) (fe : BitVec 2) (sd : BitVec 1) (scope : BitVec 3) (ord : BitVec 2) (zext : BitVec 1)
    (size : BitVec 2) (ad : BitVec 5) (bf : BitVec 4) (aa : BitVec 5) (ab : BitVec 5) (op : BitVec 4) (imm : BitVec 9)
    (s : State) : Host.Outcome State Fault Refusal :=
  issuePrivate s .ctl h none (encodingOk (.atom h fe sd scope ord zext size ad bf aa ab op imm) false)
    ([ra aa, ra ab] ++ (if op = 9 then [ra ad] else [])) (accessNeed .ctl true false) fun s =>
      let r := recOf s .ctl bf
      let o := signedOff s .ctl aa imm
      let n := accBytes size
      let a := (r.baseAddr.1 : Int) + o
      let acq := ordScope (bitAt ord 0) sd scope r
      if r.isScratch then .trap { code := .illegalOp }
      else if (r.check (sd = 1)).isNone && r.stewardIn o n && a % (n : Int) ≠ 0 then .trap (accTrap .bounds r a .atomic)
      else match scalarPlace s .ctl r o n .atomic (sd = 1) false with
        | .trap t => .trap t
        | .wait k => .wait s k
        | .clip => .done (addVarOp s .ctl (destWrite ad 0) (.load acq none 0))
        | .ok _ p =>
          let key := p.keys.headD 0
          if (match p with
            | .global ls => ls.any fun l => !l.2
            | .local _ => false) then .trap (accTrap .permission r a .atomic)
          else
            let ready : State × Bool := match ordScope (bitAt ord 1) sd scope r with
              | some sc => releasePrep s .ctl sc
              | none => (s, true)
            if !ready.2 then .wait ready.1 .other
            else
              let s := ready.1
              let bad := if poisoned s p.keys then some (Code.poison, r.faultAddr a) else none
              let t := sendAtomic (requestFlits s .ctl .atomic [key]) .ctl key (.rmw op (size = 3) (readA s .ctl ab) (if op = 9 then readA s .ctl ad else 0))
              .done (addVarOp t.2 .ctl (destWrite ad t.1) (.load acq bad 0))

/-- A tagged request reaches its executing unit (R396). -/
def execAtomicRequest (req : AtomicReq) (s : State) : Host.Outcome State Fault Refusal := .next (applyAtomic s req).2

/-! ### Fences (R174) -/

def execFence (h : Hdr) (scope : BitVec 3) (ord : BitVec 2) (s : State) : Host.Outcome State Fault Refusal :=
  issuePrivate s .ctl h none (encodingOk (.fence h scope ord) false) [] (orderNeed .ctl true) fun s =>
    if s.ops.any fun o => o.eng == .ctl && o.isAccess then .wait s .other
    else
      let ready : State × Bool := if bitAt ord 1 then releasePrep s .ctl scope else (s, true)
      if !ready.2 then .wait ready.1 .other
      else .done (if bitAt ord 0 then cacheActions ready.1 scope else ready.1)

/-! ### Barriers on the hardware networks (R177 to R179, R377) -/

def netIdx (scope : BitVec 3) (bid : BitVec 4) : Nat := scope.toNat * 16 + bid.toNat
def getNet (s : State) (i : Nat) : Net := s.nets.getD i Net.reset
def setNet (s : State) (i : Nat) (n : Net) : State := { s with nets := s.nets.setIfInBounds i n }

/-- Episode of a participant's latest arrival: the Thresher's, or its core's. -/
def Net.latest (n : Net) (e : Engine) : Option Nat := if e = .thr then n.thr else n.mine

/-- The participant's latest arrival belongs to an episode that is not complete. -/
def Net.pendingFor (n : Net) (e : Engine) : Bool :=
  match n.latest e with
  | some ep => ep == n.episode
  | none => false

/-- An arrival with a count (R177). -/
def Net.arrive (n : Net) (e : Engine) (count : BitVec 64) : Net :=
  let c := if count = 0 then 1 else count.toNat
  let target := if n.arrived = 0 then c else n.target
  let n := if e = .thr then { n with thr := some n.episode } else { n with mine := some n.episode }
  if n.arrived + 1 ≥ target then { n with arrived := 0, target := 0, episode := n.episode + 1 }
  else { n with arrived := n.arrived + 1, target := target }

/-- The package whose declaration abandoned an episode; of several at one tick the lowest (R179, R462). -/
def Net.abandonedBy (n : Net) (ep : Nat) : Option Nat :=
  match (n.abandoned.filter (·.1 == ep)).map (·.2) with
  | [] => none
  | p :: ps => some (ps.foldl min p)

/-- The wait of barw, bars and their Thresher forms (R178, R179). -/
def netWait (s : State) (e : Engine) (scope : BitVec 3) (bid : BitVec 4) : Res :=
  let n := getNet s (netIdx scope bid)
  match n.latest e with
  | none => .done (cacheActions s scope)
  | some ep =>
    match n.abandonedBy ep with
    | some p => .trap { code := .peerSilent, op0 := silentOperand s p }
    | none => if ep < n.episode then .done (cacheActions s scope) else .wait s (.net scope.toNat bid.toNat)

/-- The arrival of bara, bars and their Thresher forms; a previous episode that is not complete makes it wait (R178). -/
def netArrive (s : State) (e : Engine) (scope : BitVec 3) (bid : BitVec 4) (count : BitVec 64) : State × Bool :=
  let i := netIdx scope bid
  if (getNet s i).pendingFor e then (s, false)
  else match releasePrep s e scope with
    | (t, false) => (t, false)
    | (t, true) => (setNet t i ((getNet t i).arrive e count), true)

def arriveBody (e : Engine) (scope : BitVec 3) (bid : BitVec 4) (count : BitVec 64) (s : State) : Res :=
  match netArrive s e scope bid count with
  | (t, true) => .done t
  | (t, false) => .wait t .other

/-- bars: an arrival, once, and then the wait. -/
def arriveWaitBody (e : Engine) (scope : BitVec 3) (bid : BitVec 4) (count : BitVec 64) (s : State) : Res :=
  if (s.eng e).begun then netWait s e scope bid
  else match netArrive s e scope bid count with
    | (t, false) => .wait t .other
    | (t, true) => netWait (t.setEng e { (t.eng e) with begun := true }) e scope bid

def execBara (h : Hdr) (scope : BitVec 3) (ad aa ab : BitVec 5) (bid : BitVec 4) (s : State) :
    Host.Outcome State Fault Refusal :=
  issuePrivate s .ctl h none (encodingOk (.bara h scope ad aa ab bid) false) [ra aa] noNeed fun s =>
    arriveBody .ctl scope bid (readA s .ctl aa) s

def execBarw (h : Hdr) (scope : BitVec 3) (ad ab : BitVec 5) (bid : BitVec 4) (s : State) :
    Host.Outcome State Fault Refusal :=
  issuePrivate s .ctl h none (encodingOk (.barw h scope ad ab bid) false) [] noNeed fun s => netWait s .ctl scope bid

def execBars (h : Hdr) (scope : BitVec 3) (ad aa ab : BitVec 5) (bid : BitVec 4) (s : State) :
    Host.Outcome State Fault Refusal :=
  issuePrivate s .ctl h none (encodingOk (.bars h scope ad aa ab bid) false) [ra aa] noNeed fun s =>
    arriveWaitBody .ctl scope bid (readA s .ctl aa) s

/-! ### Handles (R164 to R168) -/

/-- OPERAND0 for a designation: the first byte of the handle in the form of space 0b10 (DEDUCED: assumption 9). -/
def designationAddr (d : BitVec 64) : BitVec 64 := ((d &&& 0xFF) <<< 16) ||| (2#64 <<< 57)

def handleTrap (code : Code) (d : BitVec 64) (acc : Acc) : Trap :=
  { code := code, op0 := designationAddr d, op1 := acc.code }

/-- R164: a legal designation, ANY aside. -/
def designationOk (d : BitVec 64) : Bool := decide ((field d 0 6).toNat < 48) && field d 8 56 = 0#56

/-- The designation's place in `State.handles`, and whether its handle lies in the context's window (R155). -/
def handleIdx (d : BitVec 64) : Nat := (field d 6 2).toNat * 48 + (field d 0 6).toNat
def handleInWindow (s : State) (d : BitVec 64) : Bool := inWindow s ((field d 0 6).toNat * 0x10000) 1

def execHgive (h : Hdr) (aa ab : BitVec 5) (imm : BitVec 13) (s : State) : Host.Outcome State Fault Refusal :=
  issuePrivate s .ctl h none (encodingOk (.hgive h aa ab imm) false) [ra aa, ra ab] (orderNeed .ctl true) fun s =>
    let d := readA s .ctl aa
    let g := readA s .ctl ab
    let me : BitVec 2 := field s.coreNo 0 2
    if !designationOk d || !handleInWindow s d || field g 2 62 ≠ 0#62 then .trap (handleTrap .bounds d .write)
    else if s.handles.getD (handleIdx d) .text ≠ .held me then .trap (handleTrap .handleNotHeld d .write)
    else if s.ops.any fun o => o.touches.contains (handleIdx d) then .wait s .other
    else match releasePrep s .ctl 1 with
      | (t, false) => .wait t .other
      | (t, true) =>
        let dest : BitVec 2 := field g 0 2
        .done (setHandle t (handleIdx d) (if dest = me then .held me else .transit me dest))

/-- The smallest designation in transit to this core and in its window (R167). -/
def transitTo (s : State) (me : BitVec 2) : Option Nat := (List.range 256).find? fun d =>
  match s.handles.getD (d / 64 * 48 + d % 64) .text with
  | .transit _ t => t == me && decide (d % 64 < 48) && handleInWindow s (BitVec.ofNat 64 d)
  | _ => false

def execHtake (h : Hdr) (ad aa : BitVec 5) (imm : BitVec 13) (s : State) : Host.Outcome State Fault Refusal :=
  issuePrivate s .ctl h none (encodingOk (.htake h ad aa imm) false) [ra aa] (orderNeed .ctl false) fun s =>
    let d := readA s .ctl aa
    let me : BitVec 2 := field s.coreNo 0 2
    let take (s : State) (n : Nat) : Res :=
      let s := cacheActions (setHandle s (n / 64 * 48 + n % 64) (.held me)) 1
      .done (addVarOp s .ctl (destWrite ad (BitVec.ofNat 64 n)) .result)
    if bitAt d 63 then
      if field d 8 55 ≠ 0#55 then .trap (handleTrap .bounds d .read)
      else match transitTo s me with
        | some n => take s n
        | none => .wait s (.handle d)
    else if !designationOk d || !handleInWindow s d then .trap (handleTrap .bounds d .read)
    else match s.handles.getD (handleIdx d) .text with
      | .transit _ t => if t = me then take s (field d 0 8).toNat else .wait s (.handle d)
      | _ => .wait s (.handle d)

/-- What hqry writes (R168); a handle that holds text reads as its own core's. -/
def handleState (d : BitVec 64) : Handle → BitVec 64
  | .held c => c.setWidth 64
  | .transit g t => (0#59 ++ t ++ 1#1 ++ g)
  | .text => (field d 6 2).setWidth 64

def execHqry (h : Hdr) (ad aa : BitVec 5) (imm : BitVec 13) (s : State) : Host.Outcome State Fault Refusal :=
  issuePrivate s .ctl h none (encodingOk (.hqry h ad aa imm) false) [ra aa] noNeed fun s =>
    let d := readA s .ctl aa
    if !designationOk d || !handleInWindow s d then .trap (handleTrap .bounds d .read)
    else .done (addVarOp s .ctl (destWrite ad (handleState d (s.handles.getD (handleIdx d) .text))) .result)

/-! ### ABC (R7, R13, R180) -/

def abcQueue (s : State) : Engine → List (BitVec 5 × BitVec 64)
  | .bte => s.ctx.abcBte
  | .mxe => s.ctx.abcMxe
  | .vec => s.ctx.abcVec
  | _ => []

def setAbcQueue (s : State) (e : Engine) (q : List (BitVec 5 × BitVec 64)) : State :=
  match e with
  | .bte => setCtx s { s.ctx with abcBte := q }
  | .mxe => setCtx s { s.ctx with abcMxe := q }
  | .vec => setCtx s { s.ctx with abcVec := q }
  | _ => s

def execAbc (h : Hdr) (ad aa : BitVec 5) (s : State) : Host.Outcome State Fault Refusal :=
  issuePrivate s .ctl h none (encodingOk (.abc h ad aa) false) [ra aa] noNeed fun s =>
    let full := ([Engine.bte, .mxe, .vec].any fun e => decide (4 ≤ (abcQueue s e).length))
    if full then .wait s .other
    else
      let v := readA s .ctl aa
      .done (ctlResult ([Engine.bte, .mxe, .vec].foldl (fun t e => setAbcQueue t e (abcQueue t e ++ [(ad, v)])) s) .ctl ad v)

/-- A receive point: the BTE, MXE or VEC takes the oldest entry of its queue (R13). -/
def execAbcReceive (dst : BitVec 5) (s : State) : Host.Outcome State Fault Refusal :=
  let e := s.cur
  match abcQueue s e with
  | [] => .next (stall s e .other)
  | (d, v) :: r => .next (clearWait (passPair (ctlResult (setAbcQueue s e r) e (if d = 0 then dst else d) v) e) e)

/-! ### FOOT (R181, R182) -/

/-- The local scratchpad as a record. -/
def localRec : Rec := { Rec.of 0 with space := 1 }

def engineOf (code : BitVec 3) : Engine :=
  match code.toNat with
  | 1 => .bte
  | 2 => .mxe
  | 3 => .vec
  | 4 => .thr
  | _ => .ctl

def footEntry (b : List Byte) (i : Nat) : BitVec 64 := BitVec.ofNat 64 (leValue ((b.drop (8 * i)).take 8))

def execFoot (h : Hdr) (eng : BitVec 3) (aa : BitVec 5) (imm : BitVec 13) (s : State) : Host.Outcome State Fault Refusal :=
  issuePrivate s .ctl h none (encodingOk (.foot h eng aa imm) false) [ra aa] (orderNeed .ctl false) fun s =>
    let a := (readA s .ctl aa).toNat + imm.toNat
    let b := rawRead s (keyRange (scratchKey s.coreNo.toNat a) 64)
    if a % 8 ≠ 0 || 0x300000 < a + 64 || !inWindow s a 64 then .trap (accTrap .bounds localRec (a : Int) .read)
    else if (List.range 8).any fun i => field (footEntry b i) 38 26 ≠ 0#26 then .trap { code := .illegalOp }
    else if (List.range 8).any fun i => let w := footEntry b i
        field w 36 2 ≠ 0#2 && decide (196608 < (field w 0 18).toNat + (field w 18 18).toNat) then
      .trap (accTrap .bounds localRec (a : Int) .read)
    else match rangeCheck s .ctl localRec (a : Int) 64 .read with
      | some t => .trap t
      | none =>
        let e := engineOf eng
        .done (s.setEng e { (s.eng e) with pending := some (footEntries b) })

/-! ### BELLR, tokens to the Thresher and its start (R30, R184 to R186) -/

/-- The Bell as a strand reads it. -/
def bellRead (s : State) : BitVec 64 :=
  if s.ctx.det then (s.bell >>> s.ctx.perlog2.toNat) <<< s.ctx.perlog2.toNat else s.bell

def execBellr (h : Hdr) (ad : BitVec 5) (s : State) : Host.Outcome State Fault Refusal :=
  issuePrivate s .ctl h none (encodingOk (.bellr h ad) false) [] noNeed fun s =>
    .done (addVarOp s .ctl (destWrite ad (bellRead s)) .result)

def execTtok (h : Hdr) (n : BitVec 4) (s : State) : Host.Outcome State Fault Refusal :=
  issuePrivate s .ctl h none (encodingOk (.ttok h n) false) []
    (fun s => if pushCrowded s .ctl then some .other else none) fun s =>
    .done (queuePush s .ctl false false n.toNat s.nextId)

/-- The Thresher's registers, stack and sequencer cleared, about to run from byte offset `pc` (R186); pushes of its last run that
are still pending stay (R105). -/
def freshThresher (x : Eng) (pc hold : Nat) : Eng :=
  { Eng.reset with pc := BitVec.ofNat 64 pc, active := x.active, pending := x.pending, pushes := x.pushes, holdUntil := hold }

def execTstart (h : Hdr) (aa ab : BitVec 5) (entry : BitVec 12) (s : State) : Host.Outcome State Fault Refusal :=
  issuePrivate s .ctl h none (encodingOk (.tstart h aa ab entry) false) [ra aa, ra ab]
    (fun s => if s.ctx.thrrun || outstanding s .thr then some .other else orderNeed .ctl false s) fun s =>
      let src := (readA s .ctl aa).toNat
      let len := (readA s .ctl ab).toNat
      if 16384 < len || len % 4 ≠ 0 || src % 16 ≠ 0 then .trap (accTrap .bounds localRec (src : Int) .read)
      else match (if len = 0 then none else rangeCheck s .ctl localRec (src : Int) len .read) with
        | some t => .trap t
        | none =>
          let b := rawRead s (keyRange (scratchKey s.coreNo.toNat src) len)
          let lat := ceilDiv len 64
          let s := setCtx s { s.ctx with
            imem := memWrite s.ctx.imem ((List.range len).zip b)
            imemLen := if len = 0 then s.ctx.imemLen else len
            thrrun := true }
          let s := tokSet (tokSet s 8 0) 9 0
          let c := s.eng .ctl
          let s := s.setEng .ctl { c with pushes := c.pushes.map fun p => { p with ct := 0 } }
          let s := s.setEng .thr (freshThresher (s.eng .thr) (4 * entry.toNat) (s.cycle + lat + 1))
          .done (withAccess (addOp s .ctl lat [] false {} .text) s.nextId 0 (rangeHandles s.coreNo.toNat src len))

/-! ### TRAP and TASKEND (R187, R189) -/

def execTrap (h : Hdr) (imm : BitVec 13) (s : State) : Host.Outcome State Fault Refusal :=
  issuePrivate s .ctl h none (encodingOk (.trap h imm) false) [] noNeed fun _ =>
    .trap { code := .trap, op0 := imm.setWidth 64 }

/-- Engines of the trailer mask have reached the stop point and their work is complete (R189 step 1). -/
def trailerReached (s : State) : Bool :=
  let m := s.ctx.trailer
  (!bitAt m 0 || ((s.eng .bte).atStop && !outstanding s .bte)) &&
  (!bitAt m 1 || ((s.eng .mxe).atStop && !outstanding s .mxe)) &&
  (!bitAt m 2 || ((s.eng .vec).atStop && !outstanding s .vec)) &&
  (!bitAt m 3 || thresherDone s) && !outstanding s .ctl

def execTaskend (h : Hdr) (aa : BitVec 5) (s : State) : Host.Outcome State Fault Refusal :=
  issuePrivate s .ctl h none (encodingOk (.taskend h aa) false) [ra aa] noNeed fun s =>
    if !trailerReached s then .wait s .other
    else
      let s := if bitAt s.ctx.trailer 3 then s else haltThresher s
      .done (endItem s (readA s .ctl aa))

end Sys2Proof.Machine
end

