-- ==== Sys2Proof/Machine/Elements.lean ====
section
/-! DEFINITION. Accesses by element, shared by the engines that walk whole records (chapters 5 to 10): the byte spans of an
element with its scales, their checks, where each byte lies, reading, writing and decoding. -/
namespace Sys2Proof.Machine

/-! ### Spans and their checks (R95, R127, R218, R494) -/

/-- A run of bytes at an address of a record's space. -/
structure Span where
  a : Int
  n : Nat
deriving DecidableEq, Repr, Inhabited

/-- R95 for a row whose indices may be negative. -/
def Rec.rowAt (r : Rec) (i1 i2 : Int) : Int := (r.baseAddr.1 : Int) + i1 * r.str1 + i2 * r.str2

/-- The byte span of the code of `b` bits at index `i0` of a row, and the bit at which it begins (R95, R108). -/
def codeSpan (row : Int) (b : Nat) (i0 : Int) : Span × Nat :=
  let bit := i0 * (b : Int)
  let k := (bit % 8).toNat
  (⟨row + bit / 8, (k + b + 7) / 8⟩, k)

/-- R218: the indices of a linear index, out of bounds included. -/
def Rec.linear (r : Rec) (l : Int) : Int × Int × Int :=
  if r.ext0 = 0 || r.ext1 = 0 then (l, 0, 0)
  else (l % (r.ext0 : Int), l / (r.ext0 : Int) % (r.ext1 : Int), l / ((r.ext0 * r.ext1 : Nat) : Int))

/-- Order in which the record reports the checks that fail (R494). -/
def Code.rank : Code → Nat
  | .illegalTag => 0
  | .illegalOp => 1
  | .format => 2
  | .bounds => 3
  | .handleNotHeld => 4
  | .footprintEscape => 5
  | .permission => 6
  | _ => 7

/-- Of two failing checks the one that the record reports; of two escapes the lower offset (Table 1.13). -/
def worse (a b : Trap) : Trap :=
  if b.code.rank < a.code.rank then b
  else if a.code = .footprintEscape && b.code = .footprintEscape && b.op0.toNat < a.op0.toNat then b else a

/-- The failing check that a list of them reports. -/
def worst : List Trap → Option Trap
  | [] => none
  | t :: r => some (r.foldl worse t)

/-- The failing range checks of a list of spans. -/
def spanTraps (s : State) (e : Engine) (r : Rec) (acc : Acc) (l : List Span) : List Trap :=
  l.filterMap fun x => if x.n = 0 then none else rangeCheck s e r x.a x.n acc

/-- The ILLEGAL_OP conditions of R98 on a record, and a full/empty form on a space without granules (R161). -/
def Rec.illegal (r : Rec) (feOn : Bool) : Bool := r.bmode = 3 || 4 ≤ r.cache.toNat || (feOn && !r.isScratch)

def formatTrap (code : Nat) : Trap := { code := .format, op0 := BitVec.ofNat 64 code }

/-- R98, R107: the record's own fields, then its format among the accepted ones. -/
def Rec.fieldTrap (r : Rec) (feOn : Bool) (accept : Fmt → Bool) : Option Trap :=
  if r.illegal feOn then some { code := .illegalOp }
  else match r.format with
    | none => some (formatTrap r.fmt.toNat)
    | some f => if accept f then none else some (formatTrap r.fmt.toNat)

/-! ### Where bytes lie -/

/-- A byte of a record: its address there, its memory key, whether it is global, and whether its line is memory-side. -/
structure Loc where
  a : Nat
  key : Nat
  glob : Bool
  ms : Bool
deriving DecidableEq, Repr, Inhabited

/-- Bytes located, a page that misses, or the first address that permission forbids. -/
inductive LocRes where
  | ok (l : List Loc)
  | miss (vpn : Nat)
  | perm (a : Nat)
deriving DecidableEq, Repr

def locate (s : State) (r : Rec) (write : Bool) : List Nat → LocRes
  | [] => .ok []
  | a :: rest =>
    let tail := locate s r write rest
    if r.space = 0 then
      match translate s s.ctx.part write a with
      | .perm => .perm a
      | .miss v => match tail with
        | .perm b => .perm b
        | _ => .miss v
      | .ok pa ms => match tail with
        | .ok l => .ok (⟨a, pa, true, ms⟩ :: l)
        | x => x
    else match tail with
      | .ok l => .ok (⟨a, r.key s a, false, false⟩ :: l)
      | x => x

def Span.bytes (x : Span) : List Nat := keyRange x.a.toNat x.n

/-- A list cut into pieces of the given lengths. -/
def regroup {α : Type} : List Nat → List α → List (List α)
  | [], _ => []
  | n :: r, l => l.take n :: regroup r (l.drop n)

/-- The first byte of spans that lies in a page. -/
def firstIn (l : List Span) (vpn : Nat) : Int :=
  match (l.flatMap Span.bytes).find? fun a => a / 4096 == vpn with
  | some a => a
  | none => ((vpn * 4096 : Nat) : Int)

/-- Located spans, a wait, or a fault. -/
inductive Spots where
  | ok (l : List (List Loc))
  | wait (k : WaitKind)
  | trap (t : Trap)
deriving DecidableEq, Repr

/-- Translation, permission and reachability of spans that pass their range checks. -/
def reachSpans (s : State) (r : Rec) (acc : Acc) (l : List Span) : Spots :=
  match locate s r acc.writes (l.flatMap Span.bytes) with
  | .perm a => .trap (accTrap .permission r a acc)
  | .miss v => .wait (.miss s.ctx.part v (r.faultAddr (firstIn l v)) acc.code)
  | .ok ls =>
    match remoteCheck s (ls.map (·.key)) with
    | some (.inl k) => .wait k
    | some (.inr t) => .trap t
    | none => .ok (regroup (l.map (·.n)) ls)

/-- The checks of a synchronous access to a list of spans, in the order of R494, and where its bytes lie. -/
def spotsOf (s : State) (e : Engine) (r : Rec) (acc : Acc) (l : List Span) : Spots :=
  match worst (spanTraps s e r acc l) with
  | some t => .trap t
  | none => reachSpans s r acc l

/-! ### Reading and writing -/

def locByte (s : State) (l : Loc) : Byte :=
  if l.glob then (if l.ms then homeByte s l.key else cachedByte s l.key) else memGet s.mem l.key

/-- The little-endian value of located bytes. -/
def locVal (s : State) (l : List Loc) : Nat := leValue (l.map (locByte s))

/-- The bits `k` to `k + b - 1` of located bytes (R108). -/
def locBits (s : State) (l : List Loc) (k b : Nat) : Nat := locVal s l / 2 ^ k % 2 ^ b

/-- The byte is held in the core's caches, so its home is not read. -/
def Loc.cached (s : State) (l : Loc) : Bool := !l.ms && (heldAt s 0 l.key).isSome

/-- The byte lies in a word with an uncorrectable error (R159, R492). -/
def Loc.bad (s : State) (l : Loc) : Bool := !(l.glob && l.cached s) && s.poison.contains (wordBase l.key)

/-- A read is ready: alias lines over raw bytes are written back and tag mismatches of alias lines are counted (R400,
R402); the address of the first byte that does not arrive. The read looks through the L1 and the quad cache and allocates in
neither (R239, R299). -/
def readPrep (s : State) (cache : BitVec 3) (ls : List Loc) : State × Option Nat :=
  let homes := (ls.filter fun l => l.glob && !l.cached s).map (·.key)
  let s := homePrep s homes
  let n := noteAliasRead s cache homes
  match ls.find? fun l => l.bad n.1 || (n.2 && l.glob && !l.cached n.1 && aliasBad n.1 l.key) with
  | some l => (n.1, some l.a)
  | none => (n.1, none)

/-- A read of the vector engine is ready: its lines come into the caches as the policy says (R97). -/
def vecRead (s : State) (cache : BitVec 3) (ls : List Loc) : State × Option Nat :=
  let p := readPrep (engineFlits s .vec .read (ls.map (·.key))) cache ls
  (fetchLines p.1 cache 0 ((ls.filter fun l => l.glob && !l.ms).map (·.key)), p.2)

/-- Who stores located bytes: the vector engine or the Thresher by the core's load/store path, a drain's commit (R249), or a copy
(R299). -/
inductive Via where
  | core | thresher | drain | copy
deriving DecidableEq, Repr, Inhabited

def Via.engine : Via → Engine
  | .core => .vec
  | .thresher => .thr
  | .drain => .mxe
  | .copy => .bte

/-- A plain store of global bytes whose lines are not memory-side. -/
def storePlain (s : State) (via : Via) (cache : BitVec 3) (l : List (Nat × Byte)) : State :=
  match via with
  | .core | .thresher => cachedWrite s cache l
  | .drain => drainStore s cache l
  | .copy => homeStore s cache l

/-- A plain store of located bytes (R97, R249, R299); memory-side lines are written at their home. -/
def writeLocs (s : State) (via : Via) (cache : BitVec 3) (l : List (Loc × Byte)) : State :=
  let own := (l.filter fun c => !c.1.glob).map fun c => (c.1.key, c.2)
  let plain := (l.filter fun c => c.1.glob && !c.1.ms).map fun c => (c.1.key, c.2)
  let side := (l.filter fun c => c.1.glob && c.1.ms).map fun c => (c.1.key, c.2)
  let s := rawWrite s own
  let s := if plain.isEmpty then s else storePlain s via cache plain
  if side.isEmpty then s else homeWriteVia s cache side

/-- Located bytes but for those of armed barrier lines, which only the Steward's barrier instructions change (R394). -/
def unarmed (s : State) (l : List (Loc × Byte)) : List (Loc × Byte) := l.filter fun c => !armedLine s c.1.key

/-- The bytes that place `b` bits of `code` at bit `k` of bytes whose value is `old`. -/
def codeBytes (old n k b code : Nat) : List Byte :=
  leBytes n (old - (old / 2 ^ k % 2 ^ b) * 2 ^ k + (code % 2 ^ b) * 2 ^ k)

/-- A code to be written: the located bytes of its span, its first bit there, its width and the code. -/
structure CodeWrite where
  ls : List Loc
  k : Nat
  b : Nat
  code : Nat
deriving DecidableEq, Repr, Inhabited

/-- Bits of byte `i` of its span that a code covers. -/
def CodeWrite.bitsOf (w : CodeWrite) (i : Nat) : Nat := min (w.k + w.b) (8 * i + 8) - max w.k (8 * i)

/-- Keys of the bytes that a list of code writes covers whole and that were written at their homes. -/
def coveredKeys (s : State) (via : Via) (l : List CodeWrite) : List Nat :=
  let parts := l.flatMap fun w => w.ls.zipIdx.map fun x => (x.1, w.bitsOf x.2)
  (parts.filter fun p => (!p.1.glob || p.1.ms || via == .copy || !(s.l1.holds (p.1.key / 64) || s.qc.holds (p.1.key / 64))) &&
    decide (8 ≤ (parts.filter fun q => q.1.key == p.1.key).foldl (fun n q => n + q.2) 0)).map (·.1.key)

/-- The address of the first byte of located bytes that lies in an armed barrier line. -/
def firstArmed (s : State) (ls : List Loc) : Option Nat := (ls.find? fun l => armedLine s l.key).map (·.a)

/-- A located byte as writes still to be made, newest first, leave it. -/
def pendingByte (s : State) (done : List (Loc × Byte)) (l : Loc) : Byte :=
  match done.find? fun c => c.1.key == l.key with
  | some c => c.2
  | none => locByte s l

/-- The bytes that one code after another puts into place, newest first; codes that share a byte keep each other's bits. -/
def placedBytes (s : State) : List CodeWrite → List (Loc × Byte) → List (Loc × Byte)
  | [], done => done
  | w :: r, done =>
    let old := if w.k = 0 && w.b % 8 = 0 then 0 else leValue (w.ls.map (pendingByte s done))
    placedBytes s r ((w.ls.zip (codeBytes old w.ls.length w.k w.b w.code)).reverse ++ done)

/-- The bytes that codes written one after another put into place. -/
def codesBytes (s : State) (l : List CodeWrite) : List (Loc × Byte) := (placedBytes s l []).reverse

/-- Codes written in one step (R43, R401), and the address of the first byte that an armed barrier line refuses (R394): its bytes
keep their values. Words that the codes cover together lose their error. -/
def writeCodes (s : State) (via : Via) (cache : BitVec 3) (l : List CodeWrite) : State × Option Nat :=
  let s := engineFlits s via.engine .write (l.flatMap fun w => w.ls.map (·.key))
  let t := writeLocs s via cache (unarmed s (codesBytes s l))
  (if t.poison.isEmpty then t else coverPoison t (coveredKeys t via l), l.findSome? fun w => firstArmed s w.ls)

/-- Granules of located scratchpad bytes, each once, in address order. -/
def locGranules (s : State) (r : Rec) (ls : List Loc) : List Nat :=
  if r.isScratch then ls.foldl (fun g l => insNat g (granuleNo (r.core s) (r.spOff l.a))) [] else []

/-! ### Scaled rows (R127, R128, R130, R134, R136) -/

/-- The scale span of block `j` of a row that begins at `row`. -/
def scaleSpan (f : Fmt) (ext0 : Nat) (row : Int) (j : Nat) : Span := ⟨row + ((f.scaleOff ext0 j : Nat) : Int), f.scaleBytes⟩

/-- The group-scale span of the group of block `j` of a two-level row. -/
def groupSpan (f : Fmt) (ext0 : Nat) (row : Int) (j : Nat) : Span := ⟨row + ((f.groupOff ext0 (j / 64) : Nat) : Int), 4⟩

/-- The spans that an element's value needs: its code, its block's scale and its group's scale. -/
def elemSpans (f : Fmt) (ext0 : Nat) (row : Int) (i0 : Nat) : List Span :=
  let c := (codeSpan row f.bits i0).1
  if f.block = 0 then [c]
  else if f.isTl then [c, scaleSpan f ext0 row (i0 / f.block), groupSpan f ext0 row (i0 / f.block)]
  else [c, scaleSpan f ext0 row (i0 / f.block)]

/-- An element's value from the located bytes of its spans; `cb` are the codebook's entries. -/
def elemValue (s : State) (f : Fmt) (i0 : Nat) (cb : List (BitVec 8)) (ls : List (List Loc)) : Val :=
  let code := locBits s (ls.getD 0 []) (i0 * f.bits % 8) f.bits
  if f.block = 0 then (if f.isCb then cbValue cb code else f.value code)
  else
    let sc := locVal s ((ls.getD 1 []).take 1)
    if f.isTl then tlValue f code sc (locVal s (ls.getD 2 [])) else mxValue f code sc

/-- The tag of an element's scale differs from its block's (R134). -/
def tagWrong (s : State) (f : Fmt) (blk : Nat) (ls : List (List Loc)) : Bool :=
  f.isTagged && locVal s ((ls.getD 1 []).drop 1) != blk % 256

end Sys2Proof.Machine
end

