-- ==== Sys2Proof/Machine/Collector.lean ====
section
/-! DEFINITION. The operand collector (R236 to R241), shared by the matrix engine, the Sower and the Reeve: regions of a
record, the bytes they take, and their decoded elements. -/
namespace Sys2Proof.Machine

/-! ### Regions -/

/-- A rectangle of a record: `n1` rows from `i1`, `n0` elements of each from `i0`, in plane `i2`. -/
structure Region2 where
  i0 : Int
  i1 : Int
  i2 : Int
  n0 : Nat
  n1 : Nat
deriving DecidableEq, Repr, Inhabited

def Rec.inside (r : Rec) (i0 i1 i2 : Int) : Bool :=
  decide (0 ≤ i0) && decide (i0 < r.ext0) && decide (0 ≤ i1) && decide (i1 < r.ext1) && decide (0 ≤ i2) && decide (i2 < r.ext2)

/-- The byte spans of the in-bounds elements `lo` to `hi - 1` of a row at `row`. -/
def runSpans (r : Rec) (f : Fmt) (row : Int) (lo hi : Nat) : List Span :=
  if hi ≤ lo then []
  else if f = .sqz8 then
    [⟨row + ((160 * (lo / 256) : Nat) : Int), 160 * ((hi - 1) / 256 - lo / 256 + 1)⟩]
  else
    let a := lo * f.bits / 8
    let code : Span := ⟨row + (a : Int), ceilDiv (hi * f.bits) 8 - a⟩
    if f.block = 0 then [code]
    else
      let j0 := lo / f.block
      let j1 := (hi - 1) / f.block
      let sc : Span := ⟨row + ((f.scaleOff r.ext0 j0 : Nat) : Int), (j1 - j0 + 1) * f.scaleBytes⟩
      if f.isTl then [code, sc, ⟨row + ((f.groupOff r.ext0 (j0 / 64) : Nat) : Int), 4 * (j1 / 64 - j0 / 64 + 1)⟩]
      else [code, sc]

/-- The byte spans of a region's in-bounds elements. -/
def Region2.spans (g : Region2) (r : Rec) (f : Fmt) : List Span :=
  if g.i2 < 0 || (r.ext2 : Int) ≤ g.i2 then [] else
  let lo := (max g.i0 0).toNat
  let hi := (min (g.i0 + g.n0) (r.ext0 : Int)).toNat
  (List.range g.n1).flatMap fun (y : Nat) =>
    let i1 := g.i1 + (y : Int)
    if i1 < 0 || (r.ext1 : Int) ≤ i1 then [] else runSpans r f (r.rowAt i1 g.i2) lo hi

/-- Whether every element of a region is in bounds. -/
def Region2.inBounds (g : Region2) (r : Rec) : Bool :=
  g.n0 = 0 || g.n1 = 0 || (r.inside g.i0 g.i1 g.i2 && r.inside (g.i0 + g.n0 - 1) (g.i1 + g.n1 - 1) g.i2)

/-- The address of an element for a BOUNDS record. -/
def Rec.elemAt (r : Rec) (f : Fmt) (i0 i1 i2 : Int) : Int := (codeSpan (r.rowAt i1 i2) f.bits i0).1.a

/-- The address of an element that no access may name: out of bounds under FAULT, or out of bounds at an address that R56 forbids
in every mode. What is in bounds is checked span by span. -/
def Rec.elemTrap (r : Rec) (f : Fmt) (i0 i1 i2 : Int) : Option Int :=
  let sp := (codeSpan (r.rowAt i1 i2) f.bits i0).1
  if !r.inside i0 i1 i2 && (r.bmode = 0 || r.pastLimit sp.a sp.n) then some sp.a else none

/-- The elements at a region's corners; addresses are linear in the indices, so every element's lies between theirs (R95). -/
def Region2.corners (g : Region2) : List (Int × Int) :=
  [(g.i0, g.i1), (g.i0 + g.n0 - 1, g.i1), (g.i0, g.i1 + g.n1 - 1), (g.i0 + g.n0 - 1, g.i1 + g.n1 - 1)]

/-- The bounds faults of a region (R237): BASE bits that must be zero, and its first element out of bounds under FAULT or past
R56's limits in any mode. -/
def Region2.boundsTraps (g : Region2) (r : Rec) (f : Fmt) (acc : Acc) : List Trap :=
  (if !r.baseAddr.2 then [accTrap .bounds r (r.elemAt f g.i0 g.i1 g.i2) acc] else []) ++
  (if g.inBounds r || (r.bmode ≠ 0 && g.corners.all fun c => (r.elemTrap f c.1 c.2 g.i2).isNone) then []
  else
    match (List.range g.n1).findSome? fun (y : Nat) => (List.range g.n0).findSome? fun (x : Nat) =>
        r.elemTrap f (g.i0 + x) (g.i1 + y) g.i2 with
    | some a => [accTrap .bounds r a acc]
    | none => [])

/-- The bounds, holder and footprint checks of a region at issue. -/
def Region2.check (s : State) (e : Engine) (g : Region2) (r : Rec) (f : Fmt) (acc : Acc) : List Trap :=
  g.boundsTraps r f acc ++ spanTraps s e r acc (g.spans r f)

/-- Handles of the quad that scratchpad spans touch (R166). -/
def spanHandles (s : State) (r : Rec) (l : List Span) : List Nat :=
  if r.isScratch then (l.flatMap fun x => rangeHandles (r.core s) (r.spOff x.a.toNat) x.n).foldl insNat [] else []

/-- Granules of scratchpad spans, each once. -/
def spanGranules (s : State) (r : Rec) (l : List Span) : List Nat :=
  if r.isScratch then
    l.foldl (fun g x => (rangeGranules (r.core s) (r.spOff x.a.toNat) x.n).foldl insNat g) []
  else []

def spanBytes (l : List Span) : Nat := l.foldl (fun n x => n + x.n) 0

/-! ### Fetched bytes (R239, R241) -/

/-- What the fetch stage finds for a value: it, an uncorrectable error, or nothing because translation failed. -/
inductive FV where
  | val (n : Nat)
  | ecc
  | lost
deriving DecidableEq, Repr, Inhabited

/-- A located byte that is uncorrectable, alias lines with wrong tags included. -/
def Loc.uncorrectable (s : State) (l : Loc) : Bool :=
  l.bad s || (l.glob && !l.cached s && aliasBad s l.key)

/-- One span's value. -/
def fetchSpan (s : State) (r : Rec) (x : Span) : FV :=
  match locate s r false x.bytes with
  | .ok ls => if ls.any (Loc.uncorrectable s) then .ecc else .val (locVal s ls)
  | _ => .lost

/-- Pages of a record's spans, each once. -/
def spanPages (r : Rec) (l : List Span) : List Nat :=
  if r.space ≠ 0 then []
  else (l.flatMap fun x => pagesOf x.a.toNat x.n).foldl (fun p v => if p.contains v then p else p ++ [v]) []

/-- What keeps an asynchronous access from going on: a page held for the driver, or a package with no route; or the fault
of what it cannot reach. -/
inductive Ready where
  | go (s : State) (bad : Option (Code × BitVec 64))
  | held (s : State) (vpn : Nat)
  | later (pkg : Option Nat) (s : State)
deriving DecidableEq, Repr

/-- Readies an asynchronous access of the core to spans: walks, holds misses but for the pages that the driver has aborted, and
finds permission and reachability faults (R51, R57, R462). The first aborted page is the one whose fault is reported. -/
def readySpans (s : State) (r : Rec) (write : Bool) (l : List Span) (aborted : List Nat) : Ready :=
  let pages := (spanPages r l).filter fun v => !aborted.contains v
  match walkPages s s.ctx.part pages with
  | (s, some v) => .held s v
  | (s, none) =>
    match aborted.head? with
    | some v => .go s (some (.translation, r.spaceAddr (firstIn l v)))
    | none =>
      match locate s r write (l.flatMap Span.bytes) with
      | .perm a => .go s (some (.permission, r.spaceAddr (a : Int)))
      | .miss v => .held s v
      | .ok ls =>
        match remoteCheck s (ls.map (·.key)) with
        | some (.inl k) => .later k.pkg s
        | some (.inr t) => .go s (some (t.code, t.op0))
        | none =>
          let s := engineFlits s .mxe (if write then .write else .read) (ls.map (·.key))
          .go (if r.space = 0 then (readPrep s r.cache ls).1 else s) none

/-! ### Decoded elements -/

/-- A decoded operand element; `step` is one of a block whose tag differs, with whether its own code or group scale is
uncorrectable. -/
inductive Cell where
  | val (v : Val)
  | pair (p : BitVec 16)
  | oob
  | ecc
  | step (blk : Nat) (ecc : Bool)
  | tile (t : Nat)
  | lost
deriving DecidableEq, Repr, Inhabited

/-- A codebook as the fetch stage reads it: an entry with an uncorrectable error reads as nothing (R241). -/
abbrev Book := List (Option Byte)

/-- What a codebook entry brings to an element. -/
def bookCell (cb : Book) (code : Nat) : Cell :=
  match cb.getD code (some 0) with
  | some b => .val (Fmt.e4m3.value b.toNat)
  | none => .ecc

/-- What an SQZ8 payload code brings to an element (R235). -/
def payloadCell (pfmt : BitVec 3) (cb : Book) (code : Nat) : Cell :=
  match pfmt.toNat with
  | 0 => .val (Fmt.int8.value code)
  | 1 => .val (Fmt.uint8.value code)
  | 2 => .val (Fmt.e4m3.value code)
  | 3 => .val (Fmt.e5m2.value code)
  | _ => bookCell cb code

/-- Elements of one SQZ8 slot at `a`, tile number `t` of the record (R142, R144, R241). -/
def sqzCells (s : State) (r : Rec) (pfmt : BitVec 3) (cb : Book) (a : Int) (t : Nat) : List Cell :=
  match fetchSpan s r ⟨a, 32⟩ with
  | .ecc => List.replicate 256 .ecc
  | .lost => List.replicate 256 .lost
  | .val m =>
    let bits := (List.range 256).map fun k => m / 2 ^ k % 2 == 1
    if (bits.filter id).length > 128 then List.replicate 256 (.tile t)
    else
      (bits.foldl (fun (acc : List Cell × Nat) b =>
        if b then
          (acc.1 ++ [match fetchSpan s r ⟨a + 32 + (acc.2 : Int), 1⟩ with
            | .val c => payloadCell pfmt cb c
            | .ecc => .ecc
            | .lost => .lost], acc.2 + 1)
        else (acc.1 ++ [payloadCell pfmt cb 0], acc.2)) ([], 0)).1

/-- The element depends on an uncorrectable word (R241). -/
def Cell.isEcc : Cell → Bool
  | .ecc => true
  | .step _ e => e
  | _ => false

/-- One element of a record that is not SQZ8. A scale is judged by its own bytes, so a tag that differs is found whatever the
element codes hold (R134, R240), and a code's word whatever the tag (R241). -/
def cellAt (s : State) (r : Rec) (f : Fmt) (cb : Book) (i0 i1 i2 : Int) : Cell :=
  if !r.inside i0 i1 i2 then .oob else
  let row := r.rowAt i1 i2
  let n := i0.toNat
  let c := codeSpan row f.bits i0
  let sc := if f.block = 0 then FV.val 0 else fetchSpan s r (scaleSpan f r.ext0 row (n / f.block))
  let gs := if f.isTl then fetchSpan s r (groupSpan f r.ext0 row (n / f.block)) else FV.val 0
  let blk := blockIndex f r.ext0 r.ext1 i1.toNat i2.toNat (n / f.block)
  let wrong := f.isTagged && (match sc with
    | .val y => y / 256 != blk % 256
    | _ => false)
  let own := fetchSpan s r c.1
  if wrong then .step blk (own = .ecc || gs = .ecc) else
  match own, sc, gs with
  | .val x, .val y, .val z =>
    let code := x / 2 ^ c.2 % 2 ^ f.bits
    if f = .mld16 then .pair (BitVec.ofNat 16 code)
    else if f.isCb then bookCell cb code
    else if f.isTl then .val (tlValue f code (y % 256) z)
    else if f.isMx then .val (mxValue f code (y % 256))
    else .val (f.value code)
  | .lost, _, _ | _, .lost, _ | _, _, .lost => .lost
  | _, _, _ => .ecc

/-- What an mpref reads of an MLD16 pair: its ls byte alone (R287). -/
inductive LsCell where
  | ls (b : BitVec 8)
  | absent
  | ecc
  | lost
deriving DecidableEq, Repr

def lsAt (s : State) (r : Rec) (i0 i1 i2 : Int) : LsCell :=
  if !r.inside i0 i1 i2 then .absent else
  match fetchSpan s r ⟨(codeSpan (r.rowAt i1 i2) 16 i0).1.a, 1⟩ with
  | .val x => .ls (BitVec.ofNat 8 x)
  | .ecc => .ecc
  | .lost => .lost

/-- `n` elements of a row from `i0`. -/
def cellRun (s : State) (r : Rec) (f : Fmt) (pfmt : BitVec 3) (cb : Book) (i0 i1 i2 : Int) (n : Nat) : List Cell :=
  if f = .sqz8 then
    let row := r.rowAt i1 i2
    let t0 := ((max i0 0).toNat) / 256
    let t1 := ((max (i0 + n - 1) 0).toNat) / 256
    let slots := (List.range (t1 - t0 + 1)).map fun d =>
      let t := t0 + d
      if r.inside (256 * t : Nat) i1 i2 then
        sqzCells s r pfmt cb (row + ((160 * t : Nat) : Int)) (t + (i2.toNat * r.ext1 + i1.toNat) * ceilDiv r.ext0 256)
      else []
    (List.range n).map fun (x : Nat) =>
      let i := i0 + (x : Int)
      if !r.inside i i1 i2 then .oob
      else ((slots.getD (i.toNat / 256 - t0) []).getD (i.toNat % 256) .oob)
  else (List.range n).map fun (x : Nat) => cellAt s r f cb (i0 + (x : Int)) i1 i2

/-- The rows of a region. -/
def Region2.cells (s : State) (g : Region2) (r : Rec) (f : Fmt) (pfmt : BitVec 3) (cb : Book) : List (List Cell) :=
  (List.range g.n1).map fun (y : Nat) => cellRun s r f pfmt cb g.i0 (g.i1 + (y : Int)) g.i2 g.n0

/-- The smallest failing index of a data fault among cells (R240). -/
def minFail (sel : Cell → Option Nat) (l : List Cell) : Option Nat :=
  l.foldl (fun b c => match b, sel c with
    | some x, some y => some (min x y)
    | none, y => y
    | x, none => x) none

/-- The data fault that an operand brings. -/
def dataFault (l : List Cell) : Option (Code × BitVec 64) :=
  match minFail (fun c => match c with
      | .step b _ => some b
      | _ => none) l with
  | some b => some (.scaleStep, BitVec.ofNat 64 b)
  | none =>
    (minFail (fun c => match c with
      | .tile t => some t
      | _ => none) l).map fun t => (Code.sqzDecode, BitVec.ofNat 64 t)

/-- R277: the linear position of an element. -/
def linearPos (r : Rec) (i0 i1 i2 : Int) : Int := i0 + (r.ext0 : Int) * (i1 + (r.ext1 : Int) * i2)

/-- R274, R275: a weight that a cell brings into a plane. -/
def weightOf (w : Sow) (r : Rec) (i0 i1 i2 : Int) : Cell → Val
  | .val v => v
  | .pair p =>
    if w.en then
      FFmt.e4m3.value (mldPerturb p (sowZ w.seed w.stream (BitVec.ofInt 32 (linearPos r i0 i1 i2) + w.ibase)))
    else FFmt.e4m3.value (field p 8 8).toNat
  | _ => .fin false Q.zero

/-- An activation that a cell brings. -/
def activationOf : Cell → Val
  | .val v => v
  | _ => .fin false Q.zero

end Sys2Proof.Machine
end

