-- ==== Sys2Proof/Machine/Matrix.lean ====
section
/-! DEFINITION. The matrix engine (chapter 6): planes, tiles, journals, streams, drains into the Pound and its commit. -/
namespace Sys2Proof.Machine

/-! ### Paths (R233, R345) -/

def setMx (s : State) (m : Mx) : State := { s with mx := m }
def setMxCtx (s : State) (m : MxCtx) : State := setCtx s { s.ctx with mx := m }

/-- The mode in which issued instructions run: that of MSTAT, and once the core is offline the last one before (R272, R345, R346). -/
def Mx.works (x : Mx) : PathMode := if x.mode = .offline then x.before else x.mode

def millRuns (s : State) : Bool := s.mx.works = .dual || s.mx.works = .mill
def quernRuns (s : State) : Bool := s.mx.works = .dual || s.mx.works = .quern

/-- Applies a change to every path that runs. -/
def onPaths (s : State) (f : MPath → MPath) : State :=
  setMx s { s.mx with mill := if millRuns s then f s.mx.mill else s.mx.mill,
                      quern := if quernRuns s then f s.mx.quern else s.mx.quern }

/-- The path whose state a program reads. -/
def runPath (s : State) : MPath := if s.mx.works = .quern then s.mx.quern else s.mx.mill

def MPath.tile (p : MPath) (t : BitVec 2) : Tile := p.tiles[t.toNat]
def MPath.setTile (p : MPath) (t : BitVec 2) (x : Tile) : MPath := { p with tiles := p.tiles.set t.toNat x }

def AccElem.zero : AccElem := ⟨0, .none⟩
def Tile.get (t : Tile) (m n : Nat) : AccElem := (t.rows.getD m []).getD n AccElem.zero

/-- A tile from its elements. -/
def Tile.ofFn (w : BitVec 7) (f : Nat → Nat → AccElem) : Tile :=
  ⟨w, (List.range 128).map fun m => (List.range 128).map fun n => f m n⟩

/-! ### Accumulation (R149, R261) -/

/-- `combine` of R149. -/
def combineTags (a b : AccTag) : AccTag :=
  match a, b with
  | .none, x => x
  | x, .none => x
  | .posInf, .posInf => .posInf
  | .negInf, .negInf => .negInf
  | _, _ => .nan

/-- The 80-bit clamp, and whether it clamped. -/
def clamp80 (n : Int) : Int × Bool := clampInt 80 true n

/-- One product's contribution: its tag or its floored value, with ASAT at the 86-bit limit. -/
def product (w : Int) (x y : Val) : AccTag × Int × Bool :=
  match x, y with
  | .fin _ a, .fin _ b =>
    if a.isZero || b.isZero then (.none, 0, false)
    else
      let q := ((a.mul b).scale (-w)).floor
      let lim : Int := 2 ^ 86
      if lim - 1 < q then (.none, lim - 1, true) else if q < -lim then (.none, -lim, true) else (.none, q, false)
  | .inf a, .inf b => (if a == b then .posInf else .negInf, 0, false)
  | .inf a, .fin n b => (if b.isZero then .nan else if a == n then .posInf else .negInf, 0, false)
  | .fin n a, .inf b => (if a.isZero then .nan else if n == b then .posInf else .negInf, 0, false)
  | _, _ => (.nan, 0, false)

/-- R149 on one element: activations and weights in order of k. -/
def accumulate (w : Int) (e : AccElem) : List Val → List Val → AccElem × Bool
  | xs, ys =>
    let r := (xs.zip ys).foldl (fun (a : AccTag × Int × Bool) p =>
      let q := product w p.1 p.2
      (combineTags a.1 q.1, a.2.1 + q.2.1, a.2.2 || q.2.2)) (e.t, 0, false)
    let c := clamp80 (e.z.toInt + r.2.1)
    (⟨BitVec.ofInt 80 c.1, r.1⟩, r.2.2 || c.2)

/-- A stream of `M` rows past a plane into a tile (R260); the flag is ASAT. -/
def streamTile (t : Tile) (cols : List (List Val)) (k row0 : Nat) (acc : Bool) (rows : List (List Val)) : Tile × Bool :=
  let w := t.w.toInt
  let zeros := List.replicate k (Val.fin false Q.zero)
  let new := rows.zipIdx.map fun a => (List.range 128).map fun n =>
    let ys := cols.getD n []
    accumulate w (if acc then t.get (row0 + a.2) n else AccElem.zero) a.1 (ys ++ zeros.drop ys.length)
  let sat := new.any fun r => r.any (·.2)
  (⟨t.w, (List.range (max t.rows.length (row0 + rows.length))).map fun m =>
    if row0 ≤ m && m < row0 + rows.length then (new.getD (m - row0) []).map (·.1) else t.rows.getD m []⟩, sat)

/-- madd (R261). -/
def addTiles (d a : Tile) : Tile × Bool :=
  let sh := a.w.toInt - d.w.toInt
  let el (m n : Nat) : AccElem × Bool :=
    let x := d.get m n
    let y := a.get m n
    let c := clamp80 (x.z.toInt + ((Q.ofInt y.z.toInt).scale sh).floor)
    (⟨BitVec.ofInt 80 c.1, combineTags x.t y.t⟩, c.2)
  let rows := max d.rows.length a.rows.length
  let all := (List.range rows).map fun m => (List.range 128).map fun n => el m n
  (⟨d.w, all.map fun r => r.map (·.1)⟩, all.any fun r => r.any (·.2))

/-- Z := 0 and T := none over an area. -/
def clearArea (t : Tile) (g : Area) : Tile :=
  ⟨t.w, t.rows.zipIdx.map fun r =>
    if g.row0 ≤ r.2 && r.2 < g.row0 + g.rows then
      r.1.zipIdx.map fun e => if g.col0 ≤ e.2 && e.2 < g.col0 + g.cols then AccElem.zero else e.1
    else r.1⟩

/-! ### Journals (R333) -/

def Area.full : Area := ⟨0, 0, 128, 128⟩

def Area.covers (a b : Area) : Bool :=
  a.row0 ≤ b.row0 && b.row0 + b.rows ≤ a.row0 + a.rows && a.col0 ≤ b.col0 && b.col0 + b.cols ≤ a.col0 + a.cols

/-- The elements a step covers. -/
def JKind.area : JKind → Area
  | .stream d => ⟨d.row0, 0, d.m, 128⟩
  | .zero => Area.full
  | .add _ => Area.full
  | .clear g => g

def JKind.clearing : JKind → Bool
  | .stream d => !d.acc
  | .zero => true
  | .add _ => false
  | .clear _ => true

/-- The steps of a journal with the copies that ADD steps hold. -/
def journalEntries : List JStep → List (List JStep)
  | [] => []
  | x :: r =>
    match journalEntries r with
    | [] => [[x]]
    | e :: es => match e with
      | y :: _ => if y.depth = 0 then [x] :: e :: es else (x :: e) :: es
      | [] => [x] :: es

/-- Appends a step with the copy it holds. -/
def Journal.append (j : Journal) (k : JKind) (copy : List JStep) : Journal :=
  let kept := if k.clearing then
      ((journalEntries j.steps).filter fun e => match e.head? with
        | some x => !k.area.covers x.kind.area
        | none => false).flatten
    else j.steps
  let jovf := j.jovf && !(k.clearing && k.area.covers Area.full)
  let new : List JStep := ⟨0, k⟩ :: copy.map fun x => { x with depth := x.depth + 1 }
  if 64 < kept.length + new.length then ⟨kept, true⟩ else ⟨kept ++ new, jovf⟩

def updJournal (s : State) (t : BitVec 2) (f : Journal → Journal) : State :=
  setMx s { s.mx with journals := s.mx.journals.set t.toNat (f s.mx.journals[t.toNat]) }

/-! ### Formats (Table 6.1, R235) -/

def wideFmt (f : Fmt) : Bool :=
  match f with
  | .int8 | .uint8 | .e4m3 | .e5m2 | .mxe4m3 | .mxe5m2 | .mxint8 | .mxe4m3t | .mxe5m2t | .mxint8t | .tl8 | .cb4 | .cb8
  | .sqz8 => true
  | _ => false

def doubleFmt (f : Fmt) : Bool :=
  match f with
  | .int4 | .e3m2 | .e2m3 | .e2m1 | .mxe3m2 | .mxe2m3 | .mxfp4 | .mxe3m2t | .mxe2m3t | .mxfp4t | .tl4 => true
  | _ => false

/-- K of a class. -/
def classK (dbl : Bool) : Nat := if dbl then 256 else 128

/-- An operand that reads a codebook (R235). -/
def OpDesc.usesCb (o : OpDesc) : Bool :=
  match (Rec.of o.bfr).format with
  | some f => f.isCb || (f = .sqz8 && o.pfmt = 4)
  | none => false

/-- The ILLEGAL_OP and FORMAT checks of an operand: record fields, PFMT and CB, then the format. -/
def OpDesc.fieldTrap (o : OpDesc) (fe : BitVec 2) (accept : Fmt → Bool) : Option Trap :=
  let r := Rec.of o.bfr
  let f := r.format
  if r.illegal (fe ≠ 0) || 5 ≤ o.pfmt.toNat || (f ≠ some .sqz8 && o.pfmt ≠ 0) || (!o.usesCb && o.cb ≠ 0) then
    some { code := .illegalOp }
  else r.fieldTrap (fe ≠ 0) accept

def OpDesc.rcd (o : OpDesc) : Rec := Rec.of o.bfr
def OpDesc.fmt (o : OpDesc) : Fmt := o.rcd.format.getD .int8

/-- The class of an operand's format. -/
def OpDesc.dbl (o : OpDesc) : Bool := doubleFmt o.fmt

/-- The region that an mload or mpref reads (R236). -/
def OpDesc.planeRegion (o : OpDesc) (k : Nat) : Region2 :=
  if o.tr then ⟨o.ab.toInt, o.aa.toInt, o.ac.toInt, k, 128⟩ else ⟨o.ab.toInt, o.aa.toInt, o.ac.toInt, 128, k⟩

/-- The coordinates of plane element `(k, n)`. -/
def OpDesc.coord (o : OpDesc) (k n : Nat) : Int × Int × Int :=
  if o.tr then (o.ab.toInt + k, o.aa.toInt + n, o.ac.toInt) else (o.ab.toInt + n, o.aa.toInt + k, o.ac.toInt)

/-- The region that `m` rows of activations take. -/
def StreamDesc.region (d : StreamDesc) (k : Nat) : Region2 := ⟨d.op.ab.toInt, d.op.aa.toInt, d.op.ac.toInt, k, d.m⟩

/-! ### Tile windows and conflicts (R242, R270) -/

/-- A tile that the context may name. -/
def tileOk (s : State) (z : BitVec 2) : Bool :=
  decide (s.ctx.mx.zBase.toNat ≤ z.toNat) && decide (z.toNat < s.ctx.mx.zBase.toNat + s.ctx.mx.zCount.toNat)

def tileTraps (s : State) (zs : List (BitVec 2)) : List Trap :=
  zs.filterMap fun z => if tileOk s z then none else some { code := .bounds, op0 := z.setWidth 64 }

/-- The tiles an outstanding instruction still touches, and whether it writes them. -/
def MxAct.tiles : MxAct → List (BitVec 2 × Bool)
  | .stream z _ _ _ _ _ => [(z, true)]
  | .zero z => [(z, true)]
  | .win z _ => [(z, true)]
  | .copy z a => [(z, true), (a, false)]
  | .add z a => [(z, true), (a, false)]
  | .getz z _ _ _ _ _ => [(z, false)]
  | .drain z clr _ formed => if formed then [] else [(z, clr)]
  | _ => []

/-- Codebooks an instruction reads or writes. -/
def MxAct.books : MxAct → List (BitVec 2 × Bool)
  | .load d _ => if d.op.usesCb then [(d.op.cb, false)] else []
  | .stream _ d _ _ _ _ => if d.op.usesCb then [(d.op.cb, false)] else []
  | .cb n _ _ => [(n, true)]
  | _ => []

/-- Uses of the deviation map. -/
def MxAct.map : MxAct → List (BitVec 2 × Bool)
  | .pref _ _ => [(0, true)]
  | .drain _ _ true false => [(0, false)]
  | _ => []

def clash (a b : List (BitVec 2 × Bool)) : Bool := a.any fun x => b.any fun y => x.1 == y.1 && (x.2 || y.2)

/-- An earlier instruction `a` whose effect the later `b` must see, or that must not see `b`'s (R270). A stream whose operand is
fetched has read its last row only when it completes, and a flip waits for that (R258). -/
def MxAct.before (a b : MxAct) : Bool :=
  clash a.tiles b.tiles || clash a.books b.books || clash a.map b.map || (match a, b with
    | _, .stat _ _ => true
    | _, .rstat _ _ => true
    | .stream _ d _ _ _ _, .flip => !(Rec.of d.op.bfr).isScratch
    | _, _ => false)

/-- An outstanding operation that a matrix instruction must wait for. -/
def Op.blocks (o : Op) (b : MxAct) : Bool :=
  match o.kind with
  | .mx a => a.before b
  | _ => false

/-- An outstanding matrix operation may complete: nothing earlier stands before it. -/
def mxReady (s : State) (o : Op) : Bool :=
  match o.kind with
  | .mx (.drain _ _ _ true) => false
  | .mx (.sigr _ _ (some _) _ _) => false
  | .mx a => !(s.ops.any fun p => decide (p.id < o.id) && p.blocks a)
  | _ => true

/-- Starts a matrix operation: `lat` cycles from issue, or from when the state that it reads is ready. -/
def addMx (s : State) (lat : Nat) (fromReady : Bool) (ws : List RegWrite) (a : MxAct) : State :=
  let base := s.ops.foldl (fun n o => if o.blocks a then max n o.due else n) 0
  let due := if fromReady then max s.cycle base + lat else max (s.cycle + lat) base
  addOp s .mxe (due - s.cycle) ws false {} (.mx a)

/-- Starts a matrix operation that accesses the bytes of handles (R166). -/
def addMxOn (s : State) (lat : Nat) (fromReady : Bool) (a : MxAct) (touches : List Nat) : State :=
  withAccess (addMx s lat fromReady [] a) s.nextId 0 touches

def anyMx (s : State) (p : MxAct → Bool) : Bool := s.ops.any fun o => match o.kind with
  | .mx a => p a
  | _ => false

def flipPending (s : State) : Bool := anyMx s fun a => a matches .flip
/-- An mstat or rstat that has yet to read the planes, the Pound or the Reeve's registers, which later instructions must
not change before (R270, R350, R351). -/
def statPending (s : State) : Bool := anyMx s fun a => a matches .stat _ _ | .rstat _ _
def loadPending (s : State) : Bool := anyMx s fun a => a matches .load _ _

/-- Copies in flight: copies and handle-fetches (R239, R292). -/
def Op.isCopy (o : Op) : Bool :=
  match o.kind with
  | .copy _ => true
  | .mx (.load d _) => d.op.rcd.space = 0
  | .mx (.stream _ d _ _ _ _) => d.op.rcd.space = 0
  | .mx (.pref d _) => d.op.rcd.space = 0
  | .mx (.cb _ d _) => (Rec.of d.bfr).space = 0
  | _ => false

def copySlots (s : State) : Nat := (s.ops.filter Op.isCopy).length

/-- A handle-fetch that would exceed 128 copies in flight waits. -/
def slotWait (s : State) (r : Rec) : Option WaitKind := if r.space = 0 && 128 ≤ copySlots s then some .other else none

/-! ### Issue (R32, R252, R346, R494) -/

/-- What an MXE instruction checks and waits for beside its encoding, its tokens and its registers. -/
structure MxGuard where
  /-- conditions that no wait can cure, and encoding -/
  legal : State → Bool
  /-- resources before issue -/
  need : State → Option WaitKind := fun _ => none
  /-- issue checks -/
  traps : State → Option Trap := fun _ => none
  /-- translation of a destination -/
  reach : State → Option (WaitKind ⊕ Trap) := fun _ => none
  /-- full/empty waits -/
  full : State → Option WaitKind := fun _ => none

/-- An unstamped instruction of the MXE. -/
def mxPrivate (s : State) (h : Hdr) (reads : List Reg) (g : MxGuard) (body : State → State) :
    Host.Outcome State Fault Refusal :=
  issuePrivate s .mxe h none (g.legal s && s.mx.mode ≠ .offline) reads g.need fun s =>
    match g.traps s with
    | some t => .trap t
    | none =>
      match g.reach s with
      | some (.inl k) => .wait s k
      | some (.inr t) => .trap t
      | none =>
        match g.full s with
        | some k => .wait s k
        | none => .done (body s)

/-- SCHEDULE_MISS at a stamp (R32). -/
def missed (s : State) (stamp : BitVec 64) : Host.Outcome State Fault Refusal :=
  .next (raise (setMx s { s.mx with parked := none }) .mxe { code := .scheduleMiss, op1 := stamp })

/-- What keeps a stamped instruction from issuing in its cycle: a counter, a resource, an interlock, a hold, a granule. R32 and R252
list neither a source register whose interlocked result is outstanding nor a blocked push of an earlier instruction: either is a
miss here (DESIGN CHOICE: assumption 25). -/
def stampedWait (s : State) (h : Hdr) (reads : List Reg) (g : MxGuard) : Bool :=
  (popWait s .mxe h).isSome || (g.need s).isSome || stallHeld s .mxe || (privateHeld s .mxe).isSome ||
  (readHazard s .mxe reads).isSome || (g.reach s).isSome || (g.full s).isSome

/-- A stamped instruction: it waits for its cycle, in which it issues or faults. Its checks come before its misses (R252, R494), but
for a source register that is not there to be checked. -/
def mxStamped (s : State) (h : Hdr) (reads : List Reg) (g : MxGuard) (body : State → State) :
    Host.Outcome State Fault Refusal :=
  if !(g.legal s && s.mx.mode ≠ .offline) then
    .next (raise (setMx s { s.mx with parked := none }) .mxe { code := .illegalOp })
  else if s.mx.parked.isNone && regBusy s .mxe (.a 31) then .next (stall s .mxe .other)
  else
    let stamp := s.mx.parked.getD (readA s .mxe 31)
    if s.bell < stamp then .next (stall (setMx s { s.mx with parked := some stamp }) .mxe .other)
    else if stamp < s.bell then missed s stamp
    else if reads.any (regBusy s .mxe) then missed s stamp
    else match g.traps s with
      | some t => .next (raise (setMx s { s.mx with parked := none }) .mxe t)
      | none =>
        if stampedWait s h reads g then missed s stamp
        else
          let s := setMx s { s.mx with parked := none }
          .next (clearWait (issued s (body s) .mxe h) .mxe)

/-- An instruction that may carry a stamp. -/
def mxIssue (st : BitVec 1) (h : Hdr) (reads : List Reg) (g : MxGuard) (body : State → State) (s : State) :
    Host.Outcome State Fault Refusal :=
  if st = 1 then mxStamped s h reads g body else mxPrivate s h reads g body

/-! ### mload (R257) -/

def feGranules (s : State) (fe : BitVec 2) (r : Rec) (l : List Span) : List Nat :=
  if fe = 0 then [] else spanGranules s r l

/-- A full/empty form that finds its granules full acquires: at .quad in a handle reached through space 0b10 (R163, R256). -/
def feAcquire (s : State) (fe : BitVec 2) (r : Rec) : State :=
  match feScope r (fe ≠ 0) with
  | some sc => cacheActions s sc
  | none => s

/-- What a handle-fetch does at its issue: the acquire of its full/empty form, and a look at the translations of its pages, which
serve it to its completion whatever is invalidated meanwhile (R163, R312). -/
def fetchIssue (s : State) (fe : BitVec 2) (r : Rec) (spans : List Span) : State :=
  quietWalk (feAcquire s fe r) s.ctx.part (spanPages r spans)

def memOp (s : State) (bf : BitVec 4) (aa ab ac : BitVec 5) (tr : Bool) (pfmt : BitVec 3) (cb : BitVec 2) : OpDesc :=
  ⟨readBf s .mxe bf, readA s .mxe aa, readA s .mxe ab, readA s .mxe ac, tr, pfmt, cb⟩

def loadFmt (f : Fmt) : Bool := wideFmt f || doubleFmt f || f = .mld16

def setShadow (s : State) (f : Plane → Plane) : State := onPaths s fun p => { p with shadow := f p.shadow }

/-- The load that an instruction at the MXE's boundary captures, with the Sower state of both copies (R274, R280). -/
def loadDesc (s : State) (o : OpDesc) : LoadDesc := ⟨o, s.mx.mill.sow, s.mx.quern.sow, (s.eng .mxe).pc, none⟩

def execMload (h : Hdr) (st : BitVec 1) (fe : BitVec 2) (tr : BitVec 1) (pfmt : BitVec 3) (cb : BitVec 2) (bf : BitVec 4)
    (aa ab ac : BitVec 5) (s : State) : Host.Outcome State Fault Refusal :=
  let o := memOp s bf aa ab ac (tr = 1) pfmt cb
  let r := o.rcd
  let region := o.planeRegion (classK o.dbl)
  let spans := region.spans r o.fmt
  mxIssue st h [ra aa, ra ab, ra ac]
    { legal := fun _ => encodingOk (.mload h st fe tr pfmt cb bf aa ab ac) false && !(st = 1 && r.space = 0)
      need := fun s => if loadPending s || flipPending s || statPending s then some .other else slotWait s r
      traps := fun s => match o.fieldTrap fe loadFmt with
        | some t => some t
        | none => worst (region.check s .mxe r o.fmt .read)
      full := fun s => granuleWait s .mxe (feGranules s fe r spans) true }
    (fun s =>
      addMxOn (fetchIssue (setShadow s fun p => { p with st := .filling }) fe r spans) (ceilDiv (spanBytes spans) 256 + 11) false
        (.load (loadDesc s o) fe) (spanHandles s r spans)) s

/-- Logs uncorrectable elements, first the one at the head of the list (R241, R254). -/
def logEcc (s : State) (kind : BitVec 2) : List (Int × Int × Int) → State
  | [] => s
  | (i0, i1, i2) :: rest =>
    let m := s.ctx.mx
    let m := { m with flags := { m.flags with eccz := true } }
    setMxCtx s (if m.meccValid then { m with meccMore := true }
      else { m with meccValid := true, meccMore := m.meccMore || !rest.isEmpty, meccKind := kind, meccI2 := BitVec.ofInt 10 i2,
                    meccI1 := BitVec.ofInt 25 i1, meccI0 := BitVec.ofInt 25 i0 })

/-- A codebook of the MXE; what no mcb has loaded reads as 0x00 (R334), and an entry in a word with an uncorrectable error as
nothing (R241). -/
def mxBook (s : State) (n : BitVec 2) : Book :=
  let l := s.ctx.mx.cb[n.toNat]
  let bad := s.ctx.mx.cbEcc[n.toNat]
  let all := (l ++ List.replicate (256 - l.length) 0).map some
  if bad.isEmpty then all else all.zipIdx.map fun x => if bad.contains (x.2 / 8) then none else x.1

/-- The cells of a plane, by k and then n. -/
def planeCells (s : State) (o : OpDesc) (k : Nat) : List (List Cell) :=
  let rows := (o.planeRegion k).cells s o.rcd o.fmt o.pfmt (mxBook s o.cb)
  if o.tr then (List.range k).map fun i => rows.map fun row => row.getD i .oob else rows

/-- Coordinates of the uncorrectable cells of a plane, k then n ascending. -/
def planeEcc (o : OpDesc) (cells : List (List Cell)) : List (Int × Int × Int) :=
  cells.zipIdx.flatMap fun r => r.1.zipIdx.filterMap fun c => if c.1.isEcc then some (o.coord r.2 c.2) else none

/-- The weights that a load's cells bring into a plane with a Sower's state, by column. -/
def planeCols (o : OpDesc) (w : Sow) (cells : List (List Cell)) : List (List Val) :=
  (List.range 128).map fun n => cells.zipIdx.map fun row =>
    let c := o.coord row.2 n
    weightOf w o.rcd c.1 c.2.1 c.2.2 (row.1.getD n .oob)

/-- What a load brings from memory as it stands: the Mill's and the Quern's plane, each decoded with its own Sower (R282), the
uncorrectable elements and the data fault. -/
def fillPlane (s : State) (d : LoadDesc) : Plane × Plane × List (Int × Int × Int) × Option (Code × BitVec 64) :=
  let o := d.op
  let cells := planeCells s o (classK o.dbl)
  let d := { d with book := if o.usesCb then s.ctx.mx.cbDesc[o.cb.toNat] else none }
  let plane (w : Sow) : Plane := ⟨.full, o.dbl, planeCols o w cells, some d⟩
  (plane d.sow, plane d.sowQ, planeEcc o cells, dataFault cells.flatten)

/-- Puts each path's plane in its place. -/
def putShadows (s : State) (m q : Plane) : State :=
  setMx s { s.mx with mill := if millRuns s then { s.mx.mill with shadow := m } else s.mx.mill,
                      quern := if quernRuns s then { s.mx.quern with shadow := q } else s.mx.quern }

/-- An asynchronous fault, if there is one (R47). -/
def faultAsync (s : State) (e : Engine) (pc : BitVec 64) : Option (Code × BitVec 64) → State
  | none => s
  | some f => raiseAsync s e pc f.1 f.2

/-- What an operation that reads global memory does first: hold a miss, try again, or go on (R51, R239). -/
def withOperand (s : State) (op : Op) (r : Rec) (spans : List Span)
    (k : State → Option (Code × BitVec 64) → State) : State :=
  match readySpans s r false spans op.aborted with
  | .held s v => updateOp s op.id fun o => { o with held := some v }
  | .later p s => retryOp s op.id p
  | .go s bad => k s bad

/-- .wfe: the granules that the operand took are set empty at completion. -/
def emptyAfter (s : State) (fe : BitVec 2) (r : Rec) (spans : List Span) : State :=
  if fe = 2 then setFull s (spanGranules s r spans) false else s

/-- MLOAD_FILL_COMPLETE (R257): the shadow plane fills. Of a fault of translation, permission or reach and a data fault of the same
operand the first alone is reported (DESIGN CHOICE: assumption 82). -/
def execMloadFillComplete (id : Nat) (s : State) : Host.Outcome State Fault Refusal :=
  match findOp s id with
  | some op => match op.kind with
    | .mx (.load d fe) =>
      let r := d.op.rcd
      let spans := (d.op.planeRegion (classK d.op.dbl)).spans r d.op.fmt
      .next (withOperand s op r spans fun s bad =>
        let f := fillPlane s d
        let s := putShadows s f.1 f.2.1
        let s := emptyAfter (logEcc s 0 f.2.2.1) fe r spans
        faultAsync (removeOp s id) .mxe op.pc (if bad.isSome then bad else f.2.2.2))
    | _ => .next s
  | none => .next s

/-! ### mflip and mdrop (R258, R259) -/

def execMflip (h : Hdr) (st : BitVec 1) (s : State) : Host.Outcome State Fault Refusal :=
  mxIssue st h []
    { legal := fun s => encodingOk (.mflip h st) false && !flipPending s && (runPath s).shadow.st ≠ .empty
      need := fun s => if (runPath s).shadow.st = .full && !statPending s then none else some .other }
    (fun s =>
      let rows := s.ops.foldl (fun n o => match o.kind with
        | .mx (.stream _ _ _ _ _ at_) => max n (at_ + 1)
        | _ => n) s.cycle
      addOp s .mxe (rows - s.cycle) [] false {} (.mx .flip)) s

def execMflipTakesEffect (id : Nat) (s : State) : Host.Outcome State Fault Refusal :=
  match findOp s id with
  | some op => match op.kind with
    | .mx .flip => .next (removeOp (onPaths s fun p => { p with active := p.shadow, shadow := Plane.reset }) id)
    | _ => .next s
  | none => .next s

def execMdrop (h : Hdr) (s : State) : Host.Outcome State Fault Refusal :=
  mxPrivate s h []
    { legal := fun _ => encodingOk (.mdrop h) false
      need := fun s => if loadPending s || flipPending s || statPending s then some .other else none }
    fun s => addMx (setShadow s fun _ => Plane.reset) 0 false [] .plain

/-! ### mstream (R260) -/

/-- The plane that R258 assigns to an instruction issued now. -/
def nextPlane (s : State) (p : MPath) : Plane := if flipPending s then p.shadow else p.active

/-- First row of an mstream. -/
def streamRow0 (s : State) (am : BitVec 5) : Nat := if am = 0 then 0 else (readA s .mxe am).toNat

def execMstream (h : Hdr) (st : BitVec 1) (fe : BitVec 2) (acc : BitVec 1) (zd : BitVec 2) (pfmt : BitVec 3) (cb : BitVec 2)
    (bf : BitVec 4) (aa ab ac am : BitVec 5) (m1 : BitVec 7) (s : State) : Host.Outcome State Fault Refusal :=
  let o := memOp s bf aa ab ac false pfmt cb
  let r := o.rcd
  let m := m1.toNat + 1
  let plane := nextPlane s (runPath s)
  let row0 := streamRow0 s am
  let d : StreamDesc := { op := o, row0 := row0, m := m, acc := acc = 1, w := 0, plane := plane.desc, book := none }
  let region := d.region (classK plane.dbl)
  let spans := region.spans r o.fmt
  mxIssue st h [ra aa, ra ab, ra ac, ra am]
    { legal := fun _ => encodingOk (.mstream h st fe acc zd pfmt cb bf aa ab ac am m1) false &&
        !(st = 1 && r.space = 0) && plane.st = .full
      need := fun s => if s.cycle < s.mx.streamFree || (st = 1 && flipPending s) then some .other else slotWait s r
      traps := fun s => match o.fieldTrap fe fun f => if plane.dbl then doubleFmt f else wideFmt f with
        | some t => some t
        | none => worst (region.check s .mxe r o.fmt .read ++ tileTraps s [zd] ++
            (if 128 < row0 + m then [{ code := .bounds, op0 := readA s .mxe am }] else []))
      full := fun s => granuleWait s .mxe (feGranules s fe r spans) true }
    (fun s =>
      let t := addMxOn (fetchIssue s fe r spans) (m + 24) false
        (.stream zd d fe (nextPlane s s.mx.mill) (nextPlane s s.mx.quern) (s.cycle + m)) (spanHandles s r spans)
      setMx t { t.mx with streamFree := s.cycle + m }) s

/-- The mcb that filled the codebook of a step's activations (R333); the interlock of R270 keeps it in place till then. -/
def streamBook (s : State) (o : OpDesc) : Option CbDesc := if o.usesCb then s.ctx.mx.cbDesc[o.cb.toNat] else none

def joinMxFlags (s : State) (f : Fx) : State := setMxCtx s { s.ctx.mx with flags := (s.ctx.mx.flags.join f).sticky }

/-- MSTREAM_COMPLETE (R260); two faults of one operand as at an mload (assumption 82). -/
def execMstreamComplete (id : Nat) (s : State) : Host.Outcome State Fault Refusal :=
  match findOp s id with
  | some op => match op.kind with
    | .mx (.stream zd d fe pm pq _) =>
      let r := d.op.rcd
      let k := classK pm.dbl
      let k := if s.mx.works = .quern then classK pq.dbl else k
      let region := d.region k
      let spans := region.spans r d.op.fmt
      .next (withOperand s op r spans fun s bad =>
        let cells := region.cells s r d.op.fmt d.op.pfmt (mxBook s d.op.cb)
        let rows := cells.map fun c => c.map activationOf
        let ecc := cells.zipIdx.flatMap fun row => row.1.zipIdx.filterMap fun c =>
          if c.1.isEcc then some (d.op.ab.toInt + (c.2 : Int), d.op.aa.toInt + (row.2 : Int), d.op.ac.toInt) else none
        let xm := streamTile (s.mx.mill.tile zd) pm.cols k d.row0 d.acc rows
        let xq := streamTile (s.mx.quern.tile zd) pq.cols k d.row0 d.acc rows
        let w := ((runPath s).tile zd).w
        let t := setMx s { s.mx with
          mill := if millRuns s then s.mx.mill.setTile zd xm.1 else s.mx.mill
          quern := if quernRuns s then s.mx.quern.setTile zd xq.1 else s.mx.quern }
        let t := updJournal t zd fun j => j.append (.stream { d with w := w, book := streamBook s d.op }) []
        let t := joinMxFlags t { asat := if s.mx.works = .quern then xq.2 else xm.2 }
        let t := emptyAfter (logEcc t 1 ecc) fe r spans
        faultAsync (removeOp t id) .mxe op.pc (if bad.isSome then bad else dataFault cells.flatten))
    | _ => .next s
  | none => .next s

/-! ### mzero, mwin, mcopy, madd and mgetz (R261, R262) -/

def tileOp (s : State) (h : Hdr) (legal : Bool) (zs : List (BitVec 2)) (lat : Nat) (a : MxAct) :
    Host.Outcome State Fault Refusal :=
  mxPrivate s h [] { legal := fun _ => legal, traps := fun s => worst (tileTraps s zs) } fun s => addMx s lat false [] a

def execMzero (h : Hdr) (zd : BitVec 2) (s : State) : Host.Outcome State Fault Refusal :=
  tileOp s h (encodingOk (.mzero h zd) false) [zd] 2 (.zero zd)
def execMwin (h : Hdr) (zd : BitVec 2) (w : BitVec 7) (s : State) : Host.Outcome State Fault Refusal :=
  tileOp s h (encodingOk (.mwin h zd w) false) [zd] 2 (.win zd w)
def execMcopy (h : Hdr) (zd za : BitVec 2) (s : State) : Host.Outcome State Fault Refusal :=
  tileOp s h (encodingOk (.mcopy h zd za) false) [zd, za] 130 (.copy zd za)
def execMadd (h : Hdr) (zd za : BitVec 2) (s : State) : Host.Outcome State Fault Refusal :=
  tileOp s h (encodingOk (.madd h zd za) false) [zd, za] 130 (.add zd za)

def execMgetz (h : Hdr) (zd : BitVec 2) (q hi : BitVec 1) (ad aa : BitVec 5) (s : State) :
    Host.Outcome State Fault Refusal :=
  let x := readA s .mxe aa
  mxPrivate s h [ra aa]
    { legal := fun _ => encodingOk (.mgetz h zd q hi ad aa) false
      traps := fun s => worst (tileTraps s [zd] ++
        (if field x 15 49 ≠ 0#49 || bitAt x 7 then [{ code := .bounds, op0 := x }] else [])) }
    fun s => addMx s 6 true [.a ad.toNat 0]
      (.getz zd (q = 1) (hi = 1) ad (field x 8 7).toNat (field x 0 7).toNat)

def AccTag.code : AccTag → BitVec 64
  | .none => 0
  | .posInf => 1
  | .negInf => 2
  | .nan => 3

/-- The value that mgetz reads. -/
def getzValue (s : State) (zd : BitVec 2) (q hi : Bool) (m n : Nat) : BitVec 64 :=
  let p := if q then (if quernRuns s then s.mx.quern else s.mx.mill) else (if millRuns s then s.mx.mill else s.mx.quern)
  let e := (p.tile zd).get m n
  if hi then (e.t.code <<< 16) ||| (field e.z 64 16).setWidth 64 else field e.z 0 64

/-! ### mdrain (R263 to R265) -/

def drainFmt (f : Fmt) : Bool :=
  match f with
  | .fp32 | .bf16 | .fp16 | .e4m3 | .e5m2 | .int8 => true
  | _ => f.isMx

/-- The region that a region word names, or none where the word is out of bounds. -/
def areaOf (a0 : Bool) (v : BitVec 64) : Option Area :=
  if a0 then some Area.full
  else
    let g : Area := ⟨(field v 0 7).toNat, (field v 8 7).toNat, (field v 16 7).toNat + 1, (field v 24 7).toNat + 1⟩
    if v &&& 0xFFFFFFFF80808080#64 ≠ 0 || 128 < g.row0 + g.rows || 128 < g.col0 + g.cols then none else some g

/-- Bytes of one row's run of canonical bytes (R245). -/
def runBytes (f : Fmt) (c : Nat) : Nat := c * f.bits / 8 + (if f.isMx then c / 32 * f.scaleBytes else 0)

/-- Length of a drain's canonical bytes. -/
def canonLength (f : Fmt) (grad : Bool) (g : Area) : Nat := (if grad then 2 else 1) * g.rows * runBytes f g.cols

/-- KiB of an entry (R247). -/
def entryUnits (len : Nat) : Nat := 2 * ceilDiv len 1024

def poundUsed (s : State) : Nat := s.mx.pound.foldl (fun n e => n + e.units) 0

/-- First unit of the next entry. -/
def nextUnit (s : State) : Nat := match s.mx.pound.getLast? with
  | none => 0
  | some e => (e.off + e.units) % 256

/-- The region of the destination record. -/
def drainRegion (aa ab ac : BitVec 64) (g : Area) : Region2 := ⟨ab.toInt, aa.toInt, ac.toInt, g.cols, g.rows⟩

/-- The destination spans with the pad of MX blocks (R128). -/
def drainSpans (r : Rec) (f : Fmt) (g : Region2) : List Span :=
  if f.isMx then
    let lo := (max g.i0 0).toNat
    let hi := (min (g.i0 + g.n0) (r.ext0 : Int)).toNat
    if g.i2 < 0 || (r.ext2 : Int) ≤ g.i2 then [] else
    (List.range g.n1).flatMap fun (y : Nat) =>
      let i1 := g.i1 + (y : Int)
      if i1 < 0 || (r.ext1 : Int) ≤ i1 then [] else runSpans r f (r.rowAt i1 g.i2) lo (ceilDiv hi 32 * 32)
  else g.spans r f

/-- Bytes that the commit writes (R271). -/
def drainBytes (d : DrainDesc) : Nat :=
  let r := Rec.of d.bfr
  let f := r.format.getD .fp32
  let n := spanBytes (drainSpans r f (drainRegion d.aa d.ab d.ac d.area))
  if d.grad then n + spanBytes (drainSpans (Rec.of d.bfr2) .fp32 (drainRegion d.aa d.ab d.ac d.area)) else n

/-- A destination record's translation before issue. -/
def reachDest (s : State) (r : Rec) (l : List Span) : Option (WaitKind ⊕ Trap) :=
  match reachSpans s r .write l with
  | .ok _ => none
  | .wait k => some (.inl k)
  | .trap t => some (.inr t)

/-- The issue checks of an mdrain. -/
def drainTraps (s : State) (zd : BitVec 2) (grad : Bool) (r r2 : Rec) (aa ab ac : BitVec 64) (word : BitVec 64)
    (area : Option Area) : Option Trap :=
  if r.illegal false || (grad && r2.illegal false) then some { code := .illegalOp }
  else
    let accept (f : Fmt) : Bool := if grad then f = .fp32 else drainFmt f
    match r.fieldTrap false accept with
    | some t => some t
    | none =>
      match if grad then r2.fieldTrap false accept else none with
      | some t => some t
      | none =>
        let f := r.format.getD .fp32
        match area with
        | none => some { code := .bounds, op0 := word }
        | some g =>
          let reg := drainRegion aa ab ac g
          worst ((if f.isMx && (g.col0 % 32 ≠ 0 || g.cols % 32 ≠ 0 || reg.i0 % 32 ≠ 0) then
              [{ code := .bounds, op0 := word }] else []) ++ tileTraps s [zd] ++
            reg.boundsTraps r f .write ++ spanTraps s .mxe r .write (drainSpans r f reg) ++
            (if grad then reg.boundsTraps r2 .fp32 .write ++ spanTraps s .mxe r2 .write (drainSpans r2 .fp32 reg) else []))

def execMdrain (h : Hdr) (st clr grad : BitVec 1) (zd : BitVec 2) (rm : BitVec 3) (bf : BitVec 4) (aa ab ac am : BitVec 5)
    (s : State) : Host.Outcome State Fault Refusal :=
  let bfr := readBf s .mxe bf
  let bfr2 := readBf s .mxe (bf + 1)
  let r := Rec.of bfr
  let r2 := Rec.of bfr2
  let f := r.format.getD .fp32
  let word := readA s .mxe am
  let area := areaOf (am = 0) word
  let g := area.getD Area.full
  let va := readA s .mxe aa
  let vb := readA s .mxe ab
  let vc := readA s .mxe ac
  -- a record whose format the drain refuses asks for no space: its fault comes first (R264, R265)
  let units := if (if grad = 1 then f = .fp32 else drainFmt f) then entryUnits (canonLength f (grad = 1) g) else 0
  let reg := drainRegion va vb vc g
  mxIssue st h [ra aa, ra ab, ra ac, ra am]
    { legal := fun _ => encodingOk (.mdrain h st clr grad zd rm bf aa ab ac am) false &&
        !(st = 1 && (r.space = 0 || (grad = 1 && r2.space = 0)))
      need := fun s => if 256 < poundUsed s + units || statPending s then some .other else none
      traps := fun s =>
        if grad = 1 && !(s.ctx.mx.ref || anyMx s fun a => a matches .pref _ _) then some { code := .illegalOp }
        else drainTraps s zd (grad = 1) r r2 va vb vc word area
      reach := fun s => match reachDest s r (drainSpans r f reg) with
        | some x => some x
        | none => if grad = 1 then reachDest s r2 (drainSpans r2 .fp32 reg) else none }
    (fun s =>
      let c := s.ctx.mx
      let hit := c.sampleNext || c.mdseq.toNat % 2 ^ c.slog2.toNat = 2 ^ c.slog2.toNat - 1
      let d : DrainDesc :=
        { tile := zd, area := g, clr := clr = 1, grad := grad = 1, bfr := bfr, bfr2 := bfr2, aa := va, ab := vb, ac := vc,
          rm := rm, seed := c.msrSeed, stream := c.msrStream, dseq := c.mdseq, sow := s.mx.mill.sow, sowQ := s.mx.quern.sow, ref := none,
          forced := c.rchk.map fun x => x.getD Area.full, injM := c.injM, injQ := c.injQ,
          sampled := if hit then some c.units.toNat else none, sunits := c.units.toNat, mode := s.mx.mode, part := s.ctx.part }
      let e : PEntry :=
        { op := s.nextId, pc := (s.eng .mxe).pc, off := nextUnit s, units := units, d := d, formed := false, commitAt := 0,
          mill := [], quern := [], sigM := 0, sigQ := 0, fx := {}, w := 0, journal := ⟨[], false⟩, settled := none }
      let dests := spanHandles s r (drainSpans r f reg) ++ (if grad = 1 then spanHandles s r2 (drainSpans r2 .fp32 reg) else [])
      let t := addMxOn s (g.rows + 16) true (.drain zd (clr = 1) (grad = 1) false) dests
      let t := setMx t { t.mx with pound := t.mx.pound ++ [e] }
      setMxCtx t { t.ctx.mx with
        mdseq := c.mdseq + 1, rchk := none, injM := none, injQ := none, sampleNext := false }) s

/-- The tag of a block of the destination (R133), of rows out of bounds too. -/
def destTag (r : Rec) (f : Fmt) (i1 i2 : Int) (j : Int) : Byte :=
  BitVec.ofInt 8 ((i2 * r.ext1 + i1) * (ceilDiv r.ext0 f.block : Nat) + j)

/-- The exact value that an element delivers. -/
def AccElem.value (e : AccElem) (w : BitVec 7) : Val :=
  match e.t with
  | .none => .fin (decide (e.z.toInt < 0)) ((Q.ofInt e.z.toInt).scale w.toInt)
  | .posInf => .inf false
  | .negInf => .inf true
  | .nan => .nan true

/-- One element drained to a format without a scale (R151). A NaN tag sets NV. -/
def drainElem (f : Fmt) (m : RMode) (u : Nat) (v : Val) : Nat × Fx :=
  match f.float? with
  | some ff => ff.convert m u (ff == FFmt.e4m3 || ff == FFmt.e5m2) v
  | none =>
    match v with
    | .nan _ => (0, { nv := true })
    | .inf neg => (intCode 8 (if neg then -127 else 127), { nv := true })
    | .fin _ _ =>
      let r := floatToInt 8 true m u v
      (r.1, { r.2 with nv := false, sat := r.2.nv })

/-- The FP32 value LN2Q (R265). -/
def ln2Q : Q := (Q.ofInt 1453635).scale (-23)

/-- σ × z at a plane position (R281). -/
def sigmaZ (map : List (List (Option (BitVec 8 × BitVec 32)))) (w : Sow) (k n : Nat) : Q :=
  match (map.getD k []).getD n none with
  | none => Q.zero
  | some (ls, l) => if w.en then (mldSigma ls).mul (sowZ w.seed w.stream (l + w.ibase)) else Q.zero

/-- The gradient of ls: D × σ × z × LN2Q, a zero product +0. -/
def gradLs (v : Val) (sz : Q) : Val :=
  match v with
  | .fin _ q =>
    let p := (q.mul sz).mul ln2Q
    if p.isZero then .fin false Q.zero else .fin (decide (p.num < 0)) p
  | x => x

def drainMode (rm : BitVec 3) : RMode := (RMode.ofCode rm 0).getD .rne

/-- Column `c` of a drained row falls on a pad position: past EXT0, in a block that begins within it (R128). -/
def DrainDesc.isPad (d : DrainDesc) (c : Nat) : Bool :=
  let i0 := d.ab.toInt + (c : Int)
  let n := (Rec.of d.bfr).ext0
  decide ((n : Int) ≤ i0) && decide (0 ≤ i0) && decide (i0 / 32 * 32 < (n : Int))

/-- The canonical bytes of one row's run and its flags; pad positions count as zero elements (R128, R131); `v c` is the exact value of column `c` of the row (R245). -/
def canonRow (d : DrainDesc) (f : Fmt) (row : Nat) (v : Nat → Val) : List Byte × Fx :=
  let m := drainMode d.rm
  let u (c : Nat) : Nat :=
    if m = .sr then srBits d.seed d.stream (BitVec.ofNat 32 ((d.area.row0 + row) * 128 + d.area.col0 + c)) else 0
  if f.isMx then
    let r := Rec.of d.bfr
    let bs := (List.range (d.area.cols / 32)).map fun b =>
      encMxBlock f m none ((List.range 32).map fun i =>
        { v := if d.isPad (32 * b + i) then .fin false Q.zero else v (32 * b + i), u := u (32 * b + i) })
    (leBytes (d.area.cols * f.bits / 8) (packCodes' f.bits (bs.flatMap (·.2.1))) ++
      bs.zipIdx.flatMap (fun b => BitVec.ofNat 8 b.1.1 ::
        (if f.isTagged then [destTag r f (d.aa.toInt + row) d.ac.toInt (d.ab.toInt / 32 + b.2)] else [])),
     Fx.joinAll (bs.map (·.2.2)))
  else
    let es := (List.range d.area.cols).map fun c => drainElem f m (u c) (v c)
    (leBytes (d.area.cols * f.bits / 8) (packCodes' f.bits (es.map (·.1))), Fx.joinAll (es.map (·.2)))
where
  /-- Codes packed lowest first. -/
  packCodes' (w : Nat) (l : List Nat) : Nat := l.foldr (fun c a => a * 2 ^ w + c % 2 ^ w) 0

/-- A path's canonical bytes and flags (R245, R265). -/
def canonical (d : DrainDesc) (w : Sow) (t : Tile) (map : List (List (Option (BitVec 8 × BitVec 32)))) : List Byte × Fx :=
  let f := (Rec.of d.bfr).format.getD .fp32
  let val (r c : Nat) : Val := (t.get (d.area.row0 + r) (d.area.col0 + c)).value t.w
  let rows := (List.range d.area.rows).map fun r => canonRow d f r (val r)
  let grads := if d.grad then (List.range d.area.rows).map fun r => canonRow d .fp32 r fun c =>
      gradLs (val r c) (sigmaZ map w (d.area.row0 + r) (d.area.col0 + c))
    else []
  ((rows ++ grads).flatMap (·.1), Fx.joinAll ((rows ++ grads).map (·.2)))

/-! ### The digest (R244, R246) -/

/-- Sums of R244 over bytes, word by word from word `i`. -/
def tsdSums : Nat → Nat → List Byte → BitVec 64 × BitVec 64
  | 0, _, _ => (0, 0)
  | fuel + 1, i, l =>
    match l with
    | [] => (0, 0)
    | _ =>
      let w := BitVec.ofNat 64 (leValue (l.take 8))
      let r := tsdSums fuel (i + 1) (l.drop 8)
      (r.1 + w, r.2 + BitVec.ofNat 64 (i + 1) * w)

/-- S1 and S2 of a byte sequence with a seed. -/
def tsd128 (seed : BitVec 64) (l : List Byte) : BitVec 64 × BitVec 64 :=
  let r := tsdSums (l.length / 8 + 1) 0 l
  (seed + r.1, r.2)

def tsd64 (seed : BitVec 64) (l : List Byte) : BitVec 64 := (tsd128 seed l).1 ^^^ (tsd128 seed l).2

/-- The tile id of R242. -/
def tileId (s : State) (t : BitVec 2) : Nat := s.coreNo.toNat * 4 + t.toNat

/-- The seed of R246. -/
def drainSeed (s : State) (d : DrainDesc) : BitVec 64 :=
  (d.dseq.setWidth 64 <<< 32) ||| BitVec.ofNat 64 (tileId s d.tile * 65536 + d.area.rows * 256 + d.area.cols)

/-- Injects into a half (R354): an offset beyond it has no effect. -/
def injectByte (l : List Byte) : Option (BitVec 64 × BitVec 8) → List Byte
  | none => l
  | some (off, mask) => match l[off.toNat]? with
    | some b => l.set off.toNat (b ^^^ mask)
    | none => l

/-- R345: an entry of a tile whose JOVF is set is not checked, and the strand's next mdrain is sampled instead: the next entry in
the Pound, or the next mdrain to issue. An entry that the Reeve has settled, but that has not committed, goes to it again. -/
def passSample (s : State) (strand : Nat) : List PEntry → State
  | [] => if strand = s.ctx.strand then setMxCtx s { s.ctx.mx with sampleNext := true } else s
  | e :: rest =>
    if (findOp s e.op).any fun o => o.strand == strand then
      if e.formed && e.journal.jovf then passSample s strand rest
      else setMx s { s.mx with pound := s.mx.pound.map fun x =>
        if x.op == e.op then
          { x with
            d := { x.d with sampled := some (x.d.sampled.getD x.d.sunits), forced := if x.settled.isSome then none else x.d.forced }
            settled := none
            commitAt := if x.settled.isSome then s.cycle + 4 + ceilDiv (drainBytes x.d) 256 else x.commitAt }
        else x }
    else passSample s strand rest

/-- The signatures of a drain reach the msigr that waits for them (R266). -/
def giveSignatures (s : State) (id : Nat) (m q : BitVec 64) : State :=
  { s with ops := s.ops.map fun o => match o.kind with
      | .mx (.sigr ad ab (some d) _ _) =>
        if d = id then { o with kind := .mx (.sigr ad ab none m q), due := max o.due (s.cycle + 6) } else o
      | _ => o }

/-- A drain as its region is read: the paths that run now drain and sign, and only in single-path mode can its DSEQ sample it (R345);
a gradient drain reads the map as it stands (R281). -/
def formedDrain (s : State) (d : DrainDesc) : DrainDesc :=
  { d with ref := if d.grad then s.ctx.mx.refDesc else none, mode := s.mx.works,
           sampled := if s.mx.works = .dual then none else d.sampled }

/-- TILE_SIGNATURE_FORMED (R248): the drain reads its region, the halves and the signatures are formed. -/
def execTileSignatureFormed (id : Nat) (s : State) : Host.Outcome State Fault Refusal :=
  match findOp s id, s.mx.pound.find? fun e => e.op == id with
  | some op, some e =>
    if e.formed then .next s else
    let d := formedDrain s e.d
    let cm := canonical d d.sow (s.mx.mill.tile d.tile) s.mx.mill.map
    let cq := canonical d d.sowQ (s.mx.quern.tile d.tile) s.mx.quern.map
    let bm := injectByte cm.1 d.injM
    let bq := injectByte cq.1 d.injQ
    let bm' := if d.mode = .quern then bq else bm
    let bq' := if d.mode = .mill then bm else bq
    let seed := drainSeed s d
    let j := s.mx.journals[d.tile.toNat]
    let passes := d.sampled.isSome && j.jovf
    let e' : PEntry := { e with
      formed := true, mill := bm', quern := bq', sigM := tsd64 seed bm', sigQ := tsd64 seed bq',
      fx := if d.mode = .quern then cq.2 else cm.2, w := ((if d.mode = .quern then s.mx.quern else s.mx.mill).tile d.tile).w,
      journal := j, commitAt := s.cycle + 4 + ceilDiv (drainBytes d) 256,
      d := if passes then { d with sampled := none } else d }
    let t := setMx s { s.mx with pound := s.mx.pound.map fun x => if x.op == id then e' else x }
    let t := if d.clr then
        updJournal (onPaths t fun p => p.setTile d.tile (clearArea (p.tile d.tile) d.area)) d.tile fun j =>
          j.append (.clear d.area) []
      else t
    let later := op.strand ≠ s.ctx.strand || (match s.ctx.mx.latest with
      | some l => decide (id < l.1)
      | none => false)
    let t := setMxCtx t { t.ctx.mx with latest := if later then s.ctx.mx.latest else some (id, e'.sigM, e'.sigQ) }
    let t := giveSignatures t id e'.sigM e'.sigQ
    let t := if passes then passSample t op.strand (t.mx.pound.filter fun x => decide (id < x.op)) else t
    .next (updateOp t id fun o => { o with kind := .mx (.drain d.tile d.clr d.grad true), due := op.due })
  | _, _ => .next s

/-! ### msigr, msync, mcb and mstat (R266 to R269) -/

/-- The latest mdrain issued by this strand: its number while its signatures are not formed, or its signatures; zeros before
the strand's first (R266). -/
def latestSignatures (s : State) : Option Nat × BitVec 64 × BitVec 64 :=
  let open_ := s.ops.foldl (fun n o => match o.kind with
    | .mx (.drain _ _ _ false) => if o.strand = s.ctx.strand then max n (o.id + 1) else n
    | _ => n) 0
  match s.ctx.mx.latest with
  | some l => if l.1 < open_ then (some (open_ - 1), 0, 0) else (none, l.2.1, l.2.2)
  | none => if open_ = 0 then (none, 0, 0) else (some (open_ - 1), 0, 0)

def execMsigr (h : Hdr) (ad ab : BitVec 5) (s : State) : Host.Outcome State Fault Refusal :=
  mxPrivate s h [] { legal := fun _ => encodingOk (.msigr h ad ab) false } fun s =>
    let sig := latestSignatures s
    addMx s 6 true ((destinations ad ab).map fun n => .a n 0) (.sigr ad ab sig.1 sig.2.1 sig.2.2)
where
  /-- Registers that msigr writes; a0 discards. -/
  destinations (ad ab : BitVec 5) : List Nat :=
    (if ad = 0 then [] else [ad.toNat]) ++ (if ab = 0 then [] else [ab.toNat])

/-- msync issues once every Pound entry of the strand is gone. -/
def execMsync (h : Hdr) (s : State) : Host.Outcome State Fault Refusal :=
  mxPrivate s h []
    { legal := fun _ => encodingOk (.msync h) false
      need := fun s => if s.mx.pound.isEmpty then none else some .other } id

/-- The entries of a codebook load as a region. -/
def CbDesc.region (d : CbDesc) : Region2 := ⟨d.aa.toInt, 0, 0, if d.n256 then 256 else 16, 1⟩

def execMcb (h : Hdr) (fe : BitVec 2) (cbn : BitVec 2) (n256 : BitVec 1) (bf : BitVec 4) (aa : BitVec 5) (s : State) :
    Host.Outcome State Fault Refusal :=
  let d : CbDesc := ⟨readBf s .mxe bf, readA s .mxe aa, n256 = 1⟩
  let r := Rec.of d.bfr
  let spans := d.region.spans r .e4m3
  mxPrivate s h [ra aa]
    { legal := fun _ => encodingOk (.mcb h fe cbn n256 bf aa) false
      need := fun s => slotWait s r
      traps := fun s => match r.fieldTrap (fe ≠ 0) (· == .e4m3) with
        | some t => some t
        | none => worst (d.region.check s .mxe r .e4m3 .read)
      full := fun s => granuleWait s .mxe (feGranules s fe r spans) true }
    fun s => addMxOn (fetchIssue s fe r spans) 8 false (.cb cbn d fe) (spanHandles s r spans)

/-- The entries that a codebook load reads; those out of bounds or uncorrectable are 0x00. -/
def cbEntries (s : State) (d : CbDesc) : List (Byte × Bool) :=
  let r := Rec.of d.bfr
  (List.range d.region.n0).map fun (j : Nat) =>
    let i0 := d.aa.toInt + (j : Int)
    if !r.inside i0 0 0 then (0, false)
    else match fetchSpan s r ⟨r.rowAt 0 0 + i0, 1⟩ with
      | .val n => (BitVec.ofNat 8 n, false)
      | .ecc => (0, true)
      | .lost => (0, false)

/-- A codebook with its first entries replaced. -/
def putBook (old new : List Byte) : List Byte := new ++ (old ++ List.replicate (256 - old.length) 0).drop new.length

/-- mcb completes: both copies in one step (R268). -/
def landCb (s : State) (op : Op) (n : BitVec 2) (d : CbDesc) (fe : BitVec 2) : State :=
  let r := Rec.of d.bfr
  let spans := d.region.spans r .e4m3
  withOperand s op r spans fun s bad =>
    let es := cbEntries s d
    let new := es.map (·.1)
    let m := s.ctx.mx
    let v := s.ctx.vec
    let s := setCtx s { s.ctx with
      mx := { m with cb := m.cb.set n.toNat (putBook m.cb[n.toNat] new), cbDesc := m.cbDesc.set n.toNat (some d),
                     cbEcc := m.cbEcc.set n.toNat (m.cbEcc[n.toNat].filter fun w => decide (new.length ≤ 8 * w)) }
      vec := { v with cb := v.cb.set n.toNat (putBook v.cb[n.toNat] new) } }
    let ecc := es.zipIdx.filterMap fun e => if e.1.2 then some (d.aa.toInt + (e.2 : Int), (0 : Int), (0 : Int)) else none
    faultAsync (removeOp (emptyAfter (logEcc s 2 ecc) fe r spans) op.id) .mxe op.pc bad

def PathMode.code : PathMode → BitVec 2
  | .dual => 0
  | .mill => 1
  | .quern => 2
  | .offline => 3

def PlaneState.code : PlaneState → BitVec 2
  | .empty => 0
  | .filling => 1
  | .full => 2

/-- Bits 7:0 of MSTAT (Table 6.2). -/
def mstatFlags (f : Fx) : BitVec 8 :=
  bit1 f.eccz ++ bit1 f.asat ++ bit1 f.nan ++ bit1 f.sat ++ bit1 f.nx ++ bit1 f.uf ++ bit1 f.of ++ bit1 f.nv

def mstatValue (s : State) : BitVec 64 :=
  let p := runPath s
  0#22 ++ s.mx.mode.code ++ 0#2 ++ p.shadow.st.code ++ bit1 (decide (p.active.st = .full)) ++
    bit1 (decide (p.active.st = .full) && p.active.dbl) ++ BitVec.ofNat 9 (poundUsed s) ++ 0#17 ++ mstatFlags s.ctx.mx.flags

/-- Clears the flags of a W1C value. -/
def mstatClear (f : Fx) (v : BitVec 64) : Fx :=
  { f with nv := f.nv && !bitAt v 0, of := f.of && !bitAt v 1, uf := f.uf && !bitAt v 2, nx := f.nx && !bitAt v 3,
           sat := f.sat && !bitAt v 4, nan := f.nan && !bitAt v 5, asat := f.asat && !bitAt v 6, eccz := f.eccz && !bitAt v 7 }

def execMstat (h : Hdr) (clr : BitVec 1) (ad : BitVec 5) (s : State) : Host.Outcome State Fault Refusal :=
  mxPrivate s h [] { legal := fun _ => encodingOk (.mstat h clr ad) false } fun s =>
    addMx s 6 true [.a ad.toNat 0] (.stat (clr = 1) ad)

/-! ### Commit (R249) -/

/-- The writes of one record of an entry: `codes` holds a run for each drained row. -/
def commitBytes (r : Rec) (f : Fmt) (g : Region2) (runs : List (List Byte)) : List (Span × Nat × Nat × Nat) :=
  runs.zipIdx.flatMap fun run =>
    let i1 := g.i1 + (run.2 : Int)
    let row := r.rowAt i1 g.i2
    let v := leValue run.1
    (List.range g.n0).flatMap (fun (c : Nat) =>
      let i0 := g.i0 + (c : Int)
      let code := v / 2 ^ (c * f.bits) % 2 ^ f.bits
      let sp := codeSpan row f.bits i0
      if r.inside i0 i1 g.i2 then [(sp.1, sp.2, f.bits, code)]
      else if f.isMx && r.inside (i0 / 32 * 32) i1 g.i2 then [(sp.1, sp.2, f.bits, 0)] else []) ++
    (if f.isMx then (List.range (g.n0 / 32)).flatMap fun (b : Nat) =>
      let j := g.i0 / 32 + (b : Int)
      let sc := leValue ((run.1.drop (g.n0 * f.bits / 8 + b * f.scaleBytes)).take f.scaleBytes)
      if r.inside (32 * j) i1 g.i2 then [(scaleSpan f r.ext0 row j.toNat, 0, 8 * f.scaleBytes, sc)] else []
    else [])

/-- Pieces of `n` bytes. -/
def chunks {α : Type} (n : Nat) : Nat → List α → List (List α)
  | 0, _ => []
  | k + 1, l => l.take n :: chunks n k (l.drop n)

/-- Performs one record's writes of a commit (R249): bytes of armed barrier lines keep their values (R394), the granules are set
full as a release at .core, or at .quad for a handle reached through space 0b10. Bytes of a package that has fallen silent are not
written (R484). -/
def commitRecord (s : State) (r : Rec) (f : Fmt) (g : Region2) (runs : List (List Byte)) :
    State × Option (Code × BitVec 64) :=
  let w := commitBytes r f g runs
  let q := w.foldr (fun x (q : List CodeWrite × Option (Code × BitVec 64)) =>
    match locate s r true x.1.bytes with
    | .ok ls => (match (ls.filterMap fun l => remotePkg s l.key).find? (silentPkg s) with
      | some p => (q.1, some (.peerSilent, silentOperand s p))
      | none => (⟨ls, x.2.1, x.2.2.1, x.2.2.2⟩ :: q.1, q.2))
    | .perm a => (q.1, some (.permission, r.spaceAddr (a : Int)))
    | .miss _ => q) ([], none)
  let t := writeCodes s .drain r.cache q.1
  let spans := w.map (·.1)
  let u := if r.space = 2 && !spans.isEmpty then releaseActions t.1 1 else t.1
  (setFull u (spanGranules u r spans) true,
    if q.2.isSome then q.2 else t.2.map fun a => (Code.permission, r.spaceAddr (a : Int)))

/-- The bytes that a commit writes: the Reeve's, or the Mill's, or those of a Quern that runs alone (R249). -/
def commitBytesOf (s : State) (e : PEntry) : List Byte := match e.settled with
  | some x => x.bytes
  | none => if s.mx.works = .quern then e.quern else e.mill

/-- The destination spans of an entry, by record. -/
def PEntry.dests (e : PEntry) : List (Rec × List Span) :=
  let d := e.d
  let g := drainRegion d.aa d.ab d.ac d.area
  let r := Rec.of d.bfr
  (r, drainSpans r (r.format.getD .fp32) g) ::
    (if d.grad then [(Rec.of d.bfr2, drainSpans (Rec.of d.bfr2) .fp32 g)] else [])

/-- All writes of an entry, in one step. -/
def commitWrites (s : State) (e : PEntry) : State × Option (Code × BitVec 64) :=
  let d := e.d
  let r := Rec.of d.bfr
  let f := r.format.getD .fp32
  let g := drainRegion d.aa d.ab d.ac d.area
  let bytes := commitBytesOf s e
  let runs := chunks (runBytes f d.area.cols) d.area.rows bytes
  let t := commitRecord s r f g runs
  if d.grad then
    let u := commitRecord t.1 (Rec.of d.bfr2) .fp32 g
      (chunks (4 * d.area.cols) d.area.rows (bytes.drop (4 * d.area.cols * d.area.rows)))
    (u.1, if t.2.isSome then t.2 else u.2)
  else t

end Sys2Proof.Machine
end

