-- ==== Sys2Proof/Machine/Sower.lean ====
section
/-! DEFINITION. The Sower (chapter 7): its registers on both paths, the deviation map and its instructions. -/
namespace Sys2Proof.Machine

/-- Writes both copies of the Sower registers in one step (R280). -/
def setSow (s : State) (f : Sow → Sow) : State :=
  setMx s { s.mx with mill := { s.mx.mill with sow := f s.mx.mill.sow }, quern := { s.mx.quern with sow := f s.mx.quern.sow } }

/-- mpert (R284). -/
def execMpert (h : Hdr) (aa ab ac : BitVec 5) (s : State) : Host.Outcome State Fault Refusal :=
  mxPrivate s h [ra aa, ra ab, ra ac] { legal := fun _ => encodingOk (.mpert h aa ab ac) false } fun s =>
    setSow s fun _ => ⟨field (readA s .mxe aa) 0 32, field (readA s .mxe ab) 0 32, field (readA s .mxe ac) 0 32, true⟩

/-- mpoff (R285). -/
def execMpoff (h : Hdr) (s : State) : Host.Outcome State Fault Refusal :=
  mxPrivate s h [] { legal := fun _ => encodingOk (.mpoff h) false } fun s => setSow s fun w => { w with en := false }

/-- mpstep (R286). -/
def execMpstep (h : Hdr) (ib : BitVec 1) (imm : BitVec 16) (s : State) : Host.Outcome State Fault Refusal :=
  mxPrivate s h [] { legal := fun _ => encodingOk (.mpstep h ib imm) false } fun s =>
    setSow s fun w =>
      if ib = 1 then { w with ibase := w.ibase + imm.signExtend 32 } else { w with stream := w.stream + imm.signExtend 32 }

/-- A sample of a path's Sower (R288). -/
def sowSample (w : Sow) (l : BitVec 64) (hash : Bool) : BitVec 64 :=
  let idx := field l 0 32 + w.ibase
  if hash then (sowMix w.seed w.stream idx).setWidth 64 else BitVec.ofInt 64 (sowN w.seed w.stream idx)

/-- mpsamp (R288). -/
def execMpsamp (h : Hdr) (q hh : BitVec 1) (ad aa : BitVec 5) (s : State) : Host.Outcome State Fault Refusal :=
  mxPrivate s h [ra aa] { legal := fun _ => encodingOk (.mpsamp h q hh ad aa) false } fun s =>
    let p := if q = 1 && quernRuns s then s.mx.quern else if q = 0 && millRuns s then s.mx.mill else runPath s
    addMx s 8 false [.a ad.toNat (sowSample p.sow (readA s .mxe aa) (hh = 1))] .plain

/-- An earlier mpref that fills, or gradient drain that has not read its region (R287). -/
def prefWait (s : State) : Bool := anyMx s fun a =>
  match a with
  | .pref _ _ => true
  | .drain _ _ true false => true
  | _ => false

/-- mpref (R287). -/
def execMpref (h : Hdr) (fe : BitVec 2) (tr : BitVec 1) (bf : BitVec 4) (aa ab ac : BitVec 5) (s : State) :
    Host.Outcome State Fault Refusal :=
  let o := memOp s bf aa ab ac (tr = 1) 0 0
  let r := o.rcd
  let region := o.planeRegion 128
  let spans := region.spans r .mld16
  mxPrivate s h [ra aa, ra ab, ra ac]
    { legal := fun _ => encodingOk (.mpref h fe tr bf aa ab ac) false
      need := fun s => if prefWait s then some .other else slotWait s r
      traps := fun s => match o.fieldTrap fe (· == .mld16) with
        | some t => some t
        | none => worst (region.check s .mxe r .mld16 .read)
      full := fun s => granuleWait s .mxe (feGranules s fe r spans) true }
    fun s =>
      let s := addMxOn (fetchIssue s fe r spans) (ceilDiv (spanBytes spans) 256 + 11) false (.pref (loadDesc s o) fe)
        (spanHandles s r spans)
      setMxCtx s { s.ctx.mx with ref := false }

/-- An entry of the deviation map: ls and the linear position modulo 2 ^ 32, or absent (R281, R287). What an aborted fetch has not
brought reads as 0 (R239). -/
def mapEntry (r : Rec) (c : Int × Int × Int) : LsCell → Option (BitVec 8 × BitVec 32)
  | .ls b => some (b, BitVec.ofInt 32 (linearPos r c.1 c.2.1 c.2.2))
  | .lost => some (0, BitVec.ofInt 32 (linearPos r c.1 c.2.1 c.2.2))
  | .absent => none
  | .ecc => none

/-- The deviation map that an mpref fills from memory as it stands, with the uncorrectable elements. -/
def fillMap (s : State) (d : LoadDesc) : List (List (Option (BitVec 8 × BitVec 32))) × List (Int × Int × Int) :=
  let cells := (List.range 128).map fun k => (List.range 128).map fun n =>
    let c := d.op.coord k n
    (c, lsAt s d.op.rcd c.1 c.2.1 c.2.2)
  (cells.map fun row => row.map fun c => mapEntry d.op.rcd c.1 c.2,
    cells.flatMap fun row => row.filterMap fun c => if c.2 = .ecc then some c.1 else none)

/-- An mpref completes: the map of both paths and REF (R287). -/
def landPref (s : State) (op : Op) (d : LoadDesc) (fe : BitVec 2) : State :=
  let r := d.op.rcd
  let spans := (d.op.planeRegion 128).spans r .mld16
  withOperand s op r spans fun s bad =>
    let f := fillMap s d
    let s := onPaths s fun p => { p with map := f.1 }
    let s := setMxCtx s { s.ctx.mx with ref := true, refDesc := some d }
    faultAsync (removeOp (emptyAfter (logEcc s 0 f.2) fe r spans) op.id) .mxe op.pc bad

end Sys2Proof.Machine
end

