-- ==== Sys2Proof/Machine/Reeve.lean ====
section
/-! DEFINITION. The Reeve (chapter 9): requests, recomputation from the tile journal, settlement, commit and discard of
Pound entries, its records and its instructions; and the landing of matrix results. -/
namespace Sys2Proof.Machine

/-! ### Units (R332) -/

def DrainDesc.fmt (d : DrainDesc) : Fmt := (Rec.of d.bfr).format.getD .fp32

/-- Units of a row, and of the drain. -/
def DrainDesc.perRow (d : DrainDesc) : Nat := if d.fmt.isMx then d.area.cols / 32 else d.area.cols
def DrainDesc.units (d : DrainDesc) : Nat := d.area.rows * d.perRow

/-- The columns of a unit, counted from the drained region's first. -/
def DrainDesc.unitCols (d : DrainDesc) (u : Nat) : List Nat :=
  if d.fmt.isMx then keyRange (u % d.perRow * 32) 32 else [u % d.perRow]

/-- Byte ranges of a unit within a row's run of g_mu or plain codes. -/
def DrainDesc.unitInRow (d : DrainDesc) (u : Nat) : List (Nat × Nat) :=
  let f := d.fmt
  let x := u % d.perRow
  if f.isMx then [(x * 4 * f.bits, 4 * f.bits), (d.area.cols * f.bits / 8 + x * f.scaleBytes, f.scaleBytes)]
  else [(x * f.bits / 8, f.bits / 8)]

/-- Byte ranges of a unit within the canonical bytes. -/
def DrainDesc.unitRanges (d : DrainDesc) (u : Nat) : List (Nat × Nat) :=
  let rb := runBytes d.fmt d.area.cols
  let row := u / d.perRow
  (d.unitInRow u).map (fun x => (row * rb + x.1, x.2)) ++
    (if d.grad then (d.unitInRow u).map (fun x => ((d.area.rows + row) * rb + x.1, x.2)) else [])

def takeRange (l : List Byte) (x : Nat × Nat) : List Byte := (l.drop x.1).take x.2
def DrainDesc.unitBytes (d : DrainDesc) (l : List Byte) (u : Nat) : List Byte := (d.unitRanges u).flatMap (takeRange l)

/-- Replaces a unit's bytes. -/
def putRanges (l : List Byte) : List (Nat × Nat) → List Byte → List Byte
  | [], _ => l
  | x :: r, bs => putRanges (l.take x.1 ++ bs.take x.2 ++ l.drop (x.1 + x.2)) r (bs.drop x.2)

/-- The units that a forced check names (R352). -/
def DrainDesc.forcedUnits (d : DrainDesc) : List Nat :=
  match d.forced with
  | none => []
  | some g => (List.range d.units).filter fun u =>
      let m := d.area.row0 + u / d.perRow
      decide (g.row0 ≤ m) && decide (m < g.row0 + g.rows) &&
        (d.unitCols u).any fun c => decide (g.col0 ≤ d.area.col0 + c) && decide (d.area.col0 + c < g.col0 + g.cols)

/-- The units that a sampled check draws, each once (R345). -/
def sampledUnits (s : State) (d : DrainDesc) (n : Nat) : List Nat :=
  (List.range n).foldl (fun l j =>
    let u := (sowMix d.dseq (BitVec.ofNat 32 (tileId s d.tile)) (BitVec.ofNat 32 j)).toNat % d.units
    if l.contains u then l else l ++ [u]) []

/-! ### Reading the sources again (R335) -/

/-- Readies a source: raw bytes under dirty alias lines are brought up to date (R402). -/
def reevePrep (s : State) (r : Rec) (l : List Span) : State :=
  if r.space ≠ 0 then s else
  let s := quietWalk s s.ctx.part (spanPages r l)
  match locate s r false (l.flatMap Span.bytes) with
  | .ok ls => (readPrep (engineFlits s .mxe .read (ls.map (·.key))) r.cache ls).1
  | _ => s

/-- Spans of an operand's plane. -/
def LoadDesc.spans (d : LoadDesc) : List Span := (d.op.planeRegion (classK d.op.dbl)).spans d.op.rcd d.op.fmt

def StreamDesc.k (d : StreamDesc) : Nat := match d.plane with
  | some l => classK l.op.dbl
  | none => 128

/-- Readies a codebook's source. -/
def prepBook (s : State) : Option CbDesc → State
  | some b => reevePrep s (Rec.of b.bfr) (b.region.spans (Rec.of b.bfr) .e4m3)
  | none => s

/-- Readies every source that a journal and a drain name. -/
def prepSources (s : State) (steps : List JStep) (ref : Option LoadDesc) : State :=
  let s := steps.foldl (fun s x => match x.kind with
    | .stream d =>
      let s := prepBook (reevePrep s d.op.rcd ((d.region d.k).spans d.op.rcd d.op.fmt)) d.book
      match d.plane with
        | some l => prepBook (reevePrep s l.op.rcd l.spans) l.book
        | none => s
    | _ => s) s
  match ref with
  | some l => reevePrep s l.op.rcd l.spans
  | none => s

/-- A codebook read again: its entries, or nothing when it cannot be read. -/
def bookAgain (s : State) : Option CbDesc → Option Book
  | some d =>
    let r := Rec.of d.bfr
    let lost := (List.range d.region.n0).any fun (j : Nat) =>
      let i0 := d.aa.toInt + (j : Int)
      r.inside i0 0 0 && fetchSpan s r ⟨r.rowAt 0 0 + i0, 1⟩ = .lost
    if lost then none else some ((putBook [] ((cbEntries s d).map (·.1))).map some)
  | none => some ((List.replicate 256 0).map some)

/-- Operand cells read again; nothing when one of them cannot be read. -/
def readAgain (s : State) (o : OpDesc) (book : Option CbDesc) (g : Region2) : Option (List Cell) :=
  match if o.usesCb then bookAgain s book else some [] with
  | none => none
  | some book =>
    let cells := (g.cells s o.rcd o.fmt o.pfmt book).flatten
    if cells.contains .lost then none else some cells

/-- The Sower state that a load recorded: the running path's. -/
def LoadDesc.recorded (d : LoadDesc) (mode : PathMode) : Sow := if mode = .quern then d.sowQ else d.sow

/-- The weights of column `n` of a plane as its load would decode them now. -/
def weightsAgain (s : State) (mode : PathMode) (d : StreamDesc) (n : Nat) : Option (List Val) :=
  match d.plane with
  | none => some []
  | some l =>
    let o := l.op
    let g : Region2 :=
      if o.tr then ⟨o.ab.toInt, o.aa.toInt + (n : Int), o.ac.toInt, d.k, 1⟩
      else ⟨o.ab.toInt + (n : Int), o.aa.toInt, o.ac.toInt, 1, d.k⟩
    (readAgain s o l.book g).map fun cells => cells.zipIdx.map fun c =>
      let q := o.coord c.2 n
      weightOf (l.recorded mode) o.rcd q.1 q.2.1 q.2.2 c.1

/-- A STREAM step on one element. -/
def streamAgain (s : State) (mode : PathMode) (d : StreamDesc) (m n : Nat) (z : AccElem) : Option AccElem :=
  let g : Region2 := ⟨d.op.ab.toInt, d.op.aa.toInt + ((m - d.row0 : Nat) : Int), d.op.ac.toInt, d.k, 1⟩
  match readAgain s d.op d.book g, weightsAgain s mode d n with
  | some xs, some ys => some (accumulate d.w.toInt z (xs.map activationOf) ys).1
  | _, _ => none

def Area.has (g : Area) (m n : Nat) : Bool :=
  decide (g.row0 ≤ m) && decide (m < g.row0 + g.rows) && decide (g.col0 ≤ n) && decide (n < g.col0 + g.cols)

/-- The procedure of R336 on element `(m, n)` of a journal; nothing when a source cannot be read. -/
def recompute (s : State) (mode : PathMode) (m n : Nat) : Nat → List JStep → Option AccElem
  | 0, _ => some AccElem.zero
  | fuel + 1, steps => (journalEntries steps).foldl (fun acc e =>
      match acc, e with
      | some z, x :: copy =>
        if !x.kind.area.has m n then some z else
        let z := if x.kind.clearing then AccElem.zero else z
        match x.kind with
        | .stream d => streamAgain s mode d m n z
        | .add sh =>
          (recompute s mode m n fuel (copy.map fun y => { y with depth := y.depth - 1 })).map fun a =>
            ⟨BitVec.ofInt 80 (clamp80 (z.z.toInt + ((Q.ofInt a.z.toInt).scale sh).floor)).1, combineTags z.t a.t⟩
        | .zero => some z
        | .clear _ => some z
      | acc, _ => acc) (some AccElem.zero)

/-- σ × z of a gradient unit from the mpref that filled the map (R334); nothing when its source cannot be read. -/
def sigmaAgain (s : State) (d : DrainDesc) (k n : Nat) : Option Q :=
  match d.ref with
  | none => some Q.zero
  | some l =>
    let c := l.op.coord k n
    let w := if d.mode = .quern then d.sowQ else d.sow
    match lsAt s l.op.rcd c.1 c.2.1 c.2.2 with
    | .lost => none
    | x => match mapEntry l.op.rcd c x with
      | none => some Q.zero
      | some p => some (if w.en then (mldSigma p.1).mul (sowZ w.seed w.stream (p.2 + w.ibase)) else Q.zero)

/-- The Reeve's bytes of a unit (R336). -/
def reeveUnit (s : State) (e : PEntry) (u : Nat) : Option (List Byte) :=
  let d := e.d
  let row := u / d.perRow
  let m := d.area.row0 + row
  let cols := d.unitCols u
  let vals := cols.map fun c =>
    (recompute s d.mode m (d.area.col0 + c) (e.journal.steps.length + 1) e.journal.steps).map fun z => (c, z.value e.w)
  let sigs := cols.map fun c => if d.grad then (sigmaAgain s d m (d.area.col0 + c)).map fun q => (c, q) else some (c, Q.zero)
  if vals.any (·.isNone) || sigs.any (·.isNone) then none else
  let val (c : Nat) : Val := getAssoc (vals.filterMap id) c (.fin false Q.zero)
  let run := (canonRow d d.fmt row val).1
  let grad := (canonRow d .fp32 row fun c => gradLs (val c) (getAssoc (sigs.filterMap id) c Q.zero)).1
  some ((d.unitInRow u).flatMap (takeRange run) ++ (if d.grad then (d.unitInRow u).flatMap (takeRange grad) else []))

/-! ### Requests (R330, R331, R348) -/

/-- The request that an entry is, if it is one. -/
def PEntry.request (e : PEntry) : Option ReeveKind :=
  if !e.formed || e.settled.isSome then none
  else if e.d.mode = .dual && e.sigM ≠ e.sigQ then some .mismatch
  else if e.d.sampled.isSome then some .sampled
  else if !e.d.forcedUnits.isEmpty then some .forced
  else none

/-- The cycle in which the Reeve can take an entry's request: 4 after its signatures are formed (R348). -/
def PEntry.takenAt (e : PEntry) : Nat := e.commitAt - ceilDiv (drainBytes e.d) 256

/-- The request that the Reeve serves next: of those that have been in its queue for 4 cycles, the one that reached it first
(R331). -/
def reeveNext (s : State) : Option (PEntry × ReeveKind) :=
  s.mx.pound.foldl (fun best e =>
    match e.request with
    | none => best
    | some k =>
      if s.cycle < e.takenAt then best else
      match best with
      | some b => if e.takenAt < b.1.takenAt then some (e, k) else best
      | none => some (e, k)) none

/-- What a request comes to: its REASON (0 when resolved), the bytes, the paths named, the size of D, signature-only. -/
structure Verdict where
  reason : Nat
  bytes : List Byte
  mill : Bool
  quern : Bool
  units : Nat
  sigOnly : Bool
deriving DecidableEq, Repr

/-- Settles units one after another (R337, R339, R345); `fuse` counts the units until the Reeve detects an error of its own. -/
def settleUnits (s : State) (e : PEntry) (fuse : Option Nat) : List Nat → Verdict → Verdict
  | [], v => v
  | u :: rest, v =>
    if fuse = some 0 then { v with reason := 5 } else
    match reeveUnit s e u with
    | none => { v with reason := 3 }
    | some r =>
      let m := e.d.unitBytes e.mill u
      let q := e.d.unitBytes e.quern u
      let v := if r ≠ m && r ≠ q then { v with reason := if e.d.mode = .dual then 1 else 4 }
        else { v with bytes := putRanges v.bytes (e.d.unitRanges u) r, mill := v.mill || r ≠ m, quern := v.quern || r ≠ q }
      settleUnits s e (fuse.map (· - 1)) rest v

/-- The units that a request examines (R330, R336). -/
def requestUnits (s : State) (e : PEntry) (k : ReeveKind) : List Nat :=
  let forced := e.d.forcedUnits
  let first := match k with
    | .mismatch => (List.range e.d.units).filter fun u => e.d.unitBytes e.mill u ≠ e.d.unitBytes e.quern u
    | .sampled => sampledUnits s e.d (e.d.sampled.getD 0)
    | .forced => []
  first ++ forced.filter fun u => !first.contains u

/-- R336 to R340, R345: what the Reeve finds. -/
def arbitrate (s : State) (e : PEntry) (k : ReeveKind) : Verdict :=
  let us := requestUnits s e k
  let v : Verdict := { reason := 0, bytes := e.mill, mill := false, quern := false, units := us.length, sigOnly := false }
  if s.mx.rvErr = some 0 then { v with reason := 5 }
  else if us.isEmpty then
    let own := tsd64 (drainSeed s e.d) e.mill
    { v with mill := decide (e.sigM ≠ own), quern := decide (e.sigQ ≠ own), sigOnly := true }
  else if e.journal.jovf then { v with reason := 2 }
  else settleUnits s e s.mx.rvErr us v

/-! ### Ends of a request (R338, R339, R341, R343, R344) -/

def ReeveKind.code : ReeveKind → BitVec 4
  | .mismatch => 1
  | .sampled => 2
  | .forced => 3

def PEntry.injected (e : PEntry) : Bool := e.d.injM.isSome || e.d.injQ.isSome

/-- OPERAND0 of an arbitration record (Table 9.2). -/
def arbOperand0 (s : State) (e : PEntry) (reason : Nat) (mill quern sigOnly : Bool) : BitVec 64 :=
  0#4 ++ BitVec.ofNat 4 reason ++ 0#4 ++ bit1 e.injected ++ bit1 sigOnly ++ bit1 quern ++ bit1 mill ++ e.d.dseq ++
    BitVec.ofNat 16 (tileId s e.d.tile)

/-- OPERAND1 of an arbitration record (R341). -/
def arbOperand1 (e : PEntry) (units : Nat) : BitVec 64 := BitVec.ofNat 32 units ++ 0#14 ++ BitVec.ofNat 18 (e.off * 1024)

/-- MSTAT.MODE once paths retire (R344). -/
def retire (mode : PathMode) (action : BitVec 2) (m q : Bool) : PathMode :=
  match mode with
  | .dual =>
    if !m && !q then .dual else if action ≠ 0 || (m && q) then .offline else if m then .quern else .mill
  | .mill => if m then .offline else .mill
  | .quern => if q then .offline else .quern
  | .offline => .offline

/-- Adds namings to REEVE.HEALTH; whether they bring the Mill's or the Quern's counter to THRESH. -/
def addHealth (s : State) (m q : Bool) : State × Bool × Bool :=
  let x := s.mx
  let merr := if m then satAdd x.merr 1 else x.merr
  let qerr := if q then satAdd x.qerr 1 else x.qerr
  let hit (named : Bool) (n : BitVec 32) : Bool := named && x.thresh ≠ 0 && n.toNat = x.thresh.toNat
  (setMx s { x with merr := merr, qerr := qerr }, hit m merr, hit q qerr)

def setMode (s : State) (m q : Bool) : State :=
  setMx s { s.mx with mode := retire s.mx.mode s.mx.action m q, before := s.mx.works }

/-- The two signatures of a drain as they are shown: the running path's also in the place of a retired one's (R266, R343). -/
def shownSignatures (x : Mx) (m q : BitVec 64) : BitVec 64 × BitVec 64 :=
  (if x.works = .quern then q else m, if x.works = .mill then m else q)

/-- The end of a request. -/
def finishRequest (s : State) (e : PEntry) (k : ReeveKind) (v : Verdict) : State :=
  let op0 := arbOperand0 s e v.reason v.mill v.quern v.sigOnly
  let s := if v.reason = 5 then setMx s { s.mx with rvErr := none } else s
  let sig := shownSignatures s.mx e.sigM e.sigQ
  let s := setMxCtx s { s.ctx.mx with last := k.code ++ (field op0 0 60), lsigM := sig.1, lsigQ := sig.2 }
  let counts := !e.injected
  if v.reason = 0 then
    let h := addHealth s (v.mill && counts) (v.quern && counts)
    let s := h.1
    let e' : PEntry := { e with
      commitAt := s.cycle + 4 + ceilDiv (drainBytes e.d) 256
      settled := some { bytes := v.bytes, mill := v.mill, quern := v.quern, units := v.units, sigOnly := v.sigOnly,
                        retireM := h.2.1, retireQ := h.2.2 } }
    setMx s { s.mx with pound := s.mx.pound.map fun x => if x.op == e.op then e' else x }
  else
    let sample := v.reason = 4 && counts
    let h := addHealth s (sample && e.d.mode = .mill) (sample && e.d.mode = .quern)
    let s := setMode h.1 h.2.1 h.2.2
    let s := setMx s { s.mx with pound := s.mx.pound.filter fun x => x.op != e.op }
    let s := removeOp (dropPush s .mxe e.op) e.op
    strandStop s { code := .reeveUnresolved, tag := 2, async := true, op0 := op0, op1 := arbOperand1 e v.units } false

/-- Serves the next request if it is of kind `k`. -/
def serveRequest (s : State) (k : ReeveKind) : State :=
  match reeveNext s with
  | some (e, k') =>
    if k' = k then
      let s := prepSources s e.journal.steps (if e.d.grad then e.d.ref else none)
      finishRequest s e k (arbitrate s e k)
    else s
  | none => s

def execReeveMismatch (s : State) : Host.Outcome State Fault Refusal := .next (serveRequest s .mismatch)
def execReeveSampledCheck (s : State) : Host.Outcome State Fault Refusal := .next (serveRequest s .sampled)
def execReeveForcedCheck (s : State) : Host.Outcome State Fault Refusal := .next (serveRequest s .forced)

/-! ### Records (R49, R341, R342) -/

/-- Table 1.11. -/
def Code.number : Code → Nat
  | .illegalOp => 0x01
  | .illegalTag => 0x02
  | .scoreboardUnderrun => 0x10
  | .scheduleMiss => 0x11
  | .footprintEscape => 0x20
  | .footprintOverlap => 0x21
  | .translation => 0x30
  | .permission => 0x31
  | .bounds => 0x32
  | .handleNotHeld => 0x33
  | .barrierClobber => 0x34
  | .sqzDecode => 0x40
  | .scaleStep => 0x41
  | .format => 0x42
  | .poison => 0x43
  | .reeveUnresolved => 0x50
  | .reeveResolved => 0x51
  | .feTimeout => 0x60
  | .tokenTimeout => 0x61
  | .trap => 0x70
  | .peerSilent => 0x71
  | .energyQuota => 0x72

/-- The 64 bytes of a record (Table 1.12). -/
def recordBytes (s : State) (code : Nat) (tag : BitVec 3) (async multi info : Bool) (op0 op1 : BitVec 64) : List Byte :=
  let g := s.ctx.eng
  let w0 : BitVec 64 := s.ctx.recSeq ++ 0#4 ++ s.ctx.part ++ s.coreNo ++ 0#2 ++ bit1 info ++ bit1 multi ++ bit1 async ++ tag ++
    BitVec.ofNat 8 code
  let pcThr : BitVec 64 := if s.ctx.thrrun then g.thr.pc else BitVec.allOnes 64
  [w0, g.ctl.pc, g.bte.pc, g.mxe.pc, g.vec.pc, pcThr, op0, op1].flatMap fun w => leBytes 8 w.toNat

/-- A plain write of the Reeve to its log, which the copies in the core's caches follow; none where it is dropped. -/
def logWrite (s : State) (addr : Nat) (bs : List Byte) : Option State :=
  if s.ctx.mx.logSpace then
    if 0x300000 < addr + bs.length then none
    else some (rawWrite s ((keyRange (scratchKey s.coreNo.toNat addr) bs.length).zip bs))
  else if 2 ^ 52 < addr + bs.length then none
  else
    let s := quietWalk s s.ctx.part (pagesOf addr bs.length)
    match translateBytes s s.ctx.part true (keyRange addr bs.length) with
    | .ok ls => some (homeStore s 0 ((ls.map (·.1)).zip bs))
    | _ => none

/-- Posts the informational record of a resolved entry. -/
def postInfo (s : State) (e : PEntry) (v : Settled) : State :=
  let m := s.ctx.mx
  let slot := m.logAddr.toNat * 64 + 64 * (m.logTail.toNat % 2 ^ m.logLog2.toNat)
  let bytes := recordBytes s 0x51 2 true false true (arbOperand0 s e 0 v.mill v.quern v.sigOnly) (arbOperand1 e v.units)
  if !m.logEn then setMxCtx s { m with logTail := m.logTail + 1 }
  else match logWrite s slot bytes with
    | none => setMxCtx s { m with logTail := m.logTail + 1, logLost := true }
    | some s => setCtx s { s.ctx with recSeq := s.ctx.recSeq + 1, mx := { m with logTail := m.logTail + 1 } }

/-! ### Commit (R248, R249) -/

/-- The spans that an outstanding matrix operation has yet to read, with their record. -/
def MxAct.reads (s : State) : MxAct → Option (Rec × List Span)
  | .load d _ => some (d.op.rcd, d.spans)
  | .stream _ d _ pm pq _ =>
    some (d.op.rcd, (d.region (classK (if s.mx.works = .quern then pq.dbl else pm.dbl))).spans d.op.rcd d.op.fmt)
  | .cb _ d _ => some (Rec.of d.bfr, d.region.spans (Rec.of d.bfr) .e4m3)
  | .pref d _ => some (d.op.rcd, (d.op.planeRegion 128).spans d.op.rcd .mld16)
  | _ => none

/-- Keys of spans; none where a page has no translation. -/
def spanKeys (s : State) (r : Rec) (write : Bool) (l : List Span) : Option (List Nat) :=
  match locate s r write (l.flatMap Span.bytes) with
  | .ok ls => some (ls.map (·.key))
  | .perm _ => some []
  | .miss _ => none

/-- Two sets of bytes share one, or it cannot be said yet. -/
def keysMeet : Option (List Nat) → Option (List Nat) → Bool
  | some a, some b => a.any (b.contains ·)
  | _, _ => true

/-- An earlier read of the MXE that has yet to take bytes that the entry writes (R34, R270). -/
def readBefore (s : State) (e : PEntry) : Bool := s.ops.any fun o => o.eng == .mxe && decide (o.id < e.op) && (match o.kind with
  | .mx a => match a.reads s with
    | some (r, l) => e.dests.any fun x => keysMeet (spanKeys s r false l) (spanKeys s x.1 true x.2)
    | none => false
  | _ => false)

/-- The head entry is ready: its time has come, no request holds it, no page or package of its destination holds it, and every
earlier read of its bytes is done. -/
def poundDue (s : State) : Bool :=
  match s.mx.pound with
  | e :: _ => e.formed && e.request.isNone && decide (e.commitAt ≤ s.cycle) && (match findOp s e.op with
    | some o => o.held.isNone && decide (o.due ≤ s.cycle)
    | none => true) && !readBefore s e
  | [] => false

/-- All that a commit does, in one step. -/
def commitEntry (s : State) (e : PEntry) (pc : BitVec 64) (bad : Option (Code × BitVec 64)) : State :=
  let bytes := commitBytesOf s e
  let w := commitWrites s e
  let s := joinMxFlags w.1 e.fx
  let seed := drainSeed s e.d
  let s := setMxCtx s { s.ctx.mx with csig := tsd64 seed bytes, cseed := seed }
  let s := match e.settled with
    | some v => setMode (if v.mill || v.quern then postInfo s e v else s) v.retireM v.retireQ
    | none => s
  let s := removeOp (setMx s { s.mx with pound := s.mx.pound.tail }) e.op
  faultAsync s .mxe pc (if bad.isSome then bad else w.2)

/-- The first destination address in a page, as OPERAND0 gives it. -/
def PEntry.lostAt (e : PEntry) (vpn : Nat) : BitVec 64 :=
  match e.dests.find? fun x => x.1.space = 0 && (spanPages x.1 x.2).contains vpn with
  | some x => x.1.faultAddr (firstIn x.2 vpn)
  | none => 0

/-- The bytes of an entry's destination that have a translation. -/
def PEntry.keys (s : State) (e : PEntry) : List Nat := e.dests.flatMap fun x => (x.2.flatMap Span.bytes).filterMap fun a =>
  match locate s x.1 true [a] with
  | .ok [l] => some l.key
  | _ => none

/-- POUND_COMMIT: a page of the destination that has lost its translation holds the commit (R51), and so does a package without a
route (R482). -/
def execPoundCommit (s : State) : Host.Outcome State Fault Refusal :=
  match s.mx.pound with
  | [] => .next s
  | e :: _ =>
    if !poundDue s then .next s else
    let aborted := match findOp s e.op with
      | some o => o.aborted
      | none => []
    let pages := (e.dests.flatMap fun x => spanPages x.1 x.2).filter fun v => !aborted.contains v
    match walkPages s e.d.part pages with
    | (s, some v) => .next (updateOp s e.op fun o => { o with held := some v })
    | (s, none) =>
      match ((e.keys s).filterMap (remotePkg s)).find? fun p => !silentPkg s p && !routeUp s p with
      | some p => .next (retryOp s e.op (some p))
      | none => .next (commitEntry s e e.pc (aborted.head?.map fun v => (Code.translation, e.lostAt v)))

/-! ### Instructions (R350 to R354) -/

/-- A Reeve register by SEL or number. -/
def reeveReg (s : State) (n : Nat) : BitVec 64 :=
  let m := s.ctx.mx
  let x := s.mx
  match n with
  | 0 => x.qerr ++ x.merr
  | 1 => 0#16 ++ x.thresh ++ x.action ++ 0#2 ++ x.slmin ++ x.slmax ++ 0#4 ++ x.umax ++ 0#4 ++ bit1 x.injok ++ bit1 x.forceok ++
      bit1 x.modeok ++ 0#1
  | 2 => 0#40 ++ m.units ++ 0#12 ++ m.slog2
  | 3 => 0#12 ++ m.logAddr ++ m.logLog2 ++ bit1 m.logSpace ++ bit1 m.logEn
  | 4 => 0#31 ++ bit1 m.logLost ++ m.logTail
  | 5 => m.last
  | 6 => m.lsigM
  | 7 => m.lsigQ
  | 8 => m.csig
  | 9 => m.cseed
  | _ => 0

/-- rstat (R351); it executes in offline mode too. -/
def execRstat (h : Hdr) (sel : BitVec 4) (ad : BitVec 5) (s : State) : Host.Outcome State Fault Refusal :=
  issuePrivate s .mxe h none (encodingOk (.rstat h sel ad) false) [] noNeed fun s =>
    .done (addMx s 1 true [.a ad.toNat 0] (.rstat sel ad))

/-- rchk (R352). -/
def execRchk (h : Hdr) (aa : BitVec 5) (s : State) : Host.Outcome State Fault Refusal :=
  let v := readA s .mxe aa
  mxPrivate s h [ra aa]
    { legal := fun _ => encodingOk (.rchk h aa) false
      traps := fun s => if !s.mx.forceok then some { code := .illegalOp }
        else if (areaOf (aa = 0) v).isNone then some { code := .bounds, op0 := v } else none }
    fun s => setMxCtx s { s.ctx.mx with rchk := some (if aa = 0 then none else areaOf false v) }

/-- Writes REEVE.MODE, clamped (Table 9.5). -/
def putReeveMode (s : State) (v : BitVec 64) : State :=
  let x := s.mx
  let clampTo (lo hi n : Nat) : Nat := if n < lo then lo else if hi < n then hi else n
  setMxCtx s { s.ctx.mx with
    slog2 := BitVec.ofNat 4 (clampTo x.slmin.toNat x.slmax.toNat (field v 0 4).toNat)
    units := BitVec.ofNat 8 (clampTo 1 x.umax.toNat (field v 16 8).toNat) }

/-- rmode (R353). -/
def execRmode (h : Hdr) (aa : BitVec 5) (s : State) : Host.Outcome State Fault Refusal :=
  mxPrivate s h [ra aa]
    { legal := fun _ => encodingOk (.rmode h aa) false
      need := fun s => if statPending s then some .other else none
      traps := fun s => if s.mx.modeok then none else some { code := .illegalOp } }
    fun s => putReeveMode s (readA s .mxe aa)

/-- A write of REEVE.MODE by CSRW (R349). -/
def execReeveModeWrite (v : BitVec 64) (s : State) : Host.Outcome State Fault Refusal :=
  .next (if s.mx.modeok then putReeveMode s v else s)

/-- rinj (R354). -/
def execRinj (h : Hdr) (q : BitVec 1) (aa ab : BitVec 5) (s : State) : Host.Outcome State Fault Refusal :=
  mxPrivate s h [ra aa, ra ab]
    { legal := fun _ => encodingOk (.rinj h q aa ab) false
      traps := fun s => if s.mx.injok then none else some { code := .illegalOp } }
    fun s =>
      let x := some (readA s .mxe aa, field (readA s .mxe ab) 0 8)
      setMxCtx s (if q = 1 then { s.ctx.mx with injQ := x } else { s.ctx.mx with injM := x })

/-! ### The landing of matrix results (R261, R262, R266 to R269, R333) -/

/-- What a matrix, Sower or Reeve operation does when REGISTER_RESULT_LANDING completes it. -/
def landMx (s : State) (op : Op) (a : MxAct) : State :=
  let fin (s : State) : State := removeOp s op.id
  let onTile (zd : BitVec 2) (f : MPath → Tile) : State := onPaths s fun p => p.setTile zd (f p)
  match a with
  | .zero zd => fin (updJournal (onTile zd fun p => ⟨(p.tile zd).w, []⟩) zd fun j => j.append .zero [])
  | .win zd w => fin (setMx s { s.mx with
      mill := s.mx.mill.setTile zd { s.mx.mill.tile zd with w := w }
      quern := s.mx.quern.setTile zd { s.mx.quern.tile zd with w := w } })
  | .copy zd za => fin (updJournal (onTile zd fun p => p.tile za) zd fun _ => s.mx.journals[za.toNat])
  | .add zd za =>
    let jz := s.mx.journals[za.toNat]
    let p := runPath s
    let sh := (p.tile za).w.toInt - (p.tile zd).w.toInt
    let t := onTile zd fun p => (addTiles (p.tile zd) (p.tile za)).1
    let t := updJournal t zd fun j =>
      let j := j.append (.add sh) jz.steps
      { j with jovf := j.jovf || jz.jovf }
    fin (joinMxFlags t { asat := (addTiles (p.tile zd) (p.tile za)).2 })
  | .getz zd q hi ad m n => fin (putA s .mxe ad (getzValue s zd q hi m n))
  | .sigr ad ab _ sigM sigQ =>
    let sig := shownSignatures s.mx sigM sigQ
    fin (putA (putA s .mxe ad sig.1) .mxe ab sig.2)
  | .stat clr ad =>
    let v := mstatValue s
    let s := putA s .mxe ad v
    removeOp (if clr then setMxCtx s { s.ctx.mx with flags := mstatClear s.ctx.mx.flags (v &&& 0xFF) } else s) op.id
  | .rstat sel ad => fin (putA s .mxe ad (reeveReg s sel.toNat))
  | .cb n d fe => landCb s op n d fe
  | .pref d fe => landPref s op d fe
  | .plain => fin (landWrites s .mxe op.ws)
  | .sync => fin s
  | _ => s

/-! ### Stamped issue (R32, R252) -/

/-- The instruction that waits at the MXE for its stamp reaches its cycle. -/
def execStampedIssue (s : State) : Host.Outcome State Fault Refusal :=
  let pc := (s.eng .mxe).pc
  match fetchWord s .mxe pc, fetchWord s .mxe (pc + 4) with
  | some w, some v =>
    match decode w v with
    | some (.mload h st fe tr pfmt cb bf aa ab ac) => execMload h st fe tr pfmt cb bf aa ab ac s
    | some (.mflip h st) => execMflip h st s
    | some (.mstream h st fe acc zd pfmt cb bf aa ab ac am m1) => execMstream h st fe acc zd pfmt cb bf aa ab ac am m1 s
    | some (.mdrain h st clr grad zd rm bf aa ab ac am) => execMdrain h st clr grad zd rm bf aa ab ac am s
    | _ => .next s
  | _, _ => .next s

end Sys2Proof.Machine
end

