-- ==== Sys2Proof/Machine/Bte.lean ====
section
/-! DEFINITION. The block-transfer engine (chapter 8): copies, arrival counters, completion records and the deduplicated
block store. -/
namespace Sys2Proof.Machine

/-! ### Origins, shapes and rows (R294, R296, R297) -/

/-- The three fields of an origin or shape word. -/
def coords (v : BitVec 64) : Nat × Nat × Nat := ((field v 0 24).toNat, (field v 24 20).toNat, (field v 44 20).toNat)

/-- The shape that a0 names: a record's extents cut to their fields. -/
def shapeOf (r : Rec) : BitVec 64 := BitVec.ofNat 20 r.ext2 ++ BitVec.ofNat 20 r.ext1 ++ BitVec.ofNat 24 r.ext0

/-- Positions along i0 that move together: an SQZ8 slot, or one element. -/
def copyUnit (f : Fmt) : Nat := if f = .sqz8 then 256 else 1

/-- Units of a row from `o0` that lie in bounds, of `n` units. -/
def Rec.unitsIn (r : Rec) (f : Fmt) (o : Nat × Nat × Nat) (j1 j2 n : Nat) : Nat :=
  if o.2.1 + j1 < r.ext1 && o.2.2 + j2 < r.ext2 then min n (ceilDiv (r.ext0 - o.1) (copyUnit f)) else 0

/-- The first element of a region, in region order, that lies out of bounds. -/
def Rec.firstOut (r : Rec) (f : Fmt) (o n : Nat × Nat × Nat) : Option (Nat × Nat × Nat) :=
  let u := copyUnit f
  let j0 := ceilDiv (r.ext0 - o.1) u * u
  if n.1 = 0 || n.2.1 = 0 || n.2.2 = 0 then none
  else if o.2.1 ≥ r.ext1 || o.2.2 ≥ r.ext2 then some o
  else if j0 < n.1 then some (o.1 + j0, o.2.1, o.2.2)
  else if r.ext1 - o.2.1 < n.2.1 then some (o.1, r.ext1, o.2.2)
  else if r.ext2 - o.2.2 < n.2.2 then some (o.1, o.2.1, r.ext2)
  else none

def CopyDesc.dst (c : CopyDesc) : Rec := Rec.of c.rd
def CopyDesc.src (c : CopyDesc) : Rec := Rec.of c.rs
def CopyDesc.fmt (c : CopyDesc) : Fmt := c.dst.format.getD .int8
def CopyDesc.srcFmt (c : CopyDesc) : Fmt := if c.form = .fill then c.fmt else c.src.format.getD .int8
def CopyDesc.fills (c : CopyDesc) : Bool := c.form = .fill

/-- A row of a copy: its indices in the region, the units that it writes and those of them that it reads. -/
structure CopyRow where
  j1 : Nat
  j2 : Nat
  w : Nat
  rd : Nat
deriving DecidableEq, Repr, Inhabited

/-- The rows of a copy (R297). -/
def CopyDesc.rows (c : CopyDesc) : List CopyRow :=
  let n := coords c.n
  let units := n.1 / copyUnit c.fmt
  (List.range n.2.2).flatMap fun j2 => (List.range n.2.1).map fun j1 =>
    let dh := c.dst.unitsIn c.fmt (coords c.d) j1 j2 units
    if c.fills then ⟨j1, j2, dh, 0⟩ else
    let sh := c.src.unitsIn c.srcFmt (coords c.s) j1 j2 units
    ⟨j1, j2, if c.src.bmode = 2 then min dh sh else dh, min dh sh⟩

/-- Addresses of a row of a record's region. -/
def Rec.copyRow (r : Rec) (o : Nat × Nat × Nat) (x : CopyRow) : Int :=
  r.rowAt ((o.2.1 + x.j1 : Nat) : Int) ((o.2.2 + x.j2 : Nat) : Int)

/-- The source bytes of a copy. -/
def CopyDesc.srcSpans (c : CopyDesc) : List Span :=
  let o := coords c.s
  c.rows.flatMap fun x => runSpans c.src c.srcFmt (c.src.copyRow o x) o.1 (o.1 + x.rd * copyUnit c.srcFmt)

/-- The destination bytes of a copy, the pad of its written blocks included. -/
def CopyDesc.dstSpans (c : CopyDesc) : List Span :=
  let o := coords c.d
  let f := c.fmt
  c.rows.flatMap fun x =>
    let hi := o.1 + x.w * copyUnit f
    runSpans c.dst f (c.dst.copyRow o x) o.1 (if f.block = 0 then hi else ceilDiv hi f.block * f.block)

/-! ### Items -/

/-- What an item of a copy moves. -/
inductive ItemRole where
  | elem | slot | scale | group | pad
deriving DecidableEq, Repr, Inhabited

/-- An item of a copy: the region position at which it counts, its role, its block and group, where it comes from (or the
constant it writes), where it goes, and the block numbers against which its tag is checked and with which it is written. -/
structure Item' where
  pos : Nat
  role : ItemRole
  blk : Nat
  grp : Nat
  src : Option (Span × Nat)
  const : Nat
  dst : Span × Nat
  bits : Nat
  tagS : Option Nat
  tagD : Option Nat
deriving DecidableEq, Repr, Inhabited

/-- The items of a row of elements. -/
def CopyDesc.elemItems (c : CopyDesc) (x : CopyRow) : List Item' :=
  let f := c.fmt
  let b := f.bits
  let od := coords c.d
  let os := coords c.s
  let n := coords c.n
  let rowS := c.src.copyRow os x
  let rowD := c.dst.copyRow od x
  let line := x.j2 * n.2.1 + x.j1
  let base := line * n.1
  let bk (j0 : Nat) : Nat := if f.block = 0 then 0 else line * 2 ^ 24 + j0 / f.block
  let gp (j0 : Nat) : Nat := line * 2 ^ 24 + j0 / 1024
  (List.range x.w).map (fun j0 =>
    { pos := base + j0, role := .elem, blk := bk j0, grp := gp j0,
      src := if j0 < x.rd then some (codeSpan rowS c.srcFmt.bits ((os.1 + j0 : Nat) : Int)) else none,
      const := if c.fills then c.s.toNat % 2 ^ b else 0,
      dst := codeSpan rowD b ((od.1 + j0 : Nat) : Int), bits := b, tagS := none, tagD := none }) ++
  (if f.block = 0 then [] else
    ((List.range (ceilDiv x.w f.block)).map fun k =>
      let j0 := k * f.block
      let js := (os.1 + j0) / f.block
      let jd := (od.1 + j0) / f.block
      { pos := base + j0, role := .scale, blk := bk j0, grp := gp j0,
        src := if j0 < x.rd then some (scaleSpan f c.src.ext0 rowS js, 0) else none, const := 0,
        dst := (scaleSpan f c.dst.ext0 rowD jd, 0), bits := 8 * f.scaleBytes,
        tagS := if f.isTagged && j0 < x.rd then
          some (blockIndex f c.src.ext0 c.src.ext1 (os.2.1 + x.j1) (os.2.2 + x.j2) js) else none,
        tagD := if f.isTagged then
          some (blockIndex f c.dst.ext0 c.dst.ext1 (od.2.1 + x.j1) (od.2.2 + x.j2) jd) else none }) ++
    (let last := c.dst.ext0 / f.block * f.block
     if last < od.1 || od.1 + x.w ≤ last || c.dst.ext0 % f.block = 0 then [] else
      (List.range (f.block - c.dst.ext0 % f.block)).map fun k =>
        { pos := base + (last - od.1), role := .pad, blk := bk (last - od.1), grp := gp (last - od.1), src := none, const := 0,
          dst := codeSpan rowD b ((c.dst.ext0 + k : Nat) : Int), bits := b, tagS := none, tagD := none }) ++
    (if f.isTl then (List.range (ceilDiv x.w 1024)).map fun g =>
      { pos := base + g * 1024, role := .group, blk := 0, grp := gp (g * 1024),
        src := if g * 1024 < x.rd then some (groupSpan f c.src.ext0 rowS ((os.1 + g * 1024) / 16), 0) else none,
        const := 0x3F800000, dst := (groupSpan f c.dst.ext0 rowD ((od.1 + g * 1024) / 16), 0), bits := 32,
        tagS := none, tagD := none }
    else []))

/-- The slots of an SQZ8 row. -/
def CopyDesc.slotItems (c : CopyDesc) (x : CopyRow) : List Item' :=
  let od := coords c.d
  let os := coords c.s
  let n := coords c.n
  (List.range x.w).map fun t =>
    let at_ (r : Rec) (o : Nat × Nat × Nat) : Span := ⟨r.copyRow o x + ((160 * (o.1 / 256 + t) : Nat) : Int), 160⟩
    { pos := (x.j2 * n.2.1 + x.j1) * n.1 + 256 * t, role := .slot, blk := 0, grp := 0,
      src := if t < x.rd then some (at_ c.src os, 0) else none, const := 0, dst := (at_ c.dst od, 0), bits := 1280,
      tagS := none, tagD := none }

def CopyDesc.items (c : CopyDesc) : List Item' :=
  c.rows.flatMap fun x => if c.fmt = .sqz8 then c.slotItems x else c.elemItems x

/-- The byte count of written items (R298). -/
def itemBytes (b : Nat) (l : List Item') : Nat :=
  let count (r : ItemRole) : Nat := (l.filter fun i => i.role == r).length
  let sized (r : ItemRole) : Nat := (l.filter fun i => i.role == r).foldl (fun n i => n + i.bits / 8) 0
  ceilDiv (count .elem * b) 8 + sized .scale + sized .group + sized .slot

/-- Positions of the region. -/
def CopyDesc.total (c : CopyDesc) : Nat := let n := coords c.n; n.1 * n.2.1 * n.2.2

/-- R298: some element of the region stays unwritten. -/
def CopyDesc.clipped (c : CopyDesc) : Bool :=
  let n := coords c.n
  c.rows.any fun x => decide (x.w < n.1 / copyUnit c.fmt)

/-! ### Checks at issue (R295, R296, R297, R311) -/

def boundsTrap (r : Rec) (f : Fmt) (i : Nat × Nat × Nat) (acc : Acc) : Trap :=
  accTrap .bounds r (r.elemAt f i.1 i.2.1 i.2.2) acc

/-- R296's alignment. -/
def CopyDesc.aligned (c : CopyDesc) : Bool :=
  let f := c.fmt
  let d := (coords c.d).1
  let s := (coords c.s).1
  let n := (coords c.n).1
  if f.isMx then d % 32 = 0 && s % 32 = 0 && n % 32 = 0
  else if f.isTl then d % 1024 = 0 && s % 1024 = 0 && n % 16 = 0
  else if f = .sqz8 then d % 256 = 0 && s % 256 = 0 && n % 256 = 0
  else true

/-- Out-of-bounds elements that stop a copy: under FAULT, and all of them for bcopy.s. -/
def CopyDesc.outTraps (c : CopyDesc) : List Trap :=
  let n := coords c.n
  let strict := c.form = .signed || c.dst.bmode = 0 || (!c.fills && c.src.bmode = 0)
  let out (r : Rec) (f : Fmt) (o : BitVec 64) (acc : Acc) : List Trap :=
    if c.form = .signed || r.bmode = 0 then
      match r.firstOut f (coords o) n with
      | some i => [boundsTrap r f i acc]
      | none => []
    else []
  if !strict then [] else
  (if c.fills then [] else out c.src c.srcFmt c.s .read) ++ out c.dst c.fmt c.d .write

/-- The span of an element, or of a slot, of a region at position `j` above its origin. -/
def Rec.unitSpan (r : Rec) (f : Fmt) (o j : Nat × Nat × Nat) : Span :=
  let row := r.rowAt ((o.2.1 + j.2.1 : Nat) : Int) ((o.2.2 + j.2.2 : Nat) : Int)
  if f = .sqz8 then ⟨row + ((160 * ((o.1 + j.1) / 256) : Nat) : Int), 160⟩ else (codeSpan row f.bits ((o.1 + j.1 : Nat) : Int)).1

/-- An out-of-bounds element or slot of a region whose address R56 forbids in every mode. -/
def Rec.farUnit (r : Rec) (f : Fmt) (o j : Nat × Nat × Nat) : Option Span :=
  let sp := r.unitSpan f o j
  if !r.inside ((o.1 + j.1) / copyUnit f * copyUnit f : Nat) ((o.2.1 + j.2.1 : Nat) : Int) ((o.2.2 + j.2.2 : Nat) : Int) &&
    r.pastLimit sp.a sp.n then some sp else none

/-- The first such element of a region; addresses are linear in the indices, so the corners tell whether there is one. -/
def Rec.farOut (r : Rec) (f : Fmt) (o n : Nat × Nat × Nat) : Option Span :=
  if n.1 = 0 || n.2.1 = 0 || n.2.2 = 0 then none else
  let ends (k : Nat) : List Nat := [0, k - 1]
  if (ends n.2.2).all fun z => (ends n.2.1).all fun y => (ends n.1).all fun x => (r.farUnit f o (x, y, z)).isNone then none
  else (List.range n.2.2).findSome? fun z => (List.range n.2.1).findSome? fun y => (List.range n.1).findSome? fun x =>
    r.farUnit f o (x, y, z)

/-- R56 applies in every mode (R297): elements of a region that no copy reaches, beyond the limits of their space. -/
def CopyDesc.farTraps (c : CopyDesc) : List Trap :=
  let n := coords c.n
  let far (r : Rec) (f : Fmt) (o : BitVec 64) (acc : Acc) : List Trap :=
    match r.farOut f (coords o) n with
    | some x => [accTrap .bounds r x.a acc]
    | none => []
  (if c.fills then [] else far c.src c.srcFmt c.s .read) ++ far c.dst c.fmt c.d .write

/-- Range checks of a copy at issue; a Commons grant is among them (R383). -/
def copySpanTraps (s : State) (r : Rec) (acc : Acc) (l : List Span) : List Trap := spanTraps s .bte r acc l

def baseTraps (r : Rec) (acc : Acc) : List Trap :=
  if r.baseAddr.2 then [] else [accTrap .bounds r (r.baseAddr.1 : Int) acc]

/-- The issue checks of bcopy, bcopy.s and bfill. BASE bits that must be zero fault BOUNDS for a copy that covers no element as well
(DESIGN CHOICE: assumption 83). -/
def copyTraps (s : State) (c : CopyDesc) : Option Trap :=
  let feOn := c.fe ≠ 0
  if c.dst.illegal false || (!c.fills && c.src.illegal feOn) then some { code := .illegalOp } else
  match c.dst.format with
  | none => some (formatTrap c.dst.fmt.toNat)
  | some f =>
    let src := if c.fills then some f else c.src.format
    match src with
    | none => some (formatTrap c.src.fmt.toNat)
    | some g =>
      let n := coords c.n
      let ok := match c.form with
        | .fill => f.isPlain
        | .signed => f = g && drainFmt f
        | _ => f = g || (f.isPlain && g.isPlain && f.bits = g.bits)
      if !ok then some (formatTrap (if c.form = .signed && drainFmt f || c.form = .copy then c.src.fmt.toNat else c.dst.fmt.toNat))
      else
        let big := c.form = .signed && (n.2.2 ≠ 1 || 65536 < n.2.1 * runBytes f n.1)
        worst ((if big then [boundsTrap c.dst f (coords c.d) .write] else []) ++
          (if c.aligned then [] else [boundsTrap c.dst f (coords c.d) .write]) ++
          baseTraps c.dst .write ++ (if c.fills then [] else baseTraps c.src .read) ++ c.outTraps ++
          (if !c.outTraps.isEmpty then [] else
            c.farTraps ++ copySpanTraps s c.dst .write c.dstSpans ++ (if c.fills then [] else copySpanTraps s c.src .read c.srcSpans)))

/-! ### Table instructions: what they touch (R321 to R323) -/

/-- The bytes from the element that an origin word names. -/
def blockSpan (r : Rec) (origin : BitVec 64) (n : Nat) : Span :=
  let o := coords origin
  let f := r.format.getD .int8
  ⟨r.rowAt (o.2.1 : Int) (o.2.2 : Int) + ((o.1 * f.bits / 8 : Nat) : Int), n⟩

/-- The checks of such a block: its record, its format, one row, its ranges. -/
def blockTraps (s : State) (r : Rec) (origin : BitVec 64) (n : Nat) : List Trap :=
  let o := coords origin
  match r.format with
  | none => [formatTrap r.fmt.toNat]
  | some f =>
    if !f.isPlain then [formatTrap r.fmt.toNat] else
    let x := blockSpan r origin n
    (if o.1 < r.ext0 && o.2.1 < r.ext1 && o.2.2 < r.ext2 && o.1 * f.bits / 8 + n ≤ r.ext0 * f.bits / 8 then []
     else [accTrap .bounds r x.a .read]) ++ copySpanTraps s r .read [x]

def slotSpan (r : Rec) (at_ : BitVec 64) : Span := ⟨r.rowAt 0 0 + ((8 * at_.toNat : Nat) : Int), 8⟩

/-- The checks of a block-table slot. -/
def slotTraps (s : State) (r : Rec) (at_ : BitVec 64) : List Trap :=
  match r.format with
  | some .int64 =>
    let x := slotSpan r at_
    (if at_.toNat < r.ext0 then [] else [accTrap .bounds r x.a .write]) ++
      copySpanTraps s r .write [x] ++ copySpanTraps s r .read [x]
  | _ => [formatTrap r.fmt.toNat]

/-- Length of the source of a table instruction. -/
def CopyDesc.blockLen (c : CopyDesc) : Nat := if c.form = .cow then (field c.n 16 13).toNat else 4096

def tableTraps (s : State) (c : CopyDesc) : Option Trap :=
  if c.dst.illegal false || c.src.illegal false || c.regs.dlog2.toNat < 10 || 30 < c.regs.dlog2.toNat then
    some { code := .illegalOp }
  else
    let n := c.blockLen
    let off := (field c.n 0 12).toNat
    let word := c.form = .cow && (c.n &&& 0xFFFFFFFFE000F000#64 ≠ 0 || n = 0 || 4096 < n || 4096 < off + n)
    worst ((if word then [{ code := .bounds, op0 := c.n }] else []) ++
      (if c.form = .cmp then blockTraps s c.dst c.d 4096 else slotTraps s c.dst c.d) ++ blockTraps s c.src c.s n)

/-! ### Order among copies (R300, R316) -/

/-- A run of bytes by physical location. Of a page with no mapping only the bytes within the page are known (`open_`): it may be
any global page (DESIGN CHOICE: assumption 77). -/
structure PhysRun where
  key : Nat
  n : Nat
  open_ : Bool
deriving DecidableEq, Repr, Inhabited

/-- Physical runs of a span, page by page. -/
def physRuns (s : State) (r : Rec) (x : Span) : List PhysRun :=
  if x.n = 0 then [] else
  if r.space ≠ 0 then [⟨r.key s x.a.toNat, x.n, false⟩] else
  (pagesOf x.a.toNat x.n).map fun v =>
    let lo := max x.a.toNat (v * 4096)
    let hi := min (x.a.toNat + x.n) ((v + 1) * 4096)
    let frame : Option Nat := match tlbFind s s.ctx.part v with
      | some e => some (e.pfn + (v - e.vpn))
      | none => (pageWalkOf s s.ctx.part v).2.map fun l => l.pfn + (v - v / l.pages * l.pages)
    match frame with
    | some p => ⟨paKey s.pkgNo (p * 4096 + lo % 4096), hi - lo, false⟩
    | none => ⟨lo % 4096, hi - lo, true⟩

/-- Two runs share a byte, or may. -/
def PhysRun.meets (x y : PhysRun) : Bool :=
  if x.open_ || y.open_ then decide (x.key < 2 ^ 60) && decide (y.key < 2 ^ 60) && rangesMeet (x.key % 4096) x.n (y.key % 4096) y.n
  else rangesMeet x.key x.n y.key y.n

def runsMeet (a b : List PhysRun) : Bool := a.any fun x => b.any fun y => x.meets y

/-- A virtual range as a record. -/
def vaRec : Rec := Rec.of 0

/-- The value of `n` bytes of global memory as it stands; 0 where they have no translation. -/
def peek (s : State) (a n : Nat) : Nat :=
  match translateBytes s s.ctx.part false (keyRange a n) with
  | .ok ls => leValue (ls.map (globalByte s 0))
  | _ => 0

/-- The block that the slot of a bcow names as memory stands. -/
def CopyDesc.slotBlock (s : State) (c : CopyDesc) : Nat :=
  match locate s c.dst false (slotSpan c.dst c.d).bytes with
  | .ok ls => locVal s ls % 2 ^ 32
  | _ => 0

/-- The blocks that a bdedup or a bcow may touch as the slot and the table stand: the valid ids, the slot's block, and those of LIVE
entries (R314, R321, R322). -/
def CopyDesc.blocks (s : State) (c : CopyDesc) : List Nat :=
  if c.form = .cow then [c.slotBlock s]
  else (List.range (2 ^ c.regs.dlog2.toNat)).filterMap fun e =>
    let w := BitVec.ofNat 64 (peek s (c.regs.dtable.toNat * 4096 + 32 * e + 16) 8)
    if field w 62 2 = 2#2 then some (field w 0 32).toNat else none

/-- The block store, the table and the free list that a bdedup or a bcow may touch, whole, with the blocks beyond the store and the
words of the list that the slot, the table and TOP name as memory stands: which of their bytes it touches is known only as it runs
(DESIGN CHOICE: assumption 77). -/
def CopyDesc.areas (s : State) (c : CopyDesc) : List Span :=
  if c.form = .dedup || c.form = .cow then
    let store := c.regs.dstore.toNat * 4096
    let list := c.regs.dfree.toNat * 64
    [⟨(store : Int), c.regs.nblk.toNat * 4096⟩,
     ⟨((c.regs.dtable.toNat * 4096 : Nat) : Int), 32 * 2 ^ c.regs.dlog2.toNat⟩,
     ⟨(list : Int), min (2 ^ 52 - list) (0x40 + 4 * max c.regs.nblk.toNat (peek s list 8))⟩] ++
    ((c.blocks s).filter fun b => decide (c.regs.nblk.toNat ≤ b)).map fun b => ⟨((store + b * 4096 : Nat) : Int), 4096⟩
  else []

/-- The spans of its records that a copy-class instruction reads. -/
def CopyDesc.readSpans (c : CopyDesc) : List (Rec × List Span) :=
  match c.form with
  | .fill => []
  | .copy | .signed => [(c.src, c.srcSpans)]
  | .cmp => [(c.src, [blockSpan c.src c.s 4096]), (c.dst, [blockSpan c.dst c.d 4096])]
  | _ => [(c.src, [blockSpan c.src c.s c.blockLen])]

/-- The spans that it writes, of the store and its tables included. -/
def CopyDesc.writeSpans (s : State) (c : CopyDesc) : List (Rec × List Span) :=
  match c.form with
  | .copy | .signed | .fill => [(c.dst, c.dstSpans)]
  | .cmp => []
  | _ => [(c.dst, [slotSpan c.dst c.d]), (vaRec, c.areas s)]

/-- What a copy-class instruction reads and writes, by physical location. -/
def CopyDesc.reads (s : State) (c : CopyDesc) : List PhysRun := c.readSpans.flatMap fun x => x.2.flatMap (physRuns s x.1)
def CopyDesc.writes (s : State) (c : CopyDesc) : List PhysRun := (c.writeSpans s).flatMap fun x => x.2.flatMap (physRuns s x.1)

def CopyDesc.table (c : CopyDesc) : Bool := c.form = .dedup || c.form = .cow || c.form = .cmp

/-- R300, R316: an outstanding copy that must complete first. -/
def copyWaits (s : State) (c : CopyDesc) : Bool :=
  s.ops.any fun o => o.strand == s.ctx.strand && match o.kind with
    | .copy x => (c.table && x.table) || runsMeet (x.writes s) (c.reads s ++ c.writes s) || runsMeet (x.reads s) (c.writes s)
    | _ => false

/-! ### Issue (R292, R293, R319) -/

/-- Cycles within which a copy completes (Table 8.19). -/
def CopyDesc.bound (c : CopyDesc) : Nat :=
  match c.form with
  | .copy | .fill => ceilDiv (itemBytes c.fmt.bits c.items) 128 + 15
  | .signed => ceilDiv (itemBytes c.fmt.bits c.items) 128 + 23
  | _ => 95

/-- The granules that an FE form waits for and empties. -/
def CopyDesc.feGranules (s : State) (c : CopyDesc) : List Nat :=
  if c.fe = 0 then [] else spanGranules s c.src c.srcSpans

/-- The slots of the ring that a copy captured. -/
def CopyDesc.posts (c : CopyDesc) : Bool := c.cr && c.regs.ringEn
def ringRec (c : CopyDesc) : Rec := { Rec.of 0 with space := if c.regs.ringSpace then 1 else 0 }
def ringSpan (c : CopyDesc) : Span := ⟨((c.regs.ringAddr.toNat * 64 : Nat) : Int), 32 * 2 ^ c.regs.ringLog2.toNat⟩

/-- Every span that a copy and its ring may touch, by record. -/
def CopyDesc.reach (s : State) (c : CopyDesc) : List (Rec × List Span) :=
  c.readSpans ++ c.writeSpans s ++ (if c.posts then [(ringRec c, [ringSpan c])] else [])

/-- What a copy-class instruction does at its issue: the acquire of a full/empty form (R163, R303), and a look at the translations
of its pages, which serve it to its completion whatever is invalidated meanwhile (R312). -/
def copyStart (s : State) (c : CopyDesc) : State :=
  let s := match feScope c.src (c.fe ≠ 0) with
    | some sc => cacheActions s sc
    | none => s
  let b := s.ctx.bte
  let id := s.nextId
  let t := addOp s .bte c.bound [] false {} (.copy { c with iseq := b.iseq })
  let t := withAccess t id 0 ((c.reach s).flatMap fun x => spanHandles s x.1 x.2)
  quietWalk (setCtx t { t.ctx with bte := { b with iseq := b.iseq + 1 } }) s.ctx.part
    ((c.reach s).flatMap fun x => spanPages x.1 x.2)

/-- A copy-class instruction. -/
def copyIssue (s : State) (h : Hdr) (legal : Bool) (reads : List Reg) (c : CopyDesc) : Host.Outcome State Fault Refusal :=
  issuePrivate s .bte h none legal reads
    (fun s => if 128 ≤ copySlots s || copyWaits s c then some .other else none)
    fun s =>
      match if c.table then tableTraps s c else copyTraps s c with
      | some t => .trap t
      | none =>
        match granuleWait s .bte (c.feGranules s) true with
        | some k => .wait s k
        | none => .done (copyStart s c)

def copyDesc (s : State) (form : CopyForm) (ac : BitVec 4) (cr : BitVec 1) (fe : BitVec 2) (bfd bfs : BitVec 4)
    (d v n sig seed : BitVec 64) : CopyDesc :=
  { form := form, ac := ac, cr := cr = 1, fe := fe, iseq := 0, rd := readBf s .bte bfd, rs := readBf s .bte bfs,
    d := d, s := v, n := n, sig := sig, seed := seed, regs := s.ctx.bte, tries := 0, ringSince := none }

/-- bcopy (R319). -/
def execBcopy (h : Hdr) (ac : BitVec 4) (cr : BitVec 1) (fe : BitVec 2) (bfd bfs : BitVec 4) (ad src an : BitVec 5)
    (s : State) : Host.Outcome State Fault Refusal :=
  let n := if an = 0 then shapeOf (recOf s .bte bfs) else readA s .bte an
  copyIssue s h (encodingOk (.bcopy h ac cr fe bfd bfs ad src an) false) [ra ad, ra src, ra an]
    (copyDesc s .copy ac cr fe bfd bfs (readA s .bte ad) (readA s .bte src) n 0 0)

/-- bcopy.s (R310, R311). -/
def execBcopyS (h : Hdr) (ac : BitVec 4) (cr : BitVec 1) (fe : BitVec 2) (bfd bfs : BitVec 4) (ad src an ag : BitVec 5)
    (s : State) : Host.Outcome State Fault Refusal :=
  let n := if an = 0 then shapeOf (recOf s .bte bfs) else readA s .bte an
  copyIssue s h (encodingOk (.bcopyS h ac cr fe bfd bfs ad src an ag) false) [ra ad, ra src, ra an, ra ag, ra (ag + 1)]
    (copyDesc s .signed ac cr fe bfd bfs (readA s .bte ad) (readA s .bte src) n (readA s .bte ag) (readA s .bte (ag + 1)))

/-- bfill (R319). -/
def execBfill (h : Hdr) (ac : BitVec 4) (cr : BitVec 1) (bfd : BitVec 4) (ad src an : BitVec 5) (s : State) :
    Host.Outcome State Fault Refusal :=
  let n := if an = 0 then shapeOf (recOf s .bte bfd) else readA s .bte an
  copyIssue s h (encodingOk (.bfill h ac cr bfd ad src an) false) [ra ad, ra src, ra an]
    (copyDesc s .fill ac cr 0 bfd bfd (readA s .bte ad) (readA s .bte src) n 0 0)

/-- bdedup (R321). -/
def execBdedup (h : Hdr) (ac : BitVec 4) (cr : BitVec 1) (bft bfs : BitVec 4) (slot src : BitVec 5) (s : State) :
    Host.Outcome State Fault Refusal :=
  copyIssue s h (encodingOk (.bdedup h ac cr bft bfs slot src) false) [ra slot, ra src]
    (copyDesc s .dedup ac cr 0 bft bfs (readA s .bte slot) (readA s .bte src) 0 0 0)

/-- bcow (R322). -/
def execBcow (h : Hdr) (ac : BitVec 4) (cr : BitVec 1) (bft bfs : BitVec 4) (slot src ap : BitVec 5) (s : State) :
    Host.Outcome State Fault Refusal :=
  copyIssue s h (encodingOk (.bcow h ac cr bft bfs slot src ap) false) [ra slot, ra src, ra ap]
    (copyDesc s .cow ac cr 0 bft bfs (readA s .bte slot) (readA s .bte src) (readA s .bte ap) 0 0)

/-- bcmp (R323). -/
def execBcmp (h : Hdr) (ac : BitVec 4) (cr : BitVec 1) (bft bfs : BitVec 4) (slot src : BitVec 5) (s : State) :
    Host.Outcome State Fault Refusal :=
  copyIssue s h (encodingOk (.bcmp h ac cr bft bfs slot src) false) [ra slot, ra src]
    (copyDesc s .cmp ac cr 0 bft bfs (readA s .bte slot) (readA s .bte src) 0 0 0)

/-! ### Reading and writing of a copy (R299) -/

/-- What keeps bytes from being accessed after issue, with OPERAND0 (R309, R383, R462). -/
def accessFail (s : State) (r : Rec) (write : Bool) (x : Span) (aborted : List Nat) : Option (Code × BitVec 64) :=
  match (if r.space = 0 then (pagesOf x.a.toNat x.n).find? fun v => aborted.contains v && (tlbFind s s.ctx.part v).isNone
      else none) with
  | some v => some (.translation, r.spaceAddr (firstIn [x] v))
  | none =>
    match locate s r write x.bytes with
    | .perm a => some (.permission, r.spaceAddr (a : Int))
    | .miss v => some (.translation, r.spaceAddr (firstIn [x] v))
    | .ok ls =>
      match remoteCheck s (ls.map (·.key)) with
      | some (.inr t) => some (t.code, t.op0)
      | _ => if r.space = 3 && !commonsGranted s r x.a.toNat x.n then some (.permission, r.spaceAddr x.a) else none

/-- The bits of an item's source now. -/
def itemBits (s : State) (c : CopyDesc) (i : Item') : Nat :=
  let v := match i.src with
    | none => i.const
    | some x => match locate s c.src false x.1.bytes with
      | .ok ls => locBits s ls x.2 i.bits
      | _ => 0
  match i.tagD with
  | some t => v % 256 + t % 256 * 256
  | none => v

/-- What ends a copy at an item: the source's or destination's fault, an uncorrectable source, a tag out of step. -/
def itemFail (s : State) (c : CopyDesc) (aborted : List Nat) (i : Item') : Option (Code × BitVec 64) :=
  let read := match i.src with
    | none => none
    | some x =>
      match accessFail s c.src false x.1 aborted with
      | some e => some e
      | none =>
        match locate s c.src false x.1.bytes with
        | .ok ls =>
          if ls.any (Loc.uncorrectable s) then some (Code.poison, 0#64)
          else match i.tagS with
            | some t => if locVal s ls / 256 ≠ t % 256 then some (.scaleStep, BitVec.ofNat 64 t) else none
            | none => none
        | _ => none
  match read with
  | some e => some e
  | none => accessFail s c.dst true i.dst.1 aborted

/-- The write of an item's bits, where its bytes can be reached. -/
def itemWrite (s : State) (c : CopyDesc) (i : Item') (v : Nat) : Option CodeWrite :=
  match locate s c.dst true i.dst.1.bytes with
  | .ok ls => some ⟨ls, i.dst.2, i.bits, v⟩
  | _ => none

/-- The address of the first byte of an item's destination that lies in an armed barrier line. -/
def itemArmed (s : State) (c : CopyDesc) (i : Item') : Option Nat :=
  (itemWrite s c i 0).bind fun w => firstArmed s w.ls

/-- Inserts by a key. -/
def insertKey {α : Type} (k : Nat) (x : α) : List (Nat × α) → List (Nat × α)
  | [] => [(k, x)]
  | (j, y) :: r => if k ≤ j then (k, x) :: (j, y) :: r else (j, y) :: insertKey k x r

/-- A free order of a list (R301). -/
def freeOrder {α : Type} (s : State) (l : List α) : List α × State :=
  let r := l.foldl (fun (a : List (Nat × α) × State) x =>
    let d := drawFree a.2 32
    (insertKey d.1.toNat x a.1, d.2)) ([], s)
  (r.1.map (·.2), r.2)

/-- The keys of an item's source and of its destination. -/
def itemKeys (s : State) (c : CopyDesc) (i : Item') : List Nat × List Nat :=
  let keys (r : Rec) (x : Span) : List Nat := match locate s r false x.bytes with
    | .ok ls => ls.map (·.key)
    | _ => []
  (match i.src with
    | some x => keys c.src x.1
    | none => [], keys c.dst i.dst.1)

/-- The bits of an item's source once bytes are in place. -/
def pendingBits (s : State) (c : CopyDesc) (done : List (Loc × Byte)) (i : Item') : Nat :=
  let v := match i.src with
    | none => i.const
    | some x => match locate s c.src false x.1.bytes with
      | .ok ls => leValue (ls.map (pendingByte s done)) / 2 ^ x.2 % 2 ^ i.bits
      | _ => 0
  match i.tagD with
  | some t => v % 256 + t % 256 * 256
  | none => v

/-- The values of items that read bytes which the same copy writes (R301): in a free order, each its source's value from before the
copy, or, once every item that writes bytes of its source has its value, that which the copy writes there. -/
def overlapValues (s : State) (c : CopyDesc) (l : List (Item' × Nat)) : List (Item' × Nat) × State :=
  let o := freeOrder s l
  o.1.foldl (fun (a : List (Item' × Nat) × State) x =>
    let d := drawFree a.2 1
    let src := (itemKeys s c x.1).1
    let early := l.any fun y => (itemKeys s c y.1).2.any (src.contains ·) && !(a.1.any fun z => z.1 == y.1)
    let done := placedBytes s (a.1.filterMap fun z => itemWrite s c z.1 z.2) []
    (a.1 ++ [(x.1, if d.1 = 1#1 || early then x.2 else pendingBits s c done x.1)], d.2)) ([], o.2)

/-- Writes items; words that they cover together lose their error (R384, R397). -/
def putItems (s : State) (c : CopyDesc) (l : List Item') : State :=
  let vals := l.map fun i => (i, itemBits s c i)
  let v := if !c.fills && runsMeet (c.reads s) (c.writes s) then overlapValues s c vals else (vals, s)
  (writeCodes v.2 .copy c.dst.cache (v.1.filterMap fun x => itemWrite s c x.1 x.2)).1

/-- Of the items at or above a failing position, the elements and slots that a free choice still writes (R308). -/
def freeKeep (s : State) (l : List Item') : List Item' × State :=
  l.foldl (fun (a : List Item' × State) i =>
    let d := drawFree a.2 1
    (if d.1 = 1#1 then a.1 ++ [i] else a.1, d.2)) ([], s)

/-- Scales, group scales and pads of the blocks that the kept elements belong to (R296). -/
def withScales (all kept : List Item') : List Item' :=
  all.filter fun i => match i.role with
    | .elem => kept.contains i
    | .slot => kept.contains i
    | .scale => kept.any fun k => k.role = .elem && k.blk = i.blk
    | .pad => kept.any fun k => k.role = .elem && k.blk = i.blk
    | .group => kept.any fun k => k.role = .elem && k.grp = i.grp

/-! ### Completion (R302 to R308) -/

/-- How a copy ends. -/
structure CopyEnd where
  status : Nat
  code : Nat := 0
  outcome : Nat := 0
  bytes : Nat := 0
  pos : BitVec 64 := 0
  aux : BitVec 64 := 0
  full : List Nat := []
  stop : Option (Code × BitVec 64) := none

/-- Opcode bits 7:0 of a form (Table 8.13). -/
def CopyForm.opc : CopyForm → Nat
  | .copy => 0x00
  | .signed => 0x01
  | .fill => 0x02
  | .dedup => 0x10
  | .cow => 0x11
  | .cmp => 0x12

/-- The next slot of the ring that a copy captured. -/
def ringSlot (s : State) (c : CopyDesc) : Span :=
  ⟨((c.regs.ringAddr.toNat * 64 + 32 * (s.ctx.bte.tail.toNat % 2 ^ c.regs.ringLog2.toNat) : Nat) : Int), 32⟩

/-- R307: no room for the record. -/
def ringFull (s : State) (c : CopyDesc) : Bool :=
  c.posts && (s.ctx.bte.tail - s.ctx.bte.head).toNat = 2 ^ c.regs.ringLog2.toNat

/-- Table 8.2. -/
def completionRecord (s : State) (c : CopyDesc) (e : CopyEnd) : List Byte :=
  let w0 : BitVec 64 := s.ctx.bte.tail ++ c.iseq ++ BitVec.ofNat 8 c.form.opc ++ 0#2 ++ BitVec.ofNat 2 e.outcome ++ c.ac ++
    BitVec.ofNat 8 e.code ++ BitVec.ofNat 8 e.status
  [w0, BitVec.ofNat 64 e.bytes, e.pos, e.aux].flatMap fun w => leBytes 8 w.toNat

/-- Posts the record; what keeps the ring from being written. -/
def postRecord (s : State) (op : Op) (c : CopyDesc) (e : CopyEnd) : State × Option (Code × BitVec 64) :=
  if !c.posts then (s, none) else
  let r := ringRec c
  let x := ringSlot s c
  let bs := completionRecord s c e
  let t := setCtx s { s.ctx with bte := { s.ctx.bte with tail := s.ctx.bte.tail + 1 } }
  match rangeCheck s .bte r x.a 32 .write with
  | some p => (t, some (p.code, p.op0))
  | none =>
    match accessFail s r true x op.aborted with
    | some f => (t, some f)
    | none => match locate s r true x.bytes with
      | .ok ls => (writeLocs (engineFlits t .bte .write (ls.map (·.key))) .copy r.cache (ls.zip bs), none)
      | _ => (t, none)

/-- A copy of this package's registers counts one more completion on its counter. -/
def Bte.arrived (b : Bte) (ac : BitVec 4) (bad : Bool) : Bte :=
  let n := b.arrive[ac.toNat]
  { b with arrive := b.arrive.set ac.toNat (n.1 + 1, n.2 || bad) }

/-- The registers of the strand of an operation change: the running one's, or those of a strand that is saved while its handler
runs, which takes the ring's indices as they now stand (assumption 78). An earlier strand's are gone. -/
def countArrival (s : State) (op : Op) (ac : BitVec 4) (bad : Bool) : State :=
  if op.strand = s.ctx.strand then setCtx s { s.ctx with bte := s.ctx.bte.arrived ac bad }
  else if op.aside s then
    { s with saved := s.saved.map fun c =>
        if c.1.part == s.ctx.part && c.1.strand == op.strand then
          ({ c.1 with bte := { c.1.bte.arrived ac bad with tail := s.ctx.bte.tail, head := s.ctx.bte.head } }, c.2)
        else c }
  else s

/-- An asynchronous fault of an operation: it stops the running strand, or is held with the saved strand that the operation
belongs to (R48). -/
def faultOf (s : State) (op : Op) (f : Option (Code × BitVec 64)) : State :=
  match f with
  | none => s
  | some x =>
    if op.aside s then
      { s with saved := s.saved.map fun c =>
          if c.1.part == s.ctx.part && c.1.strand == op.strand then
            ({ c.1 with heldFaults := c.1.heldFaults ++
                [{ code := x.1, tag := BitVec.ofNat 3 op.eng.tag, async := true, op0 := x.2, op1 := op.pc }] }, c.2)
          else c }
    else raiseAsync s op.eng op.pc x.1 x.2

/-- The step of R302: granules, counter and record, and the stop that an error brings (R309). The granules that the copy's writes
set full are a release, at .quad of a handle reached through space 0b10 (R38, R163). -/
def endCopy (s : State) (op : Op) (c : CopyDesc) (e : CopyEnd) : State :=
  let s := if c.dst.space = 2 && !e.full.isEmpty then releaseActions s 1 else s
  let s := setFull s e.full true
  let s := if c.fe = 2 && e.status ≠ 2 then setFull s (c.feGranules s) false else s
  let p := postRecord s op c e
  let s := countArrival p.1 op c.ac (e.status ≠ 0 && e.status ≠ 1 && e.status ≠ 4)
  faultOf (faultOf (removeOp s op.id) op e.stop) op p.2

/-- The canonical bytes of a bcopy.s (R310). -/
def CopyDesc.canonical (s : State) (c : CopyDesc) : List Byte :=
  let items := c.items
  c.rows.flatMap fun x =>
    let line := x.j2 * (coords c.n).2.1 + x.j1
    let mine := items.filter fun i => i.pos / (coords c.n).1 = line
    let raw (i : Item') : Nat := itemBits s c { i with tagD := none }
    let codes := (mine.filter fun i => i.role = .elem).map raw
    let b := c.fmt.bits
    leBytes (codes.length * b / 8) (codes.foldr (fun v a => a * 2 ^ b + v % 2 ^ b) 0) ++
      (mine.filter fun i => i.role = .scale).flatMap fun i => leBytes c.fmt.scaleBytes (raw i)

/-- Granules that written items touch. -/
def itemGranules (s : State) (c : CopyDesc) (l : List Item') : List Nat := spanGranules s c.dst (l.map fun i => i.dst.1)

/-- The first failing item of a copy. -/
def firstFail (s : State) (c : CopyDesc) (aborted : List Nat) (l : List Item') : Option (Nat × Code × BitVec 64) :=
  l.foldl (fun b i =>
    match itemFail s c aborted i with
    | none => b
    | some e => match b with
      | some x => if i.pos < x.1 then some (i.pos, e) else b
      | none => some (i.pos, e)) none

/-- How often a bcopy.s may be sent again: SRETRY of BTE.CFG, or of the port that it crosses to another package (R310, R482). -/
def CopyDesc.retries (s : State) (c : CopyDesc) : Nat :=
  let own := c.regs.sretry.toNat
  match c.dstSpans.head? with
  | none => own
  | some x =>
    match locate s c.dst true x.bytes with
    | .ok (l :: _) => match remotePkg s l.key with
      | some p => match portFor s p l.key with
        | some i => (s.ports.getD i Port.reset).sretry.toNat
        | none => own
      | none => own
    | _ => own

/-- The landing unit refuses a bcopy.s: the sender reads its source and sends it again, or gives up (R310). -/
def refused (s : State) (op : Op) (c : CopyDesc) : State :=
  if c.tries < c.retries s then
    updateOp s op.id fun o => { o with kind := .copy { c with tries := c.tries + 1 }, due := s.cycle + c.bound + 1 }
  else endCopy s op c { status := 3, pos := BitVec.ofNat 64 c.total }

/-- The items that fail at or above position `pos` end the copy (R308, R309): what lies below is written, what lies above in a
free choice, and `code` is reported at `at_`. -/
def failCopy (s : State) (op : Op) (c : CopyDesc) (items : List Item') (pos : Option Nat) (at_ : Nat) (code : Code)
    (op0 : BitVec 64) : State :=
  let lies (i : Item') (p : Nat) : Bool := decide (i.pos < p) && (i.role ≠ .slot || decide (i.pos + 256 ≤ p))
  let elems := items.filter fun i => (i.role = .elem || i.role = .slot) && (accessFail s c.dst true i.dst.1 op.aborted).isNone
  let sure := elems.filter fun i => match pos with
    | some p => lies i p
    | none => true
  let rest := elems.filter fun i => !sure.contains i && (itemFail s c op.aborted i).isNone
  let k := freeKeep s rest
  let t := putItems k.2 c (withScales items (sure ++ k.1))
  endCopy t op c { status := 2, code := code.number,
                   bytes := itemBytes c.fmt.bits (withScales items (elems.filter fun i => lies i at_)),
                   pos := BitVec.ofNat 64 at_, stop := if code = .poison then none else some (code, op0) }

/-- The first item of a copy whose destination an armed barrier line refuses (R394). -/
def armedItem (s : State) (c : CopyDesc) (l : List Item') : Option (Nat × Nat) :=
  l.foldl (fun b i =>
    match itemArmed s c i with
    | none => b
    | some a => match b with
      | some x => if i.pos < x.1 then some (i.pos, a) else b
      | none => some (i.pos, a)) none

/-- bcopy, bcopy.s and bfill run (R297, R301, R308 to R310). Every read and every write is made in this step, at the arrival
(DESIGN CHOICE: assumption 68). What an armed line refuses ends the copy, with every byte outside the line written (R394). -/
def runCopy (s : State) (op : Op) (c : CopyDesc) : State :=
  let items := c.items
  let fail := firstFail s c op.aborted items
  match armedItem s c items, fail with
  | none, none =>
    if c.form = .signed && tsd64 c.seed (c.canonical s) ≠ c.sig then refused s op c
    else
      let t := putItems s c items
      endCopy t op c { status := if c.clipped then 1 else 0, bytes := itemBytes c.fmt.bits items,
                       pos := BitVec.ofNat 64 c.total, full := itemGranules s c items }
  | none, some (pos, code, op0) => failCopy s op c items (some pos) pos code op0
  | some (pos, a), none => failCopy s op c items none pos .permission (c.dst.spaceAddr (a : Int))
  | some (pos, a), some (p, code, op0) =>
    if p ≤ pos then failCopy s op c items (some p) p code op0
    else failCopy s op c items (some p) pos .permission (c.dst.spaceAddr (a : Int))

/-! ### The block store (R313 to R317, R321 to R323, R495) -/

/-- What a step of a table instruction finds: it goes on, a page is held, it tries again, or it ends with a fault, the
block id that is stranded and the failing offset. -/
inductive Got (α : Type) where
  | ok (x : α) (s : State)
  | hold (vpn : Nat) (s : State)
  | again (pkg : Option Nat) (s : State)
  | bad (code : Code) (op0 : BitVec 64) (s : State)
  | fin (e : CopyEnd) (s : State)

def Got.andThen {α β : Type} (g : Got α) (k : α → State → Got β) : Got β :=
  match g with
  | .ok x s => k x s
  | .hold v s => .hold v s
  | .again p s => .again p s
  | .bad c o s => .bad c o s
  | .fin e s => .fin e s

/-- Locates bytes for a table instruction, below the limit of their space (R56, R328); `ms` where the page must be memory-side (R314).
Once the driver has aborted a page of the instruction, no other page holds it (DESIGN CHOICE: assumption 83). -/
def gLocate (s : State) (aborted : List Nat) (r : Rec) (x : Span) (write ms : Bool) : Got (List Loc) :=
  if r.pastLimit x.a x.n then .bad .bounds (r.spaceAddr (r.pastAt x.a)) s else
  match if aborted.isEmpty then walkPages s s.ctx.part (spanPages r [x])
    else (quietWalk s s.ctx.part (spanPages r [x]), none) with
  | (s, some v) => .hold v s
  | (s, none) =>
    match accessFail s r write x aborted with
    | some f => .bad f.1 f.2 s
    | none =>
      match locate s r write x.bytes with
      | .ok ls =>
        match remoteCheck s (ls.map (·.key)) with
        | some (.inl k) => .again k.pkg s
        | _ => if ms && !(ls.all (·.ms)) then .bad .permission (r.spaceAddr x.a) s
          else .ok ls (engineFlits s .bte (if write then .write else .read) (ls.map (·.key)))
      | _ => .again none s

/-- Reads bytes; the offset of the first uncorrectable one. -/
def gRead (s : State) (aborted : List Nat) (r : Rec) (x : Span) (ms : Bool) : Got (List Byte × Option Nat) :=
  (gLocate s aborted r x false ms).andThen fun ls s =>
    let s := if r.space = 0 then (readPrep s r.cache ls).1 else s
    .ok (ls.map (locByte s), ls.findIdx? (Loc.uncorrectable s)) s

/-- Reads 8 bytes of a table, a list or a slot; an uncorrectable error ends the instruction. -/
def gWord (s : State) (aborted : List Nat) (r : Rec) (a : Int) (ms : Bool) : Got (BitVec 64) :=
  (gRead s aborted r ⟨a, 8⟩ ms).andThen fun b s =>
    if b.2.isSome then .bad .poison 0 s else .ok (BitVec.ofNat 64 (leValue b.1)) s

def gWrite (s : State) (aborted : List Nat) (r : Rec) (a : Int) (bs : List Byte) (ms : Bool) : Got Unit :=
  (gLocate s aborted r ⟨a, bs.length⟩ true ms).andThen fun ls s =>
    let t := writeLocs s .copy r.cache (unarmed s (ls.zip bs))
    match firstArmed s ls with
    | some k => .bad .permission (r.spaceAddr (k : Int)) t
    | none => .ok () t

def gPut (s : State) (aborted : List Nat) (r : Rec) (a : Int) (v : BitVec 64) (ms : Bool) : Got Unit :=
  gWrite s aborted r a (leBytes 8 v.toNat) ms

/-- Address of table entry `e`, of block `b`, of word `k` of the free list. -/
def CopyDesc.entryAt (c : CopyDesc) (e : Nat) : Int := ((c.regs.dtable.toNat * 4096 + 32 * e : Nat) : Int)
def CopyDesc.blockAt (c : CopyDesc) (b : BitVec 32) : Span := ⟨((c.regs.dstore.toNat * 4096 + b.toNat * 4096 : Nat) : Int), 4096⟩

/-- An indivisible step at the unit of a table entry or of the free list has been performed (R314, R396). -/
def stepDone (s : State) (a : Int) (old : BitVec 64) : State :=
  match translate s s.ctx.part true a.toNat with
  | .ok key _ => noteStep s .bte key old
  | _ => s

/-- R495: a step that reads STATE or REF is an acquire at .pod, one that makes an entry LIVE or lowers REF a release there. -/
def tableAcquire (s : State) : State := cacheActions s 3
def tableRelease (s : State) : State := releaseActions s 3

/-- Writes the third word of an entry, in a step of its own. -/
def putEntry (s : State) (ab : List Nat) (a : Int) (w : BitVec 64) : Got Unit :=
  (gPut s ab vaRec (a + 16) w true).andThen fun _ s => .ok () (stepDone s a w)

/-- R315: a pop; none when the list is empty. -/
def popBlock (s : State) (ab : List Nat) (c : CopyDesc) : Got (Option (BitVec 32)) :=
  let base : Int := ((c.regs.dfree.toNat * 64 : Nat) : Int)
  (gWord s ab vaRec base true).andThen fun top s =>
    if top = 0 then .ok none (stepDone s base 0) else
    (gRead s ab vaRec ⟨base + 0x40 + 4 * ((top.toNat - 1 : Nat) : Int), 4⟩ true).andThen fun id s =>
      if id.2.isSome then .bad .poison 0 s
      else (gPut s ab vaRec base (top - 1) true).andThen fun _ s =>
        .ok (some (BitVec.ofNat 32 (leValue id.1))) (stepDone s base top)

def slotWord (idx : Bool) (entry : Nat) (block : BitVec 32) : BitVec 64 := 1#1 ++ bit1 idx ++ BitVec.ofNat 30 entry ++ block

/-- STATE and BLOCK of an entry's third word. -/
def entryWord (state : BitVec 2) (block : BitVec 32) : BitVec 64 := state ++ 0#30 ++ block

/-- What is left behind when a fault ends a bdedup that has claimed entry `e`, with the id it popped (R495). -/
def releaseClaim (c : CopyDesc) (ab : List Nat) (e : Nat) (id : Option (BitVec 32)) (g : Got CopyEnd) : Got CopyEnd :=
  match g with
  | .bad code op0 s =>
    let s := match putEntry s ab (c.entryAt e) (entryWord 3 0) with
      | .ok _ t => t
      | _ => s
    .fin { status := 2, code := code.number, pos := 4096#64, aux := (id.getD 0).setWidth 64,
           stop := if code = .poison then none else some (code, op0) } s
  | x => x

/-- The block-table slot is written, and the instruction is done (R321, R322). -/
def writeSlot (s : State) (ab : List Nat) (c : CopyDesc) (w : BitVec 64) (e : CopyEnd) : Got CopyEnd :=
  (gPut s ab c.dst (slotSpan c.dst c.d).a w false).andThen fun _ s =>
    .fin { e with aux := w, full := spanGranules s c.dst [slotSpan c.dst c.d] } s

/-- bdedup from the label `new` (R321), with entry `e` claimed, up to the step that makes the entry LIVE: the id whose block it names.
A fault up to there ends the claim. -/
def dedupClaim (s : State) (ab : List Nat) (c : CopyDesc) (e : Nat) (buf : List Byte) : Got CopyEnd :=
  match popBlock s ab c with
  | .ok none s =>
    releaseClaim c ab e none ((putEntry s ab (c.entryAt e) (entryWord 3 0)).andThen fun _ s =>
      .fin { status := 5, pos := 4096#64 } s)
  | .ok (some id) s =>
    let aux := id.setWidth 64
    if c.regs.nblk ≤ id then
      releaseClaim c ab e (some id) ((putEntry s ab (c.entryAt e) (entryWord 3 0)).andThen fun _ s =>
        .fin { status := 2, code := Code.number .bounds, pos := 4096#64, aux := aux } s)
    else
      releaseClaim c ab e (some id) ((gWrite s ab vaRec (c.blockAt id).a buf false).andThen fun _ s =>
        (putEntry (tableRelease s) ab (c.entryAt e) (entryWord 2 id)).andThen fun _ s =>
          .ok { status := 0, aux := aux } s)
  | .hold v s => .hold v s
  | .again p s => .again p s
  | .bad code op0 s => releaseClaim c ab e none (.bad code op0 s)
  | .fin x s => .fin x s

/-- bdedup from the label `new` (R321): the entry goes LIVE, then the slot is written. A fault of the slot leaves the entry LIVE; its
block is then not stranded, and AUX is 0 (DESIGN CHOICE: assumption 83). -/
def dedupNew (s : State) (ab : List Nat) (c : CopyDesc) (e : Nat) (buf : List Byte) (col : Bool) : Got CopyEnd :=
  (dedupClaim s ab c e buf).andThen fun x s =>
    writeSlot s ab c (slotWord true e (field x.aux 0 32))
      { status := 0, outcome := if col then 3 else 1, bytes := 4096, pos := 4096#64 }

/-- The probes of bdedup (R321). -/
def dedupProbe (ab : List Nat) (c : CopyDesc) (fp : BitVec 64 × BitVec 64) (buf : List Byte) :
    Nat → Nat → Bool → State → Got CopyEnd
  | 0, _, _, s => .fin { status := 6, pos := 4096#64 } s
  | fuel + 1, p, col, s =>
    let n := 2 ^ c.regs.dlog2.toNat
    let e := ((fp.1 ^^^ fp.2).toNat + p) % n
    let a := c.entryAt e
    (gWord s ab vaRec a true).andThen fun s1 s => (gWord s ab vaRec (a + 8) true).andThen fun s2 s =>
    (gWord s ab vaRec (a + 16) true).andThen fun w s => (gWord s ab vaRec (a + 24) true).andThen fun rf s =>
      let s := stepDone (tableAcquire s) a w
      let state := field w 62 2
      let same := s1 = fp.1 && s2 = fp.2
      if state = 0 then
        (gWrite s ab vaRec a ([fp.1, fp.2, entryWord 1 0, 1#64].flatMap fun x => leBytes 8 x.toNat) true).andThen fun _ s =>
          dedupNew s ab c e buf col
      else if state = 1 && same then .again none s
      else if state = 2 && same then
        let blk := field w 0 32
        (gPut s ab vaRec (a + 24) (rf + 1) true).andThen fun _ s =>
        (gRead s ab vaRec (c.blockAt blk) false).andThen fun b s =>
          if b.2.isNone && b.1 = buf then
            writeSlot s ab c (slotWord true e blk) { status := 0, outcome := 2, bytes := 0, pos := 4096#64 }
          else (gPut (tableRelease s) ab vaRec (a + 24) rf true).andThen fun _ s =>
            dedupProbe ab c fp buf fuel (p + 1) true (stepDone s a w)
      else dedupProbe ab c fp buf fuel (p + 1) col s

/-- bdedup (R321). -/
def runDedup (s : State) (ab : List Nat) (c : CopyDesc) : Got CopyEnd :=
  (gWord s ab c.dst (slotSpan c.dst c.d).a false).andThen fun slot s =>
    if bitAt slot 63 then .fin { status := 7, pos := 4096#64 } s else
    (gRead s ab c.src (blockSpan c.src c.s 4096) false).andThen fun b s =>
      match b.2 with
      | some k => .fin { status := 2, code := Code.number .poison, pos := BitVec.ofNat 64 k } s
      | none => dedupProbe ab c (tsd128 0 b.1) b.1 (2 ^ c.regs.dlog2.toNat) 0 false s

/-- An end of bcow or bcmp whose POS (and AUX) the spec does not state (DESIGN CHOICE: assumption 5). -/
def openEnd (s : State) (e : CopyEnd) : Got CopyEnd :=
  let d := drawFree s 64
  .fin { e with pos := d.1 } d.2

/-- Replaces bytes of a block. -/
def patch (blk : List Byte) (off : Nat) (new : List Byte) : List Byte := blk.take off ++ new ++ blk.drop (off + new.length)

/-- A fault of bcow after a pop strands the id. -/
def stranded (id : BitVec 32) (g : Got CopyEnd) : Got CopyEnd :=
  match g with
  | .bad code op0 s => openEnd s { status := 2, code := code.number, aux := id.setWidth 64,
                                   stop := if code = .poison then none else some (code, op0) }
  | x => x

/-- bcow pops a fresh block, writes it from what `old` reads, and then does `after`. -/
def cowFresh (s : State) (ab : List Nat) (c : CopyDesc) (old : State → Got (List Byte × Option Nat)) (new : List Byte)
    (after : State → Got Unit) : Got CopyEnd :=
  (popBlock s ab c).andThen fun p s =>
    match p with
    | none => openEnd s { status := 5 }
    | some id =>
      if c.regs.nblk ≤ id then openEnd s { status := 2, code := Code.number .bounds, aux := id.setWidth 64 }
      else stranded id
        ((old s).andThen fun blk s =>
          if blk.2.isSome then .bad .poison 0 s else
          (gWrite s ab vaRec (c.blockAt id).a (patch blk.1 (field c.n 0 12).toNat new) false).andThen fun _ s =>
          (after s).andThen fun _ s =>
            writeSlot s ab c (slotWord false 0 id) { status := 0, bytes := 4096, pos := BitVec.ofNat 64 c.blockLen })

/-- bcow (R322). AUX of a bcow into a private block, which writes no slot, is the slot's value (DESIGN CHOICE: assumption 83). -/
def runCow (s : State) (ab : List Nat) (c : CopyDesc) : Got CopyEnd :=
  let n := c.blockLen
  let off : Int := (((field c.n 0 12).toNat : Nat) : Int)
  (gWord s ab c.dst (slotSpan c.dst c.d).a false).andThen fun slot s =>
  (gRead s ab c.src (blockSpan c.src c.s n) false).andThen fun b s =>
    if b.2.isSome then openEnd s { status := 2, code := Code.number .poison } else
    let blk := field slot 0 32
    if !bitAt slot 63 then cowFresh s ab c (fun s => .ok (List.replicate 4096 0, none) s) b.1 fun s => .ok () s
    else if !bitAt slot 62 then
      (gWrite s ab vaRec ((c.blockAt blk).a + off) b.1 false).andThen fun _ s =>
        .fin { status := 0, bytes := n, pos := BitVec.ofNat 64 n, aux := slot } s
    else
      let e := (field slot 32 30).toNat
      if 2 ^ c.regs.dlog2.toNat ≤ e then openEnd s { status := 8 } else
      let a := c.entryAt e
      (gWord s ab vaRec (a + 16) true).andThen fun w s => (gWord s ab vaRec (a + 24) true).andThen fun rf s =>
        let s := stepDone (tableAcquire s) a w
        if field w 62 2 ≠ 2#2 || field w 0 32 ≠ blk then openEnd s { status := 8 }
        else if rf = 1 then
          (gPut (tableRelease s) ab vaRec (a + 16) (entryWord 3 (field w 0 32) ||| (w &&& 0x3FFFFFFF00000000#64)) true).andThen
          fun _ s => (gPut s ab vaRec (a + 24) 0 true).andThen fun _ s =>
          (gWrite s ab vaRec ((c.blockAt blk).a + off) b.1 false).andThen fun _ s =>
            writeSlot s ab c (slotWord false 0 blk) { status := 0, bytes := n, pos := BitVec.ofNat 64 n }
        else
          cowFresh s ab c (fun s => gRead s ab vaRec (c.blockAt blk) false) b.1 fun s =>
            (gPut (tableRelease s) ab vaRec (a + 24) (rf - 1) true).andThen fun _ s => .ok () (stepDone s a rf)

/-- bcmp (R323). -/
def runCmp (s : State) (ab : List Nat) (c : CopyDesc) : Got CopyEnd :=
  (gRead s ab c.dst (blockSpan c.dst c.d 4096) false).andThen fun x s =>
  (gRead s ab c.src (blockSpan c.src c.s 4096) false).andThen fun y s =>
    if x.2.isSome || y.2.isSome then
      let d := drawFree s 64
      openEnd d.2 { status := 2, code := Code.number .poison, aux := d.1 }
    else match (x.1.zip y.1).findIdx? fun p => p.1 != p.2 with
      | none => .fin { status := 0, pos := 4096#64, aux := BitVec.allOnes 64 } s
      | some k => .fin { status := 4, pos := BitVec.ofNat 64 k, aux := BitVec.ofNat 64 k } s

/-- A table instruction completes, or tries again in the next cycle. -/
def runTable (s : State) (op : Op) (c : CopyDesc) : State :=
  let g := match c.form with
    | .dedup => runDedup s op.aborted c
    | .cow => runCow s op.aborted c
    | _ => runCmp s op.aborted c
  match g with
  | .fin e t => endCopy t op c e
  | .ok e t => endCopy t op c e
  | .hold v t =>
    let u : State := { s with tlb := t.tlb, dirs := t.dirs, misses := t.misses, reports := t.reports }
    updateOp u op.id fun o => { o with held := some v }
  | .again p _ => retryOp s op.id p
  | .bad code op0 t =>
    let stop := if code = .poison then none else some (code, op0)
    if c.form = .dedup then endCopy t op c { status := 2, code := code.number, pos := 4096#64, stop := stop }
    else
      let d := drawFree t 64
      endCopy d.2 op c { status := 2, code := code.number, pos := d.1, stop := stop }

/-! ### COPY_COMPLETION (R302, R307) -/

/-- A full ring holds the completion; past FETO the strand stops (R307). The record of that stop is written while the completion is
held, and it completes when software has made room, for a strand that its handler has set aside as well (assumption 78). OPERAND1 has
the form of Table 1.13 for a timeout, not the instruction's address (DESIGN CHOICE: assumption 69). -/
def holdForRing (s : State) (op : Op) (c : CopyDesc) : State :=
  let since := c.ringSince.getD s.cycle
  let s := updateOp s op.id fun o => { o with kind := .copy { c with ringSince := some since }, due := s.cycle + 1 }
  let t := s.ctx.feto.toNat * 1024
  if t ≠ 0 && s.cycle - since = t + 1 && s.ctx.stop.isNone && !op.aside s then
    strandStop s { code := .feTimeout, tag := 1, async := true, op0 := 0x110,
                   op1 := (6#8 : BitVec 8) ++ BitVec.ofNat 56 (s.cycle - since) } false
  else s

/-- Every span that a copy and its ring touch, by record. -/
def CopyDesc.touched (s : State) (c : CopyDesc) : List (Rec × List Span) :=
  (if c.posts then [(ringRec c, [ringSlot s c])] else []) ++
  (if c.table then [] else [(c.dst, c.dstSpans)] ++ (if c.fills then [] else [(c.src, c.srcSpans)]))

/-- COPY_COMPLETION (R302, R307, R309). A page that the driver has aborted ends a copy at once; another page that then has no
translation fails as well (DESIGN CHOICE: assumption 83). -/
def execCopyCompletion (id : Nat) (s : State) : Host.Outcome State Fault Refusal :=
  match findOp s id with
  | some op => match op.kind with
    | .copy c =>
      if ringFull s c then .next (holdForRing s op c) else
      let places := c.touched s
      let pages := places.flatMap fun x => spanPages x.1 x.2
      match if op.aborted.isEmpty then walkPages s s.ctx.part pages else (quietWalk s s.ctx.part pages, none) with
      | (s, some v) => .next (updateOp s id fun o => { o with held := some v })
      | (s, none) =>
        let waiting := places.findSome? fun x => match locate s x.1 false (x.2.flatMap Span.bytes) with
          | .ok ls => (match remoteCheck s (ls.map (·.key)) with
            | some (.inl k) => some k.pkg
            | _ => none)
          | _ => none
        if waiting.isSome then .next (retryOp s id (waiting.bind fun p => p))
        else if c.table then .next (runTable s op c)
        else
          let s := if c.fills then s else
            match locate s c.src false (c.srcSpans.flatMap Span.bytes) with
            | .ok ls =>
              let s := engineFlits s .bte .read (ls.map (·.key))
              if c.src.space ≠ 0 then s else (readPrep s c.src.cache ls).1
            | _ => s
          .next (runCopy s op c)
    | _ => .next s
  | none => .next s

/-! ### bwait, bacnt, bsync and CRING.IDX (R324 to R326, R307) -/

/-- The condition of bwait. -/
def bwaitHolds (s : State) (ac : BitVec 4) (ring : Bool) (n : Nat) : Bool :=
  let b := s.ctx.bte
  if ring then decide (n ≤ (b.tail - b.head).toNat)
  else !bitAt (b.arrive[ac.toNat].1 - BitVec.ofNat 15 n) 14

def execBwait (h : Hdr) (ac : BitVec 4) (ring : BitVec 1) (aa : BitVec 5) (imm : BitVec 16) (s : State) :
    Host.Outcome State Fault Refusal :=
  issuePrivate s .bte h none (encodingOk (.bwait h ac ring aa imm) false) [ra aa] noNeed fun s =>
    if bwaitHolds s ac (ring = 1) ((readA s .bte aa).toNat + imm.toNat) then .done s
    else .wait s (if ring = 1 then .ring else .arrival ac.toNat)

def execBacnt (h : Hdr) (ac : BitVec 4) (ad : BitVec 5) (s : State) : Host.Outcome State Fault Refusal :=
  issuePrivate s .bte h none (encodingOk (.bacnt h ac ad) false) [] noNeed fun s =>
    let n := s.ctx.bte.arrive[ac.toNat]
    .done (addVarOp s .bte [.a ad.toNat (0#48 ++ bit1 n.2 ++ n.1)] .result)

/-- Copy-class operations of this strand. -/
def copiesOut (s : State) : Bool := s.ops.any fun o => match o.kind with
  | .copy _ => o.strand == s.ctx.strand
  | _ => false

def execBsync (h : Hdr) (s : State) : Host.Outcome State Fault Refusal :=
  issuePrivate s .bte h none (encodingOk (.bsync h) false) []
    (fun s => if copiesOut s then some .other else none) .done

/-- CRING_HEAD_WRITE (R307). -/
def execCringHeadWrite (v : BitVec 64) (s : State) : Host.Outcome State Fault Refusal :=
  let b := s.ctx.bte
  let hd := field v 0 16
  .next (setCtx s { s.ctx with bte :=
    if (b.tail - hd).toNat ≤ 2 ^ b.ringLog2.toNat then { b with head := hd } else { b with herr := true } })

end Sys2Proof.Machine
end

