-- ==== Sys2Proof/Machine/Vector.lean ====
section
/-! DEFINITION. The vector engine's register instructions (chapter 5): arithmetic, compares, predicates, conversions,
reductions and permutes. -/
namespace Sys2Proof.Machine

/-! ### Registers and lanes (R89, R192 to R195) -/

/-- The physical register that a name reaches (R89). -/
def vphys (s : State) (v : BitVec 6) : Nat :=
  if v.toNat < 32 then v.toNat
  else match (s.eng .vec).seq with
    | some m => 32 + (v.toNat - 32 + m.rrb.toNat) % 32
    | none => v.toNat

def readV (s : State) (v : Nat) : BitVec 4096 := s.ctx.vec.v.getD v 0

/-- A predicate; p0 reads as all ones (R195). -/
def readP (s : State) (p : BitVec 4) : BitVec 1024 :=
  if p = 0 then BitVec.allOnes 1024 else s.ctx.vec.p.getD p.toNat 0

/-- Code bits of a lane: e3m2 and e2m3 use six of eight (R193). -/
def vtBits (ty : BitVec 5) : Nat := if ty = 0x0D || ty = 0x0E then 6 else vtWidth ty

/-- Element `i` of a register under a TYPE. -/
def lane (ty : BitVec 5) (x : BitVec 4096) (i : Nat) : Nat :=
  (x.extractLsb' (vtWidth ty * i) (vtWidth ty)).toNat % 2 ^ vtBits ty

/-- A register from its elements, lowest first. -/
def packLanes (w : Nat) (l : List Nat) : BitVec 4096 := BitVec.ofNat 4096 (l.foldr (fun c a => a * 2 ^ w + c % 2 ^ w) 0)

/-- A predicate from its bits, lowest first. -/
def packBits (l : List Bool) : BitVec 1024 := BitVec.ofNat 1024 (l.foldr (fun b a => 2 * a + (if b then 1 else 0)) 0)

/-- The floating format of a TYPE. -/
def vtFmt (ty : BitVec 5) : FFmt :=
  match ty.toNat with
  | 0x08 => .fp32
  | 0x09 => .bf16
  | 0x0A => .fp16
  | 0x0B => .e4m3
  | 0x0C => .e5m2
  | 0x0D => .e3m2
  | 0x0E => .e2m3
  | _ => .e2m1

/-- The value of a floating or narrow element, flushed under FZ (R120). -/
def vtVal (ty : BitVec 5) (fz : Bool) (code : Nat) : Val := (vtFmt ty).value ((vtFmt ty).flushSrc fz code)

/-- A value rounded once to a floating or narrow TYPE (R206). -/
def vtRound (ty : BitVec 5) (fz : Bool) (m : RMode) (u : Nat) (sat : Bool) (v : Val) : Nat × Fx :=
  (vtFmt ty).flushRes fz ((vtFmt ty).convert m u sat v)

/-- The value of an integer element. -/
def vtIntVal (ty : BitVec 5) (code : Nat) : Int := intValue (vtWidth ty) (vtSigned ty) code

def regV (s : State) (v : BitVec 6) : Reg := .v (vphys s v)
def regP (p : BitVec 4) : Reg := .p p.toNat

/-- The registers that an element-wise instruction reads: its sources, its predicate, and its destination if it merges. -/
def laneReads (s : State) (mz : BitVec 1) (vd : BitVec 6) (src : List (BitVec 6)) (pg : BitVec 4) : List Reg :=
  src.map (regV s) ++ [regP pg] ++ (if mz = 1 then [regV s vd] else [])

/-! ### Issue (R196 to R203) -/

/-- R200: a defined TYPE outside the accepted ones. -/
def typeTrap (ok : Bool) (ty : BitVec 5) : Option Trap := if ok then none else some (formatTrap ty.toNat)

/-- A vector instruction: encoding, token waits and interlocks, then its rounding mode (R114) and its type. -/
def vecPrivate (s : State) (h : Hdr) (legal : Bool) (reads : List Reg) (rm : BitVec 3) (types : Option Trap)
    (need : State → Option WaitKind) (body : RMode → State → Res) : Host.Outcome State Fault Refusal :=
  issuePrivate s .vec h none legal reads need fun s =>
    match RMode.ofCode rm s.ctx.vec.rm with
    | none => .trap { code := .illegalOp }
    | some m =>
      match types with
      | some t => .trap t
      | none => body m s

/-- `sr_bits()` of result `j` (R197). -/
def vecU (s : State) (m : RMode) (j : Nat) : Nat :=
  if m = .sr then srBits s.ctx.vec.seed s.ctx.vec.stream (s.ctx.vec.ibase + BitVec.ofNat 32 j) else 0

/-- R197: IBASE advances by the number of results of an instruction that rounds in SR. -/
def advanceIbase (s : State) (m : RMode) (n : Nat) : State :=
  if m = .sr then setCtx s { s.ctx with vec := { s.ctx.vec with ibase := s.ctx.vec.ibase + BitVec.ofNat 32 n } } else s

/-- The result of the pattern of R202: `f i` where the predicate is set, else merged or zeroed. -/
def laneResult (ty : BitVec 5) (pg : BitVec 1024) (mz : BitVec 1) (old : BitVec 4096) (f : Nat → Nat × Fx) :
    BitVec 4096 × Fx :=
  let rs := (List.range (vtCount ty)).map fun i =>
    if pg.getLsbD i then f i else (if mz = 1 then lane ty old i else 0, {})
  (packLanes (vtWidth ty) (rs.map (·.1)), Fx.joinAll (rs.map (·.2)))

/-- Starts a fixed-latency result (R203). -/
def vecResult (s : State) (lat : Nat) (ws : List RegWrite) (fx : Fx) : State := addOp s .vec lat ws true fx .result

/-- An element-wise instruction with fixed latency. -/
def laneOp (s : State) (h : Hdr) (legal accept : Bool) (ty : BitVec 5) (rm : BitVec 3) (mz : BitVec 1) (vd : BitVec 6)
    (src : List (BitVec 6)) (pg : BitVec 4) (lat : Nat) (f : Bool → RMode → Nat → List Nat → Nat × Fx) :
    Host.Outcome State Fault Refusal :=
  vecPrivate s h legal (laneReads s mz vd src pg) rm (typeTrap accept ty) noNeed fun m s =>
    let xs := src.map fun v => readV s (vphys s v)
    let r := laneResult ty (readP s pg) mz (readV s (vphys s vd)) fun i =>
      f s.ctx.vec.fz m (vecU s m i) (xs.map fun x => lane ty x i)
    .done (vecResult (advanceIbase s m (vtCount ty)) lat [.v (vphys s vd) r.1] r.2)

/-! ### Exact values (R205 to R207) -/

def Val.negate : Val → Val
  | .fin n q => .fin (!n) q.neg
  | .inf n => .inf (!n)
  | .nan sig => .nan sig

def Val.isNan : Val → Bool
  | .nan _ => true
  | _ => false

/-- A NaN result of two sources: signalling if either is. -/
def nanOf (a b : Val) : Val := .nan ((a == .nan true) || (b == .nan true))

/-- The sign of an exact zero sum (R118). -/
def zeroSign (m : RMode) (a b : Bool) : Bool := if a == b then a else m == .rd

/-- `a + b`, exactly; an invalid sum is a signalling NaN, which sets NV. -/
def addVal (m : RMode) (a b : Val) : Val :=
  match a, b with
  | .fin na x, .fin nb y => let q := x.add y; if q.isZero then .fin (zeroSign m na nb) Q.zero else .fin (decide (q.num < 0)) q
  | .inf na, .inf nb => if na == nb then .inf na else .nan true
  | .inf na, .fin _ _ => .inf na
  | .fin _ _, .inf nb => .inf nb
  | _, _ => nanOf a b

/-- `a × b`, exactly; 0 × ∞ is a signalling NaN, which sets NV. -/
def mulVal (a b : Val) : Val :=
  match a, b with
  | .fin na x, .fin nb y => .fin (na != nb) (x.mul y)
  | .inf na, .inf nb => .inf (na != nb)
  | .inf na, .fin nb y => if y.isZero then .nan true else .inf (na != nb)
  | .fin na x, .inf nb => if x.isZero then .nan true else .inf (na != nb)
  | _, _ => nanOf a b

/-- `a < b` of values that are not NaN. -/
def Val.lt (a b : Val) : Bool :=
  match a, b with
  | .fin _ x, .fin _ y => x.lt y
  | .inf true, .inf false => true
  | .inf true, .fin _ _ => true
  | .fin _ _, .inf false => true
  | _, _ => false

/-- `a < b` with −0 below +0 (R206). -/
def Val.before (a b : Val) : Bool :=
  a.lt b || (!b.lt a && (match a, b with
    | .fin na _, .fin nb _ => na && !nb
    | _, _ => false))

def minVal (a b : Val) : Val := if a.isNan || b.isNan then nanOf a b else if b.before a then b else a
def maxVal (a b : Val) : Val := if a.isNan || b.isNan then nanOf a b else if a.before b then b else a

def absVal (a : Val) : Val :=
  match a with
  | .fin _ q => .fin false q.abs
  | .inf _ => .inf false
  | .nan sig => .nan sig

/-! ### Arithmetic -/

def numType (ty : BitVec 5) : Bool := vtInt ty || vtFloat ty
def vecLat (ty : BitVec 5) (li lf : Nat) : Nat := if vtInt ty then li else lf

/-- A binary operation: on integers with wrap, on floats rounded once. -/
def arith2 (ty : BitVec 5) (fi : Int → Int → Int) (fv : RMode → Val → Val → Val) (fz : Bool) (m : RMode) (u : Nat)
    (l : List Nat) : Nat × Fx :=
  let a := l.getD 0 0
  let b := l.getD 1 0
  if vtFloat ty then vtRound ty fz m u false (fv m (vtVal ty fz a) (vtVal ty fz b))
  else (intCode (vtWidth ty) (fi (vtIntVal ty a) (vtIntVal ty b)), {})

/-- A fused operation `±(a × b) ± c` (Table 5.9). -/
def arith3 (ty : BitVec 5) (negProd negC : Bool) (fz : Bool) (m : RMode) (u : Nat) (l : List Nat) : Nat × Fx :=
  let a := l.getD 0 0
  let b := l.getD 1 0
  let c := l.getD 2 0
  if vtFloat ty then
    let p := mulVal (vtVal ty fz a) (vtVal ty fz b)
    let c := vtVal ty fz c
    vtRound ty fz m u false (addVal m (if negProd then p.negate else p) (if negC then c.negate else c))
  else
    let p := vtIntVal ty a * vtIntVal ty b
    let c := vtIntVal ty c
    (intCode (vtWidth ty) ((if negProd then -p else p) + (if negC then -c else c)), {})

/-- A clamped integer result (R207). -/
def clamped (ty : BitVec 5) (n : Int) : Nat × Fx :=
  let c := clampInt (vtWidth ty) (vtSigned ty) n
  (intCode (vtWidth ty) c.1, { sat := c.2 })

/-- Integer operations without rounding. -/
def int2 (f : BitVec 5 → Int → Int → Nat × Fx) (ty : BitVec 5) (_ : Bool) (_ : RMode) (_ : Nat) (l : List Nat) : Nat × Fx :=
  f ty (vtIntVal ty (l.getD 0 0)) (vtIntVal ty (l.getD 1 0))

/-- Operations on lane bits. -/
def bits2 (f : Nat → Nat → Nat → Nat) (ty : BitVec 5) (_ : Bool) (_ : RMode) (_ : Nat) (l : List Nat) : Nat × Fx :=
  (f (vtBits ty) (l.getD 0 0) (l.getD 1 0) % 2 ^ vtBits ty, {})

/-- vabs and vneg. -/
def signOp (ty : BitVec 5) (fi : Int → Int) (fv : Val → Val) (fz : Bool) (_ : RMode) (_ : Nat) (l : List Nat) : Nat × Fx :=
  if vtFloat ty then vtRound ty fz .rne 0 false (fv (vtVal ty fz (l.getD 0 0)))
  else clamped ty (fi (vtIntVal ty (l.getD 0 0)))

/-- Shift counts of the lane width or more (R207). -/
def laneSra (w a b : Nat) : Nat := intCode w (intValue w true a / ((2 ^ min b w : Nat) : Int))

def execVadd (h : Hdr) (ty : BitVec 5) (rm : BitVec 3) (mz : BitVec 1) (vd va vb : BitVec 6) (pg : BitVec 4) (s : State) :
    Host.Outcome State Fault Refusal :=
  laneOp s h (encodingOk (.vadd h ty rm mz vd va vb pg) false) (numType ty) ty rm mz vd [va, vb] pg (vecLat ty 2 4)
    (arith2 ty (· + ·) addVal)

def execVsub (h : Hdr) (ty : BitVec 5) (rm : BitVec 3) (mz : BitVec 1) (vd va vb : BitVec 6) (pg : BitVec 4) (s : State) :
    Host.Outcome State Fault Refusal :=
  laneOp s h (encodingOk (.vsub h ty rm mz vd va vb pg) false) (numType ty) ty rm mz vd [va, vb] pg (vecLat ty 2 4)
    (arith2 ty (· - ·) fun m a b => addVal m a b.negate)

def execVmul (h : Hdr) (ty : BitVec 5) (rm : BitVec 3) (mz : BitVec 1) (vd va vb : BitVec 6) (pg : BitVec 4) (s : State) :
    Host.Outcome State Fault Refusal :=
  laneOp s h (encodingOk (.vmul h ty rm mz vd va vb pg) false) (numType ty) ty rm mz vd [va, vb] pg (vecLat ty 4 5)
    (arith2 ty (· * ·) fun _ => mulVal)

def execVmin (h : Hdr) (ty : BitVec 5) (mz : BitVec 1) (vd va vb : BitVec 6) (pg : BitVec 4) (s : State) :
    Host.Outcome State Fault Refusal :=
  laneOp s h (encodingOk (.vmin h ty mz vd va vb pg) false) (numType ty) ty 0 mz vd [va, vb] pg (vecLat ty 2 4)
    (arith2 ty (fun x y => if y < x then y else x) fun _ => minVal)

def execVmax (h : Hdr) (ty : BitVec 5) (mz : BitVec 1) (vd va vb : BitVec 6) (pg : BitVec 4) (s : State) :
    Host.Outcome State Fault Refusal :=
  laneOp s h (encodingOk (.vmax h ty mz vd va vb pg) false) (numType ty) ty 0 mz vd [va, vb] pg (vecLat ty 2 4)
    (arith2 ty (fun x y => if x < y then y else x) fun _ => maxVal)

def execVmulh (h : Hdr) (ty : BitVec 5) (mz : BitVec 1) (vd va vb : BitVec 6) (pg : BitVec 4) (s : State) :
    Host.Outcome State Fault Refusal :=
  laneOp s h (encodingOk (.vmulh h ty mz vd va vb pg) false) (vtInt ty) ty 0 mz vd [va, vb] pg 4
    (int2 (fun t x y => (intCode (vtWidth t) (x * y / ((2 ^ vtWidth t : Nat) : Int)), {})) ty)

def execVadds (h : Hdr) (ty : BitVec 5) (mz : BitVec 1) (vd va vb : BitVec 6) (pg : BitVec 4) (s : State) :
    Host.Outcome State Fault Refusal :=
  laneOp s h (encodingOk (.vadds h ty mz vd va vb pg) false) (vtInt ty) ty 0 mz vd [va, vb] pg 2
    (int2 (fun t x y => clamped t (x + y)) ty)

def execVsubs (h : Hdr) (ty : BitVec 5) (mz : BitVec 1) (vd va vb : BitVec 6) (pg : BitVec 4) (s : State) :
    Host.Outcome State Fault Refusal :=
  laneOp s h (encodingOk (.vsubs h ty mz vd va vb pg) false) (vtInt ty) ty 0 mz vd [va, vb] pg 2
    (int2 (fun t x y => clamped t (x - y)) ty)

def execVfma (h : Hdr) (ty : BitVec 5) (rm : BitVec 3) (mz : BitVec 1) (vd va vb vc : BitVec 6) (pg : BitVec 4)
    (s : State) : Host.Outcome State Fault Refusal :=
  laneOp s h (encodingOk (.vfma h ty rm mz vd va vb vc pg) false) (numType ty) ty rm mz vd [va, vb, vc] pg (vecLat ty 4 5)
    (arith3 ty false false)

def execVfms (h : Hdr) (ty : BitVec 5) (rm : BitVec 3) (mz : BitVec 1) (vd va vb vc : BitVec 6) (pg : BitVec 4)
    (s : State) : Host.Outcome State Fault Refusal :=
  laneOp s h (encodingOk (.vfms h ty rm mz vd va vb vc pg) false) (numType ty) ty rm mz vd [va, vb, vc] pg (vecLat ty 4 5)
    (arith3 ty false true)

def execVfnma (h : Hdr) (ty : BitVec 5) (rm : BitVec 3) (mz : BitVec 1) (vd va vb vc : BitVec 6) (pg : BitVec 4)
    (s : State) : Host.Outcome State Fault Refusal :=
  laneOp s h (encodingOk (.vfnma h ty rm mz vd va vb vc pg) false) (numType ty) ty rm mz vd [va, vb, vc] pg (vecLat ty 4 5)
    (arith3 ty true false)

/-- Types of vabs and vneg. -/
def signedNum (ty : BitVec 5) : Bool := (vtInt ty && vtSigned ty) || vtFloat ty

def execVabs (h : Hdr) (ty : BitVec 5) (mz : BitVec 1) (vd va : BitVec 6) (pg : BitVec 4) (s : State) :
    Host.Outcome State Fault Refusal :=
  laneOp s h (encodingOk (.vabs h ty mz vd va pg) false) (signedNum ty) ty 0 mz vd [va] pg (vecLat ty 2 4)
    (signOp ty (fun x => if x < 0 then -x else x) absVal)

def execVneg (h : Hdr) (ty : BitVec 5) (mz : BitVec 1) (vd va : BitVec 6) (pg : BitVec 4) (s : State) :
    Host.Outcome State Fault Refusal :=
  laneOp s h (encodingOk (.vneg h ty mz vd va pg) false) (signedNum ty) ty 0 mz vd [va] pg (vecLat ty 2 4)
    (signOp ty (fun x => -x) Val.negate)

def execVand (h : Hdr) (ty : BitVec 5) (mz : BitVec 1) (vd va vb : BitVec 6) (pg : BitVec 4) (s : State) :
    Host.Outcome State Fault Refusal :=
  laneOp s h (encodingOk (.vand h ty mz vd va vb pg) false) true ty 0 mz vd [va, vb] pg 2 (bits2 (fun _ a b => a &&& b) ty)

def execVor (h : Hdr) (ty : BitVec 5) (mz : BitVec 1) (vd va vb : BitVec 6) (pg : BitVec 4) (s : State) :
    Host.Outcome State Fault Refusal :=
  laneOp s h (encodingOk (.vor h ty mz vd va vb pg) false) true ty 0 mz vd [va, vb] pg 2 (bits2 (fun _ a b => a ||| b) ty)

def execVxor (h : Hdr) (ty : BitVec 5) (mz : BitVec 1) (vd va vb : BitVec 6) (pg : BitVec 4) (s : State) :
    Host.Outcome State Fault Refusal :=
  laneOp s h (encodingOk (.vxor h ty mz vd va vb pg) false) true ty 0 mz vd [va, vb] pg 2 (bits2 (fun _ a b => a ^^^ b) ty)

def execVnot (h : Hdr) (ty : BitVec 5) (mz : BitVec 1) (vd va : BitVec 6) (pg : BitVec 4) (s : State) :
    Host.Outcome State Fault Refusal :=
  laneOp s h (encodingOk (.vnot h ty mz vd va pg) false) true ty 0 mz vd [va] pg 2
    (bits2 (fun w a _ => 2 ^ w - 1 - a) ty)

def execVsll (h : Hdr) (ty : BitVec 5) (mz : BitVec 1) (vd va vb : BitVec 6) (pg : BitVec 4) (s : State) :
    Host.Outcome State Fault Refusal :=
  laneOp s h (encodingOk (.vsll h ty mz vd va vb pg) false) (vtInt ty) ty 0 mz vd [va, vb] pg 2
    (bits2 (fun w a b => if b < w then a * 2 ^ b else 0) ty)

def execVsrl (h : Hdr) (ty : BitVec 5) (mz : BitVec 1) (vd va vb : BitVec 6) (pg : BitVec 4) (s : State) :
    Host.Outcome State Fault Refusal :=
  laneOp s h (encodingOk (.vsrl h ty mz vd va vb pg) false) (vtInt ty) ty 0 mz vd [va, vb] pg 2
    (bits2 (fun w a b => if b < w then a / 2 ^ b else 0) ty)

def execVsra (h : Hdr) (ty : BitVec 5) (mz : BitVec 1) (vd va vb : BitVec 6) (pg : BitVec 4) (s : State) :
    Host.Outcome State Fault Refusal :=
  laneOp s h (encodingOk (.vsra h ty mz vd va vb pg) false) (vtInt ty) ty 0 mz vd [va, vb] pg 2 (bits2 laneSra ty)

/-! ### Compares, selects and predicates (R208 to R211) -/

/-- The condition of a vcmp on numbers, from the comparisons less and equal. -/
def condHolds (cond : BitVec 3) (lt eq : Bool) : Bool :=
  match cond.toNat with
  | 0 => eq
  | 1 => !eq
  | 2 => lt
  | 3 => lt || eq
  | 4 => !lt && !eq
  | 5 => !lt
  | _ => false

/-- One element of a vcmp: its bit, and NV. -/
def cmpLane (ty : BitVec 5) (fz : Bool) (cond : BitVec 3) (a b : Nat) : Bool × Fx :=
  if vtFloat ty then
    let x := vtVal ty fz a
    let y := vtVal ty fz b
    if x.isNan || y.isNan then (cond = 1 || cond = 6, { nv := x == .nan true || y == .nan true })
    else (condHolds cond (x.lt y) (!x.lt y && !y.lt x), {})
  else
    let x := vtIntVal ty a
    let y := vtIntVal ty b
    (condHolds cond (decide (x < y)) (decide (x = y)), {})

/-- R195: a predicate destination that the modulo sequencer owns. -/
def predOwned (s : State) (pd : BitVec 4) : Bool := (s.eng .vec).seq.isSome && decide (8 ≤ pd.toNat)

/-- The register write of a predicate; a write to p0 is discarded. -/
def predWrite (pd : BitVec 4) (x : BitVec 1024) : List RegWrite := if pd = 0 then [] else [.p pd.toNat x]

def execVcmp (h : Hdr) (ty : BitVec 5) (mz : BitVec 1) (cond : BitVec 3) (pd : BitVec 4) (va vb : BitVec 6) (pg : BitVec 4)
    (s : State) : Host.Outcome State Fault Refusal :=
  vecPrivate s h (encodingOk (.vcmp h ty mz cond pd va vb pg) false && !predOwned s pd)
    ([regV s va, regV s vb, regP pg] ++ (if mz = 1 then [regP pd] else [])) 0 (typeTrap (numType ty) ty) noNeed fun _ s =>
      let x := readV s (vphys s va)
      let y := readV s (vphys s vb)
      let g := readP s pg
      let old := readP s pd
      let rs := (List.range (vtCount ty)).map fun i =>
        if g.getLsbD i then cmpLane ty s.ctx.vec.fz cond (lane ty x i) (lane ty y i) else (mz = 1 && old.getLsbD i, {})
      .done (vecResult s 2 (predWrite pd (packBits (rs.map (·.1)))) (Fx.joinAll (rs.map (·.2))))

def execVsel (h : Hdr) (ty : BitVec 5) (vd va vb : BitVec 6) (pg : BitVec 4) (s : State) :
    Host.Outcome State Fault Refusal :=
  vecPrivate s h (encodingOk (.vsel h ty vd va vb pg) false) [regV s va, regV s vb, regP pg] 0 none noNeed fun _ s =>
    let x := readV s (vphys s va)
    let y := readV s (vphys s vb)
    let g := readP s pg
    let r := packLanes (vtWidth ty) ((List.range (vtCount ty)).map fun i =>
      if g.getLsbD i then lane ty x i else lane ty y i)
    .done (vecResult s 2 [.v (vphys s vd) r] {})

/-- pand, por, pxor and pnot: on all 1,024 bits (R210). -/
def predOp (s : State) (h : Hdr) (legal : Bool) (pd pa pb : BitVec 4) (f : BitVec 1024 → BitVec 1024 → BitVec 1024) :
    Host.Outcome State Fault Refusal :=
  vecPrivate s h (legal && !predOwned s pd) [regP pa, regP pb] 0 none noNeed fun _ s =>
    .done (vecResult s 1 (predWrite pd (f (readP s pa) (readP s pb))) {})

def execPand (h : Hdr) (pd pa pb : BitVec 4) (s : State) : Host.Outcome State Fault Refusal :=
  predOp s h (encodingOk (.pand h pd pa pb) false) pd pa pb (· &&& ·)
def execPor (h : Hdr) (pd pa pb : BitVec 4) (s : State) : Host.Outcome State Fault Refusal :=
  predOp s h (encodingOk (.por h pd pa pb) false) pd pa pb (· ||| ·)
def execPxor (h : Hdr) (pd pa pb : BitVec 4) (s : State) : Host.Outcome State Fault Refusal :=
  predOp s h (encodingOk (.pxor h pd pa pb) false) pd pa pb (· ^^^ ·)
def execPnot (h : Hdr) (pd pa : BitVec 4) (s : State) : Host.Outcome State Fault Refusal :=
  predOp s h (encodingOk (.pnot h pd pa) false) pd pa 0 fun x _ => ~~~x

def execPcnt (h : Hdr) (ty : BitVec 5) (ad : BitVec 5) (pa : BitVec 4) (s : State) : Host.Outcome State Fault Refusal :=
  vecPrivate s h (encodingOk (.pcnt h ty ad pa) false) [regP pa] 0 none noNeed fun _ s =>
    let x := readP s pa
    let n := ((List.range (vtCount ty)).filter fun i => x.getLsbD i).length
    .done (vecResult s 2 [.a ad.toNat (BitVec.ofNat 64 n)] {})

/-! ### Conversions (R212) -/

/-- The value of a source element of a vcvt. -/
def cvtSource (ty : BitVec 5) (fz : Bool) (cb : List (BitVec 8)) (code : Nat) : Val :=
  if vtAnyInt ty then let n := vtIntVal ty code; .fin (decide (n < 0)) (Q.ofInt n)
  else if vtCb ty then cbValue cb code else vtVal ty fz code

/-- One element of a vcvt. -/
def cvtLane (st dt : BitVec 5) (fz : Bool) (m : RMode) (u : Nat) (sat : Bool) (cb : List (BitVec 8)) (code : Nat) :
    Nat × Fx :=
  let v := cvtSource st fz cb code
  if vtAnyInt dt then
    if vtAnyInt st then intToInt (vtWidth dt) (vtSigned dt) (vtIntVal st code)
    else floatToInt (vtWidth dt) (vtSigned dt) m u v
  else if vtCb dt then
    let r := cbQuantise (cb.take (if dt = 0x11 then 256 else 16)) v true
    (r.1, { r.2.sticky with nv := v.signals })
  else vtRound dt fz m u sat v

/-- A pair of types that vcvt makes (R212). -/
def cvtPair (s d : BitVec 5) : Bool := (!vtCb s || vtFloat d) && (!vtCb d || vtFloat s)

/-- The registers of a group of `k` from a named one (R194). -/
def groupRegs (s : State) (v : BitVec 6) (k : Nat) : List Nat := (List.range k).map fun j => vphys s (v + BitVec.ofNat 6 j)

/-- vcvt (R212). A codebook pair that it does not make reports the destination's code where that is a codebook's, else the source's
(DESIGN CHOICE: assumption 33). -/
def execVcvt (h : Hdr) (ty : BitVec 5) (rm : BitVec 3) (mz : BitVec 1) (aux : BitVec 3) (vd va : BitVec 6) (dty : BitVec 5)
    (pg : BitVec 4) (s : State) : Host.Outcome State Fault Refusal :=
  let k := cvtRatio ty dty
  let kd := if vtWidth ty < vtWidth dty then k else 1
  let ks := if vtWidth dty < vtWidth ty then k else 1
  vecPrivate s h (encodingOk (.vcvt h ty rm mz aux vd va dty pg) false)
    ((groupRegs s va ks).map .v ++ [regP pg] ++ (if mz = 1 then (groupRegs s vd kd).map .v else [])) rm
    (if cvtPair ty dty then none else some (formatTrap (if vtCb dty then dty.toNat else ty.toNat))) noNeed fun m s =>
      let n := 4096 / min (vtWidth ty) (vtWidth dty)
      let xs := (groupRegs s va ks).map (readV s)
      let olds := (groupRegs s vd kd).map (readV s)
      let g := readP s pg
      let cb := s.ctx.vec.cb.getD (field aux 0 2).toNat []
      let rs := (List.range n).map fun i =>
        if g.getLsbD i then
          cvtLane ty dty s.ctx.vec.fz m (vecU s m i) (bitAt aux 2) cb (lane ty (xs.getD (i % ks) 0) (i / ks))
        else (if mz = 1 then lane dty (olds.getD (i % kd) 0) (i / kd) else 0, {})
      let codes := rs.map (·.1)
      let ws := (groupRegs s vd kd).zipIdx.map fun r =>
        RegWrite.v r.1 (packLanes (vtWidth dty) ((List.range (vtCount dty)).map fun e => codes.getD (e * kd + r.2) 0))
      let t := vecResult (advanceIbase s m n) (2 + k) ws (Fx.joinAll (rs.map (·.2)))
      let x := t.eng .vec
      .done (t.setEng .vec { x with holdUntil := max x.holdUntil (s.cycle + k) })

/-! ### Reductions (R213) -/

/-- The sum of the members, exactly; every one finite. -/
def sumVals (l : List Val) : Q := l.foldl (fun a v => match v with
  | .fin _ q => a.add q
  | _ => a) Q.zero

/-- Float add of a segment. -/
def redAdd (m : RMode) (l : List Val) : Val :=
  if l.any Val.isNan then .nan (l.any (· == .nan true))
  else if l.any (· == .inf false) && l.any (· == .inf true) then .nan true
  else if l.any (· == .inf false) then .inf false
  else if l.any (· == .inf true) then .inf true
  else
    let q := sumVals l
    if q.isZero then .fin (!l.isEmpty && (m == .rd || l.all fun v => v matches .fin true _)) Q.zero
    else .fin (decide (q.num < 0)) q

/-- min, max and amax of a segment from its identity. -/
def redFold (f : Val → Val → Val) (id : Val) (l : List Val) : Val :=
  match l with
  | [] => id
  | x :: r => r.foldl f x

/-- One segment's result. -/
def reduceSeg (ty : BitVec 5) (op : BitVec 3) (fz : Bool) (m : RMode) (u : Nat) (l : List Nat) : Nat × Fx :=
  let w := vtBits ty
  let all := 2 ^ w - 1
  match op.toNat with
  | 4 => (l.foldl (· &&& ·) all, {})
  | 5 => (l.foldl (· ||| ·) 0, {})
  | 6 => (l.foldl (· ^^^ ·) 0, {})
  | k =>
    if vtFloat ty then
      let vs := l.map (vtVal ty fz)
      vtRound ty fz m u false (match k with
        | 0 => redAdd m vs
        | 1 => redFold minVal (.inf false) vs
        | 2 => redFold maxVal (.inf true) vs
        | _ => redFold maxVal (.fin false Q.zero) (vs.map absVal))
    else
      let ns := l.map (vtIntVal ty)
      match k with
      | 0 => (intCode w (ns.foldl (· + ·) 0), {})
      | 1 => (intCode w (ns.foldl (fun a b => if b < a then b else a) (intMax w (vtSigned ty))), {})
      | _ => (intCode w (ns.foldl (fun a b => if a < b then b else a) (intMin w (vtSigned ty))), {})

/-- Types that a vred accepts. -/
def redTypes (ty : BitVec 5) (op : BitVec 3) : Bool :=
  decide (4 ≤ op.toNat) || (numType ty && !(op = 3 && vtInt ty))

def execVred (h : Hdr) (ty : BitVec 5) (rm : BitVec 3) (op : BitVec 3) (vd va : BitVec 6) (pg : BitVec 4) (seg : BitVec 4)
    (s : State) : Host.Outcome State Fault Refusal :=
  vecPrivate s h (encodingOk (.vred h ty rm op vd va pg seg) false) [regV s va, regP pg] rm
    (typeTrap (redTypes ty op) ty) noNeed fun m s =>
      let g := if seg = 0 then vtCount ty else 2 ^ seg.toNat
      let n := vtCount ty / g
      let x := readV s (vphys s va)
      let p := readP s pg
      let rs := (List.range n).map fun j =>
        let is := ((List.range g).map (j * g + ·)).filter fun i => p.getLsbD i
        reduceSeg ty op s.ctx.vec.fz m (vecU s m j) (is.map (lane ty x))
      .done (vecResult (advanceIbase s m n) 6 [.v (vphys s vd) (packLanes (vtWidth ty) (rs.map (·.1)))]
        (Fx.joinAll (rs.map (·.2))))

/-! ### Permutes and broadcasts (R214 to R217) -/

def execVperm (h : Hdr) (ty : BitVec 5) (mz : BitVec 1) (aux : BitVec 3) (vd va vb : BitVec 6) (pg : BitVec 4) (s : State) :
    Host.Outcome State Fault Refusal :=
  vecPrivate s h (encodingOk (.vperm h ty mz aux vd va vb pg) false) (laneReads s mz vd [va, vb] pg) 0 none noNeed
    fun _ s =>
      let x := readV s (vphys s va)
      let y := readV s (vphys s vb)
      let r := laneResult ty (readP s pg) mz (readV s (vphys s vd)) fun i =>
        let j := lane ty y i + (if bitAt aux 0 then 256 else 0)
        (if j < vtCount ty then lane ty x j else 0, {})
      .done (vecResult s 3 [.v (vphys s vd) r.1] {})

def execVdup (h : Hdr) (ty : BitVec 5) (mz : BitVec 1) (vd : BitVec 6) (aa : BitVec 5) (pg : BitVec 4) (s : State) :
    Host.Outcome State Fault Refusal :=
  vecPrivate s h (encodingOk (.vdup h ty mz vd aa pg) false) (ra aa :: laneReads s mz vd [] pg) 0 none noNeed fun _ s =>
    let c := (readA s .vec aa).toNat % 2 ^ vtBits ty
    let r := laneResult ty (readP s pg) mz (readV s (vphys s vd)) fun _ => (c, {})
    .done (vecResult s 2 [.v (vphys s vd) r.1] {})

def execVzip (h : Hdr) (ty : BitVec 5) (vd va vb : BitVec 6) (s : State) : Host.Outcome State Fault Refusal :=
  vecPrivate s h (encodingOk (.vzip h ty vd va vb) false) [regV s va, regV s vb] 0 none noNeed fun _ s =>
    let x := readV s (vphys s va)
    let y := readV s (vphys s vb)
    let n := vtCount ty
    let seq (k : Nat) : BitVec 4096 := packLanes (vtWidth ty) ((List.range n).map fun e =>
      let i := k * n + e
      if i % 2 = 0 then lane ty x (i / 2) else lane ty y (i / 2))
    .done (vecResult s 3 ((groupRegs s vd 2).zipIdx.map fun r => .v r.1 (seq r.2)) {})

def execVunzip (h : Hdr) (ty : BitVec 5) (vd va : BitVec 6) (s : State) : Host.Outcome State Fault Refusal :=
  vecPrivate s h (encodingOk (.vunzip h ty vd va) false) ((groupRegs s va 2).map .v) 0 none noNeed fun _ s =>
    let xs := (groupRegs s va 2).map (readV s)
    let n := vtCount ty
    let part (k : Nat) : BitVec 4096 := packLanes (vtWidth ty) ((List.range n).map fun e =>
      let i := 2 * e + k
      lane ty (xs.getD (i / n) 0) (i % n))
    .done (vecResult s 3 [.v (vphys s vd) (part 0), .v (vphys s (vd + 1)) (part 1)] {})

def execVgetx (h : Hdr) (ty : BitVec 5) (ad : BitVec 5) (va : BitVec 6) (aa : BitVec 5) (s : State) :
    Host.Outcome State Fault Refusal :=
  vecPrivate s h (encodingOk (.vgetx h ty ad va aa) false) [regV s va, ra aa] 0 none noNeed fun _ s =>
    let i := (readA s .vec aa).toNat
    let c := if i < vtCount ty then lane ty (readV s (vphys s va)) i else 0
    let v := if vtSigned ty then BitVec.ofInt 64 (intValue (vtWidth ty) true c) else BitVec.ofNat 64 c
    .done (vecResult s 3 [.a ad.toNat v] {})

end Sys2Proof.Machine
end

