-- ==== Sys2Proof/Machine/VecMem.lean ====
section
/-! DEFINITION. The vector engine's memory instructions (chapter 5): loads and stores, gathers and scatters, quantising
loads and stores. -/
namespace Sys2Proof.Machine

/-! ### Elements of an access (R218) -/

/-- The memory formats that a TYPE moves (R219). -/
def memFmtOk (ty : BitVec 5) (f : Fmt) : Bool :=
  match ty.toNat with
  | 0x00 => f = .int8
  | 0x01 => f = .uint8
  | 0x02 | 0x03 => f = .int16 || f = .mld16
  | 0x04 | 0x05 => f = .int32
  | 0x06 | 0x07 => f = .int64
  | 0x08 => f = .fp32
  | 0x09 => f = .bf16 || f = .mld16
  | 0x0A => f = .fp16 || f = .mld16
  | 0x0B => f = .e4m3
  | 0x0C => f = .e5m2
  | 0x0D | 0x0E => f = .e3m2 || f = .e2m3
  | 0x0F => f = .e2m1
  | 0x10 => f = .int4
  | 0x11 => f = .cb8
  | _ => f = .cb4

/-- The bits of an element of a record. -/
def Rec.bits (r : Rec) : Nat := match r.format with
  | some f => f.bits
  | none => 8

/-- The code span of linear index `l`, and its first bit. -/
def Rec.codeAt (r : Rec) (l : Int) : Span × Nat :=
  let x := r.linear l
  codeSpan (r.rowAt x.2.1 x.2.2) r.bits x.1

/-- Bounds faults of the elements of an access: BASE bits that must be zero, and elements out of bounds under FAULT, or out of
bounds at an address that R56 forbids in every mode (R218). -/
def Rec.oobTraps (r : Rec) (acc : Acc) (l : List Int) : List Trap :=
  let at_ (x : Int) : Trap := accTrap .bounds r (r.codeAt x).1.a acc
  (if !r.baseAddr.2 then (l.take 1).map at_ else []) ++
  (l.filter fun x => !r.inBounds x && (r.bmode = 0 || r.pastLimit (r.codeAt x).1.a (r.codeAt x).1.n)).map at_

/-- Puts items back where the marks stand. -/
def spread {α : Type} : List Bool → List α → List (Option α)
  | [], _ => []
  | false :: m, l => none :: spread m l
  | true :: m, x :: l => some x :: spread m l
  | true :: m, [] => none :: spread m []

/-- The waits before a vector access: an acquire or a release of the engine that is still under way (R172). -/
def vecNeed (store : Bool) : State → Option WaitKind := accessNeed .vec store false

/-- The checks of an access to the elements `lins`: what is wrong, what to wait for, or the located in-bounds elements. -/
def vecSpots (s : State) (r : Rec) (acc : Acc) (lins : List Int) : Spots :=
  let spans := (lins.filter r.inBounds).map fun l => (r.codeAt l).1
  match worst (r.oobTraps acc lins ++ spanTraps s .vec r acc spans) with
  | some t => .trap t
  | none => reachSpans s r acc spans

/-- Handles whose bytes an access touches (R166). -/
def locHandles (s : State) (r : Rec) (ls : List Loc) : List Nat :=
  if r.isScratch then ls.foldl (fun l x => insNat l (r.core s % 4 * 48 + r.spOff x.a / 65536)) [] else []

/-- Address of the first byte in host memory, for the fault of a failed completion (R488). -/
def hostAddr (s : State) (r : Rec) (ls : List Loc) : BitVec 64 :=
  match ls.find? fun l => l.glob && paClass s.pkgNo l.key == .host with
  | some l => r.faultAddr (l.a : Int)
  | none => 0

/-- A load of one element per active lane; `lin i` is lane `i`'s linear index (R219, R220). -/
def vecLoad (s : State) (r : Rec) (ty : BitVec 5) (mz : BitVec 1) (vd : BitVec 6) (pg : BitVec 4) (fe : BitVec 2)
    (lin : Nat → Int) : Res :=
  match r.fieldTrap (fe ≠ 0) (memFmtOk ty) with
  | some t => .trap t
  | none =>
    let g := readP s pg
    let idx := List.range (vtCount ty)
    let act := idx.filter fun i => g.getLsbD i
    match vecSpots s r .read (act.map lin) with
    | .trap t => .trap t
    | .wait k => .wait s k
    | .ok ls =>
      let gs := if fe = 0 then [] else locGranules s r ls.flatten
      match granuleWait s .vec gs true with
      | some k => .wait s k
      | none =>
        let p := vecRead s r.cache ls.flatten
        let s := p.1
        let here := idx.map fun i => g.getLsbD i && r.inBounds (lin i)
        let old := readV s (vphys s vd)
        let codes := ((spread here ls).zipIdx.map fun x => match x.1 with
          | some l => locBits s l (r.codeAt (lin x.2)).2 r.bits % 2 ^ vtBits ty
          | none => if g.getLsbD x.2 then 0 else if mz = 1 then lane ty old x.2 else 0)
        let s := if fe = 2 then setFull s gs false else s
        .done (withAccess (addVarOp s .vec [.v (vphys s vd) (packLanes (vtWidth ty) codes)]
          (.load (feScope r (fe ≠ 0)) (p.2.map fun a => (Code.poison, r.faultAddr (a : Int))) 0)) s.nextId
          (hostAddr s r ls.flatten) (locHandles s r ls.flatten))

/-- A store's completion with its flags. -/
def storeOp (s : State) (fx : Fx) (bad : Option (Code × BitVec 64)) (touches : List Nat) : State :=
  let d := takeDelay s
  withAccess (addOp d.2 .vec d.1 [] false fx (.store bad)) d.2.nextId 0 touches

/-- The asynchronous fault of a store that an armed barrier line refuses in part (R394). -/
def armedFault (r : Rec) (a : Option Nat) : Option (Code × BitVec 64) := a.map fun a => (.permission, r.spaceAddr (a : Int))

/-- A store of one element per active lane, in lane order (R219, R221). -/
def vecStore (s : State) (r : Rec) (ty : BitVec 5) (vs : BitVec 6) (pg : BitVec 4) (fe : BitVec 2) (lin : Nat → Int) : Res :=
  match r.fieldTrap (fe ≠ 0) (memFmtOk ty) with
  | some t => .trap t
  | none =>
    let g := readP s pg
    let act := (List.range (vtCount ty)).filter fun i => g.getLsbD i
    match vecSpots s r .write (act.map lin) with
    | .trap t => .trap t
    | .wait k => .wait s k
    | .ok ls =>
      let gs := if fe = 0 then [] else locGranules s r ls.flatten
      match granuleWait s .vec (if fe = 2 then gs else []) false with
      | some k => .wait s k
      | none =>
        let ready : State × Bool := match feScope r (fe ≠ 0) with
          | some sc => releasePrep s .vec sc
          | none => (s, true)
        if !ready.2 then .wait ready.1 .other
        else
          let s := ready.1
          let x := readV s (vphys s vs)
          let lanes := (act.filter fun i => r.inBounds (lin i)).zip ls
          let w := writeCodes s .core r.cache
            (lanes.map fun c => ⟨c.2, (r.codeAt (lin c.1)).2, r.bits, lane ty x c.1⟩)
          .done (storeOp (setFull w.1 gs true) {} (armedFault r w.2) (locHandles s r ls.flatten))

def execVld (h : Hdr) (ty : BitVec 5) (mz : BitVec 1) (fe : BitVec 2) (vd : BitVec 6) (bf : BitVec 4) (aa : BitVec 5)
    (pg : BitVec 4) (imm : BitVec 13) (s : State) : Host.Outcome State Fault Refusal :=
  vecPrivate s h (encodingOk (.vld h ty mz fe vd bf aa pg imm) false) (ra aa :: laneReads s mz vd [] pg) 0 none
    (vecNeed false) fun _ s =>
      vecLoad s (recOf s .vec bf) ty mz vd pg fe fun i => signedOff s .vec aa imm + (i : Int)

def execVst (h : Hdr) (ty : BitVec 5) (fe : BitVec 2) (vs : BitVec 6) (bf : BitVec 4) (aa : BitVec 5) (pg : BitVec 4)
    (imm : BitVec 13) (s : State) : Host.Outcome State Fault Refusal :=
  vecPrivate s h (encodingOk (.vst h ty fe vs bf aa pg imm) false) [ra aa, regV s vs, regP pg] 0 none (vecNeed true)
    fun _ s => vecStore s (recOf s .vec bf) ty vs pg fe fun i => signedOff s .vec aa imm + (i : Int)

/-- The index that lane `i` takes from the group at `vi` (R221). -/
def gatherIndex (s : State) (vi : BitVec 6) (i : Nat) : Int :=
  intValue 32 true (lane 4 (readV s (vphys s (vi + BitVec.ofNat 6 (i / 128)))) (i % 128))

def execVldg (h : Hdr) (ty : BitVec 5) (mz : BitVec 1) (vd : BitVec 6) (bf : BitVec 4) (aa : BitVec 5) (pg : BitVec 4)
    (vi : BitVec 6) (s : State) : Host.Outcome State Fault Refusal :=
  vecPrivate s h (encodingOk (.vldg h ty mz vd bf aa pg vi) false)
    (ra aa :: (groupRegs s vi (idxRegs ty)).map .v ++ laneReads s mz vd [] pg) 0 none (vecNeed false) fun _ s =>
      vecLoad s (recOf s .vec bf) ty mz vd pg 0 fun i => (readA s .vec aa).toInt + gatherIndex s vi i

def execVsts (h : Hdr) (ty : BitVec 5) (vs : BitVec 6) (bf : BitVec 4) (aa : BitVec 5) (pg : BitVec 4) (vi : BitVec 6)
    (s : State) : Host.Outcome State Fault Refusal :=
  vecPrivate s h (encodingOk (.vsts h ty vs bf aa pg vi) false)
    ([ra aa, regV s vs, regP pg] ++ (groupRegs s vi (idxRegs ty)).map .v) 0 none (vecNeed true) fun _ s =>
      vecStore s (recOf s .vec bf) ty vs pg 0 fun i => (readA s .vec aa).toInt + gatherIndex s vi i

/-! ### Quantising loads (R226) -/

def vqldFmt (f : Fmt) : Bool :=
  f.isMx || f.isTl || f.isCb || f = .mld16 || f = .e4m3 || f = .e5m2 || f = .e3m2 || f = .e2m3 || f = .e2m1

/-- The spans of the element at linear index `l`, scales included. -/
def quantSpans (r : Rec) (f : Fmt) (l : Int) : List Span :=
  let x := r.linear l
  elemSpans f r.ext0 (r.rowAt x.2.1 x.2.2) x.1.toNat

/-- The tag number of the block of linear index `l`. -/
def quantBlk (r : Rec) (f : Fmt) (l : Int) : Nat :=
  let x := r.linear l
  blockIndex f r.ext0 r.ext1 x.2.1.toNat x.2.2.toNat (x.1.toNat / f.block)

/-- vqld. A scale out of step is found before it issues (DESIGN CHOICE: assumption 73). -/
def execVqld (h : Hdr) (ty : BitVec 5) (rm : BitVec 3) (mz : BitVec 1) (cb : BitVec 2) (vd : BitVec 6) (bf : BitVec 4)
    (aa : BitVec 5) (pg : BitVec 4) (s : State) : Host.Outcome State Fault Refusal :=
  vecPrivate s h (encodingOk (.vqld h ty rm mz cb vd bf aa pg) false) (ra aa :: laneReads s mz vd [] pg) rm
    none (vecNeed false) fun m s =>
      let r := recOf s .vec bf
      if r.illegal false then .trap { code := .illegalOp }
      else if !vtFloat ty then .trap (formatTrap ty.toNat)
      else match r.fieldTrap false vqldFmt with
        | some t => .trap t
        | none =>
          let f := r.format.getD .e4m3
          let g := readP s pg
          let idx := List.range (vtCount ty)
          let lin (i : Nat) : Int := (readA s .vec aa).toInt + (i : Int)
          let act := idx.filter fun i => g.getLsbD i
          let inb := act.filter fun i => r.inBounds (lin i)
          let spans := inb.map fun i => quantSpans r f (lin i)
          match worst (r.oobTraps .read (act.map lin) ++ spanTraps s .vec r .read spans.flatten) with
          | some t => .trap t
          | none =>
            match reachSpans s r .read spans.flatten with
            | .trap t => .trap t
            | .wait k => .wait s k
            | .ok flat =>
              let ls := regroup (spans.map (·.length)) flat
              let p := vecRead s r.cache flat.flatten
              match (inb.zip ls).find? fun c => p.2.isNone && tagWrong p.1 f (quantBlk r f (lin c.1)) c.2 with
              | some c => .trap { code := .scaleStep, op0 := BitVec.ofNat 64 (quantBlk r f (lin c.1)) }
              | none =>
                let s := p.1
                let here := idx.map fun i => g.getLsbD i && r.inBounds (lin i)
                let old := readV s (vphys s vd)
                let book := s.ctx.vec.cb.getD cb.toNat []
                let rs := (spread here ls).zipIdx.map fun x => match x.1 with
                  | some l => vtRound ty s.ctx.vec.fz m (vecU s m x.2) false
                      (elemValue s f (r.linear (lin x.2)).1.toNat book l)
                  | none => (if g.getLsbD x.2 then 0 else if mz = 1 then lane ty old x.2 else 0, {})
                let d := takeDelay (advanceIbase s m (vtCount ty))
                .done (withAccess (addOp d.2 .vec d.1 [.v (vphys s vd) (packLanes (vtWidth ty) (rs.map (·.1)))] false
                  (Fx.joinAll (rs.map (·.2))) (.load none (p.2.map fun a => (Code.poison, r.faultAddr (a : Int))) 0)) s.nextId
                  (hostAddr s r flat.flatten) (locHandles s r flat.flatten))

/-! ### Quantising stores (R227 to R229) -/

def vqstFmt (f : Fmt) : Bool := f.isMx || f.isTl || f.isCb

/-- A block that a vqst encodes: its row and number in it, its number in the instruction, and the first lane of its
elements with how many there are. -/
structure QBlock where
  i1 : Int
  i2 : Int
  j : Nat
  k : Nat
  lane0 : Nat
  count : Nat
deriving DecidableEq, Repr, Inhabited

/-- The blocks of `n` lanes from linear index `l0`, in order. -/
def quantBlocks (r : Rec) (f : Fmt) (l0 : Int) (n : Nat) : List QBlock :=
  ((List.range n).foldl (fun (acc : List QBlock) (i : Nat) =>
    let x := r.linear (l0 + (i : Int))
    let j := x.1.toNat / f.block
    match acc with
    | b :: rest =>
      if b.i1 = x.2.1 && b.i2 = x.2.2 && b.j = j then { b with count := b.count + 1 } :: rest
      else ⟨x.2.1, x.2.2, j, b.k + 1, i, 1⟩ :: acc
    | [] => [⟨x.2.1, x.2.2, j, 0, i, 1⟩]) []).reverse

/-- The spans that a block is written to: codes, scale and group scale. -/
def QBlock.spans (b : QBlock) (r : Rec) (f : Fmt) : List Span :=
  let row := r.rowAt b.i1 b.i2
  let w := f.block * f.bits / 8
  [⟨row + ((b.j * w : Nat) : Int), w⟩, scaleSpan f r.ext0 row b.j] ++ (if f.isTl then [groupSpan f r.ext0 row b.j] else [])

/-- The sources of a block's positions: lanes where it has them, zero elsewhere. -/
def QBlock.sources (b : QBlock) (r : Rec) (f : Fmt) (l0 : Int) (src : Nat → Src) : List Src :=
  let p0 := (r.linear (l0 + (b.lane0 : Int))).1.toNat % f.block
  (List.range f.block).map fun p =>
    if p0 ≤ p && p - p0 < b.count then src (b.lane0 + (p - p0)) else { v := .fin false Q.zero, count := false }

/-- Codes packed lowest first. -/
def packCodes (w : Nat) (l : List Nat) : Nat := l.foldr (fun c a => a * 2 ^ w + c % 2 ^ w) 0

/-- A group scale that stands for non-finite data (R137, R138). -/
def badGroupScale (gs : Nat) : Bool :=
  match FFmt.fp32.value gs with
  | .fin n q => n || q.isZero
  | _ => true

/-- The bytes of an encoded block, span by span, and its flags. `gs` is the group scale that its group takes, none if the
group is non-finite. -/
def QBlock.encode (b : QBlock) (r : Rec) (f : Fmt) (gs : Option Nat) (imposed : Option Nat) (xs : List Src) :
    List (List Byte) × Fx :=
  let enc : Nat × List Nat × Fx :=
    if f.isTl then
      match gs.map FFmt.fp32.value with
      | some (.fin _ q) => encTlBlock f .rne q imposed xs
      | _ => (0, xs.map fun _ => 0, { nan := true })
    else encMxBlock f .rne imposed xs
  let tag := blockIndex f r.ext0 r.ext1 b.i1.toNat b.i2.toNat b.j
  ([leBytes (f.block * f.bits / 8) (packCodes f.bits enc.2.1),
    BitVec.ofNat 8 enc.1 :: (if f.isTagged then [BitVec.ofNat 8 tag] else [])] ++
   (if f.isTl then [leBytes 4 (gs.getD 0x7FC00000)] else []), enc.2.2)

/-- The source of a lane: its value, or +0 where it is inactive. -/
def vqstSource (s : State) (ty : BitVec 5) (vs : BitVec 6) (pg : BitVec 4) (i : Nat) : Src :=
  if (readP s pg).getLsbD i then { v := vtVal ty s.ctx.vec.fz (lane ty (readV s (vphys s vs)) i) }
  else { v := .fin false Q.zero, count := false }

/-- What a vqst writes, by span, with its flags; a signalling NaN among its sources sets NV beside NAN (R111, R122). -/
def vqstWrites (s : State) (r : Rec) (f : Fmt) (ty : BitVec 5) (imp : BitVec 1) (vs : BitVec 6)
    (pg : BitVec 4) (gs : Nat) (vb : BitVec 6) (l0 : Int) (blocks : List QBlock) : List (List Byte) × Fx :=
  let src := vqstSource s ty vs pg
  let rs := blocks.map fun b =>
    let xs := b.sources r f l0 src
    let groupBad := f.isTl && (badGroupScale gs || blocks.any fun c => c.i1 = b.i1 && c.i2 = b.i2 && c.j / 64 = b.j / 64 &&
      !((c.sources r f l0 src).all fun x => x.v.isFinite))
    b.encode r f (if groupBad then none else some gs)
      (if imp = 1 then some (lane 1 (readV s (vphys s vb)) b.k) else none) xs
  (rs.flatMap (·.1), Fx.joinAll (rs.map (·.2) ++
    [{ nv := blocks.any fun b => (b.sources r f l0 src).any fun x => x.v.signals }]))

def execVqst (h : Hdr) (ty : BitVec 5) (imp : BitVec 1) (cb : BitVec 2) (vs : BitVec 6) (bf : BitVec 4) (aa : BitVec 5)
    (pg : BitVec 4) (ab : BitVec 5) (vb : BitVec 6) (s : State) : Host.Outcome State Fault Refusal :=
  vecPrivate s h (encodingOk (.vqst h ty imp cb vs bf aa pg ab vb) false)
    ([ra aa, regV s vs, regP pg, ra ab] ++ (if imp = 1 then [regV s vb] else [])) 0 none (vecNeed true) fun _ s =>
      let r := recOf s .vec bf
      let f := r.format.getD .e4m3
      if r.illegal false || (r.format.isSome && ((imp = 1 && f.isCb) || (ab ≠ 0 && !f.isTl))) then
        .trap { code := .illegalOp }
      else if !vtFloat ty then .trap (formatTrap ty.toNat)
      else match r.fieldTrap false vqstFmt with
        | some t => .trap t
        | none =>
          let n := vtCount ty
          let l0 := (readA s .vec aa).toInt
          let lin (i : Nat) : Int := l0 + (i : Int)
          let g := readP s pg
          let act := (List.range n).filter fun i => g.getLsbD i
          let blocks := if f.isCb then [] else (quantBlocks r f l0 n).filter fun b => r.inBounds (lin b.lane0)
          let lanes := if f.isCb then (List.range n).filter fun i => r.inBounds (lin i) else []
          let spans := if f.isCb then lanes.map fun i => (r.codeAt (lin i)).1 else blocks.flatMap fun b => b.spans r f
          let skew := if !f.isCb && (r.linear l0).1 % (f.block : Int) ≠ 0 then
            [accTrap .bounds r (r.codeAt l0).1.a .write] else []
          match worst (skew ++ r.oobTraps .write (act.map lin) ++ spanTraps s .vec r .write spans) with
          | some t => .trap t
          | none =>
            match reachSpans s r .write spans with
            | .trap t => .trap t
            | .wait k => .wait s k
            | .ok ls =>
              if f.isCb then
                let book := (s.ctx.vec.cb.getD cb.toNat []).take (if f = .cb8 then 256 else 16)
                let qs := lanes.map fun i =>
                  let src := vqstSource s ty vs pg i
                  let q := cbQuantise book src.v src.count
                  (q.1, { q.2 with nv := src.v.signals })
                let w := writeCodes s .core r.cache
                  ((lanes.zip (ls.zip qs)).map fun c => ⟨c.2.1, (r.codeAt (lin c.1)).2, f.bits, c.2.2.1⟩)
                .done (storeOp w.1 (Fx.joinAll (qs.map (·.2))) (armedFault r w.2) (locHandles s r ls.flatten))
              else
                let w := vqstWrites s r f ty imp vs pg (field (readA s .vec ab) 0 32).toNat vb l0 blocks
                let t := writeCodes s .core r.cache ((ls.zip w.1).map fun c => ⟨c.1, 0, 8 * c.2.length, leValue c.2⟩)
                .done (storeOp t.1 w.2 (armedFault r t.2) (locHandles s r ls.flatten))

end Sys2Proof.Machine
end

