-- ==== Sys2Proof/Machine/Bank.lean ====
section
/-! DEFINITION. Bank operations and barrier objects of the Commons (chapter 11, R382 to R394). -/
namespace Sys2Proof.Machine

/-! ### Data operations (R385 to R388) -/

/-- The five data operations. -/
inductive BankOp where
  | add | min | max | axpy | scal
deriving DecidableEq, Repr

def bankDstFmt (f : Fmt) : Bool := f = .int32 || f = .int64 || f = .fp32 || f = .bf16 || f = .fp16

/-- R387: the source format of a destination format. -/
def bankSrcFmt (op : BankOp) (d f : Fmt) : Bool :=
  f = d || ((op = .add || op = .axpy) && d = .fp32 && (f = .bf16 || f = .fp16))

/-- Table 11.4 for an integer destination of `w` bits. -/
def bankInt (op : BankOp) (w : Nat) (y x : Nat) (alpha : BitVec 64) : Nat :=
  let a := intValue w true (alpha.toNat % 2 ^ w)
  let sy := intValue w true y
  let sx := intValue w true x
  match op with
  | .add => (y + x) % 2 ^ w
  | .min => if sx < sy then x else y
  | .max => if sy < sx then x else y
  | .axpy => intCode w (a * sx + sy)
  | .scal => intCode w (a * sy)

/-- Table 11.4 for a floating destination (R388). -/
def bankFloat (op : BankOp) (ff fs : FFmt) (m : RMode) (y x : Nat) (alpha : BitVec 64) : Nat :=
  let a := FFmt.fp32.value (alpha.toNat % 2 ^ 32)
  let vy := ff.value y
  let vx := fs.value x
  let v := match op with
    | .add => addVal m vy vx
    | .min => minVal vy vx
    | .max => maxVal vy vx
    | .axpy => addVal m (mulVal a vx) vy
    | .scal => mulVal a vy
  (ff.convert m 0 false v).1

/-- One update (Table 11.4). -/
def bankUpdate (op : BankOp) (d f : Fmt) (m : RMode) (y x : Nat) (alpha : BitVec 64) : Nat :=
  match d.float? with
  | some ff => bankFloat op ff (f.float?.getD ff) m y x alpha
  | none => bankInt op d.bits y x alpha

/-- A captured data operation. -/
structure BankDesc where
  op : BankOp
  rm : BitVec 3
  dst : Rec
  src : Rec
  d0 : Int
  s0 : Int
  n : Nat
  alpha : BitVec 64

def BankDesc.reads (b : BankDesc) : Bool := b.op ≠ .scal
def BankDesc.fd (b : BankDesc) : Fmt := b.dst.format.getD .int32
def BankDesc.fs (b : BankDesc) : Fmt := b.src.format.getD .int32
def BankDesc.dlin (b : BankDesc) (j : Nat) : Int := b.d0 + (j : Int)
def BankDesc.slin (b : BankDesc) (j : Nat) : Int := b.s0 + (j : Int)
def BankDesc.all (b : BankDesc) : List Nat := List.range b.n

/-- Spans of the in-bounds elements of a record. -/
def bankSpans (r : Rec) (l : List Int) : List Span := (l.filter r.inBounds).map fun x => (r.codeAt x).1

def BankDesc.dstSpans (b : BankDesc) : List Span := bankSpans b.dst (b.all.map b.dlin)
def BankDesc.srcSpans (b : BankDesc) : List Span := if b.reads then bankSpans b.src (b.all.map b.slin) else []

/-- The issue checks of a data operation, apart from what keeps another package from being reached. -/
def BankDesc.trap (s : State) (b : BankDesc) : Option Trap :=
  if b.dst.illegal false || b.dst.space ≠ 3 || (b.reads && (b.src.illegal false || b.src.space = 0)) ||
      (b.rm ≠ 0 && b.dst.format.any fun f => f.int?.isSome) then some { code := .illegalOp }
  else if !(b.dst.format.any bankDstFmt) then some (formatTrap b.dst.fmt.toNat)
  else if b.reads && !(b.src.format.any (bankSrcFmt b.op b.fd)) then some (formatTrap b.src.fmt.toNat)
  else if 65536 < b.n then some (accTrap .bounds b.dst (b.dst.codeAt b.d0).1.a .atomic)
  else worst (b.dst.oobTraps .atomic (b.all.map b.dlin) ++
    (if b.reads then b.src.oobTraps .read (b.all.map b.slin) else []) ++
    spanTraps s .ctl b.dst .atomic b.dstSpans ++ spanTraps s .ctl b.src .read b.srcSpans)

/-- Where record `r`'s in-bounds element with linear index `l` lies. -/
def bankLocs (s : State) (r : Rec) (l : Int) : List Loc :=
  match locate s r false (r.codeAt l).1.bytes with
  | .ok ls => ls
  | _ => []

/-- What an update met: the fault and the Commons address of its destination element. -/
abbrev BankBad := Option (Code × BitVec 64)

/-- The source element now, or none where it is uncorrectable. -/
def BankDesc.sourceNow (s : State) (b : BankDesc) (j : Nat) : Option Nat :=
  if !b.reads || !b.src.inBounds (b.slin j) then some 0
  else
    let ls := bankLocs s b.src (b.slin j)
    if ls.any (Loc.bad s) then none else some (locBits s ls (b.src.codeAt (b.slin j)).2 b.src.bits)

/-- The update of element `j` from a source code, or from an uncorrectable source; its unit remembers the reply (R396). -/
def BankDesc.update (s : State) (b : BankDesc) (m : RMode) (j : Nat) (x : Option Nat) : State × BankBad :=
  let ls := bankLocs s b.dst (b.dlin j)
  let a := (b.dst.codeAt (b.dlin j)).1.a
  let y := locVal s ls
  let done (s : State) : State := match ls with
    | l :: _ => noteStep s .ctl l.key (BitVec.ofNat 64 y)
    | [] => s
  if ls.any fun l => armedLine s l.key then (done s, some (.barrierClobber, b.dst.spaceAddr a))
  else if ls.any (Loc.bad s) then (done s, some (.poison, b.dst.faultAddr a))
  else match x with
    | none => (done s, some (.poison, b.dst.faultAddr a))
    | some x =>
      let v := bankUpdate b.op b.fd b.fs m y x b.alpha
      (done (rawWrite s ((ls.map (·.key)).zip (leBytes ls.length v))), none)

/-- Elements that the operation updates: in bounds, and not skipped under CLIP_SHORT of the source (R386). -/
def BankDesc.live (b : BankDesc) : List Nat := b.all.filter fun j =>
  b.dst.inBounds (b.dlin j) && !(b.reads && b.src.bmode = 2 && !b.src.inBounds (b.slin j))

/-- Two of the ranges share a byte. -/
def rangesShare : List PhysRun → Bool
  | [] => false
  | x :: r => runsMeet [x] r || rangesShare r

/-- The order of the updates shows: source and destination bytes meet, or destination elements share bytes. -/
def BankDesc.ordered (s : State) (b : BankDesc) : Bool :=
  let d := b.dstSpans.flatMap (physRuns s b.dst)
  runsMeet d (b.srcSpans.flatMap (physRuns s b.src)) || rangesShare d

/-- The first fault of each kind in element order. -/
def firstBad (code : Code) (l : List (Nat × BankBad)) : BankBad :=
  (l.foldl (fun (b : Option (Nat × Code × BitVec 64)) x =>
    match x.2 with
    | some f => if f.1 ≠ code then b else match b with
      | some y => if x.1 < y.1 then some (x.1, f) else some y
      | none => some (x.1, f)
    | none => b) none).map (·.2)

/-- Performs the updates: in element order where no order shows; else in a free order, each source element read when its
update is made or before the operation (R386). -/
def BankDesc.run (s : State) (b : BankDesc) : State × List (Nat × BankBad) :=
  let m := (RMode.ofCode b.rm 0).getD .rne
  let before := b.live.map fun j => (j, b.sourceNow s j)
  if !b.ordered s then
    before.foldl (fun (t : State × List (Nat × BankBad)) x =>
      let u := b.update t.1 m x.1 x.2
      (u.1, t.2 ++ [(x.1, u.2)])) (s, [])
  else
    let o := freeOrder s before
    o.1.foldl (fun (t : State × List (Nat × BankBad)) x =>
      let d := drawFree t.1 1
      let u := b.update d.2 m x.1 (if d.1 = 1#1 then x.2 else b.sourceNow d.2 x.1)
      (u.1, t.2 ++ [(x.1, u.2)])) (o.2, [])

/-- A bank operation holds a store entry until it completes; its asynchronous fault carries tag 101. -/
def bankOp (s : State) (ws : List RegWrite) (acq : Option (BitVec 3)) (bad : BankBad) : State :=
  addVarOp s .ctl ws (.load acq bad 5)

/-- The checks, the updates, and the operation that completes. -/
def bankData (b : State → BankDesc) (s : State) : Res :=
  let b := b s
  match b.trap s with
  | some t => .trap t
  | none =>
    match reachSpans s b.dst .atomic b.dstSpans, reachSpans s b.src .read b.srcSpans with
    | .trap t, _ => .trap t
    | _, .trap t => .trap t
    | .wait k, _ => .wait s k
    | _, .wait k => .wait s k
    | .ok ds, .ok ss =>
      let r := b.run (requestFlits s .ctl .atomic ((ds.flatten ++ ss.flatten).map (·.key)))
      let t := r.1
      let poison := firstBad .poison r.2
      let clobber := firstBad .barrierClobber r.2
      let t := withAccess (bankOp t [] none (if poison.isSome then poison else clobber)) t.nextId 0 (spanHandles t b.src b.srcSpans)
      .done (if poison.isSome && clobber.isSome then bankOp t [] none clobber else t)

def bankPrivate (s : State) (h : Hdr) (legal : Bool) (reads : List Reg) (body : State → Res) :
    Host.Outcome State Fault Refusal :=
  issuePrivate s .ctl h (some 5) legal reads (accessNeed .ctl true true) body

def bankDesc (op : BankOp) (rm : BitVec 3) (bfd bfs : BitVec 4) (ad src an ab : BitVec 5) (s : State) : BankDesc :=
  { op := op, rm := rm, dst := recOf s .ctl bfd, src := recOf s .ctl bfs, d0 := (readA s .ctl ad).toInt,
    s0 := (readA s .ctl src).toInt, n := (readA s .ctl an).toNat, alpha := readA s .ctl ab }

def execCadd (h : Hdr) (rm : BitVec 3) (bfd bfs : BitVec 4) (ad src an : BitVec 5) (s : State) :
    Host.Outcome State Fault Refusal :=
  bankPrivate s h (encodingOk (.cadd h rm bfd bfs ad src an) false) [ra ad, ra src, ra an]
    (bankData (bankDesc .add rm bfd bfs ad src an 0))

def execCmin (h : Hdr) (bfd bfs : BitVec 4) (ad src an : BitVec 5) (s : State) : Host.Outcome State Fault Refusal :=
  bankPrivate s h (encodingOk (.cmin h bfd bfs ad src an) false) [ra ad, ra src, ra an]
    (bankData (bankDesc .min 0 bfd bfs ad src an 0))

def execCmax (h : Hdr) (bfd bfs : BitVec 4) (ad src an : BitVec 5) (s : State) : Host.Outcome State Fault Refusal :=
  bankPrivate s h (encodingOk (.cmax h bfd bfs ad src an) false) [ra ad, ra src, ra an]
    (bankData (bankDesc .max 0 bfd bfs ad src an 0))

def execCaxpy (h : Hdr) (rm : BitVec 3) (bfd bfs : BitVec 4) (ad src an ab : BitVec 5) (s : State) :
    Host.Outcome State Fault Refusal :=
  bankPrivate s h (encodingOk (.caxpy h rm bfd bfs ad src an ab) false) [ra ad, ra src, ra an, ra ab]
    (bankData (bankDesc .axpy rm bfd bfs ad src an ab))

def execCscal (h : Hdr) (rm : BitVec 3) (bfd : BitVec 4) (ad an ab : BitVec 5) (s : State) :
    Host.Outcome State Fault Refusal :=
  bankPrivate s h (encodingOk (.cscal h rm bfd ad an ab) false) [ra ad, ra an, ra ab]
    (bankData (bankDesc .scal rm bfd bfd ad ad an ab))

/-! ### Barrier objects (R389 to R394) -/

/-- The fields of a barrier object (Table 11.5). -/
structure BarObj where
  armed : Bool
  scope : BitVec 3
  gen : BitVec 16
  episode : BitVec 32
  target : BitVec 32
  arrived : BitVec 32
deriving DecidableEq, Repr

def readObj (s : State) (key : Nat) : BarObj :=
  let w0 := BitVec.ofNat 64 (memVal s key 8)
  let w1 := BitVec.ofNat 64 (memVal s (key + 8) 8)
  { armed := armedLine s key, scope := field w0 48 3, gen := field w0 32 16, episode := field w0 0 32, target := field w1 0 32,
    arrived := field w1 32 32 }

/-- The 64 bytes of a line that holds the object; the other fields are zero. -/
def writeObj (s : State) (key : Nat) (o : BarObj) : State :=
  let w0 : BitVec 64 := bit1 o.armed ++ 0#12 ++ o.scope ++ o.gen ++ o.episode
  let w1 : BitVec 64 := o.arrived ++ o.target
  let others := s.armed.filter (· != key)
  rawWrite { s with armed := if o.armed then others ++ [key] else others }
    ((keyRange key 64).zip (leBytes 8 w0.toNat ++ leBytes 8 w1.toNat ++ List.replicate 48 0))

/-- A token (R389), and the token of no episode. -/
def BarObj.token (o : BarObj) : BitVec 64 := 0#16 ++ o.gen ++ o.episode
def noEpisode : BitVec 64 := BitVec.allOnes 64

/-- The Commons address of a key, as a record's address operand gives it. -/
def objAddr (key : Nat) : BitVec 64 := BitVec.ofNat 64 (key - 2 ^ 61)

/-- The line at `key` holds an uncorrectable word. -/
def lineBad (s : State) (key : Nat) : Bool := poisoned s (keyRange key 64)

/-- R394: an uncorrectable error disarms the line: GEN advances, every other field becomes zero, and a waiter wakes with
status 2. -/
def disarmLine (s : State) (key : Nat) : State :=
  let s := writeObj s key ⟨false, 0, (readObj s key).gen + 1, 0, 0, 0⟩
  match (s.eng .ctl).wait with
  | some ⟨.object a, _, _⟩ => if a = objAddr key then s.setEng .ctl { (s.eng .ctl) with begun := true } else s
  | _ => s

/-- Where a barrier instruction finds its object. -/
inductive ObjPlace where
  | clip
  | ok (s : State) (key : Nat) (a : BitVec 64)
  | wait (k : WaitKind)
  | trap (t : Trap)
deriving DecidableEq, Repr

/-- R390; an armed line with an uncorrectable word is disarmed on the way (R384). -/
def objPlace (s : State) (bf : BitVec 4) (aa : BitVec 5) (acc : Acc) : ObjPlace :=
  let r := recOf s .ctl bf
  let o := (readA s .ctl aa).toInt
  let a := (r.baseAddr.1 : Int) + o
  if r.space ≠ 3 then .trap { code := .illegalOp }
  else match r.check false with
    | some t => .trap t
    | none =>
      if a % 64 ≠ 0 then .trap (accTrap .bounds r a acc)
      else if !r.stewardIn o 64 then (if r.bmode = 0 || r.pastLimit a 64 then .trap (accTrap .bounds r a acc) else .clip)
      else match rangeCheck s .ctl r a 64 acc with
        | some t => .trap t
        | none =>
          match remoteCheck s [r.key s a.toNat] with
          | some (.inl k) => .wait k
          | some (.inr t) => .trap t
          | none =>
            let key := r.key s a.toNat
            .ok (if armedLine s key && lineBad s key then disarmLine s key else s) key (r.faultAddr a)

/-- A barrier step's result, or the asynchronous fault of an uncorrectable word of a line that is not armed, which the step
leaves unchanged (R159, R384). -/
def objStep (s : State) (key : Nat) (a : BitVec 64) (ad : BitVec 5) (f : State → BitVec 64 × State × Option (BitVec 3)) : Res :=
  let s := requestFlits s .ctl .atomic [key]
  if lineBad s key then .done (bankOp s (destWrite ad 0) none (some (.poison, a)))
  else
    let r := f s
    .done (bankOp (noteStep r.2.1 .ctl key r.1) (destWrite ad r.1) r.2.2 none)

def execBinit (h : Hdr) (scope : BitVec 3) (ad : BitVec 5) (bf : BitVec 4) (aa ab : BitVec 5) (s : State) :
    Host.Outcome State Fault Refusal :=
  bankPrivate s h (encodingOk (.binit h scope ad bf aa ab) false) [ra aa, ra ab] fun s =>
    match objPlace s bf aa .atomic with
    | .trap t => .trap t
    | .wait k => .wait s k
    | .clip => .done (bankOp s (destWrite ad 0) none none)
    | .ok s key a => objStep s key a ad fun s =>
      let g := (readObj s key).gen + 1
      let n := field (readA s .ctl ab) 0 32
      (0#16 ++ g ++ 0#32,
        writeObj s key (if n = 0 then ⟨false, 0, g, 0, 0, 0⟩ else ⟨true, scope, g, 0, n, 0⟩), none)

/-- R392: `c` arrivals at an armed object. -/
def BarObj.arrive (o : BarObj) (c : Nat) : BarObj :=
  if o.arrived.toNat + c ≥ o.target.toNat then { o with episode := o.episode + 1, arrived := 0 }
  else { o with arrived := BitVec.ofNat 32 (o.arrived.toNat + c) }

def execCbar (h : Hdr) (ad : BitVec 5) (bf : BitVec 4) (aa ab : BitVec 5) (s : State) : Host.Outcome State Fault Refusal :=
  bankPrivate s h (encodingOk (.cbar h ad bf aa ab) false) [ra aa, ra ab] fun s =>
    match objPlace s bf aa .atomic with
    | .trap t => .trap t
    | .wait k => .wait s k
    | .clip => .done (bankOp s (destWrite ad 0) none none)
    | .ok s key a =>
      if !(readObj s key).armed then objStep s key a ad fun s => (noEpisode, s, none)
      else match releasePrep s .ctl (readObj s key).scope with
        | (t, false) => .wait t .other
        | (t, true) => objStep t key a ad fun s =>
          let o := readObj s key
          let n := (field (readA s .ctl ab) 0 32).toNat
          (o.token, writeObj s key (o.arrive (if n = 0 then 1 else n)), none)

/-- R393: the status of a token, none while it waits. -/
def BarObj.status (o : BarObj) (t : BitVec 64) : Option (BitVec 64) :=
  if t = noEpisode || !o.armed || o.gen ≠ field t 32 16 then some 1
  else if o.episode ≠ field t 0 32 then some 0
  else none

def execCbwait (h : Hdr) (ad : BitVec 5) (bf : BitVec 4) (aa ab : BitVec 5) (s : State) : Host.Outcome State Fault Refusal :=
  bankPrivate s h (encodingOk (.cbwait h ad bf aa ab) false) [ra aa, ra ab] fun s =>
    match objPlace s bf aa .read with
    | .trap t => .trap t
    | .wait k => .wait s k
    | .clip => .done (bankOp s (destWrite ad 0) none none)
    | .ok s key a =>
      let asked := requestFlits s .ctl .read [key]
      if (s.eng .ctl).begun then .done (bankOp asked (destWrite ad 2) none none)
      else if lineBad s key then .done (bankOp asked (destWrite ad 0) none (some (.poison, a)))
      else
        let o := readObj s key
        match o.status (readA s .ctl ab) with
        | none => .wait s (.object a)
        | some st => .done (bankOp asked (destWrite ad st) (if st = 0 then some o.scope else none) none)

/-- The soft-error counter of the structure that holds a byte of this package: an HBM stack, a scratchpad or the Commons
(Table 14.6). -/
def softIndex (s : State) (key : Nat) : Option Nat :=
  if key < 2 ^ 40 then some (key / 2 ^ 37 * 16 + 9 + key / 2 ^ 36 % 2)
  else if key < 2 ^ 60 then none
  else if key < 2 ^ 61 then some ((key - 2 ^ 60) / 2 ^ 27 * 16)
  else if (key - 2 ^ 61) / 2 ^ 29 = s.pkgNo.toNat then some ((key - 2 ^ 61) / 2 ^ 26 % 8 * 16 + 4)
  else none

/-- A soft error is counted in its structure's counter: a corrected one in the lower half, an uncorrectable one in the upper
(R492). -/
def countSoft (s : State) (i : Nat) (corrected : Bool) : State :=
  let c := getAssoc s.host.soft i 0
  let lo := c.extractLsb' 0 16
  let hi := c.extractLsb' 16 16
  let c := if corrected then hi ++ satAdd lo 1 else satAdd hi 1 ++ lo
  { s with host := { s.host with soft := setAssoc s.host.soft i c } }

/-- An uncorrectable error of a word of memory is counted. -/
def countError (s : State) (key : Nat) : State :=
  match softIndex s key with
  | none => s
  | some i => countSoft s i false

/-- An uncorrectable error strikes the word at `key`: an armed barrier line is disarmed (R394), and any other word stays
uncorrectable until it is written whole (R384, R492). -/
def poisonWord (s : State) (key : Nat) : State :=
  if armedLine s key then disarmLine s (key / 64 * 64)
  else if s.poison.contains (wordBase key) then s else { s with poison := s.poison ++ [wordBase key] }

/-- BARRIER_LINE_POISON: an uncorrectable error strikes the Commons word at `key`, and is counted. -/
def execBarrierLinePoison (key : Nat) (s : State) : Host.Outcome State Fault Refusal := .next (poisonWord (countError s key) key)

end Sys2Proof.Machine
end

