-- ==== Sys2Proof/Machine/Queues.lean ====
section
/-! DEFINITION. Work queues, pipeline instances and the Dispatcher's instructions (chapter 12). -/
namespace Sys2Proof.Machine

/-! ### Work-queue registers (Table 12.1) -/

/-- A refusal at the host port (R487). -/
def hostRefuse (s : State) (v : BitVec 4) (offset : Nat) : State :=
  report { s with host := { s.host with refused := satAdd s.host.refused 1, lastvf := v } } (.hostError offset)

/-- A write of WQ.CFG; the management path also sets PART. -/
def putWqCfg (s : State) (q : Nat) (v : BitVec 64) (mgmt : Bool) : State :=
  let w := getWq s q
  let en := bitAt v 63
  let l := (field v 0 5).toNat
  let w := { w with
    en := en
    part := if mgmt then field v 56 4 else w.part
    maxinst := if field v 8 8 = 0#8 then 1 else field v 8 8
    log2n := if l < 3 then 3#5 else if l > 16 then 16#5 else BitVec.ofNat 5 l
    widx := if en && !w.en then 0 else w.widx
    tail := if en && !w.en then 0 else w.tail
    head := if en && !w.en then 0 else w.head
    held := if en then w.held else none }
  setWq s q w

/-- WQ_ENABLE (R408). -/
def execWqEnable (q : BitVec 14) (v : BitVec 64) (s : State) : Host.Outcome State Fault Refusal :=
  .next (putWqCfg s q.toNat (v ||| 1#64 <<< 63) false)

/-- WQ_DISABLE (R408): admission stops; instances already admitted run on. -/
def execWqDisable (q : BitVec 14) (v : BitVec 64) (s : State) : Host.Outcome State Fault Refusal :=
  .next (putWqCfg s q.toNat (v &&& ~~~(1#64 <<< 63)) false)

/-- WQ_TAIL_WRITE by the host (R410, R413). -/
def execWqTailWrite (q : BitVec 14) (v : BitVec 64) (s : State) : Host.Outcome State Fault Refusal :=
  .next (writeTail s q.toNat v)

/-- The next reservation of the host port (R396, R409). -/
def hostReserve (s : State) (q : Nat) (count : BitVec 64) : BitVec 64 × State :=
  let seqNo := s.portSeq.getD 7 0
  applyAtomic { s with portSeq := s.portSeq.setIfInBounds 7 (seqNo + 1) } ⟨hostPortNo s, seqNo, 0, .reserve q count⟩

def hostReply (s : State) (bs : List Byte) : State := { s with host := { s.host with reads := s.host.reads ++ [bs] } }

/-- HOST_FETCHADD on WQ.WIDX (R409, R487). -/
def execHostFetchadd (fn : HostFn) (q : BitVec 14) (v : BitVec 64) (s : State) : Host.Outcome State Fault Refusal :=
  let w := getWq s q.toNat
  let go : State := let r := hostReserve s q.toNat v; hostReply r.2 (leBytes 8 r.1.toNat)
  match fn with
  | .virt p => if w.part ≠ p || !w.en then .next (hostReply (hostRefuse s p (q.toNat * 0x40 + 0x10)) (leBytes 8 0)) else .next go
  | _ => .next go

/-! ### Instances (R415, R417, R424) -/

/-- STAGE0_ITEM_GENERATE (R415). -/
def execStage0ItemGenerate (id : Nat) (s : State) : Host.Outcome State Fault Refusal :=
  match findPipe s id with
  | some p => .next (selectWork (generateItems s id (p.nitems - p.generated)))
  | none => .next s

/-- The end of an instance that has ended (R417): it leaves its queue, and its completion word is stored. -/
def endInstance (s : State) (id : Nat) : State :=
  match findPipe s id with
  | none => s
  | some p =>
    if !instDone s p then s else
    let q := p.queue.toNat
    let d := s.disp
    let s := setDisp s { d with pipes := d.pipes.filter fun p => p.id != id, rings := d.rings.map fun r => r.filter (· != id) }
    let s := setWq s q { (getWq s q) with live := (getWq s q).live - 1 }
    examineQueue (storeDone s (doneWord s q p.done p.seqNo (if p.bad then 1#64 <<< 63 else 0))) q

/-- INSTANCE_END (R417). -/
def execInstanceEnd (id : Nat) (s : State) : Host.Outcome State Fault Refusal := .next (endInstance s id)

/-- A strand of the instance runs on this core. -/
def strandRuns (s : State) (id : Nat) : Bool := s.ctx.status = .running && s.ctx.inst == some id

/-- The instance meets R424: items wait or a strand runs, no progress for STALLTO × 1,024 Bell cycles, not yet reported. -/
def stallDue (s : State) (p : Pipe) : Bool :=
  let t := (getPart s (getWq s p.queue.toNat).part).stallto.toNat
  t ≠ 0 && !p.stalled && (p.queues.any (!·.isEmpty) || strandRuns s p.id) && decide (t * 1024 ≤ (s.bell - p.progress).toNat)

/-- PIPELINE_STALL (R424). -/
def execPipelineStall (id : Nat) (s : State) : Host.Outcome State Fault Refusal :=
  match findPipe s id with
  | none => .next s
  | some p =>
    if !stallDue s p then .next s else
    let q := p.queue.toNat
    let s := updPipe s id fun p => { p with stalled := true }
    .next (report (setWq s q { (getWq s q) with stall := true }) (.pipelineStall p.queue p.seqNo))

/-! ### qres, qtail, qhead (R439 to R442) -/

/-- The checks of a queue instruction on its queue number; OPERAND0 is the number (DEDUCED: assumption 9). -/
def queueTrap (s : State) (n : BitVec 64) (acc : Acc) : Option Trap :=
  if 16384 ≤ n.toNat then some { code := .bounds, op0 := n, op1 := acc.code }
  else
    let w := getWq s n.toNat
    if w.part ≠ s.ctx.part || !w.en then some { code := .permission, op0 := n, op1 := acc.code } else none

/-- qres (R440). -/
def execQres (h : Hdr) (ad aa ab : BitVec 5) (s : State) : Host.Outcome State Fault Refusal :=
  issuePrivate s .ctl h none (encodingOk (.qres h ad aa ab) false) [ra aa, ra ab] (accessNeed .ctl true false) fun s =>
    let n := readA s .ctl aa
    let c := if ab = 0 then 1 else readA s .ctl ab
    if c = 0 || 4096 < c.toNat then .trap { code := .bounds, op0 := c, op1 := Acc.atomic.code }
    else match queueTrap s n .atomic with
      | some t => .trap t
      | none =>
        let t := sendAtomic s .ctl 0 (.reserve n.toNat c)
        .done (addVarOp t.2 .ctl (destWrite ad t.1) (.load none none 0))

/-- qtail (R441). -/
def execQtail (h : Hdr) (aa ab : BitVec 5) (s : State) : Host.Outcome State Fault Refusal :=
  issuePrivate s .ctl h none (encodingOk (.qtail h aa ab) false) [ra aa, ra ab] (orderNeed .ctl true) fun s =>
    let n := readA s .ctl aa
    match queueTrap s n .write with
    | some t => .trap t
    | none =>
      match releasePrep s .ctl 3 with
      | (t, false) => .wait t .other
      | (t, true) => .done (writeTail t n.toNat (readA t .ctl ab))

/-- qhead (R442). -/
def execQhead (h : Hdr) (ad aa : BitVec 5) (s : State) : Host.Outcome State Fault Refusal :=
  issuePrivate s .ctl h none (encodingOk (.qhead h ad aa) false) [ra aa] (accessNeed .ctl false false) fun s =>
    let n := readA s .ctl aa
    match queueTrap s n .read with
    | some t => .trap t
    | none => .done (addVarOp s .ctl (destWrite ad (getWq s n.toNat).head) (.load (some 3) none 0))

/-! ### ditem and dpush (R443 to R446) -/

/-- ditem (R443). -/
def execDitem (h : Hdr) (ad : BitVec 5) (idx : BitVec 4) (s : State) : Host.Outcome State Fault Refusal :=
  issuePrivate s .ctl h none (encodingOk (.ditem h ad idx) false) [] noNeed fun s =>
    .done (addVarOp s .ctl (destWrite ad s.ctx.item[idx.toNat]) .result)

/-- The item that a dpush makes of its buffer (R445, Table 12.6). -/
def pushedItem (p : Pipe) (st : Nat) (buf : List Byte) : Vector (BitVec 64) 16 :=
  Vector.ofFn fun (i : Fin 16) =>
    if i.val = 0 then BitVec.ofNat 64 (p.nextIdx.getD st 0)
    else if i.val = 1 then p.seqNo
    else if i.val = 2 then BitVec.ofNat 64 (p.queue.toNat * 65536 + st)
    else if i.val = 3 then 0
    else BitVec.ofNat 64 (leValue ((buf.drop (8 * i.val)).take 8))

/-- The item enters its stage's queue, at a free place of the stage-queue area. -/
def enqueue (s : State) (id st : Nat) (buf : List Byte) : State :=
  match findPipe s id with
  | none => s
  | some p =>
    updPipe (writeItem s (getWq s p.queue.toNat).part (p.freePlace st) (pushedItem p st buf)) id fun p => { p with
      queues := p.queues.set st (p.queueOf st ++ [⟨p.freePlace st, none⟩])
      nextIdx := p.nextIdx.set st (p.nextIdx.getD st 0 + 1)
      progress := s.bell
      stalled := false }

/-- dpush (R444 to R446). -/
def execDpush (h : Hdr) (aa : BitVec 5) (stg : BitVec 3) (s : State) : Host.Outcome State Fault Refusal :=
  issuePrivate s .ctl h none (encodingOk (.dpush h aa stg) false) [ra aa] (orderNeed .ctl true) fun s =>
    let a := (readA s .ctl aa).toNat
    let st := stg.toNat
    let pipe := s.ctx.inst.bind (findPipe s)
    let nst := match pipe with
      | some p => p.stages.length
      | none => 0
    if s.ctx.taskHandler then .trap { code := .illegalOp }
    else if a % 16 ≠ 0 then .trap (accTrap .bounds localRec (a : Int) .read)
    else if st ≤ s.ctx.taskStage.toNat || nst ≤ st then .trap { code := .bounds, op0 := BitVec.ofNat 64 st, op1 := Acc.write.code }
    else match rangeCheck s .ctl localRec (a : Int) 128 .read with
      | some t => .trap t
      | none =>
        match pipe with
        | none => .done s
        | some p =>
          if p.stageFull st then .wait s (.stageQueue st)
          else match releasePrep s .ctl 3 with
            | (t, false) => .wait t .other
            | (t, true) => .done (enqueue t p.id st (rawRead t (keyRange (scratchKey t.coreNo.toNat a) 128)))

end Sys2Proof.Machine
end

