-- ==== Sys2Proof/Machine/Recovery.lean ====
section
/-! DEFINITION. Fault records and their routing, the fault-handling strand and its return, context swaps, the commands of a
partition, and the configuration planes (chapter 12). -/
namespace Sys2Proof.Machine

/-! ### The matrix engine across a save (R243, R279) -/

/-- The context as a save takes it: the Sower state, the loads that filled its full planes and its barrier state go with it
(R179, R243, R279). -/
def saveCtx (s : State) : Ctx :=
  let p := runPath s
  let d (x : Plane) : Option LoadDesc := if x.st = .full then x.desc else none
  let c := s.ctx
  let g := c.eng
  { c with
    mx := { c.mx with sowSaved := p.sow, activeSaved := d p.active, shadowSaved := d p.shadow }
    eng := ⟨g.ctl.rested, g.bte.rested, g.mxe.rested, g.vec.rested, g.thr.rested⟩
    nets := s.nets.toList }

/-- Spans of a captured load. -/
def LoadDesc.refillSpans (d : LoadDesc) (map : Bool) : List Span :=
  if map then (d.op.planeRegion 128).spans d.op.rcd .mld16 else (d.op.planeRegion (classK d.op.dbl)).spans d.op.rcd d.op.fmt

/-- Pages of global memory that the refill of a context reads. -/
def refillPages (c : Ctx) : List Nat :=
  let m := c.mx
  let of (map : Bool) (d : Option LoadDesc) : List Nat := match d with
    | some d => spanPages d.op.rcd (d.refillSpans map)
    | none => []
  of false m.activeSaved ++ of false m.shadowSaved ++ (if m.ref then of true m.refDesc else [])

/-- What a refill that cannot reach its bytes raises (R47). -/
def refillFault (s : State) (d : LoadDesc) (map : Bool) : Option (Code × BitVec 64) :=
  match readySpans s d.op.rcd false (d.refillSpans map) [] with
  | .go _ bad => bad
  | .held _ v => some (.translation, d.op.rcd.spaceAddr (firstIn (d.refillSpans map) v))
  | .later _ _ => none

/-- A plane of each path refilled from memory as it stands; uncorrectable elements are logged with KIND 11, and a fault names the
mload that is repeated (R47). -/
def refillPlane (s : State) (put : MPath → Plane → MPath) : Option LoadDesc → State
  | none => onPaths s fun p => put p Plane.reset
  | some d =>
    let f := fillPlane s d
    let t := setMx s { s.mx with mill := if millRuns s then put s.mx.mill f.1 else s.mx.mill
                                 quern := if quernRuns s then put s.mx.quern f.2.1 else s.mx.quern }
    let bad := refillFault s d false
    faultAsync (logEcc t 3 f.2.2.1) .mxe d.pc (if bad.isSome then bad else f.2.2.2)

/-- The incoming context's Sower state is restored on both paths, whether they run or not (R279), and its planes and map are
refilled. -/
def restoreMx (s : State) : State :=
  let m := s.ctx.mx
  let s := onPaths (setSow s fun _ => m.sowSaved) fun p => { p with map := [] }
  let s := refillPlane s (fun p x => { p with active := x }) m.activeSaved
  let s := refillPlane s (fun p x => { p with shadow := x }) m.shadowSaved
  match m.refDesc with
  | some d =>
    if m.ref then
      let f := fillMap s d
      faultAsync (logEcc (onPaths s fun p => { p with map := f.1 }) 0 f.2) .mxe d.pc (refillFault s d true)
    else s
  | none => s

/-- A context comes back to the core: its barrier state, its planes and its map. -/
def restoreCtx (s : State) (c : Ctx) : State := restoreMx (restoreNets (setCtx s c) c.nets)

/-! ### Halting a partition (R438) -/

/-- Halts a partition: its contexts on this core enter HALTED, admission stops, and the host is told. -/
def haltPartition (s : State) (p : BitVec 4) : State :=
  let x := getPart s p
  if x.halted then s else
  let s := report (setPart s p { x with halted := true }) (.partitionHalted p)
  let h (c : Ctx) : Ctx := if c.part = p then { c with status := .halted } else c
  selectWork { s with ctx := h s.ctx, held := s.held.map h }

/-! ### The fault record and its routing (R46, R49, R53, R436) -/

/-- The energy overdraft in millijoules after the stop's completions (R475), rounded up as REMAIN is. -/
def overdraft (s : State) (p : BitVec 4) : BitVec 64 :=
  let x := getPart s p
  BitVec.ofNat 64 (ceilDiv (x.used.toNat + x.debt.toNat - x.quota.toNat * 1000) 1000)

/-- Physical keys of a context's save area on this core. -/
def saveArea (s : State) (p : BitVec 4) : Nat :=
  paKey s.pkgNo ((getPart s p).save.toNat * 2 ^ 16 + 65536 * s.coreNo.toNat)

/-- What the save area holds. -/
def areaImage (s : State) (p : BitVec 4) : Mem :=
  let a := saveArea s p
  s.mem.filter fun c => decide (a ≤ c.1) && decide (c.1 < a + 65536)

/-- The Dispatcher writes the context that it saves to the area. The layout there is its own, so the bytes are free values (R436,
R437). -/
def writeSaveArea (s : State) (p : BitVec 4) : State :=
  let d := drawFree s (8 * 65536)
  homeWrite d.2 ((keyRange (saveArea s p) 65536).zip (leBytes 65536 d.1.toNat)).reverse

/-- The stopped context is saved, with the sealed contents of its area. -/
def saveStopped (s : State) : State :=
  let p := s.ctx.part
  let c := saveCtx s
  let s := writeSaveArea s p
  { s with saved := s.saved.filter (fun x => x.1.part != p) ++ [(c, areaImage s p)] }

/-- The strand's item ends at once with a status, without its engines having come to an end. -/
def dropStrand (s : State) (status : BitVec 64) : State :=
  let c := s.ctx
  endItem (setCtx s { c with stop := none, heldFaults := [], eng := c.eng.stopped, thrrun := false }) status

/-- The item cannot be handled: it ends with status 0xFFFF_FFFE (R425). -/
def handlerFailed (s : State) : State :=
  let s := match s.ctx.inst.bind (findPipe s) with
    | some p => report s (.launchFail p.queue p.seqNo)
    | none => s
  dropStrand s 0xFFFFFFFE#64

/-- Launches the fault-handling strand over the stopped context (R436); a page of its overlay may be held for the
driver. -/
def launchHandler (s : State) : State :=
  let c := s.ctx
  let ovl := (getPart s c.part).hovl.toNat
  if (getPart s c.part).halted then s else
  match dispRead s c.part ovl 64 with
  | .hold _ s => setDisp s { s.disp with launchHeld := true }
  | .fail s => handlerFailed s
  | .ok hb s =>
    match parseHdr s c.part hb with
    | none => handlerFailed s
    | some hdr =>
      match overlayRead s c.part ovl hdr with
      | .hold _ s => setDisp s { s.disp with launchHeld := true }
      | .fail s => handlerFailed s
      | .ok bytes s =>
        let s := saveStopped (setDisp s { s.disp with launchHeld := false })
        let s := placeOverlay s ovl hdr bytes
        startStrand s (BitVec.ofNat 64 (c.frec.toNat * 64)) (BitVec.ofNat 64 (ovl + 0x40 + hdr.entry)) hdr c.item c.inst true

/-- Routes a recorded fault by FMASK and HOVL (R436); a stopped handler halts its partition (R438). -/
def routeFault (s : State) (st : Stop) : State :=
  let fmask := BitVec.ofNat 64 (planeVal s 0x000 8)
  let handler := bitAt fmask (st.info.code.number / 16) && (getPart s s.ctx.part).hovl ≠ 0
  let set (s : State) (st : Stop) : State := setCtx s { s.ctx with stop := some st }
  if st.was = .handler then haltPartition (report (set s { st with recorded := true, toHost := true })
    (.strandFault s.coreNo st.info.code)) s.ctx.part
  else if handler then launchHandler (set s { st with recorded := true })
  else report (set s { st with recorded := true, toHost := true }) (.strandFault s.coreNo st.info.code)

/-- Writes the record and routes the fault; a record that cannot be written halts the partition (R53). A halted partition records
nothing (R438). -/
def recordFault (s : State) : State :=
  match s.ctx.stop with
  | none => s
  | some st =>
    if st.recorded || (getPart s s.ctx.part).halted then s else
    let op0 := if st.info.code = .energyQuota then overdraft s s.ctx.part else st.info.op0
    let bs := recordBytes s st.info.code.number st.info.tag st.info.async st.multi false op0 st.info.op1
    let second : Code := if abortedPage s s.ctx.part (s.ctx.frec.toNat * 64 / 4096) then .translation else .permission
    match dispWrite s s.ctx.part (s.ctx.frec.toNat * 64) bs with
    | (s, some (some _)) => s
    | (s, some none) =>
      let s := setCtx s { s.ctx with stop := some { st with recorded := true, toHost := true } }
      haltPartition (report (report s (.strandFault s.coreNo st.info.code)) (.strandFault s.coreNo second)) s.ctx.part
    | (s, none) => routeFault (setCtx s { s.ctx with recSeq := s.ctx.recSeq + 1 }) st

/-- Only completions that a full ring holds are left (R307). -/
def onlyRingHeld (s : State) : Bool := s.ops.all fun o => match o.kind with
  | .copy c => c.ringSince.isSome
  | _ => false

/-- A stop whose record is still to be written, with everything issued run to completion (R46). -/
def recordWanted (s : State) : Bool := onlyRingHeld s && !(getPart s s.ctx.part).halted && (match s.ctx.stop with
  | some st => !st.recorded
  | none => false)

/-- FAULT_RECORD (R46 step 5). -/
def execFaultRecord (s : State) : Host.Outcome State Fault Refusal := .next (recordFault s)

/-- A stopped context waits for its handling strand to be launched. -/
def handlerPending (s : State) : Bool :=
  match s.ctx.stop with
  | some st => st.recorded && !st.toHost && s.ctx.status = .stopped
  | none => false

/-- STRAND_LAUNCH (R425, R436). -/
def execStrandLaunch (s : State) : Host.Outcome State Fault Refusal :=
  .next (if handlerPending s then launchHandler s else launchStrand s)

/-! ### Returning from an exception (R52, R188, R436, R437) -/

/-- The words of a text as bytes. -/
def Text.bytes (t : Text) : List Byte := t.words.flatMap fun w => leBytes 4 w.toNat

/-- R424: an instance whose strand runs again after a time with no waiting item and no running strand counts STALLTO anew. -/
def runsAgain (s : State) : State :=
  match s.ctx.inst with
  | some id => if strandRuns s id then updPipe s id fun p =>
      if p.queues.all (·.isEmpty) then { p with progress := s.bell, stalled := false } else p
    else s
  | none => s

/-- Restores the stopped context and resumes it. An altered save area halts the partition. -/
def restoreSaved (s : State) (c : Ctx) (img : Mem) : State :=
  let p := s.ctx.part
  if areaImage s p ≠ img then haltPartition s p else
  let s := { s with saved := s.saved.filter fun x => x.1.part != p }
  let s := residentText s (c.text.base.toNat - 0x40) { (default : OvlHdr) with tlen := 4 * c.text.words.length } c.text.bytes
  runsAgain (resumeStrand (restoreCtx s { c with recSeq := s.ctx.recSeq, paceExtra := s.ctx.paceExtra }))

/-- The handling strand of eret ends: its engines issue nothing more. -/
def endHandler (s : State) : State :=
  let g := s.ctx.eng
  let f (x : Eng) : Eng := { x with atStop := true, wait := none, feWait := none }
  haltThresher (setCtx s { s.ctx with eng := ⟨g.ctl, f g.bte, f g.mxe, f g.vec, g.thr⟩ })

/-- eret (R188): it waits until the handling strand's work is complete, and for the energy quota (R475). -/
def execEret (h : Hdr) (s : State) : Host.Outcome State Fault Refusal :=
  let back := s.saved.find? fun x => x.1.part == s.ctx.part
  let wait := issuePrivate s .ctl h none (encodingOk (.eret h) false) [] noNeed fun s =>
    if !s.ctx.taskHandler || back.isNone then .trap { code := .illegalOp } else .wait (endHandler s) .other
  match back with
  | some (c, img) =>
    if encodingOk (.eret h) false && (popWait s .ctl h).isNone && s.ctx.taskHandler && s.ops.all (·.aside s) &&
        s.mx.pound.isEmpty && !quotaHolds s s.ctx.part
    then .next (restoreSaved (endHandler s) c img) else wait
  | none => wait

/-! ### Commands of PART.CMD (R434, R436, R438) -/

/-- A command that does not meet its conditions. The package's other cores run nothing in this model, so that a command
which names one meets no stopped context (DEDUCED: assumption 13). -/
def ignoreCommand (s : State) (p : BitVec 4) : State := setPart s p { getPart s p with cmdign := true }

/-- The context is STOPPED with host routing in partition `p`. -/
def Ctx.commandable (c : Ctx) (p : BitVec 4) : Bool :=
  c.part == p && c.status = .stopped && (match c.stop with
    | some st => st.recorded && st.toHost
    | none => false)

/-- Runs `f` on the context of partition `p` that is commandable, the running one or the held one. -/
def onStopped (s : State) (p : BitVec 4) (f : State → State) (g : State → Ctx → State) : State :=
  if (getPart s p).halted then ignoreCommand s p
  else if s.ctx.commandable p then f s
  else match s.held with
    | some h => if h.commandable p then g s h else ignoreCommand s p
    | none => ignoreCommand s p

/-- RESUME of a context held in the shadow store: `resumeStrand` on it. -/
def resumeHeld (s : State) (h : Ctx) : State :=
  let t := resumeStrand { s with ctx := h, ops := [] }
  { s with held := some t.ctx }

/-- The context's stop is marked as waiting for its quota (R475). -/
def Ctx.resuming (c : Ctx) : Ctx := { c with stop := c.stop.map fun st => { st with resuming := true } }

/-- RESUME (R436): as eret; it waits while the quota is exhausted (R475). -/
def execResume (p : BitVec 4) (core : BitVec 8) (s : State) : Host.Outcome State Fault Refusal :=
  if core ≠ s.coreNo then .next (ignoreCommand s p)
  else .next (onStopped s p
    (fun s => if quotaHolds s p then setCtx s s.ctx.resuming else runsAgain (resumeStrand s))
    (fun s h => if quotaHolds s p then { s with held := some h.resuming } else resumeHeld s h))

/-- ABORT of a held context: its item ends, and it waits at a boundary. -/
def abortHeld (s : State) (h : Ctx) : State :=
  let s := noteStatus s h.inst 0xFFFFFFFF#64
  postEnds { s with held := some { h with
    status := .boundary, stop := none, heldFaults := [], inst := none, taskHandler := false, thrrun := false
    eng := h.eng.stopped } }

/-- ABORT (R436): the item ends with status 0xFFFF_FFFF. -/
def execAbort (p : BitVec 4) (core : BitVec 8) (s : State) : Host.Outcome State Fault Refusal :=
  if core ≠ s.coreNo then .next (ignoreCommand s p)
  else .next (onStopped s p (fun s => dropStrand s 0xFFFFFFFF#64) abortHeld)

/-- RUN (R434): the partition's context is made to run on the quad of the core. -/
def execRun (p : BitVec 4) (core : BitVec 8) (s : State) : Host.Outcome State Fault Refusal :=
  if !partHasCore s p core.toNat then .next (ignoreCommand s p)
  else if core.toNat / 4 ≠ s.coreNo.toNat / 4 then .next s
  else match s.held with
    | some h => .next (if h.part = p then setDisp s { s.disp with swapping := true } else s)
    | none => .next s

/-- HALT (R438). -/
def execHalt (p : BitVec 4) (s : State) : Host.Outcome State Fault Refusal := .next (haltPartition s p)

/-! ### Context swap (R434, R435) -/

/-- SLICE_EXPIRY (R434): the held context is to run; while its quota holds it back the swap waits (R475). -/
def execSliceExpiry (s : State) : Host.Outcome State Fault Refusal :=
  match s.held with
  | none => .next s
  | some h =>
    if (getPart s h.part).halted then .next (setDisp s { s.disp with sliceStart := s.bell })
    else .next (setDisp s { s.disp with swapping := true })

/-- The core has drained for the swap: nothing is outstanding, no stop awaits its record or its handler, no engine holds a
miss. -/
def swapDue (s : State) : Bool :=
  swapStops s && s.ops.isEmpty && s.mx.pound.isEmpty && !handlerPending s && (match s.ctx.stop with
    | some st => st.recorded
    | none => true) && allEngines.all fun e => match (s.eng e).wait with
      | some ⟨.miss p v _ _, _, _⟩ => !s.misses.contains (p, v)
      | _ => true

/-- Exchanges the contexts. -/
def swapContexts (s : State) (h : Ctx) : State :=
  let out := saveCtx s
  let s := { s with held := some out, mx := { s.mx with parked := none } }
  let s := setDisp s { s.disp with swapping := false, sliceStart := s.bell }
  selectWork (runsAgain (restoreCtx s h))

/-- The contexts are exchanged unless a page that the refill needs is held for the driver. -/
def trySwap (s : State) : State :=
  if !swapDue s then s else
  match s.held with
  | none => setDisp s { s.disp with swapping := false }
  | some h =>
    match walkPages s h.part (refillPages h) with
    | (s, some v) => if abortedPage s h.part v then swapContexts (useAbort s h.part v) h else s
    | (s, none) => swapContexts s h

/-- CONTEXT_SWAP (R434). -/
def execContextSwap (s : State) : Host.Outcome State Fault Refusal := .next (trySwap s)

/-! ### Enabling a partition (R165, R426, R433) -/

/-- Why an enable of partition `p` is refused (R433). -/
def enableRefused (s : State) (p : BitVec 4) : Bool :=
  let x := getPart s p
  let others := (List.range 16).filterMap fun i =>
    let y := getPart s (BitVec.ofNat 4 i)
    if i ≠ p.toNat && y.en then some y else none
  let shared (q : Nat) : List Part := others.filter fun y => bitAt y.qmask q
  ((List.range 64).any fun q => bitAt x.qmask q &&
    (decide (2 ≤ (shared q).length) || (shared q).any fun y =>
      y.slot == x.slot || rangesMeet x.hbase.toNat x.hcount.toNat y.hbase.toNat y.hcount.toNat ||
        rangesMeet x.tbase.toNat x.tcount.toNat y.tbase.toNat y.tcount.toNat)) ||
  (List.range 8).any fun d =>
    let b := (x.cmBase.getD d 0).toNat
    let n := (x.cmSize.getD d 0).toNat
    decide (768 < b + n) || others.any fun y => rangesMeet b n (y.cmBase.getD d 0).toNat (y.cmSize.getD d 0).toNat

/-- The context that a partition's slot starts with (R426). -/
def freshCtx (s : State) (p : BitVec 4) : Ctx :=
  let x := getPart s p
  { Ctx.reset with
    part := p, slot := x.slot, winBase := x.hbase, winCount := x.hcount, strand := s.ctx.strand + 1
    frec := BitVec.ofNat 46 ((x.frec.toNat * 2 ^ 14 + 64 * s.coreNo.toNat) / 64)
    mx := { MxCtx.reset with zBase := x.tbase, zCount := x.tcount } }

/-- Tiles and journals of a window at reset. -/
def resetTiles (x : Mx) (base count : Nat) : Mx :=
  let f (p : MPath) : MPath :=
    { p with tiles := Vector.ofFn fun (i : Fin 4) => if base ≤ i.val && i.val < base + count then Tile.reset else p.tiles[i] }
  { x with mill := f x.mill, quern := f x.quern,
           journals := Vector.ofFn fun (i : Fin 4) => if base ≤ i.val && i.val < base + count then ⟨[], false⟩
             else x.journals[i] }

/-- Planes and maps empty. -/
def resetPlanes (x : Mx) : Mx :=
  let f (p : MPath) : MPath := { p with active := Plane.reset, shadow := Plane.reset, map := [], sow := Sow.reset }
  { x with mill := f x.mill, quern := f x.quern }

/-- The context runs on this core: what it had outstanding is discarded. -/
def installRunning (s : State) (c : Ctx) : State :=
  let s := setDisp s { s.disp with launching := none, launchHeld := false, swapping := false, sliceStart := s.bell }
  { s with ctx := c, ops := [], mx := resetPlanes { s.mx with pound := [], parked := none } }

/-- Gives the context its place on this core: that of an earlier context of its partition, or one that no enabled
partition uses. -/
def installCtx (s : State) (c : Ctx) : State :=
  let dead (x : Ctx) : Bool := !((getPart s x.part).en && partHasCore s x.part s.coreNo.toNat)
  if s.ctx.part = c.part && !(match s.held with
    | some h => h.part == c.part
    | none => false) then installRunning s c
  else match s.held with
    | some h =>
      if h.part = c.part then { s with held := some c }
      else if dead s.ctx then installRunning s c
      else { s with held := some c }
    | none => if dead s.ctx then installRunning s c else { s with held := some c }

/-- The handles of a window become held by their cores, and their granules empty, in every core of this core's quad. -/
def assignHandles (s : State) (base count : Nat) : State :=
  (List.range 4).foldl (fun s c => (List.range 48).foldl (fun s h =>
    if base ≤ h && h < base + count then
      setFull (setHandle s (c * 48 + h) (.held (BitVec.ofNat 2 c)))
        ((List.range 4096).map fun g => granuleNo c (h * 0x10000) + g) false
    else s) s) s

/-- Discards a partition's instances (R438). -/
def discardPipes (s : State) (p : BitVec 4) : State :=
  let gone := (s.disp.pipes.filter fun x => x.ofPart s p).map (·.id)
  let d := s.disp
  setDisp s { d with
    pipes := d.pipes.filter fun x => !gone.contains x.id
    rings := d.rings.map fun r => r.filter fun i => !gone.contains i
    dones := d.dones.filter fun w => w.part ≠ p
    wqs := d.wqs.map fun w => if w.2.part = p then (w.1, { w.2 with live := 0, held := none }) else w }

/-- Enables a partition (R426, R433). -/
def enablePartition (s : State) (p : BitVec 4) : State :=
  let x := getPart s p
  if x.en then s
  else if enableRefused s p then setPart s p { x with err := true }
  else
    let s := discardPipes s p
    let mine := partHasCore s p s.coreNo.toNat
    let s := { s with saved := s.saved.filter fun c => c.1.part != p }
    let s := if mine then installCtx s (freshCtx s p) else s
    let s := setPart s p { x with en := true, halted := false }
    if mine then
      let s := assignHandles s x.hbase.toNat x.hcount.toNat
      selectWork { s with mx := resetTiles s.mx x.tbase.toNat x.tcount.toNat }
    else s

/-- PARTITION_ENABLE. -/
def execPartitionEnable (p : BitVec 4) (s : State) : Host.Outcome State Fault Refusal := .next (enablePartition s p)

/-- Disables a partition (R433): nothing of it is launched any more. -/
def disablePartition (s : State) (p : BitVec 4) : State := setPart s p { getPart s p with en := false }

/-- PARTITION_DISABLE. -/
def execPartitionDisable (p : BitVec 4) (s : State) : Host.Outcome State Fault Refusal := .next (disablePartition s p)

/-! ### Configuration planes (R431, R432) -/

/-- A strand of the context is under way: it runs, or was stopped or pre-empted, in mid-text, or engines that its end did not name
have yet to reach their stop point, or its Thresher runs. A halted context never walks again (assumption 64). -/
def Ctx.underWay (c : Ctx) : Bool :=
  match c.status with
  | .running | .handler | .stopped => true
  | .halted => false
  | .idle | .boundary => c.thrrun ||
      !(c.text.words.isEmpty || (c.eng.bte.atStop && c.eng.mxe.atStop && c.eng.vec.atStop))

/-- A drain point of the core (R431): of the running context, the held one and those in the save area. -/
def drainPoint (s : State) : Bool :=
  s.ops.isEmpty && s.mx.pound.isEmpty && !s.ctx.underWay && s.saved.all (fun c => !c.1.underWay) && (match s.held with
    | some h => !h.underWay
    | none => true)

def planeBytes (m : Mem) : List Byte := (keyRange 0 0xFFC).map (memGet m)

/-- A context that does not run, with the registers that a newly active plane feeds. -/
def feedHeld (s : State) (seed : BitVec 32) (c : Ctx) : Ctx :=
  let c := planeCtx s c
  { c with thr := { c.thr with seed := seed }, mx := { c.mx with sowSaved := { c.mx.sowSaved with seed := seed } } }

/-- The registers that a newly active plane feeds (R431). -/
def feedPlane (s : State) : State :=
  let s := loadPlane s
  let seed := BitVec.ofNat 32 (planeVal s 0x010 4)
  let s := setSow s fun w => { w with seed := seed }
  { s with ctx := { s.ctx with thr := { s.ctx.thr with seed := seed } }, held := s.held.map (feedHeld s seed) }

/-- PLANE_DIFF_BROADCAST: the message queues at the core. -/
def execPlaneDiffBroadcast (msg : PlaneDiff) (s : State) : Host.Outcome State Fault Refusal :=
  .next (setDisp s { s.disp with diffs := s.disp.diffs ++ [msg] })

/-- The queued message of lowest generation. -/
def firstDiff (l : List PlaneDiff) : Option PlaneDiff :=
  l.foldl (fun (b : Option PlaneDiff) d => match b with
    | none => some d
    | some x => if d.gen.toNat < x.gen.toNat then some d else some x) none

/-- PLANE_DIFF_APPLY at a drain point. -/
def execPlaneDiffApply (s : State) : Host.Outcome State Fault Refusal :=
  if !drainPoint s then .next s else
  match firstDiff s.disp.diffs with
  | none => .next s
  | some m =>
    let copy := memWrite s.disp.plane (m.changes.filter fun c => decide (c.1 < 0xFFC))
    let s := setDisp s { s.disp with diffs := s.disp.diffs.erase m }
    if crc32c (planeBytes copy) = m.crc then
      let copy := memWrite copy ((keyRange 0xFFC 4).zip (leBytes 4 m.crc.toNat))
      .next (feedPlane (setDisp s { s.disp with plane := copy, gen := m.gen, last := 1 }))
    else .next (report (setDisp s { s.disp with last := 2 }) (.planeRolledBack m.gen))

/-- SHADOW_PLANE_LOAD over the configuration network. -/
def execShadowPlaneLoad (offset : Nat) (data : List Byte) (s : State) : Host.Outcome State Fault Refusal :=
  .next (setDisp s { s.disp with
    shadow := memWrite s.disp.shadow (((keyRange offset data.length).zip data).filter fun c => decide (c.1 < 0x1000)) })

/-- SWAP_TOKEN: the planes are to be exchanged at the next drain point. -/
def execSwapToken (s : State) : Host.Outcome State Fault Refusal := .next (setDisp s { s.disp with swapToken := true })

/-- The planes are exchanged; a shadow plane whose CRC is wrong is refused (R432). -/
def swapPlanes (s : State) : State :=
  let d := { s.disp with swapToken := false }
  if crc32c (planeBytes d.shadow) = BitVec.ofNat 32 (leValue ((keyRange 0xFFC 4).map (memGet d.shadow))) then
    feedPlane (setDisp s { d with plane := d.shadow, shadow := d.plane, last := 1 })
  else report (setDisp s { d with last := 3 }) .swapRefused

/-- PLANE_SWAP at a drain point. -/
def execPlaneSwap (s : State) : Host.Outcome State Fault Refusal :=
  .next (if !drainPoint s || !s.disp.swapToken then s else swapPlanes s)

end Sys2Proof.Machine
end

