-- ==== Sys2Proof/Machine/MemSide.lean ====
section
/-! DEFINITION. The memory side (chapter 11): page walks, misses held for the driver, TLB invalidation, format regions,
channel consolidation. -/
namespace Sys2Proof.Machine

/-! ### Page walks and held misses (R51, R404, R405) -/

def dropMiss (s : State) (p : BitVec 4) (vpn : Nat) : State := { s with misses := s.misses.filter (· != (p, vpn)) }

/-- PAGE_WALK: a leaf enters the TLBs; a page without a valid mapping is reported to the driver and held. -/
def execPageWalk (p : BitVec 4) (vpn : BitVec 40) (s : State) : Host.Outcome State Fault Refusal :=
  let v := vpn.toNat
  if (tlbFind s p v).isSome then .next s
  else match pageWalkOf s p v with
    | (s, some l) => .next (dropMiss (tlbInsert s p v l) p v)
    | (s, none) => .next (holdMiss s p v)

/-- Queues of a partition whose examination waits for a page. -/
def heldQueues (s : State) (p : BitVec 4) (vpn : Nat) : List Nat :=
  (s.disp.wqs.filter fun w => w.2.part == p && w.2.held == some vpn).map (·.1)

/-- Completion words that wait for a page. -/
def heldDones (s : State) (p : BitVec 4) (vpn : Nat) : List DoneWord := s.disp.dones.filter fun d => d.part == p && d.vpn == vpn

/-- Each held examination and each held completion word goes on, after `f`. -/
def releaseQueues (s : State) (p : BitVec 4) (vpn : Nat) (f : State → State) : State :=
  let s := (heldQueues s p vpn).foldl (fun s q => examineQueue (setWq (f s) q { (getWq s q) with held := none }) q) s
  let ds := heldDones s p vpn
  ds.foldl (fun s d => storeDone (f s) d) (setDisp s { s.disp with dones := s.disp.dones.filter fun d => !ds.contains d })

/-- TRANSLATION_RESOLVE: what the page held tries again. Engines try again by themselves, as do the fault record and a
swap. -/
def execTranslationResolve (p : BitVec 4) (vpn : BitVec 40) (s : State) : Host.Outcome State Fault Refusal :=
  let v := vpn.toNat
  let s := dropMiss s p v
  let s := if p = s.ctx.part then
      { s with ops := s.ops.map fun o => if o.held == some v then { o with held := none } else o }
    else s
  let s := releaseQueues s p v id
  let s := if p = s.ctx.part && s.disp.launchHeld then post (setDisp s { s.disp with launchHeld := false }) .strandLaunch else s
  .next (postEnds s)

/-- The tag of the fault of a wait: 101 where the Steward waits at a bank operation. -/
def boundaryTag (s : State) (e : Engine) : Option (BitVec 3) :=
  if e = .ctl && (match fetchWord s e (s.eng e).pc with
    | some w => bitAt w 31 && field w 28 3 = 5#3
    | none => false) then some 5 else none

/-- The engine of lowest tag that holds an access for the page, with its operands. -/
def missHolder (s : State) (p : BitVec 4) (vpn : Nat) : Option (Engine × BitVec 64 × BitVec 64) :=
  if s.ctx.stop.isSome then none else
  allEngines.findSome? fun e => match (s.eng e).wait with
    | some ⟨.miss q v o0 o1, _, _⟩ => if q = p && v = vpn then some (e, o0, o1) else none
    | _ => none

/-- The access that comes next finds the driver's abort of its miss (R51). -/
def armAbort (p : BitVec 4) (vpn : Nat) (s : State) : State := setDisp s { s.disp with aborts := [(p, vpn)] }

/-- What the Dispatcher was doing for the page fails, each access by itself (R411, R414, R417, R425, R53). -/
def abortDispatcher (s : State) (p : BitVec 4) (vpn : Nat) : State :=
  let arm := armAbort p vpn
  let s := releaseQueues s p vpn arm
  let s := if p = s.ctx.part && s.disp.launchHeld then
      (let t := arm (setDisp s { s.disp with launchHeld := false })
       if handlerPending t then launchHandler t else launchStrand t)
    else s
  let s := if p = s.ctx.part && s.ctx.frec.toNat * 64 / 4096 = vpn && recordWanted s then recordFault (arm s) else s
  let s := match s.held with
    | some h => if h.part = p && (refillPages h).contains vpn then trySwap (arm s) else s
    | none => s
  setDisp s { s.disp with aborts := [] }

/-- TRANSLATION_ABORT: the held access becomes a TRANSLATION fault. -/
def execTranslationAbort (p : BitVec 4) (vpn : BitVec 40) (s : State) : Host.Outcome State Fault Refusal :=
  let v := vpn.toNat
  if !s.misses.contains (p, v) then .next s else
  let s := dropMiss s p v
  let s := match missHolder s p v with
    | some (e, o0, o1) => raise s e { code := .translation, tag := boundaryTag s e, op0 := o0, op1 := o1 }
    | none => s
  let s := if p = s.ctx.part then
      { s with ops := s.ops.map fun o => if o.held == some v then { o with held := none, aborted := o.aborted ++ [v] } else o }
    else s
  .next (abortDispatcher s p v)

/-! ### TLB invalidation (R312, R405) -/

def putTlbi (s : State) (die : BitVec 3) (t : Tlbi) : State := { s with tlbi := s.tlbi.set die.toNat t }

/-- A write of TLBI.CMD with GO set: PART, ALL and PAGES take their values; the invalidation starts unless one is in progress in
the die, or it names nothing (R405). -/
def startTlbi (s : State) (die : BitVec 3) (t : Tlbi) : State :=
  if (s.tlbi[die.toNat]).busy || (!t.all && t.pages = 0) then putTlbi s die t
  else putTlbi s die { t with busy := true, marker := s.nextId, cur := ⟨t.addr, t.part, t.all, t.pages⟩ }

/-- TLBI_ALL: the write leaves PAGES as it stands. -/
def execTlbiAll (die : BitVec 3) (p : BitVec 4) (s : State) : Host.Outcome State Fault Refusal :=
  .next (startTlbi s die { s.tlbi[die.toNat] with part := p, all := true })

/-- TLBI_PAGES. -/
def execTlbiPages (die : BitVec 3) (p : BitVec 4) (vpn : BitVec 40) (pages : BitVec 27) (s : State) :
    Host.Outcome State Fault Refusal :=
  .next (startTlbi s die { s.tlbi[die.toNat] with addr := vpn, part := p, all := false, pages := pages })

/-- The request names pages of a partition's range. -/
def TlbiReq.meets (t : TlbiReq) (part : BitVec 4) (vpn pages : Nat) : Bool :=
  part == t.part && (t.all || (decide (vpn < t.addr.toNat + t.pages.toNat) && decide (t.addr.toNat < vpn + pages)))

/-- The invalidation names the entry. -/
def Tlbi.covers (t : Tlbi) (e : TlbEntry) : Bool := t.cur.meets e.part e.vpn e.pages

/-- The invalidation names the directory entry: pages that it leads to (R405). -/
def Tlbi.coversDir (t : Tlbi) (d : DirEntry) : Bool :=
  let span := 2 ^ (10 * (4 - d.path.length))
  t.cur.meets d.part (d.path.foldl (fun v i => v * 1024 + i) 0 * span) span

/-- Commands that a marker waits for or holds back: copies and handle-fetches of the partition (R312). -/
def Tlbi.queued (s : State) (t : Tlbi) (o : Op) : Bool := t.cur.part == s.ctx.part && o.isCopy

/-- Every command ahead of the marker has completed. -/
def tlbiDone (s : State) (t : Tlbi) : Bool := t.busy && !(s.ops.any fun o => decide (o.id < t.marker) && t.queued s o)

/-- An operation stands behind the marker of an invalidation in progress. -/
def behindMarker (s : State) (o : Op) : Bool := s.tlbi.toList.any fun t => t.busy && decide (t.marker ≤ o.id) && t.queued s o

/-- The first die whose invalidation has passed every queue. -/
def tlbiReady (s : State) : Option (Nat × Tlbi) :=
  (s.tlbi.toList.zipIdx.find? fun x => tlbiDone s x.1).map fun x => (x.2, x.1)

/-- INVALIDATION_COMPLETE. -/
def execInvalidationComplete (s : State) : Host.Outcome State Fault Refusal :=
  match tlbiReady s with
  | none => .next s
  | some (d, t) =>
    .next (report { s with
      tlb := s.tlb.filter fun e => !t.covers e
      dirs := s.dirs.filter fun d => !t.coversDir d
      tlbi := s.tlbi.setIfInBounds d { t with busy := false } } (.unmapped (BitVec.ofNat 3 d)))

/-! ### Format regions (R398 to R402) -/

def regionNo (stack region : BitVec 4) : Nat := stack.toNat * 16 + region.toNat
def getRegion (s : State) (n : Nat) : Region := getAssoc s.regions n Region.reset
def putRegion (s : State) (n : Nat) (r : Region) : State := { s with regions := setAssoc s.regions n r }

/-- Codes that FR.CTL.FMT may name. -/
def regionFmtOk (f : BitVec 8) : Bool :=
  let n := f.toNat
  (0x20 ≤ n && n ≤ 0x25) || (0x28 ≤ n && n ≤ 0x2D) || n = 0x30 || n = 0x31

/-- The data, scale and alias ranges of a region: base and length. -/
def Region.ranges (r : Region) : List (Nat × Nat) :=
  let f := r.format
  let e := r.elems
  [(r.dbase.toNat * 2 ^ 21, e * f.bits / 8),
   (r.sbase.toNat * 64, if f.isTl then 2 * (e / 16) + 4 * (e / 1024) else f.scaleBytes * (e / f.block)),
   (r.abase.toNat * 2 ^ 21, 2 * e)]

/-- Two of a list of ranges meet. -/
def someMeet : List (Nat × Nat) → Bool
  | [] => false
  | a :: r => r.any (fun b => rangesMeet a.1 a.2 b.1 b.2) || someMeet r

/-- Why an enable is refused (R399). -/
def regionRefused (s : State) (stack n : Nat) (r : Region) : Bool :=
  !regionFmtOk r.fmt || r.asize = 0 ||
  (r.ranges.any fun x => x.1 / 2 ^ 36 ≠ stack || 2 ^ 36 < x.1 % 2 ^ 36 + x.2) || someMeet r.ranges ||
  s.regions.any fun c => c.1 / 16 = stack && c.1 ≠ n && c.2.en &&
    c.2.ranges.any fun x => r.ranges.any fun y => rangesMeet x.1 x.2 y.1 y.2

/-- The alias lines of a region are written back, and the last-level cache holds none of them any more (R399). -/
def flushRegion (s : State) (r : Region) : State :=
  let lo := r.abase.toNat * 2 ^ 21
  let mine (a : Nat) : Bool := decide (lo ≤ a) && decide (a < lo + r.asize.toNat * 2 ^ 21)
  let s := (linesOf ((s.llc.map (·.1)).filter mine)).foldl aliasWriteLine s
  { s with llcLines := s.llcLines.filter fun c => !mine (c.line * 64) }

/-- A write of FR.CTL with EN set, which sets FMT and ASIZE too (R398). A change of either in an enabled region is an enable of its
own, after the region's lines have gone home (DESIGN CHOICE: assumption 54). -/
def enableRegion (s : State) (stack n : Nat) (v : BitVec 64) : State :=
  let r := getRegion s n
  let q := { r with err := r.err && !bitAt v 62, fmt := field v 48 8, asize := field v 0 14 }
  if r.en && q.fmt = r.fmt && q.asize = r.asize then putRegion s n q
  else
    let s := if r.en then flushRegion s r else s
    let c := getRegion s n
    let q := { q with satcnt := c.satcnt, undcnt := c.undcnt, tagerr := c.tagerr }
    putRegion s n (if regionRefused s stack n q then { q with en := false, err := true } else { q with en := true })

/-- FR_ENABLE. -/
def execFrEnable (stack region : BitVec 4) (v : BitVec 64) (s : State) : Host.Outcome State Fault Refusal :=
  .next (enableRegion s stack.toNat (regionNo stack region) v)

/-- A region is disabled: its alias lines are written back first. -/
def disableRegion (s : State) (n : Nat) : State :=
  let s := flushRegion s (getRegion s n)
  putRegion s n { (getRegion s n) with en := false }

/-- FR_DISABLE. -/
def execFrDisable (stack region : BitVec 4) (s : State) : Host.Outcome State Fault Refusal :=
  let n := regionNo stack region
  .next (if (getRegion s n).en then disableRegion s n else s)

/-- ALIAS_WRITEBACK: the last-level cache writes back a dirty alias line (R401). -/
def execAliasWriteback (line : Nat) (s : State) : Host.Outcome State Fault Refusal := .next (aliasWriteLine s (line / 64 * 64))

/-- CHANNEL_MIGRATION (R406): no value, address, order or synchronisation changes. -/
def execChannelMigration (_stack : BitVec 4) (_unit64k : Nat) (_channel : BitVec 9) (s : State) :
    Host.Outcome State Fault Refusal := .next s

end Sys2Proof.Machine
end

