-- ==== Sys2Proof/Machine/Thresher.lean ====
section
/-! DEFINITION. The Thresher (chapter 10): its registers, its region transforms and its other instructions. -/
namespace Sys2Proof.Machine

/-! ### Registers (R363) -/

/-- A transform is in flight. -/
def transformBusy (s : State) : Bool := s.ops.any fun o => o.kind matches .transform _

def setThr (s : State) (t : ThrRegs) : State := setCtx s { s.ctx with thr := t }

/-- Flags of THR.STAT, bits 8:0. -/
def thrFlags (f : Fx) : BitVec 9 :=
  bit1 f.undq ++ bit1 f.satq ++ bit1 f.nan ++ bit1 f.sat ++ bit1 f.nx ++ bit1 f.uf ++ bit1 f.of ++ 0#2

/-- The registers of Table 10.1 by number. -/
def thrReg (s : State) (n : Nat) : BitVec 64 :=
  let t := s.ctx.thr
  match n with
  | 0x080 => 0#47 ++ bit1 (transformBusy s) ++ 0#7 ++ thrFlags t.flags
  | 0x081 => t.stream ++ t.seed
  | 0x082 => t.ibase.setWidth 64
  | 0x083 => t.undcnt ++ t.satcnt
  | 0x084 => if s.ctx.thrrun then (field (s.eng .thr).pc 0 14).setWidth 64 else 0x3FFF
  | _ => 0

/-- A write of a register of Table 10.1. -/
def putThrReg (s : State) (n : Nat) (v : BitVec 64) : State :=
  let t := s.ctx.thr
  let f := t.flags
  match n with
  | 0x080 => setThr s { t with flags := { f with
      of := f.of && !bitAt v 2, uf := f.uf && !bitAt v 3, nx := f.nx && !bitAt v 4, sat := f.sat && !bitAt v 5,
      nan := f.nan && !bitAt v 6, satq := f.satq && !bitAt v 7, undq := f.undq && !bitAt v 8 } }
  | 0x081 => setThr s { t with seed := field v 0 32, stream := field v 32 32 }
  | 0x082 => setThr s { t with ibase := field v 0 32 }
  | 0x083 => setThr s { t with satcnt := field v 0 32, undcnt := field v 32 32 }
  | _ => s

/-- Flags and counts land; NV and DZ are not recorded (R364). -/
def landThr (s : State) (f : Fx) : State :=
  let t := s.ctx.thr
  setThr s { t with
    flags := { (t.flags.join f).sticky with nv := false, dz := false }
    satcnt := satAdd t.satcnt f.nsat
    undcnt := satAdd t.undcnt f.nund }

/-! ### A transform's regions (R294, R366) -/

def TrDesc.dst (t : TrDesc) : Rec := Rec.of t.rd
def TrDesc.src (t : TrDesc) : Rec := Rec.of t.rs
def TrDesc.aux (t : TrDesc) : Rec := Rec.of t.rx
def TrDesc.fd (t : TrDesc) : Fmt := t.dst.format.getD .int8
def TrDesc.fs (t : TrDesc) : Fmt := t.src.format.getD .int8

/-- Block length of tamax. -/
def amaxLen (bs : BitVec 2) : Nat :=
  match bs.toNat with
  | 0 => 16
  | 1 => 32
  | 2 => 256
  | _ => 1024

/-- The shape of the destination region. -/
def TrDesc.dstShape (t : TrDesc) : Nat × Nat × Nat :=
  let n := coords t.n
  match t.form with
  | .amax bs => (ceilDiv n.1 (amaxLen bs), n.2.1, n.2.2)
  | .tr => (n.2.1, n.1, n.2.2)
  | _ => n

def TrDesc.total (t : TrDesc) : Nat := let n := coords t.n; n.1 * n.2.1 * n.2.2

/-- The rows of a region. -/
def regionRows (n : Nat × Nat × Nat) : List (Nat × Nat) :=
  (List.range n.2.2).flatMap fun j2 => (List.range n.2.1).map fun j1 => (j1, j2)

/-- The bytes of a region's in-bounds elements, whole blocks and their scales with `pad`. -/
def regionSpans (r : Rec) (f : Fmt) (o n : Nat × Nat × Nat) (pad : Bool) : List Span :=
  (regionRows n).flatMap fun j =>
    if o.2.1 + j.1 < r.ext1 && o.2.2 + j.2 < r.ext2 then
      let hi := min (o.1 + n.1) r.ext0
      runSpans r f (r.rowAt ((o.2.1 + j.1 : Nat) : Int) ((o.2.2 + j.2 : Nat) : Int)) o.1
        (if pad && f.block ≠ 0 then ceilDiv hi f.block * f.block else hi)
    else []

def TrDesc.srcSpans (t : TrDesc) : List Span := regionSpans t.src t.fs (coords t.s) (coords t.n) false
def TrDesc.dstSpans (t : TrDesc) : List Span := regionSpans t.dst t.fd (coords t.d) t.dstShape true

/-- Blocks of the destination region in a row. -/
def TrDesc.rowBlocks (t : TrDesc) : Nat := ceilDiv (coords t.n).1 t.fd.block

/-- Entries that a transform reads from its AUX record. -/
def TrDesc.auxCount (t : TrDesc) : Nat :=
  match t.form with
  | .cvt => if t.fd = .cb8 || t.fs = .cb8 then 256 else if t.fd = .cb4 || t.fs = .cb4 then 16 else 0
  | .cvti => let n := coords t.n; t.rowBlocks * n.2.1 * n.2.2
  | _ => 0

def TrDesc.auxSpans (t : TrDesc) : List Span :=
  if t.auxCount = 0 || t.aux.ext1 = 0 || t.aux.ext2 = 0 then [] else [⟨t.aux.rowAt 0 0, min t.auxCount t.aux.ext0⟩]

/-! ### Checks at issue -/

def plainNumeric (f : Fmt) : Bool := f ≠ .sqz8 && f ≠ .mld16

/-- Destinations that round (Table 10.5). -/
def roundsTo (f : Fmt) : Bool := f.block = 0 && f.float?.isSome

def byteFmt (f : Fmt) : Bool :=
  match f with
  | .int8 | .uint8 | .e4m3 | .e5m2 | .cb8 => true
  | _ => false

/-- The ILLEGAL_OP conditions that records decide. -/
def TrDesc.illegal (t : TrDesc) (auxField : BitVec 4) : Bool :=
  let bad (r : Rec) : Bool := r.illegal false || !r.isScratch
  bad t.dst || bad t.src || (match t.form with
    | .cvt =>
      (t.dst.format.isSome && !roundsTo t.fd && t.rm ≠ 0) ||
      (if t.auxCount = 0 then t.dst.format.isSome && t.src.format.isSome && auxField ≠ 0 else bad t.aux)
    | .cvti => bad t.aux || t.fd.isCb || (t.fd.isMx && auxField ≠ 0)
    | _ => false)

/-- The FORMAT conditions of R368 to R373. -/
def TrDesc.formatBad (t : TrDesc) : Option Trap :=
  match t.dst.format, t.src.format with
  | none, _ => some (formatTrap t.dst.fmt.toNat)
  | _, none => some (formatTrap t.src.fmt.toNat)
  | some d, some s =>
    let dst := some (formatTrap t.dst.fmt.toNat)
    let src := some (formatTrap t.src.fmt.toNat)
    let aux (want : Fmt) : Option Trap := if t.aux.format = some want then none else some (formatTrap t.aux.fmt.toNat)
    match t.form with
    | .cvt =>
      if !plainNumeric s then src else if !plainNumeric d then dst
      else if d.int?.isSome && s.int?.isNone then src
      else if t.auxCount ≠ 0 then aux .e4m3 else none
    | .cvti =>
      if !(d.isMx || d.isTl) then dst else if !plainNumeric s || s.isCb then src else aux .uint8
    | .amax _ =>
      if d ≠ .fp32 then dst
      else if s = .int32 || s = .int64 || s = .sqz8 || s = .mld16 || s.isCb then src else none
    | .sqze => if d ≠ .sqz8 then dst else if !byteFmt s then src else none
    | .sqzd => if s ≠ .sqz8 then src else if !byteFmt d then dst else none
    | .tr => if d ≠ s then src else if !d.isPlain || (d.bits ≠ 8 && d.bits ≠ 16 && d.bits ≠ 32) then dst else none

/-- The alignment conditions of R368, R371 and R372. -/
def TrDesc.aligned (t : TrDesc) : Bool :=
  let d := (coords t.d).1
  let n := (coords t.n).1
  let blocks (b : Nat) : Bool := d % b = 0 && (n % b = 0 || t.dst.ext0 ≤ d + n)
  match t.form with
  | .cvt | .cvti => if t.fd.isMx then blocks 32 else if t.fd.isTl then blocks 1024 else true
  | .sqze => blocks 256
  | .sqzd => (coords t.s).1 % 256 = 0
  | _ => true

/-- Two span lists share a byte, by scratchpad key. -/
def spansShare (s : State) (r : Rec) (a : List Span) (q : Rec) (b : List Span) : Bool :=
  runsMeet (a.map fun x => ⟨r.key s x.a.toNat, x.n, false⟩) (b.map fun x => ⟨q.key s x.a.toNat, x.n, false⟩)

/-- The issue checks of a transform (R361, R366). -/
def TrDesc.traps (s : State) (t : TrDesc) (auxField : BitVec 4) : Option Trap :=
  if t.illegal auxField then some { code := .illegalOp } else
  match t.formatBad with
  | some x => some x
  | none =>
    let o := coords t.d
    let dn := t.dstShape
    let n := coords t.n
    let out (r : Rec) (f : Fmt) (o n : Nat × Nat × Nat) (acc : Acc) : List Trap :=
      if r.bmode = 0 then match r.firstOut f o n with
        | some i => [boundsTrap r f i acc]
        | none => []
      else []
    let srcF := if t.fs = .sqz8 then .int8 else t.fs
    let outs := (if t.aligned then [] else [boundsTrap t.dst t.fd o .write]) ++ baseTraps t.dst .write ++ baseTraps t.src .read ++
      out t.dst t.fd o (if t.form = .sqze then (ceilDiv dn.1 256 * 256, dn.2) else dn) .write ++
      out t.src srcF (coords t.s) n .read ++
      (if t.auxCount = 0 then [] else baseTraps t.aux .read ++ out t.aux .int8 (0, 0, 0) (t.auxCount, 1, 1) .read)
    let far (r : Rec) (f : Fmt) (o n : Nat × Nat × Nat) (acc : Acc) : List Trap :=
      match r.farOut f o n with
      | some x => [accTrap .bounds r x.a acc]
      | none => []
    worst (if !outs.isEmpty then outs else
      far t.dst t.fd o dn .write ++ far t.src t.fs (coords t.s) n .read ++ far t.aux .int8 (0, 0, 0) (t.auxCount, 1, 1) .read ++
      (if spansShare s t.src t.srcSpans t.dst t.dstSpans || spansShare s t.aux t.auxSpans t.dst t.dstSpans then
        [boundsTrap t.dst t.fd o .write] else []) ++
      spanTraps s .thr t.src .read t.srcSpans ++ spanTraps s .thr t.dst .write t.dstSpans ++
      spanTraps s .thr t.aux .read t.auxSpans)

/-! ### Issue (R366, R378) -/

/-- Cycles within which a transform completes (Table 10.6). -/
def TrDesc.bound (t : TrDesc) : Nat :=
  let bs := spanBytes t.srcSpans
  let bd := spanBytes t.dstSpans
  match t.form with
  | .cvt => if t.fd = .cb4 then ceilDiv t.total 16 + 15 else if t.fd = .cb8 then ceilDiv t.total 4 + 15
      else ceilDiv (max bs bd) 128 + 15
  | .cvti => ceilDiv (max bs bd) 128 + 15
  | .amax _ => ceilDiv bs 128 + 9
  | .sqze | .sqzd => let n := coords t.n; 2 * (ceilDiv n.1 256 * n.2.1 * n.2.2) + 9
  | .tr => ceilDiv bs 128 + 15

def thrNeed (s : State) : Option WaitKind := if transformBusy s then some .other else none

/-- A transform. -/
def transform (s : State) (h : Hdr) (legal : Bool) (reads : List Reg) (auxField : BitVec 4) (t : TrDesc) :
    Host.Outcome State Fault Refusal :=
  issuePrivate s .thr h none legal reads thrNeed fun s =>
    let r := s.ctx.thr
    let t : TrDesc := { t with seed := r.seed, stream := r.stream, ibase := r.ibase }
    match t.traps s auxField with
    | some x => .trap x
    | none =>
      match granuleWait s .thr (if t.fe = 0 then [] else spanGranules s t.src t.srcSpans) true with
      | some k => .wait s k
      | none =>
        let u := withAccess (addOp s .thr t.bound [] false {} (.transform t)) s.nextId 0
          (spanHandles s t.src t.srcSpans ++ spanHandles s t.dst t.dstSpans ++ spanHandles s t.aux t.auxSpans)
        .done (if t.rm = 4 then setThr u { u.ctx.thr with ibase := r.ibase + BitVec.ofNat 32 t.total } else u)

def trDesc (s : State) (form : TrForm) (rm : BitVec 3) (fe : BitVec 2) (sf : BitVec 1) (bfd bfs bfx : BitVec 4)
    (ad src an ax : BitVec 5) : TrDesc :=
  { form := form, rm := rm, fe := fe, sf := sf = 1, rd := readBf s .thr bfd, rs := readBf s .thr bfs, rx := readBf s .thr bfx,
    d := readA s .thr ad, s := readA s .thr src,
    n := if an = 0 then shapeOf (recOf s .thr bfs) else readA s .thr an, ax := readA s .thr ax, seed := 0, stream := 0,
    ibase := 0 }

/-- tcvt (R368). -/
def execTcvt (h : Hdr) (rm : BitVec 3) (fe : BitVec 2) (sf : BitVec 1) (aux bfd bfs : BitVec 4) (ad src an : BitVec 5)
    (s : State) : Host.Outcome State Fault Refusal :=
  transform s h (encodingOk (.tcvt h rm fe sf aux bfd bfs ad src an) true) [ra ad, ra src, ra an] aux
    (trDesc s .cvt rm fe sf bfd bfs aux ad src an 0)

/-- tcvti (R369); what must be zero for an MX destination is the register ax. -/
def execTcvti (h : Hdr) (fe : BitVec 2) (sf : BitVec 1) (aux bfd bfs : BitVec 4) (ad src an ax : BitVec 5) (s : State) :
    Host.Outcome State Fault Refusal :=
  transform s h (encodingOk (.tcvti h fe sf aux bfd bfs ad src an ax) true) [ra ad, ra src, ra an, ra ax]
    (if ax = 0 then 0 else 1) (trDesc s .cvti 0 fe sf bfd bfs aux ad src an ax)

/-- tamax (R370). -/
def execTamax (h : Hdr) (fe : BitVec 2) (sf : BitVec 1) (bs : BitVec 2) (bfd bfs : BitVec 4) (ad src an : BitVec 5)
    (s : State) : Host.Outcome State Fault Refusal :=
  transform s h (encodingOk (.tamax h fe sf bs bfd bfs ad src an) true) [ra ad, ra src, ra an] 0
    (trDesc s (.amax bs) 0 fe sf bfd bfs 0 ad src an 0)

/-- tsqze (R371). -/
def execTsqze (h : Hdr) (fe : BitVec 2) (sf : BitVec 1) (bfd bfs : BitVec 4) (ad src an : BitVec 5) (s : State) :
    Host.Outcome State Fault Refusal :=
  transform s h (encodingOk (.tsqze h fe sf bfd bfs ad src an) true) [ra ad, ra src, ra an] 0
    (trDesc s .sqze 0 fe sf bfd bfs 0 ad src an 0)

/-- tsqzd (R372). -/
def execTsqzd (h : Hdr) (fe : BitVec 2) (sf : BitVec 1) (bfd bfs : BitVec 4) (ad src an : BitVec 5) (s : State) :
    Host.Outcome State Fault Refusal :=
  transform s h (encodingOk (.tsqzd h fe sf bfd bfs ad src an) true) [ra ad, ra src, ra an] 0
    (trDesc s .sqzd 0 fe sf bfd bfs 0 ad src an 0)

/-- ttr (R373). -/
def execTtr (h : Hdr) (fe : BitVec 2) (sf : BitVec 1) (bfd bfs : BitVec 4) (ad src an : BitVec 5) (s : State) :
    Host.Outcome State Fault Refusal :=
  transform s h (encodingOk (.ttr h fe sf bfd bfs ad src an) true) [ra ad, ra src, ra an] 0
    (trDesc s .tr 0 fe sf bfd bfs 0 ad src an 0)

/-! ### What a transform writes -/

/-- A failing source: its region position, code and OPERAND0 (R367). -/
abbrev TrFail := Nat × Code × BitVec 64

/-- A write of a transform: its first region position, what it writes where, its flags, and its failing source. -/
structure TUnit where
  pos : Nat
  out : List (Span × Nat × Nat × Nat)
  fx : Fx
  fail : Option TrFail
deriving Repr, Inhabited

def cellFail (pos : Nat) : Cell → Option TrFail
  | .ecc => some (pos, .poison, BitVec.ofNat 64 pos)
  | .step b _ => some (pos, .scaleStep, BitVec.ofNat 64 b)
  | .tile t => some (pos, .sqzDecode, BitVec.ofNat 64 t)
  | _ => none

/-- The failing source with the lowest position. -/
def firstOf (l : List (Option TrFail)) : Option TrFail :=
  l.foldl (fun b x => match b, x with
    | some p, some q => if q.1 < p.1 then some q else some p
    | none, q => q
    | p, none => p) none

/-- The entries of the AUX record: bytes, and whether they can be read. -/
def auxEntries (s : State) (t : TrDesc) : List (Byte × Bool) :=
  (List.range t.auxCount).map fun (k : Nat) =>
    if !t.aux.inside (k : Int) 0 0 then (0, true)
    else match fetchSpan s t.aux ⟨t.aux.rowAt 0 0 + (k : Int), 1⟩ with
      | .val n => (BitVec.ofNat 8 n, true)
      | _ => (0, false)

/-- Decoded source elements of row `j` of the region. -/
def TrDesc.cells (s : State) (t : TrDesc) (cb : Book) (j : Nat × Nat) : List Cell :=
  let o := coords t.s
  cellRun s t.src t.fs 0 cb (o.1 : Int) ((o.2.1 + j.1 : Nat) : Int) ((o.2.2 + j.2 : Nat) : Int) (coords t.n).1

/-- Source codes of row `j`: value cells hold the code as an integer. -/
def TrDesc.codes (s : State) (t : TrDesc) (j : Nat × Nat) : List (Option Nat × Option TrFail) :=
  let o := coords t.s
  let n := coords t.n
  let base := (j.2 * n.2.1 + j.1) * n.1
  let i1 : Int := ((o.2.1 + j.1 : Nat) : Int)
  let i2 : Int := ((o.2.2 + j.2 : Nat) : Int)
  let row := t.src.rowAt i1 i2
  (List.range n.1).map fun j0 =>
    let i0 : Int := ((o.1 + j0 : Nat) : Int)
    if !t.src.inside i0 i1 i2 then (none, none)
    else
      let c := codeSpan row t.fs.bits i0
      match fetchSpan s t.src c.1 with
      | .val v => (some (v / 2 ^ c.2 % 2 ^ t.fs.bits), none)
      | _ => (some 0, cellFail (base + j0) .ecc)

/-- Position `p` of source tile `k` of a row at `row`, with the tile number of a failing mask (R372). -/
def slotCode (s : State) (r : Rec) (row : Int) (k p : Nat) : FV ⊕ Unit :=
  let a := row + ((160 * k : Nat) : Int)
  match fetchSpan s r ⟨a, 32⟩ with
  | .val m =>
    let bits := (List.range 256).map fun i => m / 2 ^ i % 2 == 1
    if 128 < (bits.filter id).length then .inr ()
    else if !bits.getD p false then .inl (.val 0)
    else .inl (fetchSpan s r ⟨a + 32 + ((((bits.take p).filter id).length : Nat) : Int), 1⟩)
  | _ => .inl .ecc

/-- Decoded bytes of row `j` of an SQZ8 source. -/
def TrDesc.slotCodes (s : State) (t : TrDesc) (j : Nat × Nat) : List (Option Nat × Option TrFail) :=
  let o := coords t.s
  let n := coords t.n
  let base := (j.2 * n.2.1 + j.1) * n.1
  let i1 : Int := ((o.2.1 + j.1 : Nat) : Int)
  let i2 : Int := ((o.2.2 + j.2 : Nat) : Int)
  (List.range n.1).map fun j0 =>
    let i0 := o.1 + j0
    if !t.src.inside (i0 : Int) i1 i2 then (none, none)
    else match slotCode s t.src (t.src.rowAt i1 i2) (i0 / 256) (i0 % 256) with
      | .inl (.val v) => (some v, none)
      | .inl _ => (some 0, cellFail (base + j0) .ecc)
      | .inr _ => (some 0, cellFail (base + j0)
          (.tile (i0 / 256 + ((o.2.2 + j.2) * t.src.ext1 + (o.2.1 + j.1)) * ceilDiv t.src.ext0 256)))

/-- A destination element's place, if it is in bounds. -/
def TrDesc.place (t : TrDesc) (i0 i1 i2 : Nat) : Option (Span × Nat) :=
  if t.dst.inside (i0 : Int) (i1 : Int) (i2 : Int) then some (codeSpan (t.dst.rowAt (i1 : Int) (i2 : Int)) t.fd.bits (i0 : Int))
  else none

/-- One converted element (Table 10.5): code and flags. -/
def TrDesc.convert (t : TrDesc) (cb : List Byte) (q : Nat) (v : Val) : Nat × Fx :=
  let f := t.fd
  if f.isCb then cbQuantise (cb.take (if f = .cb4 then 16 else 256)) v true
  else match f.int? with
    | some (w, signed) => match v with
      | .fin _ x => intToInt w signed x.num
      | _ => (0, {})
    | none => match f.float? with
      | some ff => ff.convert (drainMode t.rm)
          (if t.rm = 4 then srBits t.seed t.stream (t.ibase + BitVec.ofNat 32 q) else 0) false v
      | none => (0, {})

/-- Writes element by element. -/
def TrDesc.elemUnits (s : State) (t : TrDesc) : List TUnit :=
  let n := coords t.n
  let od := coords t.d
  let aux := auxEntries s t
  let cb := aux.map (·.1)
  let auxFail : Option TrFail := if aux.any fun e => !e.2 then cellFail 0 .ecc else none
  (regionRows n).flatMap fun j =>
    let base := (j.2 * n.2.1 + j.1) * n.1
    let unit (j0 : Nat) (src : Option (Nat × Fx)) (fail : Option TrFail) (at_ : Option (Span × Nat)) : List TUnit :=
      match at_, src with
      | some p, some c => [⟨base + j0, [(p.1, p.2, t.fd.bits, c.1)], c.2, fail⟩]
      | _, _ => if fail.isSome then [⟨base + j0, [], {}, fail⟩] else []
    match t.form with
    | .cvt =>
      (t.cells s (cb.map some) j).zipIdx.flatMap fun c =>
        let q := base + c.2
        let v : Option Val := match c.1 with
          | .val v => some v
          | .oob => if t.src.bmode = 2 then none else some (.fin false Q.zero)
          | _ => some (.fin false Q.zero)
        unit c.2 (v.map (t.convert cb q)) (firstOf [auxFail, cellFail q c.1])
          (t.place (od.1 + c.2) (od.2.1 + j.1) (od.2.2 + j.2))
    | form =>
      let codes := if form = .sqzd then t.slotCodes s j else t.codes s j
      codes.zipIdx.flatMap fun c =>
        let v := match c.1.1 with
          | some v => some v
          | none => if t.src.bmode = 2 then none else some 0
        let at_ := if form = .tr then t.place (od.1 + j.1) (od.2.1 + c.2) (od.2.2 + j.2)
          else t.place (od.1 + c.2) (od.2.1 + j.1) (od.2.2 + j.2)
        unit c.2 (v.map fun v => (v, {})) c.1.2 at_

/-- The sources of a block of a row: position, whether it is counted, and its failure. -/
def TrDesc.blockSrcs (t : TrDesc) (cells : List Cell) (j0 : Nat) : List Src :=
  let od := coords t.d
  (List.range t.fd.block).map fun k =>
    if od.1 + j0 + k < t.dst.ext0 && j0 + k < cells.length then
      match cells.getD (j0 + k) .oob with
      | .val v => { v := v }
      | _ => { v := .fin false Q.zero }
    else { v := .fin false Q.zero, count := false }

/-- Writes MX and two-level blocks (R131, R137, R138, R366). -/
def TrDesc.blockUnits (s : State) (t : TrDesc) : List TUnit :=
  let n := coords t.n
  let od := coords t.d
  let f := t.fd
  let b := f.block
  let aux := auxEntries s t
  let cb := aux.map (·.1)
  let imposed := t.form = .cvti
  let cbFail : Option TrFail := if !imposed && aux.any (fun e => !e.2) then cellFail 0 .ecc else none
  (regionRows n).flatMap fun j =>
    let i1 := od.2.1 + j.1
    let i2 := od.2.2 + j.2
    let line := j.2 * n.2.1 + j.1
    let base := line * n.1
    let cells := t.cells s (if imposed then [] else cb.map some) j
    let inside (k : Nat) : Bool := decide (i1 < t.dst.ext1) && decide (i2 < t.dst.ext2) && decide (od.1 + k * b < t.dst.ext0)
    let blocks := (List.range t.rowBlocks).filter inside
    let failAt (k : Nat) : Option TrFail := firstOf ((List.range b).map fun p => match cells[k * b + p]? with
      | some c => cellFail (base + k * b + p) c
      | none => none)
    let lost := (List.range t.rowBlocks).filter fun k => !inside k && (failAt k).isSome
    lost.map (fun k => { pos := base + k * b, out := [], fx := {}, fail := failAt k }) ++ blocks.map fun k =>
      let j0 := k * b
      let g := j0 / 1024
      let mates := blocks.filter fun m => m * b / 1024 = g
      let xs := t.blockSrcs cells j0
      let group := mates.flatMap fun m => t.blockSrcs cells (m * b)
      let gs := if imposed then (field t.ax 0 32).toNat else tlGroupScale f (amaxOf group)
      let gs := if badGroupScale gs || !(group.all fun x => x.v.isFinite) then none else some gs
      let e := aux.getD (line * t.rowBlocks + k) (0, true)
      let q : QBlock := { i1 := i1, i2 := i2, j := (od.1 + j0) / b, k := k, lane0 := 0, count := b }
      let enc := q.encode t.dst f gs (if imposed then some e.1.toNat else none) xs
      { pos := base + j0
        out := ((q.spans t.dst f).zip enc.1).map fun w => (w.1, 0, 8 * w.2.length, leValue w.2)
        fx := enc.2
        fail := firstOf [cbFail, if imposed && !e.2 then cellFail (base + j0) .ecc else none, failAt k] }

/-- The largest magnitude of a block of cells as an FP32 code (R370). -/
def amaxCode (cells : List Cell) : Nat :=
  let vals := cells.filterMap fun c => match c with
    | .val v => some v
    | _ => none
  if vals.any fun v => v matches .nan _ then FFmt.fp32.canonNan
  else if vals.any fun v => v matches .inf _ then FFmt.fp32.infCode false
  else (FFmt.fp32.roundTo .rne 0 false (vals.foldl (fun a v => a.max v.mag) Q.zero) false).1

/-- Writes of tamax. -/
def TrDesc.amaxUnits (s : State) (t : TrDesc) (len : Nat) : List TUnit :=
  let n := coords t.n
  let od := coords t.d
  (regionRows n).flatMap fun j =>
    let base := (j.2 * n.2.1 + j.1) * n.1
    let cells := t.cells s [] j
    (List.range (ceilDiv n.1 len)).flatMap fun k =>
      let mine := (cells.drop (k * len)).take len
      let fail := firstOf (mine.zipIdx.map fun c => cellFail (base + k * len + c.2) c.1)
      match t.place (od.1 + k) (od.2.1 + j.1) (od.2.2 + j.2) with
      | some p => [⟨base + k * len, [(p.1, p.2, 32, amaxCode mine)], {}, fail⟩]
      | none => if fail.isSome then [⟨base + k * len, [], {}, fail⟩] else []

/-- The first 128 nonzero bytes of a tile, and how many more it drops (R371). -/
def keepNonzero (l : List Byte) : List Byte × Nat :=
  let r := l.foldl (fun (a : List Byte × Nat) b =>
    if b = 0 then (a.1 ++ [b], a.2) else (a.1 ++ [if a.2 < 128 then b else 0], a.2 + 1)) ([], 0)
  (r.1, r.2 - 128)

/-- Writes of tsqze. -/
def TrDesc.sqzeUnits (s : State) (t : TrDesc) : List TUnit :=
  let n := coords t.n
  let od := coords t.d
  (regionRows n).flatMap fun j =>
    let i1 := od.2.1 + j.1
    let i2 := od.2.2 + j.2
    let base := (j.2 * n.2.1 + j.1) * n.1
    let codes := t.codes s j
    (List.range (ceilDiv n.1 256)).filterMap fun k =>
      let fail := firstOf ((codes.drop (256 * k)).take 256 |>.map (·.2))
      if !(i1 < t.dst.ext1 && i2 < t.dst.ext2) || t.dst.ext0 ≤ od.1 + 256 * k then fail.map fun f => ({ pos := base + 256 * k, out := [], fx := {}, fail := some f } : TUnit)
      else
      let bytes := (List.range 256).map fun p =>
        if od.1 + 256 * k + p < t.dst.ext0 then BitVec.ofNat 8 (((codes.getD (256 * k + p) (none, none)).1).getD 0) else 0
      let kept := keepNonzero bytes
      let slot := sqzEncode kept.1
      some ⟨base + 256 * k,
        [(⟨t.dst.rowAt (i1 : Int) (i2 : Int) + ((160 * (od.1 / 256 + k) : Nat) : Int), 160⟩, 0, 1280, leValue slot)],
        { undq := decide (0 < kept.2), nund := kept.2 }, fail⟩

/-- Everything a transform would write now. -/
def TrDesc.unitList (s : State) (t : TrDesc) : List TUnit :=
  match t.form with
  | .cvt => if t.fd.block ≠ 0 then t.blockUnits s else t.elemUnits s
  | .cvti => t.blockUnits s
  | .amax bs => t.amaxUnits s (amaxLen bs)
  | .sqze => t.sqzeUnits s
  | .sqzd => t.elemUnits s
  | .tr => t.elemUnits s

/-! ### Completion (R366, R367) -/

/-- What a list of writes puts in the scratchpad; words that they cover together lose their error (R492). -/
def putUnits (s : State) (t : TrDesc) (l : List TUnit) : State :=
  (writeCodes s .thresher t.dst.cache (l.flatMap fun u => u.out.filterMap fun w => match locate s t.dst true w.1.bytes with
    | .ok ls => some ⟨ls, w.2.1, w.2.2.1, w.2.2.2⟩
    | _ => none)).1

/-- Of the writes from the failing position on, those that a free choice makes (R367). -/
def freeUnits (s : State) (l : List TUnit) : List TUnit × State :=
  l.foldl (fun (a : List TUnit × State) u =>
    let d := drawFree a.2 1
    (if d.1 = 1#1 then a.1 ++ [u] else a.1, d.2)) ([], s)

/-- The completion step, or the early end. Setting the destination's granules full is a release, at .quad of a handle reached through
space 0b10 (R163, R366). -/
def endTransform (s : State) (op : Op) (t : TrDesc) : State :=
  let units := t.unitList s
  match firstOf (units.map (·.fail)) with
  | none =>
    let u := putUnits s t units
    let gs := spanGranules u t.dst (units.flatMap fun x => x.out.map (·.1))
    let u := if t.sf && t.dst.space = 2 && !gs.isEmpty then releaseActions u 1 else u
    let u := if t.sf then setFull u gs true else u
    let u := if t.fe = 2 then setFull u (spanGranules u t.src t.srcSpans) false else u
    removeOp (landThr u (Fx.joinAll (units.map (·.fx)))) op.id
  | some (pos, code, op0) =>
    let whole (u : TUnit) : Bool := u.fail.isNone
    let below := units.filter fun u => whole u && decide (u.pos < pos)
    let rest := freeUnits s (units.filter fun u => whole u && !decide (u.pos < pos))
    let done := below ++ rest.1
    let u := putUnits rest.2 t done
    let u := landThr u (Fx.joinAll (done.map (·.fx)))
    raiseAsync (removeOp (dropPush u .thr op.id) op.id) .thr op.pc code op0

/-- TRANSFORM_COMPLETION. -/
def execTransformCompletion (s : State) : Host.Outcome State Fault Refusal :=
  match s.ops.find? fun o => o.kind matches .transform _ with
  | some op => match op.kind with
    | .transform t => .next (endTransform s op t)
    | _ => .next s
  | none => .next s

/-! ### tld, tst, trd, twr, tsync and the barriers (R374 to R377) -/

/-- A record that the Thresher may use. -/
def thrRec (s : State) (bf : BitVec 4) : Option Rec :=
  let r := recOf s .thr bf
  if r.isScratch then some r else none

def execTld (h : Hdr) (ad : BitVec 5) (bf : BitVec 4) (aa : BitVec 5) (imm : BitVec 18) (s : State) :
    Host.Outcome State Fault Refusal :=
  issuePrivate s .thr h none (encodingOk (.tld h ad bf aa imm) true) [ra aa] thrNeed fun s =>
    match thrRec s bf with
    | none => .trap { code := .illegalOp }
    | some r => loadBody .thr r (signedOff s .thr aa imm) 8 false false 0 none ad s

def execTst (h : Hdr) (src : BitVec 5) (bf : BitVec 4) (aa : BitVec 5) (imm : BitVec 18) (s : State) :
    Host.Outcome State Fault Refusal :=
  issuePrivate s .thr h none (encodingOk (.tst h src bf aa imm) true) [ra src, ra aa] thrNeed fun s =>
    match thrRec s bf with
    | none => .trap { code := .illegalOp }
    | some r => storeBody .thr r (signedOff s .thr aa imm) 8 false 0 none (readA s .thr src) s

def execTrd (h : Hdr) (reg : BitVec 12) (ad : BitVec 5) (s : State) : Host.Outcome State Fault Refusal :=
  issuePrivate s .thr h none (encodingOk (.trd h reg ad) true) [] thrNeed fun s =>
    .done (addOp s .thr 1 (destWrite ad (thrReg s reg.toNat)) false {} .result)

def execTwr (h : Hdr) (reg : BitVec 12) (aa : BitVec 5) (s : State) : Host.Outcome State Fault Refusal :=
  issuePrivate s .thr h none (encodingOk (.twr h reg aa) true) [ra aa] thrNeed fun s =>
    .done (putThrReg s reg.toNat (readA s .thr aa))

def execTsync (h : Hdr) (s : State) : Host.Outcome State Fault Refusal :=
  issuePrivate s .thr h none (encodingOk (.tsync h) true) [] thrNeed .done

def execTbara (h : Hdr) (bid : BitVec 4) (aa : BitVec 5) (s : State) : Host.Outcome State Fault Refusal :=
  issuePrivate s .thr h none (encodingOk (.tbara h bid aa) true) [ra aa] noNeed fun s =>
    arriveBody .thr 0 bid (readA s .thr aa) s

def execTbarw (h : Hdr) (bid : BitVec 4) (s : State) : Host.Outcome State Fault Refusal :=
  issuePrivate s .thr h none (encodingOk (.tbarw h bid) true) [] noNeed fun s => netWait s .thr 0 bid

def execTbars (h : Hdr) (bid : BitVec 4) (aa : BitVec 5) (s : State) : Host.Outcome State Fault Refusal :=
  issuePrivate s .thr h none (encodingOk (.tbars h bid aa) true) [ra aa] noNeed fun s =>
    arriveWaitBody .thr 0 bid (readA s .thr aa) s

end Sys2Proof.Machine
end

