-- ==== Sys2Proof/Machine/Events.lean ====
section
/-! DEFINITION. The landing of results and data, pushes, timeouts and the host's write of the slip window (chapters 1 and 4). -/
namespace Sys2Proof.Machine

/-- An operation of a strand that has ended: its address-register results do not reach the next strand (R425, R429). -/
def landOwn (s : State) (op : Op) : State :=
  landWrites s op.eng (op.ws.filter fun w => match w with
    | .a _ _ => op.strand == s.ctx.strand
    | _ => true)

/-- The flag settings of an operation land at its engine. -/
def landFlags (s : State) (op : Op) : State :=
  if op.eng = .vec then setCtx s { s.ctx with vec := s.ctx.vec.landFx op.fx } else s

/-- The MXE's address registers as they stood in `s`, where the operation is not this strand's. -/
def keepMxeRegs (s t : State) (op : Op) : State :=
  if op.strand = s.ctx.strand then t else t.setEng .mxe { (t.eng .mxe) with a := (s.eng .mxe).a }

/-- REGISTER_RESULT_LANDING (R22, R23, R123): results and flags of an operation; a store's fault; a matrix effect. -/
def execRegisterResultLanding (id : Nat) (s : State) : Host.Outcome State Fault Refusal :=
  match findOp s id with
  | none => .next s
  | some op =>
    match op.kind with
    | .result => .next (removeOp (landFlags (landOwn s op) op) id)
    | .text => .next (removeOp s id)
    | .sysRead => .next (removeOp (landOwn s op) id)
    | .store bad =>
      let t := removeOp (landFlags s op) id
      match bad with
      | none => .next t
      | some f => .next (raiseAsync t op.eng op.pc f.1 f.2)
    | .mx a => .next (keepMxeRegs s (landMx s op a) op)
    | _ => .next s

/-- LOAD_DATA_RETURN: data land and an acquire's actions follow; bad data leave the destination as it was (R52, R159), and the
acquire's actions are then left out (DESIGN CHOICE: assumption 81). -/
def execLoadDataReturn (id : Nat) (s : State) : Host.Outcome State Fault Refusal :=
  match findOp s id with
  | none => .next s
  | some op =>
    match op.kind with
    | .load acq bad tag =>
      let t := removeOp s id
      match bad with
      | some f =>
        .next (strandStop t { code := f.1, tag := if tag = 5 then 5 else BitVec.ofNat 3 op.eng.tag, async := true, op0 := f.2,
                              op1 := op.pc } false)
      | none =>
        let t := landFlags (landOwn t op) op
        .next (match acq with
          | some sc => cacheActions t sc
          | none => t)
    | _ => .next s

/-- WRITE_BACK_ACKNOWLEDGED (R157). -/
def execWriteBackAcknowledged (id : Nat) (s : State) : Host.Outcome State Fault Refusal :=
  match findOp s id with
  | some op => match op.kind with
    | .writeBack _ => .next (removeOp s id)
    | _ => .next s
  | none => .next s

/-- PENDING_PUSH (R16, R17). -/
def execPendingPush (e : Engine) (s : State) : Host.Outcome State Fault Refusal :=
  match pushDue s e with
  | some p => .next (if (pushFull s e p).isNone then makePush s e p else s)
  | none => .next s

/-! ### Timeouts (R18, R20, R50) -/

/-- A wait has lasted longer than its field of WAITTO allows (R18, R20), and whether tokens are its object; a field of zero
disables it. -/
def waitExpired (s : State) (w : Wait) : Option Bool :=
  match waitCode w.kind with
  | none => none
  | some (k, _) =>
    let t := if k = 1 then s.ctx.tokto.toNat else s.ctx.feto.toNat
    if t ≠ 0 && decide (t * 1024 < s.cycle - w.since) then some (k == 1) else none

/-- The waits of an engine: its stall, and the granule wait that a blocked push stands before (R17, R20). -/
def Eng.waits (x : Eng) : List Wait := x.wait.toList ++ x.feWait.toList

/-- What an engine waits for is there, though its slot has not come yet. -/
def waitOver (s : State) (e : Engine) : WaitKind → Bool
  | .push _ => ((pushDue s e).bind (pushFull s e)).isNone
  | k => k.over s

/-- The first expired wait of an engine, and whether tokens are its object. -/
def expiredWait (s : State) (e : Engine) : Option (Wait × Bool) :=
  (s.eng e).waits.findSome? fun w => if waitOver s e w.kind then none else (waitExpired s w).map fun b => (w, b)

/-- The fault of an engine's expired wait. -/
def timeoutStop (s : State) (e : Engine) (token : Bool) : State :=
  match (s.eng e).waits.find? fun w => !waitOver s e w.kind && waitExpired s w == some token with
  | none => s
  | some w =>
    match waitCode w.kind with
    | none => s
    | some (k, o) =>
      raise s e { code := if token then .tokenTimeout else .feTimeout, tag := boundaryTag s e, op0 := o,
                  op1 := BitVec.ofNat 8 k ++ BitVec.ofNat 56 (min (s.cycle - w.since) (2 ^ 56 - 1)) }

/-- TOKEN_TIMEOUT (R18). -/
def execTokenTimeout (e : Engine) (s : State) : Host.Outcome State Fault Refusal := .next (timeoutStop s e true)

/-- FE_TIMEOUT (R20). -/
def execFeTimeout (e : Engine) (s : State) : Host.Outcome State Fault Refusal := .next (timeoutStop s e false)

/-- SLIPW_WRITE: a CSRW of SLIPW (R9). -/
def execSlipwWrite (v : BitVec 64) (s : State) : Host.Outcome State Fault Refusal :=
  .next (setCtx s { s.ctx with window := clampWindow ((field v 0 13).toNat : Int) })

end Sys2Proof.Machine
end

