-- ==== Sys2Proof/Machine/Moot.lean ====
section
/-! DEFINITION. The Moot: limits and the Crier, rounds, membership, reading the clock, energy quotas and the rack cap
(chapter 13). -/
namespace Sys2Proof.Machine

def setMoot (s : State) (m : Moot) : State := { s with moot := m }

/-! ### Lead times (R453, R457, R458) -/

/-- Group cycles of `ns` nanoseconds at the ceiling in force, rounded up. -/
def Moot.ticksOf (m : Moot) (ns : Nat) : Nat := ceilDiv (ns * 25 * m.gceil.toNat) 1000

/-- LEADC with max(LEAD, 2 × GLAT) for LEAD (R453, R458). -/
def Moot.leadc (m : Moot) : Nat := m.ticksOf (max (m.lead.toNat * 1000) (2 * m.glat.toNat))

/-- 2 × GLATC, from now to the earliest tick (R457). -/
def Moot.earliest (m : Moot) : Nat := 2 * m.ticksOf m.glat.toNat

/-- `us` microseconds of reference time. -/
def refMicros (us : Nat) : Nat := us * 25 * refUnit

/-- SILTO in reference time. -/
def Moot.siltoTime (m : Moot) : Nat := refMicros m.silto.toNat

/-- A step code of R449. -/
def stepOk (c : BitVec 8) : Bool := decide (32 ≤ c.toNat) && decide (c.toNat ≤ 96)

/-! ### Members -/

def minCode (a b : BitVec 8) : BitVec 8 := if b.toNat < a.toNat then b else a

/-- Live members. -/
def Moot.alive (m : Moot) : List Member := m.members.filter (·.live)

/-- Lowest slot of a list of members. -/
def lowestSlot (l : List Member) : BitVec 8 := l.foldl (fun b x => minCode b x.slot) 0xFF

/-- The coordinator's slot (R448). -/
def Moot.coordSlot (m : Moot) : BitVec 8 := lowestSlot m.alive

/-- A member that has not been heard for SILTO microseconds (R461). -/
def Moot.unheard (m : Moot) (x : Member) : Bool :=
  x.slot != m.slot && decide (m.siltoTime ≤ m.time - x.heardAt)

/-- This member acts as coordinator: it has the lowest slot among the live members that it hears (R448, R461). -/
def isCoord (s : State) : Bool :=
  lowestSlot (s.moot.alive.filter fun x => !s.moot.unheard x) = s.moot.slot

/-- The group has one live member. -/
def Moot.alone (m : Moot) : Bool := decide (m.alive.length ≤ 1)

/-- Changes the member that holds a slot. -/
def Moot.updMember (m : Moot) (slot : BitVec 8) (f : Member → Member) : Moot :=
  { m with members := m.members.map fun x => if x.slot = slot && !x.left then f x else x }

/-! ### Limits (R452, R453) -/

def limIdx : Limiter → Fin 5
  | .thermal => 0
  | .power => 1
  | .current => 2
  | .sensor => 3
  | .firmware => 4

/-- CAUSE of a limiter's Crier (Table 13.2). -/
def limCause : Limiter → BitVec 4
  | .thermal => 1
  | .power => 2
  | .current => 3
  | .sensor => 5
  | .firmware => 6

/-- The smallest code that the limiters require, GMAX among them. -/
def Moot.required (m : Moot) : BitVec 8 := m.limits.toList.foldl minCode m.gmax

/-- The local limit L: a clamp lowers it until a round at which the limiters require less (R457). -/
def Moot.limit (m : Moot) : BitVec 8 :=
  match m.clamp with
  | some c => minCode m.required c.1
  | none => m.required

/-- This member's core clock (R450, R457). -/
def Moot.coreCode (m : Moot) : BitVec 8 :=
  match m.clamp with
  | some c => minCode m.gceil c.1
  | none => m.gceil

/-- The posting: the smaller of L and every announced limit that is not yet in effect (R455). -/
def Moot.post (m : Moot) : BitVec 8 := m.own.foldl (fun b c => minCode b c.2.limit) m.limit

/-! ### Messages (R459) -/

/-- A message of this member, to be filled in. -/
def newMsg (s : State) : MootMsg :=
  { member := s.moot.slot, pkg := s.pkgNo, seqNo := s.moot.seqNo, effective := 0, sent := s.bell, limit := 0, cause := 0,
    unann := false, gid := s.moot.gid, arg := 0 }

/-- Joiners that a list of parameter words names. -/
def joinersOf (l : List (BitVec 64)) : List (BitVec 8 × BitVec 10) :=
  (l.filter fun w => field w 50 4 ≠ 0#4).map fun w => (field w 32 8, field w 40 10)

/-- Sends a message of a TYPE to packages, each by a flit of the Moot class. -/
def sendTo (s : State) (ty : BitVec 4) (msg : MootMsg) (pkgs : List (BitVec 10)) : State :=
  mootFlits (setMoot s { s.moot with outbox := s.moot.outbox ++ [(ty, msg)], seqNo := s.moot.seqNo + 1 }) ty msg pkgs

/-- The packages of the other live members, and those that the next round names as joiners (R459). -/
def Moot.others (m : Moot) : List (BitVec 10) :=
  (m.alive.filter fun x => x.slot != m.slot).map (·.pkg) ++ (joinersOf m.params).map (·.2)

/-- Sends a message to the group. -/
def sendMsg (s : State) (ty : BitVec 4) (msg : MootMsg) : State := sendTo s ty msg s.moot.others

/-- The coordinator's package. -/
def Moot.coordPkg (m : Moot) : List (BitVec 10) := ((m.alive.find? fun x => x.slot == m.coordSlot).map (·.pkg)).toList

/-- A package at the far end of a port: the reachable member to which a JOIN and a joiner's heartbeats go. -/
def neighbour (s : State) : List (BitVec 10) := ((s.ports.toList.find? fun p => p.state == 2).map (·.peer)).toList

/-- A message of the member that holds the sender's slot: it has been heard (R461). -/
def Moot.heard (m : Moot) (msg : MootMsg) : Moot :=
  m.updMember msg.member fun x => if x.pkg = msg.pkg then { x with heardAt := m.time, reported := false } else x

/-- A message of a member that this one has marked silent: the parts of a split group do not obey each other (R465). -/
def Moot.fromSilent (m : Moot) (msg : MootMsg) : Bool := m.members.any fun x => x.pkg == msg.pkg && !x.live

/-- A received message is of this group and new; its (MEMBER, SEQ) is noted, and its sender has been heard. A step code
outside R449 is discarded. -/
def accept (s : State) (msg : MootMsg) (coded : Bool) : Option State :=
  let m := s.moot
  if msg.gid ≠ m.gid || m.seen.contains (msg.member, msg.seqNo) || (coded && !stepOk msg.limit) then none
  else some (setMoot s { m.heard msg with seen := m.seen ++ [(msg.member, msg.seqNo)] })

/-! ### Criers and the ceiling (R451, R453, R454) -/

/-- A Crier's limit joins those that bound the ceiling; one sent before the last posting deadline needs no term (R454). -/
def noteCrier (s : State) (c : Crier) : State :=
  let m := s.moot
  if (c.sent - m.deadline).toNat < 2 ^ 63 then setMoot s { m with criers := m.criers ++ [c] } else s

/-- Limits whose tick has come (R454): of Criers, of this member's own lowerings, of silence. -/
def dueCriers (s : State) : List Crier := s.moot.criers.filter fun c => decide (c.effective.toNat ≤ s.bell.toNat)

/-- The ceiling with every Crier that is in effect. -/
def Moot.lowered (m : Moot) (l : List Crier) : BitVec 8 := l.foldl (fun b c => minCode b c.limit) m.gceil

/-- A member of a group message must be one that this member has not marked silent. -/
def acceptLive (s : State) (msg : MootMsg) (coded : Bool) : Option State :=
  if s.moot.fromSilent msg then none else accept s msg coded

/-- A barrier episode at .pod that is incomplete is abandoned for a package that is silent from now on (R179, R462). -/
def abandonNets (s : State) (pkg : Nat) : State :=
  { s with nets := Vector.ofFn fun (i : Fin 80) =>
      let n := s.nets[i]
      if 64 ≤ i.val && i.val < 80 && n.arrived ≠ 0 then
        { n with abandoned := n.abandoned ++ [(n.episode, pkg)], episode := n.episode + 1, arrived := 0, target := 0 }
      else n }

/-- A member's row is marked silent, as the coordinator declared it or as it left (R462, R464, R465). -/
def markRow (declared : Bool) (s : State) (slot : BitVec 8) : State :=
  let m := s.moot.updMember slot fun x => { x with live := false, left := !declared }
  let s := setMoot s (if declared then { m with silentCnt := satAdd m.silentCnt 1, split := true, state := 2 } else m)
  if declared then report (report s (.silent slot.toNat)) .groupSplit else s

/-- The lowest package number of some members. -/
def lowestPkg (l : List Member) : Option Nat :=
  l.foldl (fun b x => some (match b with
    | none => x.pkg.toNat
    | some p => min p x.pkg.toNat)) none

/-- Members become silent for this group at one tick (R462, R464, R465). -/
def markSilent (s : State) (slots : List (BitVec 8)) (declared : Bool) : State :=
  let gone := s.moot.alive.filter fun x => slots.contains x.slot
  let s := (gone.map (·.slot)).foldl (markRow declared) s
  match lowestPkg gone with
  | some p => failRequests (abandonNets s p) fun q => gone.any fun x => x.pkg.toNat == q
  | none => s

/-- The limits after this member's own lowerings `l` have taken effect. -/
def Moot.lowerOwn (m : Moot) (l : List (Option Limiter × Crier)) : Vector (BitVec 8) 5 :=
  l.foldl (fun v c => match c.1 with
    | some lim => v.set (limIdx lim) (minCode v[limIdx lim] c.2.limit)
    | none => v) m.limits

/-- Something of CEILING_EFFECTIVE is due. -/
def ceilingDue (s : State) : Bool :=
  let m := s.moot
  let now (t : BitVec 64) : Bool := decide (t.toNat ≤ s.bell.toNat)
  (dueCriers s).any (fun c => decide (c.limit.toNat < m.gceil.toNat)) || m.own.any (fun c => now c.2.effective) ||
    m.silents.any fun x => now x.2

/-- The posting deadline of the next round at the ceiling in force; 0 where it would lie before Bell 0. -/
def Moot.deadlineNow (m : Moot) : BitVec 64 := BitVec.ofNat 64 (m.tick.toNat - 2 * m.leadc)

/-- The posting deadline has been reached. -/
def deadlineReached (s : State) : Bool := s.moot.nextDeadline.isSome || decide (s.moot.deadlineNow.toNat ≤ s.bell.toNat)

/-- The posting deadline of the next round, once reached. -/
def Moot.reached (m : Moot) : BitVec 64 := m.nextDeadline.getD m.deadlineNow

/-- Every RPARAM message of a round is there (R455). -/
def paramsComplete (l : List (BitVec 64)) : Bool :=
  match l with
  | [] => false
  | w :: _ => (List.range (max 1 (field w 50 4).toNat)).all fun i => l.any fun x => (field x 54 4).toNat == i

/-- ROUND and every RPARAM of the next round are held. -/
def Moot.holdsRound (m : Moot) : Bool := m.decision.isSome && paramsComplete m.params

/-- Criers that the next round keeps: those sent at or after its posting deadline (R454). -/
def Moot.kept (m : Moot) : List Crier := m.criers.filter fun c => decide (((c.sent - m.reached).toNat) < 2 ^ 63)

/-- The highest ceiling that the next round can bring: its decision with the Criers that bound it, the ceiling in force where
it is missed, and any code while the decision is open (R453 to R456; DESIGN CHOICE: assumption 79). -/
def Moot.nextCeiling (m : Moot) (t : BitVec 64) : BitVec 8 :=
  if m.missed then m.gceil
  else match m.decision with
    | some d => (m.kept.filter fun c => decide (c.effective.toNat ≤ t.toNat)).foldl (fun b c => minCode b c.limit) d
    | none => 96

/-- The ceiling that will be in force at a tick. Until the posting deadline a posting still bounds what the next round brings;
after it the ceiling counts as that round's where it is higher, or where the round comes first. -/
def ceilingAt (s : State) (t : BitVec 64) : BitVec 8 :=
  let m := s.moot
  let before := m.lowered (m.criers.filter fun c => decide (c.effective.toNat ≤ t.toNat))
  if !deadlineReached s then before
  else
    let next := m.nextCeiling (if t.toNat < m.tick.toNat then m.tick else t)
    if m.tick.toNat ≤ t.toNat || before.toNat < next.toNat then next else before

/-- Sends a Crier and notes it. -/
def sendCrier (s : State) (code : BitVec 8) (cause : BitVec 4) (unann : Bool) (e : BitVec 64) : State :=
  let msg := { newMsg s with limit := code, cause := cause, unann := unann, effective := e }
  noteCrier (sendMsg s 1 msg) ⟨code, s.bell, e, true⟩

/-- What a limiter has pending when it comes to require another code: a lower limit is its own no more (R452); announced, it still
counts in the posting (R455). -/
def Moot.supersede (m : Moot) (lim : Limiter) (code : BitVec 8) : Moot :=
  { m with
    rises := m.rises.filter fun x => x.1 != lim
    own := m.own.filterMap fun c =>
      if c.1 = some lim && decide (c.2.limit.toNat < code.toNat) then (if c.2.mine then some (none, c.2) else none) else some c }

/-- R453: a limiter requires another code. One that would lower L below the ceiling is announced first; one that is below the
ceiling only until its tick waits for it; any other takes its place at once, and a higher ceiling waits for a round (R455). -/
def changeLimit (s : State) (lim : Limiter) (code : BitVec 8) (cause : BitVec 4) (effective : BitVec 64) : State :=
  let m := s.moot
  let at_ := s.bell + BitVec.ofNat 64 m.leadc
  let e := if effective.toNat < at_.toNat then at_ else effective
  let m := m.supersede lim code
  let later (m : Moot) (told : Bool) : Moot := { m with own := m.own ++ [(some lim, ⟨code, s.bell, e, told⟩)] }
  if !stepOk code then s
  else if code.toNat < (ceilingAt s e).toNat then
    let s := sendCrier (setMoot s m) (minCode m.limit code) cause false e
    setMoot s (later s.moot true)
  else if code.toNat < m.coreCode.toNat then setMoot s (later m false)
  else setMoot s { m with limits := m.limits.set (limIdx lim) code }

/-- Codes that a limiter may require from a round on, of changes before its posting deadline (R476). -/
def raiseLimits (s : State) (p : BitVec 64) : State :=
  let m := s.moot
  let due (x : Limiter × BitVec 8 × BitVec 64) : Bool := decide (x.2.2.toNat < p.toNat)
  let n := (m.rises.filter due).foldl (fun m x =>
    let m := m.supersede x.1 x.2.1
    { m with limits := m.limits.set (limIdx x.1) x.2.1 }) m
  setMoot s { n with rises := m.rises.filter fun x => !due x }

/-- LIMIT_LOWER (R453). -/
def execLimitLower (lim : Limiter) (code : BitVec 8) (effective : BitVec 64) (s : State) : Host.Outcome State Fault Refusal :=
  .next (changeLimit s lim code (limCause lim) effective)

/-- The limiter of a cause. -/
def causeLimiter (c : BitVec 4) : Limiter :=
  match c.toNat with
  | 2 => .power
  | 3 => .current
  | 4 => .power
  | 5 => .sensor
  | 6 => .firmware
  | _ => .thermal

/-- UNANNOUNCED_CLAMP (R457): the clock is cut at once, and the Crier follows with the earliest tick. -/
def execUnannouncedClamp (code : BitVec 8) (cause : BitVec 4) (s : State) : Host.Outcome State Fault Refusal :=
  let m := s.moot
  if !stepOk code || !decide (code.toNat < m.coreCode.toNat) then .next s else
  let lim := causeLimiter cause
  let e := s.bell + BitVec.ofNat 64 m.earliest
  let s := setMoot s { m with clamp := some (code, e), limits := m.limits.set (limIdx lim) code, unann := satAdd m.unann 1 }
  .next (sendCrier s code cause true e)

/-- The change of a message that arrives after its effective tick (R458). -/
def noteLate (s : State) (msg : MootMsg) : State :=
  if msg.effective.toNat < s.bell.toNat then
    report (setMoot s { s.moot with late := satAdd s.moot.late 1 }) (.late msg.member)
  else s

/-- CRIER (R453, R454, R458). A package that is about to join keeps those of its group for its round (R463). -/
def execCrier (msg : MootMsg) (s : State) : Host.Outcome State Fault Refusal :=
  match acceptLive s msg true with
  | none => .next s
  | some s =>
    let c : Crier := ⟨msg.limit, msg.sent, msg.effective, false⟩
    if s.moot.state = 3 then .next (setMoot s { s.moot with planCriers := s.moot.planCriers ++ [c] }) else
    let s := noteCrier (noteLate s msg) c
    .next (setMoot s { s.moot with gceil := s.moot.lowered (dueCriers s) })

/-! ### Rounds (R455, R456) -/

/-- A member's posting for the next round: the last one sent by the posting deadline. -/
def Moot.postingOf (m : Moot) (x : Member) : BitVec 8 :=
  match (x.later.filter fun p => decide (p.1.toNat ≤ m.reached.toNat)).getLast? with
  | some p => p.2
  | none => x.posting

/-- Notes a posting. -/
def Member.posted (x : Member) (sent : BitVec 64) (code : BitVec 8) : Member := { x with later := x.later ++ [(sent, code)] }

/-- When the coordinator sends ROUND: when the postings of the deadline have had GLAT to arrive, and by B_k - LEADC (R455; DESIGN
CHOICE: assumption 79). -/
def Moot.roundSendAt (m : Moot) : Nat :=
  min (m.reached.toNat + (if m.alone then 0 else m.ticksOf m.glat.toNat)) (m.tick.toNat - m.leadc)

/-- The coordinator's ROUND message is due. -/
def roundSendDue (s : State) : Bool :=
  let m := s.moot
  !m.sentRound && deadlineReached s && isCoord s && decide (max m.reached.toNat m.roundSendAt ≤ s.bell.toNat)

/-- The parameter word of joiner `i` of `nj` (Table 13.2a). -/
def paramWord (m : Moot) (nj i : Nat) (j : Option Joiner) : BitVec 64 :=
  let pkg : BitVec 10 := match j with
    | some x => x.pkg
    | none => 0
  let slot : BitVec 8 := match j with
    | some x => x.slot
    | none => 0
  0#6 ++ BitVec.ofNat 4 i ++ BitVec.ofNat 4 nj ++ pkg ++ slot ++ m.cfgGmax ++ m.cfgSilto ++ m.cfgLead

/-- This member's Criers that still bind after the round are sent to the packages that join at it as well (R454, R463; DESIGN CHOICE:
assumption 79). -/
def tellJoiners (s : State) (words : List (BitVec 64)) : State :=
  let mine := s.moot.outbox.filter fun x => x.1 == 1 && s.moot.kept.any fun c =>
    c.mine && c.sent == x.2.sent && c.effective == x.2.effective && c.limit == x.2.limit
  mine.foldl (fun s x => mootFlits s 1 x.2 ((joinersOf words).map (·.2))) s

/-- ROUND_SEND (R455, R459, R463, R464): decision, joiners and leavers of the next round. -/
def execRoundSend (s : State) : Host.Outcome State Fault Refusal :=
  if !roundSendDue s then .next s else
  let m := s.moot
  let p := m.reached
  let before (t : BitVec 64) : Bool := decide (t.toNat < p.toNat)
  let join := (m.joins.filter fun j => before j.at_).take 15
  let part := (m.leaves.filter fun x => before x.2).map (·.1)
  let voters := m.alive.filter fun x => !part.contains x.slot && !(m.silents.any fun q => q.1 == x.slot)
  let alone := m.alone && join.isEmpty
  let d := voters.foldl (fun b x => minCode b (m.postingOf x)) (if alone then 96 else m.cfgGmax)
  let d := join.foldl (fun b j => minCode b j.posting) d
  let words := match join with
    | [] => [paramWord m 0 0 none]
    | _ => join.zipIdx.map fun x => paramWord m join.length x.2 (some x.1)
  let s := setMoot s { m with
    sentRound := true, nextDeadline := some p, decision := some d, params := words, parting := part
    joins := m.joins.filter fun j => !join.contains j
    leaves := m.leaves.filter fun x => !part.contains x.1 }
  if alone then .next s else
  let k := m.round
  let s := sendMsg s 3 { newMsg s with effective := m.tick, limit := d, arg := k }
  let s := words.foldl (fun s w => sendMsg s 7 { newMsg s with effective := w, arg := k }) s
  let s := part.foldl (fun s x => sendMsg s 5 { newMsg s with effective := m.tick, arg := x.setWidth 32 }) s
  .next (tellJoiners s words)

/-- A new row of the member table. -/
def newMember (s : State) (slot : BitVec 8) (pkg : BitVec 10) (posting : BitVec 8) (rack : BitVec 16) : Member :=
  ⟨slot, pkg, true, posting, rack, s.moot.time, false, [], false⟩

/-- A package takes a slot: a silent one that held it before holds it no more. -/
def addMember (s : State) (slot : BitVec 8) (pkg : BitVec 10) (posting : BitVec 8) (rack : BitVec 16) : State :=
  let m := s.moot
  let others := (m.members.filter (·.pkg != pkg)).map fun x => if x.slot = slot then { x with live := false, left := true } else x
  setMoot s { m with members := others ++ [newMember s slot pkg posting rack] }

/-- A package joins at a round: the sequence numbers of the slot's earlier holder are forgotten. -/
def admitJoiner (s : State) (j : BitVec 8 × BitVec 10) : State :=
  let s := addMember s j.1 j.2 96 0
  setMoot s { s.moot with seen := s.moot.seen.filter fun x => x.1 != j.1 }

/-! ### Energy quotas (R474, R475) -/

/-- Sets EXTRA of a partition's contexts on this core. -/
def setExtra (s : State) (p : BitVec 4) (x : BitVec 16) : State :=
  let f (c : Ctx) : Ctx := if c.part = p then { c with paceExtra := x } else c
  { s with ctx := f s.ctx, held := s.held.map f }

/-- What exhaustion does to the partition's context (R475). -/
def exhaust (s : State) (p : BitVec 4) : State :=
  let x := getPart s p
  let s := setPart s p { x with exh := true }
  if !x.eqAction then setExtra s p x.eqExtra
  else
    let s := if s.ctx.part = p && s.ctx.stop.isNone && (s.ctx.status = .running || s.ctx.status = .handler ||
        (s.disp.launching.isNone && (s.ctx.status = .boundary || s.ctx.status = .idle) && (!ringsStopped s || s.ctx.thrrun))) then quotaStop s
      else s
    match s.held with
    | some h => if s.ctx.part = p && !(getPart s h.part).halted && !quotaHolds s h.part
        then setDisp s { s.disp with swapping := true } else s
    | none => s

/-- REMAIN for energy used and carried in (R474): two's complement millijoules. -/
def remainOf (x : Part) : BitVec 32 := x.quota - BitVec.ofNat 32 (ceilDiv (x.used.toNat + x.debt.toNat) 1000)

/-- The energy of what the partition's context runs on this core, its outstanding operations and its pending checks among it,
reaches USED; how much it is, is a free value (R474; DESIGN CHOICE: assumption 5). -/
def spendEnergy (s : State) : State :=
  let p := s.ctx.part
  let x := getPart s p
  if !x.en || ((s.ctx.status ≠ .running && s.ctx.status ≠ .handler) && s.ops.isEmpty && s.mx.pound.isEmpty) then s else
  let d := drawFree s 16
  let x := { x with used := x.used + d.1.setWidth 64 }
  setPart d.2 p { x with remain := if x.eqEn then remainOf x else x.remain }

/-- USED + DEBT exceeds the quota (R475). -/
def Part.overQuota (x : Part) : Bool := decide (x.quota.toNat * 1000 < x.used.toNat + x.debt.toNat)

/-- The first partition whose quota is found exceeded. -/
def quotaDue (s : State) : Option (BitVec 4) :=
  ((List.range 16).find? fun i => let x := getPart s (BitVec.ofNat 4 i); x.eqEn && !x.exh && x.overQuota).map (BitVec.ofNat 4)

/-- The start of a partition's period (R474). -/
def startPeriod (s : State) (p : BitVec 4) : State :=
  let x := getPart s p
  let q := x.quota.toNat * 1000
  let x := { x with debt := BitVec.ofNat 64 (x.used.toNat + x.debt.toNat - q), used := 0 }
  let x := { x with remain := remainOf x, exh := false }
  let s := setExtra (setPart s p x) p 0
  if q ≤ x.debt.toNat then exhaust s p else s

/-- Periods that begin at a round; a launch or a swap that waited for the quota can go on (R475). -/
def startPeriods (s : State) (k : BitVec 32) : State :=
  let due := (List.range 16).filter fun i => let x := getPart s (BitVec.ofNat 4 i); x.eqEn && k.toNat % (max 1 x.eqPeriod.toNat) = 0
  if due.isEmpty then s else selectWork (due.foldl (fun s i => startPeriod s (BitVec.ofNat 4 i)) s)

/-- QUOTA_EXHAUSTED (R475): the estimators find more energy spent than the quota; how much more, where USED does not show it, is a
free value. -/
def execQuotaExhausted (p : BitVec 4) (s : State) : Host.Outcome State Fault Refusal :=
  let x := getPart s p
  if !x.eqEn || x.exh then .next s
  else if x.overQuota then .next (exhaust s p)
  else
  let d := drawFree s 32
  let used := BitVec.ofNat 64 (x.quota.toNat * 1000 - x.debt.toNat + 1 + d.1.toNat)
  let x := { x with used := used }
  .next (exhaust (setPart d.2 p { x with remain := remainOf x }) p)

/-! ### The rack cap (R476) -/

/-- Live members whose RPCAP_GROUP ID equals this one's. -/
def Moot.sharers (m : Moot) : Nat := (m.alive.filter fun x => x.slot == m.slot || x.rack == m.rackId).length

/-- The package's cap in watts. -/
def Moot.cap (m : Moot) : Nat := if m.rackId = 0 then m.rpcap.toNat else min m.rpcap.toNat (m.rbudget.toNat / max 1 m.sharers)

/-- A code that firmware's tables give for a cap: a free value of R449's range (DESIGN CHOICE: assumption 5). -/
def freeCode (s : State) : BitVec 8 × State :=
  let d := drawFree s 8
  (BitVec.ofNat 8 (32 + d.1.toNat % 65), d.2)

/-- The power limiter's code under a cap that was `old`: one that the draw exceeds lowers L with cause RACKCAP, and one that has
risen lets L rise at the next round whose posting deadline follows. -/
def capLimit (s : State) (old : Nat) (code : BitVec 8) (effective : BitVec 64) : State :=
  let m := s.moot
  let was := m.limits[limIdx .power]
  if old < m.cap && was.toNat ≤ code.toNat && stepOk code then
    setMoot s { m with rises := m.rises.filter (fun x => x.1 != .power) ++ [(.power, code, s.bell)] }
  else changeLimit s .power code 4 effective

/-- A change of RBUDGET, of ID or of the members that share it: a lower cap lowers L or leaves it, a higher one raises it or
leaves it. -/
def recap (old : Nat) (s : State) : State :=
  let new := s.moot.cap
  if new = old then s else
  let d := freeCode s
  let was := s.moot.limits[limIdx .power]
  capLimit d.2 old (if new < old then minCode was d.1 else if was.toNat < d.1.toNat then d.1 else was) s.bell

/-- CEILING_EFFECTIVE (R451, R454, R462): every lowering and every silence whose tick has come takes effect; a member less lets the
rack cap rise (R476). -/
def execCeilingEffective (s : State) : Host.Outcome State Fault Refusal :=
  let m := s.moot
  let now (t : BitVec 64) : Bool := decide (t.toNat ≤ s.bell.toNat)
  let s := setMoot s { m with
    gceil := m.lowered (dueCriers s)
    limits := m.lowerOwn (m.own.filter fun c => now c.2.effective)
    own := m.own.filter fun c => !now c.2.effective
    silents := m.silents.filter fun x => !now x.2 }
  .next (recap m.cap (markSilent s ((m.silents.filter fun x => now x.2).map (·.1)) true))

/-! ### The round tick (R455, R463, R464) -/

/-- GLAT is measured: at formation and at each join (R470); what is found is a free value (DESIGN CHOICE: assumption 5). -/
def measureLatency (s : State) : State :=
  let d := drawFree s 16
  setMoot d.2 { d.2.moot with glat := d.1 }

/-- A lowering that waits for its tick is bounded there by the ceiling in force or by a Crier of this member. -/
def Moot.bounded (m : Moot) (c : Crier) : Bool :=
  decide (m.gceil.toNat ≤ c.limit.toNat) ||
    m.criers.any fun k => k.mine && decide (k.limit.toNat ≤ c.limit.toNat) && decide (k.effective.toNat ≤ c.effective.toNat)

/-- Lowerings are required anew. -/
def redoLimits (l : List (Option Limiter × Crier)) (e : Crier → BitVec 64) (s : State) : State :=
  l.foldl (fun s c => match c.1 with
    | some lim => changeLimit s lim c.2.limit (limCause lim) (e c.2)
    | none => s) s

/-- This member leaves: a group of one whose Bell and ceiling go on, with what this member itself has announced (R464). A lowering
that only another member's Crier would have bounded is announced now (R451, R453). -/
def becomeAlone (s : State) : State :=
  let m := s.moot
  let s := measureLatency (setMoot s { m with
    members := m.members.filter (fun x => x.slot == m.slot && !x.left), criers := m.criers.filter (·.mine), joins := []
    own := m.own.filter fun c => m.bounded c.2
    leaves := [], parting := [], silents := [], state := 0 })
  redoLimits (m.own.filter fun c => !m.bounded c.2) (·.effective) s

/-- What every round ends with: its number, the next tick, and what belonged to it. -/
def closeRound (s : State) (b : BitVec 64) (k : BitVec 32) (p : BitVec 64) : State :=
  let m := s.moot
  setMoot s { m with
    round := k + 1
    tick := b + BitVec.ofNat 64 (25000 * m.gceil.toNat)
    deadline := p
    members := m.members.map fun x =>
      { x with posting := m.postingOf x, later := x.later.filter fun y => !decide (y.1.toNat ≤ p.toNat) }
    nextDeadline := none, decision := none, params := [], sentRound := false, missed := false, parting := [] }

/-- The clamp lifts when L rises again at a round (R457) at or after the tick of its Crier (R460). -/
def liftClamp (s : State) (b : BitVec 64) : State :=
  match s.moot.clamp with
  | some c =>
    if c.1.toNat < s.moot.required.toNat && decide (c.2.toNat ≤ b.toNat) then setMoot s { s.moot with clamp := none, skip := 0 } else s
  | none => s

/-- The decision of a round and the parameters that it brings; in a group of one the parameters are what MOOT.CFG holds at the
round (R470). -/
def adoptRound (s : State) : State :=
  let m := s.moot
  let w := m.params.headD 0
  let alone := m.alone && (joinersOf m.params).isEmpty
  let d := m.decision.getD m.gceil
  let d := if alone then minCode d m.cfgGmax else d
  setMoot s { m with
    gceil := (m.kept.filter fun c => decide (c.effective.toNat ≤ m.tick.toNat)).foldl (fun b c => minCode b c.limit) d
    criers := m.kept
    lead := if alone then m.cfgLead else field w 0 10
    silto := if alone then m.cfgSilto else field w 10 14
    gmax := if alone then m.cfgGmax else field w 24 8 }

/-- The round of this member's group. A member that leaves at it keeps its ceiling (R464), as does one that misses it, with the
Criers that bound it (R456). -/
def ownRound (s : State) : State :=
  let m := s.moot
  let p := m.reached
  let leaving := m.parting.contains m.slot
  let joiners := joinersOf m.params
  let s := if leaving then setMoot s { m with gceil := m.lowered (dueCriers s) }
    else if m.holdsRound && !m.missed then
      let s := joiners.foldl admitJoiner (adoptRound s)
      let s := if joiners.isEmpty then s else measureLatency s
      markSilent s m.parting false
    else s
  let s := if leaving || joiners.isEmpty || s.moot.alone || s.moot.state = 2 then s else setMoot s { s.moot with state := 1 }
  let s := liftClamp (raiseLimits (closeRound s m.tick m.round p) p) m.tick
  let s := if leaving then becomeAlone s else s
  startPeriods (recap m.cap s) m.round

/-- L is below the ceiling of the group that this package has just joined: its clock is cut as by R457. -/
def clampAtJoin (s : State) : State :=
  let m := s.moot
  if m.required.toNat < m.gceil.toNat then
    let e := s.bell + BitVec.ofNat 64 m.earliest
    sendCrier (setMoot s { m with clamp := some (m.required, e) }) m.required 6 true e
  else s

/-- This package joins at its planned instant: Bell, ceiling and parameters are the group's (R463). What it has announced and is
not yet in effect goes on, with as many ticks to go, and is announced to the group where it must be; the Criers that it has heard
bind it too (R454; DESIGN CHOICE: assumption 79). -/
def joinGroup (s : State) (j : JoinPlan) : State :=
  let m := s.moot
  let w := m.planParams.headD 0
  let togo (c : Crier) : BitVec 64 := j.tick + BitVec.ofNat 64 (c.effective.toNat - s.bell.toNat)
  let s := setMoot { s with bell := j.tick } { m with
    gceil := j.ceil, lead := field w 0 10, silto := field w 10 14, gmax := field w 24 8
    state := 1, criers := m.planCriers, own := [], joins := [], leaves := [], silents := [], plan := none, planParams := []
    planCriers := [], hist := [], hbNext := m.time, members := [] }
  let s := setMoot s { s.moot with gceil := s.moot.lowered (dueCriers s) }
  let s := addMember s j.slot j.pkg 96 0
  let s := measureLatency ((joinersOf m.planParams).foldl (fun s x => addMember s x.1 x.2 96 0) s)
  let s := liftClamp (closeRound s j.tick j.round (j.tick - BitVec.ofNat 64 (2 * s.moot.leadc))) j.tick
  let s := redoLimits m.own togo s
  startPeriods (recap m.cap (clampAtJoin s)) j.round

/-- The planned join is due: its ROUND and RPARAM messages are held. -/
def joinDue (s : State) : Option JoinPlan :=
  match s.moot.plan with
  | some j => if decide (j.at_.toNat ≤ s.bell.toNat) && paramsComplete s.moot.planParams then some j else none
  | none => none

def roundDue (s : State) : Bool := decide (s.moot.tick.toNat ≤ s.bell.toNat)

/-- ROUND_TICK (R455). -/
def execRoundTick (s : State) : Host.Outcome State Fault Refusal :=
  match joinDue s with
  | some j => .next (joinGroup s j)
  | none => .next (if roundDue s then ownRound s else s)

/-- The round is missed: its messages are not all held by B_k − LEADC (R456). -/
def missDue (s : State) : Bool :=
  let m := s.moot
  !m.missed && !m.holdsRound && decide (m.tick.toNat - m.leadc ≤ s.bell.toNat)

/-- ROUND_MISS (R456). -/
def execRoundMiss (s : State) : Host.Outcome State Fault Refusal :=
  if !missDue s then .next s else
  let m := s.moot
  let s := setMoot s { m with missed := true, rmiss := satAdd m.rmiss 1, nextDeadline := some m.reached }
  .next (sendCrier s m.gceil 7 false (s.bell + BitVec.ofNat 64 m.earliest))

/-- ROUND from the coordinator, of this group or of the one that this package joins (R455, R463). -/
def execRound (msg : MootMsg) (s : State) : Host.Outcome State Fault Refusal :=
  match acceptLive s msg true with
  | none => .next s
  | some s =>
    let m := s.moot
    if m.state = 3 then
      .next (setMoot s { m with plan := some ⟨s.bell + (msg.effective - msg.sent), msg.effective, msg.arg, msg.limit, msg.member,
                                              msg.pkg⟩ })
    else if msg.arg = m.round && msg.effective = m.tick && !m.missed && !m.alone then
      .next (setMoot s { m with decision := some msg.limit, nextDeadline := some m.reached })
    else .next s

/-- RPARAM (R455, R459). -/
def execRparam (msg : MootMsg) (s : State) : Host.Outcome State Fault Refusal :=
  match acceptLive s msg false with
  | none => .next s
  | some s =>
    let m := s.moot
    if m.state = 3 then .next (setMoot s { m with planParams := m.planParams ++ [msg.effective] })
    else if msg.arg = m.round && !m.missed && !m.alone then
      .next (tellJoiners (setMoot s { m with params := m.params ++ [msg.effective] }) [msg.effective])
    else .next s

/-! ### Heartbeats and silence (R461, R462, R465) -/

/-- The posting deadline of the next round is now, and its posting is still to be sent. -/
def postingDue (m : Moot) (bell : BitVec 64) : Bool := m.nextDeadline == some bell && m.hbSent != m.nextDeadline

/-- A heartbeat is due: every 20 µs of reference time, and, with the posting for the next round, at its posting deadline (DESIGN
CHOICE: assumption 79). -/
def heartbeatDue (s : State) : Bool := decide (s.moot.hbNext ≤ s.moot.time) || postingDue s.moot s.bell

/-- EFFECTIVE of a heartbeat, a field that heartbeats leave free: RPCAP_GROUP ID (R476), and in bit 16 whether the sender has still
to join (DESIGN CHOICE: assumption 79). -/
def Moot.beatWord (m : Moot) : BitVec 64 := 0#47 ++ bit1 (m.state = 3) ++ m.rackId

/-- HEARTBEAT_SEND (R461, R476): this member's posting, kept in its own row too; a group of one has no one to send it to. -/
def execHeartbeatSend (s : State) : Host.Outcome State Fault Refusal :=
  if !heartbeatDue s then .next s else
  let m := s.moot
  let v := m.post
  let t := if m.alone && m.state ≠ 3 then s
    else sendTo s 2 { newMsg s with limit := v, arg := m.round, effective := m.beatWord }
      (if m.state = 3 then neighbour s else m.others)
  .next (setMoot t { t.moot.updMember m.slot (fun x => x.posted s.bell v) with
    hbNext := if m.hbNext ≤ m.time then m.time + refMicros 20 else m.hbNext
    hbSent := if postingDue m s.bell then m.nextDeadline else m.hbSent })

/-- A heartbeat of a package that has still to join: the coordinator notes its posting, and another member passes it on (R463; DESIGN
CHOICE: assumption 79). -/
def joinerHeartbeat (s : State) (msg : MootMsg) : State :=
  let m := s.moot
  if isCoord s then setMoot s { m with joins := m.joins.map fun j => if j.pkg = msg.pkg then { j with posting := msg.limit } else j }
  else if m.state = 1 || m.state = 2 then
    sendTo s 2 { newMsg s with pkg := msg.pkg, limit := msg.limit, arg := msg.arg, effective := msg.effective } m.coordPkg
  else s

/-- HEARTBEAT from a member, or from a package that is about to join (R461, R463). A member that has joined lately learns the others
from theirs. -/
def execHeartbeat (msg : MootMsg) (s : State) : Host.Outcome State Fault Refusal :=
  let joining := bitAt msg.effective 16
  match if joining then accept s msg true else acceptLive s msg true with
  | none => .next s
  | some s =>
    let m := s.moot
    if joining then .next (joinerHeartbeat s msg)
    else if m.members.any fun x => x.slot == msg.member && x.pkg == msg.pkg && !x.left then
      .next (recap m.cap (setMoot s (m.updMember msg.member fun x =>
        if x.pkg = msg.pkg then { x.posted msg.sent msg.limit with rack := field msg.effective 0 16 } else x)))
    else if (m.state = 1 || m.state = 2) && !(m.alive.any fun x => x.slot == msg.member) then
      .next (recap m.cap (addMember s msg.member msg.pkg msg.limit (field msg.effective 0 16)))
    else .next s

/-- The first live member that has been silent for SILTO and that this member has still to report or, as coordinator, to
declare. -/
def silentDue (s : State) : Option (BitVec 8) :=
  (s.moot.alive.find? fun x => s.moot.unheard x && !(s.moot.silents.any fun q => q.1 == x.slot) && (isCoord s || !x.reported)).map
    (·.slot)

/-- The coordinator declares a member silent from the earliest tick on (R462). -/
def declareSilent (s : State) (member : BitVec 8) : State :=
  let e := s.bell + BitVec.ofNat 64 s.moot.earliest
  let s := sendMsg s 6 { newMsg s with effective := e, arg := member.setWidth 32 }
  setMoot s { s.moot with silents := s.moot.silents ++ [(member, e)] }

/-- PEER_SILENCE_TIMEOUT (R461, R462): the coordinator declares the member silent; another member reports it to the coordinator, by
a SILENT message without a tick, since Table 13.2 has no TYPE for a report (DESIGN CHOICE: assumption 79). -/
def execPeerSilenceTimeout (member : BitVec 8) (s : State) : Host.Outcome State Fault Refusal :=
  let m := s.moot
  if !(m.alive.any fun x => x.slot == member && m.unheard x) then .next s
  else if isCoord s then .next (declareSilent s member)
  else
    let s := sendTo s 6 { newMsg s with arg := member.setWidth 32 } m.coordPkg
    .next (setMoot s (s.moot.updMember member fun x => { x with reported := true }))

/-- SILENT from the coordinator (R458, R462), or a member's report to the coordinator, which then declares the member. -/
def execSilent (msg : MootMsg) (s : State) : Host.Outcome State Fault Refusal :=
  match acceptLive s msg false with
  | none => .next s
  | some s =>
    let slot : BitVec 8 := field msg.arg 0 8
    if msg.effective = 0 then
      .next (if isCoord s && slot ≠ s.moot.slot && (s.moot.alive.any fun x => x.slot == slot) &&
        !(s.moot.silents.any fun q => q.1 == slot) then declareSilent s slot else s)
    else
      let s := noteLate s msg
      .next (if slot = s.moot.slot then s else setMoot s { s.moot with silents := s.moot.silents ++ [(slot, msg.effective)] })

/-! ### Joining and leaving (R463, R464) -/

/-- The tick of effect by which the coordinator's answer to a JOIN says that the join is refused (DESIGN CHOICE: assumption
79). -/
def neverTick : BitVec 64 := BitVec.allOnes 64

/-- A JOIN that the coordinator must refuse: the slot is taken or does not exist, or the group is full (R463). -/
def joinRefused (m : Moot) (slot : BitVec 8) : Bool :=
  decide (143 < slot.toNat) || decide (144 ≤ m.alive.length + m.joins.length) || (m.alive.any fun x => x.slot == slot) ||
    m.joins.any fun j => j.slot == slot

/-- JOIN, received by the coordinator, or passed on to it; the answer to a package that may not join sets its REFUSED. LIMIT
holds the joiner's posting. -/
def execJoin (msg : MootMsg) (s : State) : Host.Outcome State Fault Refusal :=
  match accept s msg false with
  | none => .next s
  | some s =>
    let m := s.moot
    let slot : BitVec 8 := field msg.arg 0 8
    if msg.effective = neverTick || m.state = 3 then
      .next (if msg.effective = neverTick && m.state = 3 && slot = m.slot then
        setMoot s { m with refused := true, state := 0, plan := none, planParams := [], planCriers := [] } else s)
    else if !isCoord s then .next (sendTo s 4 { newMsg s with pkg := msg.pkg, arg := msg.arg, limit := msg.limit } m.coordPkg)
    else if joinRefused m slot then .next (sendTo s 4 { newMsg s with effective := neverTick, arg := msg.arg } [msg.pkg])
    else .next (setMoot s { m with
      joins := m.joins ++ [⟨slot, msg.pkg, s.bell, if stepOk msg.limit then msg.limit else 96⟩] })

/-- LEAVE: to the coordinator a request, from the coordinator the leave of the next round. -/
def execLeave (msg : MootMsg) (s : State) : Host.Outcome State Fault Refusal :=
  match acceptLive s msg false with
  | none => .next s
  | some s =>
    let m := s.moot
    let slot : BitVec 8 := field msg.arg 0 8
    if isCoord s then .next (setMoot s { m with leaves := m.leaves ++ [(slot, s.bell)] })
    else if msg.member = m.coordSlot && msg.effective = m.tick then .next (setMoot s { m with parting := m.parting ++ [slot] })
    else .next (sendTo s 5 { newMsg s with arg := msg.arg } m.coordPkg)

/-- The JOIN command (R463). -/
def joinCommand (s : State) (place : BitVec 8) : State :=
  let m := s.moot
  let slot : BitVec 8 := if 143 < place.toNat then 143 else place
  let enabled := (List.range 16).any fun i => let p := getPart s (BitVec.ofNat 4 i); p.en && !p.halted
  if !m.alone || enabled || m.state = 3 then setMoot s { m with refused := true }
  else
    let s := setMoot s { m with slot := slot, state := 3, plan := none, planParams := [], planCriers := [], hbNext := m.time
                                members := m.members.map fun x => { x with slot := slot, pkg := s.pkgNo } }
    sendTo s 4 { newMsg s with arg := slot.setWidth 32, limit := s.moot.post } (neighbour s)

/-- MOOT.CMD JOIN. -/
def execMootJoinCommand (place : BitVec 8) (s : State) : Host.Outcome State Fault Refusal := .next (joinCommand s place)

/-- The LEAVE command (R464); a group of one has nothing to leave. -/
def leaveCommand (s : State) : State :=
  let m := s.moot
  if m.state ≠ 1 && m.state ≠ 2 then setMoot s { m with refused := true }
  else if isCoord s then setMoot s { m with leaves := m.leaves ++ [(m.slot, s.bell)], state := 4 }
  else
    let t := sendTo s 5 { newMsg s with arg := m.slot.setWidth 32 } m.coordPkg
    setMoot t { t.moot with state := 4 }

/-- MOOT.CMD LEAVE. -/
def execMootLeaveCommand (s : State) : Host.Outcome State Fault Refusal := .next (leaveCommand s)

/-! ### Sensors and the rack cap (R473, R476) -/

/-- Neighbours of a site in the 8 × 8 grid. -/
def siteNeighbours (n : Nat) : List Nat :=
  (List.range 64).filter fun k => k ≠ n && decide (k / 8 ≤ n / 8 + 1) && decide (n / 8 ≤ k / 8 + 1) &&
    decide (k % 8 ≤ n % 8 + 1) && decide (n % 8 ≤ k % 8 + 1)

/-- A site whose neighbours have all failed. -/
def blindSite (f : BitVec 64) : Bool :=
  (List.range 64).any fun n => (siteNeighbours n).all fun k => bitAt f k

/-- Some die has a blind site. -/
def anyBlind (s : State) : Bool := s.moot.sensFail.toList.any blindSite

/-- A site is marked failed and reported (R473). -/
def failSensor (s : State) (die : BitVec 3) (site : BitVec 6) : State :=
  let m := s.moot
  let f := m.sensFail[die.toNat] ||| (1#64 <<< site.toNat)
  let s := report (setMoot s { m with sensFail := m.sensFail.set die.toNat f }) (.sensor die site)
  if blindSite f then changeLimit s .sensor 32 5 s.bell else s

/-- SENSOR_FAIL (R473). -/
def execSensorFail (die : BitVec 3) (site : BitVec 6) (s : State) : Host.Outcome State Fault Refusal := .next (failSensor s die site)

/-- The `k`-th least of some numbers, from 0. -/
def nthLeast (l : List Int) (k : Nat) : Int :=
  (l.find? fun x => decide ((l.filter fun y => decide (y < x)).length ≤ k) &&
    decide (k < (l.filter fun y => decide (y ≤ x)).length)).getD 0

/-- Their median: of an even number of them the mean of the two in the middle, rounded down (DESIGN CHOICE: assumption 86). -/
def medianOf (l : List Int) : Int := (nthLeast l ((l.length - 1) / 2) + nthLeast l (l.length / 2)) / 2

/-- A site is marked failed. -/
def Moot.siteFailed (m : Moot) (die : BitVec 3) (n : Nat) : Bool := bitAt m.sensFail[die.toNat] n

/-- What the sensor of a site shows. -/
def Moot.siteRaw (m : Moot) (die : BitVec 3) (n : Nat) : Option Site := m.sites.find? fun x => x.die == die && x.site.toNat == n

/-- Temperature and current that count for a site: its own, or in place of a failed one the maximum of its sound neighbours', plus
3 °C and 5 % of full scale. -/
def Moot.siteReading (m : Moot) (die : BitVec 3) (n : Nat) : Option (Int × Int) :=
  if !m.siteFailed die n then (m.siteRaw die n).map fun x => (x.temp, x.cur)
  else
    match ((siteNeighbours n).filter fun k => !m.siteFailed die k).filterMap (m.siteRaw die) with
    | [] => none
    | x :: r => some (r.foldl (fun b y => max b y.temp) x.temp + 3000, r.foldl (fun b y => max b y.cur) x.cur + 500)

/-- R473: a reading that has not changed for 10 ms, is outside the sensor's range, or differs from the median of its neighbours by
more than 15 °C, or 25 % of full scale. -/
def Moot.siteBad (m : Moot) (x : Site) : Bool :=
  let near := (siteNeighbours x.site.toNat).filterMap (m.siteReading x.die)
  let far (v : Int) (l : List Int) (d : Int) : Bool :=
    !l.isEmpty && (decide (v < medianOf l - d) || decide (medianOf l + d < v))
  !x.inRange || decide (x.since + refMicros 10000 ≤ m.time) || far x.temp (near.map (·.1)) 15000 ||
    far x.cur (near.map (·.2)) 2500

/-- Sites under test that meet a condition are marked. -/
def markSensors (s : State) : State :=
  s.moot.sites.foldl (fun s x => if !s.moot.siteFailed x.die x.site.toNat && s.moot.siteBad x then failSensor s x.die x.site else s) s

/-- A sensor is read. -/
def Moot.sense (m : Moot) (x : Site) : Moot :=
  let since := match m.siteRaw x.die x.site.toNat with
    | some y => if y.temp = x.temp && y.cur = x.cur then y.since else m.time
    | none => m.time
  { m with sites := m.sites.filter (fun y => !(y.die == x.die && y.site == x.site)) ++ [{ x with since := since }] }

/-- Sites of SENS.FAIL are put back under test. -/
def clearSensors (s : State) (die : BitVec 3) (mask : BitVec 64) : State :=
  let m := s.moot
  let s := setMoot s { m with sensFail := m.sensFail.set die.toNat (m.sensFail[die.toNat] &&& ~~~mask) }
  if anyBlind s then s else changeLimit s .sensor 96 5 s.bell

/-- SENS_FAIL_CLEAR. -/
def execSensFailClear (die : BitVec 3) (mask : BitVec 64) (s : State) : Host.Outcome State Fault Refusal :=
  .next (clearSensors s die mask)

/-- A write of RPCAP: the cap, and the code that the power limiter requires under it (R470, R476). -/
def writeCap (s : State) (cap : BitVec 13) (code : BitVec 8) (effective : BitVec 64) : State :=
  let c := if cap.toNat < 1500 then 1500#13 else if 4800 < cap.toNat then 4800#13 else cap
  capLimit (setMoot s { s.moot with rpcap := c }) s.moot.cap code effective

/-- RPCAP_WRITE. -/
def execRpcapWrite (cap : BitVec 13) (code : BitVec 8) (effective : BitVec 64) (s : State) :
    Host.Outcome State Fault Refusal := .next (writeCap s cap code effective)

/-! ### gclkr and bellw (R466 to R468) -/

/-- GCLK (Table 13.5). -/
def gclkWord (m : Moot) : BitVec 64 :=
  0#21 ++ m.state ++ BitVec.ofNat 8 m.alive.length ++ m.gmax ++ m.coreCode ++ m.limit ++ m.gceil

/-- GCLK as it stood at a Bell tick: at the present one as it stands, at an earlier one as it stood when that tick had
passed. -/
def gclkAt (s : State) (t : BitVec 64) : BitVec 64 :=
  if t = s.bell then gclkWord s.moot else
  match (s.moot.hist.filter fun x => decide (x.1.toNat ≤ t.toNat)).getLast? with
  | some x => x.2
  | none => gclkWord s.moot

/-- GCLK as a program reads it: under DET rounded down to its period, with LOCAL and CORE withheld (R467). -/
def gclkRead (s : State) : BitVec 64 :=
  if s.ctx.det then gclkAt s (bellRead s) &&& ~~~0xFFFF00#64 else gclkWord s.moot

/-- gclkr (R467). -/
def execGclkr (h : Hdr) (ad : BitVec 5) (s : State) : Host.Outcome State Fault Refusal :=
  issuePrivate s .ctl h none (encodingOk (.gclkr h ad) false) [] noNeed fun s =>
    .done (addVarOp s .ctl (destWrite ad (gclkRead s)) .result)

/-- bellw (R468). -/
def execBellw (h : Hdr) (aa : BitVec 5) (imm : BitVec 13) (s : State) : Host.Outcome State Fault Refusal :=
  issuePrivate s .ctl h none (encodingOk (.bellw h aa imm) false) [ra aa] noNeed fun s =>
    let t := readA s .ctl aa + imm.setWidth 64
    if t.toNat ≤ s.bell.toNat then .done s else .wait s (.bell t)

/-- The Steward's bellw has reached its target. -/
def bellReached (s : State) : Bool :=
  match (s.eng .ctl).wait with
  | some ⟨.bell t, _, _⟩ => decide (t.toNat ≤ s.bell.toNat)
  | _ => false

/-- BELL_TARGET_REACHED (R468): the wait ends. -/
def execBellTargetReached (s : State) : Host.Outcome State Fault Refusal :=
  .next (if bellReached s then s.setEng .ctl { (s.eng .ctl) with wait := none, feWait := none } else s)

/-! ### The passing of a Bell tick (R450, R457, R467) -/

/-- Whether the cores take a cycle at this Bell tick: a clamped member's cores skip some. -/
def coreTicks (m : Moot) : Bool × Nat :=
  match m.clamp with
  | none => (true, m.skip)
  | some _ =>
    let n := m.skip + m.coreCode.toNat
    if m.gceil.toNat ≤ n then (true, n - m.gceil.toNat) else (false, n)

/-- A Bell tick passes: GCLK's history keeps what the tick leaves, reference time goes on by a group cycle (R450), and the posting
deadline is noted when it is reached. -/
def mootTick (s : State) : State :=
  let m := s.moot
  let w := gclkWord m
  let hist := match m.hist.getLast? with
    | some x => if x.2 = w then m.hist else m.hist ++ [(s.bell, w)]
    | none => [(s.bell, w)]
  let s := setMoot { s with bell := s.bell + 1 } { m with hist := hist, time := m.time + refUnit / m.gceil.toNat }
  setMoot s { s.moot with
    nextDeadline := if deadlineReached s then some m.reached else none }

end Sys2Proof.Machine
end

