-- ==== Sys2Proof/Machine/SysRegs.lean ====
section
/-! DEFINITION. System registers by number and csrr and csrw (R154, R183): reserved and write-only fields read zero, and
writes of reserved and read-only fields are ignored. -/
namespace Sys2Proof.Machine

/-! ### Reading -/

/-- CORE.ID (Table 4.2). -/
def coreId (s : State) : BitVec 64 := 0#41 ++ s.pkgNo ++ s.ctx.slot ++ s.ctx.part ++ s.coreNo

/-- TOKEN.STATE (Table 1.6). -/
def tokenState (s : State) : BitVec 64 :=
  BitVec.ofNat 64 ((List.range 10).foldl (fun n i => n + tokGet s i * 16 ^ i) 0)

/-- MWINS (Table 6.3). -/
def mwins (s : State) : BitVec 64 :=
  let w (i : Nat) : BitVec 8 := ((runPath s).tiles.getD i Tile.reset).w.signExtend 8
  0#32 ++ w 3 ++ w 2 ++ w 1 ++ w 0

/-- MECC (Table 6.6). -/
def meccWord (m : MxCtx) : BitVec 64 := bit1 m.meccValid ++ bit1 m.meccMore ++ m.meccKind ++ m.meccI2 ++ m.meccI1 ++ m.meccI0

/-- ARRIVE.n (Table 8.1). -/
def arriveWord (b : Bte) (n : Nat) : BitVec 64 :=
  let c (i : Nat) : BitVec 16 := let x := b.arrive.getD (4 * n + i) (0, false); bit1 x.2 ++ x.1
  c 3 ++ c 2 ++ c 1 ++ c 0

/-- The value of a system register. -/
def sysRead (s : State) (n : Nat) : BitVec 64 :=
  let c := s.ctx
  let v := c.vec
  let m := c.mx
  let b := c.bte
  let w := (runPath s).sow
  match n with
  | 0x000 => coreId s
  | 0x010 => c.window.setWidth 64
  | 0x011 => 0#60 ++ bit1 c.thrrun ++ bit1 c.det ++ 0#1 ++ bit1 c.schk
  | 0x012 => 0#12 ++ c.frec ++ 0#6
  | 0x013 => c.perlog2.setWidth 64
  | 0x014 => 0#32 ++ c.feto ++ c.tokto
  | 0x015 => tokenState s
  | 0x020 => 0#50 ++ c.winCount ++ 0#2 ++ c.winBase
  | 0x030 => 0#44 ++ bit1 v.fz ++ v.rm ++ 0#7 ++ vctlFlags v.flags
  | 0x031 => v.stream ++ v.seed
  | 0x032 => v.ibase.setWidth 64
  | 0x033 => v.undcnt ++ v.satcnt
  | 0x040 => mstatValue s
  | 0x041 => mwins s
  | 0x042 => 0#59 ++ m.zCount ++ m.zBase
  | 0x043 => meccWord m
  | 0x044 => m.mdseq.setWidth 64
  | 0x045 => m.msrStream ++ m.msrSeed
  | 0x050 => w.seed.setWidth 64
  | 0x051 => w.stream.setWidth 64
  | 0x052 => w.ibase.setWidth 64
  | 0x053 => 0#62 ++ bit1 m.ref ++ bit1 w.en
  | 0x060 => arriveWord b 0
  | 0x061 => arriveWord b 1
  | 0x062 => arriveWord b 2
  | 0x063 => arriveWord b 3
  | 0x064 => b.sretry.setWidth 64
  | 0x065 => 0#32 ++ b.iseq ++ 0#8 ++ BitVec.ofNat 8 (s.ops.filter Op.isCopy).length
  | 0x066 => 0#12 ++ b.ringAddr ++ b.ringLog2 ++ bit1 b.ringSpace ++ bit1 b.ringEn
  | 0x067 => 0#31 ++ bit1 b.herr ++ b.tail ++ b.head
  | 0x068 => 0#12 ++ b.dstore ++ 0#12
  | 0x069 => b.nblk.setWidth 64
  | 0x06A => 0#12 ++ b.dtable ++ 0#7 ++ b.dlog2
  | 0x06B => 0#12 ++ b.dfree ++ 0#6
  | 0x070 => reeveReg s 0
  | 0x071 => reeveReg s 1
  | 0x072 => reeveReg s 2
  | 0x073 => reeveReg s 3
  | 0x074 => reeveReg s 4
  | 0x075 => reeveReg s 5
  | 0x076 => reeveReg s 6
  | 0x077 => reeveReg s 7
  | 0x078 => reeveReg s 8
  | 0x079 => reeveReg s 9
  | 0x080 => thrReg s 0x080
  | 0x081 => thrReg s 0x081
  | 0x082 => thrReg s 0x082
  | 0x083 => thrReg s 0x083
  | 0x084 => thrReg s 0x084
  | 0x090 => 0#32 ++ c.paceExtra ++ c.pace[0]
  | 0x091 => 0#32 ++ c.paceExtra ++ c.pace[1]
  | 0x092 => 0#32 ++ c.paceExtra ++ c.pace[2]
  | 0x093 => 0#32 ++ c.paceExtra ++ c.pace[3]
  | 0x094 => 0#32 ++ c.paceExtra ++ c.pace[4]
  | 0x095 => bellRead s
  | 0x096 => gclkWord s.moot
  | 0x097 => s.moot.tick
  | 0x098 => let p := getPart s c.part; bit1 p.exh ++ 0#31 ++ p.remain
  | 0x0A0 => 0#34 ++ c.taskQueue ++ 0#8 ++ bit1 c.taskHandler ++ 0#4 ++ c.taskStage
  | 0x0A1 => s.disp.gen ++ 0#30 ++ s.disp.last
  | _ => 0

/-! ### Writing -/

def setVec (s : State) (v : Vec) : State := setCtx s { s.ctx with vec := v }
def setBte (s : State) (b : Bte) : State := setCtx s { s.ctx with bte := b }

/-- A write of ARRIVE.n: COUNT is written, FAULT is cleared by 1. -/
def putArrive (s : State) (n : Nat) (v : BitVec 64) : State :=
  let b := s.ctx.bte
  setBte s { b with arrive := (List.range 4).foldl (fun a i =>
    let x := a.getD (4 * n + i) (0, false)
    a.setIfInBounds (4 * n + i) (field v (16 * i) 15, x.2 && !bitAt v (16 * i + 15))) b.arrive }

/-- A write of MECC: VALID and MORE are cleared by 1. -/
def putMecc (s : State) (v : BitVec 64) : State :=
  let m := s.ctx.mx
  setMxCtx s { m with meccValid := m.meccValid && !bitAt v 63, meccMore := m.meccMore && !bitAt v 62 }

/-- A write of CRING.BASE (Table 8.4). -/
def putCring (s : State) (v : BitVec 64) : State :=
  setBte s { s.ctx.bte with ringAddr := field v 6 46, ringLog2 := if (field v 2 4).toNat < 4 then 4#4 else field v 2 4,
                            ringSpace := bitAt v 1, ringEn := bitAt v 0 }

/-- A write of CRING.IDX (R307): HERR is cleared by 1, then HEAD is written. -/
def putCringIdx (s : State) (v : BitVec 64) : State :=
  let b := s.ctx.bte
  let b := if bitAt v 32 then { b with herr := false } else b
  let hd := field v 0 16
  setBte s (if (b.tail - hd).toNat ≤ 2 ^ b.ringLog2.toNat then { b with head := hd } else { b with herr := true })

/-- A write of REEVE.LOG (Table 9.6). -/
def putReeveLog (s : State) (v : BitVec 64) : State :=
  setMxCtx s { s.ctx.mx with logAddr := field v 6 46, logLog2 := if 12 < (field v 2 4).toNat then 12#4 else field v 2 4,
                             logSpace := bitAt v 1, logEn := bitAt v 0 }

/-- A write of a system register under the Access codes of R3. -/
def sysWrite (s : State) (n : Nat) (v : BitVec 64) : State :=
  let c := s.ctx
  let x := c.vec
  let m := c.mx
  let b := c.bte
  match n with
  | 0x010 => setCtx s { c with window := clampWindow ((field v 0 13).toNat : Int) }
  | 0x011 => setCtx s { c with schk := bitAt v 0 }
  | 0x030 => setVec s { x with fz := bitAt v 19, rm := field v 16 3, flags := vctlClear x.flags v }
  | 0x031 => setVec s { x with seed := field v 0 32, stream := field v 32 32 }
  | 0x032 => setVec s { x with ibase := field v 0 32 }
  | 0x033 => setVec s { x with satcnt := field v 0 32, undcnt := field v 32 32 }
  | 0x040 => setMxCtx s { m with flags := mstatClear m.flags v }
  | 0x043 => putMecc s v
  | 0x045 => setMxCtx s { m with msrSeed := field v 0 32, msrStream := field v 32 32 }
  | 0x050 => setSow s fun w => { w with seed := field v 0 32 }
  | 0x051 => setSow s fun w => { w with stream := field v 0 32 }
  | 0x052 => setSow s fun w => { w with ibase := field v 0 32 }
  | 0x053 => setSow s fun w => { w with en := bitAt v 0 }
  | 0x060 => putArrive s 0 v
  | 0x061 => putArrive s 1 v
  | 0x062 => putArrive s 2 v
  | 0x063 => putArrive s 3 v
  | 0x066 => putCring s v
  | 0x067 => putCringIdx s v
  | 0x068 => setBte s { b with dstore := field v 12 40 }
  | 0x069 => setBte s { b with nblk := field v 0 32 }
  | 0x06A => setBte s { b with dtable := field v 12 40, dlog2 := field v 0 5 }
  | 0x06B => setBte s { b with dfree := field v 6 46 }
  | 0x072 => if s.mx.modeok then putReeveMode s v else s
  | 0x073 => putReeveLog s v
  | 0x074 => setMxCtx s { m with logLost := m.logLost && !bitAt v 32 }
  | 0x080 => putThrReg s 0x080 v
  | 0x081 => putThrReg s 0x081 v
  | 0x082 => putThrReg s 0x082 v
  | 0x083 => putThrReg s 0x083 v
  | _ => s

/-! ### csrr and csrw (R183) -/

def execCsrr (h : Hdr) (reg : BitVec 12) (ad : BitVec 5) (s : State) : Host.Outcome State Fault Refusal :=
  issuePrivate s .ctl h none (encodingOk (.csrr h reg ad) false) [] (accessNeed .ctl false false) fun s =>
    .done (addVarOp s .ctl (destWrite ad (sysRead s reg.toNat)) .sysRead)

def execCsrw (h : Hdr) (reg : BitVec 12) (aa : BitVec 5) (s : State) : Host.Outcome State Fault Refusal :=
  issuePrivate s .ctl h none (encodingOk (.csrw h reg aa) false) [ra aa] noNeed fun s =>
    .done (sysWrite s reg.toNat (readA s .ctl aa))

end Sys2Proof.Machine
end

