-- ==== Sys2Proof/Machine/Links.lean ====
section
/-! DEFINITION. Rilaic ports and flits, control registers of the package aperture, the host and management ports, start-up
and RAS (chapter 14). -/
namespace Sys2Proof.Machine

/-! ### Flits (R477, R478) -/

/-- A port whose link is gone: what it had not had acknowledged or answered is to be sent by another route (R479); what a package that
is gone was to get fails (R462). -/
def dropLink (s : State) (p : Nat) (x : Port) : State :=
  let s := stampWaiting s
  let y := getPort s p
  let again := (y.unanswered ++ y.replayBuf.map (·.out)).map fun o => { o with since := s.moot.time }
  let s := setPort { s with outq := again ++ s.outq } p
    { x with width := 0, replayBuf := [], unanswered := [], resends := 0, retrain := none }
  pump (failRequests s (silentPkg s))

/-- The port goes DOWN (R478, R480). -/
def portDown (s : State) (p : Nat) : State :=
  report (dropLink s p { (getPort s p) with state := 3 }) (.linkDown p)

/-- Answers a damaged or out-of-sequence flit, once. -/
def sendNak (s : State) (p : Nat) : State :=
  let x := getPort s p
  if x.naked then s else setPort s p { x with naked := true, sent := x.sent ++ [controlFlit s x.rxNext true x.peer] }

/-- Resends the replay buffer in order; RMAX resends in a row take the port down. -/
def resend (s : State) (p : Nat) : State :=
  let x := getPort s p
  if x.replayBuf.isEmpty then s
  else if x.rmax.toNat ≤ x.resends then portDown s p
  else setPort s p { x with
    sent := x.sent ++ x.replayBuf.map (·.bytes), replay := satAdd x.replay x.replayBuf.length, resends := x.resends + 1
    sentAt := s.moot.time }

/-- No ACK has come within RTO nanoseconds of the sending of the oldest unacknowledged flit (R478). -/
def replayDue (s : State) (x : Port) : Bool :=
  (x.state = 2 || x.state = 4) && x.retrain.isNone && !x.replayBuf.isEmpty && decide (x.rto.toNat * 25 * refUnit ≤ 1000 * (s.moot.time - x.sentAt))

/-- ACK: flits before it are acknowledged, which makes room for others; the requests among them wait for their answers. -/
def takeAck (s : State) (p : Nat) (ack : BitVec 8) : State :=
  let x := getPort s p
  if ack = x.txNext || x.replayBuf.any (fun f => f.seqNo == ack) then
    let rest := x.replayBuf.dropWhile fun f => f.seqNo != ack
    let asked := ((x.replayBuf.takeWhile fun f => f.seqNo != ack).map (·.out)).filter fun o => o.cls == 0#3
    if rest.length < x.replayBuf.length then pump (setPort s p { x with
      replayBuf := rest, unanswered := x.unanswered ++ asked, resends := 0, sentAt := s.moot.time })
    else s
  else s

/-- A Moot message at offset 0 of a flit's payload (Table 13.2). -/
def mootMsgOf (b : List Byte) : BitVec 4 × MootMsg :=
  let w (o : Nat) : BitVec 64 := BitVec.ofNat 64 (leValue ((b.drop o).take 8))
  let x := w 0x18
  (field (w 0) 0 4,
   { member := field (w 0) 8 8, pkg := field (w 0) 16 10, seqNo := field (w 0) 32 32, effective := w 8, sent := w 16,
     limit := field x 0 8, cause := field x 8 4, unann := bitAt x 12, gid := field x 16 16, arg := field x 32 32 })

/-- The event that a message of a TYPE is; a reserved TYPE is discarded (R459). -/
def mootEvent (m : BitVec 4 × MootMsg) : Option Instr :=
  match m.1.toNat with
  | 1 => some (.crier m.2)
  | 2 => some (.heartbeat m.2)
  | 3 => some (.round m.2)
  | 4 => some (.join m.2)
  | 5 => some (.leave m.2)
  | 6 => some (.silent m.2)
  | 7 => some (.rparam m.2)
  | _ => none

/-- A response from a package answers the oldest request to it that waits for an answer, on this port or else on another (DESIGN
CHOICE: assumption 58); requests to its page may take another port from now on (R482). -/
def answerRequest (s : State) (p : Nat) (pkg : BitVec 10) : State :=
  let waits (i : Nat) : Option Outbound := (getPort s i).unanswered.find? fun o => o.dpkg == pkg
  match (p :: List.range 24).find? fun i => (waits i).isSome with
  | some i => (match waits i with
    | some o => pump (setPort s i { (getPort s i) with unanswered := (getPort s i).unanswered.erase o })
    | none => s)
  | none => s

/-- An accepted flit is acknowledged and handed on: a Moot message to the Moot, a request gets its response, and a response or bulk
data answer a request; a quiescing port
takes no new request (R483). The spec lays out no payload but the Moot's, so what a request asks for stays outside the model
(DESIGN CHOICE: assumption 58). -/
def deliver (s : State) (p : Nat) (f : List Byte) : State :=
  let x := getPort s p
  let h := flitHeader f
  let cls := (field h 17 3).toNat
  let taken := !(x.state = 4 && cls = 0)
  let s := setPort s p { x with
    rxNext := x.rxNext + 1, naked := false
    sent := x.sent ++ [controlFlit s (x.rxNext + 1) false x.peer]
    delivered := if taken then x.delivered ++ [f] else x.delivered }
  if cls = 3 then
    match mootEvent (mootMsgOf f) with
    | some i => post s i
    | none => s
  else if cls = 0 && taken then
    sendOut { s with free := s.free + 1 } [{ cls := 1, dpkg := field h 42 10, key := 0, payload := openPayload s 0 }]
  else if cls = 1 || cls = 2 then answerRequest s p (field h 42 10)
  else s

/-- Sound lanes of a port, of its four and the spare. -/
def Port.sound (x : Port) : Nat := ((List.range 5).filter fun i => !bitAt x.badlane i).length

/-- Width with the lanes that are sound: four lanes while at most one of the five is retired, then two. -/
def Port.laneWidth (x : Port) : BitVec 2 := if 4 ≤ x.sound then 2 else 1

/-- A lane of a port is retired (R480): its traffic moves to the spare between two flits; with the spare in use the port retrains on
two lanes, which takes it 10 µs (DESIGN CHOICE: assumption 58). -/
def spareLane (s : State) (p : Nat) (lane : BitVec 3) : State :=
  let x := getPort s p
  if 4 < lane.toNat || bitAt x.badlane lane.toNat then s
  else
    let y := { x with badlane := x.badlane ||| (1#5 <<< lane.toNat) }
    let spared := x.badlane = 0 && lane ≠ 4
    let y := { y with
      lspare := x.lspare || spared
      retrain := if x.width ≠ 0 && y.laneWidth ≠ x.width then some (s.moot.time + refMicros 10) else x.retrain }
    let s := report (setPort s p y) (.lane p)
    if y.sound < 2 then portDown s p else s

/-- A received flit counts in the port's window, and a damaged one against the lane that damaged it; the lane whose count reaches
LTHR with this flit (R480). -/
def Port.countFlit (x : Port) (bad : Bool) : Port × Option (BitVec 3) :=
  let lane := if bad then x.damagedBy.head? else none
  let hits := match lane with
    | some l => x.laneHits.setIfInBounds l.toNat (x.laneHits.getD l.toNat 0 + 1)
    | none => x.laneHits
  let wraps := x.window + 1 = 2 ^ 24
  ({ x with
      damaged := if bad then satAdd x.damaged 1 else x.damaged
      damagedBy := if bad then x.damagedBy.tail else x.damagedBy
      laneHits := if wraps then Vector.replicate 5 0 else hits
      window := if wraps then 0 else x.window + 1 },
   lane.filter fun l => !bitAt x.badlane l.toNat && hits.getD l.toNat 0 == max 1 x.lthr.toNat)

/-- The port counts a received flit; a lane that reaches LTHR is retired. -/
def countFlit (s : State) (p : Nat) (bad : Bool) : State :=
  let c := (getPort s p).countFlit bad
  let s := setPort s p c.1
  match c.2 with
  | some l => spareLane s p l
  | none => s

/-- FLIT_RECEIVE (R477, R478); nothing comes in while the port retrains. -/
def execFlitReceive (p : Nat) (f : List Byte) (s : State) : Host.Outcome State Fault Refusal :=
  let x := getPort s p
  if (x.state ≠ 2 && x.state ≠ 4) || x.retrain.isSome then .next s
  else if flitDamaged f then .next (sendNak (countFlit s p true) p)
  else
    let h := flitHeader f
    let s := takeAck (countFlit s p false) p (field h 8 8)
    let s := if bitAt h 16 then resend s p else s
    if (getPort s p).state = 3 || field h 17 3 = 4#3 then .next s
    else if field h 0 8 = (getPort s p).rxNext then .next (deliver s p f)
    else .next (sendNak s p)

/-- REPLAY_TIMEOUT (R478): resends from the oldest unacknowledged flit. -/
def execReplayTimeout (p : Nat) (s : State) : Host.Outcome State Fault Refusal :=
  .next (if (getPort s p).state = 2 || (getPort s p).state = 4 then resend s p else s)

/-- LINK_DOWN. -/
def execLinkDown (p : Nat) (s : State) : Host.Outcome State Fault Refusal := .next (portDown s p)

/-- LINK_UP: a port with EN set has trained. -/
def execLinkUp (p : Nat) (peer : BitVec 10) (s : State) : Host.Outcome State Fault Refusal :=
  let x := getPort s p
  if !x.en || x.sound < 2 then .next s
  else .next (pump (report (setPort s p { x with
    state := 2, width := x.laneWidth, peer := peer, txNext := 0, rxNext := 0, replayBuf := [], resends := 0, naked := false
    laneHits := Vector.replicate 5 0, window := 0, retrain := none })
    (.linkUp p)))

/-- LINK_OFF: the far end sent OFF (R483). -/
def execLinkOff (p : Nat) (s : State) : Host.Outcome State Fault Refusal :=
  .next (dropLink s p { (getPort s p) with state := 0 })

/-- LANE_SPARE (R480): a lane crosses LTHR. -/
def execLaneSpare (p : Nat) (lane : BitVec 3) (s : State) : Host.Outcome State Fault Refusal := .next (spareLane s p lane)

/-- A retraining that has lasted its time. -/
def Port.retrained (x : Port) (now : Nat) : Bool := match x.retrain with
  | some t => decide (t ≤ now)
  | none => false

/-- Ports whose retraining ends now run on the lanes that are sound; the change of width is reported. -/
def endRetraining (s : State) : State :=
  let due := (List.range 24).filter fun p => (getPort s p).retrained s.moot.time
  if due.isEmpty then s else
  pump (due.foldl (fun s p =>
    let x := getPort s p
    report (setPort s p { x with width := x.laneWidth, retrain := none, sentAt := s.moot.time }) (.lane p)) s)

/-! ### Waiting for a route (R482) -/

/-- A package of the issuer's group: the Moot alone declares it silent. -/
def inGroup (s : State) (p : Nat) : Bool := s.moot.members.any fun m => m.pkg.toNat == p && !m.left

/-- A wait for a route has lasted SILTO. -/
def routeExpired (s : State) (since : Nat) : Bool := decide (s.moot.siltoTime ≤ s.moot.time - since)

/-- The package for which an engine that runs has waited too long. -/
def routeWait (s : State) (e : Engine) : Option Nat :=
  match (s.eng e).wait with
  | some ⟨.route q, _, b⟩ => if engineRuns s e && routeExpired s b then some q else none
  | _ => none

/-- Engines whose wait for a package has expired. -/
def routeEngines (s : State) (p : Nat) : List Engine := allEngines.filter fun e => routeWait s e == some p

/-- A request has waited too long for a route. -/
def requestExpired (s : State) (o : Outbound) : Bool :=
  o.cls == 0#3 && (sendPorts s o.dpkg.toNat).isEmpty && routeExpired s o.since

/-- Operations whose wait has expired. -/
def routeOps (s : State) (p : Nat) : List Op :=
  s.ops.filter fun o => match o.route with
    | some (q, b) => q == p && routeExpired s b
    | none => false

/-- The first package outside the group for which something has waited too long. -/
def routeDue (s : State) : Option Nat :=
  let es := allEngines.filterMap (routeWait s)
  let os := s.ops.filterMap fun o => match o.route with
    | some (q, b) => if routeExpired s b then some q else none
    | none => none
  let qs := (s.outq.filter (requestExpired s)).map (·.dpkg.toNat)
  (es ++ os ++ qs).find? fun p => !inGroup s p

/-- The operation ends now, with its package unreachable. -/
def endUnreached (s : State) (o : Op) : State :=
  let out := match o.kind with
    | .mx (.load _ _) => execMloadFillComplete o.id s
    | .mx (.stream _ _ _ _ _ _) => execMstreamComplete o.id s
    | .mx _ => execRegisterResultLanding o.id s
    | .copy _ => execCopyCompletion o.id s
    | _ => .next s
  match out with
  | .next t => t
  | _ => s

/-- ROUTE_WAIT_TIMEOUT (R482): what has waited SILTO for a package outside the group fails with PEER_SILENT. -/
def execRouteWaitTimeout (pkg : BitVec 10) (s : State) : Host.Outcome State Fault Refusal :=
  let p := pkg.toNat
  if inGroup s p then .next s else
  let s := report s (.unreachable pkg)
  let s := match routeEngines s p with
    | e :: _ => raise s e { code := .peerSilent, tag := boundaryTag s e, op0 := silentOperand s p }
    | [] => s
  let s := if s.outq.any fun o => o.dpkg = pkg && requestExpired s o then failRequests s (· == p) else s
  let lost := setMoot s { s.moot with lost := [pkg] }
  let t := (routeOps s p).foldl endUnreached lost
  let t := { t with ops := t.ops.map fun o => if o.route.any (fun r => r.1 == p) then { o with route := none } else o }
  .next (setMoot t { t.moot with lost := [] })

/-! ### Management commands (R483, R490) -/

/-- Enabled partitions. -/
def enabledParts (s : State) : List (BitVec 4) :=
  (List.range 16).filterMap fun i => if (getPart s (BitVec.ofNat 4 i)).en then some (BitVec.ofNat 4 i) else none

/-- Changes every port. -/
def mapPorts (s : State) (f : Port → Port) : State := { s with ports := s.ports.map f }

/-- What the next step of a quiesce waits for: the halted cores' work, and the leave. -/
def quiesceReady (s : State) : Bool := s.host.quiescing && s.ops.isEmpty && s.mx.pound.isEmpty && s.moot.state ≠ 4

/-- A quiescing port still has flits to send or unacknowledged ones. -/
def portsDraining (s : State) : Bool :=
  (s.ports.any fun p => p.state = 4 && !p.replayBuf.isEmpty) ||
    ((s.ports.any fun p => p.state = 4) && s.outq.any fun o => !(sendPorts s o.dpkg.toNat).isEmpty)

/-- The next step of a quiesce can be taken. -/
def quiesceDue (s : State) : Bool := quiesceReady s && ((s.ports.any fun p => p.state = 2) || !portsDraining s)

/-- A step of a quiesce (R483): the partitions halt and the group is left; then the ports stop taking requests, drain and turn
off. -/
def quiesceStep (s : State) : State :=
  if s.host.stage = 8#4 then s
  else if !s.host.quiescing then
    let s := (enabledParts s).foldl haltPartition s
    let s := { s with host := { s.host with quiescing := true } }
    if s.moot.state = 1 || s.moot.state = 2 then leaveCommand s else s
  else if !quiesceReady s then s
  else if s.ports.any fun p => p.state = 2 then (mapPorts s fun p => if p.state = 2 then { p with state := 4 } else p)
  else if portsDraining s then s
  else
    let s := mapPorts s fun p => { p with
      state := 0, width := 0, unanswered := [], retrain := none, sent := if p.state = 4 then p.sent ++ [controlFlit s p.rxNext false p.peer] else p.sent }
    { s with host := { s.host with quiescing := false, stage := 8 } }

/-- QUIESCE. -/
def execQuiesce (s : State) : Host.Outcome State Fault Refusal := .next (quiesceStep s)

/-- Every partition on the core's quad is halted. -/
def quadHalted (s : State) (core : BitVec 8) : Bool :=
  (enabledParts s).all fun p => !partHasCore s p core.toNat || (getPart s p).halted

/-- The effect of RESTORE at the core's drain point. -/
def restorePaths (s : State) (path : BitVec 2) : State :=
  let x := s.mx
  let x := { x with merr := if bitAt path 0 then 0 else x.merr, qerr := if bitAt path 1 then 0 else x.qerr }
  let sound (n : BitVec 32) : Bool := x.thresh = 0 || decide (n.toNat < x.thresh.toNat)
  setMx s (if sound x.merr && sound x.qerr then { x with mode := .dual } else x)

/-- RESTORE (Table 14.4): refused unless the quad's partitions are halted; it takes effect at the next drain point. -/
def restoreCommand (s : State) (core : BitVec 8) (path : BitVec 2) : State :=
  match s.host.restoring with
  | some (_, p) => if drainPoint s then restorePaths { s with host := { s.host with restoring := none } } p else s
  | none =>
    if !quadHalted s core || core ≠ s.coreNo then s
    else { s with host := { s.host with restoring := some (core, path) } }

/-- RESTORE. -/
def execRestore (core : BitVec 8) (path : BitVec 2) (s : State) : Host.Outcome State Fault Refusal := .next (restoreCommand s core path)

/-- Commons keys follow the package number. -/
def rekey (old new k : Nat) : Nat :=
  if 2 ^ 61 ≤ k && (k - 2 ^ 61) / 2 ^ 29 = old then 2 ^ 61 + new * 2 ^ 29 + (k - 2 ^ 61) % 2 ^ 29 else k

/-- PKGNUM (Table 14.4): refused unless every port is OFF. -/
def setPkgnum (s : State) (number : BitVec 10) : State :=
  if s.ports.any fun p => p.state ≠ 0 then s
  else
    let old := s.pkgNo.toNat
    let mine (k : Nat) : Bool := 2 ^ 61 ≤ k && (k - 2 ^ 61) / 2 ^ 29 = old
    let s := { s with
      pkgNo := number
      mem := memWrite (s.mem.filter fun c => !mine c.1) ((s.mem.filter fun c => mine c.1).map fun c =>
        (rekey old number.toNat c.1, c.2))
      poison := s.poison.map (rekey old number.toNat)
      armed := s.armed.map (rekey old number.toNat) }
    setMoot s (s.moot.updMember s.moot.slot fun x => { x with pkg := number })

/-- PKGNUM. -/
def execPkgnum (number : BitVec 10) (s : State) : Host.Outcome State Fault Refusal := .next (setPkgnum s number)

/-- Power-on reset; the model's inputs, open latencies and free values go on (DEDUCED: assumption 61). -/
def resetAll (s : State) : State :=
  { State.reset with
    script := s.script, sensed := s.sensed, softErrors := s.softErrors, delays := s.delays, free := s.free, coreNo := s.coreNo }

/-- RESET (Table 14.4). -/
def execReset (s : State) : Host.Outcome State Fault Refusal := .next (resetAll s)

/-- POWER_ON_RESET; where it ends a time without power, the inputs up to it are past. -/
def execPowerOnReset (s : State) : Host.Outcome State Fault Refusal :=
  .next { (resetAll s) with script := s.script.filter fun x => x.2 != .powerOnReset }

/-- POWER_FAULT (R493): the dies lose power without saving state. -/
def execPowerFault (s : State) : Host.Outcome State Fault Refusal :=
  .next (report { s with host := { s.host with powered := false } } .powerFault)

/-- A management command while another runs, or with a reserved code, is ignored and counted (R490). -/
def ignoreMgmt (s : State) : State := { s with host := { s.host with ignored := satAdd s.host.ignored 1 } }

/-- MGMT.CMD (Table 14.4). -/
def mgmtCommand (s : State) (v : BitVec 64) : State :=
  if s.host.quiescing || s.host.restoring.isSome then ignoreMgmt s
  else match (field v 0 4).toNat with
    | 1 => quiesceStep s
    | 2 => restoreCommand s (field v 8 8) (field v 16 2)
    | 3 => setPkgnum s (field v 8 10)
    | 4 => resetAll s
    | _ => ignoreMgmt s

/-! ### Work-queue registers at the aperture and the virtual functions -/

def wqRead (s : State) (q reg : Nat) : BitVec 64 :=
  let w := getWq s q
  match reg with
  | 0x00 => 0#12 ++ w.base ++ 0#7
  | 0x08 => bit1 w.en ++ 0#3 ++ w.part ++ 0#40 ++ w.maxinst ++ 0#3 ++ w.log2n
  | 0x10 => w.widx
  | 0x18 => w.tail
  | 0x20 => w.head
  | 0x28 => w.errcnt ++ w.lasterr ++ bit1 w.stall ++ 0#31 ++ w.live
  | _ => 0

def wqWrite (s : State) (q reg : Nat) (v : BitVec 64) (mgmt : Bool) : State :=
  let w := getWq s q
  match reg with
  | 0x00 => if w.en then s else setWq s q { w with base := field v 7 45 }
  | 0x08 => putWqCfg s q v mgmt
  | 0x10 => if w.en then s else setWq s q { w with widx := v }
  | 0x18 => writeTail s q v
  | 0x28 => setWq s q { w with errcnt := if field v 48 16 ≠ 0#16 then 0 else w.errcnt, stall := w.stall && !bitAt v 39 }
  | _ => s

/-! ### Control registers of a die -/

/-- PART.STAT.STOPPED as far as this model's core shows it. -/
def stoppedCount (s : State) (p : BitVec 4) : Nat :=
  (if s.ctx.commandable p then 1 else 0) + (match s.held with
    | some h => if h.commandable p then 1 else 0
    | none => 0)

def partRead (s : State) (p : BitVec 4) (reg : Nat) : BitVec 64 :=
  let x := getPart s p
  if 0x40 ≤ reg && reg < 0x80 then
    0#38 ++ x.cmSize.getD ((reg - 0x40) / 8) 0 ++ 0#6 ++ x.cmBase.getD ((reg - 0x40) / 8) 0
  else match reg with
    | 0x00 => x.qmask
    | 0x08 => bit1 x.en ++ bit1 x.err ++ 0#10 ++ x.root ++ 0#13
    | 0x10 => 0#39 ++ x.slot ++ 0#3 ++ x.tcount ++ x.tbase ++ 0#2 ++ x.hcount ++ 0#2 ++ x.hbase
    | 0x18 => x.hovl
    | 0x20 => 0#12 ++ x.save ++ 0#16
    | 0x28 => 0#12 ++ x.frec ++ 0#14
    | 0x30 => 0#22 ++ x.dqsize ++ 0#6 ++ x.dqbase ++ 0#13 ++ x.dqdie
    | 0x38 => x.stallto ++ x.slice
    | 0x88 => bit1 x.halted ++ bit1 x.cmdign ++ 0#46 ++ BitVec.ofNat 16 (stoppedCount s p)
    | _ => 0

/-- PART.CMD: the command that the written value names. -/
def partCommand (s : State) (p : BitVec 4) (v : BitVec 64) : State :=
  let core : BitVec 8 := field v 8 8
  match (field v 0 4).toNat with
  | 1 => post s (.resume p core)
  | 2 => post s (.abort p core)
  | 3 => post s (.run p core)
  | 4 => post s (.halt p)
  | _ => s

def partWrite (s : State) (p : BitVec 4) (reg : Nat) (v : BitVec 64) : State :=
  let x := getPart s p
  let locked (y : Part) : State := if x.en then s else setPart s p y
  if 0x40 ≤ reg && reg < 0x80 then
    locked { x with cmSize := x.cmSize.setIfInBounds ((reg - 0x40) / 8) (field v 16 10),
                    cmBase := x.cmBase.setIfInBounds ((reg - 0x40) / 8) (field v 0 10) }
  else match reg with
    | 0x00 => locked { x with qmask := v }
    | 0x08 =>
      let y := if bitAt v 62 then { x with err := false } else x
      let y := if x.en then y else { y with root := field v 13 39 }
      let s := setPart s p y
      if bitAt v 63 then enablePartition s p else if x.en then disablePartition s p else s
    | 0x10 => locked { x with slot := field v 24 1, tcount := field v 18 3, tbase := field v 16 2, hcount := field v 8 6,
                              hbase := field v 0 6 }
    | 0x18 => setPart s p { x with hovl := v }
    | 0x20 => locked { x with save := field v 16 36 }
    | 0x28 => locked { x with frec := field v 14 38 }
    | 0x30 => locked { x with dqsize := field v 32 10, dqbase := field v 16 10, dqdie := field v 0 3 }
    | 0x38 => setPart s p { x with stallto := field v 32 32, slice := field v 0 32 }
    | 0x80 => partCommand s p v
    | 0x88 => setPart s p { x with cmdign := x.cmdign && !bitAt v 62 }
    | _ => s

def frRead (s : State) (n reg : Nat) : BitVec 64 :=
  let r := getRegion s n
  match reg with
  | 0x00 => 0#12 ++ r.dbase ++ 0#21
  | 0x08 => 0#12 ++ r.sbase ++ 0#6
  | 0x10 => 0#12 ++ r.abase ++ 0#21
  | 0x18 => bit1 r.en ++ bit1 r.err ++ 0#6 ++ r.fmt ++ 0#34 ++ r.asize
  | 0x20 => r.tagerr ++ r.undcnt ++ r.satcnt
  | _ => 0

def frWrite (s : State) (n reg : Nat) (v : BitVec 64) : State :=
  let r := getRegion s n
  let locked (y : Region) : State := if r.en then s else putRegion s n y
  match reg with
  | 0x00 => locked { r with dbase := field v 21 31 }
  | 0x08 => locked { r with sbase := field v 6 46 }
  | 0x10 => locked { r with abase := field v 21 31 }
  | 0x18 =>
    if bitAt v 63 then enableRegion s (n / 16) n v
    else
      let s := if r.en then disableRegion s n else s
      let y := getRegion s n
      putRegion s n { y with err := y.err && !bitAt v 62, fmt := field v 48 8, asize := field v 0 14 }
  | 0x20 => putRegion s n { r with tagerr := field v 48 16, undcnt := field v 24 24, satcnt := field v 0 24 }
  | _ => s

def tlbiRead (s : State) (die reg : Nat) : BitVec 64 :=
  let t := s.tlbi.getD die Tlbi.reset
  if reg = 0 then 0#12 ++ t.addr ++ 0#12 else bit1 t.busy ++ 0#31 ++ t.part ++ bit1 t.all ++ t.pages

def tlbiWrite (s : State) (die reg : Nat) (v : BitVec 64) : State :=
  let d := BitVec.ofNat 3 die
  let t := s.tlbi[d.toNat]
  if reg = 0 then putTlbi s d { t with addr := field v 12 40 }
  else
    let t := { t with part := field v 28 4, all := bitAt v 27, pages := field v 0 27 }
    if bitAt v 32 then startTlbi s d t else putTlbi s d t

def clampNat (lo hi n : Nat) : Nat := if n < lo then lo else if hi < n then hi else n

/-- Bits of MOOT.LIVE: live slots. -/
def liveWord (s : State) (j : Nat) : BitVec 64 :=
  s.moot.alive.foldl (fun w x => if x.slot.toNat / 64 = j then w ||| (1#64 <<< (x.slot.toNat % 64)) else w) 0

def mootRead (s : State) (o : Nat) : BitVec 64 :=
  let m := s.moot
  if 0x80 ≤ o && o < 0xC0 then m.sensFail.getD ((o - 0x80) / 8) 0
  else if 0x100 ≤ o && o < 0x300 then
    let x := getPart s (BitVec.ofNat 4 ((o - 0x100) / 0x20))
    match (o - 0x100) % 0x20 with
    | 0x00 => 0#32 ++ x.quota
    | 0x08 => bit1 x.eqEn ++ bit1 x.eqAction ++ 0#14 ++ x.eqExtra ++ 0#16 ++ x.eqPeriod
    | 0x10 => x.used
    | 0x18 => x.debt
    | _ => 0
  else match o with
    | 0x00 => m.gid ++ m.cfgGmax ++ 0#10 ++ m.cfgSilto ++ 0#6 ++ m.cfgLead
    | 0x10 => bit1 m.split ++ bit1 m.refused ++ 0#6 ++ m.coordSlot ++ m.slot ++ 0#24 ++ m.glat
    | 0x18 => m.unann ++ m.late ++ m.rmiss ++ m.silentCnt
    | 0x20 => liveWord s 0
    | 0x28 => liveWord s 1
    | 0x30 => liveWord s 2
    | 0x40 => m.rpcap.setWidth 64
    | 0x48 => 1500
    | 0x50 => 4800
    | 0x58 => m.rackId ++ 0#16 ++ m.rbudget
    | _ => 0

def mootWrite (s : State) (o : Nat) (v : BitVec 64) : State :=
  let m := s.moot
  if 0x80 ≤ o && o < 0xC0 then clearSensors s (BitVec.ofNat 3 ((o - 0x80) / 8)) v
  else if 0x100 ≤ o && o < 0x300 then
    let p : BitVec 4 := BitVec.ofNat 4 ((o - 0x100) / 0x20)
    let x := getPart s p
    match (o - 0x100) % 0x20 with
    | 0x00 => setPart s p { x with quota := field v 0 32 }
    | 0x08 => setPart s p { x with eqEn := bitAt v 63, eqAction := bitAt v 62, eqExtra := field v 32 16,
                                   eqPeriod := if field v 0 16 = 0#16 then 1 else field v 0 16 }
    | _ => s
  else match o with
    | 0x00 => setMoot s { m with
        gid := if m.state = 0 then field v 48 16 else m.gid
        cfgGmax := BitVec.ofNat 8 (clampNat 32 96 (field v 40 8).toNat)
        cfgSilto := BitVec.ofNat 14 (clampNat 100 10000 (field v 16 14).toNat)
        cfgLead := BitVec.ofNat 10 (clampNat 10 1000 (field v 0 10).toNat) }
    | 0x08 => (match (field v 0 4).toNat with
        | 1 => joinCommand s (field v 8 8)
        | 2 => leaveCommand s
        | _ => s)
    | 0x10 => setMoot s { m with split := m.split && !bitAt v 63, refused := m.refused && !bitAt v 62 }
    | 0x18 => setMoot s { m with unann := field v 48 16, late := field v 32 16, rmiss := field v 16 16, silentCnt := field v 0 16 }
    | 0x40 => let d := freeCode s; writeCap d.2 (field v 0 13) d.1 s.bell
    | 0x58 => recap m.cap (setMoot s { m with rackId := field v 48 16, rbudget := field v 0 32 })
    | _ => s

def portRead (x : Port) (reg : Nat) : BitVec 64 :=
  match reg with
  | 0x00 => bit1 x.en ++ 0#15 ++ x.lthr ++ x.rto ++ x.rmax ++ 0#4 ++ x.sretry
  | 0x08 => x.state ++ x.width ++ bit1 x.lspare ++ x.badlane ++ x.peer ++ 0#42
  | 0x10 => x.replay ++ x.damaged
  | _ => 0

/-- A write of a port register; a port with EN clear is OFF, and one that gets EN trains once start-up has come to it. -/
def portWrite (s : State) (p reg : Nat) (v : BitVec 64) : State :=
  let x := getPort s p
  match reg with
  | 0x00 =>
    let en := bitAt v 63
    let x := { x with en := en, lthr := field v 32 16, rto := field v 16 16, sretry := field v 0 4,
                      rmax := if field v 8 8 = 0#8 then 1 else field v 8 8 }
    if !en then dropLink s p { x with state := 0 }
    else setPort s p (if x.state = 0 && 5 ≤ s.host.stage.toNat && s.host.stage ≠ 8#4 then { x with state := 1 } else x)
  | 0x08 => setPort s p { x with lspare := x.lspare && !bitAt v 57 }
  | 0x10 => setPort s p { x with replay := field v 32 32, damaged := field v 0 32 }
  | _ => s

def hostRead (s : State) (o : Nat) : BitVec 64 :=
  let h := s.host
  match o with
  | 0x00 => h.hwin.setWidth 64
  | 0x08 => 0#48 ++ h.fail ++ 0#4 ++ h.stage
  | 0x10 => h.ignored ++ 0#48
  | 0x18 => 0#28 ++ h.lastvf ++ h.refused
  | _ => 0

def hostWrite (s : State) (o : Nat) (v : BitVec 64) : State :=
  match o with
  | 0x00 => { s with host := { s.host with hwin := field v 0 4 } }
  | 0x10 => mgmtCommand s v
  | 0x18 => { s with host := { s.host with refused := field v 0 32 } }
  | _ => s

/-- Where a control-register offset of a die falls. -/
inductive CtrlReg where
  | fr (n reg : Nat)
  | tlbi (reg : Nat)
  | wq (q reg : Nat)
  | part (p : BitVec 4) (reg : Nat)
  | moot (o : Nat)
  | port (p reg : Nat)
  | route (n : Nat)
  | soft (i : Nat)
  | host (o : Nat)
  | none
deriving DecidableEq, Repr

/-- R398, R405, R407, R433, R470, R481, R482, R489, Table 14.6. -/
def ctrlReg (die o : Nat) : CtrlReg :=
  if 0x200000 ≤ o && o < 0x202000 && (o - 0x200000) % 0x1000 < 0x400 then
    .fr ((2 * die + (o - 0x200000) / 0x1000) * 16 + (o - 0x200000) % 0x1000 / 0x40) (o % 0x40)
  else if 0x300000 ≤ o && o < 0x300010 then .tlbi (o - 0x300000)
  else if 0x400000 ≤ o && o < 0x420000 then .wq (die * 2048 + (o - 0x400000) / 0x40) (o % 0x40)
  else if die = 0 && 0x500000 ≤ o && o < 0x501000 then .part (BitVec.ofNat 4 ((o - 0x500000) / 0x100)) (o % 0x100)
  else if die = 0 && 0x600000 ≤ o && o < 0x600300 then .moot (o - 0x600000)
  else if 0x700000 ≤ o && o < 0x7000C0 then .port (die * 3 + (o - 0x700000) / 0x40) (o % 0x40)
  else if 0x710000 ≤ o && o < 0x712000 then .route ((o - 0x710000) / 8)
  else if 0x800000 ≤ o && o < 0x800030 then .soft (die * 16 + (o - 0x800000) / 4)
  else if die = 0 && 0x900000 ≤ o && o < 0x900020 then .host (o - 0x900000)
  else .none

/-- Reads a control register; none where nothing is mapped. -/
def ctrlRead (s : State) (die o : Nat) : Option (BitVec 64) :=
  match ctrlReg die o with
  | .fr n reg => some (frRead s n reg)
  | .tlbi reg => some (tlbiRead s die reg)
  | .wq q reg => some (wqRead s q reg)
  | .part p reg => some (partRead s p reg)
  | .moot x => some (mootRead s x)
  | .port p reg => some (portRead (getPort s p) reg)
  | .route n => some (getAssoc s.routes (die * 1024 + n) 0)
  | .soft i => some ((getAssoc s.host.soft i 0).setWidth 64)
  | .host x => some (hostRead s x)
  | .none => none

/-- Writes a control register. -/
def ctrlWrite (s : State) (die o : Nat) (v : BitVec 64) (mgmt : Bool) : State :=
  match ctrlReg die o with
  | .fr n reg => frWrite s n reg v
  | .tlbi reg => tlbiWrite s die reg v
  | .wq q reg => wqWrite s q reg v mgmt
  | .part p reg => partWrite s p reg v
  | .moot x => mootWrite s x v
  | .port p reg => portWrite s p reg v
  | .route n => pump { stampWaiting s with routes := setAssoc s.routes (die * 1024 + n) (v &&& 0x8000000000FFFFFF#64) }
  | .soft i => { s with host := { s.host with soft := setAssoc s.host.soft i (field v 0 32) } }
  | .host x => hostWrite s x v
  | .none => report s (.hostError o)

/-- REGISTER_WRITE: a control-register write at an offset of the package aperture, by the management path. -/
def execRegisterWrite (offset : Nat) (v : BitVec 64) (s : State) : Host.Outcome State Fault Refusal :=
  let o := offset % 0x20000000
  if offset < 0x100000000 && 0x10000000 ≤ o then .next (ctrlWrite s (offset / 0x20000000) (o - 0x10000000) v true)
  else .next (report s (.hostError offset))

/-! ### Host port (R486 to R489) -/

/-- Where a host request falls. -/
inductive HostPlace where
  | mem (keys : List Nat)
  | ctrl (die o : Nat)
  | queue (q reg : Nat)
  | none
deriving DecidableEq, Repr

/-- The package aperture (Table 1.15). -/
def aperturePlace (s : State) (offset n : Nat) : HostPlace :=
  let die := offset / 0x20000000
  let o := offset % 0x20000000
  if 8 ≤ die then .none
  else if o + n ≤ 0x3000000 then .mem (keyRange (commonsKey s.pkgNo.toNat die o) n)
  else if 0x4000000 ≤ o && o < 0xC000000 then
    let c := (o - 0x4000000) / 0x400000
    let x := (o - 0x4000000) % 0x400000
    if x + n ≤ 0x300000 then .mem (keyRange (scratchKey (die * 32 + c) x) n) else .none
  else if 0x10000000 ≤ o then .ctrl die (o - 0x10000000)
  else .none

/-- R486, Table 14.3. -/
def hostPlace (s : State) (r : HostReq) (n : Nat) : HostPlace :=
  match r.fn, r.bar with
  | .virt _, 0 => if r.offset < 0x100000 then .queue (r.offset / 0x40) (r.offset % 0x40) else .none
  | .virt _, _ => .none
  | _, 0 => if r.offset < 0x100000000 then aperturePlace s r.offset n else .none
  | .physical, 2 =>
    let a := s.host.hwin.toNat * 2 ^ 36 + r.offset
    if r.offset + n ≤ 2 ^ 36 then .mem (keyRange a n) else .none
  | _, _ => .none

/-- Bytes that a request covers. -/
def opSize : HostOp → Nat
  | .read n => n
  | .write d => d.length
  | _ => 8

/-- Unsupported Request. -/
def unsupported (s : State) (r : HostReq) : State := report s (.hostError r.offset)

/-- A host write of memory: bytes of an armed line are refused and reported (R394). -/
def hostMemWrite (s : State) (r : HostReq) (l : List (Nat × Byte)) : State :=
  let bad := l.any fun c => armedLine s c.1
  let l := l.filter fun c => !armedLine s c.1
  let s := if r.bar = 2 then homeWrite s l else rawWrite s l
  if bad then report s (.clobberRefused r.offset) else s

/-- A host read of memory at its home; an uncorrectable error is reported. -/
def hostMemRead (s : State) (r : HostReq) (keys : List Nat) : State :=
  let s := if r.bar = 2 then homePrep s keys else s
  let a := if r.bar = 2 then noteAliasRead s 0 keys else (s, false)
  let s := if a.2 || poisoned a.1 keys then report a.1 (.hostError r.offset) else a.1
  hostReply s (keys.map fun k => if r.bar = 2 then homeByte s k else memGet s.mem k)

/-- The bytes of a register that a read takes. -/
def regBytes (v : BitVec 64) (o n : Nat) : List Byte := ((leBytes 8 v.toNat).drop (o % 8)).take n

/-- An operation on a work-queue register (R409, R486). -/
def hostQueueOp (s : State) (q reg : Nat) (r : HostReq) (mgmt : Bool) : State :=
  let old := wqRead s q reg
  let put (v : BitVec 64) : State := hostReply (wqWrite s q reg v mgmt) (leBytes 8 old.toNat)
  match r.op with
  | .read n => hostReply s (regBytes (wqRead s q (reg / 8 * 8)) reg n)
  | .write d => if d.length = 8 then wqWrite s q reg (BitVec.ofNat 64 (leValue d)) mgmt else unsupported s r
  | .fetchAdd v => if reg = 0x10 then (let x := hostReserve s q v; hostReply x.2 (leBytes 8 x.1.toNat)) else put (old + v)
  | .swap v => put v
  | .cas e v => if old = e then put v else hostReply s (leBytes 8 old.toNat)

/-- A virtual function's access (R487). -/
def virtualOp (s : State) (v : BitVec 4) (q reg : Nat) (r : HostReq) : State :=
  let w := getWq s q
  if w.part ≠ v || (!w.en && 0x10 ≤ reg && reg < 0x28) then
    let s := hostRefuse s v r.offset
    match r.op with
    | .write _ => s
    | op => hostReply s (List.replicate (opSize op) 0)
  else hostQueueOp s q reg r false

/-- The host port answers: its link has trained (stage 4) and start-up has not failed; the management port always does. -/
def portAnswers (s : State) : HostFn → Bool
  | .management => true
  | _ => decide (4 ≤ s.host.stage.toNat) && s.host.fail = 0

/-- HOST_BAR_ACCESS. -/
def execHostBarAccess (r : HostReq) (s : State) : Host.Outcome State Fault Refusal :=
  if !portAnswers s r.fn then .next (unsupported s r) else
  let mgmt := r.fn matches .management
  match hostPlace s r (opSize r.op), r.op with
  | .none, _ => .next (unsupported s r)
  | .queue q reg, _ => (match r.fn with
    | .virt v => .next (virtualOp s v q reg r)
    | _ => .next (unsupported s r))
  | .mem keys, .read _ => .next (hostMemRead s r keys)
  | .mem keys, .write d => .next (hostMemWrite s r (keys.zip d))
  | .mem _, _ => .next (unsupported s r)
  | .ctrl die o, op =>
    match ctrlReg die o with
    | .wq q reg => .next (hostQueueOp s q reg r mgmt)
    | .none => .next (unsupported s r)
    | .soft i => (match op with
      | .read n => .next (hostReply s ((leBytes 4 (getAssoc s.host.soft i 0).toNat).take n))
      | .write d => .next (ctrlWrite s die o (BitVec.ofNat 64 (leValue d)) mgmt)
      | _ => .next (unsupported s r))
    | _ => match op with
      | .read n => .next (hostReply s (regBytes ((ctrlRead s die (o / 8 * 8)).getD 0) o n))
      | .write d => if d.length = 8 then .next (ctrlWrite s die o (BitVec.ofNat 64 (leValue d)) mgmt) else .next (unsupported s r)
      | _ => .next (unsupported s r)

/-- Pages of global memory that an operation touches. -/
def opPages (s : State) (o : Op) : List Nat :=
  match o.kind with
  | .copy c => (c.touched s).flatMap fun x => spanPages x.1 x.2
  | .mx (.load d _) => spanPages d.op.rcd (d.refillSpans false)
  | .mx (.pref d _) => spanPages d.op.rcd (d.refillSpans true)
  | .mx (.stream _ d _ pm pq _) =>
    spanPages d.op.rcd ((d.region (classK (if s.mx.works = .quern then pq.dbl else pm.dbl))).spans d.op.rcd d.op.fmt)
  | .mx (.cb _ d _) => spanPages (Rec.of d.bfr) (d.region.spans (Rec.of d.bfr) .e4m3)
  | .transform t => spanPages t.src t.srcSpans ++ spanPages t.dst t.dstSpans ++ spanPages t.aux t.auxSpans
  | _ => []

/-- The first of them in host memory. -/
def hostPage (s : State) (o : Op) : Option Nat :=
  (opPages s o).find? fun v => match translate s s.ctx.part false (v * 4096) with
    | .ok pa _ => paClass s.pkgNo pa == .host
    | _ => false

/-- HOST_COMPLETION (R488): data from the host arrive; an error status ends the access as a translation abort would. -/
def execHostCompletion (id : Nat) (error : Bool) (s : State) : Host.Outcome State Fault Refusal :=
  match findOp s id with
  | none => .next s
  | some o =>
    if !error then .next (updateOp s id fun o => { o with due := min o.due s.cycle })
    else match o.kind with
      | .load acq _ tag =>
        .next (updateOp s id fun o => { o with due := min o.due s.cycle, kind := .load acq (some (.translation, o.addr)) tag })
      | _ => match hostPage s o with
        | some v => .next (updateOp s id fun o => { o with due := min o.due s.cycle, aborted := o.aborted ++ [v] })
        | none => .next s

/-! ### Start-up and RAS (R491, R492) -/

/-- What entering a stage does by itself; a port that has not trained when stage 5 ends stays DOWN. -/
def enterStage (s : State) (n : Nat) : State :=
  match n with
  | 2 => { s with regions := s.regions.map fun r => (r.1, { r.2 with en := false }) }
  | 5 => mapPorts s fun p => if p.en then { p with state := 1 } else p
  | 6 =>
    let s := measureLatency (mapPorts s fun p => if p.state = 1 then { p with state := 3 } else p)
    if s.moot.gid ≠ 0 then joinCommand s s.moot.slot else s
  | 7 => selectWork s
  | _ => s

/-- The work of the stage in progress as it comes to its end (Table 14.5): in stage 3 the planes are exchanged, unless they have been
already, and a plane whose CRC is wrong fails the stage; stages 5 and 6 always succeed. The machine, and the failure code. -/
def stageWork (ok : Bool) (code : BitVec 8) (s : State) : State × Option (BitVec 8) :=
  let n := s.host.stage
  if !ok && n ≠ 5 && n ≠ 6 then (s, some code)
  else if n = 3 && s.disp.last ≠ 1 then
    let t := swapPlanes s
    (t, if t.disp.last = 1 then none else some 0x20)
  else (s, none)

/-- STARTUP_STAGE: the work of the stage in STAGE ends, and the next begins unless it has failed. -/
def execStartupStage (ok : Bool) (code : BitVec 8) (s : State) : Host.Outcome State Fault Refusal :=
  if 7 ≤ s.host.stage.toNat || s.host.fail ≠ 0 then .next s else
  let w := stageWork ok code s
  let h := w.1.host
  let n := h.stage
  .next (match w.2 with
    | some c => report { w.1 with host := { h with fail := c } } (.startup n.toNat false)
    | none => enterStage (report { w.1 with host := { h with stage := n + 1 } } (.startup n.toNat true)) (n.toNat + 1))

/-- An error of a control path, or of state that no reader owns: every partition with a core on the die halts (R492). -/
def fatalError (s : State) (die : BitVec 3) : State :=
  let hit := (enabledParts s).filter fun p => field (getPart s p).qmask (8 * die.toNat) 8 ≠ 0#8
  report (hit.foldl haltPartition s) (.controlPath die)

/-- CONTROL_PATH_ERROR (R492). -/
def execControlPathError (die : BitVec 3) (s : State) : Host.Outcome State Fault Refusal := .next (fatalError s die)

/-- A soft error strikes (R492). A corrected one is scrubbed and changes no value. An uncorrectable one stays in the word of memory
that it strikes; in planes and tiles it shows where the two paths differ (R241, R246; DESIGN CHOICE: assumption 80); in any other
state no reader owns it, and the die's partitions halt. -/
def strike (s : State) (x : SoftError) : State :=
  let s := countSoft s (x.die.toNat * 16 + x.unit) x.corrected
  if x.corrected then s
  else match x.key with
    | some k => poisonWord s k
    | none => if x.unit = 7 then s else fatalError s x.die

/-- The readings and soft errors that come by a cycle. -/
def takeInputs (s : State) (n : Nat) : State :=
  let now {α : Type} (l : List (Nat × α)) : List α := (l.filter fun x => decide (x.1 ≤ n)).map (·.2)
  let later {α : Type} (l : List (Nat × α)) : List (Nat × α) := l.filter fun x => !decide (x.1 ≤ n)
  let t := (now s.softErrors).foldl strike { s with
    sensed := later s.sensed, softErrors := later s.softErrors, script := later s.script, inbox := s.inbox ++ now s.script }
  if (now s.sensed).isEmpty then t else setMoot t ((now s.sensed).foldl Moot.sense t.moot)

end Sys2Proof.Machine
end

