-- ==== Sys2Proof/Machine/Cycle.lean ====
section
/-! DEFINITION. The close of a cycle: which events of the part are due, and the passing of time (chapters 1, 2, 12, 13). -/
namespace Sys2Proof.Machine

/-- The completion event of an operation. -/
def completionOf (o : Op) : Instr :=
  match o.kind with
  | .result => .registerResultLanding o.id
  | .text => .registerResultLanding o.id
  | .sysRead => .registerResultLanding o.id
  | .load _ _ _ => .loadDataReturn o.id
  | .writeBack _ => .writeBackAcknowledged o.id
  | .store _ => .registerResultLanding o.id
  | .mx (.load _ _) => .mloadFillComplete o.id
  | .mx .flip => .mflipTakesEffect o.id
  | .mx (.stream _ _ _ _ _ _) => .mstreamComplete o.id
  | .mx (.drain _ _ _ _) => .tileSignatureFormed o.id
  | .mx _ => .registerResultLanding o.id
  | .copy _ => .copyCompletion o.id
  | .transform _ => .transformCompletion

/-- An earlier result of one of its registers is still to land (R23). -/
def landsLater (s : State) (o : Op) : Bool :=
  s.ops.any fun p => p.eng == o.eng && p.strand == o.strand && decide (p.id < o.id) && o.ws.any fun w => p.writes w.reg

/-- An operation whose completion falls in this cycle: no missing page holds it, no invalidation stands before it (R312), no
earlier matrix operation, and no earlier result of its registers. -/
def opDue (s : State) (o : Op) : Bool :=
  decide (o.due ≤ s.cycle) && o.held.isNone && mxReady s o && !behindMarker s o && !landsLater s o

/-- Operations whose completion falls in this cycle, in order of engine tag, and of one engine in issue order (R48). -/
def dueOps (s : State) : List Instr :=
  let l := s.ops.filter (opDue s)
  allEngines.flatMap fun e => (l.filter fun o => o.eng == e).map completionOf

/-- What is served at a scratchpad ahead of an engine's slot: arrivals of copies rank as the BTE, a Pound commit as the MXE
(R162). -/
def dueBefore (s : State) (e : Engine) : List Instr :=
  match e with
  | .bte => (s.ops.filter fun o => o.isCopy && opDue s o).map completionOf
  | .mxe => if poundDue s then [.poundCommit] else []
  | _ => []

/-- Engines whose head push can be made (R16, R17). -/
def duePushes (s : State) : List Instr :=
  (allEngines.filter fun e => match pushDue s e with
    | some p => (pushFull s e p).isNone
    | none => false).map .pendingPush

/-- The serving of the request at the head of the Reeve's queue, and the commit of the entry at the head of the Pound. -/
def dueMatrix (s : State) : List Instr :=
  (match reeveNext s with
    | some (_, .mismatch) => [.reeveMismatch]
    | some (_, .sampled) => [.reeveSampledCheck]
    | some (_, .forced) => [.reeveForcedCheck]
    | none => []) ++
  if poundDue s then [.poundCommit] else []

/-- Misses that an engine waits on and no walk has looked at (R51). -/
def dueWalks (s : State) : List Instr :=
  allEngines.filterMap fun e => match (s.eng e).wait with
    | some ⟨.miss p v _ _, _, _⟩ =>
      if s.misses.contains (p, v) || (tlbFind s p v).isSome then none else some (.pageWalk p (BitVec.ofNat 40 v))
    | _ => none

/-- The end of an invalidation whose markers have passed every queue. -/
def dueInvalidation (s : State) : List Instr := if (tlbiReady s).isSome then [.invalidationComplete] else []

/-- The engine ran in this cycle: it runs, or a fault of this cycle has stopped it. -/
def ranNow (s : State) (e : Engine) : Bool :=
  match s.ctx.stop with
  | none => engineRuns s e
  | some st => st.at_ == s.cycle && !st.recorded &&
    engineRuns { s with ctx := { s.ctx with stop := none, status := st.was } } e

/-- A timeout of the engine would be the fault that the record of this cycle reports (R48). -/
def timeoutStands (s : State) (e : Engine) : Bool :=
  match s.ctx.stop with
  | none => true
  | some st => decide ((if boundaryTag s e = some 5 then 0 else e.tag) < (if st.info.tag = 5 then 0 else st.info.tag.toNat))

/-- The timeout that falls due, of the engine with the lowest tag of those that ran in this cycle (R48). -/
def dueTimeouts (s : State) : List Instr :=
  (allEngines.filterMap fun e =>
    if !ranNow s e || slipHeld s e || !timeoutStands s e then none else
    match expiredWait s e with
    | some (_, true) => some (.tokenTimeout e)
    | some (_, false) => some (.feTimeout e)
    | none => none).take 1

/-- The page of the strand's record is held for the driver (R53). -/
def recordHeld (s : State) : Bool := s.misses.contains (s.ctx.part, s.ctx.frec.toNat * 64 / 4096)

/-- R46: everything issued has run to completion and the record is still to be written. -/
def dueRecord (s : State) : List Instr := if recordWanted s && !recordHeld s then [.faultRecord] else []

/-- A launch that waited can go on. -/
def launchReady (s : State) : Bool :=
  match s.disp.launching with
  | some (id, st, _) =>
    !s.disp.launchHeld && !(getPart s s.ctx.part).halted && ringsStopped s && (match findPipe s id with
      | some p => !handlesBusy s (p.stages.getD st default).hdr
      | none => true)
  | none => false

/-- The exchange of the contexts can be made: no page of the refill is held. -/
def swapReady (s : State) : Bool :=
  swapDue s && (match s.held with
    | some h => !((refillPages h).any fun v => s.misses.contains (h.part, v))
    | none => true)

/-- The slice of the running context is over (R434). -/
def sliceDue (s : State) : Bool :=
  let n := (getPart s s.ctx.part).slice.toNat
  n ≠ 0 && s.held.isSome && !s.disp.swapping && decide (n * 1024 ≤ (s.bell - s.disp.sliceStart).toNat)

/-- A RESUME that waited for the quota goes on (R475). -/
def dueResume (s : State) : List Instr :=
  let of (c : Ctx) : List Instr :=
    if c.commandable c.part && c.stop.any (·.resuming) && !quotaHolds s c.part then [.resume c.part s.coreNo] else []
  of s.ctx ++ (match s.held with
    | some h => of h
    | none => [])

/-- What the Dispatcher does at this core. -/
def dueDispatch (s : State) : List Instr :=
  (if launchReady s then [.strandLaunch] else []) ++ (if sliceDue s then [.sliceExpiry] else []) ++
  (if swapReady s then [.contextSwap] else []) ++ dueResume s ++
  (if drainPoint s then
    (if s.disp.diffs.isEmpty then [] else [.planeDiffApply]) ++ (if s.disp.swapToken then [.planeSwap] else []) ++
    (match s.host.restoring with
      | some (c, p) => [.restore c p]
      | none => [])
  else []) ++
  (s.disp.pipes.filter (stallDue s)).map fun p => .pipelineStall p.id

/-- The first port whose replay timeout has passed. -/
def portReplayDue (s : State) : Option Nat := (List.range 24).find? fun p => replayDue s (getPort s p)

/-- What the Bell brings: effective ticks, heartbeats, rounds, silence, quotas, routes, replays, and the end of a quiesce. -/
def dueBell (s : State) : List Instr :=
  (if ceilingDue s then [.ceilingEffective] else []) ++ (if heartbeatDue s then [.heartbeatSend] else []) ++
  (if roundSendDue s then [.roundSend] else []) ++ (if missDue s then [.roundMiss] else []) ++
  (if roundDue s || (joinDue s).isSome then [.roundTick] else []) ++ (match silentDue s with
    | some x => [.peerSilenceTimeout x]
    | none => []) ++
  (match quotaDue s with
    | some p => [.quotaExhausted p]
    | none => []) ++
  (if bellReached s then [.bellTargetReached] else []) ++ (match routeDue s with
    | some p => [.routeWaitTimeout (BitVec.ofNat 10 p)]
    | none => []) ++ (match portReplayDue s with
    | some p => [.replayTimeout p]
    | none => []) ++
  if quiesceDue s then [.quiesce] else []

/-- The first list that is not empty. -/
def firstNonempty : List (List Instr) → List Instr
  | [] => []
  | l :: r => if l.isEmpty then firstNonempty r else l

/-- The first kind of event that is due at the close of this cycle. -/
def dueEvents (s : State) : List Instr :=
  firstNonempty [dueOps s, duePushes s, dueMatrix s, dueInvalidation s, dueWalks s, dueTimeouts s, dueRecord s, dueDispatch s,
    dueBell s]

/-- The passing of one Bell tick, and of one core cycle unless the core's clock is clamped (R457); inputs of the script and
what the Bell brings come before the engines' next slots. -/
def tick (s : State) : State :=
  let k := coreTicks s.moot
  let s := markSensors (endRetraining (mootTick (spendEnergy { s with moot := { s.moot with skip := k.2 } })))
  let s := if k.1 then takeInputs { s with cycle := s.cycle + 1, turn := .eng .ctl } (s.cycle + 1) else s
  { s with inbox := s.inbox ++ dueBell s }

/-- The close of a cycle: due events enter the inbox; with none left, time passes. -/
def closeCycle (s : State) : State :=
  match dueEvents s with
  | [] => tick s
  | l => { s with inbox := s.inbox ++ l }

/-- The state after an instruction of engine `e` has used its slot. -/
def afterSlot (e : Engine) (o : Host.Outcome State Fault Refusal) : Host.Outcome State Fault Refusal :=
  match o with
  | .next t => .next (advance t e)
  | .fault f => .fault f
  | .refused r => .refused r

/-- The engine on whose text a word stands. -/
def wordOwner (w : Word32) : Engine :=
  if !bitAt w 31 then .ctl
  else match (field w 28 3).toNat with
    | 1 => .bte
    | 2 => .mxe
    | 3 => .vec
    | 4 => .thr
    | _ => .ctl

/-- An engine with nothing that keeps it from its next instruction. -/
def Eng.unheld (x : Eng) : Eng :=
  { x with loops := [], seq := none, walk := 0, holdUntil := 0, drain := false, drainTo := 0, paceUntil := 0, wait := none, feWait := none, pushes := [],
           atStop := false, atPhase := false, prepared := false, begun := false }

/-- A running strand whose engine that owns the words `w0` and `w1` finds them at its program counter, its slot next. -/
def placeWords (s : State) (w0 w1 : Word32) : State :=
  let e := wordOwner w0
  let s := s.setEng e (s.eng e).unheld
  let c := s.ctx
  let pc := (s.eng e).pc
  { s with
    turn := .eng e
    inbox := []
    ctx := { c with
      status := .running
      stop := none
      thrrun := c.thrrun || e == .thr
      text := if e = .thr then c.text else ⟨pc, [w0, w1]⟩
      imem := if e = .thr then memWrite c.imem ((keyRange pc.toNat 8).zip (leBytes 4 w0.toNat ++ leBytes 4 w1.toNat))
        else c.imem } }

end Sys2Proof.Machine
end

