-- ==== Sys2Proof/Machine/Special.lean ====
section
/-! DEFINITION. Special functions of the vector engine (R230, R231): the exact result to far more bits than a format holds,
the interval that Table 5.11 allows around it, and a result in that interval that the spec does not choose. -/
namespace Sys2Proof.Machine

/-! ### Exact results to 160 fractional bits -/

/-- Fractional bits of the fixed-point numbers below. -/
def fpBits : Nat := 160
def fpOne : Int := 2 ^ 160
/-- π, ln 2, 2/√π and √(2/π), truncated to 160 fractional bits. -/
def fpPi : Int := 4591442807048218921384805199743311128454155024418
def fpLn2 : Int := 1013035739299659071135698605846798551586536899366
def fpErf : Int := 1649128000240172121335468122222580532118151184855
def fpPhi : Int := 1166109592014436081468383460887399764390691815008

def fpOf (x : Q) : Int := (x.scale 160).floor
def fpMul (a b : Int) : Int := a * b / fpOne
def fpQ (a : Int) : Q := ⟨a, 2 ^ 160⟩

/-- `1 + r/2 + r²/6 + …` to `n` terms (`(e ^ r - 1) / r`), in Horner form from term `k`. -/
def fpExpTail (r : Int) : Nat → Nat → Int
  | 0, _ => fpOne
  | n + 1, k => fpOne + fpMul r (fpExpTail r n (k + 1)) / ((k + 1 : Nat) : Int)

/-- `e ^ x - 1` for `|x| < 1`, relative to `x`. -/
def expm1Q (x : Q) : Q := x.mul (fpQ (fpExpTail (fpOf x) 45 1))

/-- `2 ^ x`. -/
def exp2Q (x : Q) : Q :=
  let n := x.floor
  let f := x.sub (Q.ofInt n)
  ((Q.ofInt 1).add (expm1Q (f.mul (fpQ fpLn2)))).scale n

/-- `e ^ x`. -/
def expQ (x : Q) : Q :=
  let n := (x.mul ⟨fpOne, fpLn2.toNat⟩).floor
  let r := x.sub ((Q.ofInt n).mul (fpQ fpLn2))
  ((Q.ofInt 1).add (fpQ (fpMul (fpOf r) (fpExpTail (fpOf r) 45 1)))).scale n

/-- `1/1 + z/3 + z²/5 + …`. -/
def fpAtanhTail (z : Int) : Nat → Nat → Int
  | 0, k => fpOne / ((2 * k + 1 : Nat) : Int)
  | n + 1, k => fpOne / ((2 * k + 1 : Nat) : Int) + fpMul z (fpAtanhTail z n (k + 1))

/-- `log2 x` for `x > 0`. -/
def log2Q (x : Q) : Q :=
  let e0 := x.log2
  let e := if (Q.mk 3 2).le (x.scale (-e0)) then e0 + 1 else e0
  let m := x.scale (-e)
  let z := (m.sub (Q.ofInt 1)).divPos (m.add (Q.ofInt 1))
  let zf := fpOf z
  let ln := (z.scale 1).mul (fpQ (fpAtanhTail (fpMul zf zf) 60 0))
  (Q.ofInt e).add (ln.divPos (fpQ fpLn2))

/-- `1 - t/(2·3) + t²/(2·3·4·5) - …` for `t = θ²` (`sin θ / θ`). -/
def fpSinTail (t : Int) : Nat → Nat → Int
  | 0, _ => fpOne
  | n + 1, k => fpOne - fpMul t (fpSinTail t n (k + 2)) / (((k + 1) * (k + 2) : Nat) : Int)

/-- `sin (π f)` for `|f| ≤ 1/2`, relative to `f`. -/
def sinPiSmall (f : Q) : Q :=
  let th := f.mul (fpQ fpPi)
  let t := fpOf th
  th.mul (fpQ (fpSinTail (fpMul t t) 30 1))

/-- `x` as `k + f` with `|f| ≤ 1/2`. -/
def nearInt (x : Q) : Int × Q :=
  let k := x.round .rne 0
  (k, x.sub (Q.ofInt k))

def sinPiQ (x : Q) : Q :=
  let r := nearInt x
  if r.1 % 2 = 0 then sinPiSmall r.2 else (sinPiSmall r.2).neg

def cosPiQ (x : Q) : Q :=
  let r := nearInt x
  let c := sinPiSmall ((Q.mk 1 2).sub r.2.abs)
  if r.1 % 2 = 0 then c else c.neg

/-- `tanh x`. -/
def tanhQ (x : Q) : Q :=
  if (Q.mk 1 2).le x.abs then
    let e := expQ (x.abs.scale 1)
    let y := (e.sub (Q.ofInt 1)).divPos (e.add (Q.ofInt 1))
    if x.num < 0 then y.neg else y
  else
    let m := expm1Q (x.scale 1)
    m.divPos (m.add (Q.ofInt 2))

/-- `1 / (1 + e ^ -x)`. -/
def sigmQ (x : Q) : Q := (Q.ofInt 1).divPos ((Q.ofInt 1).add (expQ x.neg))

/-- `1 - t/(1!·3) + t²/(2!·5) - …` (`erf x · √π / (2 x)` for `t = x²`). -/
def fpErfTail (t : Int) : Nat → Nat → Int → Int
  | 0, _, _ => 0
  | n + 1, k, p => p / ((2 * k + 1 : Nat) : Int) - fpErfTail t n (k + 1) (fpMul p t / ((k + 1 : Nat) : Int))

def erfQ (x : Q) : Q := x.mul (fpQ (fpMul fpErf (fpErfTail (fpOf (x.mul x)) 160 0 fpOne)))

/-- The normal distribution function, for `|x| ≤ 10`. -/
def phiQ (x : Q) : Q :=
  let e := x.mul (fpQ (fpMul fpPhi (fpErfTail (fpOf ((x.mul x).scale (-1))) 300 0 fpOne)))
  ((Q.ofInt 1).add e).scale (-1)

/-- Newton steps for the integer square root from above. -/
def isqrtGo (n : Nat) : Nat → Nat → Nat
  | 0, x => x
  | f + 1, x => let y := (x + n / x) / 2; if y < x then isqrtGo n f y else x

def isqrt (n : Nat) : Nat := if n = 0 then 0 else isqrtGo n 400 (2 ^ (Nat.log2 n / 2 + 1))

/-- `√x` for `x > 0`, to 80 significant bits. -/
def sqrtQ (x : Q) : Q :=
  let k := 160 - x.log2 / 2 * 2
  let n := (x.scale k).floor.toNat
  (Q.ofInt (isqrt n)).scale (-(k / 2))

/-! ### The interval and the result -/

/-- What a special function does with a source. -/
inductive Sfu where
  /-- a listed result, with its flags -/
  | listed (v : Val) (fx : Fx)
  /-- a result within an absolute bound of the exact one -/
  | within (y : Q) (bound : Q)

/-- `k` ULP of R230. -/
def ulps (k : Int) (y : Q) : Q := (Q.ofInt k).scale ((max y.log2 (-126)) - 23)

/-- Place of a code of `ff` among all in order of value, the two zeros together. -/
def FFmt.ordOf (ff : FFmt) (c : Nat) : Int :=
  let top := 2 ^ (ff.width - 1)
  if top ≤ c then -((c - top : Nat) : Int) else (c : Int)

def FFmt.codeOf (ff : FFmt) (o : Int) (neg : Bool) : Nat :=
  if o < 0 then 2 ^ (ff.width - 1) + o.natAbs else if o = 0 && neg then 2 ^ (ff.width - 1) else o.toNat

/-- First and last place of the FP32 results that the bound of Table 5.11 allows; the nearest one where none lies inside. -/
def sfuSingle (y bound : Q) : Int × Int :=
  let lo := FFmt.fp32.ordOf (FFmt.fp32.roundTo .ru 0 true (y.sub bound) true).1
  let hi := FFmt.fp32.ordOf (FFmt.fp32.roundTo .rd 0 true (y.add bound) false).1
  let near := FFmt.fp32.ordOf (FFmt.fp32.roundTo .rne 0 true y false).1
  if hi < lo then (near, near) else (lo, hi)

/-- First and last place in a bf16 or f16 destination: what those FP32 results round to, within 1 ULP of the destination
(R230); the nearest result where both together leave none. -/
def FFmt.sfuRange (ff : FFmt) (y : Q) (p : Int × Int) : Int × Int :=
  let near := fun o => ff.ordOf (ff.convert .rne 0 false (FFmt.fp32.value (FFmt.fp32.codeOf o false))).1
  let ulp := Q.pow2 (ff.spacing y)
  let lo := max (near p.1) (ff.ordOf (ff.roundTo .ru 0 false (y.sub ulp) true).1)
  let hi := min (near p.2) (ff.ordOf (ff.roundTo .rd 0 false (y.add ulp) false).1)
  let mid := ff.ordOf (ff.roundTo .rne 0 false y false).1
  if hi < lo then (mid, mid) else (lo, hi)

/-- The result in the destination's format: one of those that the bounds allow (DESIGN CHOICE: assumption 6); ∞ when the
exact result is too large. -/
def FFmt.sfuPick (ff : FFmt) (fn src : Nat) (y bound : Q) : Nat × Fx :=
  let neg := decide (y.num < 0)
  if FFmt.fp32.maxQ.lt y.abs then (ff.infCode neg, { of := true, nx := true }) else
  let p := sfuSingle y bound
  let r := if ff = .fp32 then p else ff.sfuRange y p
  let c := ff.codeOf (r.1 + ((Config.sfuChoice fn src % ((r.2 - r.1).toNat + 1) : Nat) : Int)) neg
  (c, { nx := true, of := c == ff.infCode neg })

def exactly (q : Q) : Sfu := .listed (.fin (decide (q.num < 0)) q) {}
def signedZero (neg : Bool) : Val := .fin neg Q.zero
def underflowed (neg : Bool) : Sfu := .listed (signedZero neg) { uf := true, nx := true }
def invalid : Sfu := .listed (.nan true) {}
def one (neg : Bool) : Val := .fin neg (if neg then Q.ofInt (-1) else Q.ofInt 1)
/-- A finite source whose result Table 5.12 lists as a limit that it does not reach: NX. -/
def limitOf (v : Val) : Sfu := .listed v { nx := true }

def sfuRcp (x : Val) : Sfu :=
  match x with
  | .fin n q => if q.isZero then .listed (.inf n) { dz := true }
    else
      let a := (Q.ofInt 1).divPos q.abs
      let y := if n then a.neg else a
      .within y (ulps 1 y)
  | .inf n => .listed (signedZero n) {}
  | .nan s => .listed (.nan s) {}

def sfuRsqrt (x : Val) : Sfu :=
  match x with
  | .fin n q => if q.isZero then .listed (.inf n) { dz := true } else if n then invalid
    else let y := sqrtQ ((Q.ofInt 1).divPos q); .within y (ulps 1 y)
  | .inf n => if n then invalid else .listed (signedZero false) {}
  | .nan s => .listed (.nan s) {}

def sfuSqrt (x : Val) : Sfu :=
  match x with
  | .fin n q => if q.isZero then .listed x {} else if n then invalid else let y := sqrtQ q; .within y (ulps 1 y)
  | .inf n => if n then invalid else .listed x {}
  | .nan s => .listed (.nan s) {}

def sfuExp2 (x : Val) : Sfu :=
  match x with
  | .fin _ q =>
    if (Q.ofInt 128).le q then .listed (.inf false) { of := true, nx := true }
    else if q.le (Q.ofInt (-150)) then underflowed false
    else if q.eqv (Q.ofInt q.floor) && (Q.ofInt (-126)).le q then exactly (Q.pow2 q.floor)
    else let y := exp2Q q; .within y (ulps 2 y)
  | .inf n => .listed (if n then signedZero false else .inf false) {}
  | .nan s => .listed (.nan s) {}

def sfuLog2 (x : Val) : Sfu :=
  match x with
  | .fin n q =>
    if q.isZero then .listed (.inf true) { dz := true } else if n then invalid
    else if q.eqv (Q.pow2 q.log2) then exactly (Q.ofInt q.log2)
    else
      let y := log2Q q
      .within y (if (Q.mk 1 2).le q && q.le (Q.ofInt 2) then Q.pow2 (-22) else ulps 2 y)
  | .inf n => if n then invalid else .listed (.inf false) {}
  | .nan s => .listed (.nan s) {}

def sfuSinpi (x : Val) : Sfu :=
  match x with
  | .fin n q =>
    let r := nearInt q
    if r.2.isZero then .listed (signedZero n) {}
    else if r.2.abs.eqv (Q.mk 1 2) then .listed (one (q.floor % 2 != 0)) {}
    else let y := sinPiQ q; .within y (ulps 2 y)
  | .inf _ => invalid
  | .nan s => .listed (.nan s) {}

def sfuCospi (x : Val) : Sfu :=
  match x with
  | .fin _ q =>
    let r := nearInt q
    if r.2.isZero then .listed (one (r.1 % 2 != 0)) {}
    else if r.2.abs.eqv (Q.mk 1 2) then .listed (signedZero false) {}
    else let y := cosPiQ q; .within y (ulps 2 y)
  | .inf _ => invalid
  | .nan s => .listed (.nan s) {}

def sfuTanh (x : Val) : Sfu :=
  match x with
  | .fin n q =>
    if q.isZero then .listed x {}
    else if (Q.mk 37 4).le q.abs then limitOf (one n)
    else let y := tanhQ q; .within y (ulps 2 y)
  | .inf n => .listed (one n) {}
  | .nan s => .listed (.nan s) {}

/-- A positive number below every FP32 magnitude, for results that are not zero. -/
def tinyQ : Q := Q.pow2 (-300)

def sfuSigm (x : Val) : Sfu :=
  match x with
  | .fin _ q =>
    if q.isZero then exactly (Q.mk 1 2)
    else if (Q.mk 35 2).le q then limitOf (one false)
    else if q.lt (Q.ofInt (-87)) then .within (if q.lt (Q.ofInt (-200)) then tinyQ else sigmQ q) (Q.pow2 (-148))
    else let y := sigmQ q; .within y (ulps 2 y)
  | .inf n => .listed (if n then signedZero false else one false) {}
  | .nan s => .listed (.nan s) {}

def sfuGelu (x : Val) : Sfu :=
  match x with
  | .fin _ q =>
    if q.isZero then .listed x {}
    else if q.le (Q.ofInt (-10)) then underflowed true
    else if q.lt (Q.ofInt (-3)) then .within (q.mul (phiQ q)) (Q.pow2 (-28))
    else let y := if (Q.ofInt 10).le q then q else q.mul (phiQ q); .within y (ulps 3 y)
  | .inf n => .listed (if n then signedZero true else .inf false) {}
  | .nan s => .listed (.nan s) {}

def sfuSilu (x : Val) : Sfu :=
  match x with
  | .fin _ q =>
    if q.isZero then .listed x {}
    else if q.le (Q.ofInt (-104)) then underflowed true
    else if q.lt (Q.ofInt (-80)) then .within (q.mul (sigmQ q)) ((Q.ofInt 3).scale (-149))
    else let y := if (Q.ofInt 200).le q then q else q.mul (sigmQ q); .within y (ulps 3 y)
  | .inf n => .listed (if n then signedZero true else .inf false) {}
  | .nan s => .listed (.nan s) {}

def sfuErf (x : Val) : Sfu :=
  match x with
  | .fin n q =>
    if q.isZero then .listed x {}
    else if (Q.ofInt 4).le q.abs then limitOf (one n)
    else let y := erfQ q; .within y (ulps 2 y)
  | .inf n => .listed (one n) {}
  | .nan s => .listed (.nan s) {}

/-- UF of a subnormal or zero result of a nonzero exact value. -/
def sfuUnder (ff : FFmt) (r : Nat × Fx) (nonzero : Bool) : Nat × Fx :=
  (r.1, { r.2 with uf := r.2.uf || (nonzero && (ff.isSub r.1 || r.1 % 2 ^ (ff.width - 1) == 0)) })

/-- One element of a special function, number `fn` in opcode order. -/
def sfuLane (fn : Nat) (f : Val → Sfu) (ty : BitVec 5) (fz : Bool) (_ : RMode) (_ : Nat) (l : List Nat) : Nat × Fx :=
  let x := vtVal ty fz (l.getD 0 0)
  let ff := vtFmt ty
  match f x with
  | .listed v fx =>
    let r := ff.flushRes fz (ff.convert .rne 0 false v)
    let r := sfuUnder ff r (match v with
      | .fin _ q => !q.isZero
      | _ => false)
    (r.1, r.2.join fx)
  | .within y b =>
    sfuUnder ff (ff.flushRes fz (ff.sfuPick fn (FFmt.fp32.convert .rne 0 false x).1 y b)) true

/-- A special-function instruction: it occupies its unit for N / 32 cycles (R203). -/
def sfuOp (s : State) (h : Hdr) (legal : Bool) (ty : BitVec 5) (mz : BitVec 1) (vd va : BitVec 6) (pg : BitVec 4)
    (fn : Nat) (f : Val → Sfu) : Host.Outcome State Fault Refusal :=
  let c := vtCount ty / 32
  vecPrivate s h legal (laneReads s mz vd [va] pg) 0 (typeTrap (vtFloat ty) ty)
    (fun s => if s.cycle < s.ctx.vec.sfuFree then some .other else none) fun m s =>
      let x := readV s (vphys s va)
      let r := laneResult ty (readP s pg) mz (readV s (vphys s vd)) fun i =>
        sfuLane fn f ty s.ctx.vec.fz m 0 [lane ty x i]
      let s := vecResult s (6 + c) [.v (vphys s vd) r.1] r.2
      .done (setCtx s { s.ctx with vec := { s.ctx.vec with sfuFree := s.cycle + c } })

def execVrcp (h : Hdr) (ty : BitVec 5) (mz : BitVec 1) (vd va : BitVec 6) (pg : BitVec 4) (s : State) :
    Host.Outcome State Fault Refusal := sfuOp s h (encodingOk (.vrcp h ty mz vd va pg) false) ty mz vd va pg 0 sfuRcp
def execVrsqrt (h : Hdr) (ty : BitVec 5) (mz : BitVec 1) (vd va : BitVec 6) (pg : BitVec 4) (s : State) :
    Host.Outcome State Fault Refusal := sfuOp s h (encodingOk (.vrsqrt h ty mz vd va pg) false) ty mz vd va pg 1 sfuRsqrt
def execVsqrt (h : Hdr) (ty : BitVec 5) (mz : BitVec 1) (vd va : BitVec 6) (pg : BitVec 4) (s : State) :
    Host.Outcome State Fault Refusal := sfuOp s h (encodingOk (.vsqrt h ty mz vd va pg) false) ty mz vd va pg 2 sfuSqrt
def execVexp2 (h : Hdr) (ty : BitVec 5) (mz : BitVec 1) (vd va : BitVec 6) (pg : BitVec 4) (s : State) :
    Host.Outcome State Fault Refusal := sfuOp s h (encodingOk (.vexp2 h ty mz vd va pg) false) ty mz vd va pg 3 sfuExp2
def execVlog2 (h : Hdr) (ty : BitVec 5) (mz : BitVec 1) (vd va : BitVec 6) (pg : BitVec 4) (s : State) :
    Host.Outcome State Fault Refusal := sfuOp s h (encodingOk (.vlog2 h ty mz vd va pg) false) ty mz vd va pg 4 sfuLog2
def execVsinpi (h : Hdr) (ty : BitVec 5) (mz : BitVec 1) (vd va : BitVec 6) (pg : BitVec 4) (s : State) :
    Host.Outcome State Fault Refusal := sfuOp s h (encodingOk (.vsinpi h ty mz vd va pg) false) ty mz vd va pg 5 sfuSinpi
def execVcospi (h : Hdr) (ty : BitVec 5) (mz : BitVec 1) (vd va : BitVec 6) (pg : BitVec 4) (s : State) :
    Host.Outcome State Fault Refusal := sfuOp s h (encodingOk (.vcospi h ty mz vd va pg) false) ty mz vd va pg 6 sfuCospi
def execVtanh (h : Hdr) (ty : BitVec 5) (mz : BitVec 1) (vd va : BitVec 6) (pg : BitVec 4) (s : State) :
    Host.Outcome State Fault Refusal := sfuOp s h (encodingOk (.vtanh h ty mz vd va pg) false) ty mz vd va pg 7 sfuTanh
def execVsigm (h : Hdr) (ty : BitVec 5) (mz : BitVec 1) (vd va : BitVec 6) (pg : BitVec 4) (s : State) :
    Host.Outcome State Fault Refusal := sfuOp s h (encodingOk (.vsigm h ty mz vd va pg) false) ty mz vd va pg 8 sfuSigm
def execVgelu (h : Hdr) (ty : BitVec 5) (mz : BitVec 1) (vd va : BitVec 6) (pg : BitVec 4) (s : State) :
    Host.Outcome State Fault Refusal := sfuOp s h (encodingOk (.vgelu h ty mz vd va pg) false) ty mz vd va pg 9 sfuGelu
def execVsilu (h : Hdr) (ty : BitVec 5) (mz : BitVec 1) (vd va : BitVec 6) (pg : BitVec 4) (s : State) :
    Host.Outcome State Fault Refusal := sfuOp s h (encodingOk (.vsilu h ty mz vd va pg) false) ty mz vd va pg 10 sfuSilu
def execVerf (h : Hdr) (ty : BitVec 5) (mz : BitVec 1) (vd va : BitVec 6) (pg : BitVec 4) (s : State) :
    Host.Outcome State Fault Refusal := sfuOp s h (encodingOk (.verf h ty mz vd va pg) false) ty mz vd va pg 11 sfuErf

end Sys2Proof.Machine
end

