-- ==== Sys2Proof/Machine/Dispatch.lean ====
section
/-! DEFINITION. The meaning of every instruction: one arm per constructor of `Instr`. -/
namespace Sys2Proof.Machine

def exec (i : Instr) (s : State) : Host.Outcome State Fault Refusal :=
  match i with
  | .add ad aa ab => Sys2Proof.Machine.execAdd ad aa ab s
  | .sub ad aa ab => Sys2Proof.Machine.execSub ad aa ab s
  | .and ad aa ab => Sys2Proof.Machine.execAnd ad aa ab s
  | .or ad aa ab => Sys2Proof.Machine.execOr ad aa ab s
  | .xor ad aa ab => Sys2Proof.Machine.execXor ad aa ab s
  | .sll ad aa ab => Sys2Proof.Machine.execSll ad aa ab s
  | .srl ad aa ab => Sys2Proof.Machine.execSrl ad aa ab s
  | .sra ad aa ab => Sys2Proof.Machine.execSra ad aa ab s
  | .slt ad aa ab => Sys2Proof.Machine.execSlt ad aa ab s
  | .sltu ad aa ab => Sys2Proof.Machine.execSltu ad aa ab s
  | .mul ad aa ab => Sys2Proof.Machine.execMul ad aa ab s
  | .mulh ad aa ab => Sys2Proof.Machine.execMulh ad aa ab s
  | .min ad aa ab => Sys2Proof.Machine.execMin ad aa ab s
  | .max ad aa ab => Sys2Proof.Machine.execMax ad aa ab s
  | .addi ad aa imm => Sys2Proof.Machine.execAddi ad aa imm s
  | .andi ad aa imm => Sys2Proof.Machine.execAndi ad aa imm s
  | .ori ad aa imm => Sys2Proof.Machine.execOri ad aa imm s
  | .xori ad aa imm => Sys2Proof.Machine.execXori ad aa imm s
  | .slti ad aa imm => Sys2Proof.Machine.execSlti ad aa imm s
  | .slli ad aa sh => Sys2Proof.Machine.execSlli ad aa sh s
  | .srli ad aa sh => Sys2Proof.Machine.execSrli ad aa sh s
  | .srai ad aa sh => Sys2Proof.Machine.execSrai ad aa sh s
  | .lui ad imm => Sys2Proof.Machine.execLui ad imm s
  | .lhi ad imm => Sys2Proof.Machine.execLhi ad imm s
  | .auipc ad imm => Sys2Proof.Machine.execAuipc ad imm s
  | .bEq aa ab disp => Sys2Proof.Machine.execBEq aa ab disp s
  | .bNe aa ab disp => Sys2Proof.Machine.execBNe aa ab disp s
  | .bLt aa ab disp => Sys2Proof.Machine.execBLt aa ab disp s
  | .bGe aa ab disp => Sys2Proof.Machine.execBGe aa ab disp s
  | .bLtu aa ab disp => Sys2Proof.Machine.execBLtu aa ab disp s
  | .bGeu aa ab disp => Sys2Proof.Machine.execBGeu aa ab disp s
  | .j disp => Sys2Proof.Machine.execJ disp s
  | .jal disp => Sys2Proof.Machine.execJal disp s
  | .jr aa imm => Sys2Proof.Machine.execJr aa imm s
  | .loop aa len cnt => Sys2Proof.Machine.execLoop aa len cnt s
  | .loopm aa len ii sc => Sys2Proof.Machine.execLoopm aa len ii sc s
  | .loopmPass e => Sys2Proof.Machine.execLoopmPass e s
  | .bfclr bf => Sys2Proof.Machine.execBfclr bf s
  | .bfset bf fld aa imm => Sys2Proof.Machine.execBfset bf fld aa imm s
  | .bfadd bf fld aa imm => Sys2Proof.Machine.execBfadd bf fld aa imm s
  | .bfget bf fld aa => Sys2Proof.Machine.execBfget bf fld aa s
  | .bfmov bf src => Sys2Proof.Machine.execBfmov bf src s
  | .twait mask sel n => Sys2Proof.Machine.execTwait mask sel n s
  | .slipw aa imm => Sys2Proof.Machine.execSlipw aa imm s
  | .ld h fe sd scope ord zext size ad bf aa imm => Sys2Proof.Machine.execLd h fe sd scope ord zext size ad bf aa imm s
  | .st h fe sd scope ord zext size src bf aa imm => Sys2Proof.Machine.execSt h fe sd scope ord zext size src bf aa imm s
  | .ldf h ad bf aa imm => Sys2Proof.Machine.execLdf h ad bf aa imm s
  | .stf h full ab bf aa imm => Sys2Proof.Machine.execStf h full ab bf aa imm s
  | .atom h fe sd scope ord zext size ad bf aa ab op imm => Sys2Proof.Machine.execAtom h fe sd scope ord zext size ad bf aa ab op imm s
  | .fence h scope ord => Sys2Proof.Machine.execFence h scope ord s
  | .bara h scope ad aa ab bid => Sys2Proof.Machine.execBara h scope ad aa ab bid s
  | .barw h scope ad ab bid => Sys2Proof.Machine.execBarw h scope ad ab bid s
  | .bars h scope ad aa ab bid => Sys2Proof.Machine.execBars h scope ad aa ab bid s
  | .hgive h aa ab imm => Sys2Proof.Machine.execHgive h aa ab imm s
  | .htake h ad aa imm => Sys2Proof.Machine.execHtake h ad aa imm s
  | .hqry h ad aa imm => Sys2Proof.Machine.execHqry h ad aa imm s
  | .abc h ad aa => Sys2Proof.Machine.execAbc h ad aa s
  | .abcReceive dst => Sys2Proof.Machine.execAbcReceive dst s
  | .foot h eng aa imm => Sys2Proof.Machine.execFoot h eng aa imm s
  | .csrr h reg ad => Sys2Proof.Machine.execCsrr h reg ad s
  | .csrw h reg aa => Sys2Proof.Machine.execCsrw h reg aa s
  | .bellr h ad => Sys2Proof.Machine.execBellr h ad s
  | .ttok h n => Sys2Proof.Machine.execTtok h n s
  | .tstart h aa ab entry => Sys2Proof.Machine.execTstart h aa ab entry s
  | .trap h imm => Sys2Proof.Machine.execTrap h imm s
  | .eret h => Sys2Proof.Machine.execEret h s
  | .taskend h aa => Sys2Proof.Machine.execTaskend h aa s
  | .qres h ad aa ab => Sys2Proof.Machine.execQres h ad aa ab s
  | .qtail h aa ab => Sys2Proof.Machine.execQtail h aa ab s
  | .qhead h ad aa => Sys2Proof.Machine.execQhead h ad aa s
  | .ditem h ad idx => Sys2Proof.Machine.execDitem h ad idx s
  | .dpush h aa stg => Sys2Proof.Machine.execDpush h aa stg s
  | .gclkr h ad => Sys2Proof.Machine.execGclkr h ad s
  | .bellw h aa imm => Sys2Proof.Machine.execBellw h aa imm s
  | .vadd h ty rm mz vd va vb pg => Sys2Proof.Machine.execVadd h ty rm mz vd va vb pg s
  | .vsub h ty rm mz vd va vb pg => Sys2Proof.Machine.execVsub h ty rm mz vd va vb pg s
  | .vmul h ty rm mz vd va vb pg => Sys2Proof.Machine.execVmul h ty rm mz vd va vb pg s
  | .vmin h ty mz vd va vb pg => Sys2Proof.Machine.execVmin h ty mz vd va vb pg s
  | .vmax h ty mz vd va vb pg => Sys2Proof.Machine.execVmax h ty mz vd va vb pg s
  | .vmulh h ty mz vd va vb pg => Sys2Proof.Machine.execVmulh h ty mz vd va vb pg s
  | .vadds h ty mz vd va vb pg => Sys2Proof.Machine.execVadds h ty mz vd va vb pg s
  | .vsubs h ty mz vd va vb pg => Sys2Proof.Machine.execVsubs h ty mz vd va vb pg s
  | .vfma h ty rm mz vd va vb vc pg => Sys2Proof.Machine.execVfma h ty rm mz vd va vb vc pg s
  | .vfms h ty rm mz vd va vb vc pg => Sys2Proof.Machine.execVfms h ty rm mz vd va vb vc pg s
  | .vfnma h ty rm mz vd va vb vc pg => Sys2Proof.Machine.execVfnma h ty rm mz vd va vb vc pg s
  | .vabs h ty mz vd va pg => Sys2Proof.Machine.execVabs h ty mz vd va pg s
  | .vneg h ty mz vd va pg => Sys2Proof.Machine.execVneg h ty mz vd va pg s
  | .vand h ty mz vd va vb pg => Sys2Proof.Machine.execVand h ty mz vd va vb pg s
  | .vor h ty mz vd va vb pg => Sys2Proof.Machine.execVor h ty mz vd va vb pg s
  | .vxor h ty mz vd va vb pg => Sys2Proof.Machine.execVxor h ty mz vd va vb pg s
  | .vnot h ty mz vd va pg => Sys2Proof.Machine.execVnot h ty mz vd va pg s
  | .vsll h ty mz vd va vb pg => Sys2Proof.Machine.execVsll h ty mz vd va vb pg s
  | .vsrl h ty mz vd va vb pg => Sys2Proof.Machine.execVsrl h ty mz vd va vb pg s
  | .vsra h ty mz vd va vb pg => Sys2Proof.Machine.execVsra h ty mz vd va vb pg s
  | .vcmp h ty mz cond pd va vb pg => Sys2Proof.Machine.execVcmp h ty mz cond pd va vb pg s
  | .vsel h ty vd va vb pg => Sys2Proof.Machine.execVsel h ty vd va vb pg s
  | .pand h pd pa pb => Sys2Proof.Machine.execPand h pd pa pb s
  | .por h pd pa pb => Sys2Proof.Machine.execPor h pd pa pb s
  | .pxor h pd pa pb => Sys2Proof.Machine.execPxor h pd pa pb s
  | .pnot h pd pa => Sys2Proof.Machine.execPnot h pd pa s
  | .pcnt h ty ad pa => Sys2Proof.Machine.execPcnt h ty ad pa s
  | .vcvt h ty rm mz aux vd va dty pg => Sys2Proof.Machine.execVcvt h ty rm mz aux vd va dty pg s
  | .vred h ty rm op vd va pg seg => Sys2Proof.Machine.execVred h ty rm op vd va pg seg s
  | .vperm h ty mz aux vd va vb pg => Sys2Proof.Machine.execVperm h ty mz aux vd va vb pg s
  | .vdup h ty mz vd aa pg => Sys2Proof.Machine.execVdup h ty mz vd aa pg s
  | .vzip h ty vd va vb => Sys2Proof.Machine.execVzip h ty vd va vb s
  | .vunzip h ty vd va => Sys2Proof.Machine.execVunzip h ty vd va s
  | .vgetx h ty ad va aa => Sys2Proof.Machine.execVgetx h ty ad va aa s
  | .vld h ty mz fe vd bf aa pg imm => Sys2Proof.Machine.execVld h ty mz fe vd bf aa pg imm s
  | .vst h ty fe vs bf aa pg imm => Sys2Proof.Machine.execVst h ty fe vs bf aa pg imm s
  | .vldg h ty mz vd bf aa pg vi => Sys2Proof.Machine.execVldg h ty mz vd bf aa pg vi s
  | .vsts h ty vs bf aa pg vi => Sys2Proof.Machine.execVsts h ty vs bf aa pg vi s
  | .vqld h ty rm mz cb vd bf aa pg => Sys2Proof.Machine.execVqld h ty rm mz cb vd bf aa pg s
  | .vqst h ty imp cb vs bf aa pg ab vb => Sys2Proof.Machine.execVqst h ty imp cb vs bf aa pg ab vb s
  | .vrcp h ty mz vd va pg => Sys2Proof.Machine.execVrcp h ty mz vd va pg s
  | .vrsqrt h ty mz vd va pg => Sys2Proof.Machine.execVrsqrt h ty mz vd va pg s
  | .vsqrt h ty mz vd va pg => Sys2Proof.Machine.execVsqrt h ty mz vd va pg s
  | .vexp2 h ty mz vd va pg => Sys2Proof.Machine.execVexp2 h ty mz vd va pg s
  | .vlog2 h ty mz vd va pg => Sys2Proof.Machine.execVlog2 h ty mz vd va pg s
  | .vsinpi h ty mz vd va pg => Sys2Proof.Machine.execVsinpi h ty mz vd va pg s
  | .vcospi h ty mz vd va pg => Sys2Proof.Machine.execVcospi h ty mz vd va pg s
  | .vtanh h ty mz vd va pg => Sys2Proof.Machine.execVtanh h ty mz vd va pg s
  | .vsigm h ty mz vd va pg => Sys2Proof.Machine.execVsigm h ty mz vd va pg s
  | .vgelu h ty mz vd va pg => Sys2Proof.Machine.execVgelu h ty mz vd va pg s
  | .vsilu h ty mz vd va pg => Sys2Proof.Machine.execVsilu h ty mz vd va pg s
  | .verf h ty mz vd va pg => Sys2Proof.Machine.execVerf h ty mz vd va pg s
  | .mload h st fe tr pfmt cb bf aa ab ac => Sys2Proof.Machine.execMload h st fe tr pfmt cb bf aa ab ac s
  | .mloadFillComplete op => Sys2Proof.Machine.execMloadFillComplete op s
  | .mflip h st => Sys2Proof.Machine.execMflip h st s
  | .mflipTakesEffect op => Sys2Proof.Machine.execMflipTakesEffect op s
  | .mdrop h => Sys2Proof.Machine.execMdrop h s
  | .mstream h st fe acc zd pfmt cb bf aa ab ac am m1 => Sys2Proof.Machine.execMstream h st fe acc zd pfmt cb bf aa ab ac am m1 s
  | .mstreamComplete op => Sys2Proof.Machine.execMstreamComplete op s
  | .mzero h zd => Sys2Proof.Machine.execMzero h zd s
  | .mwin h zd w => Sys2Proof.Machine.execMwin h zd w s
  | .mcopy h zd za => Sys2Proof.Machine.execMcopy h zd za s
  | .madd h zd za => Sys2Proof.Machine.execMadd h zd za s
  | .mgetz h zd q hi ad aa => Sys2Proof.Machine.execMgetz h zd q hi ad aa s
  | .mdrain h st clr grad zd rm bf aa ab ac am => Sys2Proof.Machine.execMdrain h st clr grad zd rm bf aa ab ac am s
  | .tileSignatureFormed op => Sys2Proof.Machine.execTileSignatureFormed op s
  | .msigr h ad ab => Sys2Proof.Machine.execMsigr h ad ab s
  | .msync h => Sys2Proof.Machine.execMsync h s
  | .mcb h fe cbn n256 bf aa => Sys2Proof.Machine.execMcb h fe cbn n256 bf aa s
  | .mstat h clr ad => Sys2Proof.Machine.execMstat h clr ad s
  | .mpert h aa ab ac => Sys2Proof.Machine.execMpert h aa ab ac s
  | .mpoff h => Sys2Proof.Machine.execMpoff h s
  | .mpstep h ib imm => Sys2Proof.Machine.execMpstep h ib imm s
  | .mpref h fe tr bf aa ab ac => Sys2Proof.Machine.execMpref h fe tr bf aa ab ac s
  | .mpsamp h q hh ad aa => Sys2Proof.Machine.execMpsamp h q hh ad aa s
  | .rstat h sel ad => Sys2Proof.Machine.execRstat h sel ad s
  | .rchk h aa => Sys2Proof.Machine.execRchk h aa s
  | .rmode h aa => Sys2Proof.Machine.execRmode h aa s
  | .rinj h q aa ab => Sys2Proof.Machine.execRinj h q aa ab s
  | .bcopy h ac cr fe bfd bfs ad src an => Sys2Proof.Machine.execBcopy h ac cr fe bfd bfs ad src an s
  | .bcopyS h ac cr fe bfd bfs ad src an ag => Sys2Proof.Machine.execBcopyS h ac cr fe bfd bfs ad src an ag s
  | .bfill h ac cr bfd ad src an => Sys2Proof.Machine.execBfill h ac cr bfd ad src an s
  | .bdedup h ac cr bft bfs slot src => Sys2Proof.Machine.execBdedup h ac cr bft bfs slot src s
  | .bcow h ac cr bft bfs slot src ap => Sys2Proof.Machine.execBcow h ac cr bft bfs slot src ap s
  | .bcmp h ac cr bft bfs slot src => Sys2Proof.Machine.execBcmp h ac cr bft bfs slot src s
  | .bwait h ac ring aa imm => Sys2Proof.Machine.execBwait h ac ring aa imm s
  | .bacnt h ac ad => Sys2Proof.Machine.execBacnt h ac ad s
  | .bsync h => Sys2Proof.Machine.execBsync h s
  | .copyCompletion op => Sys2Proof.Machine.execCopyCompletion op s
  | .tcvt h rm fe sf aux bfd bfs ad src an => Sys2Proof.Machine.execTcvt h rm fe sf aux bfd bfs ad src an s
  | .tcvti h fe sf aux bfd bfs ad src an ax => Sys2Proof.Machine.execTcvti h fe sf aux bfd bfs ad src an ax s
  | .tamax h fe sf bs bfd bfs ad src an => Sys2Proof.Machine.execTamax h fe sf bs bfd bfs ad src an s
  | .tsqze h fe sf bfd bfs ad src an => Sys2Proof.Machine.execTsqze h fe sf bfd bfs ad src an s
  | .tsqzd h fe sf bfd bfs ad src an => Sys2Proof.Machine.execTsqzd h fe sf bfd bfs ad src an s
  | .ttr h fe sf bfd bfs ad src an => Sys2Proof.Machine.execTtr h fe sf bfd bfs ad src an s
  | .tbara h bid aa => Sys2Proof.Machine.execTbara h bid aa s
  | .tbarw h bid => Sys2Proof.Machine.execTbarw h bid s
  | .tbars h bid aa => Sys2Proof.Machine.execTbars h bid aa s
  | .tld h ad bf aa imm => Sys2Proof.Machine.execTld h ad bf aa imm s
  | .tst h src bf aa imm => Sys2Proof.Machine.execTst h src bf aa imm s
  | .trd h reg ad => Sys2Proof.Machine.execTrd h reg ad s
  | .twr h reg aa => Sys2Proof.Machine.execTwr h reg aa s
  | .tsync h => Sys2Proof.Machine.execTsync h s
  | .cadd h rm bfd bfs ad src an => Sys2Proof.Machine.execCadd h rm bfd bfs ad src an s
  | .cmin h bfd bfs ad src an => Sys2Proof.Machine.execCmin h bfd bfs ad src an s
  | .cmax h bfd bfs ad src an => Sys2Proof.Machine.execCmax h bfd bfs ad src an s
  | .caxpy h rm bfd bfs ad src an ab => Sys2Proof.Machine.execCaxpy h rm bfd bfs ad src an ab s
  | .cscal h rm bfd ad an ab => Sys2Proof.Machine.execCscal h rm bfd ad an ab s
  | .binit h scope ad bf aa ab => Sys2Proof.Machine.execBinit h scope ad bf aa ab s
  | .cbar h ad bf aa ab => Sys2Proof.Machine.execCbar h ad bf aa ab s
  | .cbwait h ad bf aa ab => Sys2Proof.Machine.execCbwait h ad bf aa ab s
  | .barrierLinePoison key => Sys2Proof.Machine.execBarrierLinePoison key s
  | .atomicRequest req => Sys2Proof.Machine.execAtomicRequest req s
  | .registerResultLanding op => Sys2Proof.Machine.execRegisterResultLanding op s
  | .loadDataReturn op => Sys2Proof.Machine.execLoadDataReturn op s
  | .pendingPush e => Sys2Proof.Machine.execPendingPush e s
  | .tokenTimeout e => Sys2Proof.Machine.execTokenTimeout e s
  | .feTimeout e => Sys2Proof.Machine.execFeTimeout e s
  | .translationResolve part vpn => Sys2Proof.Machine.execTranslationResolve part vpn s
  | .translationAbort part vpn => Sys2Proof.Machine.execTranslationAbort part vpn s
  | .pageWalk part vpn => Sys2Proof.Machine.execPageWalk part vpn s
  | .tlbiAll die part => Sys2Proof.Machine.execTlbiAll die part s
  | .tlbiPages die part vpn pages => Sys2Proof.Machine.execTlbiPages die part vpn pages s
  | .aliasWriteback line => Sys2Proof.Machine.execAliasWriteback line s
  | .frEnable stack region v => Sys2Proof.Machine.execFrEnable stack region v s
  | .frDisable stack region => Sys2Proof.Machine.execFrDisable stack region s
  | .channelMigration stack unit64k channel => Sys2Proof.Machine.execChannelMigration stack unit64k channel s
  | .slipwWrite v => Sys2Proof.Machine.execSlipwWrite v s
  | .cringHeadWrite v => Sys2Proof.Machine.execCringHeadWrite v s
  | .reeveModeWrite v => Sys2Proof.Machine.execReeveModeWrite v s
  | .wqEnable q v => Sys2Proof.Machine.execWqEnable q v s
  | .wqDisable q v => Sys2Proof.Machine.execWqDisable q v s
  | .wqTailWrite q v => Sys2Proof.Machine.execWqTailWrite q v s
  | .hostFetchadd fn q v => Sys2Proof.Machine.execHostFetchadd fn q v s
  | .stage0ItemGenerate pipe => Sys2Proof.Machine.execStage0ItemGenerate pipe s
  | .instanceEnd pipe => Sys2Proof.Machine.execInstanceEnd pipe s
  | .pipelineStall pipe => Sys2Proof.Machine.execPipelineStall pipe s
  | .partitionEnable part => Sys2Proof.Machine.execPartitionEnable part s
  | .partitionDisable part => Sys2Proof.Machine.execPartitionDisable part s
  | .resume part core => Sys2Proof.Machine.execResume part core s
  | .abort part core => Sys2Proof.Machine.execAbort part core s
  | .run part core => Sys2Proof.Machine.execRun part core s
  | .halt part => Sys2Proof.Machine.execHalt part s
  | .planeDiffBroadcast msg => Sys2Proof.Machine.execPlaneDiffBroadcast msg s
  | .shadowPlaneLoad offset data => Sys2Proof.Machine.execShadowPlaneLoad offset data s
  | .crier msg => Sys2Proof.Machine.execCrier msg s
  | .limitLower lim code effective => Sys2Proof.Machine.execLimitLower lim code effective s
  | .unannouncedClamp code cause => Sys2Proof.Machine.execUnannouncedClamp code cause s
  | .heartbeat msg => Sys2Proof.Machine.execHeartbeat msg s
  | .round msg => Sys2Proof.Machine.execRound msg s
  | .rparam msg => Sys2Proof.Machine.execRparam msg s
  | .peerSilenceTimeout member => Sys2Proof.Machine.execPeerSilenceTimeout member s
  | .silent msg => Sys2Proof.Machine.execSilent msg s
  | .join msg => Sys2Proof.Machine.execJoin msg s
  | .leave msg => Sys2Proof.Machine.execLeave msg s
  | .mootJoinCommand place => Sys2Proof.Machine.execMootJoinCommand place s
  | .quotaExhausted part => Sys2Proof.Machine.execQuotaExhausted part s
  | .rpcapWrite cap code effective => Sys2Proof.Machine.execRpcapWrite cap code effective s
  | .sensFailClear die mask => Sys2Proof.Machine.execSensFailClear die mask s
  | .flitReceive port flit => Sys2Proof.Machine.execFlitReceive port flit s
  | .linkDown port => Sys2Proof.Machine.execLinkDown port s
  | .routeWaitTimeout pkg => Sys2Proof.Machine.execRouteWaitTimeout pkg s
  | .hostBarAccess req => Sys2Proof.Machine.execHostBarAccess req s
  | .hostCompletion op error => Sys2Proof.Machine.execHostCompletion op error s
  | .restore core path => Sys2Proof.Machine.execRestore core path s
  | .pkgnum number => Sys2Proof.Machine.execPkgnum number s
  | .startupStage ok code => Sys2Proof.Machine.execStartupStage ok code s
  | .registerWrite offset v => Sys2Proof.Machine.execRegisterWrite offset v s
  | .reservedEncoding w0 w1 => Sys2Proof.Machine.execReservedEncoding w0 w1 s
  | .writeBackAcknowledged op => Sys2Proof.Machine.execWriteBackAcknowledged op s
  | .sensorFail die site => Sys2Proof.Machine.execSensorFail die site s
  | .linkUp port peer => Sys2Proof.Machine.execLinkUp port peer s
  | .controlPathError die => Sys2Proof.Machine.execControlPathError die s
  | .laneSpare port lane => Sys2Proof.Machine.execLaneSpare port lane s
  | .replayTimeout port => Sys2Proof.Machine.execReplayTimeout port s
  | .linkOff port => Sys2Proof.Machine.execLinkOff port s
  | .stampedIssue => Sys2Proof.Machine.execStampedIssue s
  | .poundCommit => Sys2Proof.Machine.execPoundCommit s
  | .reeveMismatch => Sys2Proof.Machine.execReeveMismatch s
  | .reeveSampledCheck => Sys2Proof.Machine.execReeveSampledCheck s
  | .reeveForcedCheck => Sys2Proof.Machine.execReeveForcedCheck s
  | .transformCompletion => Sys2Proof.Machine.execTransformCompletion s
  | .faultRecord => Sys2Proof.Machine.execFaultRecord s
  | .invalidationComplete => Sys2Proof.Machine.execInvalidationComplete s
  | .strandLaunch => Sys2Proof.Machine.execStrandLaunch s
  | .sliceExpiry => Sys2Proof.Machine.execSliceExpiry s
  | .contextSwap => Sys2Proof.Machine.execContextSwap s
  | .planeDiffApply => Sys2Proof.Machine.execPlaneDiffApply s
  | .swapToken => Sys2Proof.Machine.execSwapToken s
  | .planeSwap => Sys2Proof.Machine.execPlaneSwap s
  | .ceilingEffective => Sys2Proof.Machine.execCeilingEffective s
  | .heartbeatSend => Sys2Proof.Machine.execHeartbeatSend s
  | .roundSend => Sys2Proof.Machine.execRoundSend s
  | .roundTick => Sys2Proof.Machine.execRoundTick s
  | .roundMiss => Sys2Proof.Machine.execRoundMiss s
  | .mootLeaveCommand => Sys2Proof.Machine.execMootLeaveCommand s
  | .quiesce => Sys2Proof.Machine.execQuiesce s
  | .reset => Sys2Proof.Machine.execReset s
  | .powerOnReset => Sys2Proof.Machine.execPowerOnReset s
  | .powerFault => Sys2Proof.Machine.execPowerFault s
  | .bellTargetReached => Sys2Proof.Machine.execBellTargetReached s
  | .stage => Sys2Proof.Machine.execStage s
  | .phase => Sys2Proof.Machine.execPhase s
  | .nop => Sys2Proof.Machine.execNop s
  | .endText => Sys2Proof.Machine.execEndText s

end Sys2Proof.Machine
end

