-- ==== Sys2Proof/Machine/Step.lean ====
section
/-! DEFINITION. One step of the machine: the event due next, or what is served ahead of the slot of the engine whose turn it is,
or that slot, or the close of the cycle. -/
namespace Sys2Proof.Machine

/-- One step. Without power only a power-on reset does anything (R493). -/
def step (s : State) : Host.Outcome State Fault Refusal :=
  if s.host.powered = false then powerless s
  else match s.inbox with
    | i :: r => exec i { s with inbox := r }
    | [] =>
      match s.turn with
      | .close => .next (closeCycle s)
      | .eng e =>
        match dueBefore s e with
        | i :: _ => exec i s
        | [] =>
          match slot s e with
          | .idle t => .next (advance t e)
          | .pass t => .next t
          | .free i => exec i s
          | .exec i => afterSlot e (exec i s)
where
  /-- A part without power: the power-on reset among its inputs, or nothing at all. -/
  powerless (s : State) : Host.Outcome State Fault Refusal :=
    match s.script.find? fun x => x.2 == .powerOnReset with
    | some _ => exec .powerOnReset s
    | none => .fault .noPower

/-- `s` with the instruction of the opcode table's numbering stored where its engine fetches next. -/
def State.withFetchWord (s : State) (nbits w : Nat) : State :=
  let x := BitVec.ofNat 64 (w % 2 ^ nbits)
  placeWords s (field x 0 32) (field x 32 32)

end Sys2Proof.Machine
end

