-- ==== Sys2Proof/Safety.lean ====
section
/-! DEFINITION. Safe states and steps, and the terms of the claims: what every run keeps, when an instruction can issue,
and what the end of an issue leaves. -/
namespace Sys2Proof.Machine

/-- A step that goes on: the machine neither stops nor refuses. -/
def Steps (s : State) : Prop := ∃ t, step s = .next t

/-- The invariant of the machine's memory: its bytes are listed in canonical form. -/
def State.MemOk (s : State) : Prop := Memory.wf s.mem

/-- No outstanding result of the registers `srcs` holds back an instruction of engine `e` that reads them (R22, R24). -/
def Readable (s : State) (e : Engine) (srcs : List Reg) : Prop := readHazard s e srcs = none

/-- The same for a control-subset instruction on the engine whose turn it is. -/
def CtlReady (s : State) (srcs : List (BitVec 5)) : Prop := Readable s s.cur (srcs.map ra)

/-- The tokens and places that the header of an instruction of engine `e` asks for are there (R15, R17), and its sources
`srcs` can be read. -/
def Issues (s : State) (e : Engine) (h : Hdr) (srcs : List Reg) : Prop := popWait s e h = none ∧ Readable s e srcs

/-- The end of a control word whose effect is `t`: its engine passes the word and waits for nothing (R59). -/
def wordPassed (s t : State) : State := clearWait (passWord t s.cur) s.cur

/-- The end of a private instruction whose effect on `s` is `t`: its tokens are popped, its pushes queued, its holds set and
both its words passed (R15, R16, R21). -/
def pairPassed (s t : State) (e : Engine) (h : Hdr) : State := clearWait (issued s t e h) e

/-- The signed value of a register. -/
def sintA (s : State) (e : Engine) (n : BitVec 5) : Int := (readA s e n).toInt

/-- The unsigned value of a register. -/
def uintA (s : State) (e : Engine) (n : BitVec 5) : Nat := (readA s e n).toNat

/-- The engine stands in no loop body. -/
def Straight (x : Eng) : Prop := x.seq = none ∧ x.loops = []

/-- Two states that agree on every byte of the package, at its home and through the core's caches. -/
def SameBytes (s t : State) : Prop :=
  (∀ k, memGet t.mem k = memGet s.mem k) ∧ (∀ pa, homeByte t pa = homeByte s pa) ∧ (∀ pa, cachedByte t pa = cachedByte s pa)

/-- Two states that differ only in the engine `e` of the running context. -/
def OnlyEngine (e : Engine) (s t : State) : Prop := ∃ x, t = s.setEng e x

/-! ### The control subset as the tables of chapter 2 list it -/

/-- Table 2.8: the integer-group form of a function code. -/
def intForm (f : Nat) (ad aa ab : BitVec 5) : Option Instr :=
  match f with
  | 0 => some (.add ad aa ab)
  | 1 => some (.sub ad aa ab)
  | 2 => some (.and ad aa ab)
  | 3 => some (.or ad aa ab)
  | 4 => some (.xor ad aa ab)
  | 5 => some (.sll ad aa ab)
  | 6 => some (.srl ad aa ab)
  | 7 => some (.sra ad aa ab)
  | 8 => some (.slt ad aa ab)
  | 9 => some (.sltu ad aa ab)
  | 10 => some (.mul ad aa ab)
  | 11 => some (.mulh ad aa ab)
  | 12 => some (.min ad aa ab)
  | 13 => some (.max ad aa ab)
  | _ => none

/-- R77: the integer `n` of a function code, for the register values `p` and `q`. -/
def intResult (f : Nat) (p q : BitVec 64) : Int :=
  let x := p.toInt
  let y := q.toInt
  let ux : Int := p.toNat
  let uy : Int := q.toNat
  let sh := q.toNat % 64
  match f with
  | 0 => x + y
  | 1 => x - y
  | 2 => ((p &&& q).toNat : Int)
  | 3 => ((p ||| q).toNat : Int)
  | 4 => ((p ^^^ q).toNat : Int)
  | 5 => ux * 2 ^ sh
  | 6 => ux / 2 ^ sh
  | 7 => x / 2 ^ sh
  | 8 => if x < y then 1 else 0
  | 9 => if ux < uy then 1 else 0
  | 10 => x * y
  | 11 => x * y / 2 ^ 64
  | 12 => if x < y then x else y
  | _ => if x > y then x else y

/-- Table 2.2: the register and immediate form of a major opcode; none where the field of a shift form that must be zero is
not. -/
def immForm (m : Nat) (ad aa : BitVec 5) (imm : BitVec 15) : Option Instr :=
  let sh (i : Instr) : Option Instr := if field imm 6 9 = 0#9 then some i else none
  match m with
  | 2 => some (.addi ad aa imm)
  | 3 => some (.andi ad aa imm)
  | 4 => some (.ori ad aa imm)
  | 5 => some (.xori ad aa imm)
  | 6 => some (.slti ad aa imm)
  | 7 => sh (.slli ad aa (field imm 0 6))
  | 8 => sh (.srli ad aa (field imm 0 6))
  | 9 => sh (.srai ad aa (field imm 0 6))
  | _ => none

/-- The function code of the integer-group namesake of a major opcode (R78). -/
def immNamesake (m : Nat) : Nat :=
  match m with
  | 2 => 0
  | 3 => 2
  | 4 => 3
  | 5 => 4
  | 6 => 8
  | 7 => 5
  | 8 => 6
  | _ => 7

/-- R80: the branch of a condition code. -/
def branchForm (c : Nat) (aa ab : BitVec 5) (disp : BitVec 12) : Option Instr :=
  match c with
  | 0 => some (.bEq aa ab disp)
  | 1 => some (.bNe aa ab disp)
  | 2 => some (.bLt aa ab disp)
  | 3 => some (.bGe aa ab disp)
  | 4 => some (.bLtu aa ab disp)
  | 5 => some (.bGeu aa ab disp)
  | _ => none

/-- R80: whether the condition holds for two register values. -/
def branchHolds (c : Nat) (p q : BitVec 64) : Prop :=
  match c with
  | 0 => p = q
  | 1 => p ≠ q
  | 2 => p.toInt < q.toInt
  | 3 => q.toInt ≤ p.toInt
  | 4 => p.toNat < q.toNat
  | _ => q.toNat ≤ p.toNat

/-- The fault of a control word that is not legal where it stands: the Steward reports ILLEGAL_OP, in Thresher text the
Thresher (R63). -/
def illegalWord (s : State) : Host.Outcome State Fault Refusal := .next (raise s s.cur (stewardTrap s.cur .illegalOp))

/-- `pc + 4 × sint(disp)` at the engine whose turn it is. -/
def dispFrom {w : Nat} (s : State) (disp : BitVec w) : BitVec 64 := BitVec.ofInt 64 ((s.eng s.cur).pc.toNat + 4 * disp.toInt)

/-! ### Accesses -/

/-- Keys that strictly rise. -/
def Rising (l : List Host.Cell) : Prop := (l.map (·.1)).Pairwise (· < ·)

/-- A cache lists its dirty and its clean bytes by strictly rising addresses, each in a line that it holds. -/
def Cache.Ok (c : Cache) : Prop := Rising c.dirty ∧ Rising c.clean ∧ ∀ x ∈ c.dirty ++ c.clean, c.holds (x.1 / 64) = true

/-- Memory and the bytes of every cache are in canonical form. -/
def State.BytesOk (s : State) : Prop := s.MemOk ∧ s.l1.Ok ∧ s.qc.Ok ∧ Rising s.llc

/-- A byte as the core's own stores left it: dirty in the L1, else dirty in the quad cache, else at its home (R34). -/
def latestByte (s : State) (pa : Nat) : Byte := ((ovGet s.l1.dirty pa).or (ovGet s.qc.dirty pa)).getD (homeByte s pa)

/-- Every clean byte that the core's caches hold is the byte that lies behind it: nobody else has written there since it was
fetched. -/
def State.Fresh (s : State) : Prop := ∀ pa b,
  (ovGet s.l1.clean pa = some b → ovGet s.l1.dirty pa = none → b = latestByte s pa) ∧
  (ovGet s.qc.clean pa = some b → ovGet s.qc.dirty pa = none → b = homeByte s pa)

/-- No format region is enabled, so that no address is an alias (R398). -/
def NoAlias (s : State) : Prop := ∀ r ∈ s.regions, r.2.en = false

/-- Outside `ks`, every byte reads as before, as the core sees it through its caches. -/
def SameOutside (ks : List Nat) (s t : State) : Prop := ∀ k, k ∉ ks → cachedByte t k = cachedByte s k

/-- An instruction of the Steward is legal, has the tokens that its header asks for, and can read `srcs`. -/
def StewardReady (s : State) (i : Instr) (h : Hdr) (srcs : List Reg) : Prop :=
  encodingOk i false = true ∧ Issues s .ctl h srcs

/-- R171: what a load of `n` bytes writes: zero- or sign-extended, lowest byte first. -/
def loaded (n : Nat) (zext : Bool) (bytes : List Byte) : BitVec 64 :=
  if zext then BitVec.ofNat 64 (leValue bytes) else BitVec.ofInt 64 (BitVec.ofNat (8 * n) (leValue bytes)).toInt

/-- Table 4.9 on words of `w` bits: the value that an atomic leaves at its location. -/
def atomicLeaves {w : Nat} (op : BitVec 4) (old v c : BitVec w) : BitVec w :=
  match op.toNat with
  | 0 => old + v
  | 1 => old &&& v
  | 2 => old ||| v
  | 3 => old ^^^ v
  | 4 => if v.toInt < old.toInt then v else old
  | 5 => if old.toInt < v.toInt then v else old
  | 6 => if v.toNat < old.toNat then v else old
  | 7 => if old.toNat < v.toNat then v else old
  | 8 => v
  | _ => if old = c then v else old

/-- The release of an ordered form at a scope, if it has one, is done and leaves `u` (R157, R172). -/
def Released (s : State) (e : Engine) (scope : Option (BitVec 3)) (u : State) : Prop :=
  match scope with
  | none => u = s
  | some sc => releasePrep s e sc = (u, true)

/-! ### The vector engine (chapter 5) -/

/-- An instruction of the vector engine is legal, has the tokens that its header asks for, and can read `srcs`. -/
def VectorReady (s : State) (i : Instr) (h : Hdr) (srcs : List Reg) : Prop :=
  encodingOk i false = true ∧ Issues s .vec h srcs

/-- The element-wise forms of Table 5.9. -/
inductive LaneForm where
  | add | sub | mul | min | max | mulh | adds | subs | fma | fms | fnma | abs | neg
  | and | or | xor | not | sll | srl | sra
deriving DecidableEq, Repr

/-- The instruction of a form. -/
def LaneForm.instr (k : LaneForm) (h : Hdr) (ty : BitVec 5) (rm : BitVec 3) (mz : BitVec 1) (vd va vb vc : BitVec 6)
    (pg : BitVec 4) : Instr :=
  match k with
  | .add => .vadd h ty rm mz vd va vb pg
  | .sub => .vsub h ty rm mz vd va vb pg
  | .mul => .vmul h ty rm mz vd va vb pg
  | .min => .vmin h ty mz vd va vb pg
  | .max => .vmax h ty mz vd va vb pg
  | .mulh => .vmulh h ty mz vd va vb pg
  | .adds => .vadds h ty mz vd va vb pg
  | .subs => .vsubs h ty mz vd va vb pg
  | .fma => .vfma h ty rm mz vd va vb vc pg
  | .fms => .vfms h ty rm mz vd va vb vc pg
  | .fnma => .vfnma h ty rm mz vd va vb vc pg
  | .abs => .vabs h ty mz vd va pg
  | .neg => .vneg h ty mz vd va pg
  | .and => .vand h ty mz vd va vb pg
  | .or => .vor h ty mz vd va vb pg
  | .xor => .vxor h ty mz vd va vb pg
  | .not => .vnot h ty mz vd va pg
  | .sll => .vsll h ty mz vd va vb pg
  | .srl => .vsrl h ty mz vd va vb pg
  | .sra => .vsra h ty mz vd va vb pg

/-- Forms that carry a rounding mode; the others have none, which is mode 0. -/
def LaneForm.rounds (k : LaneForm) : Bool := k ∈ [.add, .sub, .mul, .fma, .fms, .fnma]

/-- The source registers of a form. -/
def LaneForm.sources (k : LaneForm) (va vb vc : BitVec 6) : List (BitVec 6) :=
  if k ∈ [.fma, .fms, .fnma] then [va, vb, vc] else if k ∈ [.abs, .neg, .not] then [va] else [va, vb]

/-- The element types that a form accepts (chapter 5, arithmetic). -/
def LaneForm.accepts (k : LaneForm) (ty : BitVec 5) : Bool :=
  if k ∈ [.and, .or, .xor, .not] then true
  else if k ∈ [.abs, .neg] then (vtInt ty && vtSigned ty) || vtFloat ty
  else if k ∈ [.mulh, .adds, .subs, .sll, .srl, .sra] then vtInt ty
  else vtInt ty || vtFloat ty

/-- Cycles from issue to landing, less one (R203). -/
def LaneForm.latency (k : LaneForm) (ty : BitVec 5) : Nat :=
  if k ∈ [.mul, .fma, .fms, .fnma] then (if vtInt ty then 4 else 5)
  else if k = .mulh then 4
  else if k ∈ [.adds, .subs, .and, .or, .xor, .not, .sll, .srl, .sra] then 2
  else if vtInt ty then 2 else 4

/-- Table 5.9 with R206 and R207: the element that a form makes of its source elements, and the flags it sets. -/
def LaneForm.value (k : LaneForm) (ty : BitVec 5) (fz : Bool) (m : RMode) (u : Nat) (l : List Nat) : Nat × Fx :=
  let w := vtWidth ty
  let a := l.getD 0 0
  let b := l.getD 1 0
  let x := vtIntVal ty a
  let y := vtIntVal ty b
  let z := vtIntVal ty (l.getD 2 0)
  let p := vtVal ty fz a
  let q := vtVal ty fz b
  let r := vtVal ty fz (l.getD 2 0)
  let wrap (n : Int) : Nat × Fx := (intCode w n, {})
  let clamp (n : Int) : Nat × Fx :=
    let lo := intMin w (vtSigned ty)
    let hi := intMax w (vtSigned ty)
    (intCode w (Max.max lo (Min.min hi n)), { sat := decide (n < lo) || decide (hi < n) })
  let num (n : Int) (v : Val) : Nat × Fx := if vtFloat ty then vtRound ty fz m u false v else wrap n
  let bits (n : Nat) : Nat × Fx := (n % 2 ^ vtBits ty, {})
  match k with
  | .add => num (x + y) (addVal m p q)
  | .sub => num (x - y) (addVal m p q.negate)
  | .mul => num (x * y) (mulVal p q)
  | .min => num (Min.min x y) (minVal p q)
  | .max => num (Max.max x y) (maxVal p q)
  | .mulh => wrap (x * y / 2 ^ w)
  | .adds => clamp (x + y)
  | .subs => clamp (x - y)
  | .fma => num (x * y + z) (addVal m (mulVal p q) r)
  | .fms => num (x * y - z) (addVal m (mulVal p q) r.negate)
  | .fnma => num (z - x * y) (addVal m (mulVal p q).negate r)
  | .abs => if vtFloat ty then vtRound ty fz m u false (absVal p) else clamp (x.natAbs : Int)
  | .neg => if vtFloat ty then vtRound ty fz m u false p.negate else clamp (-x)
  | .and => bits (a &&& b)
  | .or => bits (a ||| b)
  | .xor => bits (a ^^^ b)
  | .not => bits (2 ^ vtBits ty - 1 - a)
  | .sll => bits (if b < w then a * 2 ^ b else 0)
  | .srl => bits (if b < w then a / 2 ^ b else 0)
  | .sra => wrap (intValue w true a / 2 ^ Min.min b w)

/-- The special functions of R230. -/
inductive SfuForm where
  | rcp | rsqrt | sqrt | exp2 | log2 | sinpi | cospi | tanh | sigm | gelu | silu | erf
deriving DecidableEq, Repr

/-- The instruction of a special function. -/
def SfuForm.instr (k : SfuForm) (h : Hdr) (ty : BitVec 5) (mz : BitVec 1) (vd va : BitVec 6) (pg : BitVec 4) : Instr :=
  match k with
  | .rcp => .vrcp h ty mz vd va pg
  | .rsqrt => .vrsqrt h ty mz vd va pg
  | .sqrt => .vsqrt h ty mz vd va pg
  | .exp2 => .vexp2 h ty mz vd va pg
  | .log2 => .vlog2 h ty mz vd va pg
  | .sinpi => .vsinpi h ty mz vd va pg
  | .cospi => .vcospi h ty mz vd va pg
  | .tanh => .vtanh h ty mz vd va pg
  | .sigm => .vsigm h ty mz vd va pg
  | .gelu => .vgelu h ty mz vd va pg
  | .silu => .vsilu h ty mz vd va pg
  | .erf => .verf h ty mz vd va pg

/-- What a special function makes of the value of an element (R230, R231). -/
def SfuForm.of (k : SfuForm) (v : Val) : Sfu :=
  match k with
  | .rcp => sfuRcp v
  | .rsqrt => sfuRsqrt v
  | .sqrt => sfuSqrt v
  | .exp2 => sfuExp2 v
  | .log2 => sfuLog2 v
  | .sinpi => sfuSinpi v
  | .cospi => sfuCospi v
  | .tanh => sfuTanh v
  | .sigm => sfuSigm v
  | .gelu => sfuGelu v
  | .silu => sfuSilu v
  | .erf => sfuErf v

/-- The number of a special function in the free choices of R231. -/
def SfuForm.number (k : SfuForm) : Nat :=
  match k with
  | .rcp => 0
  | .rsqrt => 1
  | .sqrt => 2
  | .exp2 => 3
  | .log2 => 4
  | .sinpi => 5
  | .cospi => 6
  | .tanh => 7
  | .sigm => 8
  | .gelu => 9
  | .silu => 10
  | .erf => 11

/-- Elements of two registers of a group, as one sequence (R194, R216). -/
def groupLane (s : State) (ty : BitVec 5) (v : BitVec 6) (i : Nat) : Nat :=
  lane ty (readV s (vphys s (v + BitVec.ofNat 6 (i / vtCount ty)))) (i % vtCount ty)

/-- The lanes before `i` that are active and in bounds: where lane `i`'s bytes stand among those located. -/
def laneRank (s : State) (r : Rec) (pg : BitVec 4) (lin : Nat → Int) (i : Nat) : Nat :=
  ((List.range i).filter fun j => (readP s pg).getLsbD j && r.inBounds (lin j)).length

/-- The active lanes of an access, lowest first. -/
def activeLanes (s : State) (ty : BitVec 5) (pg : BitVec 4) : List Nat :=
  (List.range (vtCount ty)).filter fun i => (readP s pg).getLsbD i

/-! ### The matrix engine (chapters 6, 7 and 9) -/

/-- An instruction of the matrix engine is legal, a path of it runs, it has the tokens that its header asks for, and it can
read `srcs`. -/
def MatrixReady (s : State) (i : Instr) (h : Hdr) (srcs : List Reg) : Prop :=
  encodingOk i false = true ∧ s.mx.mode ≠ .offline ∧ Issues s .mxe h srcs

/-- R32: a stamped instruction that nothing holds back in the cycle of its stamp. -/
def StampReady (s : State) (i : Instr) (h : Hdr) (srcs : List Reg) : Prop :=
  MatrixReady s i h srcs ∧ s.mx.parked.getD (readA s .mxe 31) = s.bell ∧
    (s.mx.parked = none → regBusy s .mxe (.a 31) = false) ∧ stallHeld s .mxe = false ∧ privateHeld s .mxe = none

/-! ### Block transfer and the Thresher (chapters 8 and 10) -/

/-- An instruction of the block-transfer engine is legal, has the tokens that its header asks for, and can read `srcs`. -/
def TransferReady (s : State) (i : Instr) (h : Hdr) (srcs : List Reg) : Prop :=
  encodingOk i false = true ∧ Issues s .bte h srcs

/-- The same of an instruction of the Thresher. -/
def ThresherReady (s : State) (i : Instr) (h : Hdr) (srcs : List Reg) : Prop :=
  encodingOk i true = true ∧ Issues s .thr h srcs

end Sys2Proof.Machine
end

