-- ==== Sys2Proof/WellFormed.lean ====
section
/-! DEFINITION. Well-formed instructions: an instruction of program text meets the checks of its words (R63 to R67 and its
entry's) in the text it may stand in; an event names units that exist. -/
namespace Sys2Proof

/-- An instruction that has an encoding. -/
def Instr.isText (i : Instr) : Bool := (encode i).isSome

/-- Ports 0 to 23 (R477). -/
def portOk (p : Nat) : Bool := decide (p < 24)

/-- The parameters of an event name units that exist; an instruction of program text has none to check here. -/
def eventOk : Instr → Bool
  | .atomicRequest r => decide (r.port < 2 ^ 22)
  | .tlbiPages _ _ vpn pages => decide (vpn.toNat + pages.toNat ≤ 2 ^ 40)
  | .channelMigration _ u ch => decide (u < 2 ^ 20) && decide (ch.toNat < 512)
  | .shadowPlaneLoad o d => decide (o + d.length ≤ 0x1000)
  | .planeDiffBroadcast m => m.changes.all fun c => decide (c.1 < 0x1000)
  | .limitLower _ code _ => decide (32 ≤ code.toNat) && decide (code.toNat ≤ 96)
  | .unannouncedClamp code _ => decide (32 ≤ code.toNat) && decide (code.toNat ≤ 96)
  | .rpcapWrite _ code _ => decide (32 ≤ code.toNat) && decide (code.toNat ≤ 96)
  | .flitReceive p _ => portOk p
  | .linkDown p => portOk p
  | .linkUp p _ => portOk p
  | .laneSpare p lane => portOk p && decide (lane.toNat < 5)
  | .replayTimeout p => portOk p
  | .linkOff p => portOk p
  | .hostBarAccess r => r.bar == 0 || r.bar == 2
  | .reservedEncoding w v => (decode w v).isNone
  | _ => true

/-- A well-formed instruction. -/
def wellFormed (i : Instr) : Bool :=
  if i.isText then Machine.encodingOk i false || Machine.encodingOk i true else eventOk i

end Sys2Proof
end

