-- ==== Sys2Proof/Certificates/Slice0/Obligations.lean ====
section
/-! DEFINITION. The statements for the provers. -/
open Sys2Proof Sys2Proof.Machine

/-! ### The control subset (chapter 2) -/

/-- R77, whole: the words of the integer group, the value of each form, where it goes, and the two grounds of a fault. add to
sra, slt, sltu, min and max have their result at once (`ctlResult`); mul and mulh two cycles later (`addOp`). -/
def Obligations.IntegerGroup : Prop :=
  (∀ (f : Nat) (ad aa ab : BitVec 5) (i : Instr) (s : State) (v : Word32), intForm f ad aa ab = some i →
    let r := BitVec.ofInt 64 (intResult f (readA s s.cur aa) (readA s s.cur ab))
    decode (0x01#7 ++ ad ++ aa ++ ab ++ BitVec.ofNat 10 f) v = some i ∧
    (uniformOk s.cur (some ad) [aa, ab] = false → exec i s = illegalWord s) ∧
    (uniformOk s.cur (some ad) [aa, ab] = true → CtlReady s [aa, ab] →
      exec i s = .next (wordPassed s (
        if f = 10 ∨ f = 11 then (if ad = 0 then s else addOp s s.cur 2 [.a ad.toNat r] false {} .result)
        else ctlResult s s.cur ad r)))) ∧
  ∀ (w v : Word32) (s : State), field w 25 7 = 0x01#7 → 14 ≤ (field w 0 10).toNat →
    decode w v = none ∧ exec (.reservedEncoding w v) s = illegalWord s

/-- R78, whole: the words of the register and immediate forms, their values and faults; a word that decodes to no control
instruction faults. R79, whole: lui, lhi and auipc. -/
def Obligations.ImmediateAndUpperForms : Prop :=
  (∀ (m : Nat) (ad aa : BitVec 5) (imm : BitVec 15) (s : State) (v : Word32), 2 ≤ m → m ≤ 9 →
     decode (0#1 ++ BitVec.ofNat 6 m ++ ad ++ aa ++ imm) v = immForm m ad aa imm ∧
     (∀ u x : Word32, u.getLsbD 31 = false → exec (.reservedEncoding u x) s = illegalWord s) ∧
     ∀ i, immForm m ad aa imm = some i →
       (uniformOk s.cur (some ad) [aa] = false → exec i s = illegalWord s) ∧
       (uniformOk s.cur (some ad) [aa] = true → CtlReady s [aa] →
         exec i s = .next (wordPassed s (ctlResult s s.cur ad
           (BitVec.ofInt 64 (intResult (immNamesake m) (readA s s.cur aa) (imm.signExtend 64))))))) ∧
  (∀ (ad : BitVec 5) (imm : BitVec 20) (s : State) (v : Word32),
     decode (0x0A#7 ++ ad ++ imm) v = some (.lui ad imm) ∧
     decode (0x0B#7 ++ ad ++ imm) v = some (.lhi ad imm) ∧
     decode (0x0C#7 ++ ad ++ imm) v = some (.auipc ad imm) ∧
     exec (.lui ad imm) s = .next (wordPassed s (ctlResult s s.cur ad (BitVec.ofInt 64 (imm.toInt * 2 ^ 12)))) ∧
     exec (.auipc ad imm) s = .next (wordPassed s (ctlResult s s.cur ad
       (BitVec.ofInt 64 ((s.eng s.cur).pc.toNat + imm.toInt * 2 ^ 12)))) ∧
     (CtlReady s [ad] →
       exec (.lhi ad imm) s = .next (wordPassed s (ctlResult s s.cur ad
         (BitVec.ofInt 64 (imm.toInt * 2 ^ 32 + ((readA s s.cur ad).toNat % 2 ^ 32 : Nat)))))))

/-- R80, whole: the branches. R81, whole: j, jal and jr. -/
def Obligations.BranchesAndJumps : Prop :=
  ((∀ (c : Nat) (aa ab : BitVec 5) (disp : BitVec 12) (i : Instr) (s : State) (v : Word32),
     branchForm c aa ab disp = some i →
     decode (0x10#7 ++ aa ++ ab ++ BitVec.ofNat 3 c ++ disp) v = some i ∧
     (allUniform s.cur [aa, ab] = true → (s.eng s.cur).seq = none → CtlReady s [aa, ab] →
       (branchHolds c (readA s s.cur aa) (readA s s.cur ab) →
         ∃ t, exec i s = .next t ∧ t = clearWait (jumpTo s s.cur (dispFrom s disp)) s.cur ∧
           (t.eng s.cur).pc = dispFrom s disp) ∧
       (¬branchHolds c (readA s s.cur aa) (readA s s.cur ab) →
         ∃ t, exec i s = .next t ∧ t = wordPassed s s ∧
           ((s.eng s.cur).loops = [] → (t.eng s.cur).pc = (s.eng s.cur).pc + 4)))) ∧
   ∀ (w v : Word32) (s : State), field w 25 7 = 0x10#7 → 6 ≤ (field w 12 3).toNat →
     decode w v = none ∧ exec (.reservedEncoding w v) s = illegalWord s) ∧
  (∀ (aa ad : BitVec 5) (disp : BitVec 25) (imm : BitVec 15) (s : State) (v : Word32),
     let e := s.cur
     let t := BitVec.ofInt 64 ((readA s e aa).toNat + imm.toInt)
     decode (0x11#7 ++ disp) v = some (.j disp) ∧
     decode (0x12#7 ++ disp) v = some (.jal disp) ∧
     decode (0x13#7 ++ ad ++ aa ++ imm) v = (if ad = 0 then some (.jr aa imm) else none) ∧
     (∀ u x : Word32, u.getLsbD 31 = false → exec (.reservedEncoding u x) s = illegalWord s) ∧
     ((s.eng e).seq = none →
       exec (.j disp) s = .next (clearWait (jumpTo s e (dispFrom s disp)) e) ∧
       exec (.jal disp) s = .next (clearWait (jumpTo (ctlResult s e 15 ((s.eng e).pc + 4)) e (dispFrom s disp)) e) ∧
       (allUniform e [aa] = true → CtlReady s [aa] →
         (t.toNat % 4 = 0 → exec (.jr aa imm) s = .next (clearWait (jumpTo s e t) e)) ∧
         (t.toNat % 4 ≠ 0 → exec (.jr aa imm) s = illegalWord s))))

/-- R82, whole, with the four entries of R84: the word of loop, its three ways on and its faults. Where a body ends without a
pass, the entries around it count (`passEnds`). R83 and R84: an engine at the sequential boundary `p`.
Away from the top entry's end it stands at `p`; at that end the entry counts a pass, and with its last pass it is popped and
the next entry tested. A taken branch pops the entries around it. -/
def Obligations.LoopPushAndEnds : Prop :=
  (∀ (aa : BitVec 5) (len cnt : BitVec 10) (s : State) (v : Word32),
     let e := s.cur
     let x := s.eng e
     let start := x.pc + 4
     let stop := start + BitVec.ofNat 64 (4 * len.toNat)
     let n := if aa = 0 then cnt.toNat else uintA s e aa
     decode (0x18#7 ++ aa ++ len ++ cnt) v = some (.loop aa len cnt) ∧
     (len = 0 ∨ (aa ≠ 0 ∧ cnt ≠ 0) → exec (.loop aa len cnt) s = illegalWord s) ∧
     (len ≠ 0 → aa = 0 ∨ cnt = 0 → allUniform e [aa] = true → x.seq = none → CtlReady s [aa] →
       (n = 0 → exec (.loop aa len cnt) s = .next (clearWait (s.setEng e { x with
         walk := x.walk + 1, pc := (passEnds x.loops stop).1, loops := (passEnds x.loops stop).2 }) e)) ∧
       (n ≠ 0 → x.loops.length < 4 → exec (.loop aa len cnt) s = .next (clearWait (s.setEng e { x with
         walk := x.walk + 1, pc := start, loops := ⟨start, stop, n⟩ :: x.loops }) e)) ∧
       (n ≠ 0 → 4 ≤ x.loops.length → exec (.loop aa len cnt) s = illegalWord s))) ∧
  (∀ (x : Eng) (p : BitVec 64) (n : Nat), x.seq = none →
     (x.loops = [] → (x.toBoundary p n).pc = p ∧ (x.toBoundary p n).loops = []) ∧
     (∀ l r, x.loops = l :: r → p ≠ l.stop → (x.toBoundary p n).pc = p ∧ (x.toBoundary p n).loops = x.loops) ∧
     (∀ l r, x.loops = l :: r → p = l.stop → 2 ≤ l.count →
       (x.toBoundary p n).pc = l.start ∧ (x.toBoundary p n).loops = { l with count := l.count - 1 } :: r) ∧
     (∀ l r, x.loops = l :: r → p = l.stop → l.count = 1 →
       x.toBoundary p n = { x with loops := r }.toBoundary p n) ∧
     (x.toBoundary p n).walk = x.walk + n ∧ (x.toBoundary p n).a = x.a ∧ (x.toBoundary p n).bf = x.bf ∧
     (∀ l r, x.loops = l :: r → l.start.toNat ≤ p.toNat → p.toNat < l.stop.toNat → (x.jump p).loops = x.loops) ∧
     (∀ l r, x.loops = l :: r → ¬(l.start.toNat ≤ p.toNat ∧ p.toNat < l.stop.toNat) →
       (x.jump p).loops = ({ x with loops := r }.jump p).loops))

/-- R85 to R87 and R91: loopm starts the sequencer or skips its body; a pass starts with its predicates; stage moves on to the
next stage, and outside a body or past the last stage it is illegal. -/
def Obligations.ModuloLoop : Prop :=
  (∀ (aa : BitVec 5) (len : BitVec 10) (ii : BitVec 6) (sc : BitVec 4) (s : State),
    let e := s.cur
    let x := s.eng e
    let start := x.pc + 4
    let stop := start + BitVec.ofNat 64 (4 * len.toNat)
    (len = 0 ∨ 8 ≤ sc.toNat → exec (.loopm aa len ii sc) s = illegalWord s) ∧
    (len ≠ 0 → sc.toNat < 8 → allUniform e [aa] = true → x.seq = none → CtlReady s [aa] →
      (uintA s e aa = 0 → exec (.loopm aa len ii sc) s = .next (clearWait (s.setEng e { x with
        walk := x.walk + 1, pc := (passEnds x.loops stop).1, loops := (passEnds x.loops stop).2 }) e)) ∧
      (uintA s e aa ≠ 0 → exec (.loopm aa len ii sc) s = .next (clearWait (s.setEng e { x with
        walk := x.walk + 1
        pc := start
        seq := some { start := start, stop := stop, trips := uintA s e aa, ii := ii.toNat + 1, sc := sc.toNat + 1, k := 0,
                      stage := 0, passStart := 0, between := true, rrb := 0 } }) e)))) ∧
  (∀ (e : Engine) (s : State) (m : ModSeq), (s.eng e).seq = some m → passReady s e m = true →
    ∃ t, exec (.loopmPass e) s = .next t ∧
      (t.eng e).seq = some { m with between := false, passStart := s.cycle, stage := 0 } ∧
      (e = .vec → ∀ k : Fin 8, t.ctx.vec.p.getD (8 + k.val) 0 =
        if k.val < m.sc ∧ k.val ≤ m.k ∧ m.k - k.val < m.trips then BitVec.allOnes 1024 else 0) ∧
      (e ≠ .vec → t.ctx.vec = s.ctx.vec) ∧ t.mem = s.mem) ∧
  ∀ s : State,
    ((s.eng s.cur).seq = none → exec .stage s = illegalWord s) ∧
    ∀ m, (s.eng s.cur).seq = some m →
      (m.sc ≤ m.stage + 1 → exec .stage s = illegalWord s) ∧
      (m.stage + 1 < m.sc → exec .stage s =
        .next (wordPassed s (s.setEng s.cur { (s.eng s.cur) with seq := some { m with stage := m.stage + 1 } })))

/-- R99, whole: bfclr, bfset and bfadd, by the bits of the record. R100, whole: bfget and bfmov. -/
def Obligations.BufferRecords : Prop :=
  (∀ (bf : BitVec 4) (fld aa : BitVec 5) (imm : BitVec 11) (z : BitVec 21) (s : State) (v : Word32),
     decode (0x1B#7 ++ bf ++ z) v = (if z = 0 then some (.bfclr bf) else none) ∧
     decode (0x1C#7 ++ bf ++ fld ++ aa ++ imm) v = some (.bfset bf fld aa imm) ∧
     decode (0x1D#7 ++ bf ++ fld ++ aa ++ imm) v = some (.bfadd bf fld aa imm) ∧
     (∀ u x : Word32, u.getLsbD 31 = false → exec (.reservedEncoding u x) s = illegalWord s) ∧
     exec (.bfclr bf) s = .next (wordPassed s (putBf s s.cur bf 0)) ∧
     (0x0B ≤ fld.toNat → exec (.bfset bf fld aa imm) s = illegalWord s ∧ exec (.bfadd bf fld aa imm) s = illegalWord s) ∧
     ∀ lo w, bfField fld = some (lo, w) → allUniform s.cur [aa] = true → CtlReady s [aa] →
       let r := readBf s s.cur bf
       let n : Int := uintA s s.cur aa + imm.toInt
       let put (q : BitVec 256) (n : Int) : Prop := ∀ k : Fin 256, q.getLsbD k.val =
         if lo ≤ k.val ∧ k.val < lo + w then (BitVec.ofInt w n).getLsbD (k.val - lo) else r.getLsbD k.val
       (∃ q, put q n ∧ exec (.bfset bf fld aa imm) s = .next (wordPassed s (putBf s s.cur bf q))) ∧
       (∃ q, put q (n + (r.extractLsb' lo w).toNat) ∧
         exec (.bfadd bf fld aa imm) s = .next (wordPassed s (putBf s s.cur bf q)))) ∧
  (∀ (bf src : BitVec 4) (fld aa : BitVec 5) (imm : BitVec 11) (z : BitVec 17) (s : State) (v : Word32),
     decode (0x1E#7 ++ bf ++ fld ++ aa ++ imm) v = (if imm = 0 then some (.bfget bf fld aa) else none) ∧
     decode (0x1F#7 ++ bf ++ z ++ src) v = (if z = 0 then some (.bfmov bf src) else none) ∧
     (∀ u x : Word32, u.getLsbD 31 = false → exec (.reservedEncoding u x) s = illegalWord s) ∧
     exec (.bfmov bf src) s = .next (wordPassed s (putBf s s.cur bf (readBf s s.cur src))) ∧
     (0x0B ≤ fld.toNat → exec (.bfget bf fld aa) s = illegalWord s) ∧
     ∀ lo w, bfField fld = some (lo, w) → exec (.bfget bf fld aa) s = .next (wordPassed s (ctlResult s s.cur aa
       (if fld = 4 ∨ fld = 6 then ((readBf s s.cur bf).extractLsb' lo w).signExtend 64
        else ((readBf s s.cur bf).extractLsb' lo w).setWidth 64))))

/-- R101: twait. An engine that the mask names pops `n` at once when the counter holds them and waits otherwise; one that it
does not name passes. R103 and R104, whole: the Steward's slipw writes WINDOW, clamped; the other ring engines and nop only
pass. -/
def Obligations.TokenAndWindowForms : Prop :=
  (∀ (mask : BitVec 4) (sel : BitVec 2) (n : BitVec 4) (s : State),
     let e := s.cur
     let c := twaitCounter e sel
     let legal := n ≠ 0 ∧ sel ≠ 3 ∧ (if e = .thr then mask = 0 ∧ sel = 2 else mask ≠ 0 ∧ (sel = 2 → mask = 1))
     (¬legal → exec (.twait mask sel n) s = illegalWord s) ∧
     (legal → e ≠ .thr → bitAt mask e.tag = false → exec (.twait mask sel n) s = .next (wordPassed s s)) ∧
     (legal → e = .thr ∨ bitAt mask e.tag = true →
       (n.toNat ≤ tokGet s c → exec (.twait mask sel n) s = .next (wordPassed s (tokSet s c (tokGet s c - n.toNat)))) ∧
       (tokGet s c < n.toNat → exec (.twait mask sel n) s = .next (stall s e (.token (4 * c)))))) ∧
  (∀ (ad aa : BitVec 5) (imm : BitVec 15) (z : BitVec 25) (s : State) (v : Word32),
     let w : Int := uintA s .ctl aa + imm.toInt
     decode (0x22#7 ++ ad ++ aa ++ imm) v = (if ad = 0 then some (.slipw aa imm) else none) ∧
     decode (0x23#7 ++ z) v = (if z = 0 then some .nop else none) ∧
     exec .nop s = .next (wordPassed s s) ∧
     (s.cur = .thr → exec (.slipw aa imm) s = illegalWord s) ∧
     (s.cur ≠ .thr → allUniform s.cur [aa] = true → CtlReady s [aa] →
       (s.cur = .ctl → exec (.slipw aa imm) s = .next (wordPassed s { s with ctx := { s.ctx with
         window := BitVec.ofInt 13 (max 64 (min 4096 w)) } })) ∧
       (s.cur ≠ .ctl → exec (.slipw aa imm) s = .next (wordPassed s s))))

/-- R102 with R25, R26 and R28: the ring engines leave a phase together, when each stands at it with every access complete.
R105: end. A BTE, MXE or VEC issues nothing more; the Steward ends the item with status 0 once every ring engine has reached
its end and all work is complete; the Thresher stops once its work is. -/
def Obligations.PhaseAndEnd : Prop :=
  (∀ s : State, s.cur ≠ .thr → (s.eng s.cur).seq = none →
     let u := s.setEng s.cur { (s.eng s.cur) with atPhase := true }
     let all := ∀ f ∈ ringEngines, (u.eng f).atPhase = true ∧ ∀ o ∈ s.ops, o.eng = f → o.aside s = false → o.touchesMemory = false
     (¬all → exec .phase s = .next (stall u s.cur .other)) ∧
     (all → s.ctx.det = false ∨ footOverlap u = none →
       ∃ t, exec .phase s = .next t ∧ t = clearWait (leavePhase u) s.cur ∧
         ∀ f, (t.eng f).active = ((s.eng f).pending.getD (footDefault s f)) ∧ (t.eng f).pending = none) ∧
     (all → s.ctx.det = true → ∀ g w o, footOverlap u = some (g, w, o) →
       exec .phase s = .next (raise s s.cur
         ⟨.footprintOverlap, BitVec.ofNat 64 (16 * g), BitVec.ofNat 64 (w.tag + 8 * o.tag), some 0⟩))) ∧
  (∀ s : State, (s.eng s.cur).seq = none →
     ((s.cur = .bte ∨ s.cur = .mxe ∨ s.cur = .vec) →
       exec .endText s = .next (clearWait (s.setEng s.cur { (s.eng s.cur) with atStop := true }) s.cur)) ∧
     (s.cur = .ctl → (s.eng .bte).atStop = true → (s.eng .mxe).atStop = true → (s.eng .vec).atStop = true →
       (∀ f ∈ ringEngines, outstanding s f = false) →
       (bitAt s.ctx.trailer 3 = false → exec .endText s = .next (clearWait (endItem (haltThresher s) 0) .ctl)) ∧
       (bitAt s.ctx.trailer 3 = true → s.ctx.thrrun = false → outstanding s .thr = false →
         exec .endText s = .next (clearWait (endItem s 0) .ctl))) ∧
     (s.cur = .thr → outstanding s .thr = false →
       ∃ t, exec .endText s = .next t ∧ t.ctx.thrrun = false ∧ (t.eng .thr).atStop = true))

/-- R74 and R10: the end of a control word that writes register `n`. At once, unless an earlier result of the register is
still outstanding: then it lands no earlier than that one. A write to a0 is discarded. Nothing changes but the engine, and in
it nothing but that register, the place in the text and the marks of waiting. R15, R16, R21 and R64: the end of a private
instruction, given its effect `t` on `s`. Its header pops and pushes the tokens of its engine, sets its holds, and the engine
passes both words; nothing else changes. -/
def Obligations.IssueFrames : Prop :=
  (∀ (s : State) (n : BitVec 5) (v : BitVec 64),
     let e := s.cur
     let x := s.eng e
     let t := wordPassed s (ctlResult s e n v)
     let y := t.eng e
     (n ≠ 0 → (∀ o ∈ s.ops, o.eng = e → o.writes (.a n.toNat) = false) → OnlyEngine e s t ∧ readA t e n = v) ∧
     (n = 0 → OnlyEngine e s t ∧ readA t e 0 = 0) ∧
     (∀ m, m ≠ n → readA t e m = readA s e m) ∧
     (∀ b, readBf t e b = readBf s e b) ∧
     (∀ f, f ≠ e → t.eng f = s.eng f) ∧
     y.active = x.active ∧ y.pending = x.pending ∧ y.pushes = x.pushes ∧ y.holdUntil = x.holdUntil ∧
     y.walk = x.walk + 1 ∧ y.wait = none ∧ (Straight x → y.pc = x.pc + 4) ∧
     (n ≠ 0 → (∃ o ∈ s.ops, o.eng = e ∧ o.writes (.a n.toNat) = true) → readA t e n = readA s e n ∧
       ∃ o, t.ops = s.ops ++ [o] ∧ o.eng = e ∧ o.ws = [.a n.toNat v] ∧
         ∀ p ∈ s.ops, p.eng = e → p.writes (.a n.toNat) = true → p.due ≤ o.due) ∧
     SameBytes s t ∧ t.ctx.vec = s.ctx.vec ∧ t.ctx.mx = s.ctx.mx ∧ t.ctx.tokens = s.ctx.tokens ∧ t.mx = s.mx) ∧
  (∀ (s t : State) (e : Engine) (h : Hdr),
     let u := pairPassed s t e h
     let x := t.eng e
     let y := u.eng e
     let pops (c : Nat) : Nat := (if h.pu ∧ puCounter e = c then 1 else 0) + (if h.pd ∧ pdCounter e = c then 1 else 0)
     (∃ toks z, u = { t with ctx := { t.ctx with tokens := toks, eng := t.ctx.eng.set e z } }) ∧
     (∀ c, tokGet u c = tokGet t c - pops c) ∧
     y.a = x.a ∧ y.bf = x.bf ∧ y.active = x.active ∧ y.pending = x.pending ∧ y.wait = none ∧ y.walk = x.walk + 2 ∧
     (Straight x → y.pc = x.pc + 8) ∧
     y.pushes = x.pushes ++ (if h.qu ∨ h.qd then [⟨h.qu, h.qd, 0, s.nextId, t.nextId⟩] else []) ∧
     (h.stall ≠ 7 → y.holdUntil = max x.holdUntil (t.cycle + 1 + h.stall.toNat) ∧ y.drain = false) ∧
     (h.stall = 7 → y.holdUntil = x.holdUntil ∧ y.drain = true ∧ y.drainTo = t.nextId) ∧
     SameBytes t u)

/-! ### Private instructions: the end of an issue -/

/-- R46, R47, R63 and R494 step 1: a private Steward instruction (ld, st, ldf, atom, fence, bara, barw, bars, htake, hqry, abc,
foot, csrr, csrw, bellr, ttok, qres, qhead, ditem or gclkr) whose words are not legal faults ILLEGAL_OP with its words in
OPERAND0; the running strand stops where it is, and no register, token or byte changes. The other private Steward instructions of
chapters 4, 12 and 13 (stf, hgive, tstart, trap, eret, taskend, qtail, dpush and bellw) have no field that makes their words
illegal. -/
def Obligations.IllegalPrivate : Prop :=
  (∀ (i : Instr) (h : Hdr) (s : State) (st : CoreStatus), s.ctx.stop = none → s.ctx.status = st →
    (st = .running ∨ st = .handler ∨ st = .boundary) → encodingOk i false = false →
    (∃ fe sd sc o z n ad bf aa imm, i = .ld h fe sd sc o z n ad bf aa imm) ∨
    (∃ fe sd sc o z n src bf aa imm, i = .st h fe sd sc o z n src bf aa imm) ∨ (∃ ad bf aa imm, i = .ldf h ad bf aa imm) ∨
    (∃ fe sd sc o z n ad bf aa ab op imm, i = .atom h fe sd sc o z n ad bf aa ab op imm) ∨
    (∃ sc o, i = .fence h sc o) ∨ (∃ sc ad aa ab b, i = .bara h sc ad aa ab b) ∨ (∃ sc ad ab b, i = .barw h sc ad ab b) ∨
    (∃ sc ad aa ab b, i = .bars h sc ad aa ab b) ∨ (∃ ad aa imm, i = .htake h ad aa imm) ∨ (∃ ad aa imm, i = .hqry h ad aa imm) ∨
    (∃ ad aa, i = .abc h ad aa) ∨ (∃ eng aa imm, i = .foot h eng aa imm) ∨
    (∃ reg ad, i = .csrr h reg ad) ∨ (∃ reg aa, i = .csrw h reg aa) ∨ (∃ ad, i = .bellr h ad) ∨ (∃ n, i = .ttok h n) ∨
    (∃ ad aa ab, i = .qres h ad aa ab) ∨ (∃ ad aa, i = .qhead h ad aa) ∨ (∃ ad x, i = .ditem h ad x) ∨ (∃ ad, i = .gclkr h ad) →
    exec i s = .next { s with ctx := { s.ctx with
      status := .stopped
      stop := some { info := ⟨.illegalOp, 0, false, instrOperand s .ctl, 0⟩, at_ := s.cycle, multi := false,
                     afterTrap := false, recorded := false, toHost := false, was := st, resuming := false } } }) ∧
  ∀ (h : Hdr) (full : BitVec 1) (aa ab : BitVec 5) (bf : BitVec 4) (stg : BitVec 3) (entry : BitVec 12) (imm : BitVec 13) (off : BitVec 18),
    ∀ i ∈ [Instr.stf h full ab bf aa off, .hgive h aa ab imm, .tstart h aa ab entry, .trap h imm, .eret h, .taskend h aa, .qtail h aa ab,
      .dpush h aa stg, .bellw h aa imm], encodingOk i false = true

/-! ### The Steward (chapters 4, 11 and 12) -/

/-- R171 (ld) with R97, R160, R161, R163 and R172: the value that a load writes, the granules it empties, the acquire that
follows, and its frame: lines may come into the caches, and no byte changes. The register itself is written when the data
return (`ResultsLand`). -/
def Obligations.LoadCompletes : Prop :=
  ∀ (h : Hdr) (fe : BitVec 2) (sd : BitVec 1) (scope : BitVec 3) (ord : BitVec 2) (zext : BitVec 1) (size : BitVec 2)
    (ad : BitVec 5) (bf : BitVec 4) (aa : BitVec 5) (imm : BitVec 18) (s : State),
    let i := Instr.ld h fe sd scope ord zext size ad bf aa imm
    let r := recOf s .ctl bf
    let n : Nat := 2 ^ size.toNat
    let place := scalarPlace s .ctl r (sintA s .ctl aa + imm.toInt) n .read (sd = 1) (fe ≠ 0)
    let acq := ordScope (ord ≠ 0) sd scope r
    StewardReady s i h [ra aa] → accessNeed .ctl false false s = none →
    (place = .clip → exec i s = .next (pairPassed s (addVarOp s .ctl (destWrite ad 0) (.load acq none 0)) .ctl h)) ∧
    ∀ a p, place = .ok a p →
      let gs := if fe = 0 then [] else accGranules s r a n
      let scope := widerScope acq (feScope r (fe ≠ 0))
      let u := readState (requestFlits s .ctl .read p.keys) r.cache (scopePoint scope) p
      granuleWait s .ctl gs true = none →
      ∃ t, exec i s = .next t ∧
        (∃ o ∈ t.ops, o.id = s.nextId ∧ o.eng = .ctl ∧ o.strand = s.ctx.strand ∧
          o.ws = (if ad = 0 then [] else [.a ad.toNat (loaded n (zext = 1) (readPlace u.1 (scopePoint scope) p))]) ∧
          o.kind = .load scope (if u.2 then some (Code.poison, r.faultAddr (a : Int)) else none) 0 ∧
          o.addr = r.faultAddr (a : Int) ∧ o.touches = accHandles s r a n) ∧
        (∀ m, readA t .ctl m = readA s .ctl m) ∧ (∀ b, readBf t .ctl b = readBf s .ctl b) ∧
        (∀ e, e ≠ .ctl → t.eng e = s.eng e) ∧ t.ctx.vec = s.ctx.vec ∧ t.mx = s.mx ∧ t.ctx.mx = s.ctx.mx ∧
        t.full = (if fe = 2 then s.full.filter (fun g => !gs.contains g) else s.full) ∧
        ((∃ ks, p = .local ks) → SameBytes s t) ∧ (s.BytesOk → NoAlias s → s.Fresh → SameOutside [] s t)

/-- R171 (st) with R97, R160, R161, R163 and R172: a store writes its bytes at its place, after its release if it has one, and
sets its granules full; a store that is clipped writes nothing. R171 and R97, the bytes of a store that such a
store makes: those of its place hold the value, lowest byte first, and every other byte reads as before. -/
def Obligations.Stores : Prop :=
  (∀ (h : Hdr) (fe : BitVec 2) (sd : BitVec 1) (scope : BitVec 3) (ord : BitVec 2) (zext : BitVec 1) (size : BitVec 2)
     (src : BitVec 5) (bf : BitVec 4) (aa : BitVec 5) (imm : BitVec 18) (s : State),
     let i := Instr.st h fe sd scope ord zext size src bf aa imm
     let r := recOf s .ctl bf
     let n : Nat := 2 ^ size.toNat
     let place := scalarPlace s .ctl r (sintA s .ctl aa + imm.toInt) n .write (sd = 1) (fe ≠ 0)
     let rel := widerScope (ordScope (ord ≠ 0) sd scope r) (feScope r (fe ≠ 0))
     StewardReady s i h [ra aa, ra src] → accessNeed .ctl true true s = none →
     (place = .clip → exec i s = .next (pairPassed s s .ctl h)) ∧
     ∀ a p u, place = .ok a p →
       let gs := if fe = 0 then [] else accGranules s r a n
       granuleWait s .ctl (if fe = 2 then gs else []) false = none → Released s .ctl rel u →
       exec i s = .next (pairPassed s
         (setFull (releaseWrite (requestFlits u .ctl .write p.keys) rel r.cache p (leBytes n (readA s .ctl src).toNat)) gs true)
         .ctl h)) ∧
  (∀ (s u : State) (rel : Option (BitVec 3)) (cache : BitVec 3) (p : Place) (bs : List Byte) (gs : List Nat),
     s.BytesOk → NoAlias s → s.Fresh → Released s .ctl rel u → p.keys.length = bs.length → p.keys.Nodup →
     let t := setFull (releaseWrite (requestFlits u .ctl .write p.keys) rel cache p bs) gs true
     SameOutside p.keys s t ∧
     (∀ ks, p = .local ks → ∀ j (hj : j < bs.length), memGet t.mem (ks.getD j 0) = bs[j]) ∧
     (∀ ls, p = .global ls → (∀ l ∈ ls, l.2 = false) → rel = none →
       ∀ j (hj : j < bs.length), cachedByte t (p.keys.getD j 0) = bs[j]) ∧
     (∀ e m, readA t e m = readA s e m) ∧ (∀ e b, readBf t e b = readBf s e b) ∧ t.ctx.vec = s.ctx.vec ∧ t.mx = s.mx)

/-- R173: ldf gathers up to 64 full bits, bit `i` that of the i-th granule from the one that holds the address; stf sets the
granules it names, full after a release, or empty, and does nothing with a count of 0. -/
def Obligations.GranuleForms : Prop :=
  ∀ (h : Hdr) (full : BitVec 1) (ad ab : BitVec 5) (bf : BitVec 4) (aa : BitVec 5) (imm : BitVec 18) (s : State)
    (r : Rec) (a : Nat),
    (StewardReady s (.ldf h ad bf aa imm) h [ra aa] → accessNeed .ctl false false s = none →
      granuleBase s bf aa imm .read true = .inr (r, a) →
      let n := min 1024 (r.limit - a)
      let gs := accGranules s r a n
      rangeCheck s .ctl r (a : Int) n .read = none →
      ∃ m : BitVec 64, (∀ i : Fin 64, m.getLsbD i.val = match gs[i.val]? with
          | some g => granuleFull s g
          | none => false) ∧
        exec (.ldf h ad bf aa imm) s = .next (pairPassed s (withAccess
          (addVarOp s .ctl (destWrite ad m) (.load none none 0)) s.nextId 0 (accHandles s r a n)) .ctl h)) ∧
    (StewardReady s (.stf h full ab bf aa imm) h [ra aa, ra ab] → accessNeed .ctl true true s = none →
      let n := 16 * uintA s .ctl ab
      granuleBase s bf aa imm .write (n ≠ 0) = .inr (r, a) →
      (n = 0 → exec (.stf h full ab bf aa imm) s = .next (pairPassed s s .ctl h)) ∧
      (n ≠ 0 → rangeCheck s .ctl r (a : Int) n .write = none → ∀ u,
        Released s .ctl (if full = 0 then none else some (if r.space = 2 then 1 else 0)) u →
        exec (.stf h full ab bf aa imm) s = .next (pairPassed s (setFull u (accGranules s r a n) (full ≠ 0)) .ctl h)))

/-- R176 with R172: an aligned atomic on Commons or a memory-side line sends its request after its release, and the old value
goes to its destination when it returns. R176, R396 and Table 4.9: a request that is new to its unit changes its location in
one step and its reply is remembered; a request whose reply is remembered changes nothing. -/
def Obligations.Atomics : Prop :=
  (∀ (h : Hdr) (fe : BitVec 2) (sd : BitVec 1) (scope : BitVec 3) (ord : BitVec 2) (zext : BitVec 1) (size : BitVec 2)
     (ad : BitVec 5) (bf : BitVec 4) (aa ab : BitVec 5) (op : BitVec 4) (imm : BitVec 9) (s u : State) (a : Nat) (p : Place),
     let i := Instr.atom h fe sd scope ord zext size ad bf aa ab op imm
     let r := recOf s .ctl bf
     let n : Nat := 2 ^ size.toNat
     let o := sintA s .ctl aa + imm.toInt
     StewardReady s i h ([ra aa, ra ab] ++ (if op = 9 then [ra ad] else [])) → accessNeed .ctl true false s = none →
     r.isScratch = false → ((r.baseAddr.1 : Int) + o) % n = 0 →
     scalarPlace s .ctl r o n .atomic (sd = 1) false = .ok a p → (∀ ls, p = .global ls → ∀ l ∈ ls, l.2 = true) →
     Released s .ctl (ordScope (bitAt ord 1) sd scope r) u →
     let q := sendAtomic (requestFlits u .ctl .atomic [p.keys.headD 0]) .ctl (p.keys.headD 0)
       (.rmw op (size = 3) (readA s .ctl ab) (if op = 9 then readA s .ctl ad else 0))
     exec i s = .next (pairPassed s (addVarOp q.2 .ctl (destWrite ad q.1) (.load (ordScope (bitAt ord 0) sd scope r)
       (if poisoned u p.keys then some (Code.poison, r.faultAddr ((r.baseAddr.1 : Int) + o)) else none) 0)) .ctl h)) ∧
  (∀ (s : State) (port key : Nat) (seqNo : BitVec 16) (op : BitVec 4) (wide : Bool) (v c : BitVec 64),
     let q : AtomicReq := ⟨port, seqNo, key, .rmw op wide v c⟩
     let n := if wide then 8 else 4
     let old := BitVec.ofNat (8 * n) (memVal s key n)
     let new := atomicLeaves op old (v.setWidth (8 * n)) (c.setWidth (8 * n))
     let known := ∃ r ∈ s.replies, r.unit = unitOf s.pkgNo key ∧ r.port = port ∧ r.seqNo = seqNo
     (known → exec (.atomicRequest q) s = .next s) ∧
     (¬known → s.MemOk → NoAlias s → armedLine s key = false → poisoned s (keyRange key n) = false →
       ∃ t, exec (.atomicRequest q) s = .next t ∧ memVal t key n = new.toNat ∧
         (∀ k, k ∉ keyRange key n → memGet t.mem k = memGet s.mem k) ∧
         (⟨unitOf s.pkgNo key, port, seqNo, BitVec.ofInt 64 old.toInt⟩ : Reply) ∈ t.replies ∧ t.ctx = s.ctx))

/-- R174 and R178: a fence waits for the Steward's accesses and does its actions; bara arrives after its release; barw and
bars end once the episode of the latest arrival is complete, with an acquire. R177: an arrival. A count of 0 is 1; the first
arrival fixes the episode's count; the last one completes the episode. -/
def Obligations.FencesAndBarriers : Prop :=
  (∀ (h : Hdr) (scope : BitVec 3) (ord : BitVec 2) (ad aa ab : BitVec 5) (bid : BitVec 4) (s u : State),
     let n := netIdx scope bid
     let ended (w : State) : Prop := ∀ ep, (getNet w n).mine = some ep →
       ep < (getNet w n).episode ∧ ∀ q, (ep, q) ∉ (getNet w n).abandoned
     let arrived (u : State) : State := setNet u n ((getNet u n).arrive .ctl (readA s .ctl aa))
     let begun (u : State) : State := u.setEng .ctl { (u.eng .ctl) with begun := true }
     (StewardReady s (.fence h scope ord) h [] → orderNeed .ctl true s = none →
       (∀ o ∈ s.ops, o.eng = .ctl → o.isAccess = false) → Released s .ctl (if bitAt ord 1 then some scope else none) u →
       exec (.fence h scope ord) s = .next (pairPassed s (if bitAt ord 0 then cacheActions u scope else u) .ctl h)) ∧
     (StewardReady s (.bara h scope ad aa ab bid) h [ra aa] → (getNet s n).pendingFor .ctl = false →
       Released s .ctl (some scope) u → exec (.bara h scope ad aa ab bid) s = .next (pairPassed s (arrived u) .ctl h)) ∧
     (StewardReady s (.barw h scope ad ab bid) h [] → ended s →
       exec (.barw h scope ad ab bid) s = .next (pairPassed s (cacheActions s scope) .ctl h)) ∧
     (StewardReady s (.bars h scope ad aa ab bid) h [ra aa] →
       ((s.eng .ctl).begun = true → ended s →
         exec (.bars h scope ad aa ab bid) s = .next (pairPassed s (cacheActions s scope) .ctl h)) ∧
       ((s.eng .ctl).begun = false → (getNet s n).pendingFor .ctl = false → Released s .ctl (some scope) u →
         ended (arrived u) →
         exec (.bars h scope ad aa ab bid) s = .next (pairPassed s (cacheActions (begun (arrived u)) scope) .ctl h)))) ∧
  (∀ (n : Net) (e : Engine) (count : BitVec 64),
     let c := if count = 0 then 1 else count.toNat
     let goal := if n.arrived = 0 then c else n.target
     let m := n.arrive e count
     m.latest e = some n.episode ∧
     (goal ≤ n.arrived + 1 → m.episode = n.episode + 1 ∧ m.arrived = 0 ∧ m.pendingFor e = false) ∧
     (n.arrived + 1 < goal → m.episode = n.episode ∧ m.arrived = n.arrived + 1 ∧ m.target = goal ∧ m.pendingFor e = true))

/-- R164 to R168: giving, taking and querying a handle that the designation names. R180, R13 and R181: abc queues its value at
the three other ring engines and writes the Steward's own copy; a receive point takes the oldest value of its engine's queue;
foot records the descriptor's entries as pending. That a handle given to text answers the own core is assumption 24. -/
def Obligations.HandlesBroadcastFoot : Prop :=
  (∀ (h : Hdr) (ad aa ab : BitVec 5) (imm : BitVec 13) (s u : State),
     let d := readA s .ctl aa
     let me : BitVec 2 := field s.coreNo 0 2
     let dest : BitVec 2 := field (readA s .ctl ab) 0 2
     let st := s.handles.getD (handleIdx d) .text
     designationOk d = true → handleInWindow s d = true →
     (StewardReady s (.hgive h aa ab imm) h [ra aa, ra ab] → orderNeed .ctl true s = none →
       uintA s .ctl ab < 4 → st = .held me → (∀ o ∈ s.ops, handleIdx d ∉ o.touches) → Released s .ctl (some 1) u →
       exec (.hgive h aa ab imm) s = .next (pairPassed s
         (setHandle u (handleIdx d) (if dest = me then .held me else .transit me dest)) .ctl h)) ∧
     (StewardReady s (.htake h ad aa imm) h [ra aa] → orderNeed .ctl false s = none → (∃ g, st = .transit g me) →
       exec (.htake h ad aa imm) s = .next (pairPassed s
         (addVarOp (cacheActions (setHandle s (handleIdx d) (.held me)) 1) .ctl (destWrite ad d) .result) .ctl h)) ∧
     (StewardReady s (.hqry h ad aa imm) h [ra aa] →
       exec (.hqry h ad aa imm) s = .next (pairPassed s (addVarOp s .ctl (destWrite ad (match st with
         | .held c => BitVec.ofNat 64 c.toNat
         | .transit g t => BitVec.ofNat 64 (g.toNat + 4 + 8 * t.toNat)
         | .text => BitVec.ofNat 64 (d.toNat / 64 % 4))) .result) .ctl h))) ∧
  (∀ (h : Hdr) (ad aa : BitVec 5) (eng : BitVec 3) (imm : BitVec 13) (s : State),
     let v := readA s .ctl aa
     (StewardReady s (.abc h ad aa) h [ra aa] →
       s.ctx.abcBte.length < 4 → s.ctx.abcMxe.length < 4 → s.ctx.abcVec.length < 4 →
       let u := { s with ctx := { s.ctx with
         abcBte := s.ctx.abcBte ++ [(ad, v)], abcMxe := s.ctx.abcMxe ++ [(ad, v)], abcVec := s.ctx.abcVec ++ [(ad, v)] } }
       exec (.abc h ad aa) s = .next (pairPassed s (ctlResult u .ctl ad v) .ctl h)) ∧
     (∀ e d x q dst, s.cur = e → (e = .bte ∨ e = .mxe ∨ e = .vec) → abcQueue s e = (d, x) :: q → d ≠ 0 →
       exec (.abcReceive dst) s = .next (clearWait (passPair (ctlResult (setAbcQueue s e q) e d x) e) e)) ∧
     (StewardReady s (.foot h eng aa imm) h [ra aa] → orderNeed .ctl false s = none →
       let a := v.toNat + imm.toNat
       let b := rawRead s (keyRange (scratchKey s.coreNo.toNat a) 64)
       let word (i : Nat) : Nat := leValue ((b.drop (8 * i)).take 8)
       a % 8 = 0 → a + 64 ≤ 0x300000 → inWindow s a 64 = true → rangeCheck s .ctl localRec (a : Int) 64 .read = none →
       (∀ i : Fin 8, word i.val < 2 ^ 38 ∧
         (word i.val / 2 ^ 36 ≠ 0 → word i.val % 2 ^ 18 + word i.val / 2 ^ 18 % 2 ^ 18 ≤ 196608)) →
       exec (.foot h eng aa imm) s = .next (pairPassed s (s.setEng (engineOf eng)
         { (s.eng (engineOf eng)) with pending := some (footEntries b) }) .ctl h)))

/-- R183: csrr writes the register's value to its destination, csrw its source to the register. R183 with R3 and the tables of
the owning chapters: what each register that csrw can write reads after a write. Reserved fields read zero, sticky flags are
cleared by 1, WINDOW, the ring and log sizes and the Reeve's mode are clamped, HEAD is taken or refused, and a read-only register
keeps its value. -/
def Obligations.SystemRegisters : Prop :=
  (∀ (h : Hdr) (reg : BitVec 12) (ad aa : BitVec 5) (s : State),
     (StewardReady s (.csrr h reg ad) h [] → accessNeed .ctl false false s = none →
       exec (.csrr h reg ad) s = .next (pairPassed s (addVarOp s .ctl (destWrite ad (sysRead s reg.toNat)) .sysRead) .ctl h)) ∧
     (StewardReady s (.csrw h reg aa) h [ra aa] →
       exec (.csrw h reg aa) s = .next (pairPassed s (sysWrite s reg.toNat (readA s .ctl aa)) .ctl h))) ∧
  (∀ (s : State) (v : BitVec 64),
     let back (n : Nat) : BitVec 64 := sysRead (sysWrite s n v) n
     (∀ n ∈ [0x031, 0x033, 0x045], back n = v) ∧
     (∀ n ∈ [0x032, 0x069], back n = v &&& 0xFFFFFFFF#64) ∧
     back 0x068 = v &&& 0x000FFFFFFFFFF000#64 ∧ back 0x06A = v &&& 0x000FFFFFFFFFF01F#64 ∧
     back 0x06B = v &&& 0x000FFFFFFFFFFFC0#64 ∧
     (back 0x010).toNat = max 64 (min 4096 (v.toNat % 2 ^ 13)) ∧
     back 0x011 = (sysRead s 0x011 &&& ~~~1#64) ||| (v &&& 1#64) ∧
     back 0x030 = (v &&& 0xF0000#64) ||| (sysRead s 0x030 &&& 0x1FF#64 &&& ~~~v) ∧
     back 0x040 = sysRead s 0x040 &&& ~~~(v &&& 0xFF#64) ∧ back 0x043 = sysRead s 0x043 &&& ~~~(v &&& 0xC000000000000000#64) ∧
     (∀ n ∈ [0x050, 0x051, 0x052, 0x082], back n = v &&& 0xFFFFFFFF#64) ∧
     back 0x053 = (sysRead s 0x053 &&& 2#64) ||| (v &&& 1#64) ∧
     (let x := back 0x066
      x &&& ~~~0x3C#64 = v &&& 0x000FFFFFFFFFFFC3#64 ∧ (x.extractLsb' 2 4).toNat = max 4 (v.extractLsb' 2 4).toNat) ∧
     (let x := back 0x067
      let old := sysRead s 0x067
      let taken := (old.extractLsb' 16 16 - v.extractLsb' 0 16).toNat ≤ 2 ^ ((sysRead s 0x066).extractLsb' 2 4).toNat
      x.extractLsb' 16 16 = old.extractLsb' 16 16 ∧ x.extractLsb' 33 31 = (0 : BitVec 31) ∧
      (taken → x.extractLsb' 0 16 = v.extractLsb' 0 16 ∧ x.getLsbD 32 = (old.getLsbD 32 && !v.getLsbD 32)) ∧
      (¬taken → x.extractLsb' 0 16 = old.extractLsb' 0 16 ∧ x.getLsbD 32 = true)) ∧
     (s.mx.modeok = false → sysWrite s 0x072 v = s) ∧
     (s.mx.modeok = true →
       let x := back 0x072
       let clampTo (lo hi n : Nat) : Nat := if n < lo then lo else if hi < n then hi else n
       x &&& ~~~0xFF000F#64 = 0 ∧ (x.extractLsb' 0 4).toNat = clampTo s.mx.slmin.toNat s.mx.slmax.toNat (v.extractLsb' 0 4).toNat ∧
       (x.extractLsb' 16 8).toNat = clampTo 1 s.mx.umax.toNat (v.extractLsb' 16 8).toNat % 256) ∧
     (let x := back 0x073
      x &&& ~~~0x3C#64 = v &&& 0x000FFFFFFFFFFFC3#64 ∧ (x.extractLsb' 2 4).toNat = min 12 (v.extractLsb' 2 4).toNat) ∧
     back 0x074 = sysRead s 0x074 &&& ~~~(v &&& 0x100000000#64) ∧
     back 0x080 = sysRead s 0x080 &&& ~~~(v &&& 0x1FC#64) ∧ (∀ n ∈ [0x081, 0x083], back n = v) ∧
     (∀ k : Fin 4, ∀ i : Fin 4,
       (back (0x060 + k.val)).extractLsb' (16 * i.val) 15 = v.extractLsb' (16 * i.val) 15 ∧
       (back (0x060 + k.val)).getLsbD (16 * i.val + 15) =
         ((sysRead s (0x060 + k.val)).getLsbD (16 * i.val + 15) && !v.getLsbD (16 * i.val + 15))) ∧
     (∀ n ∈ [0x000, 0x012, 0x013, 0x014, 0x015, 0x020, 0x041, 0x042, 0x044, 0x064, 0x065, 0x070, 0x071, 0x075, 0x076, 0x077,
         0x078, 0x079, 0x090, 0x091, 0x092, 0x093, 0x094, 0x095, 0x096, 0x097, 0x098, 0x0A0, 0x0A1], sysWrite s n v = s))

/-- R184, R185, R467 and R468: bellr and gclkr read the Bell and the group clock, ttok queues its tokens, bellw waits for the
Bell and the event that ends its wait. R186: tstart copies the text to Thresher instruction memory, clears the Thresher's
registers and its two token counters, and starts it at its entry. -/
def Obligations.BellAndThresherStart : Prop :=
  (∀ (h : Hdr) (ad aa : BitVec 5) (n : BitVec 4) (imm : BitVec 13) (s : State),
     let t := readA s .ctl aa + imm.setWidth 64
     (StewardReady s (.bellr h ad) h [] → exec (.bellr h ad) s = .next (pairPassed s (addVarOp s .ctl (destWrite ad
       (if s.ctx.det then s.bell - BitVec.ofNat 64 (s.bell.toNat % 2 ^ s.ctx.perlog2.toNat) else s.bell)) .result) .ctl h)) ∧
     (StewardReady s (.gclkr h ad) h [] →
       exec (.gclkr h ad) s = .next (pairPassed s (addVarOp s .ctl (destWrite ad (gclkRead s)) .result) .ctl h)) ∧
     (StewardReady s (.ttok h n) h [] → pushCrowded s .ctl = false → exec (.ttok h n) s =
       .next (pairPassed s (s.setEng .ctl { (s.eng .ctl) with
       pushes := (s.eng .ctl).pushes ++ [⟨false, false, n.toNat, s.nextId, s.nextId⟩] }) .ctl h)) ∧
     (StewardReady s (.bellw h aa imm) h [ra aa] →
       (t.toNat ≤ s.bell.toNat → exec (.bellw h aa imm) s = .next (pairPassed s s .ctl h)) ∧
       (s.bell.toNat < t.toNat → exec (.bellw h aa imm) s = .next (stall s .ctl (.bell t)))) ∧
     (∀ w c b, (s.eng .ctl).wait = some ⟨.bell w, c, b⟩ → w.toNat ≤ s.bell.toNat →
       exec .bellTargetReached s = .next (s.setEng .ctl { (s.eng .ctl) with wait := none }))) ∧
  (∀ (h : Hdr) (aa ab : BitVec 5) (entry : BitVec 12) (s : State),
     let src := uintA s .ctl aa
     let len := uintA s .ctl ab
     StewardReady s (.tstart h aa ab entry) h [ra aa, ra ab] → Memory.wf s.ctx.imem → orderNeed .ctl false s = none →
     s.ctx.thrrun = false → outstanding s .thr = false → len ≤ 16384 → len % 4 = 0 → src % 16 = 0 →
     (len = 0 ∨ rangeCheck s .ctl localRec (src : Int) len .read = none) →
     ∃ t, exec (.tstart h aa ab entry) s = .next t ∧ t.ctx.thrrun = true ∧ tokGet t 8 = 0 ∧ tokGet t 9 = 0 ∧
       (∀ m, readA t .thr m = 0) ∧ (∀ b, readBf t .thr b = 0) ∧ (t.eng .thr).pc = BitVec.ofNat 64 (4 * entry.toNat) ∧
       (t.eng .thr).loops = [] ∧ (t.eng .thr).seq = none ∧
       (∀ k, k < len → memGet t.ctx.imem k = memGet s.mem (scratchKey s.coreNo.toNat src + k)) ∧
       (∀ k, len ≤ k → memGet t.ctx.imem k = memGet s.ctx.imem k) ∧
       (∀ m, readA t .ctl m = readA s .ctl m) ∧ SameBytes s t)

/-- R187 and R46: trap stops the running strand with code TRAP, its immediate in OPERAND0 and the Steward's tag; the Steward
stands at the trap and resumes past it. Nothing else changes. R188 and R52: eret of the handling strand, once its work is
complete, restores the stopped context: every engine's registers, records, loops and sequencer, and its program counter, the
Steward's past the words of a trap. A save area that was altered halts the partition instead (R437). -/
def Obligations.TrapAndReturn : Prop :=
  (∀ (h : Hdr) (imm : BitVec 13) (s : State), StewardReady s (.trap h imm) h [] → s.ctx.stop = none →
     (s.ctx.status = .running ∨ s.ctx.status = .handler) →
     exec (.trap h imm) s = .next { s with ctx := { s.ctx with
       status := .stopped
       stop := some { info := ⟨.trap, 0, false, imm.setWidth 64, 0⟩, at_ := s.cycle, multi := false, afterTrap := true,
                      recorded := false, toHost := false, was := s.ctx.status, resuming := false } } }) ∧
  (∀ (h : Hdr) (s : State) (c : Ctx) (img : Mem) (st : Stop),
     encodingOk (.eret h) false = true → popWait s .ctl h = none → s.ctx.taskHandler = true → s.ops = [] → s.mx.pound = [] →
     quotaHolds s s.ctx.part = false → s.saved.find? (fun x => x.1.part == s.ctx.part) = some (c, img) → c.stop = some st →
     (areaImage s s.ctx.part = img → ∃ t, exec (.eret h) s = .next t ∧
       (∀ e, (t.eng e).a = (c.eng.get e).a ∧ (t.eng e).bf = (c.eng.get e).bf) ∧
       (∀ e, (e ≠ .ctl ∨ st.afterTrap = false) → (t.eng e).pc = (c.eng.get e).pc ∧ (t.eng e).loops = (c.eng.get e).loops ∧
         (t.eng e).seq = (c.eng.get e).seq) ∧
       (st.afterTrap = true → Straight c.eng.ctl → (t.eng .ctl).pc = c.eng.ctl.pc + 8) ∧
       t.ctx.tokens = c.tokens ∧ t.ctx.vec.v = c.vec.v ∧ t.ctx.item = c.item ∧ t.ctx.inst = c.inst ∧
       (c.heldFaults = [] → c.mx.activeSaved = none → c.mx.shadowSaved = none → c.mx.ref = false →
         t.ctx.stop = none ∧ t.ctx.status = st.was)) ∧
     (areaImage s s.ctx.part ≠ img → ∃ t, exec (.eret h) s = .next t ∧ (getPart t s.ctx.part).halted = true))

/-- R189: taskend ends the item with the status in its register, once the engines of the trailer mask have reached their stop
point; a Thresher that the mask does not name is halted. R440 to R445: the queue instructions and the item instructions, on a
queue of the context's own partition that is enabled and, for dpush, on a later stage with a free place. -/
def Obligations.TaskAndQueueForms : Prop :=
  (∀ (h : Hdr) (aa : BitVec 5) (s : State), StewardReady s (.taskend h aa) h [ra aa] →
     (trailerReached s = false → exec (.taskend h aa) s = .next (stall s .ctl .other)) ∧
     (trailerReached s = true →
       let u := if bitAt s.ctx.trailer 3 then s else haltThresher s
       exec (.taskend h aa) s = .next (pairPassed s (endItem u (readA s .ctl aa)) .ctl h))) ∧
  (∀ (h : Hdr) (ad aa ab : BitVec 5) (idx : BitVec 4) (stg : BitVec 3) (s u : State),
     let n := uintA s .ctl aa
     let own : Prop := n < 16384 ∧ (getWq s n).part = s.ctx.part ∧ (getWq s n).en = true
     (StewardReady s (.qres h ad aa ab) h [ra aa, ra ab] → accessNeed .ctl true false s = none → own →
       let c := if ab = 0 then 1 else readA s .ctl ab
       c ≠ 0 → c.toNat ≤ 4096 →
       let q := sendAtomic s .ctl 0 (.reserve n c)
       exec (.qres h ad aa ab) s = .next (pairPassed s (addVarOp q.2 .ctl (destWrite ad q.1) (.load none none 0)) .ctl h) ∧
       ((∀ r ∈ s.replies, r.unit ≠ 2 ^ 40 + n) → q.1 = (getWq s n).widx ∧
         (getWq q.2 n).widx = (getWq s n).widx + c)) ∧
     (StewardReady s (.qtail h aa ab) h [ra aa, ra ab] → orderNeed .ctl true s = none → own →
       Released s .ctl (some 3) u →
       exec (.qtail h aa ab) s = .next (pairPassed s (writeTail u n (readA s .ctl ab)) .ctl h)) ∧
     (StewardReady s (.qhead h ad aa) h [ra aa] → accessNeed .ctl false false s = none → own →
       exec (.qhead h ad aa) s = .next (pairPassed s
         (addVarOp s .ctl (destWrite ad (getWq s n).head) (.load (some 3) none 0)) .ctl h)) ∧
     (StewardReady s (.ditem h ad idx) h [] →
       exec (.ditem h ad idx) s = .next (pairPassed s
         (addVarOp s .ctl (destWrite ad (s.ctx.item.getD idx.toNat 0)) .result) .ctl h)) ∧
     (StewardReady s (.dpush h aa stg) h [ra aa] → orderNeed .ctl true s = none → s.ctx.taskHandler = false →
       n % 16 = 0 → s.ctx.taskStage.toNat < stg.toNat → rangeCheck s .ctl localRec (n : Int) 128 .read = none →
       ∀ p, s.ctx.inst.bind (findPipe s) = some p → stg.toNat < p.stages.length → p.stageFull stg.toNat = false →
       Released s .ctl (some 3) u →
       exec (.dpush h aa stg) s = .next (pairPassed s (enqueue u p.id stg.toNat
         (rawRead u (keyRange (scratchKey s.coreNo.toNat n) 128))) .ctl h)))

/-! ### The vector engine (chapter 5) -/

/-- R205 to R207 with R197 and R202: each element-wise form, on a type that it accepts, starts one fixed-latency result of its
destination, made lane by lane by `LaneForm.value`; under SR it advances IBASE by the number of elements. On a type that it
does not accept it faults FORMAT with the type in OPERAND0. R202, the pattern of every element-wise instruction, on the result
register: an active lane holds its function's element, an inactive lane its old one when merging and 0 otherwise; inactive
lanes set no flags. R230 and R203: each special function, when its unit is free, starts one result and occupies the unit for N
/ 32 cycles. -/
def Obligations.VectorLaneForms : Prop :=
  (∀ (k : LaneForm) (h : Hdr) (ty : BitVec 5) (rm : BitVec 3) (mz : BitVec 1) (vd va vb vc : BitVec 6) (pg : BitVec 4)
     (m : RMode) (s : State),
     let i := k.instr h ty rm mz vd va vb vc pg
     let srcs := k.sources va vb vc
     (k.rounds = false → rm = 0) → RMode.ofCode rm s.ctx.vec.rm = some m →
     VectorReady s i h (laneReads s mz vd srcs pg) →
     let x := laneResult ty (readP s pg) mz (readV s (vphys s vd)) fun j =>
       k.value ty s.ctx.vec.fz m (vecU s m j) (srcs.map fun v => lane ty (readV s (vphys s v)) j)
     (k.accepts ty = true → exec i s = .next (pairPassed s
       (vecResult (advanceIbase s m (vtCount ty)) (k.latency ty) [.v (vphys s vd) x.1] x.2) .vec h)) ∧
     (k.accepts ty = false → exec i s = .next (raise s .vec (formatTrap ty.toNat)))) ∧
  (∀ (ty : BitVec 5) (pg : BitVec 1024) (mz : BitVec 1) (old : BitVec 4096) (f : Nat → Nat × Fx), tyOk ty = true →
     let r := laneResult ty pg mz old f
     (∀ i, i < vtCount ty → lane ty r.1 i =
       if pg.getLsbD i then (f i).1 % 2 ^ vtBits ty else if mz = 1 then lane ty old i else 0) ∧
     (r.2.nv = true ↔ ∃ i, i < vtCount ty ∧ pg.getLsbD i = true ∧ (f i).2.nv = true) ∧
     (r.2.sat = true ↔ ∃ i, i < vtCount ty ∧ pg.getLsbD i = true ∧ (f i).2.sat = true)) ∧
  (∀ (k : SfuForm) (h : Hdr) (ty : BitVec 5) (mz : BitVec 1) (vd va : BitVec 6) (pg : BitVec 4) (s : State),
     let i := k.instr h ty mz vd va pg
     let c := vtCount ty / 32
     VectorReady s i h (laneReads s mz vd [va] pg) → s.ctx.vec.sfuFree ≤ s.cycle →
     let x := laneResult ty (readP s pg) mz (readV s (vphys s vd)) fun j =>
       sfuLane k.number k.of ty s.ctx.vec.fz .rne 0 [lane ty (readV s (vphys s va)) j]
     (vtFloat ty = true → exec i s = .next (pairPassed s
       (setCtx (vecResult s (6 + c) [.v (vphys s vd) x.1] x.2)
         { s.ctx with vec := { s.ctx.vec with sfuFree := s.cycle + c } }) .vec h)) ∧
     (vtFloat ty = false → exec i s = .next (raise s .vec (formatTrap ty.toNat))))

/-- R208 to R211: vcmp, vsel, the four predicate operations and pcnt. p0 takes no result, and in a loopm body the predicates
of the sequencer are no destination (R195). -/
def Obligations.ComparesAndPredicates : Prop :=
  ∀ (h : Hdr) (ty : BitVec 5) (mz : BitVec 1) (cond : BitVec 3) (pd pa pb : BitVec 4) (vd va vb : BitVec 6) (pg : BitVec 4)
    (ad : BitVec 5) (s : State),
    let g := readP s pg
    let a (j : Nat) : Nat := lane ty (readV s (vphys s va)) j
    let b (j : Nat) : Nat := lane ty (readV s (vphys s vb)) j
    let res (lat : Nat) (ws : List RegWrite) (fx : Fx) : Host.Outcome State Fault Refusal :=
      .next (pairPassed s (vecResult s lat ws fx) .vec h)
    let pred (x : BitVec 1024) : List RegWrite := if pd = 0 then [] else [.p pd.toNat x]
    (VectorReady s (.vcmp h ty mz cond pd va vb pg) h ([regV s va, regV s vb, regP pg] ++ (if mz = 1 then [regP pd] else [])) →
      predOwned s pd = false → vtInt ty = true ∨ vtFloat ty = true →
      ∃ x fx, (∀ j, j < vtCount ty → x.getLsbD j =
          if g.getLsbD j then (cmpLane ty s.ctx.vec.fz cond (a j) (b j)).1 else (mz = 1 && (readP s pd).getLsbD j)) ∧
        (∀ j, vtCount ty ≤ j → x.getLsbD j = false) ∧
        (fx.nv = true ↔ ∃ j, j < vtCount ty ∧ g.getLsbD j = true ∧ (cmpLane ty s.ctx.vec.fz cond (a j) (b j)).2.nv = true) ∧
        exec (.vcmp h ty mz cond pd va vb pg) s = res 2 (pred x) fx) ∧
    (VectorReady s (.vsel h ty vd va vb pg) h [regV s va, regV s vb, regP pg] →
      ∃ x, (∀ j, j < vtCount ty → lane ty x j = if g.getLsbD j then a j else b j) ∧
        exec (.vsel h ty vd va vb pg) s = res 2 [.v (vphys s vd) x] {}) ∧
    (predOwned s pd = false →
      (VectorReady s (.pand h pd pa pb) h [regP pa, regP pb] →
        exec (.pand h pd pa pb) s = res 1 (pred (readP s pa &&& readP s pb)) {}) ∧
      (VectorReady s (.por h pd pa pb) h [regP pa, regP pb] →
        exec (.por h pd pa pb) s = res 1 (pred (readP s pa ||| readP s pb)) {}) ∧
      (VectorReady s (.pxor h pd pa pb) h [regP pa, regP pb] →
        exec (.pxor h pd pa pb) s = res 1 (pred (readP s pa ^^^ readP s pb)) {}) ∧
      (VectorReady s (.pnot h pd pa) h [regP pa, regP 0] →
        exec (.pnot h pd pa) s = res 1 (pred (~~~readP s pa)) {})) ∧
    (VectorReady s (.pcnt h ty ad pa) h [regP pa] → exec (.pcnt h ty ad pa) s = res 2 [.a ad.toNat
      (BitVec.ofNat 64 ((List.range (vtCount ty)).countP fun j => (readP s pa).getLsbD j))] {})

/-- R212 with R194 and R197: vcvt converts element by element, between register groups where the widths differ; the wider side
is a group of `k` registers, element `i` in register `i mod k`. -/
def Obligations.VectorConvert : Prop :=
  ∀ (h : Hdr) (ty dty : BitVec 5) (rm : BitVec 3) (mz : BitVec 1) (aux : BitVec 3) (vd va : BitVec 6) (pg : BitVec 4)
    (m : RMode) (s : State),
    let i := Instr.vcvt h ty rm mz aux vd va dty pg
    let k := cvtRatio ty dty
    let kd := if vtWidth ty < vtWidth dty then k else 1
    let ks := if vtWidth dty < vtWidth ty then k else 1
    let n := 4096 / min (vtWidth ty) (vtWidth dty)
    VectorReady s i h ((groupRegs s va ks).map .v ++ [regP pg] ++ (if mz = 1 then (groupRegs s vd kd).map .v else [])) →
    RMode.ofCode rm s.ctx.vec.rm = some m →
    (cvtPair ty dty = false →
      exec i s = .next (raise s .vec (formatTrap (if vtCb dty then dty.toNat else ty.toNat)))) ∧
    (cvtPair ty dty = true →
      let el (t : BitVec 5) (v : BitVec 6) (k j : Nat) : Nat :=
        lane t (readV s (vphys s (v + BitVec.ofNat 6 (j % k)))) (j / k)
      let code (j : Nat) : Nat × Fx := cvtLane ty dty s.ctx.vec.fz m (vecU s m j) (bitAt aux 2)
        (s.ctx.vec.cb.getD (field aux 0 2).toNat []) (el ty va ks j)
      ∃ (xs : List (BitVec 4096)) (fx : Fx) (t : State), xs.length = kd ∧
        (∀ j, j < n → lane dty (xs.getD (j % kd) 0) (j / kd) =
          if (readP s pg).getLsbD j then (code j).1 % 2 ^ vtBits dty else if mz = 1 then el dty vd kd j else 0) ∧
        (fx.nv = true ↔ ∃ j, j < n ∧ (readP s pg).getLsbD j = true ∧ (code j).2.nv = true) ∧
        t = vecResult (advanceIbase s m n) (2 + k) ((groupRegs s vd kd).zip xs |>.map fun p => .v p.1 p.2) fx ∧
        exec i s = .next (pairPassed s (t.setEng .vec { (t.eng .vec) with
          holdUntil := max (t.eng .vec).holdUntil (s.cycle + k) }) .vec h))

/-- R213 to R217: vred, vperm, vdup, vzip, vunzip and vgetx, by the lanes of their results. -/
def Obligations.ReductionsAndPermutes : Prop :=
  ∀ (h : Hdr) (ty : BitVec 5) (rm : BitVec 3) (mz : BitVec 1) (op aux : BitVec 3) (vd va vb : BitVec 6) (pg seg : BitVec 4)
    (ad aa : BitVec 5) (m : RMode) (s : State),
    let n := vtCount ty
    let w := vtWidth ty
    let g := readP s pg
    let a (j : Nat) : Nat := lane ty (readV s (vphys s va)) j
    let b (j : Nat) : Nat := lane ty (readV s (vphys s vb)) j
    let d (j : Nat) : Nat := lane ty (readV s (vphys s vd)) j
    let res (u : State) (lat : Nat) (ws : List RegWrite) (fx : Fx) : Host.Outcome State Fault Refusal :=
      .next (pairPassed s (vecResult u lat ws fx) .vec h)
    (VectorReady s (.vred h ty rm op vd va pg seg) h [regV s va, regP pg] → RMode.ofCode rm s.ctx.vec.rm = some m →
      redTypes ty op = true →
      let q := if seg = 0 then n else 2 ^ seg.toNat
      let part (j : Nat) : Nat × Fx := reduceSeg ty op s.ctx.vec.fz m (vecU s m j)
        ((((List.range q).map (j * q + ·)).filter fun i => g.getLsbD i).map a)
      ∃ x fx, (∀ j, j < n → lane ty x j = if j < n / q then (part j).1 % 2 ^ vtBits ty else 0) ∧
        (fx.nv = true ↔ ∃ j, j < n / q ∧ (part j).2.nv = true) ∧
        exec (.vred h ty rm op vd va pg seg) s = res (advanceIbase s m (n / q)) 6 [.v (vphys s vd) x] fx) ∧
    (VectorReady s (.vperm h ty mz aux vd va vb pg) h (laneReads s mz vd [va, vb] pg) →
      ∃ x, (∀ j, j < n → lane ty x j =
          let c := b j + (if bitAt aux 0 then 256 else 0)
          if g.getLsbD j then (if c < n then a c else 0) else if mz = 1 then d j else 0) ∧
        exec (.vperm h ty mz aux vd va vb pg) s = res s 3 [.v (vphys s vd) x] {}) ∧
    (VectorReady s (.vdup h ty mz vd aa pg) h (ra aa :: laneReads s mz vd [] pg) →
      ∃ x, (∀ j, j < n → lane ty x j =
          if g.getLsbD j then uintA s .vec aa % 2 ^ vtBits ty else if mz = 1 then d j else 0) ∧
        exec (.vdup h ty mz vd aa pg) s = res s 2 [.v (vphys s vd) x] {}) ∧
    (VectorReady s (.vzip h ty vd va vb) h [regV s va, regV s vb] →
      ∃ x y, (∀ j, j < n →
          lane ty x j = (if j % 2 = 0 then a (j / 2) else b (j / 2)) ∧
          lane ty y j = (if (n + j) % 2 = 0 then a ((n + j) / 2) else b ((n + j) / 2))) ∧
        exec (.vzip h ty vd va vb) s = res s 3 [.v (vphys s vd) x, .v (vphys s (vd + 1)) y] {}) ∧
    (VectorReady s (.vunzip h ty vd va) h ((groupRegs s va 2).map .v) →
      ∃ x y, (∀ j, j < n → lane ty x j = groupLane s ty va (2 * j) ∧ lane ty y j = groupLane s ty va (2 * j + 1)) ∧
        exec (.vunzip h ty vd va) s = res s 3 [.v (vphys s vd) x, .v (vphys s (vd + 1)) y] {}) ∧
    (VectorReady s (.vgetx h ty ad va aa) h [regV s va, ra aa] →
      let c := if uintA s .vec aa < n then a (uintA s .vec aa) else 0
      exec (.vgetx h ty ad va aa) s = res s 3 [.a ad.toNat
        (if vtSigned ty then BitVec.ofInt 64 (BitVec.ofNat w c).toInt else BitVec.ofNat 64 c)] {})

/-- R219, R220 and R221: vld and vldg. An active lane in bounds takes the bits of its element, one out of bounds 0, an
inactive one its old element or 0; full/empty forms wait for full granules and may empty them. -/
def Obligations.VectorLoads : Prop :=
  ∀ (h : Hdr) (ty : BitVec 5) (mz : BitVec 1) (fe : BitVec 2) (vd : BitVec 6) (bf : BitVec 4) (aa : BitVec 5)
    (pg : BitVec 4) (imm : BitVec 13) (vi : BitVec 6) (s : State) (i : Instr) (lin : Nat → Int),
    let r := recOf s .vec bf
    (i = .vld h ty mz fe vd bf aa pg imm ∧ VectorReady s i h (ra aa :: laneReads s mz vd [] pg) ∧
        (∀ j, lin j = sintA s .vec aa + imm.toInt + j)) ∨
      (i = .vldg h ty mz vd bf aa pg vi ∧ fe = 0 ∧
        VectorReady s i h (ra aa :: (groupRegs s vi (idxRegs ty)).map .v ++ laneReads s mz vd [] pg) ∧
        (∀ j, lin j = sintA s .vec aa + gatherIndex s vi j)) →
    vecNeed false s = none → r.fieldTrap (fe ≠ 0) (memFmtOk ty) = none →
    ∀ ls, vecSpots s r .read ((activeLanes s ty pg).map lin) = .ok ls →
    let gs := if fe = 0 then [] else locGranules s r ls.flatten
    granuleWait s .vec gs true = none →
    let u := (vecRead s r.cache ls.flatten).1
    ∃ t x, exec i s = .next t ∧
      (∀ j, j < vtCount ty → lane ty x j =
        if !(readP s pg).getLsbD j then (if mz = 1 then lane ty (readV s (vphys s vd)) j else 0)
        else if !r.inBounds (lin j) then 0
        else locBits u (ls.getD (laneRank s r pg lin j) []) (r.codeAt (lin j)).2 r.bits % 2 ^ vtBits ty) ∧
      (∃ o ∈ t.ops, o.id = s.nextId ∧ o.eng = .vec ∧ o.ws = [.v (vphys s vd) x]) ∧
      t.full = (if fe = 2 then s.full.filter (fun q => !gs.contains q) else s.full) ∧
      t.ctx.vec = s.ctx.vec ∧ (s.BytesOk → NoAlias s → s.Fresh → SameOutside [] s t) ∧ (∀ e, e ≠ .vec → t.eng e = s.eng e)

/-- R219 and R221: vst and vsts write the active lanes that are in bounds, lowest first, and the form with full/empty sets its
granules full after its release. Bytes of armed barrier lines are not written, and the first of them faults (R394); every byte
that no lane stores to reads as before. -/
def Obligations.VectorStores : Prop :=
  ∀ (h : Hdr) (ty : BitVec 5) (fe : BitVec 2) (vs : BitVec 6) (bf : BitVec 4) (aa : BitVec 5)
    (pg : BitVec 4) (imm : BitVec 13) (vi : BitVec 6) (s u : State) (i : Instr) (lin : Nat → Int),
    let r := recOf s .vec bf
    (i = .vst h ty fe vs bf aa pg imm ∧ VectorReady s i h [ra aa, regV s vs, regP pg] ∧
        (∀ j, lin j = sintA s .vec aa + imm.toInt + j)) ∨
      (i = .vsts h ty vs bf aa pg vi ∧ fe = 0 ∧
        VectorReady s i h ([ra aa, regV s vs, regP pg] ++ (groupRegs s vi (idxRegs ty)).map .v) ∧
        (∀ j, lin j = sintA s .vec aa + gatherIndex s vi j)) →
    vecNeed true s = none → r.fieldTrap (fe ≠ 0) (memFmtOk ty) = none →
    ∀ ls, vecSpots s r .write ((activeLanes s ty pg).map lin) = .ok ls →
    let gs := if fe = 0 then [] else locGranules s r ls.flatten
    granuleWait s .vec (if fe = 2 then gs else []) false = none → Released s .vec (feScope r (fe ≠ 0)) u →
    let lanes := ((activeLanes s ty pg).filter fun j => r.inBounds (lin j)).zip ls
    let w := writeCodes u .core r.cache
      (lanes.map fun c => ⟨c.2, (r.codeAt (lin c.1)).2, r.bits, lane ty (readV s (vphys s vs)) c.1⟩)
    exec i s = .next (pairPassed s (storeOp (setFull w.1 gs true) {} (armedFault r w.2) (locHandles s r ls.flatten)) .vec h) ∧
    ((∀ l ∈ ls.flatten, armedLine s l.key = false) → w.2 = none) ∧
    (s.BytesOk → NoAlias s → s.Fresh → SameOutside (ls.flatten.map (·.key)) s w.1)

/-- R226 with R134 and R197: vqld converts each element that it loads to its type, rounded once; a block whose tag is wrong
faults SCALE_STEP instead, before it issues (that moment is assumption 73). R227 to R229: vqst writes the blocks that its lanes make,
or through a codebook the nearest entries, with the flags of their encoding; bytes of armed barrier lines are not written, and the first of them faults. -/
def Obligations.QuantisedForms : Prop :=
  (∀ (h : Hdr) (ty : BitVec 5) (rm : BitVec 3) (mz : BitVec 1) (cb : BitVec 2) (vd : BitVec 6) (bf : BitVec 4) (aa : BitVec 5)
     (pg : BitVec 4) (m : RMode) (s : State),
     let i := Instr.vqld h ty rm mz cb vd bf aa pg
     let r := recOf s .vec bf
     let f := r.format.getD .e4m3
     let lin (j : Nat) : Int := sintA s .vec aa + j
     let act := activeLanes s ty pg
     let inb := act.filter fun j => r.inBounds (lin j)
     let spans := inb.map fun j => quantSpans r f (lin j)
     VectorReady s i h (ra aa :: laneReads s mz vd [] pg) → vecNeed false s = none →
     RMode.ofCode rm s.ctx.vec.rm = some m → r.fieldTrap false vqldFmt = none → vtFloat ty = true →
     worst (r.oobTraps .read (act.map lin) ++ spanTraps s .vec r .read spans.flatten) = none →
     ∀ flat, reachSpans s r .read spans.flatten = .ok flat →
     let ls := regroup (spans.map (·.length)) flat
     let p := vecRead s r.cache flat.flatten
     let wrong (c : Nat × List (List Loc)) : Bool := tagWrong p.1 f (quantBlk r f (lin c.1)) c.2
     (p.2 = none → ∀ l c r', inb.zip ls = l ++ c :: r' → (∀ d ∈ l, wrong d = false) → wrong c = true →
       exec i s = .next (raise s .vec { code := .scaleStep, op0 := BitVec.ofNat 64 (quantBlk r f (lin c.1)) })) ∧
     ((p.2 = none → ∀ c ∈ inb.zip ls, wrong c = false) →
     let el (j : Nat) : Nat × Fx := vtRound ty s.ctx.vec.fz m (vecU s m j) false
       (elemValue p.1 f (r.linear (lin j)).1.toNat (s.ctx.vec.cb.getD cb.toNat []) (ls.getD (laneRank s r pg lin j) []))
     ∃ t x, exec i s = .next t ∧
       (∀ j, j < vtCount ty → lane ty x j =
         if !(readP s pg).getLsbD j then (if mz = 1 then lane ty (readV s (vphys s vd)) j else 0)
         else if !r.inBounds (lin j) then 0 else (el j).1 % 2 ^ vtBits ty) ∧
       (∃ o ∈ t.ops, o.id = s.nextId ∧ o.eng = .vec ∧ o.ws = [.v (vphys s vd) x] ∧
         (o.fx.nv = true ↔ ∃ j ∈ inb, (el j).2.nv = true)) ∧
       t.ctx.vec = (advanceIbase s m (vtCount ty)).ctx.vec ∧ (s.BytesOk → NoAlias s → s.Fresh → SameOutside [] s t))) ∧
  (∀ (h : Hdr) (ty : BitVec 5) (imp : BitVec 1) (cb : BitVec 2) (vs : BitVec 6) (bf : BitVec 4) (aa : BitVec 5)
     (pg : BitVec 4) (ab : BitVec 5) (vb : BitVec 6) (s : State),
     let i := Instr.vqst h ty imp cb vs bf aa pg ab vb
     let r := recOf s .vec bf
     let f := r.format.getD .e4m3
     let n := vtCount ty
     let lin (j : Nat) : Int := sintA s .vec aa + j
     let blocks := (quantBlocks r f (lin 0) n).filter fun b => r.inBounds (lin b.lane0)
     let lanes := (List.range n).filter fun j => r.inBounds (lin j)
     let spans := if f.isCb then lanes.map fun j => (r.codeAt (lin j)).1 else blocks.flatMap fun b => b.spans r f
     let book := (s.ctx.vec.cb.getD cb.toNat []).take (if f = .cb8 then 256 else 16)
     let code (j : Nat) : Nat × Fx :=
       let x := vqstSource s ty vs pg j
       ((cbQuantise book x.v x.count).1, { (cbQuantise book x.v x.count).2 with nv := x.v.signals })
     VectorReady s i h ([ra aa, regV s vs, regP pg, ra ab] ++ (if imp = 1 then [regV s vb] else [])) → vecNeed true s = none →
     (imp = 1 ∨ vb = 0) → r.fieldTrap false vqstFmt = none → (imp = 1 → f.isCb = false) → (ab ≠ 0 → f.isTl = true) →
     vtFloat ty = true → (f.isCb = false → (r.linear (lin 0)).1 % (f.block : Int) = 0) →
     worst (r.oobTraps .write ((activeLanes s ty pg).map lin) ++ spanTraps s .vec r .write spans) = none →
     ∀ ls, reachSpans s r .write spans = .ok ls →
     (f.isCb = true →
       let w := writeCodes s .core r.cache
         ((lanes.zip ls).map fun c => ⟨c.2, (r.codeAt (lin c.1)).2, f.bits, (code c.1).1⟩)
       exec i s = .next (pairPassed s (storeOp w.1 (Fx.joinAll (lanes.map fun j => (code j).2)) (armedFault r w.2)
         (locHandles s r ls.flatten)) .vec h)) ∧
     (f.isCb = false →
       let q := vqstWrites s r f ty imp vs pg (field (readA s .vec ab) 0 32).toNat vb (lin 0) blocks
       let w := writeCodes s .core r.cache ((ls.zip q.1).map fun c => ⟨c.1, 0, 8 * c.2.length, leValue c.2⟩)
       exec i s = .next (pairPassed s (storeOp w.1 q.2 (armedFault r w.2) (locHandles s r ls.flatten)) .vec h)))

/-! ### The matrix engine (chapter 6), the Sower (chapter 7) and the Reeve (chapter 9) -/

/-- R259, R261, R262, R266, R267 and R269: mdrop, mzero, mwin, mcopy, madd, mgetz, msigr, msync and mstat issue; each but
msync starts an operation whose effect the second part states. A tile outside the context's window faults BOUNDS (R242).
R261, R262, R266, R269 and R351 with R22: what a tile, signature or status operation leaves when it lands. Each is gone
afterwards, and both paths keep every other tile. -/
def Obligations.MatrixTiles : Prop :=
  (∀ (h : Hdr) (zd za : BitVec 2) (w : BitVec 7) (q hi clr : BitVec 1) (ad ab aa : BitVec 5) (s : State),
     let go (t : State) : Host.Outcome State Fault Refusal := .next (pairPassed s t .mxe h)
     let bounds (x : BitVec 64) : Host.Outcome State Fault Refusal := .next (raise s .mxe { code := .bounds, op0 := x })
     let x := readA s .mxe aa
     (MatrixReady s (.mdrop h) h [] → loadPending s = false → flipPending s = false → statPending s = false →
       exec (.mdrop h) s = go (addMx (setShadow s fun _ => Plane.reset) 0 false [] .plain)) ∧
     (MatrixReady s (.mzero h zd) h [] →
       (tileOk s zd = true → exec (.mzero h zd) s = go (addMx s 2 false [] (.zero zd))) ∧
       (tileOk s zd = false → exec (.mzero h zd) s = bounds (zd.setWidth 64))) ∧
     (MatrixReady s (.mwin h zd w) h [] →
       (tileOk s zd = true → exec (.mwin h zd w) s = go (addMx s 2 false [] (.win zd w))) ∧
       (tileOk s zd = false → exec (.mwin h zd w) s = bounds (zd.setWidth 64))) ∧
     (tileOk s zd = true → tileOk s za = true →
       (MatrixReady s (.mcopy h zd za) h [] → exec (.mcopy h zd za) s = go (addMx s 130 false [] (.copy zd za))) ∧
       (MatrixReady s (.madd h zd za) h [] → exec (.madd h zd za) s = go (addMx s 130 false [] (.add zd za)))) ∧
     (MatrixReady s (.mgetz h zd q hi ad aa) h [ra aa] → tileOk s zd = true →
       (x.toNat < 2 ^ 15 → x.getLsbD 7 = false → exec (.mgetz h zd q hi ad aa) s = go (addMx s 6 true [.a ad.toNat 0]
         (.getz zd (q = 1) (hi = 1) ad (x.toNat / 256) (x.toNat % 128)))) ∧
       (2 ^ 15 ≤ x.toNat ∨ x.getLsbD 7 = true → exec (.mgetz h zd q hi ad aa) s = bounds x)) ∧
     (MatrixReady s (.msigr h ad ab) h [] → let sig := latestSignatures s; exec (.msigr h ad ab) s = go (addMx s 6 true
       ((if ad = 0 then [] else [.a ad.toNat 0]) ++ (if ab = 0 then [] else [.a ab.toNat 0])) (.sigr ad ab sig.1 sig.2.1 sig.2.2))) ∧
     (MatrixReady s (.msync h) h [] →
       (s.mx.pound = [] → exec (.msync h) s = go s) ∧
       (s.mx.pound ≠ [] → exec (.msync h) s = .next (stall s .mxe .other))) ∧
     (MatrixReady s (.mstat h clr ad) h [] → exec (.mstat h clr ad) s = go (addMx s 6 true [.a ad.toNat 0] (.stat (clr = 1) ad)))) ∧
  (∀ (id : Nat) (op : Op) (s : State), findOp s id = some op → op.strand = s.ctx.strand →
     let lands (a : MxAct) (Q : State → Prop) : Prop :=
       op.kind = .mx a → ∃ t, exec (.registerResultLanding id) s = .next t ∧ findOp t id = none ∧ Q t
     let paths (f : MPath → MPath → Prop) (t : State) : Prop :=
       (millRuns s = true → f s.mx.mill t.mx.mill) ∧ (quernRuns s = true → f s.mx.quern t.mx.quern)
     let others (zd : BitVec 2) (p u : MPath) : Prop := ∀ z, z ≠ zd → u.tile z = p.tile z
     (∀ zd, lands (.zero zd) (paths fun p u => others zd p u ∧ (u.tile zd).w = (p.tile zd).w ∧
       ∀ m n, (u.tile zd).get m n = AccElem.zero)) ∧
     (∀ zd w, lands (.win zd w) fun t => ∀ p u, (p = s.mx.mill ∧ u = t.mx.mill) ∨ (p = s.mx.quern ∧ u = t.mx.quern) →
       others zd p u ∧ (u.tile zd).w = w ∧ (u.tile zd).rows = (p.tile zd).rows) ∧
     (∀ zd za, lands (.copy zd za) fun t => paths (fun p u => others zd p u ∧ u.tile zd = p.tile za) t ∧
       t.mx.journals[zd.toNat] = s.mx.journals[za.toNat]) ∧
     (∀ zd za, lands (.add zd za) (paths fun p u => others zd p u ∧ (u.tile zd).w = (p.tile zd).w ∧ ∀ m n, n < 128 →
       let d := (p.tile zd).get m n
       let a := (p.tile za).get m n
       let sh := (p.tile za).w.toInt - (p.tile zd).w.toInt
       let v := if 0 ≤ sh then a.z.toInt * 2 ^ sh.toNat else a.z.toInt / 2 ^ (-sh).toNat
       (m < (p.tile zd).rows.length ∨ m < (p.tile za).rows.length →
         ((u.tile zd).get m n).z.toInt = max (-2 ^ 79) (min (2 ^ 79 - 1) (d.z.toInt + v)) ∧
         ((u.tile zd).get m n).t = combineTags d.t a.t))) ∧
     (∀ zd q hi ad m n, s.mx.mode = .dual → lands (.getz zd q hi ad m n) fun t =>
       let e := ((if q then s.mx.quern else s.mx.mill).tile zd).get m n
       readA t .mxe ad = if ad = 0 then 0 else
         BitVec.ofNat 64 (if hi then e.t.code.toNat * 2 ^ 16 + e.z.toNat / 2 ^ 64 else e.z.toNat % 2 ^ 64)) ∧
     (∀ ad ab m q, lands (.sigr ad ab none m q) fun t =>
       (ad ≠ 0 → ad ≠ ab → readA t .mxe ad = if s.mx.works = .quern then q else m) ∧
       (ab ≠ 0 → readA t .mxe ab = if s.mx.works = .mill then m else q)) ∧
     (∀ clr ad, lands (.stat clr ad) fun t =>
       let f := t.ctx.mx.flags
       (ad ≠ 0 → readA t .mxe ad = mstatValue s) ∧ (clr = false → f = s.ctx.mx.flags) ∧
       (clr = true → [f.nv, f.of, f.uf, f.nx, f.sat, f.nan, f.asat, f.eccz] = List.replicate 8 false)) ∧
     (∀ sel ad, ad ≠ 0 → lands (.rstat sel ad) fun t => readA t .mxe ad = reeveReg s sel.toNat))

/-- R257 to R259 with R234 and R236: an unstamped mload makes the shadow planes FILLING and captures its operand; when its
fill completes, each running path's shadow is FULL and holds at (k, n) the weight of the element that R236 places there
(formats but SQZ8). mflip needs a FULL shadow, and takes effect after the rows issued before it: the shadow becomes the active
plane. -/
def Obligations.PlaneLoads : Prop :=
  (∀ (h : Hdr) (fe : BitVec 2) (tr : BitVec 1) (pfmt : BitVec 3) (cb : BitVec 2) (bf : BitVec 4) (aa ab ac : BitVec 5) (s : State),
    let i := Instr.mload h 0 fe tr pfmt cb bf aa ab ac
    let o := memOp s bf aa ab ac (tr = 1) pfmt cb
    let g := o.planeRegion (if doubleFmt o.fmt then 256 else 128)
    let spans := g.spans o.rcd o.fmt
    MatrixReady s i h [ra aa, ra ab, ra ac] → loadPending s = false → flipPending s = false → statPending s = false →
    slotWait s o.rcd = none → o.fieldTrap fe loadFmt = none → worst (g.check s .mxe o.rcd o.fmt .read) = none →
    granuleWait s .mxe (feGranules s fe o.rcd spans) true = none →
    ∃ t, exec i s = .next t ∧ (∀ m, readA t .mxe m = readA s .mxe m) ∧
      (fe = 0 → o.rcd.space ≠ 0 → SameBytes s t) ∧
      (∃ p ∈ t.ops, p.id = s.nextId ∧ p.eng = .mxe ∧ p.ws = [] ∧
        p.kind = .mx (.load ⟨o, s.mx.mill.sow, s.mx.quern.sow, (s.eng .mxe).pc, none⟩ fe)) ∧
      (millRuns s = true → t.mx.mill = { s.mx.mill with shadow := { s.mx.mill.shadow with st := .filling } }) ∧
      (quernRuns s = true → t.mx.quern = { s.mx.quern with shadow := { s.mx.quern.shadow with st := .filling } })) ∧
  (∀ (id : Nat) (op : Op) (d : LoadDesc) (fe : BitVec 2) (s u : State) (bad : Option (Code × BitVec 64)),
    findOp s id = some op → op.kind = .mx (.load d fe) →
    let o := d.op
    let dbl := doubleFmt o.fmt
    readySpans s o.rcd false ((o.planeRegion (classK dbl)).spans o.rcd o.fmt) op.aborted = .go u bad → o.fmt ≠ .sqz8 →
    ∃ t, exec (.mloadFillComplete id) s = .next t ∧ findOp t id = none ∧
      ∀ p q w, (millRuns s = true ∧ p = s.mx.mill ∧ q = t.mx.mill ∧ w = d.sow) ∨
          (quernRuns s = true ∧ p = s.mx.quern ∧ q = t.mx.quern ∧ w = d.sowQ) →
        q.active = p.active ∧ q.shadow.st = .full ∧ q.shadow.dbl = dbl ∧
        ∀ k n, k < classK dbl → n < 128 →
          let c : Int × Int × Int :=
            (o.ab.toInt + ((if o.tr then k else n : Nat) : Int), o.aa.toInt + ((if o.tr then n else k : Nat) : Int), o.ac.toInt)
          (q.shadow.cols.getD n []).getD k (.fin false Q.zero) =
            weightOf w o.rcd c.1 c.2.1 c.2.2 (cellAt u o.rcd o.fmt (mxBook u o.cb) c.1 c.2.1 c.2.2)) ∧
  (∀ (h : Hdr) (s : State), MatrixReady s (.mflip h 0) h [] →
    (flipPending s = true ∨ (runPath s).shadow.st = .empty → exec (.mflip h 0) s = .next (raise s .mxe { code := .illegalOp })) ∧
    (flipPending s = false → (runPath s).shadow.st = .full → statPending s = false →
      ∃ n, exec (.mflip h 0) s = .next (pairPassed s (addOp s .mxe n [] false {} (.mx .flip)) .mxe h) ∧
        ∀ o ∈ s.ops, ∀ zd d fe pm pq c, o.kind = .mx (.stream zd d fe pm pq c) → c < s.cycle + n)) ∧
  ∀ (id : Nat) (op : Op) (s : State), findOp s id = some op → op.kind = .mx .flip →
    ∃ t, exec (.mflipTakesEffect id) s = .next t ∧ findOp t id = none ∧
      ∀ p q, (millRuns s = true ∧ p = s.mx.mill ∧ q = t.mx.mill) ∨ (quernRuns s = true ∧ p = s.mx.quern ∧ q = t.mx.quern) →
        q.active = p.shadow ∧ q.shadow.st = .empty ∧ q.tiles = p.tiles ∧ q.sow = p.sow

/-- R260 with R148 and R149: an unstamped mstream takes the plane that R258 assigns to it and, when it completes, updates the
rows it names and no other; each element by the procedure of R149, of which the second part states the finite case: exact
products floored to the window, summed, and clamped once. -/
def Obligations.StreamForms : Prop :=
  (∀ (h : Hdr) (fe : BitVec 2) (acc : BitVec 1) (zd : BitVec 2) (pfmt : BitVec 3) (cb : BitVec 2) (bf : BitVec 4)
    (aa ab ac am : BitVec 5) (m1 : BitVec 7) (s : State),
    let i := Instr.mstream h 0 fe acc zd pfmt cb bf aa ab ac am m1
    let o := memOp s bf aa ab ac false pfmt cb
    let plane (p : MPath) : Plane := if flipPending s then p.shadow else p.active
    let mine := plane (runPath s)
    let m := m1.toNat + 1
    let row0 := if am = 0 then 0 else uintA s .mxe am
    let g : Region2 := ⟨o.ab.toInt, o.aa.toInt, o.ac.toInt, classK mine.dbl, m⟩
    MatrixReady s i h [ra aa, ra ab, ra ac, ra am] → mine.st = .full → s.mx.streamFree ≤ s.cycle → slotWait s o.rcd = none →
    o.fieldTrap fe (if mine.dbl then doubleFmt else wideFmt) = none → worst (g.check s .mxe o.rcd o.fmt .read) = none →
    tileOk s zd = true → row0 + m ≤ 128 → granuleWait s .mxe (feGranules s fe o.rcd (g.spans o.rcd o.fmt)) true = none →
    ∃ t, exec i s = .next t ∧ t.mx = { s.mx with streamFree := s.cycle + m } ∧ (∀ n, readA t .mxe n = readA s .mxe n) ∧
      ∃ p ∈ t.ops, ∃ d at_, p.id = s.nextId ∧ p.eng = .mxe ∧ p.kind = .mx (.stream zd d fe (plane s.mx.mill) (plane s.mx.quern) at_) ∧
        d.op = o ∧ d.row0 = row0 ∧ d.m = m ∧ d.acc = decide (acc = 1) ∧ s.cycle + m + 24 ≤ p.due) ∧
  (∀ (id : Nat) (op : Op) (zd : BitVec 2) (d : StreamDesc) (fe : BitVec 2) (pm pq : Plane) (n0 : Nat) (s u : State)
    (bad : Option (Code × BitVec 64)), findOp s id = some op → op.kind = .mx (.stream zd d fe pm pq n0) →
    let k := classK (if s.mx.works = .quern then pq.dbl else pm.dbl)
    let o := d.op
    readySpans s o.rcd false ((d.region k).spans o.rcd o.fmt) op.aborted = .go u bad → o.fmt ≠ .sqz8 →
    ∃ t, exec (.mstreamComplete id) s = .next t ∧ findOp t id = none ∧
      ∀ p q pl, (millRuns s = true ∧ p = s.mx.mill ∧ q = t.mx.mill ∧ pl = pm) ∨
          (quernRuns s = true ∧ p = s.mx.quern ∧ q = t.mx.quern ∧ pl = pq) →
        (q.tile zd).w = (p.tile zd).w ∧ (∀ z, z ≠ zd → q.tile z = p.tile z) ∧ q.active = p.active ∧ q.shadow = p.shadow ∧
        (∀ m n, m < d.row0 ∨ d.row0 + d.m ≤ m → (q.tile zd).get m n = (p.tile zd).get m n) ∧
        ∀ y n, y < d.m → n < 128 →
          let xs := (List.range k).map fun (j : Nat) => activationOf
            (cellAt u o.rcd o.fmt (mxBook u o.cb) (o.ab.toInt + (j : Int)) (o.aa.toInt + (y : Int)) o.ac.toInt)
          let ys := (List.range k).map fun j => (pl.cols.getD n []).getD j (.fin false Q.zero)
          (q.tile zd).get (d.row0 + y) n = (accumulate (p.tile zd).w.toInt
            (if d.acc then (p.tile zd).get (d.row0 + y) n else AccElem.zero) xs ys).1) ∧
  ∀ (w : Int) (e : AccElem) (l : List (Q × Q)),
    let q (x : Q × Q) : Int := ((x.1.mul x.2).scale (-w)).floor
    (∀ x ∈ l, -2 ^ 86 ≤ q x ∧ q x ≤ 2 ^ 86 - 1) →
    let r := accumulate w e (l.map fun x => .fin false x.1) (l.map fun x => .fin false x.2)
    let z := e.z.toInt + (l.map q).sum
    r.1.z.toInt = max (-2 ^ 79) (min (2 ^ 79 - 1) z) ∧ r.1.t = e.t ∧ (r.2 = true ↔ z < -2 ^ 79 ∨ 2 ^ 79 - 1 < z)

/-- R263 to R265, R246 to R248, R44 and R244: mdrain captures its operands and takes a Pound entry after the last one; when
its signatures are formed the entry holds each path's canonical bytes and their digests, and a clearing drain has zeroed its
region; the digest of a byte sequence is the two sums of R244. R248, R249 and R44: the commit of the Pound's head entry, whose
destination pages are there and whose driver has aborted none: every write in one step, the signature and seed of the bytes
committed (CSIG and CSEED of R343, assumption 36), the entry and its operation gone. An entry that is not due stays. -/
def Obligations.DrainsAndCommits : Prop :=
  ((∀ (h : Hdr) (clr grad : BitVec 1) (zd : BitVec 2) (rm : BitVec 3) (bf : BitVec 4) (aa ab ac am : BitVec 5) (g : Area) (s : State),
     let i := Instr.mdrain h 0 clr grad zd rm bf aa ab ac am
     let r := recOf s .mxe bf
     let r2 := recOf s .mxe (bf + 1)
     let f := r.format.getD .fp32
     let reg : Region2 := ⟨sintA s .mxe ab, sintA s .mxe aa, sintA s .mxe ac, g.cols, g.rows⟩
     let units := entryUnits (canonLength f (grad = 1) g)
     MatrixReady s i h [ra aa, ra ab, ra ac, ra am] →
     (grad = 1 → bf ≠ 15 ∧ (s.ctx.mx.ref = true ∨ anyMx s (fun a => a matches .pref _ _) = true)) →
     poundUsed s + units ≤ 256 → statPending s = false → areaOf (am = 0) (readA s .mxe am) = some g →
     drainTraps s zd (grad = 1) r r2 (readA s .mxe aa) (readA s .mxe ab) (readA s .mxe ac) (readA s .mxe am) (some g) = none →
     reachDest s r (drainSpans r f reg) = none → (grad = 1 → reachDest s r2 (drainSpans r2 .fp32 reg) = none) →
     ∃ t e, exec i s = .next t ∧ t.mx = { s.mx with pound := s.mx.pound ++ [e] } ∧ t.mem = s.mem ∧
       t.ctx.mx.mdseq = s.ctx.mx.mdseq + 1 ∧ t.ctx.mx.rchk = none ∧ t.ctx.mx.injM = none ∧ t.ctx.mx.injQ = none ∧
       e.op = s.nextId ∧ e.units = units ∧ e.formed = false ∧ e.settled = none ∧
       (s.mx.pound = [] → e.off = 0) ∧ (∀ l, s.mx.pound.getLast? = some l → e.off = (l.off + l.units) % 256) ∧
       e.d.tile = zd ∧ e.d.area = g ∧ e.d.clr = decide (clr = 1) ∧ e.d.grad = decide (grad = 1) ∧ Rec.of e.d.bfr = r ∧
       e.d.dseq = s.ctx.mx.mdseq ∧ e.d.mode = s.mx.mode ∧ e.d.sow = s.mx.mill.sow ∧ e.d.sowQ = s.mx.quern.sow ∧
       ∃ o ∈ t.ops, o.id = s.nextId ∧ o.eng = .mxe ∧ o.kind = .mx (.drain zd (clr = 1) (grad = 1) false)) ∧
   (∀ (id : Nat) (op : Op) (e : PEntry) (s : State), findOp s id = some op → s.mx.pound.find? (fun x => x.op == id) = some e →
     e.formed = false → e.d.mode = .dual → s.mx.mode = .dual → e.d.injM = none → e.d.injQ = none →
     let seed : BitVec 64 := BitVec.ofNat 64
       (e.d.dseq.toNat * 2 ^ 32 + ((s.coreNo.toNat * 4 + e.d.tile.toNat) * 65536 + e.d.area.rows * 256 + e.d.area.cols))
     e.d.area.rows ≤ 128 → e.d.area.cols ≤ 128 →
     ∃ t e', exec (.tileSignatureFormed id) s = .next t ∧ t.mx.pound.find? (fun x => x.op == id) = some e' ∧
       t.mx.pound.map (·.op) = s.mx.pound.map (·.op) ∧ e'.formed = true ∧
       e'.mill = (canonical e.d e.d.sow (s.mx.mill.tile e.d.tile) s.mx.mill.map).1 ∧
       e'.quern = (canonical e.d e.d.sowQ (s.mx.quern.tile e.d.tile) s.mx.quern.map).1 ∧
       e'.sigM = tsd64 seed e'.mill ∧ e'.sigQ = tsd64 seed e'.quern ∧
       e'.d.ref = (if e.d.grad then s.ctx.mx.refDesc else none) ∧
       (∀ o ∈ s.ops, ∀ ad ab m q, o.id ≠ id → o.kind = .mx (.sigr ad ab (some id) m q) →
         ∃ o' ∈ t.ops, o'.id = o.id ∧ o'.kind = .mx (.sigr ad ab none e'.sigM e'.sigQ)) ∧
       (∀ m n, (t.mx.mill.tile e.d.tile).get m n =
         if e.d.clr = true ∧ e.d.area.has m n = true then AccElem.zero else (s.mx.mill.tile e.d.tile).get m n) ∧
       (∀ z, z ≠ e.d.tile → t.mx.mill.tile z = s.mx.mill.tile z) ∧ t.mem = s.mem) ∧
   ∀ (seed : BitVec 64) (l : List (BitVec 64)),
     let b := l.flatMap fun w => leBytes 8 w.toNat
     tsd128 seed b = (seed + l.sum, (l.zipIdx.map fun w => BitVec.ofNat 64 (w.2 + 1) * w.1).sum) ∧
     tsd64 seed b = (tsd128 seed b).1 ^^^ (tsd128 seed b).2) ∧
  (∀ (e : PEntry) (r : List PEntry) (o : Op) (s u : State), s.mx.pound = e :: r →
     (poundDue s = false → exec .poundCommit s = .next s) ∧
     (poundDue s = true → findOp s e.op = some o → o.aborted = [] →
       walkPages s e.d.part (e.dests.flatMap fun x => spanPages x.1 x.2) = (u, none) → e.settled = none →
       (∀ p ∈ (e.keys u).filterMap (remotePkg u), silentPkg u p = true ∨ routeUp u p = true) →
       let w := commitWrites u e
       ∃ t, exec .poundCommit s = .next t ∧ t.mx.pound = r ∧ findOp t e.op = none ∧
         t.ctx.mx.csig = tsd64 (drainSeed u e.d) (if u.mx.works = .quern then e.quern else e.mill) ∧
         t.ctx.mx.cseed = drainSeed u e.d ∧ t.mem = w.1.mem ∧ t.l1 = w.1.l1 ∧ t.qc = w.1.qc ∧ t.full = w.1.full ∧
         t.mx.mill = s.mx.mill ∧ t.mx.quern = s.mx.quern ∧
         (w.2 = none → t.ctx.stop = s.ctx.stop ∧ t.ctx.status = s.ctx.status)))

/-- R280 and R284 to R288, R268: mpert, mpoff and mpstep write the Sower registers of both paths in one step; mpsamp reads the
sample of its index; mpref and mcb start their loads; when the codebook of mcb lands, the copies of both engines hold its
entries. R32 and R252: a stamped instruction before its cycle waits at the MXE with its stamp captured; in its cycle it
issues, or faults SCHEDULE_MISS where a hold or a resource would keep it; after it, it faults SCHEDULE_MISS with the stamp.
What waits is executed by `stampedIssue`: in its cycle, with no hold in its way, each stamped form issues. -/
def Obligations.SowerAndStamps : Prop :=
  ((∀ (h : Hdr) (q hh ib n256 : BitVec 1) (imm : BitVec 16) (fe cbn : BitVec 2) (tr : BitVec 1) (bf : BitVec 4)
     (ad aa ab ac : BitVec 5) (s : State),
     let go (t : State) : Host.Outcome State Fault Refusal := .next (pairPassed s t .mxe h)
     let low (n : BitVec 5) : BitVec 32 := BitVec.ofNat 32 (uintA s .mxe n)
     let both (f : Sow → Sow) : State := { s with mx := { s.mx with
       mill := { s.mx.mill with sow := f s.mx.mill.sow }, quern := { s.mx.quern with sow := f s.mx.quern.sow } } }
     let o := memOp s bf aa ab ac (tr = 1) 0 0
     let g := o.planeRegion 128
     let d : CbDesc := ⟨readBf s .mxe bf, readA s .mxe aa, n256 = 1⟩
     let r := Rec.of d.bfr
     let c : Region2 := ⟨sintA s .mxe aa, 0, 0, if n256 = 1 then 256 else 16, 1⟩
     (MatrixReady s (.mpert h aa ab ac) h [ra aa, ra ab, ra ac] →
       exec (.mpert h aa ab ac) s = go (both fun _ => ⟨low aa, low ab, low ac, true⟩)) ∧
     (MatrixReady s (.mpoff h) h [] → exec (.mpoff h) s = go (both fun w => { w with en := false })) ∧
     (MatrixReady s (.mpstep h ib imm) h [] → exec (.mpstep h ib imm) s = go (both fun w =>
       if ib = 1 then { w with ibase := BitVec.ofInt 32 (w.ibase.toNat + imm.toInt) }
       else { w with stream := BitVec.ofInt 32 (w.stream.toNat + imm.toInt) })) ∧
     (MatrixReady s (.mpsamp h q hh ad aa) h [ra aa] → s.mx.mode = .dual →
       let w := (if q = 1 then s.mx.quern else s.mx.mill).sow
       let x := low aa + w.ibase
       exec (.mpsamp h q hh ad aa) s = go (addMx s 8 false [.a ad.toNat
         (if hh = 1 then BitVec.ofNat 64 (sowMix w.seed w.stream x).toNat else BitVec.ofInt 64 (sowN w.seed w.stream x))] .plain)) ∧
     (MatrixReady s (.mpref h fe tr bf aa ab ac) h [ra aa, ra ab, ra ac] → prefWait s = false → slotWait s o.rcd = none →
       o.fieldTrap fe (· == .mld16) = none → worst (g.check s .mxe o.rcd .mld16 .read) = none →
       granuleWait s .mxe (feGranules s fe o.rcd (g.spans o.rcd .mld16)) true = none →
       ∃ t, exec (.mpref h fe tr bf aa ab ac) s = .next t ∧ t.ctx.mx = { s.ctx.mx with ref := false } ∧ t.mx = s.mx ∧
         ∃ p ∈ t.ops, p.id = s.nextId ∧ p.eng = .mxe ∧ p.ws = [] ∧
           p.kind = .mx (.pref ⟨o, s.mx.mill.sow, s.mx.quern.sow, (s.eng .mxe).pc, none⟩ fe)) ∧
     (MatrixReady s (.mcb h fe cbn n256 bf aa) h [ra aa] → slotWait s r = none → r.fieldTrap (fe ≠ 0) (· == .e4m3) = none →
       worst (c.check s .mxe r .e4m3 .read) = none → granuleWait s .mxe (feGranules s fe r (c.spans r .e4m3)) true = none →
       exec (.mcb h fe cbn n256 bf aa) s = go (addMxOn (fetchIssue s fe r (c.spans r .e4m3)) 8 false (.cb cbn d fe)
         (spanHandles s r (c.spans r .e4m3))))) ∧
   ∀ (id : Nat) (op : Op) (n : BitVec 2) (d : CbDesc) (fe : BitVec 2) (s u : State) (bad : Option (Code × BitVec 64)),
     findOp s id = some op → op.strand = s.ctx.strand → op.kind = .mx (.cb n d fe) →
     readySpans s (Rec.of d.bfr) false (d.region.spans (Rec.of d.bfr) .e4m3) op.aborted = .go u bad →
     let len := if d.n256 then 256 else 16
     ∃ t, exec (.registerResultLanding id) s = .next t ∧ findOp t id = none ∧
       (∀ j, j < len → let e := ((cbEntries u d).getD j (0, false)).1
         (t.ctx.mx.cb[n.toNat]).getD j 0 = e ∧ (t.ctx.vec.cb[n.toNat]).getD j 0 = e) ∧
       (∀ j, len ≤ j → (t.ctx.mx.cb[n.toNat]).getD j 0 = (s.ctx.mx.cb[n.toNat]).getD j 0 ∧
         (t.ctx.vec.cb[n.toNat]).getD j 0 = (s.ctx.vec.cb[n.toNat]).getD j 0) ∧
       ∀ m : Fin 4, m.val ≠ n.toNat → t.ctx.mx.cb[m] = s.ctx.mx.cb[m] ∧ t.ctx.vec.cb[m] = s.ctx.vec.cb[m]) ∧
  ((∀ (h : Hdr) (s : State), encodingOk (.mflip h 1) false = true → s.mx.mode ≠ .offline → flipPending s = false →
     (runPath s).shadow.st ≠ .empty → (s.mx.parked = none → regBusy s .mxe (.a 31) = false) →
     let stamp := s.mx.parked.getD (readA s .mxe 31)
     let free : State := { s with mx := { s.mx with parked := none } }
     let late : Host.Outcome State Fault Refusal := .next (raise free .mxe { code := .scheduleMiss, op1 := stamp })
     (s.bell.toNat < stamp.toNat → exec (.mflip h 1) s =
       .next (stall { s with mx := { s.mx with parked := some stamp } } .mxe .other)) ∧
     (stamp.toNat < s.bell.toNat → exec (.mflip h 1) s = late) ∧
     (stamp = s.bell →
       let held := (popWait s .mxe h).isSome ∨ (runPath s).shadow.st ≠ .full ∨ statPending s = true ∨ stallHeld s .mxe = true ∨
         (privateHeld s .mxe).isSome
       (held → exec (.mflip h 1) s = late) ∧
       (¬held → ∃ n, exec (.mflip h 1) s = .next (pairPassed free (addOp free .mxe n [] false {} (.mx .flip)) .mxe h)))) ∧
   ∀ (s : State) (w v : Word32) (i : Instr), fetchWord s .mxe (s.eng .mxe).pc = some w →
     fetchWord s .mxe ((s.eng .mxe).pc + 4) = some v → decode w v = some i →
     (stamped (some i) = true → exec .stampedIssue s = exec i s) ∧
     ∀ (h : Hdr) (fe : BitVec 2) (tr acc clr grad : BitVec 1) (pfmt rm : BitVec 3) (cb zd : BitVec 2) (bf : BitVec 4)
       (aa ab ac am : BitVec 5) (m1 : BitVec 7) (g : Area),
       let free : State := { s with mx := { s.mx with parked := none } }
       let passes (k : MxAct → Prop) : Prop := ∃ t, exec .stampedIssue s = .next t ∧ t.mx.parked = none ∧
         (t.eng .mxe).walk = (s.eng .mxe).walk + 2 ∧ ∃ o ∈ t.ops, o.id = s.nextId ∧ o.eng = .mxe ∧ ∃ a, o.kind = .mx a ∧ k a
       let l := memOp s bf aa ab ac (tr = 1) pfmt cb
       let lr := l.planeRegion (classK l.dbl)
       let x := memOp s bf aa ab ac false pfmt cb
       let m := m1.toNat + 1
       let row0 := if am = 0 then 0 else uintA s .mxe am
       let plane := (runPath s).active
       let xr : Region2 := ⟨x.ab.toInt, x.aa.toInt, x.ac.toInt, classK plane.dbl, m⟩
       let r := recOf s .mxe bf
       let r2 := recOf s .mxe (bf + 1)
       let dr : Region2 := ⟨sintA s .mxe ab, sintA s .mxe aa, sintA s .mxe ac, g.cols, g.rows⟩
       flipPending s = false → statPending s = false →
       (i = .mflip h 1 → StampReady s i h [] → (runPath s).shadow.st = .full →
         ∃ n, exec .stampedIssue s = .next (pairPassed free (addOp free .mxe n [] false {} (.mx .flip)) .mxe h)) ∧
       (i = .mload h 1 fe tr pfmt cb bf aa ab ac → StampReady s i h [ra aa, ra ab, ra ac] → l.rcd.space ≠ 0 →
         loadPending s = false → l.fieldTrap fe loadFmt = none → worst (lr.check s .mxe l.rcd l.fmt .read) = none →
         granuleWait s .mxe (feGranules s fe l.rcd (lr.spans l.rcd l.fmt)) true = none →
         passes fun a => ∃ d, a = .load d fe ∧ d.op = l) ∧
       (i = .mstream h 1 fe acc zd pfmt cb bf aa ab ac am m1 → StampReady s i h [ra aa, ra ab, ra ac, ra am] →
         x.rcd.space ≠ 0 → plane.st = .full → s.mx.streamFree ≤ s.cycle →
         x.fieldTrap fe (if plane.dbl then doubleFmt else wideFmt) = none → worst (xr.check s .mxe x.rcd x.fmt .read) = none →
         tileOk s zd = true → row0 + m ≤ 128 → granuleWait s .mxe (feGranules s fe x.rcd (xr.spans x.rcd x.fmt)) true = none →
         passes fun a => ∃ d pm pq n, a = .stream zd d fe pm pq n ∧ d.op = x ∧ d.row0 = row0 ∧ d.m = m) ∧
       (i = .mdrain h 1 clr grad zd rm bf aa ab ac am → StampReady s i h [ra aa, ra ab, ra ac, ra am] → r.space ≠ 0 →
         (grad = 1 → r2.space ≠ 0 ∧ bf ≠ 15 ∧ (s.ctx.mx.ref = true ∨ anyMx s (fun a => a matches .pref _ _) = true)) →
         areaOf (am = 0) (readA s .mxe am) = some g →
         poundUsed s + entryUnits (canonLength (r.format.getD .fp32) (grad = 1) g) ≤ 256 →
         drainTraps s zd (grad = 1) r r2 (readA s .mxe aa) (readA s .mxe ab) (readA s .mxe ac) (readA s .mxe am) (some g) = none →
         reachDest s r (drainSpans r (r.format.getD .fp32) dr) = none →
         (grad = 1 → reachDest s r2 (drainSpans r2 .fp32 dr) = none) →
         passes fun a => a = .drain zd (clr = 1) (grad = 1) false))

/-- R351 to R354 with Table 9.5: rstat reads its register when it lands; rchk, rmode and rinj write their state where the
policy permits them and are illegal where it does not; a write of REEVE.MODE is clamped to the policy's limits. R330, R336 to
R340 and R344: the Reeve serves the first entry that is a request, by its kind, and records it in REEVE.LAST with both
signatures. A resolved entry keeps its place with the bytes settled; an unresolved one is discarded with its operation, and
the strand's record says so. The bytes settled for a unit are those that the Reeve computed, when they equal a path's; an error of
the Reeve's own storage ends the request with REASON 5 (what raises that error is left open: assumption 80). -/
def Obligations.Reeve : Prop :=
  (∀ (h : Hdr) (sel : BitVec 4) (q : BitVec 1) (ad aa ab : BitVec 5) (v : BitVec 64) (s : State),
     let go (t : State) : Host.Outcome State Fault Refusal := .next (pairPassed s t .mxe h)
     let put (m : MxCtx) : State := { s with ctx := { s.ctx with mx := m } }
     let illegal : Host.Outcome State Fault Refusal := .next (raise s .mxe { code := .illegalOp })
     let x := readA s .mxe aa
     let clampTo (lo hi n : Nat) : Nat := if n < lo then lo else if hi < n then hi else n
     let mode (v : BitVec 64) : MxCtx := { s.ctx.mx with
       slog2 := BitVec.ofNat 4 (clampTo s.mx.slmin.toNat s.mx.slmax.toNat (v.toNat % 16))
       units := BitVec.ofNat 8 (clampTo 1 s.mx.umax.toNat (v.toNat / 65536 % 256)) }
     (encodingOk (.rstat h sel ad) false = true → Issues s .mxe h [] →
       exec (.rstat h sel ad) s = go (addMx s 1 true [.a ad.toNat 0] (.rstat sel ad))) ∧
     (MatrixReady s (.rchk h aa) h [ra aa] →
       (s.mx.forceok = false → exec (.rchk h aa) s = illegal) ∧
       (s.mx.forceok = true → aa = 0 → exec (.rchk h aa) s = go (put { s.ctx.mx with rchk := some none })) ∧
       (s.mx.forceok = true → aa ≠ 0 → (∀ g, areaOf false x = some g →
           exec (.rchk h aa) s = go (put { s.ctx.mx with rchk := some (some g) })) ∧
         (areaOf false x = none → exec (.rchk h aa) s = .next (raise s .mxe { code := .bounds, op0 := x })))) ∧
     (MatrixReady s (.rmode h aa) h [ra aa] → statPending s = false →
       (s.mx.modeok = false → exec (.rmode h aa) s = illegal) ∧
       (s.mx.modeok = true → exec (.rmode h aa) s = go (put (mode x)))) ∧
     (MatrixReady s (.rinj h q aa ab) h [ra aa, ra ab] →
       let inj := some (x, BitVec.ofNat 8 (uintA s .mxe ab))
       (s.mx.injok = false → exec (.rinj h q aa ab) s = illegal) ∧
       (s.mx.injok = true → exec (.rinj h q aa ab) s =
         go (put (if q = 1 then { s.ctx.mx with injQ := inj } else { s.ctx.mx with injM := inj })))) ∧
     (s.mx.modeok = true → exec (.reeveModeWrite v) s = .next (put (mode v))) ∧
     (s.mx.modeok = false → exec (.reeveModeWrite v) s = .next s)) ∧
  ((∀ (k : ReeveKind) (e : PEntry) (s : State), reeveNext s = some (e, k) →
     let ev := match k with
       | .mismatch => Instr.reeveMismatch
       | .sampled => .reeveSampledCheck
       | .forced => .reeveForcedCheck
     let u := prepSources s e.journal.steps (if e.d.grad then e.d.ref else none)
     let v := arbitrate u e k
     ∃ t, exec ev s = .next t ∧ t.ctx.mx.last.toNat / 2 ^ 60 = k.code.toNat ∧
       t.ctx.mx.lsigM = (if s.mx.works = .quern then e.sigQ else e.sigM) ∧
       t.ctx.mx.lsigQ = (if s.mx.works = .mill then e.sigM else e.sigQ) ∧ t.mx.mill = s.mx.mill ∧ t.mx.quern = s.mx.quern ∧
       (v.reason = 0 → t.mx.pound.map (·.op) = s.mx.pound.map (·.op) ∧ t.mx.mode = s.mx.mode ∧
         ∃ e' ∈ t.mx.pound, ∃ x, e'.op = e.op ∧ e'.settled = some x ∧ x.bytes = v.bytes ∧ x.mill = v.mill ∧ x.quern = v.quern) ∧
       (v.reason ≠ 0 → t.mx.pound = s.mx.pound.filter (fun x => x.op != e.op) ∧ findOp t e.op = none ∧
         (s.ctx.stop = none → s.ctx.status = .running → t.ctx.status = .stopped ∧
           ∃ x, t.ctx.stop = some x ∧ x.info.code = .reeveUnresolved ∧ x.info.tag = 2 ∧ x.info.async = true))) ∧
   (∀ (k : ReeveKind) (s : State), (∀ e, reeveNext s ≠ some (e, k)) →
     exec (match k with
       | .mismatch => .reeveMismatch
       | .sampled => .reeveSampledCheck
       | .forced => .reeveForcedCheck) s = .next s) ∧
   ∀ (s : State) (e : PEntry) (k : ReeveKind) (w : Nat) (r : List Byte),
     let m := e.d.unitBytes e.mill w
     let q := e.d.unitBytes e.quern w
     let v := arbitrate s e k
     (s.mx.rvErr = some 0 → v.reason = 5) ∧
     (s.mx.rvErr ≠ some 0 → requestUnits s e k = [w] → e.journal.jovf = false → reeveUnit s e w = some r →
     (r = m ∨ r = q → v.reason = 0 ∧ v.bytes = putRanges e.mill (e.d.unitRanges w) r ∧ (v.mill = true ↔ r ≠ m) ∧
       (v.quern = true ↔ r ≠ q)) ∧
     (r ≠ m → r ≠ q → v.reason = if e.d.mode = .dual then 1 else 4)))

/-! ### Block transfer (chapter 8) -/

/-- R292, R293, R319, R310 and R321 to R323: each copy-class instruction, with a free place, no copy to wait for and its
checks passed, captures its operands with the next ISEQ and starts; it completes within its bound (Table 8.19). Nothing moves
before. R324 to R326 and R307: bwait passes when its counter has reached the target or the ring holds enough records, bacnt
reads a counter with its FAULT, bsync waits for the strand's copies, and a write of HEAD is taken or refused. -/
def Obligations.TransferForms : Prop :=
  (∀ (h : Hdr) (ac : BitVec 4) (cr : BitVec 1) (fe : BitVec 2) (bfd bfs : BitVec 4) (ad src an ag : BitVec 5) (s : State),
     let reg (n : BitVec 5) : BitVec 64 := readA s .bte n
     let shape (b : BitVec 4) : BitVec 64 := if an = 0 then shapeOf (recOf s .bte b) else reg an
     let desc (form : CopyForm) (fe : BitVec 2) (n g q : BitVec 64) : CopyDesc :=
       { form := form, ac := ac, cr := decide (cr = 1), fe := fe, iseq := s.ctx.bte.iseq, rd := readBf s .bte bfd,
         rs := readBf s .bte bfs, d := reg ad, s := reg src, n := n, sig := g, seed := q, regs := s.ctx.bte, tries := 0,
         ringSince := none }
     let starts (i : Instr) (srcs : List Reg) (c : CopyDesc) : Prop :=
       TransferReady s i h srcs → copySlots s < 128 → copyWaits s c = false →
       (if c.table then tableTraps s c else copyTraps s c) = none → granuleWait s .bte (c.feGranules s) true = none →
       ∃ t, exec i s = .next t ∧ t.ctx.bte = { s.ctx.bte with iseq := s.ctx.bte.iseq + 1 } ∧ t.full = s.full ∧
         (s.BytesOk → NoAlias s → s.Fresh → SameOutside [] s t) ∧
         (∀ m, readA t .bte m = readA s .bte m) ∧
         ∃ o ∈ t.ops, o.id = s.nextId ∧ o.eng = .bte ∧ o.due = s.cycle + c.bound ∧ o.ws = [] ∧ o.kind = .copy c
     starts (.bcopy h ac cr fe bfd bfs ad src an) [ra ad, ra src, ra an] (desc .copy fe (shape bfs) 0 0) ∧
     starts (.bcopyS h ac cr fe bfd bfs ad src an ag) [ra ad, ra src, ra an, ra ag, ra (ag + 1)]
       (desc .signed fe (shape bfs) (reg ag) (reg (ag + 1))) ∧
     starts (.bfill h ac cr bfd ad src an) [ra ad, ra src, ra an]
       { desc .fill 0 (shape bfd) 0 0 with rs := readBf s .bte bfd } ∧
     starts (.bdedup h ac cr bfd bfs ad src) [ra ad, ra src] (desc .dedup 0 0 0 0) ∧
     starts (.bcow h ac cr bfd bfs ad src an) [ra ad, ra src, ra an] (desc .cow 0 (reg an) 0 0) ∧
     starts (.bcmp h ac cr bfd bfs ad src) [ra ad, ra src] (desc .cmp 0 0 0 0)) ∧
  (∀ (h : Hdr) (ac : BitVec 4) (aa ad : BitVec 5) (imm : BitVec 16) (v : BitVec 64) (s : State),
     let b := s.ctx.bte
     let n := uintA s .bte aa + imm.toNat
     let count := b.arrive[ac.toNat]
     let used := (b.tail - b.head).toNat
     let go (t : State) : Host.Outcome State Fault Refusal := .next (pairPassed s t .bte h)
     (TransferReady s (.bwait h ac 0 aa imm) h [ra aa] →
       ((count.1 - BitVec.ofNat 15 n).toNat < 2 ^ 14 → exec (.bwait h ac 0 aa imm) s = go s) ∧
       (2 ^ 14 ≤ (count.1 - BitVec.ofNat 15 n).toNat → exec (.bwait h ac 0 aa imm) s = .next (stall s .bte (.arrival ac.toNat)))) ∧
     (TransferReady s (.bwait h ac 1 aa imm) h [ra aa] →
       (n ≤ used → exec (.bwait h ac 1 aa imm) s = go s) ∧
       (used < n → exec (.bwait h ac 1 aa imm) s = .next (stall s .bte .ring))) ∧
     (TransferReady s (.bacnt h ac ad) h [] → exec (.bacnt h ac ad) s = go (addVarOp s .bte [.a ad.toNat
       (BitVec.ofNat 64 (count.1.toNat + if count.2 then 2 ^ 15 else 0))] .result)) ∧
     (TransferReady s (.bsync h) h [] →
       ((∀ o ∈ s.ops, ∀ c, o.kind = .copy c → o.strand ≠ s.ctx.strand) → exec (.bsync h) s = go s) ∧
       (∀ o ∈ s.ops, ∀ c, o.kind = .copy c → o.strand = s.ctx.strand → exec (.bsync h) s = .next (stall s .bte .other))) ∧
     exec (.cringHeadWrite v) s = .next { s with ctx := { s.ctx with bte :=
       if (b.tail - BitVec.ofNat 16 v.toNat).toNat ≤ 2 ^ b.ringLog2.toNat then { b with head := BitVec.ofNat 16 v.toNat }
       else { b with herr := true } } })

/-- R297, R301, R302 and R307: a copy or fill of one row of bytes in the scratchpad that meets no error writes each byte of
its region and no other, raises its arrival counter and is gone; a full ring holds the completion whole. R302, R306 and Table
8.3: what the end of any copy does to its counter; Table 8.2: the first word of its record. -/
def Obligations.CopyCompletes : Prop :=
  (∀ (id n a b : Nat) (op : Op) (c : CopyDesc) (s : State), findOp s id = some op → op.kind = .copy c →
    op.strand = s.ctx.strand → s.MemOk →
    (ringFull s c = true → ∃ t, exec (.copyCompletion id) s = .next t ∧ t.mem = s.mem ∧ t.ctx.bte = s.ctx.bte ∧
      t.full = s.full ∧ (findOp t id).isSome) ∧
    ((c.form = .copy ∨ c.form = .fill) → c.cr = false → c.fe = 0 → c.dst.space = 1 → c.dst.format = some .uint8 →
      (c.form = .copy → c.src.space = 1 ∧ c.src.format = some .uint8) → coords c.n = (n, 1, 1) →
      let inside (r : Rec) (o : Nat × Nat × Nat) (x : Nat) : Prop :=
        o.1 + n ≤ r.ext0 ∧ o.2.1 < r.ext1 ∧ o.2.2 < r.ext2 ∧ r.rowAt o.2.1 o.2.2 + o.1 = x ∧ x + n ≤ 0x300000
      inside c.dst (coords c.d) a → (c.form = .copy → inside c.src (coords c.s) b ∧ (a + n ≤ b ∨ b + n ≤ a)) →
      firstFail s c op.aborted c.items = none → armedItem s c c.items = none →
      let key (x : Nat) : Nat := scratchKey s.coreNo.toNat x
      ∃ t, exec (.copyCompletion id) s = .next t ∧ findOp t id = none ∧
        t.ctx.bte.arrive[c.ac.toNat] = (s.ctx.bte.arrive[c.ac.toNat].1 + 1, s.ctx.bte.arrive[c.ac.toNat].2) ∧
        (∀ j, j < n → memGet t.mem (key (a + j)) =
          if c.form = .fill then BitVec.ofNat 8 c.s.toNat else memGet s.mem (key (b + j))) ∧
        ∀ k, (∀ j, j < n → k ≠ key (a + j)) → memGet t.mem k = memGet s.mem k)) ∧
  ∀ (s : State) (op : Op) (c : CopyDesc) (e : CopyEnd),
    let t := endCopy s op c e
    let count := s.ctx.bte.arrive[c.ac.toNat]
    findOp t op.id = none ∧
    (op.strand = s.ctx.strand → t.ctx.bte.arrive[c.ac.toNat] = (count.1 + 1, count.2 || decide (e.status ∉ [0, 1, 4]))) ∧
    (∀ k : Fin 16, k.val ≠ c.ac.toNat → t.ctx.bte.arrive[k] = s.ctx.bte.arrive[k]) ∧
    (c.posts = false → t.ctx.bte.tail = s.ctx.bte.tail ∧ (c.dst.space ≠ 2 ∨ e.full = [] → t.mem = s.mem)) ∧
    (c.posts = true → t.ctx.bte.tail = s.ctx.bte.tail + 1) ∧
    (e.status < 256 → e.code < 256 → e.outcome < 4 →
      let b := completionRecord s c e
      b.length = 32 ∧ leValue (b.take 8) = e.status + e.code * 2 ^ 8 + c.ac.toNat * 2 ^ 16 + e.outcome * 2 ^ 20 +
        c.form.opc * 2 ^ 24 + c.iseq.toNat * 2 ^ 32 + s.ctx.bte.tail.toNat * 2 ^ 48)

/-! ### The Thresher (chapter 10) and the bank operations (chapter 11) -/

/-- R366 and R368 to R373: each region transform, with none in flight and its checks passed, captures its operands and starts;
it completes within its bound (Table 10.6), and one that rounds stochastically advances IBASE by its elements (R363). Nothing
moves before. R366, R367 and R373: a transform whose sources are sound completes in one step: it is gone, its flags and counts have
landed (R361, R364), and the granules of an .fe form are empty. A transposition of bytes within the scratchpad moves element (j0, j1) to
(j1, j0) of the destination and writes no other byte. A transform with a failing source stops the strand with that failure. -/
def Obligations.Transforms : Prop :=
  (∀ (h : Hdr) (rm : BitVec 3) (fe bs : BitVec 2) (sf : BitVec 1) (aux bfd bfs : BitVec 4) (ad src an ax : BitVec 5) (s : State),
     let reg (n : BitVec 5) : BitVec 64 := readA s .thr n
     let desc (form : TrForm) (rm : BitVec 3) (x : BitVec 4) (ax : BitVec 64) : TrDesc :=
       { form := form, rm := rm, fe := fe, sf := decide (sf = 1), rd := readBf s .thr bfd, rs := readBf s .thr bfs,
         rx := readBf s .thr x, d := reg ad, s := reg src, n := if an = 0 then shapeOf (recOf s .thr bfs) else reg an, ax := ax,
         seed := s.ctx.thr.seed, stream := s.ctx.thr.stream, ibase := s.ctx.thr.ibase }
     let starts (i : Instr) (srcs : List Reg) (field : BitVec 4) (t : TrDesc) : Prop :=
       ThresherReady s i h srcs → transformBusy s = false → t.traps s field = none →
       granuleWait s .thr (if fe = 0 then [] else spanGranules s t.src t.srcSpans) true = none →
       ∃ u, exec i s = .next u ∧ u.mem = s.mem ∧ u.full = s.full ∧ (∀ m, readA u .thr m = readA s .thr m) ∧
         u.ctx.thr = { s.ctx.thr with
           ibase := if t.rm = 4 then s.ctx.thr.ibase + BitVec.ofNat 32 t.total else s.ctx.thr.ibase } ∧
         ∃ o ∈ u.ops, o.id = s.nextId ∧ o.eng = .thr ∧ o.due = s.cycle + t.bound ∧ o.ws = [] ∧ o.kind = .transform t
     starts (.tcvt h rm fe sf aux bfd bfs ad src an) [ra ad, ra src, ra an] aux (desc .cvt rm aux 0) ∧
     starts (.tcvti h fe sf aux bfd bfs ad src an ax) [ra ad, ra src, ra an, ra ax] (if ax = 0 then 0 else 1)
       (desc .cvti 0 aux (reg ax)) ∧
     starts (.tamax h fe sf bs bfd bfs ad src an) [ra ad, ra src, ra an] 0 (desc (.amax bs) 0 0 0) ∧
     starts (.tsqze h fe sf bfd bfs ad src an) [ra ad, ra src, ra an] 0 (desc .sqze 0 0 0) ∧
     starts (.tsqzd h fe sf bfd bfs ad src an) [ra ad, ra src, ra an] 0 (desc .sqzd 0 0 0) ∧
     starts (.ttr h fe sf bfd bfs ad src an) [ra ad, ra src, ra an] 0 (desc .tr 0 0 0)) ∧
  (∀ (s : State) (op : Op) (t : TrDesc), s.ops.find? (fun o => o.kind matches .transform _) = some op → op.kind = .transform t →
     let fails := firstOf ((t.unitList s).map (·.fail))
     (fails = none → ∃ u, exec .transformCompletion s = .next u ∧ findOp u op.id = none ∧
       u.ctx.thr.ibase = s.ctx.thr.ibase ∧ u.ctx.stop = s.ctx.stop ∧
       (let x := Fx.joinAll ((t.unitList s).map (·.fx))
        let f := u.ctx.thr.flags
        let g := s.ctx.thr.flags
        [f.of, f.uf, f.nx, f.sat, f.nan, f.satq, f.undq] =
          [g.of || x.of, g.uf || x.uf, g.nx || x.nx, g.sat || x.sat, g.nan || x.nan, g.satq || x.satq, g.undq || x.undq] ∧
        f.nv = false ∧ f.dz = false ∧
        u.ctx.thr.satcnt.toNat = min (s.ctx.thr.satcnt.toNat + x.nsat) (2 ^ 32 - 1) ∧
        u.ctx.thr.undcnt.toNat = min (s.ctx.thr.undcnt.toNat + x.nund) (2 ^ 32 - 1)) ∧
       (t.fe = 2 → ∀ g ∈ spanGranules s t.src t.srcSpans, granuleFull u g = false) ∧
       (∀ n0 n1, t.form = .tr → t.dst.space = 1 → t.src.space = 1 → t.dst.format = some .uint8 → t.src.format = some .uint8 →
         coords t.n = (n0, n1, 1) → s.MemOk → s.poison = [] → s.armed = [] →
         let od := coords t.d
         let os := coords t.s
         let dst (j0 j1 : Nat) : Int := t.dst.rowAt ((od.2.1 + j0 : Nat) : Int) od.2.2 + ((od.1 + j1 : Nat) : Int)
         let src (j0 j1 : Nat) : Int := t.src.rowAt ((os.2.1 + j1 : Nat) : Int) os.2.2 + ((os.1 + j0 : Nat) : Int)
         let key (x : Int) : Nat := scratchKey s.coreNo.toNat x.toNat
         (∀ j0 j1, j0 < n0 → j1 < n1 → 0 ≤ dst j0 j1 ∧ 0 ≤ src j0 j1 ∧
           t.dst.inside ((od.1 + j1 : Nat) : Int) ((od.2.1 + j0 : Nat) : Int) od.2.2 = true ∧
           t.src.inside ((os.1 + j0 : Nat) : Int) ((os.2.1 + j1 : Nat) : Int) os.2.2 = true) →
         (∀ j0 j1 k0 k1, j0 < n0 → j1 < n1 → k0 < n0 → k1 < n1 → dst j0 j1 = dst k0 k1 → j0 = k0 ∧ j1 = k1) →
         (∀ j0 j1, j0 < n0 → j1 < n1 → memGet u.mem (key (dst j0 j1)) = memGet s.mem (key (src j0 j1))) ∧
         ∀ k, (∀ j0 j1, j0 < n0 → j1 < n1 → k ≠ key (dst j0 j1)) → memGet u.mem k = memGet s.mem k)) ∧
     (∀ p code op0, fails = some (p, code, op0) → s.ctx.stop = none → s.ctx.status = .running →
       ∃ u st, exec .transformCompletion s = .next u ∧ findOp u op.id = none ∧ u.ctx.status = .stopped ∧ u.ctx.stop = some st ∧
         st.info.code = code ∧ st.info.op0 = op0 ∧ st.info.async = true ∧ st.info.tag = 4))

/-- R374 to R377 and Table 10.1: the Thresher's loads and stores of its scratchpad, its registers, tsync and its barriers of
scope 0; what its registers read after a write. R359 calls the results of trd and tld variable-latency; that trd's is due at one
fixed cycle is assumption 42. -/
def Obligations.ThresherForms : Prop :=
  ∀ (h : Hdr) (ad src aa : BitVec 5) (bf bid : BitVec 4) (imm : BitVec 18) (reg : BitVec 12) (s u : State),
    let go (t : State) : Host.Outcome State Fault Refusal := .next (pairPassed s t .thr h)
    let r := recOf s .thr bf
    let place (acc : Acc) : SAcc := scalarPlace s .thr r (sintA s .thr aa + imm.toInt) 8 acc false false
    let n := netIdx 0 bid
    let ended (w : State) : Prop := ∀ ep, (getNet w n).thr = some ep →
      ep < (getNet w n).episode ∧ ∀ q, (ep, q) ∉ (getNet w n).abandoned
    let arrived (u : State) : State := setNet u n ((getNet u n).arrive .thr (readA s .thr aa))
    let begun (u : State) : State := u.setEng .thr { (u.eng .thr) with begun := true }
    (transformBusy s = false →
      (ThresherReady s (.tld h ad bf aa imm) h [ra aa] → r.isScratch = true → ∀ a p, place .read = .ok a p →
        ∃ t, exec (.tld h ad bf aa imm) s = .next t ∧ (∀ m, readA t .thr m = readA s .thr m) ∧ t.mem = s.mem ∧
          ∃ o ∈ t.ops, o.id = s.nextId ∧ o.eng = .thr ∧
            o.ws = (if ad = 0 then [] else [.a ad.toNat (BitVec.ofNat 64 (leValue (readPlace s 0 p)))])) ∧
      (ThresherReady s (.tst h src bf aa imm) h [ra src, ra aa] → r.isScratch = true → ∀ a p, place .write = .ok a p →
        exec (.tst h src bf aa imm) s = go (writePlace s r.cache p (leBytes 8 (readA s .thr src).toNat))) ∧
      (ThresherReady s (.trd h reg ad) h [] → exec (.trd h reg ad) s = go
        (addOp s .thr 1 (if ad = 0 then [] else [.a ad.toNat (thrReg s reg.toNat)]) false {} .result)) ∧
      (ThresherReady s (.twr h reg aa) h [ra aa] →
        exec (.twr h reg aa) s = go (putThrReg s reg.toNat (readA s .thr aa))) ∧
      (ThresherReady s (.tsync h) h [] → exec (.tsync h) s = go s)) ∧
    (transformBusy s = true → ThresherReady s (.tsync h) h [] → exec (.tsync h) s = .next (stall s .thr .other)) ∧
    (∀ v : BitVec 64, thrReg (putThrReg s 0x081 v) 0x081 = v ∧ thrReg (putThrReg s 0x082 v) 0x082 = v &&& 0xFFFFFFFF#64 ∧
      thrReg (putThrReg s 0x083 v) 0x083 = v ∧ thrReg (putThrReg s 0x080 v) 0x080 = thrReg s 0x080 &&& ~~~(v &&& 0x1FC#64)) ∧
    (ThresherReady s (.tbara h bid aa) h [ra aa] → (getNet s n).pendingFor .thr = false → Released s .thr (some 0) u →
      exec (.tbara h bid aa) s = go (arrived u)) ∧
    (ThresherReady s (.tbarw h bid) h [] → ended s → exec (.tbarw h bid) s = go (cacheActions s 0)) ∧
    (ThresherReady s (.tbars h bid aa) h [ra aa] → (s.eng .thr).begun = false → (getNet s n).pendingFor .thr = false →
      Released s .thr (some 0) u → ended (arrived u) →
      exec (.tbars h bid aa) s = go (cacheActions (begun (arrived u)) 0))

/-- R386 to R388: a data operation whose checks pass makes its updates and holds a store entry until it completes. Where no
order of its elements shows and no byte is bad, each element in bounds is updated once by Table 11.4, and no other byte
changes. -/
def Obligations.BankUpdates : Prop :=
  (∀ (h : Hdr) (rm : BitVec 3) (bfd bfs : BitVec 4) (ad src an ab : BitVec 5) (s : State),
    let desc (op : BankOp) (rm : BitVec 3) (bfs : BitVec 4) (src ab : BitVec 5) : BankDesc :=
      { op := op, rm := rm, dst := recOf s .ctl bfd, src := recOf s .ctl bfs, d0 := sintA s .ctl ad, s0 := sintA s .ctl src,
        n := uintA s .ctl an, alpha := readA s .ctl ab }
    let updates (i : Instr) (srcs : List Reg) (b : BankDesc) : Prop :=
      StewardReady s i h srcs → accessNeed .ctl true true s = none → b.trap s = none →
      ∀ ds ss, reachSpans s b.dst .atomic b.dstSpans = .ok ds → reachSpans s b.src .read b.srcSpans = .ok ss →
      ∃ t, exec i s = .next t ∧ t.mem = (b.run (requestFlits s .ctl .atomic ((ds.flatten ++ ss.flatten).map (·.key)))).1.mem ∧
        (∀ m, readA t .ctl m = readA s .ctl m) ∧
        ∃ o ∈ t.ops, o.id = s.nextId ∧ o.eng = .ctl ∧ o.ws = []
    updates (.cadd h rm bfd bfs ad src an) [ra ad, ra src, ra an] (desc .add rm bfs src 0) ∧
    updates (.cmin h bfd bfs ad src an) [ra ad, ra src, ra an] (desc .min 0 bfs src 0) ∧
    updates (.cmax h bfd bfs ad src an) [ra ad, ra src, ra an] (desc .max 0 bfs src 0) ∧
    updates (.caxpy h rm bfd bfs ad src an ab) [ra ad, ra src, ra an, ra ab] (desc .axpy rm bfs src ab) ∧
    updates (.cscal h rm bfd ad an ab) [ra ad, ra an, ra ab] (desc .scal rm bfd ad ab)) ∧
  ∀ (b : BankDesc) (m : RMode) (s : State), b.ordered s = false → s.MemOk → s.poison = [] → s.armed = [] → b.dst.space = 3 →
    b.src.space ≠ 0 → bankDstFmt b.fd = true → b.dst.format.isSome = true → RMode.ofCode b.rm 0 = some m →
    let t := (b.run s).1
    let dst (j : Nat) : List Loc := bankLocs s b.dst (b.dlin j)
    let x (j : Nat) : Nat := if b.reads = true ∧ b.src.inBounds (b.slin j) = true then
      locBits s (bankLocs s b.src (b.slin j)) (b.src.codeAt (b.slin j)).2 b.src.bits else 0
    (∀ j ∈ b.live, locVal t (dst j) =
      bankUpdate b.op b.fd b.fs m (locVal s (dst j)) (x j) b.alpha % 2 ^ (8 * (dst j).length)) ∧
    (∀ k, (∀ j ∈ b.live, ∀ l ∈ dst j, k ≠ l.key) → memGet t.mem k = memGet s.mem k) ∧
    ∀ y ∈ (b.run s).2, y.2 = none

/-- R390 to R394: binit arms or disarms its object, cbar arrives and gives the token of its episode, cbwait waits for a
token's episode and gives its status; an error that strikes an armed line disarms it, and any error is counted (R492). -/
def Obligations.BarrierObjects : Prop :=
  (∀ (h : Hdr) (scope : BitVec 3) (ad aa ab : BitVec 5) (bf : BitVec 4) (s u w : State) (key : Nat) (a : BitVec 64),
    let n := uintA s .ctl ab % 2 ^ 32
    let lands (t : State) (v : BitVec 64) : Prop := ∃ o ∈ t.ops, o.id = s.nextId ∧ o.eng = .ctl ∧
      o.ws = if ad = 0 then [] else [.a ad.toNat v]
    u.MemOk → key % 64 = 0 → lineBad u key = false → accessNeed .ctl true true s = none →
    (StewardReady s (.binit h scope ad bf aa ab) h [ra aa, ra ab] → objPlace s bf aa .atomic = .ok u key a →
      let g := (readObj u key).gen + 1
      ∃ t, exec (.binit h scope ad bf aa ab) s = .next t ∧ lands t (0#16 ++ g ++ 0#32) ∧
        readObj t key = if n = 0 then ⟨false, 0, g, 0, 0, 0⟩ else ⟨true, scope, g, 0, BitVec.ofNat 32 n, 0⟩) ∧
    (StewardReady s (.cbar h ad bf aa ab) h [ra aa, ra ab] → objPlace s bf aa .atomic = .ok u key a →
      ((readObj u key).armed = false → ∃ t, exec (.cbar h ad bf aa ab) s = .next t ∧ t.mem = u.mem ∧
        lands t (BitVec.allOnes 64)) ∧
      ((readObj u key).armed = true → Released u .ctl (some (readObj u key).scope) w → w.MemOk → lineBad w key = false →
        let o := readObj w key
        let c := if n = 0 then 1 else n
        ∃ t, exec (.cbar h ad bf aa ab) s = .next t ∧ lands t (0#16 ++ o.gen ++ o.episode) ∧
          (o.target.toNat ≤ o.arrived.toNat + c → readObj t key = { o with episode := o.episode + 1, arrived := 0 }) ∧
          (o.arrived.toNat + c < o.target.toNat → readObj t key = { o with arrived := BitVec.ofNat 32 (o.arrived.toNat + c) }))) ∧
    (StewardReady s (.cbwait h ad bf aa ab) h [ra aa, ra ab] → objPlace s bf aa .read = .ok u key a → (u.eng .ctl).begun = false →
      let o := readObj u key
      let t := readA s .ctl ab
      let none' : Prop := t = BitVec.allOnes 64 ∨ o.armed = false ∨ o.gen ≠ BitVec.ofNat 16 (t.toNat / 2 ^ 32)
      let passed : Prop := o.episode ≠ BitVec.ofNat 32 t.toNat
      (none' → ∃ v, exec (.cbwait h ad bf aa ab) s = .next v ∧ lands v 1) ∧
      (¬none' → passed → ∃ v, exec (.cbwait h ad bf aa ab) s = .next v ∧ lands v 0) ∧
      (¬none' → ¬passed → exec (.cbwait h ad bf aa ab) s = .next (stall u .ctl (.object a))))) ∧
  ∀ (key : Nat) (s : State), s.MemOk →
    (armedLine s key = true → ∃ t, exec (.barrierLinePoison key) s = .next t ∧
      readObj t (key / 64 * 64) = ⟨false, 0, (readObj s (key / 64 * 64)).gen + 1, 0, 0, 0⟩) ∧
    (armedLine s key = false → ∃ t, exec (.barrierLinePoison key) s = .next t ∧ wordBase key ∈ t.poison ∧ t.mem = s.mem ∧
      ∀ i, softIndex s key = some i →
        (getAssoc t.host.soft i 0).toNat / 2 ^ 16 = min ((getAssoc s.host.soft i 0).toNat / 2 ^ 16 + 1) (2 ^ 16 - 1) ∧
        (getAssoc t.host.soft i 0).toNat % 2 ^ 16 = (getAssoc s.host.soft i 0).toNat % 2 ^ 16)

/-! ### Results, waits and the memory side (chapters 1, 4 and 11) -/

/-- R22, R23, R123 and R46 step 2: an operation that completes is gone and has its effect. A result writes its one register,
an address register only of its own strand, and its flags join the engine's; a load that brought no data writes nothing and
stops the strand; write-backs that are acknowledged are gone. Nothing else changes. -/
def Obligations.ResultsLand : Prop :=
  ∀ (id n : Nat) (op : Op) (v : BitVec 64) (x : BitVec 4096) (y : BitVec 1024) (s : State), findOp s id = some op →
    let own : Prop := op.strand = s.ctx.strand
    let regs (t : State) : Prop :=
      findOp t id = none ∧ (∀ e, e ≠ op.eng → t.eng e = s.eng e) ∧ t.mx = s.mx ∧
      (op.ws = [.a n v] → n < 32 → (own → n ≠ 0 → readA t op.eng (BitVec.ofNat 5 n) = v) ∧
        (∀ m : BitVec 5, m.toNat ≠ n ∨ ¬own → readA t op.eng m = readA s op.eng m)) ∧
      (op.ws = [.v n x] → n < 64 → readV t n = x ∧ (∀ m, m ≠ n → readV t m = readV s m) ∧
        ∀ m, readA t op.eng m = readA s op.eng m) ∧
      (op.ws = [.p n y] → n < 16 → n ≠ 0 → readP t (BitVec.ofNat 4 n) = y ∧
        ∀ m : BitVec 4, m.toNat ≠ n → readP t m = readP s m) ∧
      (op.eng = .vec → t.ctx.vec.flags.nv = (s.ctx.vec.flags.nv || op.fx.nv) ∧
        t.ctx.vec.flags.sat = (s.ctx.vec.flags.sat || op.fx.sat) ∧ t.ctx.vec.flags.nx = (s.ctx.vec.flags.nx || op.fx.nx)) ∧
      (op.eng ≠ .vec → t.ctx.vec.flags = s.ctx.vec.flags)
    (op.kind = .result → ∃ t, exec (.registerResultLanding id) s = .next t ∧ regs t ∧ SameBytes s t) ∧
    (op.kind = .sysRead → op.eng ≠ .vec → ∃ t, exec (.registerResultLanding id) s = .next t ∧ regs t ∧ SameBytes s t) ∧
    (∀ acq tag, op.kind = .load acq none tag →
      ∃ t, exec (.loadDataReturn id) s = .next t ∧ regs t ∧ (acq = none → SameBytes s t)) ∧
    (∀ acq f tag, op.kind = .load acq (some f) tag → ∃ t, exec (.loadDataReturn id) s = .next t ∧ findOp t id = none ∧
      t.ctx.eng = s.ctx.eng ∧ t.ctx.vec = s.ctx.vec ∧ SameBytes s t ∧ (s.ctx.stop = none → s.ctx.status = .running →
        ∃ st, t.ctx.status = .stopped ∧ t.ctx.stop = some st ∧ st.info.code = f.1 ∧ st.info.op0 = f.2 ∧ st.info.async = true ∧
          st.info.op1 = op.pc)) ∧
    (∀ sc, op.kind = .writeBack sc → exec (.writeBackAcknowledged id) s = .next (removeOp s id)) ∧
    (op.kind = .text → exec (.registerResultLanding id) s = .next (removeOp s id)) ∧
    (op.kind = .store none → ∃ t, exec (.registerResultLanding id) s = .next t ∧ findOp t id = none ∧ t.ctx.eng = s.ctx.eng ∧
      SameBytes s t)

/-- R16 and R17: a push is made when no operation that it waits for is outstanding and every counter has room, on all its
counters in one step; until then the event does nothing. R9: a write of the slip window is clamped. R18, R20 and Table 1.13a:
a wait of a timed kind that has outlasted its field of WAITTO stops the running strand with its timeout, the object of the
wait in OPERAND0 and the kind in OPERAND1; a field of 0 disables it, and a shorter wait goes on, as does one whose object is
there. A wait for granules that a blocked push interrupts is timed on beside the push's. -/
def Obligations.PushesAndTimeouts : Prop :=
  (∀ (e : Engine) (v : BitVec 64) (s : State),
     (∀ p, pushDue s e = some p → pushFull s e p = none → (e = .thr → p.qd = false) → ∃ t, exec (.pendingPush e) s = .next t ∧
       (t.eng e).pushes = (s.eng e).pushes.tail ∧ (∀ m, readA t e m = readA s e m) ∧ (t.eng e).pc = (s.eng e).pc ∧
       ∀ c, c < 10 → tokGet t c = tokGet s c + (if p.qu ∧ quCounter e = c then 1 else 0) +
         (if p.qd ∧ qdCounter e = c then 1 else 0) + (if c = 8 then p.ct else 0)) ∧
     (pushDue s e = none → exec (.pendingPush e) s = .next s) ∧
     (∀ p b, pushDue s e = some p → pushFull s e p = some b → exec (.pendingPush e) s = .next s) ∧
     exec (.slipwWrite v) s = .next { s with ctx := { s.ctx with
       window := BitVec.ofNat 13 (max 64 (min 4096 (v.toNat % 2 ^ 13))) } }) ∧
  (∀ (e : Engine) (w : Wait) (k : Nat) (o : BitVec 64) (s : State), w ∈ (s.eng e).waits → waitCode w.kind = some (k, o) →
     (∀ x ∈ (s.eng e).waits, x ≠ w → ∀ c, waitCode x.kind = some c → (c.1 = 1 ↔ k ≠ 1)) →
     let limit := (if k = 1 then s.ctx.tokto else s.ctx.feto).toNat
     let ev := if k = 1 then Instr.tokenTimeout e else .feTimeout e
     (limit = 0 ∨ s.cycle - w.since ≤ limit * 1024 ∨ waitOver s e w.kind = true → exec ev s = .next s) ∧
     (limit ≠ 0 → limit * 1024 < s.cycle - w.since → waitOver s e w.kind = false → s.ctx.stop = none → s.ctx.status = .running →
       ∃ t st, exec ev s = .next t ∧ t.ctx.status = .stopped ∧ t.ctx.stop = some st ∧ t.ctx.eng = s.ctx.eng ∧
         st.info.code = (if k = 1 then .tokenTimeout else .feTimeout) ∧ st.info.op0 = o ∧ st.info.async = false ∧
         st.info.op1.toNat / 2 ^ 56 = k))

/-- R51, R404 and R405: a page walk brings its leaf into the TLBs or holds the miss for the driver; a resolve lets what the
page held go on; an abort makes a fault of the access that an engine holds. -/
def Obligations.MissesAndWalks : Prop :=
  ∀ (p : BitVec 4) (vpn : BitVec 40) (s : State),
    let v := vpn.toNat
    let quiet : Prop := heldQueues s p v = [] ∧ heldDones s p v = [] ∧ s.disp.launchHeld = false ∧ s.disp.pipes = []
    ((tlbFind s p v).isSome → exec (.pageWalk p vpn) s = .next s) ∧
    (tlbFind s p v = none → (∀ l u, pageWalkOf s p v = (u, some l) → ∃ t, exec (.pageWalk p vpn) s = .next t ∧
        (∃ e, tlbFind t p v = some e ∧ e.pfn = l.pfn ∧ e.w = l.w ∧ e.ms = l.ms) ∧ (p, v) ∉ t.misses ∧
        (NoAlias s → SameBytes s t)) ∧
      (∀ u, pageWalkOf s p v = (u, none) → ∃ t, exec (.pageWalk p vpn) s = .next t ∧ (p, v) ∈ t.misses ∧ t.tlb = s.tlb ∧
        ((p, v) ∉ s.misses → t.reports = s.reports ++ [.miss p v]))) ∧
    (quiet → exec (.translationResolve p vpn) s = .next { s with
      misses := s.misses.filter (· != (p, v))
      ops := if p = s.ctx.part then s.ops.map (fun o => if o.held = some v then { o with held := none } else o) else s.ops }) ∧
    ((p, v) ∉ s.misses → exec (.translationAbort p vpn) s = .next s) ∧
    (quiet → (p, v) ∈ s.misses → p = s.ctx.part → s.held = none → s.ctx.frec.toNat * 64 / 4096 ≠ v → s.ctx.stop = none →
      s.ctx.status = .running → ∀ e o0 o1 c b, (s.eng e).wait = some ⟨.miss p v o0 o1, c, b⟩ →
      ∃ t st, exec (.translationAbort p vpn) s = .next t ∧ (p, v) ∉ t.misses ∧ t.ctx.status = .stopped ∧ t.ctx.stop = some st ∧
        st.info.code = .translation ∧
        t.ops = s.ops.map fun o => if o.held = some v then { o with held := none, aborted := o.aborted ++ [v] } else o)

/-- R312 and R405: a write of TLBI.CMD sets its fields; an invalidation that names something starts in an idle die behind every
operation issued so far, and when its marker has passed the queues the translations that it names are gone, those of the
directory too, and no other is. R398, R399 and R401: a format region is enabled unless the
rules refuse it, and disabled; a dirty alias line is written back. R406 changes nothing. What a write of FMT and ASIZE does to an
enabled region is assumption 54. -/
def Obligations.InvalidationsAndRegions : Prop :=
  ∀ (die : BitVec 3) (p stack region : BitVec 4) (vpn : BitVec 40) (pages : BitVec 27) (v : BitVec 64) (line unit : Nat)
    (channel : BitVec 9) (s : State),
    let b := s.tlbi[die.toNat]
    let n := stack.toNat * 16 + region.toNat
    let r := getRegion s n
    let put (t : Tlbi) : State := { s with tlbi := s.tlbi.set die.toNat t }
    let started (t : Tlbi) : State := put { t with busy := true, marker := s.nextId, cur := ⟨t.addr, t.part, t.all, t.pages⟩ }
    let every : Tlbi := { b with part := p, all := true }
    let some' : Tlbi := { b with addr := vpn, part := p, all := false, pages := pages }
    (b.busy = true → exec (.tlbiAll die p) s = .next (put every) ∧ exec (.tlbiPages die p vpn pages) s = .next (put some')) ∧
    (b.busy = false → exec (.tlbiAll die p) s = .next (started every) ∧
      exec (.tlbiPages die p vpn pages) s = .next (if pages = 0 then put some' else started some')) ∧
    (tlbiReady s = none → exec .invalidationComplete s = .next s) ∧
    (∀ d t, tlbiReady s = some (d, t) → ∃ u, exec .invalidationComplete s = .next u ∧ (∀ e, e ∈ u.tlb ↔ e ∈ s.tlb ∧
      ¬(e.part = t.cur.part ∧
        (t.cur.all = true ∨ (e.vpn < t.cur.addr.toNat + t.cur.pages.toNat ∧ t.cur.addr.toNat < e.vpn + e.pages)))) ∧
      u.dirs = s.dirs.filter (fun x => !t.coversDir x) ∧
      (∀ k : Fin 8, k.val = d → (u.tlbi[k]).busy = false) ∧ SameBytes s u) ∧
    (r.en = false →
      let q : Region := { r with err := if bitAt v 62 then false else r.err, fmt := BitVec.ofNat 8 (v.toNat / 2 ^ 48),
                                 asize := BitVec.ofNat 14 v.toNat }
      (regionRefused s stack.toNat n q = true → exec (.frEnable stack region v) s = .next (putRegion s n { q with err := true })) ∧
      (regionRefused s stack.toNat n q = false →
        exec (.frEnable stack region v) s = .next (putRegion s n { q with en := true })) ∧
      exec (.frDisable stack region) s = .next s) ∧
    (r.en = true → BitVec.ofNat 8 (v.toNat / 2 ^ 48) = r.fmt → BitVec.ofNat 14 v.toNat = r.asize →
      exec (.frEnable stack region v) s = .next (putRegion s n { r with err := if bitAt v 62 then false else r.err })) ∧
    (r.en = true → BitVec.ofNat 8 (v.toNat / 2 ^ 48) ≠ r.fmt ∨ BitVec.ofNat 14 v.toNat ≠ r.asize → s.llc = [] →
      ∃ t, exec (.frEnable stack region v) s = .next t ∧ t.ctx = s.ctx ∧ t.mem = s.mem ∧
        let q : Region := { r with fmt := BitVec.ofNat 8 (v.toNat / 2 ^ 48), asize := BitVec.ofNat 14 v.toNat }
        (getRegion t n).fmt = q.fmt ∧ (getRegion t n).asize = q.asize ∧
        ((getRegion t n).en = true ↔ regionRefused s stack.toNat n q = false)) ∧
    (r.en = true → ∃ t, exec (.frDisable stack region) s = .next t ∧ (getRegion t n).en = false ∧ t.ctx = s.ctx ∧
      t.l1 = s.l1 ∧ t.qc = s.qc ∧ (s.llc = [] → s.llcLines = [] → t = putRegion s n { r with en := false })) ∧
    (∃ t, exec (.aliasWriteback line) s = .next t ∧ t.ctx = s.ctx ∧ t.l1 = s.l1 ∧ t.qc = s.qc ∧
      (aliasRegion s (line / 64 * 64) = none → t = s) ∧
      ((aliasRegion s (line / 64 * 64)).isSome → ∀ k, k / 64 = line / 64 → ovGet t.llc k = none)) ∧
    exec (.channelMigration stack unit channel) s = .next s

/-! ### The Dispatcher (chapter 12) -/

/-- Table 12.1 with R408 to R410 and R487: a write of CFG enables a queue, with its three indices 0, or disables it, and sets
MAXINST and LOG2N within their bounds; TAIL takes a value that is ahead of it; a fetch-and-add of WIDX answers the old value,
and one of a virtual function that does not own the enabled queue answers 0 and changes nothing. R415, R417 and R424: items
enter stage 0 while places are free, each in its place of the partition's stage-queue area; an instance that has ended is gone,
and stores its completion word, or holds that word for its page; one that makes no progress is reported once. That it is gone
while its word is held is assumption 47. -/
def Obligations.QueuesAndInstances : Prop :=
  (∀ (q : BitVec 14) (v : BitVec 64) (fn : HostFn) (s : State),
     let n := q.toNat
     let w := getWq s n
     let cfg (en : Bool) (t : State) : Prop :=
       let x := getWq t n
       x.en = en ∧ x.part = w.part ∧ x.base = w.base ∧ x.live = w.live ∧ x.errcnt = w.errcnt ∧
       x.maxinst.toNat = max 1 (v.toNat / 2 ^ 8 % 2 ^ 8) ∧ x.log2n.toNat = max 3 (min 16 (v.toNat % 2 ^ 5)) ∧
       (∀ m, m ≠ n → getWq t m = getWq s m) ∧ t.ctx = s.ctx ∧ t.mem = s.mem
     (∃ t, exec (.wqEnable q v) s = .next t ∧ cfg true t ∧
       (w.en = false → (getWq t n).widx = 0 ∧ (getWq t n).tail = 0 ∧ (getWq t n).head = 0) ∧
       (w.en = true → (getWq t n).widx = w.widx ∧ (getWq t n).tail = w.tail ∧ (getWq t n).head = w.head)) ∧
     (∃ t, exec (.wqDisable q v) s = .next t ∧ cfg false t ∧
       (getWq t n).widx = w.widx ∧ (getWq t n).tail = w.tail ∧ (getWq t n).head = w.head) ∧
     (let x := { w with tail := if v ≠ w.tail ∧ (v - w.tail).toNat < 2 ^ 63 then v else w.tail }
      s.ctx.status = .running → s.held = none →
       (w.en = false ∨ ahead x.tail w.head = false → exec (.wqTailWrite q v) s = .next (setWq s n x)) ∧
       (w.en = true → w.held = none → ahead x.tail w.head = true → w.live.toNat < w.maxinst.toNat →
         (getPart s w.part).halted = false → s.host.stage = 7 → ∀ sl u,
         dispRead (setWq s n x) w.part (w.base.toNat * 128 + 128 * (w.head.toNat % 2 ^ w.log2n.toNat)) 8 = .ok sl u →
         BitVec.ofNat 64 (leValue sl) ≠ w.head → u.ctx = s.ctx → u.held = none → exec (.wqTailWrite q v) s = .next (setWq u n x))) ∧
     ((fn = .physical ∨ fn = .management ∨ (fn = .virt w.part ∧ w.en = true)) →
       (∀ r ∈ s.replies, r.unit ≠ 2 ^ 40 + n) → ∃ t, exec (.hostFetchadd fn q v) s = .next t ∧
         (getWq t n).widx = w.widx + v ∧ t.host.reads = s.host.reads ++ [leBytes 8 w.widx.toNat] ∧
         (∀ m, m ≠ n → getWq t m = getWq s m) ∧ t.ctx = s.ctx ∧ t.mem = s.mem) ∧
     ∀ p, fn = .virt p → w.part ≠ p ∨ w.en = false → ∃ t, exec (.hostFetchadd fn q v) s = .next t ∧ t.disp = s.disp ∧
       t.host.reads = s.host.reads ++ [List.replicate 8 0] ∧ t.host.lastvf = p ∧ t.replies = s.replies ∧ t.mem = s.mem) ∧
  (∀ (id : Nat) (p : Pipe) (s : State), findPipe s id = some p →
     let n := p.queue.toNat
     let w := getWq s n
     (s.ctx.status = .running → s.held = none → ∀ g, p.stages[0]? = some g → 0 < p.queues.length → s.MemOk → s.armed = [] →
       let k := min (p.nitems - p.generated) (g.depth - (p.queueOf 0).length)
       ∃ t q new, exec (.stage0ItemGenerate id) s = .next t ∧ findPipe t id = some q ∧ q.generated = p.generated + k ∧
         q.queueOf 0 = p.queueOf 0 ++ new ∧ new.length = k ∧ t.ctx = s.ctx ∧
         (∀ (j : Nat) (hj : j < new.length), let d := readItem t w.part new[j].place
           p.bases.getD 0 0 ≤ new[j].place ∧ new[j].place < p.bases.getD 0 0 + g.depth ∧
           (∀ it ∈ p.queueOf 0, it.place ≠ new[j].place) ∧
           d[0] = BitVec.ofNat 64 (p.generated + j) ∧ d[1] = p.seqNo ∧ d[2] = BitVec.ofNat 64 (n * 2 ^ 16) ∧
           d[3] = BitVec.ofNat 64 p.nitems ∧ (∀ m : Fin 12, d[4 + m.val] = p.payload.getD m.val 0)) ∧
         ∀ a, (∀ it ∈ new, ∀ j < 128, a ≠ placeKey s w.part it.place + j) → memGet t.mem a = memGet s.mem a) ∧
     (instDone s p = true → s.ctx.status = .running → s.held = none → ahead w.tail w.head = false →
       let ended : State := setWq { s with disp := { s.disp with
         pipes := s.disp.pipes.filter (fun x => x.id != id)
         rings := s.disp.rings.map fun r => r.filter (· != id) } } n { w with live := w.live - 1 }
       let word := p.seqNo ||| (if p.bad then 1#64 <<< 63 else 0)
       let stored := dispWrite ended w.part p.done.toNat (leBytes 8 word.toNat)
       (p.done = 0 → exec (.instanceEnd id) s = .next ended) ∧
       (∀ u, p.done ≠ 0 → stored = (u, none) → u.disp = ended.disp → u.ctx = s.ctx → u.held = none →
         exec (.instanceEnd id) s = .next u) ∧
       ∀ u v, p.done ≠ 0 → stored = (u, some (some v)) → u.disp = ended.disp → u.ctx = s.ctx → u.held = none →
         exec (.instanceEnd id) s = .next { u with disp := { u.disp with
           dones := u.disp.dones ++ [⟨n, w.part, p.done, word, p.seqNo, v⟩] } }) ∧
     (instDone s p = false → exec (.instanceEnd id) s = .next s) ∧
     let limit := (getPart s w.part).stallto.toNat
     let idle := limit ≠ 0 ∧ p.stalled = false ∧ ((∃ l ∈ p.queues, l ≠ []) ∨ (s.ctx.status = .running ∧ s.ctx.inst = some id)) ∧
       limit * 1024 ≤ (s.bell - p.progress).toNat
     (¬idle → exec (.pipelineStall id) s = .next s) ∧
     (idle → ∃ t, exec (.pipelineStall id) s = .next t ∧ findPipe t id = some { p with stalled := true } ∧
       getWq t n = { w with stall := true } ∧ t.reports = s.reports ++ [.pipelineStall p.queue p.seqNo] ∧ t.ctx = s.ctx ∧
       t.mem = s.mem))

/-- R426 and R433: enabling a partition. One that is enabled is left as it is, one whose grants meet another's is refused with
ERR; otherwise it is enabled, its instances are gone, and where it owns this core its context, window of handles and window of
tiles are at reset. Disabling it clears EN alone. R434 and R435: when the slice ends the held context is to run; at a drained
core the two contexts are exchanged, each with its registers, records, loops, sequencers, program counters and tokens, its
predicates and vectors, its stop, and its barrier state (R179). That disabling clears EN alone is assumption 47; that a context's
address registers and records are zero when its partition is enabled is assumptions 1 and 2. -/
def Obligations.PartitionsAndSwaps : Prop :=
  (∀ (p : BitVec 4) (s : State),
     let x := getPart s p
     let mine := partHasCore s p s.coreNo.toNat
     exec (.partitionDisable p) s = .next (setPart s p { x with en := false }) ∧
     (x.en = true → exec (.partitionEnable p) s = .next s) ∧
     (x.en = false → enableRefused s p = true →
       exec (.partitionEnable p) s = .next (setPart s p { x with err := true })) ∧
     (x.en = false → enableRefused s p = false → ∃ t, exec (.partitionEnable p) s = .next t ∧
       getPart t p = { x with en := true, halted := false } ∧ (∀ r, r ≠ p → getPart t r = getPart s r) ∧
       (∀ y ∈ t.disp.pipes, y.ofPart s p = false) ∧ t.mem = s.mem ∧
       (mine = false → t.ctx = s.ctx ∧ t.mx = s.mx ∧ t.handles = s.handles) ∧
       (mine = true → s.ctx.part = p → s.held = none →
         t.ctx.part = p ∧ t.ctx.slot = x.slot ∧ t.ctx.winBase = x.hbase ∧ t.ctx.winCount = x.hcount ∧ t.ctx.stop = none ∧
         t.ops = [] ∧ (∀ e m, readA t e m = 0) ∧ (∀ e b, readBf t e b = 0) ∧ (∀ c, tokGet t c = 0) ∧
         (∀ (c : Fin 4) (k : Fin 48), t.handles[48 * c.val + k.val] =
           if x.hbase.toNat ≤ k.val ∧ k.val < x.hbase.toNat + x.hcount.toNat then .held (BitVec.ofNat 2 c.val)
           else s.handles[48 * c.val + k.val]) ∧
         ∀ z : BitVec 2, x.tbase.toNat ≤ z.toNat → z.toNat < x.tbase.toNat + x.tcount.toNat →
           t.mx.mill.tile z = Tile.reset ∧ t.mx.quern.tile z = Tile.reset))) ∧
  (∀ (s : State),
     (s.held = none → exec .sliceExpiry s = .next s) ∧
     (swapDue s = false → exec .contextSwap s = .next s) ∧
     ∀ h, s.held = some h →
       ((getPart s h.part).halted = false → exec .sliceExpiry s = .next { s with disp := { s.disp with swapping := true } }) ∧
       ((getPart s h.part).halted = true →
         exec .sliceExpiry s = .next { s with disp := { s.disp with sliceStart := s.bell } }) ∧
       (swapDue s = true → h.mx.activeSaved = none → h.mx.shadowSaved = none → h.mx.ref = false → ∃ t o,
         exec .contextSwap s = .next t ∧ t.held = some o ∧
         t.ctx.part = h.part ∧ t.ctx.eng = h.eng ∧ t.ctx.tokens = h.tokens ∧ t.ctx.vec = h.vec ∧ t.ctx.stop = h.stop ∧
         t.ctx.item = h.item ∧ t.ctx.imem = h.imem ∧ t.mem = s.mem ∧
         o.part = s.ctx.part ∧ o.nets = s.nets.toList ∧ o.status = s.ctx.status ∧ o.stop = s.ctx.stop ∧ o.tokens = s.ctx.tokens ∧ o.vec = s.ctx.vec ∧
         o.item = s.ctx.item ∧ ∀ e, (o.eng.get e).a = (s.eng e).a ∧ (o.eng.get e).bf = (s.eng e).bf ∧
           (o.eng.get e).pc = (s.eng e).pc ∧ (o.eng.get e).loops = (s.eng e).loops ∧ (o.eng.get e).seq = (s.eng e).seq))

/-- R434, R436, R438 and R475: the commands of PART.CMD. RESUME and ABORT are ignored, with CMDIGN set, unless their core
holds a context of the partition that is stopped for the host; RESUME goes on as eret does or waits for the quota, ABORT ends
the item, RUN exchanges the contexts, and HALT halts the partition, whose HALTED is set at once (assumption 47). That a command
for another core is ignored, and that RUN does nothing for a quad or context that is not this one's, is assumption 13. -/
def Obligations.PartitionCommands : Prop :=
  ∀ (p : BitVec 4) (core : BitVec 8) (s : State),
    let x := getPart s p
    let ignored := setPart s p { x with cmdign := true }
    let named (c : Ctx) : Prop :=
      c.part = p ∧ c.status = .stopped ∧ ∃ st, c.stop = some st ∧ st.recorded = true ∧ st.toHost = true
    (core ≠ s.coreNo ∨ x.halted = true ∨ (¬named s.ctx ∧ ∀ h, s.held = some h → ¬named h) →
      exec (.resume p core) s = .next ignored ∧ exec (.abort p core) s = .next ignored) ∧
    (core = s.coreNo → x.halted = false → named s.ctx → ∀ st, s.ctx.stop = some st →
      (quotaHolds s p = true → exec (.resume p core) s =
        .next { s with ctx := { s.ctx with stop := some { st with resuming := true } } }) ∧
      (quotaHolds s p = false → s.ctx.heldFaults = [] → ∃ t, exec (.resume p core) s = .next t ∧
        t.ctx.stop = none ∧ t.ctx.status = st.was ∧ (∀ e m, readA t e m = readA s e m) ∧ (∀ e b, readBf t e b = readBf s e b) ∧
        (∀ e, (e ≠ .ctl ∨ st.afterTrap = false) →
          (t.eng e).pc = (s.eng e).pc ∧ (t.eng e).loops = (s.eng e).loops ∧ (t.eng e).seq = (s.eng e).seq) ∧
        (st.afterTrap = true → Straight (s.eng .ctl) → (t.eng .ctl).pc = (s.eng .ctl).pc + 8) ∧
        t.ctx.tokens = s.ctx.tokens ∧ SameBytes s t) ∧
      ∃ t, exec (.abort p core) s = .next t ∧ t.ctx.stop = none ∧ t.ctx.inst = none ∧ t.ctx.thrrun = false ∧
        (t.ctx.status = .boundary ∨ t.ctx.status = .idle) ∧ (∀ e ∈ ringEngines, (t.eng e).atStop = true) ∧
        ∀ id y, s.ctx.inst = some id → findPipe s id = some y → ∃ z, findPipe t id = some z ∧ z.bad = true) ∧
    (core = s.coreNo → x.halted = false → ¬named s.ctx → ∀ h st, s.held = some h → named h → h.stop = some st →
      (quotaHolds s p = false → h.heldFaults = [] → ∃ t c, exec (.resume p core) s = .next t ∧ t.held = some c ∧
        c.stop = none ∧ c.status = st.was ∧ t.ctx = s.ctx) ∧
      ∃ t c, exec (.abort p core) s = .next t ∧ t.held = some c ∧ c.stop = none ∧ c.inst = none ∧ c.status = .boundary ∧
        t.ctx = s.ctx) ∧
    (partHasCore s p core.toNat = false → exec (.run p core) s = .next ignored) ∧
    (partHasCore s p core.toNat = true →
      (core.toNat / 4 = s.coreNo.toNat / 4 → ∀ h, s.held = some h → h.part = p →
        exec (.run p core) s = .next { s with disp := { s.disp with swapping := true } }) ∧
      (core.toNat / 4 ≠ s.coreNo.toNat / 4 ∨ (∀ h, s.held = some h → h.part ≠ p) → exec (.run p core) s = .next s)) ∧
    (x.halted = true → exec (.halt p) s = .next s) ∧
    (x.halted = false → ∃ t, exec (.halt p) s = .next t ∧ getPart t p = { x with halted := true } ∧
      (s.ctx.part = p → t.ctx = { s.ctx with status := .halted }) ∧
      (∀ h, s.held = some h → h.part = p → t.held = some { h with status := .halted }) ∧
      .partitionHalted p ∈ t.reports ∧ t.ops = s.ops ∧ t.mem = s.mem)

/-- R46 step 5, Table 1.12 and R436: the record of a stop is written at FREC, its fields in their places, and the fault goes
to the host unless the mask and HOVL name a handler; a fault of a handler halts the partition (R438). R425 to R429: the launch
of a strand. Its ring engines start at the entry of the overlay with every register 0 but a1, which holds the item's first
doubleword, with empty stacks and the default footprints; its tokens are 0, its item register is the item, and its local image
stands in scratchpad. -/
def Obligations.RecordsAndLaunches : Prop :=
  (∀ (s u : State) (st : Stop), s.ctx.stop = some st →
     (st.recorded = true ∨ (getPart s s.ctx.part).halted = true → exec .faultRecord s = .next s) ∧
     (st.recorded = false → (getPart s s.ctx.part).halted = false →
       let c := s.ctx
       let bit (b : Bool) : Nat := if b then 1 else 0
       let w0 := BitVec.ofNat 64 (st.info.code.number + 2 ^ 8 * st.info.tag.toNat + 2 ^ 11 * bit st.info.async +
         2 ^ 12 * bit st.multi + 2 ^ 16 * s.coreNo.toNat + 2 ^ 24 * c.part.toNat + 2 ^ 32 * c.recSeq.toNat)
       let op0 := if st.info.code = .energyQuota then overdraft s c.part else st.info.op0
       let words : List (BitVec 64) := [w0, c.eng.ctl.pc, c.eng.bte.pc, c.eng.mxe.pc, c.eng.vec.pc,
         if c.thrrun then c.eng.thr.pc else BitVec.allOnes 64, op0, st.info.op1]
       dispWrite s c.part (c.frec.toNat * 64) (words.flatMap fun w => leBytes 8 w.toNat) = (u, none) → u.ctx = s.ctx →
       let named := (BitVec.ofNat 64 (planeVal u 0x000 8)).getLsbD (st.info.code.number / 16) = true ∧ (getPart u c.part).hovl ≠ 0
       (st.was ≠ .handler → ¬named → exec .faultRecord s = .next { u with
         ctx := { c with recSeq := c.recSeq + 1, stop := some { st with recorded := true, toHost := true } }
         reports := u.reports ++ [.strandFault u.coreNo st.info.code] }) ∧
       (st.was = .handler → (getPart u c.part).halted = false → ∃ t, exec .faultRecord s = .next t ∧
         t.ctx.status = .halted ∧ (getPart t c.part).halted = true ∧ .strandFault u.coreNo st.info.code ∈ t.reports ∧
         .partitionHalted c.part ∈ t.reports))) ∧
  (∀ (s u : State) (id stg : Nat) (it : Vector (BitVec 64) 16) (p : Pipe) (g : Stage) (bytes : List Byte),
     s.disp.launching = some (id, stg, it) → findPipe s id = some p → p.stages[stg]? = some g → s.ctx.stop = none →
     (getPart s s.ctx.part).halted = false → ringsStopped s = true → handlesBusy s g.hdr = false →
     (if isResident s g.ovl.toNat g.hdr then dispRead s s.ctx.part (g.ovl.toNat + 0x40 + g.hdr.tlen) g.hdr.llen
       else dispRead s s.ctx.part (g.ovl.toNat + 0x40) (g.hdr.tlen + g.hdr.llen)) = .ok bytes u → u.ctx = s.ctx → u.handles = s.handles →
     quotaHolds u s.ctx.part = false →
     let image := if isResident s g.ovl.toNat g.hdr then bytes else bytes.drop g.hdr.tlen
     ∃ t, exec .strandLaunch s = .next t ∧ t.ctx.status = .running ∧ t.ctx.strand = s.ctx.strand + 1 ∧
       t.disp.launching = none ∧ t.ctx.stop = none ∧ t.ctx.inst = some id ∧ t.ctx.taskHandler = false ∧ t.ctx.thrrun = false ∧
       (∀ e ∈ ringEngines, (∀ m, readA t e m = if m = 1 then it[0] else 0) ∧ (∀ b, readBf t e b = 0) ∧
         (t.eng e).pc = g.ovl + 0x40 + BitVec.ofNat 64 g.hdr.entry ∧ Straight (t.eng e) ∧ (t.eng e).pushes = [] ∧
         (t.eng e).active = footDefault s e ∧ (t.eng e).pending = none ∧ (t.eng e).atStop = false) ∧
       (∀ c, tokGet t c = 0) ∧ t.ctx.item = it ∧ t.ctx.taskQueue = it[2].extractLsb' 16 14 ∧
       t.ctx.taskStage = it[2].extractLsb' 0 3 ∧ t.ctx.trailer = g.hdr.trailer ∧ t.ctx.vec = s.ctx.vec ∧
       t.ctx.text.base = g.ovl + 0x40 ∧ t.ctx.text.words.length = g.hdr.tlen / 4 ∧
       (u.MemOk → u.coreNo = s.coreNo → u.l1.dirty = [] → u.qc.dirty = [] → ∀ j, j < image.length →
         memGet t.mem (scratchKey s.coreNo.toNat (g.hdr.loff + j)) = image.getD j 0))

/-- R431 and R432: the configuration planes. A difference message queues; at a drain point the one of lowest generation is
applied and its plane becomes active when its checksum holds, and nothing changes otherwise; a swap exchanges the planes on
the same terms. An active plane feeds the window and the seeds. -/
def Obligations.ConfigurationPlanes : Prop :=
  ∀ (msg m : PlaneDiff) (off : Nat) (data : List Byte) (s : State), Memory.wf s.disp.plane = true → Memory.wf s.disp.shadow = true →
    let crcOf (x : Mem) : BitVec 32 := crc32c ((List.range 0xFFC).map (memGet x))
    let feeds (t : State) : Prop := t.ctx.window.toNat = max 64 (min 4096 (planeVal t 0x008 2)) ∧
      (t.mx.mill.sow.seed).toNat = planeVal t 0x010 4 ∧ (t.mx.quern.sow.seed).toNat = planeVal t 0x010 4 ∧
      t.ctx.eng = s.ctx.eng ∧ t.ctx.vec = s.ctx.vec ∧ t.mem = s.mem
    exec (.planeDiffBroadcast msg) s = .next { s with disp := { s.disp with diffs := s.disp.diffs ++ [msg] } } ∧
    exec .swapToken s = .next { s with disp := { s.disp with swapToken := true } } ∧
    (∃ t, exec (.shadowPlaneLoad off data) s = .next t ∧ t.disp.plane = s.disp.plane ∧ t.ctx = s.ctx ∧ t.mem = s.mem ∧
      ∀ k, memGet t.disp.shadow k = if k < 0x1000 ∧ off ≤ k ∧ k < off + data.length then data.getD (k - off) 0
        else memGet s.disp.shadow k) ∧
    (drainPoint s = false ∨ s.disp.diffs = [] → exec .planeDiffApply s = .next s) ∧
    (drainPoint s = true → firstDiff s.disp.diffs = some m →
      m ∈ s.disp.diffs ∧ (∀ d ∈ s.disp.diffs, m.gen.toNat ≤ d.gen.toNat) ∧
      let copy := memWrite s.disp.plane (m.changes.filter fun c => decide (c.1 < 0xFFC))
      (crcOf copy = m.crc → ∃ t, exec .planeDiffApply s = .next t ∧ t.disp.gen = m.gen ∧ t.disp.last = 1 ∧
        t.disp.diffs = s.disp.diffs.erase m ∧ t.disp.shadow = s.disp.shadow ∧ feeds t ∧
        (∀ k, k < 0xFFC → memGet t.disp.plane k = memGet copy k) ∧ planeVal t 0xFFC 4 = m.crc.toNat) ∧
      (crcOf copy ≠ m.crc → ∃ t, exec .planeDiffApply s = .next t ∧ t.disp = { s.disp with diffs := s.disp.diffs.erase m, last := 2 } ∧
        t.ctx = s.ctx ∧ t.reports = s.reports ++ [.planeRolledBack m.gen])) ∧
    (drainPoint s = false ∨ s.disp.swapToken = false → exec .planeSwap s = .next s) ∧
    (drainPoint s = true → s.disp.swapToken = true →
      let good := crcOf s.disp.shadow = BitVec.ofNat 32 (leValue ((List.range 4).map fun i => memGet s.disp.shadow (0xFFC + i)))
      let d := { s.disp with swapToken := false, plane := s.disp.shadow, shadow := s.disp.plane, last := 1 }
      (good → ∃ t, exec .planeSwap s = .next t ∧ t.disp = d ∧ feeds t) ∧
      (¬good → ∃ t, exec .planeSwap s = .next t ∧ t.disp = { s.disp with swapToken := false, last := 3 } ∧ t.ctx = s.ctx ∧
        t.reports = s.reports ++ [.swapRefused]))

/-! ### The Moot (chapter 13) -/

/-- R449 to R454, R457, R458, R473 and R476: a limiter that needs a code below the ceiling announces it in a Crier of the
right tick and cause, one below the clock alone waits for its tick, and any other code takes its place at once; an unannounced
clamp cuts the core clock now; a Crier and its tick bound the ceiling, and one that a member hears before it has joined binds it then; a blind site, whose
neighbours have all failed, and a rack cap change a limit, and a cap that has risen does so at a round. A limiter that comes to
need a higher code drops what it had pending. That the rise of any other limiter than the cap takes its place at once is
assumption 57; what the ceiling at a later tick is taken to be, and what a joiner keeps, rest on assumption 79. -/
def Obligations.MootLimits : Prop :=
  ∀ (lim : Limiter) (code : BitVec 8) (cause : BitVec 4) (tick : BitVec 64) (die : BitVec 3) (site : BitVec 6) (mask : BitVec 64)
    (cap : BitVec 13) (c : MootMsg) (s : State),
    let legal (x : BitVec 8) : Prop := 32 ≤ x.toNat ∧ x.toNat ≤ 96
    let lower (x y : BitVec 8) : BitVec 8 := if y.toNat < x.toNat then y else x
    let cries (u t : State) (x : BitVec 8) (k : BitVec 4) (un : Bool) (e : BitVec 64) : Prop := ∃ y : MootMsg,
      t.moot.outbox = u.moot.outbox ++ [(1, y)] ∧ t.moot.seqNo = u.moot.seqNo + 1 ∧ y.limit = x ∧ y.cause = k ∧ y.unann = un ∧
      y.effective = e ∧ y.sent = u.bell ∧ y.member = u.moot.slot ∧ y.pkg = u.pkgNo ∧ y.seqNo = u.moot.seqNo ∧ y.gid = u.moot.gid
    let changes (u t : State) (l : Limiter) (x : BitVec 8) (k : BitVec 4) (at_ : BitVec 64) : Prop :=
      let first := u.bell + BitVec.ofNat 64 u.moot.leadc
      let e := if at_.toNat < first.toNat then first else at_
      t.ctx = u.ctx ∧ t.mem = u.mem ∧ t.moot.gceil = u.moot.gceil ∧
      (¬legal x → t = u) ∧
      let low : BitVec 8 := ceilingAt u e
      let m := u.moot.supersede l x
      (legal x → x.toNat < low.toNat → cries u t (lower u.moot.limit x) k false e ∧
        t.moot.own = m.own ++ [(some l, ⟨x, u.bell, e, true⟩)] ∧ t.moot.limits = u.moot.limits) ∧
      (legal x → low.toNat ≤ x.toNat → x.toNat < u.moot.coreCode.toNat →
        t = { u with moot := { m with own := m.own ++ [(some l, ⟨x, u.bell, e, false⟩)] } }) ∧
      (legal x → low.toNat ≤ x.toNat → u.moot.coreCode.toNat ≤ x.toNat →
        t = { u with moot := { m with limits := m.limits.set (limIdx l) x } })
    (∀ y : Option Limiter × Crier, y ∈ (s.moot.supersede lim code).own ↔
      (y ∈ s.moot.own ∧ ¬(y.1 = some lim ∧ y.2.limit.toNat < code.toNat)) ∨
      (y.1 = none ∧ y.2.mine = true ∧ y.2.limit.toNat < code.toNat ∧ (some lim, y.2) ∈ s.moot.own)) ∧
    (∃ t, exec (.limitLower lim code tick) s = .next t ∧ changes s t lim code (limCause lim) tick) ∧
    (¬legal code ∨ s.moot.coreCode.toNat ≤ code.toNat → exec (.unannouncedClamp code cause) s = .next s) ∧
    (legal code → code.toNat < s.moot.coreCode.toNat → ∃ t, exec (.unannouncedClamp code cause) s = .next t ∧
      t.moot.clamp = some (code, s.bell + BitVec.ofNat 64 s.moot.earliest) ∧ t.moot.coreCode = lower s.moot.gceil code ∧ t.moot.gceil = s.moot.gceil ∧
      t.moot.unann.toNat = min (s.moot.unann.toNat + 1) 65535 ∧
      cries s t code cause true (s.bell + BitVec.ofNat 64 s.moot.earliest)) ∧
    (acceptLive s c true = none → exec (.crier c) s = .next s) ∧
    (∀ u, acceptLive s c true = some u → s.moot.state = 3 → exec (.crier c) s = .next { u with moot := { u.moot with
      planCriers := s.moot.planCriers ++ [⟨c.limit, c.sent, c.effective, false⟩] } }) ∧
    (∀ u, acceptLive s c true = some u → s.moot.state ≠ 3 → ∃ t, exec (.crier c) s = .next t ∧
      t.moot.criers = s.moot.criers ++ (if (c.sent - s.moot.deadline).toNat < 2 ^ 63 then [⟨c.limit, c.sent, c.effective, false⟩] else []) ∧
      t.moot.gceil.toNat ≤ s.moot.gceil.toNat ∧
      (∀ x ∈ t.moot.criers, x.effective.toNat ≤ s.bell.toNat → t.moot.gceil.toNat ≤ x.limit.toNat) ∧
      (c.effective.toNat < s.bell.toNat → t.reports = s.reports ++ [.late c.member]) ∧
      (s.bell.toNat ≤ c.effective.toNat → t.reports = s.reports)) ∧
    (∃ t, exec .ceilingEffective s = .next t ∧ t.moot.gceil.toNat ≤ s.moot.gceil.toNat ∧
      (∀ x ∈ s.moot.criers, x.effective.toNat ≤ s.bell.toNat → t.moot.gceil.toNat ≤ x.limit.toNat) ∧
      (t.moot.gceil = s.moot.gceil ∨ ∃ x ∈ s.moot.criers, x.effective.toNat ≤ s.bell.toNat ∧ x.limit = t.moot.gceil) ∧
      (∀ x ∈ s.moot.silents, x.2.toNat ≤ s.bell.toNat → ∀ y ∈ t.moot.members, y.slot = x.1 → y.left = false → y.live = false) ∧
      t.mem = s.mem ∧ ((∀ x ∈ s.moot.silents, s.bell.toNat < x.2.toNat) → t.ctx = s.ctx ∧
        ∀ x ∈ s.moot.own, x.2.effective.toNat ≤ s.bell.toNat → x ∉ t.moot.own ∧
          ∀ l, x.1 = some l → t.moot.limits[limIdx l].toNat ≤ x.2.limit.toNat)) ∧
    (∀ g : BitVec 64, blindSite g = true ↔ ∃ n < 64, ∀ k < 64, k ≠ n → k / 8 ≤ n / 8 + 1 → n / 8 ≤ k / 8 + 1 →
      k % 8 ≤ n % 8 + 1 → n % 8 ≤ k % 8 + 1 → g.getLsbD k = true) ∧
    (let f := s.moot.sensFail[die.toNat] ||| (1#64 <<< site.toNat)
     let u := { s with moot := { s.moot with sensFail := s.moot.sensFail.set die.toNat f }, reports := s.reports ++ [.sensor die site] }
     (blindSite f = false → exec (.sensorFail die site) s = .next u) ∧
     (blindSite f = true → ∃ t, exec (.sensorFail die site) s = .next t ∧ changes u t .sensor 32 5 s.bell)) ∧
    (let f := s.moot.sensFail[die.toNat] &&& ~~~mask
     let u := { s with moot := { s.moot with sensFail := s.moot.sensFail.set die.toNat f } }
     (anyBlind u = true → exec (.sensFailClear die mask) s = .next u) ∧
     (anyBlind u = false → ∃ t, exec (.sensFailClear die mask) s = .next t ∧ changes u t .sensor 96 5 s.bell)) ∧
    ∃ t u, exec (.rpcapWrite cap code tick) s = .next t ∧ u.moot.rpcap.toNat = max 1500 (min 4800 cap.toNat) ∧
      u = { s with moot := { s.moot with rpcap := u.moot.rpcap } } ∧
      let rise : Prop := s.moot.cap < u.moot.cap ∧ s.moot.limits[limIdx .power].toNat ≤ code.toNat ∧ legal code
      (rise → t = { u with moot := { u.moot with
        rises := u.moot.rises.filter (fun y => y.1 != .power) ++ [(.power, code, s.bell)] } }) ∧
      (¬rise → changes u t .power code 4 tick)

/-- R455 and R456: the coordinator sends the decision and the parameters; a member takes those of the next round; at the tick
the round moves on, a group of one with its own decision and its own registers, and a member that leaves at its own ceiling; a
member that does not hold the round by its deadline misses it. R474 and R475: a quota that is exceeded stops the strand of its
partition or slows it; how far it is exceeded is a free value (assumption 5), and the record's tag 0 is assumption 50. The tick at
which a joiner's round falls on its own Bell is assumption 57. -/
def Obligations.MootRounds : Prop :=
  ∀ (c : MootMsg) (p : BitVec 4) (s : State),
    let m := s.moot
    let v : State := { s with moot := { m.heard c with seen := m.seen ++ [(c.member, c.seqNo)] } }
    let mine := c.arg = m.round ∧ m.missed = false ∧ m.alone = false
    (acceptLive s c true = none → exec (.round c) s = .next s) ∧
    (acceptLive s c false = none → exec (.rparam c) s = .next s) ∧
    ((acceptLive s c true).isSome → m.state ≠ 3 →
      (mine → c.effective = m.tick → exec (.round c) s = .next
        { v with moot := { v.moot with decision := some c.limit, nextDeadline := some m.reached } }) ∧
      (¬mine ∨ c.effective ≠ m.tick → exec (.round c) s = .next v)) ∧
    ((acceptLive s c true).isSome → m.state = 3 → exec (.round c) s = .next { v with moot := { v.moot with
      plan := some ⟨s.bell + (c.effective - c.sent), c.effective, c.arg, c.limit, c.member, c.pkg⟩ } }) ∧
    ((acceptLive s c false).isSome → m.state ≠ 3 →
      (mine → let x : State := { v with moot := { v.moot with params := m.params ++ [c.effective] } }
        ∃ t, exec (.rparam c) s = .next t ∧ t.moot = x.moot ∧ t.ctx = s.ctx ∧ t.mem = s.mem ∧
          (joinersOf [c.effective] = [] → t = x)) ∧
      (¬mine → exec (.rparam c) s = .next v)) ∧
    ((acceptLive s c false).isSome → m.state = 3 →
      exec (.rparam c) s = .next { v with moot := { v.moot with planParams := m.planParams ++ [c.effective] } }) ∧
    (roundSendDue s = false → exec .roundSend s = .next s) ∧
    (roundSendDue s = true → m.joins = [] → m.leaves = [] → m.silents = [] → ∃ t d, exec .roundSend s = .next t ∧
      t.moot.decision = some d ∧ (m.alone = false → d.toNat ≤ m.cfgGmax.toNat) ∧ t.moot.sentRound = true ∧
      (∀ x ∈ m.alive, d.toNat ≤ (m.postingOf x).toNat) ∧
      (m.alone = true → t.moot.outbox = m.outbox) ∧
      (m.alone = false → ∃ y z, t.moot.outbox = m.outbox ++ [(3, y), (7, z)] ∧ y.effective = m.tick ∧ y.limit = d ∧
        y.arg = m.round ∧ z.arg = m.round ∧ z.effective = 0#32 ++ m.cfgGmax ++ m.cfgSilto ++ m.cfgLead)) ∧
    (joinDue s = none → roundDue s = false → exec .roundTick s = .next s) ∧
    (joinDue s = none → roundDue s = true → ∃ t, exec .roundTick s = .next t ∧ t.moot.round = m.round + 1 ∧
      t.moot.tick = m.tick + BitVec.ofNat 64 (25000 * t.moot.gceil.toNat) ∧ t.moot.deadline = m.reached ∧
      t.moot.decision = none ∧ t.moot.params = [] ∧ t.moot.missed = false ∧ t.moot.sentRound = false ∧ t.bell = s.bell ∧
      (m.slot ∈ m.parting → t.moot.gceil = m.lowered (dueCriers s)) ∧
      (m.slot ∉ m.parting → m.holdsRound = false ∨ m.missed = true → t.moot.gceil = m.gceil) ∧
      (m.slot ∉ m.parting → m.holdsRound = true → m.missed = false → m.criers = [] →
        (m.alone = false → m.decision = some t.moot.gceil) ∧
        (m.alone = true → joinersOf m.params = [] → ∀ d, m.decision = some d →
          t.moot.gceil.toNat = min d.toNat m.cfgGmax.toNat ∧ t.moot.gmax = m.cfgGmax))) ∧
    (missDue s = false → exec .roundMiss s = .next s) ∧
    (missDue s = true → ∃ t y, exec .roundMiss s = .next t ∧ t.moot.missed = true ∧
      t.moot.rmiss.toNat = min (m.rmiss.toNat + 1) 65535 ∧ t.moot.outbox = m.outbox ++ [(1, y)] ∧ y.limit = m.gceil ∧ y.cause = 7 ∧
      y.effective = s.bell + BitVec.ofNat 64 m.earliest) ∧
    let x := getPart s p
    (x.eqEn = false ∨ x.exh = true → exec (.quotaExhausted p) s = .next s) ∧
    (x.eqEn = true → x.exh = false → ∃ t, exec (.quotaExhausted p) s = .next t ∧ (getPart t p).exh = true ∧ t.mem = s.mem ∧
      (x.eqAction = false → s.ctx.part = p → t.ctx = { s.ctx with paceExtra := x.eqExtra }) ∧
      (x.eqAction = true → s.ctx.part = p → s.ctx.stop = none → s.ctx.status = .running → ∃ st, t.ctx.status = .stopped ∧
        t.ctx.stop = some st ∧ st.info.code = .energyQuota ∧ st.info.tag = 0 ∧ st.was = .running))

/-- R461 to R465: heartbeats are sent and noted; a member that is not heard is declared silent by the coordinator and reported
by another; joins and leaves reach the coordinator, by the commands of a member or by its messages, and a join that it may not
grant is refused. The forms of a report and of a refusal, and the joining bit in EFFECTIVE, are the model's choice (assumption 79);
the rack ID in EFFECTIVE is assumption 55; that a member that does not coordinate forwards JOIN and LEAVE, the tick of a LEAVE, the
row that an unknown heartbeat adds, and code 96 for a posting that is not known are assumption 56. -/
def Obligations.MootMembers : Prop :=
  ∀ (c : MootMsg) (slot : BitVec 8) (s : State),
    let m := s.moot
    let v : State := { s with moot := { m.heard c with seen := m.seen ++ [(c.member, c.seqNo)] } }
    let own (y : MootMsg) : Prop := y.member = m.slot ∧ y.sent = s.bell ∧ y.gid = m.gid ∧ y.seqNo = m.seqNo
    let sends (t : State) (ty : BitVec 4) (q : MootMsg → Prop) : Prop :=
      t.moot.seqNo = m.seqNo + 1 ∧ ∃ y, t.moot.outbox = m.outbox ++ [(ty, y)] ∧ own y ∧ q y
    let named : BitVec 8 := c.arg.extractLsb' 0 8
    let known : Prop := ∃ x ∈ m.members, x.slot = c.member ∧ x.pkg = c.pkg ∧ x.left = false
    let free : Prop := (m.state = 1 ∨ m.state = 2) ∧ ∀ x ∈ m.alive, x.slot ≠ c.member
    let joining : Bool := c.effective.getLsbD 16
    (heartbeatDue s = false → exec .heartbeatSend s = .next s) ∧
    (heartbeatDue s = true → ∃ t, exec .heartbeatSend s = .next t ∧
      (m.alone = true → m.state ≠ 3 → t.moot.outbox = m.outbox) ∧
      (m.alone = false ∨ m.state = 3 → sends t 2 (fun y => y.limit = m.post ∧ y.arg = m.round)) ∧
      t.moot.hbNext = (if m.hbNext ≤ m.time then m.time + refMicros 20 else m.hbNext) ∧
      t.moot.members = (m.updMember m.slot (fun x => x.posted s.bell m.post)).members ∧ heartbeatDue t = false) ∧
    ((if joining then accept s c true else acceptLive s c true) = none → exec (.heartbeat c) s = .next s) ∧
    (accept s c false = none → exec (.join c) s = .next s) ∧
    (acceptLive s c false = none → exec (.leave c) s = .next s ∧ exec (.silent c) s = .next s) ∧
    (joining = true → (accept s c true).isSome →
      (isCoord v = true → exec (.heartbeat c) s = .next { v with moot := { v.moot with
        joins := m.joins.map fun j => if j.pkg = c.pkg then { j with posting := c.limit } else j } }) ∧
      (isCoord v = false → m.state = 1 ∨ m.state = 2 → ∃ t, exec (.heartbeat c) s = .next t ∧
        sends t 2 (fun y => y.pkg = c.pkg ∧ y.limit = c.limit ∧ y.arg = c.arg ∧ y.effective = c.effective)) ∧
      (isCoord v = false → m.state ≠ 1 → m.state ≠ 2 → exec (.heartbeat c) s = .next v)) ∧
    (joining = false → (acceptLive s c true).isSome →
      (known → ∃ t, exec (.heartbeat c) s = .next t ∧
        (∀ y ∈ t.moot.members, y.slot = c.member → y.pkg = c.pkg → y.left = false → y.heardAt = m.time ∧
          y.rack = c.effective.extractLsb' 0 16 ∧ (c.sent, c.limit) ∈ y.later) ∧
        ∀ y ∈ m.members, y.slot ≠ c.member → y ∈ t.moot.members) ∧
      (¬known → free → ∃ t, exec (.heartbeat c) s = .next t ∧
        ⟨c.member, c.pkg, true, c.limit, c.effective.extractLsb' 0 16, m.time, false, [], false⟩ ∈ t.moot.members) ∧
      (¬known → ¬free → exec (.heartbeat c) s = .next v)) ∧
    (let late := ∃ x ∈ m.alive, x.slot = slot ∧ slot ≠ m.slot ∧ m.siltoTime ≤ m.time - x.heardAt
     (¬late → exec (.peerSilenceTimeout slot) s = .next s) ∧
     (late → isCoord s = true → ∃ t, exec (.peerSilenceTimeout slot) s = .next t ∧
       sends t 6 (fun y => y.arg.toNat = slot.toNat ∧ y.effective = s.bell + BitVec.ofNat 64 m.earliest) ∧
       t.moot.silents = m.silents ++ [(slot, s.bell + BitVec.ofNat 64 m.earliest)]) ∧
     (late → isCoord s = false → ∃ t, exec (.peerSilenceTimeout slot) s = .next t ∧
       sends t 6 (fun y => y.arg.toNat = slot.toNat ∧ y.effective = 0) ∧ t.moot.silents = m.silents)) ∧
    ((acceptLive s c false).isSome →
      (c.effective ≠ 0 → ∃ t, exec (.silent c) s = .next t ∧
        t.moot.silents = m.silents ++ (if named = m.slot then [] else [(named, c.effective)]) ∧
        t.moot.late.toNat = if c.effective.toNat < s.bell.toNat then min (m.late.toNat + 1) 65535 else m.late.toNat) ∧
      (let fresh : Prop := isCoord v = true ∧ named ≠ m.slot ∧ (∃ x ∈ m.alive, x.slot = named) ∧ ∀ q ∈ m.silents, q.1 ≠ named
       c.effective = 0 → (¬fresh → exec (.silent c) s = .next v) ∧
         (fresh → ∃ t, exec (.silent c) s = .next t ∧
           sends t 6 (fun y => y.arg.toNat = named.toNat ∧ y.effective = s.bell + BitVec.ofNat 64 m.earliest)))) ∧
    ((accept s c false).isSome →
      (c.effective = BitVec.allOnes 64 → exec (.join c) s = .next (if m.state = 3 ∧ named = m.slot then
        { v with moot := { v.moot with refused := true, state := 0, plan := none, planParams := [], planCriers := [] } } else v)) ∧
      (c.effective ≠ BitVec.allOnes 64 → m.state = 3 → exec (.join c) s = .next v) ∧
      (let full : Prop := 143 < named.toNat ∨ 144 ≤ m.alive.length + m.joins.length ∨ (∃ x ∈ m.alive, x.slot = named) ∨
         ∃ j ∈ m.joins, j.slot = named
       let code : BitVec 8 := if 32 ≤ c.limit.toNat ∧ c.limit.toNat ≤ 96 then c.limit else 96
       c.effective ≠ BitVec.allOnes 64 → m.state ≠ 3 →
         (isCoord v = true → ¬full → ∃ t, exec (.join c) s = .next t ∧ t.moot.joins = m.joins ++ [⟨named, c.pkg, s.bell, code⟩]) ∧
         (isCoord v = true → full → ∃ t, exec (.join c) s = .next t ∧ t.moot.joins = m.joins ∧
           sends t 4 (fun y => y.arg = c.arg ∧ y.effective = BitVec.allOnes 64)) ∧
         (isCoord v = false → ∃ t, exec (.join c) s = .next t ∧ t.moot.joins = m.joins ∧
           sends t 4 (fun y => y.arg = c.arg ∧ y.pkg = c.pkg ∧ y.limit = c.limit)))) ∧
    ((acceptLive s c false).isSome →
      (isCoord v = true → exec (.leave c) s = .next { v with moot := { v.moot with leaves := m.leaves ++ [(named, s.bell)] } }) ∧
      (isCoord v = false →
        (c.member = m.coordSlot → c.effective = m.tick →
          exec (.leave c) s = .next { v with moot := { v.moot with parting := m.parting ++ [named] } }) ∧
        (c.member ≠ m.coordSlot ∨ c.effective ≠ m.tick → ∃ t, exec (.leave c) s = .next t ∧ sends t 5 (fun y => y.arg = c.arg)))) ∧
    (let enabled := ∃ p : BitVec 4, (getPart s p).en = true ∧ (getPart s p).halted = false
     let r : State := { s with moot := { m with refused := true } }
     (m.alone = false ∨ enabled ∨ m.state = 3 → exec (.mootJoinCommand slot) s = .next r) ∧
     (m.alone = true → ¬enabled → m.state ≠ 3 → ∃ t, exec (.mootJoinCommand slot) s = .next t ∧ t.moot.state = 3 ∧
       t.moot.slot.toNat = min slot.toNat 143 ∧ ∃ y, t.moot.outbox = m.outbox ++ [(4, y)] ∧ y.arg.toNat = min slot.toNat 143) ∧
     (m.state ≠ 1 → m.state ≠ 2 → exec .mootLeaveCommand s = .next r) ∧
     (m.state = 1 ∨ m.state = 2 → ∃ t, exec .mootLeaveCommand s = .next t ∧ t.moot.state = 4 ∧
       (isCoord s = true → t.moot.leaves = m.leaves ++ [(m.slot, s.bell)]) ∧
       (isCoord s = false → sends t 5 (fun y => y.arg.toNat = m.slot.toNat))))

/-! ### Links, the host port and start-up (chapter 14) -/

/-- R477 to R480 and R483: a port that is up takes sound flits in sequence, acknowledges each and delivers it once, asks for a
resend of a damaged or unexpected one, resends what is not acknowledged and goes down after RMAX resends, when what it had not
had acknowledged or answered goes another way or waits; training and the far end's OFF change its state and width, and the lane whose
damaged flits reach LTHR is retired, which may have the port retrain. One control flit for each accepted flit, the answer that a
request waits for and the time of a retraining are assumption 58. -/
def Obligations.LinkPorts : Prop :=
  ∀ (p : Nat) (f : List Byte) (peer : BitVec 10) (lane : BitVec 3) (s : State), p < 24 →
    let x := getPort s p
    let live : Prop := x.state = 2 ∨ x.state = 4
    let h := flitHeader f
    let keeps (t : State) : Prop := t.ctx = s.ctx ∧ t.mem = s.mem
    let others (t : State) : Prop := (∀ q, q ≠ p → getPort t q = getPort s q) ∧ keeps t
    let mine : List Outbound := x.unanswered ++ x.replayBuf.map (·.out)
    let loses : Prop := ∃ o ∈ s.outq ++ mine, o.cls = 0 ∧ silentPkg s o.dpkg.toNat = true
    let dropped (t : State) : Prop := (getPort t p).width = 0 ∧ (getPort t p).replayBuf = [] ∧ t.mem = s.mem ∧
      (¬loses → t.ctx = s.ctx ∧ (mine = [] → s.outq = [] → others t) ∧
        ∀ y ∈ mine, ∃ n, { y with since := n } ∈ t.outq ∨
          ∃ q, q ≠ p ∧ ∃ z ∈ (getPort t q).replayBuf, z.out = { y with since := n })
    let down (t : State) : Prop := (getPort t p).state = 3 ∧ t.reports = s.reports ++ [.linkDown p] ∧ dropped t
    let again (t : State) : Prop := (getPort t p).sent = x.sent ++ x.replayBuf.map (·.bytes) ∧
      (getPort t p).replay.toNat = min (x.replay.toNat + x.replayBuf.length) (2 ^ 32 - 1) ∧
      (getPort t p).resends = x.resends + 1 ∧ (getPort t p).state = x.state ∧ others t
    (¬live → exec (.flitReceive p f) s = .next s ∧ exec (.replayTimeout p) s = .next s) ∧
    (live → x.retrain ≠ none → exec (.flitReceive p f) s = .next s) ∧
    (live → x.retrain = none → flitDamaged f = true → ∀ l r, x.damagedBy = l :: r → l.toNat ≤ 4 →
      x.badlane.getLsbD l.toNat = false → x.laneHits.getD l.toNat 0 + 1 = max 1 x.lthr.toNat → 3 ≤ x.sound →
      ∃ t, exec (.flitReceive p f) s = .next t ∧ (getPort t p).badlane = x.badlane ||| (1#5 <<< l.toNat)) ∧
    (live → x.retrain = none → flitDamaged f = true → x.damagedBy = [] → ∃ t, exec (.flitReceive p f) s = .next t ∧ others t ∧
      (getPort t p).damaged.toNat = min (x.damaged.toNat + 1) (2 ^ 32 - 1) ∧ (getPort t p).delivered = x.delivered ∧
      (getPort t p).rxNext = x.rxNext ∧
      (getPort t p).sent = x.sent ++ (if x.naked then [] else [controlFlit s x.rxNext true x.peer])) ∧
    (live → x.retrain = none → flitDamaged f = false → h.getLsbD 16 = false → h.extractLsb' 17 3 ≠ 4 → ∃ t, exec (.flitReceive p f) s = .next t ∧
      (h.extractLsb' 0 8 = x.rxNext → (getPort t p).rxNext = x.rxNext + 1 ∧ (getPort t p).naked = false ∧
        (getPort t p).delivered = (if x.state = 4 ∧ h.extractLsb' 17 3 = 0 then x.delivered else x.delivered ++ [f]) ∧
        controlFlit s (x.rxNext + 1) false x.peer ∈ (getPort t p).sent ∧ (h.extractLsb' 17 3 ≠ 3 → t.inbox = s.inbox)) ∧
      (h.extractLsb' 0 8 ≠ x.rxNext → (getPort t p).rxNext = x.rxNext ∧ (getPort t p).delivered = x.delivered ∧
        (getPort t p).naked = true)) ∧
    (live → x.replayBuf = [] → exec (.replayTimeout p) s = .next s) ∧
    (live → x.replayBuf ≠ [] → ∃ t, exec (.replayTimeout p) s = .next t ∧
      (x.resends < x.rmax.toNat → again t) ∧ (x.rmax.toNat ≤ x.resends → down t)) ∧
    (∃ t, exec (.linkDown p) s = .next t ∧ down t) ∧
    (x.en = false ∨ x.sound < 2 → exec (.linkUp p peer) s = .next s) ∧
    (x.en = true → 2 ≤ x.sound → ∃ t, exec (.linkUp p peer) s = .next t ∧ (getPort t p).state = 2 ∧ (getPort t p).peer = peer ∧
      (getPort t p).width = (if 4 ≤ x.sound then 2 else 1) ∧ (getPort t p).rxNext = 0 ∧
      t.reports = s.reports ++ [.linkUp p] ∧ keeps t ∧
      (s.outq = [] → (getPort t p).txNext = 0 ∧ (getPort t p).replayBuf = [] ∧ others t)) ∧
    (∃ t, exec (.linkOff p) s = .next t ∧ (getPort t p).state = 0 ∧ dropped t) ∧
    (4 < lane.toNat ∨ x.badlane.getLsbD lane.toNat = true → exec (.laneSpare p lane) s = .next s) ∧
    (lane.toNat ≤ 4 → x.badlane.getLsbD lane.toNat = false → ∃ t, exec (.laneSpare p lane) s = .next t ∧ t.mem = s.mem ∧
      (getPort t p).badlane = x.badlane ||| (1#5 <<< lane.toNat) ∧
      (getPort t p).lspare = (x.lspare || decide (x.badlane = 0 ∧ lane ≠ 4)) ∧
      (3 ≤ x.sound → others t ∧ (getPort t p).width = x.width ∧
        let w : BitVec 2 := if x.sound = 5 then 2 else 1
        (getPort t p).retrain = if x.width ≠ 0 ∧ w ≠ x.width then some (s.moot.time + refMicros 10) else x.retrain) ∧
      (x.sound < 3 → (getPort t p).state = 3))

/-- R482, R486 to R489, R394 and R488: a wait for an unreachable package of no group ends; the host port reads and writes
memory and registers, and answers nothing where nothing is mapped; a virtual function sees its own queues alone; an error in a
completion from the host ends the access as an aborted translation. That an access before start-up stage 4, or after a failure, is
refused is assumption 59, that accesses of other sizes are is assumption 60. -/
def Obligations.HostAccess : Prop :=
  ∀ (r : HostReq) (pkg : BitVec 10) (id : Nat) (off : Nat) (v : BitVec 64) (s : State),
    let answered (t : State) (b : List Byte) : Prop := t.host.reads = s.host.reads ++ [b] ∧ t.ctx = s.ctx
    let refused : State := { s with reports := s.reports ++ [.hostError r.offset] }
    let trained : Prop := r.fn = .management ∨ (4 ≤ s.host.stage.toNat ∧ s.host.fail = 0)
    (inGroup s pkg.toNat = true → exec (.routeWaitTimeout pkg) s = .next s) ∧
    (inGroup s pkg.toNat = false → routeOps s pkg.toNat = [] → ∃ t, exec (.routeWaitTimeout pkg) s = .next t ∧
      .unreachable pkg ∈ t.reports ∧ t.mem = s.mem ∧
      (routeEngines s pkg.toNat = [] → (∀ o ∈ s.outq, o.dpkg = pkg → requestExpired s o = false) → t.ctx = s.ctx) ∧
      (∀ e l, routeEngines s pkg.toNat = e :: l → s.ctx.stop = none → s.ctx.status = .running → ∃ st, t.ctx.stop = some st ∧
        t.ctx.status = .stopped ∧ st.info.code = .peerSilent)) ∧
    (¬trained → exec (.hostBarAccess r) s = .next refused) ∧
    (trained → hostPlace s r (opSize r.op) = .none → exec (.hostBarAccess r) s = .next refused) ∧
    (trained → ∀ ks, hostPlace s r (opSize r.op) = .mem ks →
      (r.bar ≠ 2 ∨ NoAlias s →
        (∀ n, r.op = .read n → ∃ t, exec (.hostBarAccess r) s = .next t ∧
          answered t (ks.map fun k => if r.bar = 2 then homeByte s k else memGet s.mem k) ∧ t.mem = s.mem) ∧
        (∀ d, r.op = .write d → s.MemOk → ks.Nodup → d.length = ks.length → (∀ k ∈ ks, armedLine s k = false) →
          ∃ t, exec (.hostBarAccess r) s = .next t ∧ t.ctx = s.ctx ∧ t.reports = s.reports ∧
            (∀ j (hj : j < ks.length), memGet t.mem ks[j] = d.getD j 0) ∧ (∀ k, k ∉ ks → memGet t.mem k = memGet s.mem k))) ∧
      ((∀ n, r.op ≠ .read n) → (∀ d, r.op ≠ .write d) → exec (.hostBarAccess r) s = .next refused)) ∧
    (trained → ∀ q reg n, hostPlace s r (opSize r.op) = .queue q reg → r.op = .read n → ∀ p, r.fn = .virt p →
      let w := getWq s q
      (w.part = p → w.en = true → ∃ t, exec (.hostBarAccess r) s = .next t ∧
        answered t (((leBytes 8 (wqRead s q (reg / 8 * 8)).toNat).drop (reg % 8)).take n) ∧ t.disp = s.disp) ∧
      (w.part ≠ p → ∃ t, exec (.hostBarAccess r) s = .next t ∧ answered t (List.replicate n 0) ∧ t.disp = s.disp ∧
        t.host.lastvf = p ∧ t.host.refused.toNat = min (s.host.refused.toNat + 1) (2 ^ 32 - 1))) ∧
    (findOp s id = none → ∀ b, exec (.hostCompletion id b) s = .next s) ∧
    (∀ o, findOp s id = some o →
      (∃ t o', exec (.hostCompletion id false) s = .next t ∧ findOp t id = some o' ∧ o'.due = min o.due s.cycle ∧
        o'.kind = o.kind ∧ o'.ws = o.ws ∧ t.ctx = s.ctx ∧ t.mem = s.mem) ∧
      (∀ acq f tag, o.kind = .load acq f tag → ∃ t o', exec (.hostCompletion id true) s = .next t ∧ findOp t id = some o' ∧
        o'.kind = .load acq (some (.translation, o.addr)) tag ∧ t.ctx = s.ctx ∧ t.mem = s.mem) ∧
      ((∀ acq f tag, o.kind ≠ .load acq f tag) → ∀ v, hostPage s o = some v → exec (.hostCompletion id true) s =
        .next (updateOp s id fun y => { y with due := min y.due s.cycle, aborted := y.aborted ++ [v] }))) ∧
    (off % 2 ^ 29 < 2 ^ 28 ∨ 2 ^ 32 ≤ off → exec (.registerWrite off v) s =
      .next { s with reports := s.reports ++ [.hostError off] }) ∧
    (∀ die o, off = die * 2 ^ 29 + 2 ^ 28 + o → die < 8 → o < 2 ^ 28 → ∃ t, exec (.registerWrite off v) s = .next t ∧
      (∀ n, ctrlReg die o = .route n → getAssoc t.routes (die * 1024 + n) 0 = v &&& 0x8000000000FFFFFF#64 ∧ t.ctx = s.ctx) ∧
      (ctrlReg die o = .none → t = { s with reports := s.reports ++ [.hostError o] }) ∧
      (∀ q, ctrlReg die o = .wq q 0 → (getWq s q).en = false → (getWq t q).base = v.extractLsb' 7 45))

/-- R483, R490 to R493 and Table 14.4: start-up goes on stage by stage or stops with its code, stages 5 and 6 always succeed, and
stage 3 exchanges the planes where the shadow's CRC is right; a control-path error halts every partition of its die; quiesce,
restore and a new package number act under their conditions alone; a power fault keeps nothing and only a power-on reset ends it.
That dual mode comes back only with both counters below THRESH, what a reset keeps, and that the member takes the new package
number are assumption 61; that stage 3 does nothing once the planes have been exchanged is assumption 59. -/
def Obligations.PowerAndStartup : Prop :=
  ∀ (ok : Bool) (code : BitVec 8) (die : BitVec 3) (core : BitVec 8) (path : BitVec 2) (number : BitVec 10) (s : State),
    let again : State := { State.reset with
      script := s.script, sensed := s.sensed, softErrors := s.softErrors, delays := s.delays, free := s.free, coreNo := s.coreNo }
    let pending : Prop := s.host.stage.toNat < 7 ∧ s.host.fail = 0
    exec .reset s = .next again ∧
    (∃ t, exec .powerOnReset s = .next t ∧ t = { again with script := t.script } ∧
      ∀ x, x ∈ t.script ↔ x ∈ s.script ∧ x.2 ≠ .powerOnReset) ∧
    (∃ t, exec .powerFault s = .next t ∧ t.host.powered = false) ∧
    (s.host.powered = false → (∀ x ∈ s.script, x.2 ≠ .powerOnReset) → step s = .fault .noPower) ∧
    (¬pending → exec (.startupStage ok code) s = .next s) ∧
    (let good : Prop := crc32c ((List.range 0xFFC).map (memGet s.disp.shadow)) =
       BitVec.ofNat 32 (leValue ((List.range 4).map fun i => memGet s.disp.shadow (0xFFC + i)))
     let swaps : Prop := s.host.stage = 3 ∧ s.disp.last ≠ 1
     (pending → ¬swaps ∨ good → ∃ t, exec (.startupStage true code) s = .next t ∧ t.host.stage = s.host.stage + 1 ∧
       t.host.fail = 0 ∧ .startup s.host.stage.toNat true ∈ t.reports ∧
       (swaps → t.disp.plane = s.disp.shadow ∧ t.disp.shadow = s.disp.plane) ∧
       (s.host.stage = 4 → ∀ p, p < 24 → (getPort s p).en = true → (getPort t p).state = 1) ∧
       (s.host.stage = 5 → ∀ p, p < 24 → (getPort s p).state = 1 → (getPort t p).state = 3) ∧
       (s.host.stage = 1 → ∀ r ∈ t.regions, r.2.en = false)) ∧
     (pending → swaps → ¬good → ∃ t, exec (.startupStage true code) s = .next t ∧ t.host.stage = 3 ∧ t.host.fail = 0x20 ∧
       t.disp.plane = s.disp.plane ∧ .startup 3 false ∈ t.reports)) ∧
    (pending → s.host.stage = 5 ∨ s.host.stage = 6 → exec (.startupStage false code) s = exec (.startupStage true code) s) ∧
    (pending → s.host.stage ≠ 5 → s.host.stage ≠ 6 → ∃ t, exec (.startupStage false code) s = .next t ∧
      t.host.stage = s.host.stage ∧ t.host.fail = code ∧ t.reports = s.reports ++ [.startup s.host.stage.toNat false]) ∧
    (∃ t, exec (.controlPathError die) s = .next t ∧ .controlPath die ∈ t.reports ∧ t.mem = s.mem ∧
      ∀ p : BitVec 4, (getPart s p).en = true → (getPart t p).halted =
        ((getPart s p).halted || decide ((getPart s p).qmask.extractLsb' (8 * die.toNat) 8 ≠ 0))) ∧
    ((∃ x ∈ s.ports, x.state ≠ 0) → exec (.pkgnum number) s = .next s) ∧
    ((∀ x ∈ s.ports, x.state = 0) → ∃ t, exec (.pkgnum number) s = .next t ∧ t.pkgNo = number ∧ t.ctx = s.ctx ∧
      ∀ x ∈ t.moot.members, x.slot = s.moot.slot → x.left = false → x.pkg = number) ∧
    (s.host.restoring = none → (core ≠ s.coreNo ∨ quadHalted s core = false → exec (.restore core path) s = .next s) ∧
      (core = s.coreNo → quadHalted s core = true → exec (.restore core path) s =
        .next { s with host := { s.host with restoring := some (core, path) } })) ∧
    (∀ c q, s.host.restoring = some (c, q) →
      (drainPoint s = false → exec (.restore core path) s = .next s) ∧
      (drainPoint s = true → ∃ t, exec (.restore core path) s = .next t ∧ t.host.restoring = none ∧
        t.mx.merr = (if q.getLsbD 0 then 0 else s.mx.merr) ∧ t.mx.qerr = (if q.getLsbD 1 then 0 else s.mx.qerr) ∧
        (s.mx.thresh = 0 ∨ (t.mx.merr.toNat < s.mx.thresh.toNat ∧ t.mx.qerr.toNat < s.mx.thresh.toNat) → t.mx.mode = .dual) ∧
        (s.mx.thresh ≠ 0 → s.mx.thresh.toNat ≤ t.mx.merr.toNat ∨ s.mx.thresh.toNat ≤ t.mx.qerr.toNat → t.mx.mode = s.mx.mode))) ∧
    (s.host.stage = 8 → exec .quiesce s = .next s) ∧
    (s.host.stage ≠ 8 → s.host.quiescing = false → ∃ t, exec .quiesce s = .next t ∧ t.host.quiescing = true ∧
      (∀ p, (getPart s p).en = true → (getPart t p).halted = true) ∧
      (s.moot.state = 1 ∨ s.moot.state = 2 → t.moot.state = 4)) ∧
    (s.host.stage ≠ 8 → s.host.quiescing = true → quiesceReady s = true →
      ((∃ x ∈ s.ports, x.state = 2) → ∃ t, exec .quiesce s = .next t ∧ ∀ x ∈ t.ports, x.state ≠ 2) ∧
      ((∀ x ∈ s.ports, x.state ≠ 2) → portsDraining s = false → ∃ t, exec .quiesce s = .next t ∧ t.host.stage = 8 ∧
        t.host.quiescing = false ∧ ∀ x ∈ t.ports, x.state = 0 ∧ x.width = 0))

/-! ### The whole machine -/

/-- R161, R426, R9 and the Reset columns: what the machine holds after power-on reset. -/
def Obligations.ResetState : Prop :=
  let s := State.reset
  s.BytesOk ∧ (∀ g, granuleFull s g = false) ∧ (∀ c, tokGet s c = 0) ∧ (∀ n, n < 64 → readV s n = 0) ∧
  (∀ n, n ≠ 0 → readP s n = 0) ∧
  (∀ p ∈ [s.mx.mill, s.mx.quern], p.active.st = .empty ∧ p.shadow.st = .empty ∧ p.map = [] ∧
    ∀ z, (p.tile z).w.toInt = -32 ∧ ∀ m n, (p.tile z).get m n = AccElem.zero) ∧
  s.mx.pound = [] ∧ s.ctx.mx.ref = false ∧ (∀ k, memGet s.ctx.imem k = 0) ∧
  sysRead s 0x010 = 1024 ∧ sysRead s 0x013 = 12 ∧ sysRead s 0x014 = 0x04000400 ∧ sysRead s 0x043 = 0 ∧ sysRead s 0x044 = 0 ∧
  (∀ n ∈ [0x030, 0x031, 0x032, 0x033, 0x050, 0x051, 0x052, 0x053, 0x060, 0x061, 0x062, 0x063], sysRead s n = 0) ∧
  (∀ q, (getWq s q).en = false ∧ (getWq s q).live = 0) ∧ (∀ p, (getPart s p).en = false) ∧ ∀ r ∈ s.regions, r.2.en = false

/-- Chapters 2 to 12, the encodings worked out in the text: each pair of words decodes to the instruction that the spec gives
with it. -/
def Obligations.WorkedEncodings : Prop :=
  let plain : Hdr := ⟨false, false, false, false, 0⟩
  decode 0x0410000A 0 = some (.addi 1 0 10) ∧
  decode 0x02210C00 0 = some (.add 2 2 3) ∧
  decode 0x30100800 0 = some (.loop 1 2 0) ∧
  decode 0x32802842 0 = some (.loopm 8 10 4 2) ∧
  decode 0x8000006A 0x81000000 = some (.ld plain 0 0 3 1 0 2 16 2 0 0) ∧
  decode 0x80001112 0x29000000 = some (.st plain 0 1 0 2 0 2 5 2 0 0) ∧
  decode 0xB0002400 0x8A104000 = some (.vmul plain 8 0 0 34 33 1 0) ∧
  decode 0xA9008140 0x3200007E = some (.mstream ⟨true, false, false, true, 0⟩ 0 0 1 1 0 0 3 4 0 0 0 63) ∧
  decode 0xA0100000 0x08860000 = some (.mpert plain 1 2 3) ∧
  decode 0x90000280 0x65846400 = some (.bcopy plain 2 1 0 6 5 16 17 18) ∧
  decode 0xA0180005 0x80000000 = some (.rstat plain 5 16) ∧
  decode 0xD0003000 0x54846530 = some (.caxpy plain 0 5 4 16 17 18 19)

/-- R59, R60, R64, R65 and R7: a powered machine runs the event at the head of its inbox, and otherwise, in the turn of an engine,
what is served ahead of its slot (R162); where nothing is, the engine may walk and nothing holds it, it runs the instruction that
its words decode to: a control word alone, a private instruction of the engine with its operand word, a reserved tag by itself;
after it the turn is the next engine's. -/
def Obligations.StepRunsDecoded : Prop :=
  ∀ (s : State) (e : Engine) (w v : Word32) (i : Instr), s.host.powered = true →
    (∀ j r, s.inbox = j :: r → step s = exec j { s with inbox := r }) ∧
    (∀ j r, s.inbox = [] → s.turn = .eng e → dueBefore s e = j :: r → step s = exec j s) ∧
    (let x := s.eng e
     s.inbox = [] → s.turn = .eng e → dueBefore s e = [] → engineRuns s e = true → slipHeld s e = false → s.mx.parked = none →
      (∀ m, x.seq = some m → m.between = false ∧ m.live m.stage = true ∧ loopmForbidden i = false) →
      fetchWord s e x.pc = some w → stallHeld s e = false → carryOver s e = false →
      (w.getLsbD 31 = true → reservedTag e w = true →
        step s = afterSlot e (exec (.reservedEncoding w ((fetchWord s e (x.pc + 4)).getD 0)) s)) ∧
      (w.getLsbD 31 = false → decode w 0 = some i → step s = afterSlot e (exec i s)) ∧
      (w.getLsbD 31 = false → decode w 0 = none → step s = afterSlot e (exec (.reservedEncoding w 0) s)) ∧
      (w.getLsbD 31 = true → fetchWord s e (x.pc + 4) = some v → pairBroken x = false → privateHeld s e = none →
        (e = .thr → w.extractLsb' 28 3 = 4) → (e ≠ .thr → tagOwner (w.extractLsb' 28 3) = some e) →
        (decode w v = some i → step s = afterSlot e (exec i s)) ∧
        (decode w v = none → step s = afterSlot e (exec (.reservedEncoding w v) s))))

/-- Every instruction completes its step: exec answers a next state for every instruction and every state, so that nothing is
refused, and a machine with power always steps. -/
def Obligations.EveryStepCompletes : Prop :=
  (∀ (i : Instr) (s : State), ∃ t, exec i s = .next t) ∧
  (∀ s : State, s.host.powered = true → Steps s) ∧
  ∀ (s : State) (r : Refusal), step s ≠ .refused r

/-- Decoding and encoding agree: every instruction of program text, with every operand at every value, decodes from its words,
and every word that decodes is the encoding of what it decodes to, with no bit dropped. -/
def Obligations.EncodingRoundTrip : Prop :=
  (∀ (i : Instr) (w v : Word32), encode i = some [w] → decode w v = some i) ∧
  (∀ (i : Instr) (w v : Word32), encode i = some [w, v] → decode w v = some i) ∧
  (∀ (w v : Word32) (i : Instr), decode w v = some i → encode i = some (if w.getLsbD 31 then [w, v] else [w])) ∧
  ∀ (i j : Instr) (l : List Word32), encode i = some l → encode j = some l → i = j

/-- The invariant of memory: in every step from a state whose bytes, those of memory and the dirty ones of every cache, are
listed in canonical form, they stay so. -/
def Obligations.BytesStayCanonical : Prop :=
  ∀ (s t : State), s.BytesOk → step s = .next t → t.BytesOk
end

