-- ==== Sys2Proof/Laws/Memory.lean ====
section
/-! SUPPORT. Memory and the bytes of the caches: what is read after a write, and that every memory operation keeps the canonical
form (`Memory.wf`, `Cache.Ok`, together `State.BytesOk`) and changes nothing beside memory and the caches (`OnlyBytes`). -/
namespace Sys2Proof.Laws
open Sys2Proof.Machine

/-! ### The byte list -/

theorem memWfFrom_mono {lo lo' : Nat} (h : lo' ≤ lo) : ∀ m : Mem, memWfFrom lo m = true → memWfFrom lo' m = true
  | [], _ => rfl
  | (k, b) :: r, w => by
    simp only [memWfFrom, Bool.and_eq_true, decide_eq_true_eq] at w ⊢
    exact ⟨⟨Nat.le_trans h w.1.1, w.1.2⟩, w.2⟩

/-- Nothing is listed below the lower bound. -/
theorem memGet_below {lo a : Nat} (h : a < lo) : ∀ m : Mem, memWfFrom lo m = true → memGet m a = memDefault
  | [], _ => rfl
  | (k, b) :: r, w => by
    simp only [memWfFrom, Bool.and_eq_true, decide_eq_true_eq] at w
    have hk : ¬a = k := by omega
    simp only [memGet, if_neg hk]
    exact memGet_below (by omega) r w.2

/-- A written byte is read back, and every other byte reads as before. -/
theorem memGet_memSet_from (a : Nat) (b : Byte) (k : Nat) : ∀ (lo : Nat) (m : Mem), memWfFrom lo m = true →
    memGet (memSet m a b) k = if k = a then b else memGet m k
  | _, [], _ => by
    unfold memSet
    by_cases hb : b = memDefault
    · by_cases hk : k = a <;> simp [hb, hk, memGet]
    · by_cases hk : k = a <;> simp [hb, hk, memGet]
  | lo, (c, d) :: r, w => by
    simp only [memWfFrom, Bool.and_eq_true, decide_eq_true_eq] at w
    unfold memSet
    by_cases h1 : a < c
    · rw [if_pos h1]
      by_cases hb : b = memDefault
      · rw [if_pos hb]
        by_cases hk : k = a
        · rw [if_pos hk, hb, hk]
          have hc : ¬a = c := by omega
          simp only [memGet, if_neg hc]
          exact memGet_below (by omega) r w.2
        · rw [if_neg hk]
      · rw [if_neg hb]
        by_cases hk : k = a <;> simp [hk, memGet]
    · rw [if_neg h1]
      by_cases h2 : a = c
      · rw [if_pos h2]
        by_cases hb : b = memDefault
        · rw [if_pos hb]
          by_cases hk : k = a
          · rw [if_pos hk, hb]
            exact memGet_below (by omega) r w.2
          · rw [if_neg hk]
            have hc : ¬k = c := by omega
            simp [memGet, hc]
        · rw [if_neg hb]
          by_cases hk : k = a
          · simp [hk, memGet]
          · have hc : ¬k = c := by omega
            simp [memGet, hk, hc]
      · rw [if_neg h2]
        by_cases hk : k = c
        · have ha : ¬k = a := by omega
          simp [memGet, hk, show ¬c = a by omega]
        · simp only [memGet, if_neg hk]
          exact memGet_memSet_from a b k (c + 1) r w.2

theorem memGet_memSet {m : Mem} (w : Memory.wf m = true) (a : Nat) (b : Byte) (k : Nat) :
    memGet (memSet m a b) k = if k = a then b else memGet m k := memGet_memSet_from a b k 0 m w

/-- A write keeps the canonical form. -/
theorem memSet_wfFrom (a : Nat) (b : Byte) : ∀ (lo : Nat) (m : Mem), lo ≤ a → memWfFrom lo m = true →
    memWfFrom lo (memSet m a b) = true
  | lo, [], ha, _ => by
    unfold memSet
    by_cases hb : b = memDefault
    · rw [if_pos hb]; rfl
    · rw [if_neg hb]; simp [memWfFrom, ha, hb]
  | lo, (c, d) :: r, ha, w => by
    have w' := w
    simp only [memWfFrom, Bool.and_eq_true, decide_eq_true_eq] at w'
    unfold memSet
    by_cases h1 : a < c
    · rw [if_pos h1]
      by_cases hb : b = memDefault
      · rw [if_pos hb]; exact w
      · rw [if_neg hb]
        simp only [memWfFrom, Bool.and_eq_true, decide_eq_true_eq]
        exact ⟨⟨ha, by simp [hb]⟩, ⟨⟨by omega, w'.1.2⟩, w'.2⟩⟩
    · rw [if_neg h1]
      by_cases h2 : a = c
      · rw [if_pos h2]
        by_cases hb : b = memDefault
        · rw [if_pos hb]; exact memWfFrom_mono (by omega) r w'.2
        · rw [if_neg hb]
          simp only [memWfFrom, Bool.and_eq_true, decide_eq_true_eq]
          exact ⟨⟨ha, by simp [hb]⟩, h2 ▸ w'.2⟩
      · rw [if_neg h2]
        simp only [memWfFrom, Bool.and_eq_true, decide_eq_true_eq]
        exact ⟨w'.1, memSet_wfFrom a b (c + 1) r (by omega) w'.2⟩

theorem memSet_wf {m : Mem} (w : Memory.wf m = true) (a : Nat) (b : Byte) : Memory.wf (memSet m a b) = true :=
  memSet_wfFrom a b 0 m (Nat.zero_le a) w

theorem memWrite_wf : ∀ (l : List (Nat × Byte)) {m : Mem}, Memory.wf m = true → Memory.wf (memWrite m l) = true
  | [], _, w => w
  | c :: r, _, w => memWrite_wf r (memSet_wf w c.1 c.2)

/-- Bytes outside a write read as before. -/
theorem memGet_memWrite_outside (k : Nat) : ∀ (l : List (Nat × Byte)) {m : Mem}, Memory.wf m = true → k ∉ l.map (·.1) →
    memGet (memWrite m l) k = memGet m k
  | [], _, _, _ => rfl
  | c :: r, m, w, h => by
    simp only [List.map_cons, List.mem_cons, not_or] at h
    show memGet (memWrite (memSet m c.1 c.2) r) k = _
    rw [memGet_memWrite_outside k r (memSet_wf w c.1 c.2) h.2, memGet_memSet w, if_neg h.1]

/-- Each byte written reads as the value written, where no key is written twice. -/
theorem memGet_memWrite_inside (k : Nat) (b : Byte) : ∀ (l : List (Nat × Byte)) {m : Mem}, Memory.wf m = true →
    (l.map (·.1)).Nodup → (k, b) ∈ l → memGet (memWrite m l) k = b
  | c :: r, m, w, hn, h => by
    simp only [List.map_cons, List.nodup_cons] at hn
    show memGet (memWrite (memSet m c.1 c.2) r) k = b
    rcases List.mem_cons.mp h with h | h
    · subst h
      rw [memGet_memWrite_outside k r (memSet_wf w _ _) hn.1, memGet_memSet w, if_pos rfl]
    · exact memGet_memWrite_inside k b r (memSet_wf w _ _) hn.2 h

/-- A code placed in memory keeps the canonical form. -/
theorem placeCode_wf {m : Mem} (w : Memory.wf m = true) (base bit b code : Nat) :
    Memory.wf (placeCode m base bit b code) = true := by
  unfold placeCode
  dsimp only
  split
  · exact memSet_wf (memSet_wf w _ _) _ _
  · exact memSet_wf w _ _

/-! ### The dirty bytes of a cache -/

@[simp] theorem ovGet_ovSet (a : Nat) (b : Byte) (k : Nat) : ∀ o : Overlay,
    ovGet (ovSet o a b) k = if k = a then some b else ovGet o k
  | [] => by by_cases h : k = a <;> simp [ovSet, ovGet, h]
  | (c, d) :: r => by
    unfold ovSet
    by_cases h1 : a < c
    · rw [if_pos h1]
      by_cases hk : k = a <;> simp [ovGet, hk]
    · rw [if_neg h1]
      by_cases h2 : a = c
      · rw [if_pos h2]
        by_cases hk : k = a
        · simp [ovGet, hk]
        · have hc : ¬k = c := by omega
          simp [ovGet, hk, hc]
      · rw [if_neg h2]
        by_cases hk : k = c
        · simp [ovGet, hk, show ¬c = a by omega]
        · simp only [ovGet, if_neg hk]
          exact ovGet_ovSet a b k r

theorem ovSet_mem (a : Nat) (b : Byte) : ∀ (o : Overlay) (c : Host.Cell), c ∈ ovSet o a b → c = (a, b) ∨ c ∈ o
  | [], c, h => .inl (by simpa only [ovSet, List.mem_singleton] using h)
  | (k, d) :: r, c, h => by
    unfold ovSet at h
    split at h
    · exact List.mem_cons.mp h
    · split at h
      · rcases List.mem_cons.mp h with h | h
        · exact .inl h
        · exact .inr (List.mem_cons_of_mem _ h)
      · rcases List.mem_cons.mp h with h | h
        · exact .inr (h ▸ List.mem_cons_self)
        · exact (ovSet_mem a b r c h).imp id (List.mem_cons_of_mem _)

theorem rising_cons {c : Host.Cell} {l : List Host.Cell} : Rising (c :: l) ↔ (∀ d ∈ l, c.1 < d.1) ∧ Rising l := by
  simp [Rising, List.pairwise_cons]

/-- A dirty byte set keeps the keys rising. -/
theorem ovSet_rising (a : Nat) (b : Byte) : ∀ o : Overlay, Rising o → Rising (ovSet o a b)
  | [], _ => by simp [ovSet, Rising]
  | (k, d) :: r, h => by
    rw [rising_cons] at h
    unfold ovSet
    by_cases h1 : a < k
    · rw [if_pos h1, rising_cons]
      refine ⟨fun d hd => ?_, rising_cons.mpr h⟩
      rcases List.mem_cons.mp hd with hd | hd
      · rw [hd]; exact h1
      · exact Nat.lt_trans h1 (h.1 d hd)
    · rw [if_neg h1]
      by_cases h2 : a = k
      · rw [if_pos h2, rising_cons]
        exact ⟨fun d hd => h2 ▸ h.1 d hd, h.2⟩
      · rw [if_neg h2, rising_cons]
        refine ⟨fun c hc => ?_, ovSet_rising a b r h.2⟩
        rcases ovSet_mem a b r c hc with hc | hc
        · rw [hc]; show k < a; omega
        · exact h.1 c hc

theorem ovWrite_rising : ∀ (l : List (Nat × Byte)) {o : Overlay}, Rising o → Rising (ovWrite o l)
  | [], _, h => h
  | c :: r, _, h => ovWrite_rising r (ovSet_rising c.1 c.2 _ h)

theorem ovWrite_mem : ∀ (l : List (Nat × Byte)) (o : Overlay) (c : Host.Cell), c ∈ ovWrite o l → c ∈ l ∨ c ∈ o
  | [], _, _, h => .inr h
  | x :: r, o, c, h => by
    rcases ovWrite_mem r (ovSet o x.1 x.2) c h with h | h
    · exact .inl (List.mem_cons_of_mem _ h)
    · rcases ovSet_mem _ _ _ _ h with h | h
      · exact .inl (h ▸ List.mem_cons_self)
      · exact .inr h

/-- A byte that is held is listed. -/
theorem ovGet_mem {k : Nat} {b : Byte} : ∀ {o : Overlay}, ovGet o k = some b → (k, b) ∈ o
  | [], h => by simp [ovGet] at h
  | (c, d) :: r, h => by
    unfold ovGet at h
    split at h
    · rename_i e; cases h; subst e; exact List.mem_cons_self
    · exact List.mem_cons_of_mem _ (ovGet_mem h)

/-- A byte that is not written is held as before. -/
theorem ovGet_ovWrite_outside (k : Nat) : ∀ (l : List (Nat × Byte)) (o : Overlay), k ∉ l.map (·.1) →
    ovGet (ovWrite o l) k = ovGet o k
  | [], _, _ => rfl
  | x :: r, o, h => by
    simp only [List.map_cons, List.mem_cons, not_or] at h
    show ovGet (ovWrite (ovSet o x.1 x.2) r) k = _
    rw [ovGet_ovWrite_outside k r _ h.2, ovGet_ovSet, if_neg h.1]

/-- Bytes by rising addresses, written over others, are those found where there are any. -/
theorem ovGet_ovWrite_rising (k : Nat) : ∀ (l o : Overlay), Rising l → ovGet (ovWrite o l) k = (ovGet l k).or (ovGet o k)
  | [], _, _ => rfl
  | x :: r, o, h => by
    rw [rising_cons] at h
    show ovGet (ovWrite (ovSet o x.1 x.2) r) k = _
    rw [ovGet_ovWrite_rising k r _ h.2, ovGet_ovSet]
    by_cases e : k = x.1
    · have hn : ovGet r k = none := by
        cases hg : ovGet r k with
        | none => rfl
        | some b => exact absurd (h.1 _ (ovGet_mem hg)) (by simp [e])
      simp [ovGet, e, e ▸ hn]
    · simp [ovGet, e]

theorem ovGet_filter (q : Nat → Bool) (k : Nat) : ∀ o : Overlay,
    ovGet (o.filter fun x => q x.1) k = if q k then ovGet o k else none
  | [] => by simp [ovGet]
  | (c, d) :: r => by
    have ih := ovGet_filter q k r
    by_cases e : k = c
    · subst e
      by_cases h : q k
      · simp [h, ovGet]
      · simp only [h, if_false, Bool.false_eq_true] at ih ⊢
        simpa [h] using ih
    · by_cases h : q c
      · simp only [List.filter_cons, h, if_true, ovGet, if_neg e]; exact ih
      · simp only [List.filter_cons, h, ovGet, if_neg e]; simpa using ih

theorem filter_rising {o : Overlay} (p : Host.Cell → Bool) (h : Rising o) : Rising (o.filter p) :=
  List.Pairwise.sublist (List.filter_sublist.map _) h

theorem ovErase_rising {o : Overlay} (a : Nat) (h : Rising o) : Rising (ovErase o a) := filter_rising _ h

/-- A dirty byte erased is held no more; the others stay. -/
@[simp] theorem ovGet_ovErase (a k : Nat) : ∀ o : Overlay, ovGet (ovErase o a) k = if k = a then none else ovGet o k
  | [] => by simp [ovErase, ovGet]
  | (c, d) :: r => by
    have ih := ovGet_ovErase a k r
    unfold ovErase at ih ⊢
    by_cases hc : c = a
    · by_cases hk : k = a
      · simp_all
      · have hkc : ¬k = c := by omega
        simp_all [ovGet]
    · by_cases hk : k = c
      · have hka : ¬k = a := by omega
        simp [ovGet, hk, hc]
      · simp_all [ovGet]

/-! ### What memory operations change -/

/-- `t` differs from `s` in memory, the caches, the counters of format regions and the count of free values alone. -/
def OnlyBytes (s t : State) : Prop :=
  t = { s with mem := t.mem, poison := t.poison, l1 := t.l1, qc := t.qc, llc := t.llc, llcLines := t.llcLines,
               regions := t.regions, free := t.free }

theorem OnlyBytes.rfl {s : State} : OnlyBytes s s := Eq.refl _

theorem OnlyBytes.trans {s t u : State} (h : OnlyBytes s t) (k : OnlyBytes t u) : OnlyBytes s u := by
  unfold OnlyBytes at *
  rw [k, h]

theorem OnlyBytes.fields {s t : State} (h : OnlyBytes s t) :
    t.cycle = s.cycle ∧ t.bell = s.bell ∧ t.turn = s.turn ∧ t.inbox = s.inbox ∧ t.script = s.script ∧ t.delays = s.delays ∧
    t.nextId = s.nextId ∧ t.coreNo = s.coreNo ∧ t.pkgNo = s.pkgNo ∧ t.ctx = s.ctx ∧ t.held = s.held ∧ t.saved = s.saved ∧
    t.ops = s.ops ∧ t.mx = s.mx ∧ t.armed = s.armed ∧ t.full = s.full ∧ t.handles = s.handles ∧ t.tlb = s.tlb ∧
    t.dirs = s.dirs ∧ t.misses = s.misses ∧ t.nets = s.nets ∧ t.replies = s.replies ∧ t.portSeq = s.portSeq ∧
    t.tlbi = s.tlbi ∧ t.disp = s.disp ∧ t.moot = s.moot ∧ t.ports = s.ports ∧ t.routes = s.routes ∧ t.outq = s.outq ∧
    t.host = s.host ∧ t.pcie = s.pcie ∧ t.sensed = s.sensed ∧ t.softErrors = s.softErrors ∧ t.reports = s.reports := by
  unfold OnlyBytes at h
  rw [h]
  and_intros <;> exact Eq.refl _

theorem foldl_keeps {α β : Type} (P : α → Prop) (f : α → β → α) (hf : ∀ a b, P a → P (f a b)) :
    ∀ (l : List β) (a : α), P a → P (l.foldl f a)
  | [], _, h => h
  | b :: r, a, h => foldl_keeps P f hf r (f a b) (hf a b h)

/-- A fold of operations that change bytes alone changes bytes alone. -/
theorem onlyBytes_foldl {β : Type} (f : State → β → State) (hf : ∀ s b, OnlyBytes s (f s b)) (l : List β) (s : State) :
    OnlyBytes s (l.foldl f s) :=
  foldl_keeps (OnlyBytes s) f (fun t b h => h.trans (hf t b)) l s .rfl

/-- The same of a fold that carries a second value. -/
theorem onlyBytes_foldl₂ {α β : Type} (f : State × α → β → State × α) (hf : ∀ s b, OnlyBytes s.1 (f s b).1) (l : List β)
    (s : State × α) : OnlyBytes s.1 (l.foldl f s).1 :=
  foldl_keeps (fun t : State × α => OnlyBytes s.1 t.1) f (fun t b h => h.trans (hf t b)) l s .rfl

theorem aliasWriteLine_only (s : State) (line : Nat) : OnlyBytes s (aliasWriteLine s line) := by
  unfold aliasWriteLine
  split
  · exact .rfl
  · dsimp only
    refine OnlyBytes.trans (onlyBytes_foldl _ (fun t j => ?_) _ s) (Eq.refl _)
    split
    · exact Eq.refl _
    · exact .rfl

theorem homePrep_only (s : State) (pas : List Nat) : OnlyBytes s (homePrep s pas) := by
  unfold homePrep
  split
  · exact .rfl
  · refine onlyBytes_foldl _ (fun t pa => onlyBytes_foldl _ (fun u l => ?_) _ t) _ s
    split
    · exact aliasWriteLine_only u l
    · exact .rfl

theorem llc_only (s : State) (o : Overlay) : OnlyBytes s { s with llc := o } := Eq.refl _

theorem regions_only (s : State) (l : List (Nat × Region)) : OnlyBytes s { s with regions := l } := Eq.refl _

theorem llcEvict_only (s : State) (line : Nat) : OnlyBytes s (llcEvict s line) := (aliasWriteLine_only s _).trans (Eq.refl _)

theorem llcTouch_only (s : State) (line : Nat) (cache : BitVec 3) (filled bad : Bool) :
    OnlyBytes s (llcTouch s line cache filled bad) := by
  unfold llcTouch
  split
  · exact Eq.refl _
  · split
    · exact .rfl
    · dsimp only
      split
      · exact (llcEvict_only s _).trans (Eq.refl _)
      · exact Eq.refl _

theorem llcReadLine_only (cache : BitVec 3) (pas : List Nat) (t : State × Bool) (line : Nat) :
    OnlyBytes t.1 (llcReadLine cache pas t line).1 := by
  unfold llcReadLine
  dsimp only
  split
  · exact llcTouch_only _ _ _ _ _
  · split
    · exact llcTouch_only _ _ _ _ _
    · split
      · exact llcTouch_only _ _ _ _ _
      · refine OnlyBytes.trans (regions_only _ _) (llcTouch_only _ _ _ _ _)

theorem noteAliasRead_only (s : State) (cache : BitVec 3) (pas : List Nat) : OnlyBytes s (noteAliasRead s cache pas).1 := by
  unfold noteAliasRead
  split
  · exact .rfl
  · exact onlyBytes_foldl₂ _ (llcReadLine_only cache pas) _ (s, false)

theorem llcWriteLine_only (cache : BitVec 3) (s : State) (x : Nat × List (Nat × Byte)) : OnlyBytes s (llcWriteLine cache s x) := by
  unfold llcWriteLine
  dsimp only
  split
  · exact (llcTouch_only s _ _ _ _).trans (llc_only _ _)
  · exact ((llcTouch_only s _ _ _ _).trans (llc_only _ _)).trans (aliasWriteLine_only _ _)

theorem homeWriteVia_only (s : State) (cache : BitVec 3) (l : List (Nat × Byte)) : OnlyBytes s (homeWriteVia s cache l) := by
  have k := homePrep_only s (l.map (·.1))
  unfold homeWriteVia
  generalize homePrep s (l.map (·.1)) = u at k ⊢
  dsimp only
  split
  · exact k.trans (Eq.refl _)
  · refine OnlyBytes.trans ?_ (onlyBytes_foldl _ (llcWriteLine_only cache) _ _)
    refine OnlyBytes.trans ?_ (onlyBytes_foldl _ (fun t a => llcTouch_only t _ _ _ _) _ _)
    exact k.trans (Eq.refl _)

theorem quadAlloc_only (s : State) (line : Nat) (keep : Bool) : OnlyBytes s (quadAlloc s line keep) := by
  unfold quadAlloc
  dsimp only
  split
  · exact Eq.refl _
  · rename_i v _
    exact OnlyBytes.trans (t := { s with qc := s.qc.drop v }) (Eq.refl _)
      ((homeWriteVia_only _ 0 _).trans (Eq.refl _))

theorem quadLineStore_only (keep : Bool) (s : State) (x : Nat × List (Nat × Byte)) : OnlyBytes s (quadLineStore keep s x) :=
  OnlyBytes.trans (quadAlloc_only s x.1 keep) (Eq.refl (quadLineStore keep s x))

theorem quadStore_only (s : State) (keep : Bool) (l : List (Nat × Byte)) : OnlyBytes s (quadStore s keep l) :=
  onlyBytes_foldl _ (quadLineStore_only keep) _ s

theorem l1Alloc_only (s : State) (line : Nat) : OnlyBytes s (l1Alloc s line) := by
  unfold l1Alloc
  dsimp only
  split
  · exact Eq.refl _
  · refine OnlyBytes.trans ?_ ((quadStore_only _ _ _).trans (Eq.refl _))
    exact Eq.refl _

theorem fillQuad_only (s : State) (keep : Bool) (line : Nat) : OnlyBytes s (fillQuad s keep line) :=
  (quadAlloc_only s line keep).trans (Eq.refl _)

theorem fillLine_only (s : State) (keep : Bool) (line : Nat) : OnlyBytes s (fillLine s keep line) := by
  unfold fillLine
  split
  · exact Eq.refl _
  · exact (fillQuad_only s keep line).trans ((l1Alloc_only _ line).trans (Eq.refl _))

theorem fetchLine_only (cache : BitVec 3) (point : Nat) (t : State) (a : Nat) : OnlyBytes t (fetchLine cache point t a) := by
  unfold fetchLine
  split
  · exact .rfl
  · split
    · dsimp only
      have k := (homePrep_only t ((keyRange a 64).filter fun k => (heldAt t point k).isNone)).trans
        (noteAliasRead_only _ cache ((keyRange a 64).filter fun k => (heldAt t point k).isNone))
      split
      · exact k
      · split
        · exact k.trans (fillLine_only _ _ _)
        · exact k.trans (fillQuad_only _ _ _)
    · split
      · exact Eq.refl _
      · split
        · exact Eq.refl _
        · exact .rfl

/-- A read leaves lines in the caches and changes nothing beside them and memory. -/
theorem fetchLines_only (s : State) (cache : BitVec 3) (point : Nat) (pas : List Nat) :
    OnlyBytes s (fetchLines s cache point pas) := onlyBytes_foldl _ (fetchLine_only cache point) _ s

theorem writeRest_only (cache : BitVec 3) (r : State × List (Nat × Byte)) : OnlyBytes r.1 (writeRest cache r) := by
  unfold writeRest
  split
  · exact .rfl
  · exact homeWriteVia_only _ _ _

theorem cachedLine_only (cache : BitVec 3) (t : State × List (Nat × Byte)) (x : Nat × List (Nat × Byte)) :
    OnlyBytes t.1 (cachedLine cache t x).1 := by
  unfold cachedLine
  dsimp only
  split
  · exact Eq.refl _
  · split
    · exact ((quadAlloc_only t.1 _ _).trans (l1Alloc_only _ x.1)).trans (Eq.refl _)
    · split
      · exact Eq.refl _
      · exact .rfl

theorem cachedWrite_only (s : State) (cache : BitVec 3) (l : List (Nat × Byte)) : OnlyBytes s (cachedWrite s cache l) :=
  (onlyBytes_foldl₂ _ (cachedLine_only cache) (byLine l) (s, [])).trans (writeRest_only _ _)

theorem quadWriteLine_only (cache : BitVec 3) (t : State × List (Nat × Byte)) (x : Nat × List (Nat × Byte)) :
    OnlyBytes t.1 (quadWriteLine cache t x).1 := by
  unfold quadWriteLine
  split
  · exact quadStore_only _ _ _
  · exact .rfl

theorem quadWrite_only (s : State) (cache : BitVec 3) (l : List (Nat × Byte)) : OnlyBytes s (quadWrite s cache l) :=
  ((onlyBytes_foldl₂ _ (quadWriteLine_only cache) (byLine l) (s, [])).trans (writeRest_only _ _)).trans (Eq.refl _)

theorem drainLine_only (cache : BitVec 3) (t : State × List (Nat × Byte)) (x : Nat × List (Nat × Byte)) :
    OnlyBytes t.1 (drainLine cache t x).1 := by
  unfold drainLine
  dsimp only
  split
  · exact Eq.refl _
  · split
    · exact quadStore_only _ _ _
    · exact .rfl

theorem drainStore_only (s : State) (cache : BitVec 3) (l : List (Nat × Byte)) : OnlyBytes s (drainStore s cache l) :=
  (onlyBytes_foldl₂ _ (drainLine_only cache) (byLine l) (s, [])).trans (writeRest_only _ _)

theorem homeStore_only (s : State) (cache : BitVec 3) (l : List (Nat × Byte)) : OnlyBytes s (homeStore s cache l) :=
  (homeWriteVia_only s _ l).trans (Eq.refl _)

theorem flushL1_only (s : State) : OnlyBytes s (flushL1 s) :=
  OnlyBytes.trans (t := { s with l1 := s.l1.cleaned }) (Eq.refl _) (quadStore_only _ _ _)

theorem flushQc_only (s : State) : OnlyBytes s (flushQc s) :=
  OnlyBytes.trans (t := { s with qc := s.qc.cleaned }) (Eq.refl _) (homeWriteVia_only _ _ _)

/-- A release's actions write back and change nothing beside memory and the caches. -/
theorem releaseActions_only (s : State) (scope : BitVec 3) : OnlyBytes s (releaseActions s scope) := by
  unfold releaseActions
  split
  · exact .rfl
  · split
    · exact flushL1_only s
    · exact (flushL1_only s).trans (flushQc_only _)

theorem cacheActions_only (s : State) (scope : BitVec 3) : OnlyBytes s (cacheActions s scope) := by
  unfold cacheActions
  split
  · exact .rfl
  · split
    · exact (flushL1_only s).trans (Eq.refl _)
    · refine ((flushL1_only s).trans ?_).trans (Eq.refl _)
      exact OnlyBytes.trans (t := dropL1 (flushL1 s)) (Eq.refl _) (flushQc_only _)

/-! ### The canonical form of the caches -/

theorem rising_nil : Rising [] := List.Pairwise.nil

theorem cacheReset_ok : Cache.reset.Ok := ⟨rising_nil, rising_nil, by simp [Cache.reset]⟩

theorem holds_touch (c : Cache) (line n : Nat) (keep : Bool) : (c.touch line keep).holds n = (n == line || c.holds n) := by
  unfold Cache.touch Cache.holds
  by_cases h : n = line
  · subst h
    cases hf : c.lines.find? fun x : Nat × Bool => x.1 == n with
    | none => simp
    | some x =>
      have := List.find?_some hf
      simp only [beq_iff_eq] at this
      simp [this]
  · have hn : (n == line) = false := by simp [h]
    have hr : ((c.lines.filter fun x => x.1 != line).any fun x => x.1 == n) = c.lines.any fun x => x.1 == n := by
      rw [List.any_filter]
      congr 1
      funext x
      by_cases hx : x.1 = n
      · simp [hx, h]
      · simp [hx]
    rw [hn, Bool.false_or, List.any_cons, hr]
    cases hf : c.lines.find? fun x : Nat × Bool => x.1 == line with
    | none => simp [show ¬line = n from fun e => h e.symm]
    | some x =>
      have := List.find?_some hf
      simp only [beq_iff_eq] at this
      simp [this, show ¬line = n from fun e => h e.symm]

theorem touch_ok {c : Cache} (h : c.Ok) (line : Nat) (keep : Bool) : (c.touch line keep).Ok :=
  ⟨h.1, h.2.1, fun x hx => by rw [holds_touch, h.2.2 x hx, Bool.or_true]⟩

theorem drop_ok {c : Cache} (h : c.Ok) (line : Nat) : (c.drop line).Ok := by
  refine ⟨filter_rising _ h.1, filter_rising _ h.2.1, fun x hx => ?_⟩
  have hx' : x ∈ c.dirty ++ c.clean ∧ x.1 / 64 ≠ line := by
    simp only [Cache.drop, List.mem_append, List.mem_filter, bne_iff_ne] at hx ⊢
    rcases hx with hx | hx
    · exact ⟨.inl hx.1, hx.2⟩
    · exact ⟨.inr hx.1, hx.2⟩
  have k := h.2.2 x hx'.1
  simp only [Cache.holds, Cache.drop, List.any_eq_true, List.mem_filter, beq_iff_eq, bne_iff_ne] at k ⊢
  obtain ⟨y, hy, e⟩ := k
  exact ⟨y, ⟨hy, by rw [e]; exact hx'.2⟩, e⟩

/-- Bytes stored in or filled into lines that the cache holds keep its form. -/
theorem store_ok {c : Cache} (h : c.Ok) (l : List (Nat × Byte)) (hl : ∀ x ∈ l, c.holds (x.1 / 64) = true) : (c.store l).Ok := by
  refine ⟨ovWrite_rising _ h.1, h.2.1, fun x hx => ?_⟩
  rcases List.mem_append.mp hx with hx | hx
  · rcases ovWrite_mem _ _ _ hx with hy | hx
    · exact hl x hy
    · exact h.2.2 x (List.mem_append_left _ hx)
  · exact h.2.2 x (List.mem_append_right _ hx)

theorem fill_ok {c : Cache} (h : c.Ok) (l : List (Nat × Byte)) (hl : ∀ x ∈ l, c.holds (x.1 / 64) = true) : (c.fill l).Ok := by
  refine ⟨h.1, ovWrite_rising _ h.2.1, fun x hx => ?_⟩
  rcases List.mem_append.mp hx with hx | hx
  · exact h.2.2 x (List.mem_append_left _ hx)
  · rcases ovWrite_mem _ _ _ hx with hy | hx
    · exact hl x (List.mem_filter.mp hy).1
    · exact h.2.2 x (List.mem_append_right _ hx)

theorem holds_of_get {c : Cache} (h : c.Ok) {k : Nat} (hk : (ovGet c.dirty k).isSome = true ∨ (ovGet c.clean k).isSome = true) :
    c.holds (k / 64) = true := by
  rcases hk with hk | hk <;> obtain ⟨b, hb⟩ := Option.isSome_iff_exists.mp hk
  · exact h.2.2 (k, b) (List.mem_append_left _ (ovGet_mem hb))
  · exact h.2.2 (k, b) (List.mem_append_right _ (ovGet_mem hb))

theorem update_ok {c : Cache} (h : c.Ok) (l : List (Nat × Byte)) : (c.update l).Ok := by
  refine ⟨ovWrite_rising _ h.1, ovWrite_rising _ h.2.1, fun x hx => ?_⟩
  rcases List.mem_append.mp hx with hx | hx
  · rcases ovWrite_mem _ _ _ hx with hy | hx
    · exact holds_of_get h (.inl (List.mem_filter.mp hy).2)
    · exact h.2.2 x (List.mem_append_left _ hx)
  · rcases ovWrite_mem _ _ _ hx with hy | hx
    · exact holds_of_get h (.inr (List.mem_filter.mp hy).2)
    · exact h.2.2 x (List.mem_append_right _ hx)

theorem cleaned_ok {c : Cache} (h : c.Ok) : c.cleaned.Ok := by
  refine ⟨rising_nil, ovWrite_rising _ h.2.1, fun x hx => ?_⟩
  rcases ovWrite_mem _ _ _ (show x ∈ ovWrite c.clean c.dirty from by simpa [Cache.cleaned] using hx) with hy | hx
  · exact h.2.2 x (List.mem_append_left _ hy)
  · exact h.2.2 x (List.mem_append_right _ hx)

/-! ### The bytes of the machine -/

theorem rawWrite_bytesOk {s : State} (h : s.BytesOk) (l : List (Nat × Byte)) : (rawWrite s l).BytesOk :=
  ⟨memWrite_wf l h.1, h.2⟩

theorem writeVal_bytesOk {s : State} (h : s.BytesOk) (base n v : Nat) : (writeVal s base n v).BytesOk := rawWrite_bytesOk h _

/-- The write-back of one block of a format region keeps the canonical form and every cache (R401). -/
theorem aliasBlock_bytesOk {s : State} (h : s.BytesOk) (n : Nat) (r : Region) (j : Nat) : (aliasBlock s n r j).BytesOk := by
  refine ⟨?_, h.2⟩
  unfold State.MemOk aliasBlock
  dsimp only
  split
  · exact memSet_wf (memSet_wf (foldl_keeps (fun m => Memory.wf m = true) _ (fun _ _ w => placeCode_wf w _ _ _ _) _ _ h.1) _ _) _ _
  · exact memSet_wf (foldl_keeps (fun m => Memory.wf m = true) _ (fun _ _ w => placeCode_wf w _ _ _ _) _ _ h.1) _ _

theorem aliasWriteLine_bytesOk {s : State} (h : s.BytesOk) (line : Nat) : (aliasWriteLine s line).BytesOk := by
  unfold aliasWriteLine
  split
  · exact h
  · dsimp only
    refine (fun k => ⟨k.1, k.2.1, k.2.2.1, filter_rising _ k.2.2.2⟩ : State.BytesOk (List.foldl _ s _) → _) ?_
    refine foldl_keeps State.BytesOk _ (fun t j ht => ?_) _ s h
    split
    · exact aliasBlock_bytesOk ht _ _ _
    · exact ht

/-- A raw access's write-back of dirty alias lines (R402). -/
theorem homePrep_bytesOk {s : State} (h : s.BytesOk) (pas : List Nat) : (homePrep s pas).BytesOk := by
  unfold homePrep
  split
  · exact h
  · exact foldl_keeps _ _ (fun t pa ht => foldl_keeps _ _ (fun u l hu => by
      split
      · exact aliasWriteLine_bytesOk hu l
      · exact hu) _ t ht) _ s h

theorem llcTouch_bytesOk {s : State} (h : s.BytesOk) (line : Nat) (cache : BitVec 3) (filled bad : Bool) :
    (llcTouch s line cache filled bad).BytesOk := by
  unfold llcTouch
  split
  · exact h
  · split
    · exact h
    · dsimp only
      split
      · exact aliasWriteLine_bytesOk h _
      · exact h

theorem noteAliasRead_bytesOk {s : State} (h : s.BytesOk) (cache : BitVec 3) (pas : List Nat) :
    (noteAliasRead s cache pas).1.BytesOk := by
  unfold noteAliasRead
  split
  · exact h
  · refine foldl_keeps (fun t : State × Bool => t.1.BytesOk) _ (fun t line ht => ?_) _ (s, false) h
    unfold llcReadLine
    dsimp only
    split
    · exact llcTouch_bytesOk ht _ _ _ _
    · split
      · exact llcTouch_bytesOk ht _ _ _ _
      · split
        · exact llcTouch_bytesOk ht _ _ _ _
        · refine llcTouch_bytesOk ?_ _ _ _ _
          exact ht

theorem llcWriteLine_bytesOk {s : State} (h : s.BytesOk) (cache : BitVec 3) (x : Nat × List (Nat × Byte)) :
    (llcWriteLine cache s x).BytesOk := by
  have k := llcTouch_bytesOk h x.1 cache
    (((llcFind s x.1).getD ⟨x.1, cache, false, false⟩).filled || (keyRange (x.1 * 64) 64).all fun k => x.2.any fun c => c.1 == k)
    (((llcFind s x.1).getD ⟨x.1, cache, false, false⟩).bad && !(keyRange (x.1 * 64) 64).all fun k => x.2.any fun c => c.1 == k)
  have k' : State.BytesOk { llcTouch s x.1 cache _ _ with llc := ovWrite (llcTouch s x.1 cache _ _).llc x.2 } :=
    ⟨k.1, k.2.1, k.2.2.1, ovWrite_rising _ k.2.2.2⟩
  unfold llcWriteLine
  dsimp only
  split
  · exact k'
  · exact aliasWriteLine_bytesOk k' _

theorem homeWriteVia_bytesOk {s : State} (h : s.BytesOk) (cache : BitVec 3) (l : List (Nat × Byte)) :
    (homeWriteVia s cache l).BytesOk := by
  unfold homeWriteVia
  dsimp only
  have k := homePrep_bytesOk h (l.map (·.1))
  split
  · exact rawWrite_bytesOk k _
  · refine foldl_keeps State.BytesOk _ (fun t x ht => llcWriteLine_bytesOk ht cache x) _ _ ?_
    refine foldl_keeps State.BytesOk _ (fun t a ht => llcTouch_bytesOk ht _ _ _ _) _ _ ?_
    exact rawWrite_bytesOk k (l.filter fun c => (aliasRegion (homePrep s (l.map (·.1))) c.1).isNone)

theorem homeWrite_bytesOk {s : State} (h : s.BytesOk) (l : List (Nat × Byte)) : (homeWrite s l).BytesOk :=
  homeWriteVia_bytesOk h 0 l

theorem quadAlloc_bytesOk {s : State} (h : s.BytesOk) (line : Nat) (keep : Bool) : (quadAlloc s line keep).BytesOk := by
  unfold quadAlloc
  dsimp only
  split
  · exact ⟨h.1, h.2.1, touch_ok h.2.2.1 _ _, h.2.2.2⟩
  · rename_i v _
    have k := homeWrite_bytesOk (s := { s with qc := s.qc.drop v }) ⟨h.1, h.2.1, drop_ok h.2.2.1 v, h.2.2.2⟩ (s.qc.dirtyOf v)
    exact ⟨k.1, k.2.1, touch_ok k.2.2.1 _ _, k.2.2.2⟩

/-- After an allocation the quad cache holds the line. -/
theorem quadAlloc_holds (s : State) (line : Nat) (keep : Bool) : (quadAlloc s line keep).qc.holds line = true := by
  unfold quadAlloc
  dsimp only
  rw [holds_touch]
  simp

/-- Every byte of a group of `byLine` lies in the group's line. -/
theorem byLine_line {l : List (Nat × Byte)} {x : Nat × List (Nat × Byte)} (hx : x ∈ byLine l) : ∀ c ∈ x.2, c.1 / 64 = x.1 := by
  unfold byLine at hx
  obtain ⟨a, _, rfl⟩ := List.mem_map.mp hx
  intro c hc
  simpa using (List.mem_filter.mp hc).2

/-- A fold keeps what each of its steps keeps, the list's elements being given. -/
theorem foldl_keeps_mem {α β : Type} (P : α → Prop) (f : α → β → α) : ∀ (l : List β) (a : α),
    (∀ a, ∀ b ∈ l, P a → P (f a b)) → P a → P (l.foldl f a)
  | [], _, _, h => h
  | b :: r, a, hf, h => foldl_keeps_mem P f r (f a b) (fun a c hc => hf a c (List.mem_cons_of_mem _ hc))
      (hf a b List.mem_cons_self h)

theorem quadStore_bytesOk {s : State} (h : s.BytesOk) (keep : Bool) (l : List (Nat × Byte)) : (quadStore s keep l).BytesOk :=
  foldl_keeps_mem State.BytesOk _ _ s (fun t x hx ht => by
    have k := quadAlloc_bytesOk ht x.1 keep
    refine ⟨k.1, k.2.1, store_ok k.2.2.1 _ fun c hc => ?_, k.2.2.2⟩
    rw [byLine_line hx c hc]
    exact quadAlloc_holds t x.1 keep) h

theorem l1Alloc_bytesOk {s : State} (h : s.BytesOk) (line : Nat) : (l1Alloc s line).BytesOk := by
  unfold l1Alloc
  dsimp only
  split
  · exact ⟨h.1, touch_ok h.2.1 _ _, h.2.2⟩
  · have k := quadStore_bytesOk (s := { (drawFree s 10).2 with l1 := s.l1.drop (s.l1.lines.getD (drawFree s 10).1.toNat (line, false)).1 })
      ⟨h.1, drop_ok h.2.1 _, h.2.2⟩ false (s.l1.dirtyOf (s.l1.lines.getD (drawFree s 10).1.toNat (line, false)).1)
    exact ⟨k.1, touch_ok k.2.1 _ _, k.2.2⟩

theorem l1Alloc_holds (s : State) (line : Nat) : (l1Alloc s line).l1.holds line = true := by
  unfold l1Alloc
  dsimp only
  split <;> rw [holds_touch] <;> simp

theorem quadLine_line {s : State} {line : Nat} {x : Nat × Byte} (hx : x ∈ quadLine s line) : x.1 / 64 = line := by
  unfold quadLine keyRange at hx
  obtain ⟨k, hk, rfl⟩ := List.mem_map.mp hx
  obtain ⟨i, hi, rfl⟩ := List.mem_map.mp hk
  have := List.mem_range.mp hi
  show (line * 64 + i) / 64 = line
  omega

theorem fillQuad_bytesOk {s : State} (h : s.BytesOk) (keep : Bool) (line : Nat) : (fillQuad s keep line).BytesOk := by
  have k := quadAlloc_bytesOk h line keep
  refine ⟨k.1, k.2.1, fill_ok k.2.2.1 _ fun c hc => ?_, k.2.2.2⟩
  rw [quadLine_line hc]
  exact quadAlloc_holds s line keep

theorem fillLine_bytesOk {s : State} (h : s.BytesOk) (keep : Bool) (line : Nat) : (fillLine s keep line).BytesOk := by
  unfold fillLine
  split
  · exact ⟨h.1, touch_ok h.2.1 _ _, h.2.2⟩
  · have k := l1Alloc_bytesOk (fillQuad_bytesOk h keep line) line
    refine ⟨k.1, fill_ok k.2.1 _ fun c hc => ?_, k.2.2⟩
    rw [quadLine_line hc]
    exact l1Alloc_holds _ line

theorem fetchLine_bytesOk {t : State} (ht : t.BytesOk) (cache : BitVec 3) (point a : Nat) :
    (fetchLine cache point t a).BytesOk := by
  unfold fetchLine
  split
  · exact ht
  · split
    · dsimp only
      have k := noteAliasRead_bytesOk (homePrep_bytesOk ht ((keyRange a 64).filter fun k => (heldAt t point k).isNone)) cache
        ((keyRange a 64).filter fun k => (heldAt t point k).isNone)
      split
      · exact k
      · split
        · exact fillLine_bytesOk k _ _
        · exact fillQuad_bytesOk k _ _
    · split
      · exact ⟨ht.1, touch_ok ht.2.1 _ _, ht.2.2⟩
      · split
        · exact ⟨ht.1, ht.2.1, touch_ok ht.2.2.1 _ _, ht.2.2.2⟩
        · exact ht

theorem fetchLines_bytesOk {s : State} (h : s.BytesOk) (cache : BitVec 3) (point : Nat) (pas : List Nat) :
    (fetchLines s cache point pas).BytesOk :=
  foldl_keeps State.BytesOk _ (fun _ a ht => fetchLine_bytesOk ht cache point a) _ s h

/-- A store of a line's bytes that finds its line or allocates it keeps the form of the L1. -/
theorem l1Store_bytesOk {s : State} (h : s.BytesOk) {line : Nat} {l : List (Nat × Byte)} (hl : ∀ c ∈ l, c.1 / 64 = line)
    (hh : s.l1.holds line = true) : State.BytesOk { s with l1 := s.l1.store l } :=
  ⟨h.1, store_ok h.2.1 _ fun c hc => by rw [hl c hc]; exact hh, h.2.2⟩

theorem writeRest_bytesOk {r : State × List (Nat × Byte)} (h : r.1.BytesOk) (cache : BitVec 3) : (writeRest cache r).BytesOk := by
  unfold writeRest
  split
  · exact h
  · exact homeWriteVia_bytesOk h _ _

theorem cachedLine_bytesOk {t : State × List (Nat × Byte)} (ht : t.1.BytesOk) (cache : BitVec 3)
    {x : Nat × List (Nat × Byte)} (hl : ∀ c ∈ x.2, c.1 / 64 = x.1) : (cachedLine cache t x).1.BytesOk := by
  unfold cachedLine
  dsimp only
  split
  · exact l1Store_bytesOk (s := { t.1 with l1 := t.1.l1.touch x.1 false }) ⟨ht.1, touch_ok ht.2.1 _ _, ht.2.2⟩ hl
      (by rw [holds_touch]; simp)
  · split
    · exact l1Store_bytesOk (l1Alloc_bytesOk (quadAlloc_bytesOk ht _ _) _) hl (l1Alloc_holds _ _)
    · split
      · refine ⟨ht.1, ht.2.1, store_ok (touch_ok ht.2.2.1 _ _) _ fun c hc => ?_, ht.2.2.2⟩
        rw [hl c hc, holds_touch]
        simp
      · exact ht

theorem cachedWrite_bytesOk {s : State} (h : s.BytesOk) (cache : BitVec 3) (l : List (Nat × Byte)) :
    (cachedWrite s cache l).BytesOk :=
  writeRest_bytesOk (foldl_keeps_mem (fun t : State × List (Nat × Byte) => t.1.BytesOk) _ _ (s, [])
    (fun _ _ hx ht => cachedLine_bytesOk ht cache (byLine_line hx)) h) cache

theorem quadWrite_bytesOk {s : State} (h : s.BytesOk) (cache : BitVec 3) (l : List (Nat × Byte)) :
    (quadWrite s cache l).BytesOk := by
  have k := writeRest_bytesOk (foldl_keeps (fun t : State × List (Nat × Byte) => t.1.BytesOk) (quadWriteLine cache) (fun t x ht => by
    unfold quadWriteLine
    split
    · exact quadStore_bytesOk ht _ _
    · exact ht) (byLine l) (s, []) h) cache
  exact ⟨k.1, update_ok k.2.1 _, k.2.2⟩

theorem homeStore_bytesOk {s : State} (h : s.BytesOk) (cache : BitVec 3) (l : List (Nat × Byte)) :
    (homeStore s cache l).BytesOk := by
  have k := homeWriteVia_bytesOk h cache l
  exact ⟨k.1, update_ok k.2.1 _, update_ok k.2.2.1 _, k.2.2.2⟩

theorem drainStore_bytesOk {s : State} (h : s.BytesOk) (cache : BitVec 3) (l : List (Nat × Byte)) :
    (drainStore s cache l).BytesOk :=
  writeRest_bytesOk (foldl_keeps_mem (fun t : State × List (Nat × Byte) => t.1.BytesOk) _ _ (s, []) (fun t x hx ht => by
    unfold drainLine
    dsimp only
    split
    · exact l1Store_bytesOk (s := { t.1 with l1 := t.1.l1.touch x.1 false }) ⟨ht.1, touch_ok ht.2.1 _ _, ht.2.2⟩
        (byLine_line hx) (by rw [holds_touch]; simp)
    · split
      · exact quadStore_bytesOk ht _ _
      · exact ht) h) cache

theorem flushL1_bytesOk {s : State} (h : s.BytesOk) : (flushL1 s).BytesOk :=
  quadStore_bytesOk (s := { s with l1 := s.l1.cleaned }) ⟨h.1, cleaned_ok h.2.1, h.2.2⟩ _ _

theorem flushQc_bytesOk {s : State} (h : s.BytesOk) : (flushQc s).BytesOk :=
  homeWrite_bytesOk (s := { s with qc := s.qc.cleaned }) ⟨h.1, h.2.1, cleaned_ok h.2.2.1, h.2.2.2⟩ _

theorem releaseActions_bytesOk {s : State} (h : s.BytesOk) (scope : BitVec 3) : (releaseActions s scope).BytesOk := by
  unfold releaseActions
  split
  · exact h
  · split
    · exact flushL1_bytesOk h
    · exact flushQc_bytesOk (flushL1_bytesOk h)

theorem dropL1_bytesOk {s : State} (h : s.BytesOk) : (dropL1 s).BytesOk := ⟨h.1, cacheReset_ok, h.2.2⟩
theorem dropQc_bytesOk {s : State} (h : s.BytesOk) : (dropQc s).BytesOk := ⟨h.1, h.2.1, cacheReset_ok, h.2.2.2⟩

theorem cacheActions_bytesOk {s : State} (h : s.BytesOk) (scope : BitVec 3) : (cacheActions s scope).BytesOk := by
  unfold cacheActions
  split
  · exact h
  · split
    · exact dropL1_bytesOk (flushL1_bytesOk h)
    · exact dropQc_bytesOk (flushQc_bytesOk (dropL1_bytesOk (flushL1_bytesOk h)))

theorem storeGlobal_bytesOk {s : State} (h : s.BytesOk) (cache : BitVec 3) (l : List ((Nat × Bool) × Byte)) :
    (storeGlobal s cache l).BytesOk := by
  unfold storeGlobal
  dsimp only
  split <;> split <;> first
    | exact h
    | exact homeWriteVia_bytesOk h _ _
    | exact cachedWrite_bytesOk h _ _
    | exact homeWriteVia_bytesOk (cachedWrite_bytesOk h _ _) _ _

theorem writePlace_bytesOk {s : State} (h : s.BytesOk) (cache : BitVec 3) (p : Place) (bs : List Byte) :
    (writePlace s cache p bs).BytesOk := by
  cases p
  · exact rawWrite_bytesOk h _
  · exact storeGlobal_bytesOk h _ _

/-- A state that agrees with `s` on memory and the three caches has its canonical form. -/
theorem bytesOk_of_eq {s t : State} (h : s.BytesOk) (hm : t.mem = s.mem) (h1 : t.l1 = s.l1) (hq : t.qc = s.qc)
    (hl : t.llc = s.llc) : t.BytesOk := by
  unfold State.BytesOk State.MemOk at *
  rw [hm, h1, hq, hl]
  exact h

/-! ### Where no format region is enabled -/

theorem aliasRegion_none {s : State} (h : NoAlias s) (pa : Nat) : aliasRegion s pa = none := by
  unfold aliasRegion
  rw [List.find?_eq_none]
  intro r hr
  simp [h r hr]

theorem rawAliasLines_nil {s : State} (h : NoAlias s) (pa : Nat) : rawAliasLines s pa = [] := by
  unfold rawAliasLines
  rw [List.flatMap_eq_nil_iff]
  intro r hr
  simp [h r hr]

/-- A fold whose every step leaves its value leaves it. -/
theorem foldl_const {α β : Type} (f : α → β → α) (a : α) (h : ∀ b, f a b = a) : ∀ l : List β, l.foldl f a = a
  | [] => rfl
  | b :: r => by rw [List.foldl_cons, h b]; exact foldl_const f a h r

/-- Without an enabled region a raw access prepares nothing. -/
theorem homePrep_noAlias {s : State} (h : NoAlias s) (pas : List Nat) : homePrep s pas = s := by
  unfold homePrep
  split
  · rfl
  · exact foldl_const _ _ (fun pa => by rw [rawAliasLines_nil h]; rfl) _

theorem anyRegion_noAlias {s : State} (h : NoAlias s) : anyRegion s = false := by
  unfold anyRegion
  rw [List.any_eq_false]
  intro r hr
  simp [h r hr]

theorem noteAliasRead_noAlias {s : State} (h : NoAlias s) (cache : BitVec 3) (pas : List Nat) :
    noteAliasRead s cache pas = (s, false) := by
  simp [noteAliasRead, anyRegion_noAlias h]

/-- Without an enabled region a byte at home is the byte of memory. -/
@[simp] theorem homeByte_noAlias {s : State} (h : NoAlias s) (pa : Nat) : homeByte s pa = memGet s.mem pa := by
  simp [homeByte, aliasRegion_none h]

/-- Without an enabled region a write at home is a write of memory. -/
theorem homeWriteVia_noAlias {s : State} (h : NoAlias s) (cache : BitVec 3) (l : List (Nat × Byte)) :
    homeWriteVia s cache l = rawWrite s l := by
  simp [homeWriteVia, homePrep_noAlias h, anyRegion_noAlias h]

theorem homeWrite_noAlias {s : State} (h : NoAlias s) (l : List (Nat × Byte)) : homeWrite s l = rawWrite s l :=
  homeWriteVia_noAlias h 0 l

/-- A byte written at its key alone changes no other byte that the core sees. -/
theorem cachedByte_rawWrite_outside {s : State} (h : s.BytesOk) (hn : NoAlias s) (l : List (Nat × Byte)) (k : Nat)
    (hk : k ∉ l.map (·.1)) : cachedByte (rawWrite s l) k = cachedByte s k := by
  have hn' : NoAlias (rawWrite s l) := hn
  unfold cachedByte
  rw [homeByte_noAlias hn, homeByte_noAlias hn']
  rw [show (rawWrite s l).mem = memWrite s.mem l from rfl, memGet_memWrite_outside k l h.1 hk]
  rfl

end Sys2Proof.Laws
end

