-- ==== Sys2Proof/Laws/Caches.lean ====
section
/-! SUPPORT. What the core sees through its caches: lines that come and go change no byte, and a store changes the bytes that it
writes alone. All of it where no format region is enabled (`NoAlias`) and the caches hold nothing stale (`State.Fresh`). -/
namespace Sys2Proof.Laws
open Sys2Proof.Machine

/-- The byte that a run of writes leaves at a place, if it writes there. -/
def written (l : List (Nat × Byte)) (k : Nat) : Option Byte := ovGet (ovWrite [] l) k

/-- A byte as the quad cache gives it, its clean bytes being fresh. -/
def quadByte (s : State) (pa : Nat) : Byte := (ovGet s.qc.dirty pa).getD (homeByte s pa)

/-- Every clean byte of the quad cache is the byte at its home. -/
def QcFresh (s : State) : Prop := ∀ pa b, ovGet s.qc.clean pa = some b → ovGet s.qc.dirty pa = none → b = homeByte s pa

theorem latestByte_eq (s : State) (pa : Nat) : latestByte s pa = (ovGet s.l1.dirty pa).getD (quadByte s pa) := by
  unfold latestByte quadByte
  cases ovGet s.l1.dirty pa <;> rfl

theorem fresh_qc {s : State} (h : s.Fresh) : QcFresh s := fun pa b => (h pa b).2

/-! ### Runs of writes -/

theorem ovGet_ovWrite (k : Nat) : ∀ (l : List (Nat × Byte)) (o : Overlay),
    ovGet (ovWrite o l) k = (written l k).or (ovGet o k)
  | [], _ => rfl
  | x :: r, o => by
    have h1 := ovGet_ovWrite k r (ovSet o x.1 x.2)
    have h2 := ovGet_ovWrite k r (ovSet [] x.1 x.2)
    show ovGet (ovWrite (ovSet o x.1 x.2) r) k = (ovGet (ovWrite (ovSet [] x.1 x.2) r) k).or _
    rw [h1, h2]
    cases written r k with
    | some b => rfl
    | none => by_cases e : k = x.1 <;> simp [e, ovGet]

theorem memGet_memWrite (k : Nat) : ∀ (l : List (Nat × Byte)) {m : Mem}, Memory.wf m = true →
    memGet (memWrite m l) k = (written l k).getD (memGet m k)
  | [], _, _ => rfl
  | x :: r, m, w => by
    have h2 := ovGet_ovWrite k r (ovSet [] x.1 x.2)
    show memGet (memWrite (memSet m x.1 x.2) r) k = (ovGet (ovWrite (ovSet [] x.1 x.2) r) k).getD _
    rw [memGet_memWrite k r (memSet_wf w _ _), memGet_memSet w, h2]
    cases written r k with
    | some b => rfl
    | none => by_cases e : k = x.1 <;> simp [e, ovGet]

theorem written_outside {k : Nat} {l : List (Nat × Byte)} (h : k ∉ l.map (·.1)) : written l k = none :=
  ovGet_ovWrite_outside k l [] h

theorem written_mem {k : Nat} {b : Byte} {l : List (Nat × Byte)} (h : written l k = some b) : (k, b) ∈ l :=
  (ovWrite_mem l [] _ (ovGet_mem h)).resolve_right (by simp)

/-- A list by rising addresses leaves what it lists. -/
theorem written_rising (k : Nat) {l : Overlay} (h : Rising l) : written l k = ovGet l k := by
  unfold written
  rw [ovGet_ovWrite_rising k l [] h]
  simp [ovGet]

/-- The writes of a place are found among those of its line. -/
theorem written_filter (k line : Nat) (hk : k / 64 = line) : ∀ l : List (Nat × Byte),
    written (l.filter fun c => c.1 / 64 == line) k = written l k
  | [] => rfl
  | x :: r => by
    have ih := written_filter k line hk r
    have h2 (l : List (Nat × Byte)) : written (x :: l) k = (written l k).or (ovGet (ovSet [] x.1 x.2) k) :=
      ovGet_ovWrite k l (ovSet [] x.1 x.2)
    by_cases h : x.1 / 64 = line
    · rw [List.filter_cons_of_pos (by simpa using h), h2, h2, ih]
    · rw [List.filter_cons_of_neg (by simpa using h), h2, ih]
      have : ¬k = x.1 := fun e => h (e ▸ hk)
      simp [ovSet, ovGet, this]

theorem linesOf_mem {k : Nat} {l : List Nat} (h : k ∈ l) : k / 64 * 64 ∈ linesOf l := by
  have main : ∀ (l acc : List Nat), (k ∈ l ∨ k / 64 * 64 ∈ acc) →
      k / 64 * 64 ∈ l.foldl (fun l pa => if l.contains (pa / 64 * 64) then l else l ++ [pa / 64 * 64]) acc := by
    intro l
    induction l with
    | nil => intro acc h; exact h.resolve_left (by simp)
    | cons a r ih =>
      intro acc h
      rw [List.foldl_cons]
      apply ih
      rcases h with h | h
      · rcases List.mem_cons.mp h with rfl | h
        · refine .inr ?_
          split
          · rename_i hc; simpa using hc
          · simp
        · exact .inl h
      · refine .inr ?_
        split
        · exact h
        · exact List.mem_append_left _ h
  exact main l [] (.inl h)

/-- A group of `byLine` holds the writes of its line. -/
theorem byLine_group {l : List (Nat × Byte)} {x : Nat × List (Nat × Byte)} (hx : x ∈ byLine l) :
    x.2 = l.filter fun c => c.1 / 64 == x.1 := by
  unfold byLine at hx
  obtain ⟨a, _, rfl⟩ := List.mem_map.mp hx
  rfl

theorem byLine_mem {l : List (Nat × Byte)} {k : Nat} (h : k ∈ l.map (·.1)) : ∃ x ∈ byLine l, x.1 = k / 64 :=
  ⟨_, List.mem_map.mpr ⟨_, linesOf_mem h, rfl⟩, by show k / 64 * 64 / 64 = k / 64; omega⟩

/-! ### The quad cache -/

/-- What a change of the quad cache that writes `l` keeps: the L1, the form of the bytes, and every other byte. -/
structure QuadStep (l : List (Nat × Byte)) (s t : State) : Prop where
  l1 : t.l1 = s.l1
  ok : t.BytesOk
  noAlias : NoAlias t
  fresh : QcFresh t
  byte : ∀ pa, quadByte t pa = (written l pa).getD (quadByte s pa)

theorem rawWrite_home {s : State} (h : s.BytesOk) (hn : NoAlias s) (l : List (Nat × Byte)) (pa : Nat) :
    homeByte (rawWrite s l) pa = (written l pa).getD (homeByte s pa) := by
  have hn' : NoAlias (rawWrite s l) := hn
  rw [homeByte_noAlias hn', homeByte_noAlias hn]
  exact memGet_memWrite pa l h.1

theorem drop_dirty (c : Cache) (v pa : Nat) : ovGet (c.drop v).dirty pa = if pa / 64 = v then none else ovGet c.dirty pa := by
  have h := ovGet_filter (fun a => a / 64 != v) pa c.dirty
  unfold Cache.drop
  by_cases e : pa / 64 = v <;> simpa [e] using h

theorem drop_clean (c : Cache) (v pa : Nat) : ovGet (c.drop v).clean pa = if pa / 64 = v then none else ovGet c.clean pa := by
  have h := ovGet_filter (fun a => a / 64 != v) pa c.clean
  unfold Cache.drop
  by_cases e : pa / 64 = v <;> simpa [e] using h

theorem dirtyOf_written {c : Cache} (h : c.Ok) (v pa : Nat) :
    written (c.dirtyOf v) pa = if pa / 64 = v then ovGet c.dirty pa else none := by
  unfold Cache.dirtyOf
  rw [written_rising pa (filter_rising _ h.1), ovGet_filter (fun a => a / 64 == v)]
  simp

/-- A line comes into the quad cache: no byte changes. -/
theorem quadAlloc_step {s : State} (h : s.BytesOk) (hn : NoAlias s) (hf : QcFresh s) (line : Nat) (keep : Bool) :
    QuadStep [] s (quadAlloc s line keep) := by
  have hok := quadAlloc_bytesOk h line keep
  revert hok
  unfold quadAlloc
  dsimp only
  split
  · intro hok
    exact ⟨rfl, hok, hn, hf, fun _ => rfl⟩
  · rename_i v _
    have hn1 : NoAlias { s with qc := s.qc.drop v } := hn
    have h1 : State.BytesOk { s with qc := s.qc.drop v } := ⟨h.1, h.2.1, drop_ok h.2.2.1 v, h.2.2.2⟩
    rw [homeWrite_noAlias hn1]
    intro hok
    have home (pa : Nat) := rawWrite_home h1 hn1 (s.qc.dirtyOf v) pa
    have e1 (pa : Nat) : homeByte { s with qc := s.qc.drop v } pa = homeByte s pa := rfl
    have e2 (pa : Nat) : homeByte { rawWrite { s with qc := s.qc.drop v } (s.qc.dirtyOf v) with
        qc := (rawWrite { s with qc := s.qc.drop v } (s.qc.dirtyOf v)).qc.touch line keep } pa =
        homeByte (rawWrite { s with qc := s.qc.drop v } (s.qc.dirtyOf v)) pa := rfl
    refine ⟨rfl, hok, hn, fun pa b hc hd => ?_, fun pa => ?_⟩
    · have hc' : ovGet (s.qc.drop v).clean pa = some b := hc
      have hd' : ovGet (s.qc.drop v).dirty pa = none := hd
      rw [drop_clean] at hc'
      rw [drop_dirty] at hd'
      rw [e2, home, e1, dirtyOf_written h.2.2.1]
      by_cases e : pa / 64 = v
      · simp [e] at hc'
      · rw [if_neg e] at hc' hd' ⊢
        exact hf pa b hc' hd'
    · show (ovGet (s.qc.drop v).dirty pa).getD (homeByte _ pa) = _
      rw [e2, home, e1, drop_dirty, dirtyOf_written h.2.2.1]
      by_cases e : pa / 64 = v
      · rw [if_pos e, if_pos e]; rfl
      · rw [if_neg e, if_neg e]; rfl

/-- One line's bytes are stored in the quad cache. -/
theorem quadLineStore_step {s : State} (h : s.BytesOk) (hn : NoAlias s) (hf : QcFresh s) (keep : Bool)
    {x : Nat × List (Nat × Byte)} (hl : ∀ c ∈ x.2, c.1 / 64 = x.1) : QuadStep x.2 s (quadLineStore keep s x) := by
  have k := quadAlloc_step h hn hf x.1 keep
  refine ⟨k.l1, ⟨k.ok.1, k.ok.2.1, store_ok k.ok.2.2.1 _ fun c hc => ?_, k.ok.2.2.2⟩, k.noAlias, fun pa b hc hd => ?_,
    fun pa => ?_⟩
  · rw [hl c hc]; exact quadAlloc_holds s x.1 keep
  · have hd' : ovGet (ovWrite (quadAlloc s x.1 keep).qc.dirty x.2) pa = none := hd
    rw [ovGet_ovWrite, Option.or_eq_none_iff] at hd'
    exact k.fresh pa b hc hd'.2
  · show (ovGet (ovWrite (quadAlloc s x.1 keep).qc.dirty x.2) pa).getD (homeByte (quadAlloc s x.1 keep) pa) = _
    rw [ovGet_ovWrite, ← show quadByte (quadAlloc s x.1 keep) pa = quadByte s pa from k.byte pa]
    unfold quadByte
    cases written x.2 pa <;> rfl

/-- Bytes stored in the quad cache read as stored; no other byte changes. -/
theorem quadStore_step {s : State} (h : s.BytesOk) (hn : NoAlias s) (hf : QcFresh s) (keep : Bool) (l : List (Nat × Byte)) :
    QuadStep l s (quadStore s keep l) := by
  have main : ∀ (g : List (Nat × List (Nat × Byte))) (t : State), (∀ x ∈ g, x.2 = l.filter fun c => c.1 / 64 == x.1) →
      t.BytesOk → NoAlias t → QcFresh t →
      let u := g.foldl (quadLineStore keep) t
      u.l1 = t.l1 ∧ u.BytesOk ∧ NoAlias u ∧ QcFresh u ∧
        ∀ pa, quadByte u pa = (if g.any (fun x => x.1 == pa / 64) then (written l pa).getD (quadByte t pa) else quadByte t pa) := by
    intro g
    induction g with
    | nil => intro t _ h hn hf; exact ⟨rfl, h, hn, hf, fun _ => rfl⟩
    | cons x r ih =>
      intro t hg h hn hf
      have hx := hg x List.mem_cons_self
      have k := quadLineStore_step h hn hf keep (x := x) (fun c hc => by
        rw [hx] at hc
        simpa using (List.mem_filter.mp hc).2)
      have ih := ih (quadLineStore keep t x) (fun y hy => hg y (List.mem_cons_of_mem _ hy)) k.ok k.noAlias k.fresh
      refine ⟨ih.1.trans k.l1, ih.2.1, ih.2.2.1, ih.2.2.2.1, fun pa => ?_⟩
      rw [List.foldl_cons, ih.2.2.2.2 pa, k.byte pa, hx, List.any_cons]
      by_cases e : x.1 = pa / 64
      · rw [written_filter pa x.1 e.symm]
        simp only [e, BEq.rfl, Bool.true_or, if_true]
        split
        · cases written l pa <;> rfl
        · rfl
      · have hw : written (l.filter fun c => c.1 / 64 == x.1) pa = none := written_outside (by
          simp only [List.mem_map, List.mem_filter, not_exists, not_and]
          intro c hc hp
          have := hc.2
          simp only [beq_iff_eq] at this
          exact e (by rw [← this, hp]))
        rw [hw]
        have hb : (x.1 == pa / 64) = false := by simpa using e
        rw [hb, Bool.false_or]
        rfl
  have k := main (byLine l) s (fun x hx => byLine_group hx) h hn hf
  refine ⟨k.1, k.2.1, k.2.2.1, k.2.2.2.1, fun pa => ?_⟩
  rw [show quadByte (quadStore s keep l) pa = _ from k.2.2.2.2 pa]
  split
  · rfl
  · rename_i hc
    by_cases hm : pa ∈ l.map (·.1)
    · obtain ⟨x, hx, e⟩ := byLine_mem hm
      exact absurd (List.any_eq_true.mpr ⟨x, hx, by simpa using e⟩) hc
    · rw [written_outside hm]; rfl

theorem qcGet_fresh {s : State} (hf : QcFresh s) (pa : Nat) : (s.qc.get pa).getD (homeByte s pa) = quadByte s pa := by
  unfold Cache.get quadByte
  cases hd : ovGet s.qc.dirty pa with
  | some b => rfl
  | none =>
    cases hc : ovGet s.qc.clean pa with
    | some b => exact hf pa b hc hd
    | none => rfl

/-- The bytes of a line as the quad cache gives them. -/
theorem quadLine_byte {s : State} (hf : QcFresh s) {line : Nat} {x : Nat × Byte} (hx : x ∈ quadLine s line) :
    x.2 = quadByte s x.1 := by
  unfold quadLine at hx
  obtain ⟨k, _, rfl⟩ := List.mem_map.mp hx
  exact qcGet_fresh hf k

/-- What the core sees: the L1's byte where it holds one, else the quad cache's. -/
theorem cachedByte_eq {s : State} (hf : QcFresh s) (pa : Nat) : cachedByte s pa = (s.l1.get pa).getD (quadByte s pa) := by
  rw [← qcGet_fresh hf]
  unfold cachedByte
  cases s.l1.get pa with
  | some b => rfl
  | none => cases s.qc.get pa <;> rfl

theorem cachedByte_fresh {s : State} (hf : s.Fresh) (pa : Nat) : cachedByte s pa = latestByte s pa := by
  rw [cachedByte_eq (fresh_qc hf)]
  unfold Cache.get
  cases hd : ovGet s.l1.dirty pa with
  | some b => rw [latestByte_eq, hd]
  | none =>
    cases hc : ovGet s.l1.clean pa with
    | some b => exact (hf pa b).1 hc hd
    | none => rw [latestByte_eq, hd]

/-- Where nothing is stale, a read sees the same byte at every point of Table 4.4. -/
theorem byteAt_fresh {s : State} (hf : s.Fresh) (point pa : Nat) : byteAt s point pa = latestByte s pa := by
  unfold byteAt heldAt
  rw [latestByte_eq]
  by_cases h0 : point = 0
  · subst h0
    have k := cachedByte_fresh hf pa
    rw [cachedByte_eq (fresh_qc hf), latestByte_eq] at k
    rw [← k, ← qcGet_fresh (fresh_qc hf)]
    simp only [if_true]
    cases s.l1.get pa <;> rfl
  · rw [if_neg h0]
    cases hd : ovGet s.l1.dirty pa with
    | some b => rfl
    | none =>
      by_cases h2 : point = 2
      · simp only [h2, if_true]; rfl
      · simp only [if_neg h2]; exact qcGet_fresh (fresh_qc hf) pa

/-! ### Lines that come and go -/

/-- A change of the caches that changes no byte. -/
structure Quiet (s t : State) : Prop where
  ok : t.BytesOk
  noAlias : NoAlias t
  fresh : t.Fresh
  byte : ∀ pa, latestByte t pa = latestByte s pa

theorem Quiet.trans {s t u : State} (h : Quiet s t) (k : Quiet t u) : Quiet s u :=
  ⟨k.ok, k.noAlias, k.fresh, fun pa => (k.byte pa).trans (h.byte pa)⟩

/-- The core sees every byte as before. -/
theorem Quiet.seen {s t : State} (h : Quiet s t) (hf : s.Fresh) : SameOutside [] s t := fun k _ => by
  rw [cachedByte_fresh h.fresh, cachedByte_fresh hf, h.byte]

/-- A step of the quad cache that writes nothing changes no byte that the core sees. -/
theorem quiet_of_quad {s t : State} (hf : s.Fresh) (k : QuadStep [] s t) : Quiet s t := by
  have hb (pa : Nat) : latestByte t pa = latestByte s pa := by
    rw [latestByte_eq, latestByte_eq, k.l1, k.byte]; rfl
  refine ⟨k.ok, k.noAlias, fun pa b => ⟨fun hc hd => ?_, k.fresh pa b⟩, hb⟩
  rw [k.l1] at hc hd
  rw [hb]
  exact (hf pa b).1 hc hd

theorem fillQuad_quiet {s : State} (h : s.BytesOk) (hn : NoAlias s) (hf : s.Fresh) (keep : Bool) (line : Nat) :
    Quiet s (fillQuad s keep line) := by
  have k := quadAlloc_step h hn (fresh_qc hf) line keep
  refine quiet_of_quad hf ⟨k.l1, fillQuad_bytesOk h keep line, k.noAlias, fun pa b hc hd => ?_, k.byte⟩
  have hd' : ovGet (quadAlloc s line keep).qc.dirty pa = none := hd
  have hc' : ovGet (ovWrite (quadAlloc s line keep).qc.clean ((quadLine s line).filter fun x =>
    (ovGet (quadAlloc s line keep).qc.clean x.1).isNone)) pa = some b := hc
  rw [ovGet_ovWrite] at hc'
  have hq : quadByte s pa = homeByte (quadAlloc s line keep) pa := by
    rw [← show quadByte (quadAlloc s line keep) pa = quadByte s pa from k.byte pa]
    unfold quadByte
    rw [hd']; rfl
  cases hw : written ((quadLine s line).filter fun x => (ovGet (quadAlloc s line keep).qc.clean x.1).isNone) pa with
  | none => rw [hw] at hc'; exact k.fresh pa b hc' hd'
  | some c =>
    rw [hw] at hc'
    cases hc'
    show _ = homeByte (quadAlloc s line keep) pa
    rw [← hq]
    exact quadLine_byte (fresh_qc hf) (List.mem_filter.mp (written_mem hw)).1


theorem l1Alloc_quiet {s : State} (h : s.BytesOk) (hn : NoAlias s) (hf : s.Fresh) (line : Nat) : Quiet s (l1Alloc s line) := by
  have hok := l1Alloc_bytesOk h line
  revert hok
  unfold l1Alloc
  dsimp only
  split
  · exact fun hok => ⟨hok, hn, hf, fun _ => rfl⟩
  · generalize (s.l1.lines.getD (drawFree s 10).1.toNat (line, false)).1 = v
    intro hok
    have k := quadStore_step (s := { (drawFree s 10).2 with l1 := s.l1.drop v }) ⟨h.1, drop_ok h.2.1 _, h.2.2⟩ hn
      (fun pa b => (hf pa b).2) false (s.l1.dirtyOf v)
    have hl (pa : Nat) : latestByte { quadStore { (drawFree s 10).2 with l1 := s.l1.drop v } false (s.l1.dirtyOf v) with
        l1 := (quadStore { (drawFree s 10).2 with l1 := s.l1.drop v } false (s.l1.dirtyOf v)).l1.touch line false } pa =
        latestByte s pa := by
      rw [latestByte_eq, latestByte_eq]
      show (ovGet (quadStore _ false _).l1.dirty pa).getD (quadByte (quadStore _ false _) pa) = _
      rw [k.l1, k.byte, dirtyOf_written h.2.1]
      show (ovGet (s.l1.drop v).dirty pa).getD ((if _ then _ else _ : Option Byte).getD (quadByte s pa)) = _
      rw [drop_dirty]
      by_cases e : pa / 64 = v
      · rw [if_pos e, if_pos e]; rfl
      · rw [if_neg e, if_neg e]; rfl
    refine ⟨hok, k.noAlias, fun pa b => ⟨fun hc hd => ?_, k.fresh pa b⟩, hl⟩
    have hc' : ovGet (quadStore { (drawFree s 10).2 with l1 := s.l1.drop v } false (s.l1.dirtyOf v)).l1.clean pa = some b := hc
    have hd' : ovGet (quadStore { (drawFree s 10).2 with l1 := s.l1.drop v } false (s.l1.dirtyOf v)).l1.dirty pa = none := hd
    rw [k.l1] at hc' hd'
    have hc'' : ovGet (s.l1.drop v).clean pa = some b := hc'
    have hd'' : ovGet (s.l1.drop v).dirty pa = none := hd'
    rw [drop_clean] at hc''
    rw [drop_dirty] at hd''
    rw [hl]
    by_cases e : pa / 64 = v
    · simp [e] at hc''
    · rw [if_neg e] at hc'' hd''
      exact (hf pa b).1 hc'' hd''

/-- A line that the L1 allocates has no dirty byte that it did not have. -/
theorem l1Alloc_dirty {s : State} (h : s.BytesOk) {line pa : Nat} (hp : pa / 64 = line)
    (hd : ovGet (l1Alloc s line).l1.dirty pa = none) : ovGet s.l1.dirty pa = none := by
  by_cases hh : s.l1.holds line = true
  · have e : l1Alloc s line = { s with l1 := s.l1.touch line false } := by simp [l1Alloc, hh]
    rw [e] at hd
    exact hd
  · cases ho : ovGet s.l1.dirty pa with
    | none => rfl
    | some b => exact absurd (hp ▸ holds_of_get h.2.1 (.inl (by rw [ho]; rfl))) hh

theorem fillLine_quiet {s : State} (h : s.BytesOk) (hn : NoAlias s) (hf : s.Fresh) (keep : Bool) (line : Nat) :
    Quiet s (fillLine s keep line) := by
  unfold fillLine
  split
  · exact ⟨⟨h.1, touch_ok h.2.1 _ _, h.2.2⟩, hn, hf, fun _ => rfl⟩
  · have k1 := fillQuad_quiet h hn hf keep line
    have k2 := l1Alloc_quiet k1.ok k1.noAlias k1.fresh line
    have k := k1.trans k2
    have hok : State.BytesOk { l1Alloc (fillQuad s keep line) line with
        l1 := (l1Alloc (fillQuad s keep line) line).l1.fill (quadLine s line) } :=
      ⟨k.ok.1, fill_ok k.ok.2.1 _ fun c hc => by rw [quadLine_line hc]; exact l1Alloc_holds _ line, k.ok.2.2⟩
    refine ⟨hok, k.noAlias, fun pa b => ⟨fun hc hd => ?_, (k.fresh pa b).2⟩, k.byte⟩
    have hd' : ovGet (l1Alloc (fillQuad s keep line) line).l1.dirty pa = none := hd
    have hc' : ovGet (ovWrite (l1Alloc (fillQuad s keep line) line).l1.clean ((quadLine s line).filter fun x =>
      (ovGet (l1Alloc (fillQuad s keep line) line).l1.clean x.1).isNone)) pa = some b := hc
    rw [ovGet_ovWrite] at hc'
    show b = latestByte (l1Alloc (fillQuad s keep line) line) pa
    cases hw : written ((quadLine s line).filter fun x => (ovGet (l1Alloc (fillQuad s keep line) line).l1.clean x.1).isNone) pa with
    | none => rw [hw] at hc'; exact (k.fresh pa b).1 hc' hd'
    | some c =>
      rw [hw] at hc'
      cases hc'
      have hm := (List.mem_filter.mp (written_mem hw)).1
      have hq := quadLine_byte (fresh_qc hf) hm
      have hd1 := l1Alloc_dirty k1.ok (quadLine_line hm) hd'
      have hl1 : (fillQuad s keep line).l1 = s.l1 := (quadAlloc_step h hn (fresh_qc hf) line keep).l1
      rw [hl1] at hd1
      rw [k.byte, latestByte_eq, hd1]
      exact hq

theorem fetchLine_quiet {s : State} (h : s.BytesOk) (hn : NoAlias s) (hf : s.Fresh) (cache : BitVec 3) (point a : Nat) :
    Quiet s (fetchLine cache point s a) := by
  have q0 : Quiet s s := ⟨h, hn, hf, fun _ => rfl⟩
  unfold fetchLine
  split
  · exact q0
  · split
    · dsimp only
      rw [homePrep_noAlias hn, noteAliasRead_noAlias hn]
      split
      · exact q0
      · split
        · exact fillLine_quiet h hn hf _ _
        · exact fillQuad_quiet h hn hf _ _
    · split
      · exact ⟨⟨h.1, touch_ok h.2.1 _ _, h.2.2⟩, hn, hf, fun _ => rfl⟩
      · split
        · exact ⟨⟨h.1, h.2.1, touch_ok h.2.2.1 _ _, h.2.2.2⟩, hn, hf, fun _ => rfl⟩
        · exact q0

/-- What a read leaves in the caches changes no byte. -/
theorem fetchLines_quiet {s : State} (h : s.BytesOk) (hn : NoAlias s) (hf : s.Fresh) (cache : BitVec 3) (point : Nat)
    (pas : List Nat) : Quiet s (fetchLines s cache point pas) :=
  foldl_keeps (Quiet s) _ (fun _ a k => k.trans (fetchLine_quiet k.ok k.noAlias k.fresh cache point a)) _ s
    ⟨h, hn, hf, fun _ => rfl⟩

/-! ### Write-backs -/

theorem flushL1_quiet {s : State} (h : s.BytesOk) (hn : NoAlias s) (hf : s.Fresh) : Quiet s (flushL1 s) := by
  have k := quadStore_step (s := { s with l1 := s.l1.cleaned }) ⟨h.1, cleaned_ok h.2.1, h.2.2⟩ hn
    (fun pa b => (hf pa b).2) false s.l1.dirty
  have hb (pa : Nat) : latestByte (flushL1 s) pa = latestByte s pa := by
    rw [latestByte_eq, latestByte_eq]
    show (ovGet (quadStore { s with l1 := s.l1.cleaned } false s.l1.dirty).l1.dirty pa).getD
      (quadByte (quadStore { s with l1 := s.l1.cleaned } false s.l1.dirty) pa) = _
    rw [k.l1, k.byte, written_rising pa h.2.1.1]
    rfl
  refine ⟨k.ok, k.noAlias, fun pa b => ⟨fun hc hd => ?_, k.fresh pa b⟩, hb⟩
  have hc' : ovGet (quadStore { s with l1 := s.l1.cleaned } false s.l1.dirty).l1.clean pa = some b := hc
  rw [k.l1] at hc'
  have hc'' : ovGet (ovWrite s.l1.clean s.l1.dirty) pa = some b := hc'
  rw [ovGet_ovWrite_rising pa _ _ h.2.1.1] at hc''
  rw [hb]
  cases hd1 : ovGet s.l1.dirty pa with
  | some c => rw [hd1] at hc''; cases hc''; rw [latestByte_eq, hd1]; rfl
  | none => rw [hd1] at hc''; exact (hf pa b).1 hc'' hd1

theorem flushQc_quiet {s : State} (h : s.BytesOk) (hn : NoAlias s) (hf : s.Fresh) : Quiet s (flushQc s) := by
  have h1 : State.BytesOk { s with qc := s.qc.cleaned } := ⟨h.1, h.2.1, cleaned_ok h.2.2.1, h.2.2.2⟩
  have hn1 : NoAlias { s with qc := s.qc.cleaned } := hn
  have e : flushQc s = rawWrite { s with qc := s.qc.cleaned } s.qc.dirty := homeWrite_noAlias hn1 _
  have home (pa : Nat) : homeByte (flushQc s) pa = quadByte s pa := by
    rw [e, rawWrite_home h1 hn1, written_rising pa h.2.2.1.1]
    rfl
  have hq (pa : Nat) : quadByte (flushQc s) pa = quadByte s pa := by
    rw [← home]
    unfold quadByte
    rw [show (flushQc s).qc = s.qc.cleaned from by rw [e]; rfl]
    rfl
  have hl1 : (flushQc s).l1 = s.l1 := by rw [e]; rfl
  have hb (pa : Nat) : latestByte (flushQc s) pa = latestByte s pa := by rw [latestByte_eq, latestByte_eq, hl1, hq]
  refine ⟨flushQc_bytesOk h, by rw [e]; exact hn, fun pa b => ⟨fun hc hd => ?_, fun hc _ => ?_⟩, hb⟩
  · rw [hl1] at hc hd
    rw [hb]
    exact (hf pa b).1 hc hd
  · rw [show (flushQc s).qc = s.qc.cleaned from by rw [e]; rfl] at hc
    have hc' : ovGet (ovWrite s.qc.clean s.qc.dirty) pa = some b := hc
    rw [ovGet_ovWrite_rising pa _ _ h.2.2.1.1] at hc'
    rw [home]
    unfold quadByte
    cases hd1 : ovGet s.qc.dirty pa with
    | some c => rw [hd1] at hc'; cases hc'; rfl
    | none => rw [hd1] at hc'; exact (hf pa b).2 hc' hd1

/-- An L1 without dirty bytes is dropped: no byte changes. -/
theorem dropL1_quiet {s : State} (h : s.BytesOk) (hn : NoAlias s) (hf : s.Fresh) (hd : s.l1.dirty = []) : Quiet s (dropL1 s) :=
  ⟨dropL1_bytesOk h, hn, fun pa b => ⟨fun hc _ => by simp [dropL1, Cache.reset, ovGet] at hc, (hf pa b).2⟩, fun pa => by
    rw [latestByte_eq, latestByte_eq, hd]; rfl⟩

theorem dropQc_quiet {s : State} (h : s.BytesOk) (hn : NoAlias s) (hf : s.Fresh) (hd : s.qc.dirty = []) : Quiet s (dropQc s) := by
  have hb (pa : Nat) : latestByte (dropQc s) pa = latestByte s pa := by
    rw [latestByte_eq, latestByte_eq]
    show (ovGet s.l1.dirty pa).getD _ = _
    unfold quadByte
    rw [hd]; rfl
  refine ⟨dropQc_bytesOk h, hn, fun pa b => ⟨fun hc hd1 => ?_, fun hc _ => by simp [dropQc, Cache.reset, ovGet] at hc⟩, hb⟩
  rw [hb]
  exact (hf pa b).1 hc hd1

theorem flushL1_dirty {s : State} (h : s.BytesOk) (hn : NoAlias s) (hf : s.Fresh) : (flushL1 s).l1.dirty = [] := by
  have k := quadStore_step (s := { s with l1 := s.l1.cleaned }) ⟨h.1, cleaned_ok h.2.1, h.2.2⟩ hn
    (fun pa b => (hf pa b).2) false s.l1.dirty
  show (quadStore { s with l1 := s.l1.cleaned } false s.l1.dirty).l1.dirty = []
  rw [k.l1]; rfl

theorem flushQc_dirty {s : State} (hn : NoAlias s) : (flushQc s).qc.dirty = [] := by
  have hn1 : NoAlias { s with qc := s.qc.cleaned } := hn
  rw [show flushQc s = rawWrite { s with qc := s.qc.cleaned } s.qc.dirty from homeWrite_noAlias hn1 _]
  rfl

/-- A release's write-backs change no byte. -/
theorem releaseActions_quiet {s : State} (h : s.BytesOk) (hn : NoAlias s) (hf : s.Fresh) (scope : BitVec 3) :
    Quiet s (releaseActions s scope) := by
  unfold releaseActions
  split
  · exact ⟨h, hn, hf, fun _ => rfl⟩
  · have k := flushL1_quiet h hn hf
    split
    · exact k
    · exact k.trans (flushQc_quiet k.ok k.noAlias k.fresh)

/-- An acquire's write-backs and invalidations change no byte, where nothing is stale. -/
theorem cacheActions_quiet {s : State} (h : s.BytesOk) (hn : NoAlias s) (hf : s.Fresh) (scope : BitVec 3) :
    Quiet s (cacheActions s scope) := by
  unfold cacheActions
  split
  · exact ⟨h, hn, hf, fun _ => rfl⟩
  · have k := flushL1_quiet h hn hf
    have k := k.trans (dropL1_quiet k.ok k.noAlias k.fresh (flushL1_dirty h hn hf))
    split
    · exact k
    · have q := flushQc_quiet k.ok k.noAlias k.fresh
      have k := k.trans q
      exact k.trans (dropQc_quiet k.ok k.noAlias k.fresh (flushQc_dirty (s := dropL1 (flushL1 s)) (dropL1_quiet
        (flushL1_quiet h hn hf).ok (flushL1_quiet h hn hf).noAlias (flushL1_quiet h hn hf).fresh
        (flushL1_dirty h hn hf)).noAlias))

/-! ### Stores -/

/-- A store that leaves fresh caches and every byte outside `ks`. -/
structure Outside (ks : List Nat) (s t : State) : Prop where
  ok : t.BytesOk
  noAlias : NoAlias t
  fresh : t.Fresh
  byte : ∀ pa, pa ∉ ks → latestByte t pa = latestByte s pa

theorem Quiet.outside {s t : State} (h : Quiet s t) (ks : List Nat) : Outside ks s t :=
  ⟨h.ok, h.noAlias, h.fresh, fun pa _ => h.byte pa⟩

theorem Outside.trans {ks : List Nat} {s t u : State} (h : Outside ks s t) (k : Outside ks t u) : Outside ks s u :=
  ⟨k.ok, k.noAlias, k.fresh, fun pa hp => (k.byte pa hp).trans (h.byte pa hp)⟩

theorem Outside.seen {ks : List Nat} {s t : State} (h : Outside ks s t) (hf : s.Fresh) : SameOutside ks s t := fun k hk => by
  rw [cachedByte_fresh h.fresh, cachedByte_fresh hf, h.byte k hk]

/-- Bytes stored in lines that the L1 holds. -/
theorem l1Store_outside {s : State} (h : s.BytesOk) (hn : NoAlias s) (hf : s.Fresh) {ks : List Nat} {l : List (Nat × Byte)}
    (hl : ∀ c ∈ l, s.l1.holds (c.1 / 64) = true) (hk : ∀ c ∈ l, c.1 ∈ ks) : Outside ks s { s with l1 := s.l1.store l } := by
  have hd (pa : Nat) : ovGet (s.l1.store l).dirty pa = (written l pa).or (ovGet s.l1.dirty pa) := ovGet_ovWrite pa l _
  refine ⟨⟨h.1, store_ok h.2.1 _ hl, h.2.2⟩, hn, fun pa b => ⟨fun hc hd1 => ?_, (hf pa b).2⟩, fun pa hp => ?_⟩
  · have hd1' : ovGet (s.l1.store l).dirty pa = none := hd1
    rw [hd, Option.or_eq_none_iff] at hd1'
    have k := (hf pa b).1 hc hd1'.2
    rw [k, latestByte_eq, latestByte_eq]
    show (ovGet s.l1.dirty pa).getD _ = (ovGet (s.l1.store l).dirty pa).getD _
    rw [hd, hd1'.1]
    rfl
  · rw [latestByte_eq, latestByte_eq]
    show (ovGet (s.l1.store l).dirty pa).getD _ = _
    rw [hd, written_outside (fun hm => by
      obtain ⟨c, hc, e⟩ := List.mem_map.mp hm
      exact hp (e ▸ hk c hc))]
    rfl

/-- Bytes stored in lines that the quad cache holds and the L1 does not. -/
theorem qcStore_outside {s : State} (h : s.BytesOk) (hn : NoAlias s) (hf : s.Fresh) {ks : List Nat} {l : List (Nat × Byte)}
    (hl : ∀ c ∈ l, s.qc.holds (c.1 / 64) = true ∧ s.l1.holds (c.1 / 64) = false) (hk : ∀ c ∈ l, c.1 ∈ ks) :
    Outside ks s { s with qc := s.qc.store l } := by
  have hd (pa : Nat) : ovGet (s.qc.store l).dirty pa = (written l pa).or (ovGet s.qc.dirty pa) := ovGet_ovWrite pa l _
  have hw {pa : Nat} (hc : (ovGet s.l1.clean pa).isSome = true) : written l pa = none := written_outside fun hm => by
    obtain ⟨c, hm, e⟩ := List.mem_map.mp hm
    have := holds_of_get h.2.1 (.inr hc)
    rw [← e, (hl c hm).2] at this
    cases this
  have hq {pa : Nat} (hw : written l pa = none) : quadByte { s with qc := s.qc.store l } pa = quadByte s pa := by
    show (ovGet (s.qc.store l).dirty pa).getD _ = _
    rw [hd, hw]
    rfl
  refine ⟨⟨h.1, h.2.1, store_ok h.2.2.1 _ fun c hc => (hl c hc).1, h.2.2.2⟩, hn, fun pa b => ⟨fun hc hd1 => ?_, fun hc hd1 => ?_⟩,
    fun pa hp => ?_⟩
  · have k := (hf pa b).1 hc hd1
    rw [latestByte_eq] at k ⊢
    rw [hq (hw (by rw [show ovGet s.l1.clean pa = some b from hc]; rfl))]
    exact k
  · have hd1' : ovGet (s.qc.store l).dirty pa = none := hd1
    rw [hd, Option.or_eq_none_iff] at hd1'
    exact (hf pa b).2 hc hd1'.2
  · rw [latestByte_eq, latestByte_eq, hq (written_outside fun hm => by
      obtain ⟨c, hc, e⟩ := List.mem_map.mp hm
      exact hp (e ▸ hk c hc))]

theorem byLine_sub {l : List (Nat × Byte)} {x : Nat × List (Nat × Byte)} (hx : x ∈ byLine l) : ∀ c ∈ x.2, c ∈ l := fun c hc => by
  rw [byLine_group hx] at hc
  exact (List.mem_filter.mp hc).1

theorem cachedLine_outside {s : State} {ks : List Nat} {t : State × List (Nat × Byte)} (h : Outside ks s t.1) (cache : BitVec 3)
    {x : Nat × List (Nat × Byte)} (hl : ∀ c ∈ x.2, c.1 / 64 = x.1) (hk : ∀ c ∈ x.2, c.1 ∈ ks) :
    Outside ks s (cachedLine cache t x).1 := by
  unfold cachedLine
  dsimp only
  split
  · have q : Quiet t.1 { t.1 with l1 := t.1.l1.touch x.1 false } :=
      ⟨⟨h.ok.1, touch_ok h.ok.2.1 _ _, h.ok.2.2⟩, h.noAlias, h.fresh, fun _ => rfl⟩
    exact (h.trans (q.outside ks)).trans (l1Store_outside q.ok q.noAlias q.fresh (fun c hc => by
      rw [hl c hc]
      show (t.1.l1.touch x.1 false).holds x.1 = true
      rw [holds_touch]; simp) hk)
  · rename_i hh
    split
    · have q1 := quiet_of_quad h.fresh (quadAlloc_step h.ok h.noAlias (fresh_qc h.fresh) x.1 (keeps cache))
      have q := q1.trans (l1Alloc_quiet q1.ok q1.noAlias q1.fresh x.1)
      exact (h.trans (q.outside ks)).trans (l1Store_outside q.ok q.noAlias q.fresh (fun c hc => by
        rw [hl c hc]; exact l1Alloc_holds _ x.1) hk)
    · split
      · have q : Quiet t.1 { t.1 with qc := t.1.qc.touch x.1 false } :=
          ⟨⟨h.ok.1, h.ok.2.1, touch_ok h.ok.2.2.1 _ _, h.ok.2.2.2⟩, h.noAlias, h.fresh, fun _ => rfl⟩
        exact (h.trans (q.outside ks)).trans (qcStore_outside q.ok q.noAlias q.fresh (fun c hc => by
          rw [hl c hc]
          refine ⟨?_, by simpa using hh⟩
          show (t.1.qc.touch x.1 false).holds x.1 = true
          rw [holds_touch]; simp) hk)
      · exact h

theorem writeRest_seen {ks : List Nat} {s : State} {r : State × List (Nat × Byte)} (h : Outside ks s r.1) (hf : s.Fresh)
    (cache : BitVec 3) (hk : ∀ c ∈ r.2, c.1 ∈ ks) : SameOutside ks s (writeRest cache r) := by
  unfold writeRest
  split
  · exact h.seen hf
  · rw [homeWriteVia_noAlias h.noAlias]
    intro k hm
    rw [cachedByte_rawWrite_outside h.ok h.noAlias r.2 k fun e => by
      obtain ⟨c, hc, e⟩ := List.mem_map.mp e
      exact hm (e ▸ hk c hc)]
    exact h.seen hf k hm

/-- A plain store of the core changes the bytes that it writes alone (R97). -/
theorem cachedWrite_seen {s : State} (h : s.BytesOk) (hn : NoAlias s) (hf : s.Fresh) (cache : BitVec 3)
    (l : List (Nat × Byte)) : SameOutside (l.map (·.1)) s (cachedWrite s cache l) := by
  have main : ∀ g : List (Nat × List (Nat × Byte)), (∀ x ∈ g, x ∈ byLine l) → ∀ t : State × List (Nat × Byte), Outside (l.map (·.1)) s t.1 →
      (∀ c ∈ t.2, c.1 ∈ l.map (·.1)) →
      let u := g.foldl (cachedLine cache) t
      Outside (l.map (·.1)) s u.1 ∧ ∀ c ∈ u.2, c.1 ∈ l.map (·.1) := by
    intro g
    induction g with
    | nil => intro _ t h hk; exact ⟨h, hk⟩
    | cons x r ih =>
      intro hg t ht hk
      have hx := hg x List.mem_cons_self
      have hs : ∀ c ∈ x.2, c.1 ∈ l.map (·.1) := fun c hc => List.mem_map.mpr ⟨c, byLine_sub hx c hc, rfl⟩
      refine ih (fun y hy => hg y (List.mem_cons_of_mem _ hy)) _ (cachedLine_outside ht cache (byLine_line hx) hs) ?_
      unfold cachedLine
      dsimp only
      intro c hc
      split at hc
      · exact hk c hc
      · split at hc
        · exact hk c hc
        · split at hc
          · exact hk c hc
          · rcases List.mem_append.mp hc with hc | hc
            · exact hk c hc
            · exact hs c hc
  have k := main (byLine l) (fun _ h => h) (s, []) ⟨h, hn, hf, fun _ _ => rfl⟩ (by simp)
  exact writeRest_seen k.1 hf cache k.2

/-- A write at the home changes the bytes that it writes alone. -/
theorem homeWriteVia_seen {s : State} (h : s.BytesOk) (hn : NoAlias s) (cache : BitVec 3) (l : List (Nat × Byte)) :
    SameOutside (l.map (·.1)) s (homeWriteVia s cache l) := fun k hk => by
  rw [homeWriteVia_noAlias hn, cachedByte_rawWrite_outside h hn l k hk]

end Sys2Proof.Laws
end

