-- ==== Sys2Proof/Laws/State.lean ====
section
/-! SUPPORT. What every update of the state leaves alone: for each update, one equation per untouched field (simp uses each
conjunct as a rule of its own), and what the updates make of the engines and registers that they change. -/
namespace Sys2Proof.Laws
open Sys2Proof.Machine

@[simp] theorem setEng_fields (s : State) (e : Engine) (x : Eng) :
    (s.setEng e x).cycle = s.cycle ∧ (s.setEng e x).bell = s.bell ∧ (s.setEng e x).turn = s.turn ∧
    (s.setEng e x).inbox = s.inbox ∧ (s.setEng e x).script = s.script ∧ (s.setEng e x).free = s.free ∧
    (s.setEng e x).delays = s.delays ∧ (s.setEng e x).nextId = s.nextId ∧ (s.setEng e x).coreNo = s.coreNo ∧
    (s.setEng e x).pkgNo = s.pkgNo ∧ (s.setEng e x).held = s.held ∧ (s.setEng e x).saved = s.saved ∧
    (s.setEng e x).ops = s.ops ∧ (s.setEng e x).mem = s.mem ∧ (s.setEng e x).mx = s.mx ∧ (s.setEng e x).l1 = s.l1 ∧
    (s.setEng e x).qc = s.qc ∧ (s.setEng e x).llc = s.llc ∧ (s.setEng e x).llcLines = s.llcLines ∧
    (s.setEng e x).poison = s.poison ∧ (s.setEng e x).armed = s.armed ∧ (s.setEng e x).full = s.full ∧
    (s.setEng e x).handles = s.handles ∧ (s.setEng e x).tlb = s.tlb ∧ (s.setEng e x).dirs = s.dirs ∧
    (s.setEng e x).misses = s.misses ∧ (s.setEng e x).nets = s.nets ∧ (s.setEng e x).replies = s.replies ∧
    (s.setEng e x).portSeq = s.portSeq ∧ (s.setEng e x).regions = s.regions ∧ (s.setEng e x).tlbi = s.tlbi ∧
    (s.setEng e x).disp = s.disp ∧ (s.setEng e x).moot = s.moot ∧ (s.setEng e x).ports = s.ports ∧
    (s.setEng e x).routes = s.routes ∧ (s.setEng e x).outq = s.outq ∧ (s.setEng e x).host = s.host ∧
    (s.setEng e x).pcie = s.pcie ∧ (s.setEng e x).sensed = s.sensed ∧
    (s.setEng e x).softErrors = s.softErrors ∧ (s.setEng e x).reports = s.reports := by
  and_intros <;> rfl

@[simp] theorem setCtx_fields (s : State) (c : Ctx) :
    (setCtx s c).cycle = s.cycle ∧ (setCtx s c).bell = s.bell ∧ (setCtx s c).turn = s.turn ∧ (setCtx s c).inbox = s.inbox ∧
    (setCtx s c).script = s.script ∧ (setCtx s c).free = s.free ∧ (setCtx s c).delays = s.delays ∧
    (setCtx s c).nextId = s.nextId ∧ (setCtx s c).coreNo = s.coreNo ∧ (setCtx s c).pkgNo = s.pkgNo ∧
    (setCtx s c).held = s.held ∧ (setCtx s c).saved = s.saved ∧ (setCtx s c).ops = s.ops ∧ (setCtx s c).mem = s.mem ∧
    (setCtx s c).mx = s.mx ∧ (setCtx s c).l1 = s.l1 ∧ (setCtx s c).qc = s.qc ∧ (setCtx s c).llc = s.llc ∧
    (setCtx s c).llcLines = s.llcLines ∧ (setCtx s c).poison = s.poison ∧ (setCtx s c).armed = s.armed ∧
    (setCtx s c).full = s.full ∧ (setCtx s c).handles = s.handles ∧ (setCtx s c).tlb = s.tlb ∧ (setCtx s c).dirs = s.dirs ∧
    (setCtx s c).misses = s.misses ∧ (setCtx s c).nets = s.nets ∧ (setCtx s c).replies = s.replies ∧
    (setCtx s c).portSeq = s.portSeq ∧ (setCtx s c).regions = s.regions ∧ (setCtx s c).tlbi = s.tlbi ∧
    (setCtx s c).disp = s.disp ∧ (setCtx s c).moot = s.moot ∧ (setCtx s c).ports = s.ports ∧ (setCtx s c).routes = s.routes ∧
    (setCtx s c).outq = s.outq ∧ (setCtx s c).host = s.host ∧ (setCtx s c).pcie = s.pcie ∧ (setCtx s c).sensed = s.sensed ∧
    (setCtx s c).softErrors = s.softErrors ∧ (setCtx s c).reports = s.reports := by
  and_intros <;> rfl

@[simp] theorem tokSet_fields (s : State) (i n : Nat) :
    (tokSet s i n).cycle = s.cycle ∧ (tokSet s i n).bell = s.bell ∧ (tokSet s i n).turn = s.turn ∧
    (tokSet s i n).inbox = s.inbox ∧ (tokSet s i n).script = s.script ∧ (tokSet s i n).free = s.free ∧
    (tokSet s i n).delays = s.delays ∧ (tokSet s i n).nextId = s.nextId ∧ (tokSet s i n).coreNo = s.coreNo ∧
    (tokSet s i n).pkgNo = s.pkgNo ∧ (tokSet s i n).held = s.held ∧ (tokSet s i n).saved = s.saved ∧
    (tokSet s i n).ops = s.ops ∧ (tokSet s i n).mem = s.mem ∧ (tokSet s i n).mx = s.mx ∧ (tokSet s i n).l1 = s.l1 ∧
    (tokSet s i n).qc = s.qc ∧ (tokSet s i n).llc = s.llc ∧ (tokSet s i n).llcLines = s.llcLines ∧
    (tokSet s i n).poison = s.poison ∧ (tokSet s i n).armed = s.armed ∧ (tokSet s i n).full = s.full ∧
    (tokSet s i n).handles = s.handles ∧ (tokSet s i n).tlb = s.tlb ∧ (tokSet s i n).dirs = s.dirs ∧
    (tokSet s i n).misses = s.misses ∧ (tokSet s i n).nets = s.nets ∧ (tokSet s i n).replies = s.replies ∧
    (tokSet s i n).portSeq = s.portSeq ∧ (tokSet s i n).regions = s.regions ∧ (tokSet s i n).tlbi = s.tlbi ∧
    (tokSet s i n).disp = s.disp ∧ (tokSet s i n).moot = s.moot ∧ (tokSet s i n).ports = s.ports ∧
    (tokSet s i n).routes = s.routes ∧ (tokSet s i n).outq = s.outq ∧ (tokSet s i n).host = s.host ∧
    (tokSet s i n).pcie = s.pcie ∧ (tokSet s i n).sensed = s.sensed ∧
    (tokSet s i n).softErrors = s.softErrors ∧ (tokSet s i n).reports = s.reports := by
  and_intros <;> rfl

@[simp] theorem setMx_fields (s : State) (m : Mx) :
    (setMx s m).cycle = s.cycle ∧ (setMx s m).bell = s.bell ∧ (setMx s m).turn = s.turn ∧ (setMx s m).inbox = s.inbox ∧
    (setMx s m).script = s.script ∧ (setMx s m).free = s.free ∧ (setMx s m).delays = s.delays ∧
    (setMx s m).nextId = s.nextId ∧ (setMx s m).coreNo = s.coreNo ∧ (setMx s m).pkgNo = s.pkgNo ∧ (setMx s m).ctx = s.ctx ∧
    (setMx s m).held = s.held ∧ (setMx s m).saved = s.saved ∧ (setMx s m).ops = s.ops ∧ (setMx s m).mem = s.mem ∧
    (setMx s m).l1 = s.l1 ∧ (setMx s m).qc = s.qc ∧ (setMx s m).llc = s.llc ∧ (setMx s m).llcLines = s.llcLines ∧
    (setMx s m).poison = s.poison ∧ (setMx s m).armed = s.armed ∧ (setMx s m).full = s.full ∧
    (setMx s m).handles = s.handles ∧ (setMx s m).tlb = s.tlb ∧ (setMx s m).dirs = s.dirs ∧ (setMx s m).misses = s.misses ∧
    (setMx s m).nets = s.nets ∧ (setMx s m).replies = s.replies ∧ (setMx s m).portSeq = s.portSeq ∧
    (setMx s m).regions = s.regions ∧ (setMx s m).tlbi = s.tlbi ∧ (setMx s m).disp = s.disp ∧ (setMx s m).moot = s.moot ∧
    (setMx s m).ports = s.ports ∧ (setMx s m).routes = s.routes ∧ (setMx s m).outq = s.outq ∧ (setMx s m).host = s.host ∧
    (setMx s m).pcie = s.pcie ∧ (setMx s m).sensed = s.sensed ∧
    (setMx s m).softErrors = s.softErrors ∧ (setMx s m).reports = s.reports := by
  and_intros <;> rfl

@[simp] theorem addOp_fields (s : State) (e : Engine) (n : Nat) (ws : List RegWrite) (b : Bool) (fx : Fx) (k : OpKind) :
    (addOp s e n ws b fx k).cycle = s.cycle ∧ (addOp s e n ws b fx k).bell = s.bell ∧ (addOp s e n ws b fx k).turn = s.turn ∧
    (addOp s e n ws b fx k).inbox = s.inbox ∧ (addOp s e n ws b fx k).script = s.script ∧
    (addOp s e n ws b fx k).free = s.free ∧ (addOp s e n ws b fx k).delays = s.delays ∧
    (addOp s e n ws b fx k).coreNo = s.coreNo ∧ (addOp s e n ws b fx k).pkgNo = s.pkgNo ∧
    (addOp s e n ws b fx k).ctx = s.ctx ∧ (addOp s e n ws b fx k).held = s.held ∧ (addOp s e n ws b fx k).saved = s.saved ∧
    (addOp s e n ws b fx k).mem = s.mem ∧ (addOp s e n ws b fx k).mx = s.mx ∧ (addOp s e n ws b fx k).l1 = s.l1 ∧
    (addOp s e n ws b fx k).qc = s.qc ∧ (addOp s e n ws b fx k).llc = s.llc ∧ (addOp s e n ws b fx k).llcLines = s.llcLines ∧
    (addOp s e n ws b fx k).poison = s.poison ∧ (addOp s e n ws b fx k).armed = s.armed ∧
    (addOp s e n ws b fx k).full = s.full ∧ (addOp s e n ws b fx k).handles = s.handles ∧
    (addOp s e n ws b fx k).tlb = s.tlb ∧ (addOp s e n ws b fx k).dirs = s.dirs ∧ (addOp s e n ws b fx k).misses = s.misses ∧
    (addOp s e n ws b fx k).nets = s.nets ∧ (addOp s e n ws b fx k).replies = s.replies ∧
    (addOp s e n ws b fx k).portSeq = s.portSeq ∧ (addOp s e n ws b fx k).regions = s.regions ∧
    (addOp s e n ws b fx k).tlbi = s.tlbi ∧ (addOp s e n ws b fx k).disp = s.disp ∧ (addOp s e n ws b fx k).moot = s.moot ∧
    (addOp s e n ws b fx k).ports = s.ports ∧ (addOp s e n ws b fx k).routes = s.routes ∧
    (addOp s e n ws b fx k).outq = s.outq ∧ (addOp s e n ws b fx k).host = s.host ∧
    (addOp s e n ws b fx k).pcie = s.pcie ∧ (addOp s e n ws b fx k).sensed = s.sensed ∧
    (addOp s e n ws b fx k).softErrors = s.softErrors ∧ (addOp s e n ws b fx k).reports = s.reports := by
  and_intros <;> rfl

@[simp] theorem removeOp_fields (s : State) (id : Nat) :
    (removeOp s id).cycle = s.cycle ∧ (removeOp s id).bell = s.bell ∧ (removeOp s id).turn = s.turn ∧
    (removeOp s id).inbox = s.inbox ∧ (removeOp s id).script = s.script ∧ (removeOp s id).free = s.free ∧
    (removeOp s id).delays = s.delays ∧ (removeOp s id).nextId = s.nextId ∧ (removeOp s id).coreNo = s.coreNo ∧
    (removeOp s id).pkgNo = s.pkgNo ∧ (removeOp s id).ctx = s.ctx ∧ (removeOp s id).held = s.held ∧
    (removeOp s id).saved = s.saved ∧ (removeOp s id).mem = s.mem ∧ (removeOp s id).mx = s.mx ∧ (removeOp s id).l1 = s.l1 ∧
    (removeOp s id).qc = s.qc ∧ (removeOp s id).llc = s.llc ∧ (removeOp s id).llcLines = s.llcLines ∧
    (removeOp s id).poison = s.poison ∧ (removeOp s id).armed = s.armed ∧ (removeOp s id).full = s.full ∧
    (removeOp s id).handles = s.handles ∧ (removeOp s id).tlb = s.tlb ∧ (removeOp s id).dirs = s.dirs ∧
    (removeOp s id).misses = s.misses ∧ (removeOp s id).nets = s.nets ∧ (removeOp s id).replies = s.replies ∧
    (removeOp s id).portSeq = s.portSeq ∧ (removeOp s id).regions = s.regions ∧ (removeOp s id).tlbi = s.tlbi ∧
    (removeOp s id).disp = s.disp ∧ (removeOp s id).moot = s.moot ∧ (removeOp s id).ports = s.ports ∧
    (removeOp s id).routes = s.routes ∧ (removeOp s id).outq = s.outq ∧ (removeOp s id).host = s.host ∧
    (removeOp s id).pcie = s.pcie ∧ (removeOp s id).sensed = s.sensed ∧
    (removeOp s id).softErrors = s.softErrors ∧ (removeOp s id).reports = s.reports := by
  and_intros <;> rfl

@[simp] theorem updateOp_fields (s : State) (id : Nat) (f : Op → Op) :
    (updateOp s id f).cycle = s.cycle ∧ (updateOp s id f).bell = s.bell ∧ (updateOp s id f).turn = s.turn ∧
    (updateOp s id f).inbox = s.inbox ∧ (updateOp s id f).script = s.script ∧ (updateOp s id f).free = s.free ∧
    (updateOp s id f).delays = s.delays ∧ (updateOp s id f).nextId = s.nextId ∧ (updateOp s id f).coreNo = s.coreNo ∧
    (updateOp s id f).pkgNo = s.pkgNo ∧ (updateOp s id f).ctx = s.ctx ∧ (updateOp s id f).held = s.held ∧
    (updateOp s id f).saved = s.saved ∧ (updateOp s id f).mem = s.mem ∧ (updateOp s id f).mx = s.mx ∧
    (updateOp s id f).l1 = s.l1 ∧ (updateOp s id f).qc = s.qc ∧ (updateOp s id f).llc = s.llc ∧
    (updateOp s id f).llcLines = s.llcLines ∧ (updateOp s id f).poison = s.poison ∧ (updateOp s id f).armed = s.armed ∧
    (updateOp s id f).full = s.full ∧ (updateOp s id f).handles = s.handles ∧ (updateOp s id f).tlb = s.tlb ∧
    (updateOp s id f).dirs = s.dirs ∧ (updateOp s id f).misses = s.misses ∧ (updateOp s id f).nets = s.nets ∧
    (updateOp s id f).replies = s.replies ∧ (updateOp s id f).portSeq = s.portSeq ∧ (updateOp s id f).regions = s.regions ∧
    (updateOp s id f).tlbi = s.tlbi ∧ (updateOp s id f).disp = s.disp ∧ (updateOp s id f).moot = s.moot ∧
    (updateOp s id f).ports = s.ports ∧ (updateOp s id f).routes = s.routes ∧ (updateOp s id f).outq = s.outq ∧
    (updateOp s id f).host = s.host ∧ (updateOp s id f).pcie = s.pcie ∧ (updateOp s id f).sensed = s.sensed ∧
    (updateOp s id f).softErrors = s.softErrors ∧ (updateOp s id f).reports = s.reports := by
  and_intros <;> rfl

@[simp] theorem rawWrite_fields (s : State) (l : List (Nat × Byte)) :
    (rawWrite s l).cycle = s.cycle ∧ (rawWrite s l).bell = s.bell ∧ (rawWrite s l).turn = s.turn ∧
    (rawWrite s l).inbox = s.inbox ∧ (rawWrite s l).script = s.script ∧ (rawWrite s l).free = s.free ∧
    (rawWrite s l).delays = s.delays ∧ (rawWrite s l).nextId = s.nextId ∧ (rawWrite s l).coreNo = s.coreNo ∧
    (rawWrite s l).pkgNo = s.pkgNo ∧ (rawWrite s l).ctx = s.ctx ∧ (rawWrite s l).held = s.held ∧
    (rawWrite s l).saved = s.saved ∧ (rawWrite s l).ops = s.ops ∧ (rawWrite s l).mx = s.mx ∧ (rawWrite s l).l1 = s.l1 ∧
    (rawWrite s l).qc = s.qc ∧ (rawWrite s l).llc = s.llc ∧ (rawWrite s l).llcLines = s.llcLines ∧
    (rawWrite s l).armed = s.armed ∧ (rawWrite s l).full = s.full ∧ (rawWrite s l).handles = s.handles ∧
    (rawWrite s l).tlb = s.tlb ∧ (rawWrite s l).dirs = s.dirs ∧ (rawWrite s l).misses = s.misses ∧
    (rawWrite s l).nets = s.nets ∧ (rawWrite s l).replies = s.replies ∧ (rawWrite s l).portSeq = s.portSeq ∧
    (rawWrite s l).regions = s.regions ∧ (rawWrite s l).tlbi = s.tlbi ∧ (rawWrite s l).disp = s.disp ∧
    (rawWrite s l).moot = s.moot ∧ (rawWrite s l).ports = s.ports ∧ (rawWrite s l).routes = s.routes ∧
    (rawWrite s l).outq = s.outq ∧ (rawWrite s l).host = s.host ∧ (rawWrite s l).pcie = s.pcie ∧ (rawWrite s l).sensed = s.sensed ∧
    (rawWrite s l).softErrors = s.softErrors ∧ (rawWrite s l).reports = s.reports := by
  and_intros <;> rfl

@[simp] theorem setNet_fields (s : State) (i : Nat) (n : Net) :
    (setNet s i n).cycle = s.cycle ∧ (setNet s i n).bell = s.bell ∧ (setNet s i n).turn = s.turn ∧
    (setNet s i n).inbox = s.inbox ∧ (setNet s i n).script = s.script ∧ (setNet s i n).free = s.free ∧
    (setNet s i n).delays = s.delays ∧ (setNet s i n).nextId = s.nextId ∧ (setNet s i n).coreNo = s.coreNo ∧
    (setNet s i n).pkgNo = s.pkgNo ∧ (setNet s i n).ctx = s.ctx ∧ (setNet s i n).held = s.held ∧
    (setNet s i n).saved = s.saved ∧ (setNet s i n).ops = s.ops ∧ (setNet s i n).mem = s.mem ∧ (setNet s i n).mx = s.mx ∧
    (setNet s i n).l1 = s.l1 ∧ (setNet s i n).qc = s.qc ∧ (setNet s i n).llc = s.llc ∧ (setNet s i n).llcLines = s.llcLines ∧
    (setNet s i n).poison = s.poison ∧ (setNet s i n).armed = s.armed ∧ (setNet s i n).full = s.full ∧
    (setNet s i n).handles = s.handles ∧ (setNet s i n).tlb = s.tlb ∧ (setNet s i n).dirs = s.dirs ∧
    (setNet s i n).misses = s.misses ∧ (setNet s i n).replies = s.replies ∧ (setNet s i n).portSeq = s.portSeq ∧
    (setNet s i n).regions = s.regions ∧ (setNet s i n).tlbi = s.tlbi ∧ (setNet s i n).disp = s.disp ∧
    (setNet s i n).moot = s.moot ∧ (setNet s i n).ports = s.ports ∧ (setNet s i n).routes = s.routes ∧
    (setNet s i n).outq = s.outq ∧ (setNet s i n).host = s.host ∧ (setNet s i n).pcie = s.pcie ∧ (setNet s i n).sensed = s.sensed ∧
    (setNet s i n).softErrors = s.softErrors ∧ (setNet s i n).reports = s.reports := by
  and_intros <;> rfl

@[simp] theorem setHandle_fields (s : State) (i : Nat) (h : Handle) :
    (setHandle s i h).cycle = s.cycle ∧ (setHandle s i h).bell = s.bell ∧ (setHandle s i h).turn = s.turn ∧
    (setHandle s i h).inbox = s.inbox ∧ (setHandle s i h).script = s.script ∧ (setHandle s i h).free = s.free ∧
    (setHandle s i h).delays = s.delays ∧ (setHandle s i h).nextId = s.nextId ∧ (setHandle s i h).coreNo = s.coreNo ∧
    (setHandle s i h).pkgNo = s.pkgNo ∧ (setHandle s i h).ctx = s.ctx ∧ (setHandle s i h).held = s.held ∧
    (setHandle s i h).saved = s.saved ∧ (setHandle s i h).ops = s.ops ∧ (setHandle s i h).mem = s.mem ∧
    (setHandle s i h).mx = s.mx ∧ (setHandle s i h).l1 = s.l1 ∧ (setHandle s i h).qc = s.qc ∧ (setHandle s i h).llc = s.llc ∧
    (setHandle s i h).llcLines = s.llcLines ∧ (setHandle s i h).poison = s.poison ∧ (setHandle s i h).armed = s.armed ∧
    (setHandle s i h).full = s.full ∧ (setHandle s i h).tlb = s.tlb ∧ (setHandle s i h).dirs = s.dirs ∧
    (setHandle s i h).misses = s.misses ∧ (setHandle s i h).nets = s.nets ∧ (setHandle s i h).replies = s.replies ∧
    (setHandle s i h).portSeq = s.portSeq ∧ (setHandle s i h).regions = s.regions ∧ (setHandle s i h).tlbi = s.tlbi ∧
    (setHandle s i h).disp = s.disp ∧ (setHandle s i h).moot = s.moot ∧ (setHandle s i h).ports = s.ports ∧
    (setHandle s i h).routes = s.routes ∧ (setHandle s i h).outq = s.outq ∧ (setHandle s i h).host = s.host ∧
    (setHandle s i h).pcie = s.pcie ∧ (setHandle s i h).sensed = s.sensed ∧
    (setHandle s i h).softErrors = s.softErrors ∧ (setHandle s i h).reports = s.reports := by
  and_intros <;> rfl

@[simp] theorem setDisp_fields (s : State) (d : Disp) :
    (setDisp s d).cycle = s.cycle ∧ (setDisp s d).bell = s.bell ∧ (setDisp s d).turn = s.turn ∧
    (setDisp s d).inbox = s.inbox ∧ (setDisp s d).script = s.script ∧ (setDisp s d).free = s.free ∧
    (setDisp s d).delays = s.delays ∧ (setDisp s d).nextId = s.nextId ∧ (setDisp s d).coreNo = s.coreNo ∧
    (setDisp s d).pkgNo = s.pkgNo ∧ (setDisp s d).ctx = s.ctx ∧ (setDisp s d).held = s.held ∧ (setDisp s d).saved = s.saved ∧
    (setDisp s d).ops = s.ops ∧ (setDisp s d).mem = s.mem ∧ (setDisp s d).mx = s.mx ∧ (setDisp s d).l1 = s.l1 ∧
    (setDisp s d).qc = s.qc ∧ (setDisp s d).llc = s.llc ∧ (setDisp s d).llcLines = s.llcLines ∧
    (setDisp s d).poison = s.poison ∧ (setDisp s d).armed = s.armed ∧ (setDisp s d).full = s.full ∧
    (setDisp s d).handles = s.handles ∧ (setDisp s d).tlb = s.tlb ∧ (setDisp s d).dirs = s.dirs ∧
    (setDisp s d).misses = s.misses ∧ (setDisp s d).nets = s.nets ∧ (setDisp s d).replies = s.replies ∧
    (setDisp s d).portSeq = s.portSeq ∧ (setDisp s d).regions = s.regions ∧ (setDisp s d).tlbi = s.tlbi ∧
    (setDisp s d).moot = s.moot ∧ (setDisp s d).ports = s.ports ∧ (setDisp s d).routes = s.routes ∧
    (setDisp s d).outq = s.outq ∧ (setDisp s d).host = s.host ∧ (setDisp s d).pcie = s.pcie ∧ (setDisp s d).sensed = s.sensed ∧
    (setDisp s d).softErrors = s.softErrors ∧ (setDisp s d).reports = s.reports := by
  and_intros <;> rfl

@[simp] theorem setMoot_fields (s : State) (m : Moot) :
    (setMoot s m).cycle = s.cycle ∧ (setMoot s m).bell = s.bell ∧ (setMoot s m).turn = s.turn ∧
    (setMoot s m).inbox = s.inbox ∧ (setMoot s m).script = s.script ∧ (setMoot s m).free = s.free ∧
    (setMoot s m).delays = s.delays ∧ (setMoot s m).nextId = s.nextId ∧ (setMoot s m).coreNo = s.coreNo ∧
    (setMoot s m).pkgNo = s.pkgNo ∧ (setMoot s m).ctx = s.ctx ∧ (setMoot s m).held = s.held ∧ (setMoot s m).saved = s.saved ∧
    (setMoot s m).ops = s.ops ∧ (setMoot s m).mem = s.mem ∧ (setMoot s m).mx = s.mx ∧ (setMoot s m).l1 = s.l1 ∧
    (setMoot s m).qc = s.qc ∧ (setMoot s m).llc = s.llc ∧ (setMoot s m).llcLines = s.llcLines ∧
    (setMoot s m).poison = s.poison ∧ (setMoot s m).armed = s.armed ∧ (setMoot s m).full = s.full ∧
    (setMoot s m).handles = s.handles ∧ (setMoot s m).tlb = s.tlb ∧ (setMoot s m).dirs = s.dirs ∧
    (setMoot s m).misses = s.misses ∧ (setMoot s m).nets = s.nets ∧ (setMoot s m).replies = s.replies ∧
    (setMoot s m).portSeq = s.portSeq ∧ (setMoot s m).regions = s.regions ∧ (setMoot s m).tlbi = s.tlbi ∧
    (setMoot s m).disp = s.disp ∧ (setMoot s m).ports = s.ports ∧ (setMoot s m).routes = s.routes ∧
    (setMoot s m).outq = s.outq ∧ (setMoot s m).host = s.host ∧ (setMoot s m).pcie = s.pcie ∧ (setMoot s m).sensed = s.sensed ∧
    (setMoot s m).softErrors = s.softErrors ∧ (setMoot s m).reports = s.reports := by
  and_intros <;> rfl

@[simp] theorem setPort_fields (s : State) (p : Nat) (x : Port) :
    (setPort s p x).cycle = s.cycle ∧ (setPort s p x).bell = s.bell ∧ (setPort s p x).turn = s.turn ∧
    (setPort s p x).inbox = s.inbox ∧ (setPort s p x).script = s.script ∧ (setPort s p x).free = s.free ∧
    (setPort s p x).delays = s.delays ∧ (setPort s p x).nextId = s.nextId ∧ (setPort s p x).coreNo = s.coreNo ∧
    (setPort s p x).pkgNo = s.pkgNo ∧ (setPort s p x).ctx = s.ctx ∧ (setPort s p x).held = s.held ∧
    (setPort s p x).saved = s.saved ∧ (setPort s p x).ops = s.ops ∧ (setPort s p x).mem = s.mem ∧ (setPort s p x).mx = s.mx ∧
    (setPort s p x).l1 = s.l1 ∧ (setPort s p x).qc = s.qc ∧ (setPort s p x).llc = s.llc ∧
    (setPort s p x).llcLines = s.llcLines ∧ (setPort s p x).poison = s.poison ∧ (setPort s p x).armed = s.armed ∧
    (setPort s p x).full = s.full ∧ (setPort s p x).handles = s.handles ∧ (setPort s p x).tlb = s.tlb ∧
    (setPort s p x).dirs = s.dirs ∧ (setPort s p x).misses = s.misses ∧ (setPort s p x).nets = s.nets ∧
    (setPort s p x).replies = s.replies ∧ (setPort s p x).portSeq = s.portSeq ∧ (setPort s p x).regions = s.regions ∧
    (setPort s p x).tlbi = s.tlbi ∧ (setPort s p x).disp = s.disp ∧ (setPort s p x).moot = s.moot ∧
    (setPort s p x).routes = s.routes ∧ (setPort s p x).outq = s.outq ∧ (setPort s p x).host = s.host ∧
    (setPort s p x).pcie = s.pcie ∧ (setPort s p x).sensed = s.sensed ∧
    (setPort s p x).softErrors = s.softErrors ∧ (setPort s p x).reports = s.reports := by
  and_intros <;> rfl

@[simp] theorem putRegion_fields (s : State) (n : Nat) (r : Region) :
    (putRegion s n r).cycle = s.cycle ∧ (putRegion s n r).bell = s.bell ∧ (putRegion s n r).turn = s.turn ∧
    (putRegion s n r).inbox = s.inbox ∧ (putRegion s n r).script = s.script ∧ (putRegion s n r).free = s.free ∧
    (putRegion s n r).delays = s.delays ∧ (putRegion s n r).nextId = s.nextId ∧ (putRegion s n r).coreNo = s.coreNo ∧
    (putRegion s n r).pkgNo = s.pkgNo ∧ (putRegion s n r).ctx = s.ctx ∧ (putRegion s n r).held = s.held ∧
    (putRegion s n r).saved = s.saved ∧ (putRegion s n r).ops = s.ops ∧ (putRegion s n r).mem = s.mem ∧
    (putRegion s n r).mx = s.mx ∧ (putRegion s n r).l1 = s.l1 ∧ (putRegion s n r).qc = s.qc ∧ (putRegion s n r).llc = s.llc ∧
    (putRegion s n r).llcLines = s.llcLines ∧ (putRegion s n r).poison = s.poison ∧ (putRegion s n r).armed = s.armed ∧
    (putRegion s n r).full = s.full ∧ (putRegion s n r).handles = s.handles ∧ (putRegion s n r).tlb = s.tlb ∧
    (putRegion s n r).dirs = s.dirs ∧ (putRegion s n r).misses = s.misses ∧ (putRegion s n r).nets = s.nets ∧
    (putRegion s n r).replies = s.replies ∧ (putRegion s n r).portSeq = s.portSeq ∧ (putRegion s n r).tlbi = s.tlbi ∧
    (putRegion s n r).disp = s.disp ∧ (putRegion s n r).moot = s.moot ∧ (putRegion s n r).ports = s.ports ∧
    (putRegion s n r).routes = s.routes ∧ (putRegion s n r).outq = s.outq ∧ (putRegion s n r).host = s.host ∧
    (putRegion s n r).pcie = s.pcie ∧ (putRegion s n r).sensed = s.sensed ∧
    (putRegion s n r).softErrors = s.softErrors ∧ (putRegion s n r).reports = s.reports := by
  and_intros <;> rfl

@[simp] theorem dropMiss_fields (s : State) (p : BitVec 4) (v : Nat) :
    (dropMiss s p v).cycle = s.cycle ∧ (dropMiss s p v).bell = s.bell ∧ (dropMiss s p v).turn = s.turn ∧
    (dropMiss s p v).inbox = s.inbox ∧ (dropMiss s p v).script = s.script ∧ (dropMiss s p v).free = s.free ∧
    (dropMiss s p v).delays = s.delays ∧ (dropMiss s p v).nextId = s.nextId ∧ (dropMiss s p v).coreNo = s.coreNo ∧
    (dropMiss s p v).pkgNo = s.pkgNo ∧ (dropMiss s p v).ctx = s.ctx ∧ (dropMiss s p v).held = s.held ∧
    (dropMiss s p v).saved = s.saved ∧ (dropMiss s p v).ops = s.ops ∧ (dropMiss s p v).mem = s.mem ∧
    (dropMiss s p v).mx = s.mx ∧ (dropMiss s p v).l1 = s.l1 ∧ (dropMiss s p v).qc = s.qc ∧ (dropMiss s p v).llc = s.llc ∧
    (dropMiss s p v).llcLines = s.llcLines ∧ (dropMiss s p v).poison = s.poison ∧ (dropMiss s p v).armed = s.armed ∧
    (dropMiss s p v).full = s.full ∧ (dropMiss s p v).handles = s.handles ∧ (dropMiss s p v).tlb = s.tlb ∧
    (dropMiss s p v).dirs = s.dirs ∧ (dropMiss s p v).nets = s.nets ∧ (dropMiss s p v).replies = s.replies ∧
    (dropMiss s p v).portSeq = s.portSeq ∧ (dropMiss s p v).regions = s.regions ∧ (dropMiss s p v).tlbi = s.tlbi ∧
    (dropMiss s p v).disp = s.disp ∧ (dropMiss s p v).moot = s.moot ∧ (dropMiss s p v).ports = s.ports ∧
    (dropMiss s p v).routes = s.routes ∧ (dropMiss s p v).outq = s.outq ∧ (dropMiss s p v).host = s.host ∧
    (dropMiss s p v).pcie = s.pcie ∧ (dropMiss s p v).sensed = s.sensed ∧
    (dropMiss s p v).softErrors = s.softErrors ∧ (dropMiss s p v).reports = s.reports := by
  and_intros <;> rfl

@[simp] theorem report_fields (s : State) (r : Report) :
    (report s r).cycle = s.cycle ∧ (report s r).bell = s.bell ∧ (report s r).turn = s.turn ∧ (report s r).inbox = s.inbox ∧
    (report s r).script = s.script ∧ (report s r).free = s.free ∧ (report s r).delays = s.delays ∧
    (report s r).nextId = s.nextId ∧ (report s r).coreNo = s.coreNo ∧ (report s r).pkgNo = s.pkgNo ∧
    (report s r).ctx = s.ctx ∧ (report s r).held = s.held ∧ (report s r).saved = s.saved ∧ (report s r).ops = s.ops ∧
    (report s r).mem = s.mem ∧ (report s r).mx = s.mx ∧ (report s r).l1 = s.l1 ∧ (report s r).qc = s.qc ∧
    (report s r).llc = s.llc ∧ (report s r).llcLines = s.llcLines ∧ (report s r).poison = s.poison ∧
    (report s r).armed = s.armed ∧ (report s r).full = s.full ∧ (report s r).handles = s.handles ∧ (report s r).tlb = s.tlb ∧
    (report s r).dirs = s.dirs ∧ (report s r).misses = s.misses ∧ (report s r).nets = s.nets ∧
    (report s r).replies = s.replies ∧ (report s r).portSeq = s.portSeq ∧ (report s r).regions = s.regions ∧
    (report s r).tlbi = s.tlbi ∧ (report s r).disp = s.disp ∧ (report s r).moot = s.moot ∧ (report s r).ports = s.ports ∧
    (report s r).routes = s.routes ∧ (report s r).outq = s.outq ∧ (report s r).host = s.host := by
  and_intros <;> rfl

@[simp] theorem post_fields (s : State) (i : Instr) :
    (post s i).cycle = s.cycle ∧ (post s i).bell = s.bell ∧ (post s i).turn = s.turn ∧ (post s i).script = s.script ∧
    (post s i).free = s.free ∧ (post s i).delays = s.delays ∧ (post s i).nextId = s.nextId ∧ (post s i).coreNo = s.coreNo ∧
    (post s i).pkgNo = s.pkgNo ∧ (post s i).ctx = s.ctx ∧ (post s i).held = s.held ∧ (post s i).saved = s.saved ∧
    (post s i).ops = s.ops ∧ (post s i).mem = s.mem ∧ (post s i).mx = s.mx ∧ (post s i).l1 = s.l1 ∧ (post s i).qc = s.qc ∧
    (post s i).llc = s.llc ∧ (post s i).llcLines = s.llcLines ∧ (post s i).poison = s.poison ∧ (post s i).armed = s.armed ∧
    (post s i).full = s.full ∧ (post s i).handles = s.handles ∧ (post s i).tlb = s.tlb ∧ (post s i).dirs = s.dirs ∧
    (post s i).misses = s.misses ∧ (post s i).nets = s.nets ∧ (post s i).replies = s.replies ∧
    (post s i).portSeq = s.portSeq ∧ (post s i).regions = s.regions ∧ (post s i).tlbi = s.tlbi ∧ (post s i).disp = s.disp ∧
    (post s i).moot = s.moot ∧ (post s i).ports = s.ports ∧ (post s i).routes = s.routes ∧ (post s i).outq = s.outq ∧
    (post s i).host = s.host ∧ (post s i).pcie = s.pcie ∧ (post s i).sensed = s.sensed ∧
    (post s i).softErrors = s.softErrors ∧ (post s i).reports = s.reports := by
  and_intros <;> rfl

@[simp] theorem hostReply_fields (s : State) (b : List Byte) :
    (hostReply s b).cycle = s.cycle ∧ (hostReply s b).bell = s.bell ∧ (hostReply s b).turn = s.turn ∧
    (hostReply s b).inbox = s.inbox ∧ (hostReply s b).script = s.script ∧ (hostReply s b).free = s.free ∧
    (hostReply s b).delays = s.delays ∧ (hostReply s b).nextId = s.nextId ∧ (hostReply s b).coreNo = s.coreNo ∧
    (hostReply s b).pkgNo = s.pkgNo ∧ (hostReply s b).ctx = s.ctx ∧ (hostReply s b).held = s.held ∧
    (hostReply s b).saved = s.saved ∧ (hostReply s b).ops = s.ops ∧ (hostReply s b).mem = s.mem ∧ (hostReply s b).mx = s.mx ∧
    (hostReply s b).l1 = s.l1 ∧ (hostReply s b).qc = s.qc ∧ (hostReply s b).llc = s.llc ∧
    (hostReply s b).llcLines = s.llcLines ∧ (hostReply s b).poison = s.poison ∧ (hostReply s b).armed = s.armed ∧
    (hostReply s b).full = s.full ∧ (hostReply s b).handles = s.handles ∧ (hostReply s b).tlb = s.tlb ∧
    (hostReply s b).dirs = s.dirs ∧ (hostReply s b).misses = s.misses ∧ (hostReply s b).nets = s.nets ∧
    (hostReply s b).replies = s.replies ∧ (hostReply s b).portSeq = s.portSeq ∧ (hostReply s b).regions = s.regions ∧
    (hostReply s b).tlbi = s.tlbi ∧ (hostReply s b).disp = s.disp ∧ (hostReply s b).moot = s.moot ∧
    (hostReply s b).ports = s.ports ∧ (hostReply s b).routes = s.routes ∧ (hostReply s b).outq = s.outq ∧
    (hostReply s b).pcie = s.pcie ∧ (hostReply s b).sensed = s.sensed ∧
    (hostReply s b).softErrors = s.softErrors ∧ (hostReply s b).reports = s.reports := by
  and_intros <;> rfl

@[simp] theorem setFull_fields (s : State) (gs : List Nat) (v : Bool) :
    (setFull s gs v).cycle = s.cycle ∧ (setFull s gs v).bell = s.bell ∧ (setFull s gs v).turn = s.turn ∧
    (setFull s gs v).inbox = s.inbox ∧ (setFull s gs v).script = s.script ∧ (setFull s gs v).free = s.free ∧
    (setFull s gs v).delays = s.delays ∧ (setFull s gs v).nextId = s.nextId ∧ (setFull s gs v).coreNo = s.coreNo ∧
    (setFull s gs v).pkgNo = s.pkgNo ∧ (setFull s gs v).ctx = s.ctx ∧ (setFull s gs v).held = s.held ∧
    (setFull s gs v).saved = s.saved ∧ (setFull s gs v).ops = s.ops ∧ (setFull s gs v).mem = s.mem ∧
    (setFull s gs v).mx = s.mx ∧ (setFull s gs v).l1 = s.l1 ∧ (setFull s gs v).qc = s.qc ∧ (setFull s gs v).llc = s.llc ∧
    (setFull s gs v).llcLines = s.llcLines ∧ (setFull s gs v).poison = s.poison ∧ (setFull s gs v).armed = s.armed ∧
    (setFull s gs v).handles = s.handles ∧ (setFull s gs v).tlb = s.tlb ∧ (setFull s gs v).dirs = s.dirs ∧
    (setFull s gs v).misses = s.misses ∧ (setFull s gs v).nets = s.nets ∧ (setFull s gs v).replies = s.replies ∧
    (setFull s gs v).portSeq = s.portSeq ∧ (setFull s gs v).regions = s.regions ∧ (setFull s gs v).tlbi = s.tlbi ∧
    (setFull s gs v).disp = s.disp ∧ (setFull s gs v).moot = s.moot ∧ (setFull s gs v).ports = s.ports ∧
    (setFull s gs v).routes = s.routes ∧ (setFull s gs v).outq = s.outq ∧ (setFull s gs v).host = s.host ∧
    (setFull s gs v).pcie = s.pcie ∧ (setFull s gs v).sensed = s.sensed ∧
    (setFull s gs v).softErrors = s.softErrors ∧ (setFull s gs v).reports = s.reports := by
  unfold setFull; split <;> and_intros <;> rfl

@[simp] theorem popTokens_fields (s : State) (e : Engine) (h : Hdr) :
    (popTokens s e h).cycle = s.cycle ∧ (popTokens s e h).bell = s.bell ∧ (popTokens s e h).turn = s.turn ∧
    (popTokens s e h).inbox = s.inbox ∧ (popTokens s e h).script = s.script ∧ (popTokens s e h).free = s.free ∧
    (popTokens s e h).delays = s.delays ∧ (popTokens s e h).nextId = s.nextId ∧ (popTokens s e h).coreNo = s.coreNo ∧
    (popTokens s e h).pkgNo = s.pkgNo ∧ (popTokens s e h).held = s.held ∧ (popTokens s e h).saved = s.saved ∧
    (popTokens s e h).ops = s.ops ∧ (popTokens s e h).mem = s.mem ∧ (popTokens s e h).mx = s.mx ∧
    (popTokens s e h).l1 = s.l1 ∧ (popTokens s e h).qc = s.qc ∧ (popTokens s e h).llc = s.llc ∧
    (popTokens s e h).llcLines = s.llcLines ∧ (popTokens s e h).poison = s.poison ∧ (popTokens s e h).armed = s.armed ∧
    (popTokens s e h).full = s.full ∧ (popTokens s e h).handles = s.handles ∧ (popTokens s e h).tlb = s.tlb ∧
    (popTokens s e h).dirs = s.dirs ∧ (popTokens s e h).misses = s.misses ∧ (popTokens s e h).nets = s.nets ∧
    (popTokens s e h).replies = s.replies ∧ (popTokens s e h).portSeq = s.portSeq ∧ (popTokens s e h).regions = s.regions ∧
    (popTokens s e h).tlbi = s.tlbi ∧ (popTokens s e h).disp = s.disp ∧ (popTokens s e h).moot = s.moot ∧
    (popTokens s e h).ports = s.ports ∧ (popTokens s e h).routes = s.routes ∧ (popTokens s e h).outq = s.outq ∧
    (popTokens s e h).host = s.host ∧ (popTokens s e h).pcie = s.pcie ∧ (popTokens s e h).sensed = s.sensed ∧
    (popTokens s e h).softErrors = s.softErrors ∧ (popTokens s e h).reports = s.reports := by
  unfold popTokens; cases h.pu <;> cases h.pd <;> and_intros <;> rfl

@[simp] theorem queuePush_fields (s : State) (e : Engine) (a b : Bool) (c d : Nat) :
    (queuePush s e a b c d).cycle = s.cycle ∧ (queuePush s e a b c d).bell = s.bell ∧ (queuePush s e a b c d).turn = s.turn ∧
    (queuePush s e a b c d).inbox = s.inbox ∧ (queuePush s e a b c d).script = s.script ∧
    (queuePush s e a b c d).free = s.free ∧ (queuePush s e a b c d).delays = s.delays ∧
    (queuePush s e a b c d).nextId = s.nextId ∧ (queuePush s e a b c d).coreNo = s.coreNo ∧
    (queuePush s e a b c d).pkgNo = s.pkgNo ∧ (queuePush s e a b c d).held = s.held ∧
    (queuePush s e a b c d).saved = s.saved ∧ (queuePush s e a b c d).ops = s.ops ∧ (queuePush s e a b c d).mem = s.mem ∧
    (queuePush s e a b c d).mx = s.mx ∧ (queuePush s e a b c d).l1 = s.l1 ∧ (queuePush s e a b c d).qc = s.qc ∧
    (queuePush s e a b c d).llc = s.llc ∧ (queuePush s e a b c d).llcLines = s.llcLines ∧
    (queuePush s e a b c d).poison = s.poison ∧ (queuePush s e a b c d).armed = s.armed ∧
    (queuePush s e a b c d).full = s.full ∧ (queuePush s e a b c d).handles = s.handles ∧
    (queuePush s e a b c d).tlb = s.tlb ∧ (queuePush s e a b c d).dirs = s.dirs ∧ (queuePush s e a b c d).misses = s.misses ∧
    (queuePush s e a b c d).nets = s.nets ∧ (queuePush s e a b c d).replies = s.replies ∧
    (queuePush s e a b c d).portSeq = s.portSeq ∧ (queuePush s e a b c d).regions = s.regions ∧
    (queuePush s e a b c d).tlbi = s.tlbi ∧ (queuePush s e a b c d).disp = s.disp ∧ (queuePush s e a b c d).moot = s.moot ∧
    (queuePush s e a b c d).ports = s.ports ∧ (queuePush s e a b c d).routes = s.routes ∧
    (queuePush s e a b c d).outq = s.outq ∧ (queuePush s e a b c d).host = s.host ∧
    (queuePush s e a b c d).pcie = s.pcie ∧ (queuePush s e a b c d).sensed = s.sensed ∧
    (queuePush s e a b c d).softErrors = s.softErrors ∧ (queuePush s e a b c d).reports = s.reports := by
  unfold queuePush; split <;> and_intros <;> rfl

@[simp] theorem stall_fields (s : State) (e : Engine) (k : WaitKind) :
    (stall s e k).cycle = s.cycle ∧ (stall s e k).bell = s.bell ∧ (stall s e k).turn = s.turn ∧
    (stall s e k).inbox = s.inbox ∧ (stall s e k).script = s.script ∧ (stall s e k).free = s.free ∧
    (stall s e k).delays = s.delays ∧ (stall s e k).nextId = s.nextId ∧ (stall s e k).coreNo = s.coreNo ∧
    (stall s e k).pkgNo = s.pkgNo ∧ (stall s e k).held = s.held ∧ (stall s e k).saved = s.saved ∧ (stall s e k).ops = s.ops ∧
    (stall s e k).mem = s.mem ∧ (stall s e k).mx = s.mx ∧ (stall s e k).l1 = s.l1 ∧ (stall s e k).qc = s.qc ∧
    (stall s e k).llc = s.llc ∧ (stall s e k).llcLines = s.llcLines ∧ (stall s e k).poison = s.poison ∧
    (stall s e k).armed = s.armed ∧ (stall s e k).full = s.full ∧ (stall s e k).handles = s.handles ∧
    (stall s e k).tlb = s.tlb ∧ (stall s e k).dirs = s.dirs ∧ (stall s e k).misses = s.misses ∧ (stall s e k).nets = s.nets ∧
    (stall s e k).replies = s.replies ∧ (stall s e k).portSeq = s.portSeq ∧ (stall s e k).regions = s.regions ∧
    (stall s e k).tlbi = s.tlbi ∧ (stall s e k).disp = s.disp ∧ (stall s e k).moot = s.moot ∧ (stall s e k).ports = s.ports ∧
    (stall s e k).routes = s.routes ∧ (stall s e k).outq = s.outq ∧ (stall s e k).host = s.host ∧
    (stall s e k).pcie = s.pcie ∧ (stall s e k).sensed = s.sensed ∧
    (stall s e k).softErrors = s.softErrors ∧ (stall s e k).reports = s.reports := by
  and_intros <;> rfl

@[simp] theorem strandStop_fields (s : State) (i : FaultInfo) (b : Bool) :
    (strandStop s i b).cycle = s.cycle ∧ (strandStop s i b).bell = s.bell ∧ (strandStop s i b).turn = s.turn ∧
    (strandStop s i b).inbox = s.inbox ∧ (strandStop s i b).script = s.script ∧ (strandStop s i b).free = s.free ∧
    (strandStop s i b).delays = s.delays ∧ (strandStop s i b).nextId = s.nextId ∧ (strandStop s i b).coreNo = s.coreNo ∧
    (strandStop s i b).pkgNo = s.pkgNo ∧ (strandStop s i b).held = s.held ∧ (strandStop s i b).saved = s.saved ∧
    (strandStop s i b).ops = s.ops ∧ (strandStop s i b).mem = s.mem ∧ (strandStop s i b).mx = s.mx ∧
    (strandStop s i b).l1 = s.l1 ∧ (strandStop s i b).qc = s.qc ∧ (strandStop s i b).llc = s.llc ∧
    (strandStop s i b).llcLines = s.llcLines ∧ (strandStop s i b).poison = s.poison ∧ (strandStop s i b).armed = s.armed ∧
    (strandStop s i b).full = s.full ∧ (strandStop s i b).handles = s.handles ∧ (strandStop s i b).tlb = s.tlb ∧
    (strandStop s i b).dirs = s.dirs ∧ (strandStop s i b).misses = s.misses ∧ (strandStop s i b).nets = s.nets ∧
    (strandStop s i b).replies = s.replies ∧ (strandStop s i b).portSeq = s.portSeq ∧ (strandStop s i b).regions = s.regions ∧
    (strandStop s i b).tlbi = s.tlbi ∧ (strandStop s i b).disp = s.disp ∧ (strandStop s i b).moot = s.moot ∧
    (strandStop s i b).ports = s.ports ∧ (strandStop s i b).routes = s.routes ∧ (strandStop s i b).outq = s.outq ∧
    (strandStop s i b).host = s.host ∧ (strandStop s i b).pcie = s.pcie ∧ (strandStop s i b).sensed = s.sensed ∧
    (strandStop s i b).softErrors = s.softErrors ∧ (strandStop s i b).reports = s.reports := by
  unfold strandStop; repeat' split
  all_goals and_intros <;> rfl

@[simp] theorem takeDelay_fields (s : State) :
    (takeDelay s).2.cycle = s.cycle ∧ (takeDelay s).2.bell = s.bell ∧ (takeDelay s).2.turn = s.turn ∧
    (takeDelay s).2.inbox = s.inbox ∧ (takeDelay s).2.script = s.script ∧ (takeDelay s).2.free = s.free ∧
    (takeDelay s).2.nextId = s.nextId ∧ (takeDelay s).2.coreNo = s.coreNo ∧ (takeDelay s).2.pkgNo = s.pkgNo ∧
    (takeDelay s).2.ctx = s.ctx ∧ (takeDelay s).2.held = s.held ∧ (takeDelay s).2.saved = s.saved ∧
    (takeDelay s).2.ops = s.ops ∧ (takeDelay s).2.mem = s.mem ∧ (takeDelay s).2.mx = s.mx ∧ (takeDelay s).2.l1 = s.l1 ∧
    (takeDelay s).2.qc = s.qc ∧ (takeDelay s).2.llc = s.llc ∧ (takeDelay s).2.llcLines = s.llcLines ∧
    (takeDelay s).2.poison = s.poison ∧ (takeDelay s).2.armed = s.armed ∧ (takeDelay s).2.full = s.full ∧
    (takeDelay s).2.handles = s.handles ∧ (takeDelay s).2.tlb = s.tlb ∧ (takeDelay s).2.dirs = s.dirs ∧
    (takeDelay s).2.misses = s.misses ∧ (takeDelay s).2.nets = s.nets ∧ (takeDelay s).2.replies = s.replies ∧
    (takeDelay s).2.portSeq = s.portSeq ∧ (takeDelay s).2.regions = s.regions ∧ (takeDelay s).2.tlbi = s.tlbi ∧
    (takeDelay s).2.disp = s.disp ∧ (takeDelay s).2.moot = s.moot ∧ (takeDelay s).2.ports = s.ports ∧
    (takeDelay s).2.routes = s.routes ∧ (takeDelay s).2.outq = s.outq ∧ (takeDelay s).2.host = s.host ∧
    (takeDelay s).2.pcie = s.pcie ∧ (takeDelay s).2.sensed = s.sensed ∧
    (takeDelay s).2.softErrors = s.softErrors ∧ (takeDelay s).2.reports = s.reports := by
  unfold takeDelay; split <;> and_intros <;> rfl

@[simp] theorem drawFree_fields (s : State) (w : Nat) :
    (drawFree s w).2.cycle = s.cycle ∧ (drawFree s w).2.bell = s.bell ∧ (drawFree s w).2.turn = s.turn ∧
    (drawFree s w).2.inbox = s.inbox ∧ (drawFree s w).2.script = s.script ∧ (drawFree s w).2.delays = s.delays ∧
    (drawFree s w).2.nextId = s.nextId ∧ (drawFree s w).2.coreNo = s.coreNo ∧ (drawFree s w).2.pkgNo = s.pkgNo ∧
    (drawFree s w).2.ctx = s.ctx ∧ (drawFree s w).2.held = s.held ∧ (drawFree s w).2.saved = s.saved ∧
    (drawFree s w).2.ops = s.ops ∧ (drawFree s w).2.mem = s.mem ∧ (drawFree s w).2.mx = s.mx ∧ (drawFree s w).2.l1 = s.l1 ∧
    (drawFree s w).2.qc = s.qc ∧ (drawFree s w).2.llc = s.llc ∧ (drawFree s w).2.llcLines = s.llcLines ∧
    (drawFree s w).2.poison = s.poison ∧ (drawFree s w).2.armed = s.armed ∧ (drawFree s w).2.full = s.full ∧
    (drawFree s w).2.handles = s.handles ∧ (drawFree s w).2.tlb = s.tlb ∧ (drawFree s w).2.dirs = s.dirs ∧
    (drawFree s w).2.misses = s.misses ∧ (drawFree s w).2.nets = s.nets ∧ (drawFree s w).2.replies = s.replies ∧
    (drawFree s w).2.portSeq = s.portSeq ∧ (drawFree s w).2.regions = s.regions ∧ (drawFree s w).2.tlbi = s.tlbi ∧
    (drawFree s w).2.disp = s.disp ∧ (drawFree s w).2.moot = s.moot ∧ (drawFree s w).2.ports = s.ports ∧
    (drawFree s w).2.routes = s.routes ∧ (drawFree s w).2.outq = s.outq ∧ (drawFree s w).2.host = s.host ∧
    (drawFree s w).2.pcie = s.pcie ∧ (drawFree s w).2.sensed = s.sensed ∧
    (drawFree s w).2.softErrors = s.softErrors ∧ (drawFree s w).2.reports = s.reports := by
  and_intros <;> rfl

@[simp] theorem addVarOp_fields (s : State) (e : Engine) (ws : List RegWrite) (k : OpKind) :
    (addVarOp s e ws k).cycle = s.cycle ∧ (addVarOp s e ws k).bell = s.bell ∧ (addVarOp s e ws k).turn = s.turn ∧
    (addVarOp s e ws k).inbox = s.inbox ∧ (addVarOp s e ws k).script = s.script ∧ (addVarOp s e ws k).free = s.free ∧
    (addVarOp s e ws k).coreNo = s.coreNo ∧ (addVarOp s e ws k).pkgNo = s.pkgNo ∧ (addVarOp s e ws k).ctx = s.ctx ∧
    (addVarOp s e ws k).held = s.held ∧ (addVarOp s e ws k).saved = s.saved ∧ (addVarOp s e ws k).mem = s.mem ∧
    (addVarOp s e ws k).mx = s.mx ∧ (addVarOp s e ws k).l1 = s.l1 ∧ (addVarOp s e ws k).qc = s.qc ∧
    (addVarOp s e ws k).llc = s.llc ∧ (addVarOp s e ws k).llcLines = s.llcLines ∧ (addVarOp s e ws k).poison = s.poison ∧
    (addVarOp s e ws k).armed = s.armed ∧ (addVarOp s e ws k).full = s.full ∧ (addVarOp s e ws k).handles = s.handles ∧
    (addVarOp s e ws k).tlb = s.tlb ∧ (addVarOp s e ws k).dirs = s.dirs ∧ (addVarOp s e ws k).misses = s.misses ∧
    (addVarOp s e ws k).nets = s.nets ∧ (addVarOp s e ws k).replies = s.replies ∧ (addVarOp s e ws k).portSeq = s.portSeq ∧
    (addVarOp s e ws k).regions = s.regions ∧ (addVarOp s e ws k).tlbi = s.tlbi ∧ (addVarOp s e ws k).disp = s.disp ∧
    (addVarOp s e ws k).moot = s.moot ∧ (addVarOp s e ws k).ports = s.ports ∧ (addVarOp s e ws k).routes = s.routes ∧
    (addVarOp s e ws k).outq = s.outq ∧ (addVarOp s e ws k).host = s.host ∧ (addVarOp s e ws k).pcie = s.pcie ∧ (addVarOp s e ws k).sensed = s.sensed ∧
    (addVarOp s e ws k).softErrors = s.softErrors ∧ (addVarOp s e ws k).reports = s.reports := by
  unfold addVarOp takeDelay; split <;> and_intros <;> rfl

@[simp] theorem ctlResult_fields (s : State) (e : Engine) (n : BitVec 5) (v : BitVec 64) :
    (ctlResult s e n v).cycle = s.cycle ∧ (ctlResult s e n v).bell = s.bell ∧ (ctlResult s e n v).turn = s.turn ∧
    (ctlResult s e n v).inbox = s.inbox ∧ (ctlResult s e n v).script = s.script ∧ (ctlResult s e n v).free = s.free ∧
    (ctlResult s e n v).delays = s.delays ∧ (ctlResult s e n v).coreNo = s.coreNo ∧ (ctlResult s e n v).pkgNo = s.pkgNo ∧
    (ctlResult s e n v).held = s.held ∧ (ctlResult s e n v).saved = s.saved ∧ (ctlResult s e n v).mem = s.mem ∧
    (ctlResult s e n v).mx = s.mx ∧ (ctlResult s e n v).l1 = s.l1 ∧ (ctlResult s e n v).qc = s.qc ∧
    (ctlResult s e n v).llc = s.llc ∧ (ctlResult s e n v).llcLines = s.llcLines ∧ (ctlResult s e n v).poison = s.poison ∧
    (ctlResult s e n v).armed = s.armed ∧ (ctlResult s e n v).full = s.full ∧ (ctlResult s e n v).handles = s.handles ∧
    (ctlResult s e n v).tlb = s.tlb ∧ (ctlResult s e n v).dirs = s.dirs ∧ (ctlResult s e n v).misses = s.misses ∧
    (ctlResult s e n v).nets = s.nets ∧ (ctlResult s e n v).replies = s.replies ∧ (ctlResult s e n v).portSeq = s.portSeq ∧
    (ctlResult s e n v).regions = s.regions ∧ (ctlResult s e n v).tlbi = s.tlbi ∧ (ctlResult s e n v).disp = s.disp ∧
    (ctlResult s e n v).moot = s.moot ∧ (ctlResult s e n v).ports = s.ports ∧ (ctlResult s e n v).routes = s.routes ∧
    (ctlResult s e n v).outq = s.outq ∧ (ctlResult s e n v).host = s.host ∧ (ctlResult s e n v).pcie = s.pcie ∧ (ctlResult s e n v).sensed = s.sensed ∧
    (ctlResult s e n v).softErrors = s.softErrors ∧ (ctlResult s e n v).reports = s.reports := by
  unfold ctlResult; split
  · and_intros <;> rfl
  · split <;> and_intros <;> rfl
/-! ### Updates that are the update of one engine, of the running context or of the Dispatcher -/

theorem putA_eq (s : State) (e : Engine) (n : BitVec 5) (v : BitVec 64) : putA s e n v = s.setEng e ((s.eng e).setA n v) := rfl

theorem putBf_eq (s : State) (e : Engine) (b : BitVec 4) (v : BitVec 256) : putBf s e b v = s.setEng e ((s.eng e).setB b v) :=
  rfl

theorem passWord_eq (s : State) (e : Engine) : passWord s e = s.setEng e ((s.eng e).toBoundary ((s.eng e).pc + 4) 1) := rfl

theorem passPair_eq (s : State) (e : Engine) : passPair s e = s.setEng e ((s.eng e).toBoundary ((s.eng e).pc + 8) 2) := rfl

theorem clearWait_eq (s : State) (e : Engine) :
    clearWait s e = s.setEng e { (s.eng e) with wait := none, feWait := none, prepared := false, begun := false } := rfl

theorem jumpTo_eq (s : State) (e : Engine) (a : BitVec 64) : jumpTo s e a = s.setEng e ((s.eng e).jump a) := rfl

theorem holdAfter_eq (s : State) (e : Engine) (h : Hdr) : holdAfter s e h = s.setEng e { (s.eng e) with
    holdUntil := if h.stall = 7#3 then (s.eng e).holdUntil else max (s.eng e).holdUntil (s.cycle + 1 + h.stall.toNat)
    drain := h.stall = 7#3
    drainTo := if h.stall = 7#3 then s.nextId else (s.eng e).drainTo
    paceUntil := s.cycle + (s.ctx.pace.getD e.tag 0).toNat + s.ctx.paceExtra.toNat } := rfl

theorem setMxCtx_eq (s : State) (m : MxCtx) : setMxCtx s m = setCtx s { s.ctx with mx := m } := rfl

theorem setVec_eq (s : State) (v : Vec) : setVec s v = setCtx s { s.ctx with vec := v } := rfl

theorem setBte_eq (s : State) (b : Bte) : setBte s b = setCtx s { s.ctx with bte := b } := rfl

theorem setThr_eq (s : State) (t : ThrRegs) : setThr s t = setCtx s { s.ctx with thr := t } := rfl

theorem setWq_eq (s : State) (q : Nat) (w : Wq) : setWq s q w = setDisp s { s.disp with wqs := setAssoc s.disp.wqs q w } := rfl

/-- A fault stops the strand as `strandStop` says: nothing but the running context changes. -/
theorem raise_eq (s : State) (e : Engine) (t : Trap) : raise s e t = strandStop s (trapInfo s e t) (t.code = .trap) := rfl

/-! ### Engines -/

@[simp] theorem get_set (x : Engines) (e f : Engine) (y : Eng) : (x.set e y).get f = if f = e then y else x.get f := by
  cases e <;> cases f <;> rfl

@[simp] theorem eng_setEng (s : State) (e f : Engine) (x : Eng) : (s.setEng e x).eng f = if f = e then x else s.eng f :=
  get_set s.ctx.eng e f x

/-- An engine set again forgets what it was set to before. -/
@[simp] theorem setEng_setEng (s : State) (e : Engine) (x y : Eng) : (s.setEng e x).setEng e y = s.setEng e y := by
  cases e <;> rfl

/-- An engine set to itself changes nothing. -/
@[simp] theorem setEng_self (s : State) (e : Engine) : s.setEng e (s.eng e) = s := by
  cases e <;> rfl

/-- Whose turn it is depends on the turn alone. -/
theorem cur_eq {s t : State} (h : t.turn = s.turn) : t.cur = s.cur := by
  simp only [State.cur, h]

/-- Setting an engine touches nothing of the running context but its engines. -/
@[simp] theorem setEng_ctx (s : State) (e : Engine) (x : Eng) : (s.setEng e x).ctx = { s.ctx with eng := s.ctx.eng.set e x } :=
  rfl

/-- A token counter touches no engine. -/
@[simp] theorem eng_tokSet (s : State) (i n : Nat) (e : Engine) : (tokSet s i n).eng e = s.eng e := rfl

@[simp] theorem eng_addOp (s : State) (e f : Engine) (n : Nat) (ws : List RegWrite) (b : Bool) (fx : Fx) (k : OpKind) :
    (addOp s e n ws b fx k).eng f = s.eng f := rfl

/-! ### Registers -/

/-- A register reads what was written to it; a0 reads zero, and every other register keeps its value (R10, R74). -/
theorem areg_setA (x : Eng) (n m : BitVec 5) (v : BitVec 64) :
    (x.setA n v).areg m = if m = n then (if n = 0 then 0 else v) else x.areg m := by
  unfold Eng.setA Eng.areg
  by_cases hn : n = 0
  · subst hn
    by_cases hm : m = 0
    · rw [if_pos rfl, if_pos hm, if_pos hm, if_pos rfl]
    · rw [if_pos rfl, if_neg hm, if_neg hm]
  · rw [if_neg hn]
    by_cases hm : m = n
    · subst hm
      rw [if_neg hn, if_pos rfl, if_neg hn]
      simp [Vector.getD, m.isLt]
    · have h : ¬n.toNat = m.toNat := fun h => hm (BitVec.eq_of_toNat_eq h.symm)
      rw [if_neg hm]
      by_cases h0 : m = 0
      · rw [if_pos h0, if_pos h0]
      · rw [if_neg h0, if_neg h0]
        simp [Vector.getD, m.isLt, h]

@[simp] theorem setA_fields (x : Eng) (n : BitVec 5) (v : BitVec 64) :
    (x.setA n v).bf = x.bf ∧ (x.setA n v).pc = x.pc ∧ (x.setA n v).loops = x.loops ∧ (x.setA n v).seq = x.seq ∧
    (x.setA n v).walk = x.walk ∧ (x.setA n v).wait = x.wait ∧ (x.setA n v).pushes = x.pushes ∧
    (x.setA n v).active = x.active ∧ (x.setA n v).pending = x.pending ∧ (x.setA n v).holdUntil = x.holdUntil := by
  unfold Eng.setA; split <;> and_intros <;> rfl

/-- The records of an engine: one is written, the others keep their values. -/
theorem breg_setB (x : Eng) (b c : BitVec 4) (v : BitVec 256) : (x.setB b v).breg c = if c = b then v else x.breg c := by
  unfold Eng.setB Eng.breg
  by_cases h : c = b
  · subst h; simp [Vector.getD, c.isLt]
  · have h' : ¬b.toNat = c.toNat := fun e => h (BitVec.eq_of_toNat_eq e.symm)
    simp [h, Vector.getD, c.isLt, h']

/-- Reading after `putA`. -/
theorem readA_putA (s : State) (e f : Engine) (n m : BitVec 5) (v : BitVec 64) :
    readA (putA s e n v) f m = if f = e ∧ m = n then (if n = 0 then 0 else v) else readA s f m := by
  unfold readA putA
  by_cases h : f = e
  · subst h; simp [areg_setA]
  · simp [h]

/-- What passing words changes of an engine: its place in the text, its count of words, its loops and its sequencer. -/
@[simp] theorem toBoundary_fields (x : Eng) (p : BitVec 64) (n : Nat) :
    (x.toBoundary p n).a = x.a ∧ (x.toBoundary p n).bf = x.bf ∧ (x.toBoundary p n).walk = x.walk + n ∧
    (x.toBoundary p n).wait = x.wait ∧ (x.toBoundary p n).pushes = x.pushes ∧ (x.toBoundary p n).active = x.active ∧
    (x.toBoundary p n).pending = x.pending ∧ (x.toBoundary p n).holdUntil = x.holdUntil ∧
    (x.toBoundary p n).drain = x.drain ∧ (x.toBoundary p n).paceUntil = x.paceUntil ∧
    (x.toBoundary p n).atStop = x.atStop ∧ (x.toBoundary p n).atPhase = x.atPhase := by
  unfold Eng.toBoundary
  dsimp only
  split
  · and_intros <;> rfl
  · split
    · split <;> and_intros <;> rfl
    · and_intros <;> rfl

/-- Outside every loop body an engine stands at the boundary that it has reached. -/
theorem toBoundary_straight (x : Eng) (p : BitVec 64) (n : Nat) (hs : x.seq = none) (hl : x.loops = []) :
    x.toBoundary p n = { x with pc := p, walk := x.walk + n } := by
  simp [Eng.toBoundary, hs, hl, passEnds]

/-! ### Outstanding operations -/

/-- A started operation stands last, and is found by its number where none before it has that number. -/
theorem addOp_ops (s : State) (e : Engine) (n : Nat) (ws : List RegWrite) (b : Bool) (fx : Fx) (k : OpKind) :
    ∃ o, (addOp s e n ws b fx k).ops = s.ops ++ [o] ∧ o.id = s.nextId ∧ o.eng = e ∧ o.ws = ws ∧ o.fixed = b ∧ o.fx = fx ∧
      o.kind = k ∧ o.strand = s.ctx.strand ∧ o.pc = (s.eng e).pc :=
  ⟨_, rfl, rfl, rfl, rfl, rfl, rfl, rfl, rfl, rfl⟩

@[simp] theorem addOp_nextId (s : State) (e : Engine) (n : Nat) (ws : List RegWrite) (b : Bool) (fx : Fx) (k : OpKind) :
    (addOp s e n ws b fx k).nextId = s.nextId + 1 := rfl

/-- An operation that is removed is found no more. -/
@[simp] theorem findOp_removeOp (s : State) (id : Nat) : findOp (removeOp s id) id = none := by
  simp [findOp, removeOp]

end Sys2Proof.Laws
end

