-- ==== Sys2Proof/Laws/Accesses.lean ====
section
/-! SUPPORT. The shared operations of accesses: releases, located reads and writes, the Dispatcher's reads and writes. What each
keeps: the canonical form of the bytes, and the state beside memory and the caches. -/
namespace Sys2Proof.Laws
open Sys2Proof.Machine

/-! ### The canonical form -/

theorem addVarOp_bytesOk {s : State} (h : s.BytesOk) (e : Engine) (ws : List RegWrite) (k : OpKind) :
    (addVarOp s e ws k).BytesOk := bytesOk_of_eq h (by simp) (by simp) (by simp) (by simp)

/-- Host requests are noted and change nothing else (R488). -/
theorem hostRequests_pcie (s : State) (vf : BitVec 4) (write : Bool) (ks : List Nat) :
    hostRequests s vf write ks = { s with pcie := (hostRequests s vf write ks).pcie } := by
  unfold hostRequests; split <;> rfl

theorem hostRequests_bytesOk {s : State} (h : s.BytesOk) (vf : BitVec 4) (write : Bool) (ks : List Nat) :
    (hostRequests s vf write ks).BytesOk := by
  rw [hostRequests_pcie]; exact h

/-- A release's flushing reads are noted and change nothing else (R488). -/
theorem hostFlush_pcie (s : State) (scope : BitVec 3) (l : List (Nat × Byte)) :
    hostFlush s scope l = { s with pcie := (hostFlush s scope l).pcie } := by
  unfold hostFlush; repeat' split
  all_goals rfl

theorem hostFlush_bytesOk {s : State} (h : s.BytesOk) (scope : BitVec 3) (l : List (Nat × Byte)) :
    (hostFlush s scope l).BytesOk := by
  rw [hostFlush_pcie]; exact h

theorem releasePrep_bytesOk {s : State} (h : s.BytesOk) (e : Engine) (scope : BitVec 3) : (releasePrep s e scope).1.BytesOk := by
  unfold releasePrep
  split
  · exact h
  · split
    · exact h
    · split
      · dsimp only
        split
        · exact hostFlush_bytesOk (releaseActions_bytesOk h scope) _ _
        · exact addVarOp_bytesOk (hostFlush_bytesOk (releaseActions_bytesOk h scope) _ _) e [] (.writeBack scope)
      · exact h

theorem releaseWrite_bytesOk {s : State} (h : s.BytesOk) (scope : Option (BitVec 3)) (cache : BitVec 3) (p : Place)
    (bs : List Byte) : (releaseWrite s scope cache p bs).BytesOk := by
  have hp {u : State} (hu : u.BytesOk) (l : List (Nat × Byte)) :
      (if scopePoint scope = 1 then quadWrite u cache l else homeStore u cache l).BytesOk := by
    split
    · exact quadWrite_bytesOk hu _ _
    · exact homeStore_bytesOk hu _ _
  unfold releaseWrite
  split
  · exact writePlace_bytesOk h _ _ _
  · split
    · exact writePlace_bytesOk h _ _ _
    · dsimp only
      split <;> split <;> first
        | exact h
        | exact homeWriteVia_bytesOk h _ _
        | exact hp h _
        | exact homeWriteVia_bytesOk (hp h _) _ _

theorem prepareRead_bytesOk {s : State} (h : s.BytesOk) (cache : BitVec 3) (point : Nat) (ls : List (Nat × Bool)) :
    (prepareRead s cache point ls).1.BytesOk :=
  fetchLines_bytesOk (noteAliasRead_bytesOk (homePrep_bytesOk h _) _ _) _ _ _

theorem readState_bytesOk {s : State} (h : s.BytesOk) (cache : BitVec 3) (point : Nat) (p : Place) :
    (readState s cache point p).1.BytesOk := by
  cases p
  · exact h
  · exact prepareRead_bytesOk h _ _ _

/-- A read of a place changes nothing beside memory and the caches. -/
theorem readState_only (s : State) (cache : BitVec 3) (point : Nat) (p : Place) : OnlyBytes s (readState s cache point p).1 := by
  cases p
  · exact .rfl
  · exact ((homePrep_only s _).trans (noteAliasRead_only _ _ _)).trans (fetchLines_only _ _ _ _)

/-- A read of a place changes no byte that the core sees. -/
theorem readState_quiet {s : State} (h : s.BytesOk) (hn : NoAlias s) (hf : s.Fresh) (cache : BitVec 3) (point : Nat) (p : Place) :
    Quiet s (readState s cache point p).1 := by
  cases p
  · exact ⟨h, hn, hf, fun _ => rfl⟩
  · show Quiet s (prepareRead s cache point _).1
    unfold prepareRead
    dsimp only
    rw [homePrep_noAlias hn, noteAliasRead_noAlias hn]
    exact fetchLines_quiet h hn hf _ _ _

theorem readPrep_bytesOk {s : State} (h : s.BytesOk) (cache : BitVec 3) (ls : List Loc) : (readPrep s cache ls).1.BytesOk := by
  unfold readPrep
  dsimp only
  split <;> exact noteAliasRead_bytesOk (homePrep_bytesOk h _) _ _

theorem readPrep_noAlias {s : State} (hn : NoAlias s) (cache : BitVec 3) (ls : List Loc) : (readPrep s cache ls).1 = s := by
  unfold readPrep
  dsimp only
  rw [homePrep_noAlias hn, noteAliasRead_noAlias hn]
  split <;> rfl

theorem storePlain_bytesOk {s : State} (h : s.BytesOk) (via : Via) (cache : BitVec 3) (l : List (Nat × Byte)) :
    (storePlain s via cache l).BytesOk := by
  cases via
  · exact cachedWrite_bytesOk h _ _
  · exact cachedWrite_bytesOk h _ _
  · exact drainStore_bytesOk h _ _
  · exact homeStore_bytesOk h _ _

theorem writeLocs_bytesOk {s : State} (h : s.BytesOk) (via : Via) (cache : BitVec 3) (l : List (Loc × Byte)) :
    (writeLocs s via cache l).BytesOk := by
  have k := rawWrite_bytesOk h ((l.filter fun c => !c.1.glob).map fun c => (c.1.key, c.2))
  unfold writeLocs
  dsimp only
  split <;> split <;> first
    | exact k
    | exact homeWriteVia_bytesOk k _ _
    | exact storePlain_bytesOk k _ _ _
    | exact homeWriteVia_bytesOk (storePlain_bytesOk k _ _ _) _ _

theorem coverPoison_bytesOk {s : State} (h : s.BytesOk) (ks : List Nat) : (coverPoison s ks).BytesOk := by
  unfold coverPoison
  split <;> exact h

theorem podRequests_bytesOk {s : State} (h : s.BytesOk) (e : Engine) (acc : Acc) (who : Option Sender) (ks : List Nat) :
    (podRequests s e acc who ks).BytesOk := by
  unfold podRequests
  split <;> exact h

theorem writeCodes_bytesOk {s : State} (h : s.BytesOk) (via : Via) (cache : BitVec 3) (l : List CodeWrite) :
    (writeCodes s via cache l).1.BytesOk := by
  have k {u : State} (hu : u.BytesOk) (m : List (Loc × Byte)) : (writeLocs u via cache m).BytesOk := writeLocs_bytesOk hu _ _ _
  unfold writeCodes engineFlits
  dsimp only
  have h' := hostRequests_bytesOk (podRequests_bytesOk h via.engine .write none (l.flatMap fun w => w.ls.map (·.key)))
    s.ctx.part (Acc.writes .write)
    (l.flatMap fun w => w.ls.map (·.key))
  split
  · exact k h' _
  · exact coverPoison_bytesOk (k h' _) _

theorem writeObj_bytesOk {s : State} (h : s.BytesOk) (key : Nat) (o : BarObj) : (writeObj s key o).BytesOk :=
  rawWrite_bytesOk (s := { s with armed := if o.armed then s.armed.filter (· != key) ++ [key] else s.armed.filter (· != key) })
    h _

/-! ### Walks and the Dispatcher's accesses -/

/-- `t` differs from `s` in memory, the caches, what the dies have translated, the misses, the requests to the host, the reports
and the count of free values alone. -/
def OnlyWalk (s t : State) : Prop :=
  t = { s with mem := t.mem, poison := t.poison, l1 := t.l1, qc := t.qc, llc := t.llc, llcLines := t.llcLines,
               regions := t.regions, free := t.free, tlb := t.tlb, dirs := t.dirs, misses := t.misses, pcie := t.pcie,
               reports := t.reports }

theorem OnlyWalk.rfl {s : State} : OnlyWalk s s := Eq.refl _

theorem OnlyWalk.trans {s t u : State} (h : OnlyWalk s t) (k : OnlyWalk t u) : OnlyWalk s u := by
  unfold OnlyWalk at *
  rw [k, h]

theorem OnlyBytes.walk {s t : State} (h : OnlyBytes s t) : OnlyWalk s t := by
  unfold OnlyBytes at h
  unfold OnlyWalk
  rw [h]

theorem OnlyWalk.fields {s t : State} (h : OnlyWalk s t) :
    t.cycle = s.cycle ∧ t.bell = s.bell ∧ t.turn = s.turn ∧ t.inbox = s.inbox ∧ t.script = s.script ∧ t.ctx = s.ctx ∧
    t.held = s.held ∧ t.saved = s.saved ∧ t.ops = s.ops ∧ t.mx = s.mx ∧ t.armed = s.armed ∧ t.full = s.full ∧
    t.handles = s.handles ∧ t.nets = s.nets ∧ t.replies = s.replies ∧ t.tlbi = s.tlbi ∧ t.disp = s.disp ∧ t.moot = s.moot ∧
    t.ports = s.ports ∧ t.routes = s.routes ∧ t.outq = s.outq ∧ t.host = s.host ∧ t.sensed = s.sensed ∧
    t.softErrors = s.softErrors := by
  unfold OnlyWalk at h
  rw [h]
  and_intros <;> exact Eq.refl _

/-- A page walk reads tables at their home and holds the directory entries that it meets (R405). -/
theorem walkTables_only (part : BitVec 4) : ∀ (l : List Nat) (s : State) (table : Nat) (path : List Nat),
    OnlyWalk s (walkTables s part table path l).1
  | [], _, _, _ => .rfl
  | idx :: rest, s, table, path => by
    unfold walkTables
    dsimp only
    split
    · exact .rfl
    · have k := (homePrep_only s (keyRange (paKey s.pkgNo (table * 4096 + 8 * idx)) 8)).walk
      split
      · exact k
      · exact k
      · refine k.trans (OnlyWalk.trans ?_ (walkTables_only part rest _ _ _))
        exact Eq.refl _

theorem walkTables_bytesOk (part : BitVec 4) : ∀ (l : List Nat) (s : State) (table : Nat) (path : List Nat), s.BytesOk →
    (walkTables s part table path l).1.BytesOk
  | [], _, _, _, h => h
  | idx :: rest, s, table, path, h => by
    unfold walkTables
    dsimp only
    split
    · exact h
    · have k := homePrep_bytesOk h (keyRange (paKey s.pkgNo (table * 4096 + 8 * idx)) 8)
      split
      · exact k
      · exact k
      · exact walkTables_bytesOk part rest _ _ _ k

theorem pageWalkOf_only (s : State) (part : BitVec 4) (v : Nat) : OnlyWalk s (pageWalkOf s part v).1 := by
  unfold pageWalkOf
  dsimp only
  split <;> exact walkTables_only _ _ _ _ _

theorem pageWalkOf_bytesOk {s : State} (h : s.BytesOk) (part : BitVec 4) (v : Nat) : (pageWalkOf s part v).1.BytesOk := by
  unfold pageWalkOf
  dsimp only
  split <;> exact walkTables_bytesOk _ _ _ _ _ h

theorem holdMiss_only (s : State) (part : BitVec 4) (v : Nat) : OnlyWalk s (holdMiss s part v) := by
  unfold holdMiss
  split
  · exact .rfl
  · exact Eq.refl _

/-- Walks change what the dies have translated, the misses and the reports; they read tables at their home. -/
theorem walkPages_only (part : BitVec 4) : ∀ (l : List Nat) (s : State), OnlyWalk s (walkPages s part l).1
  | [], _ => .rfl
  | v :: r, s => by
    have k := pageWalkOf_only s part v
    unfold walkPages
    split
    · exact walkPages_only part r s
    · split
      · rename_i t l e
        rw [e] at k
        refine k.trans (OnlyWalk.trans ?_ (walkPages_only part r _))
        exact Eq.refl _
      · rename_i t e
        rw [e] at k
        exact k.trans (holdMiss_only _ _ _)

theorem walkPages_bytesOk (part : BitVec 4) : ∀ (l : List Nat) {s : State}, s.BytesOk → (walkPages s part l).1.BytesOk
  | [], _, h => h
  | v :: r, s, h => by
    have k := pageWalkOf_bytesOk h part v
    unfold walkPages
    split
    · exact walkPages_bytesOk part r h
    · split
      · rename_i t l e
        rw [e] at k
        exact walkPages_bytesOk part r (s := tlbInsert t part v l) k
      · rename_i t e
        rw [e] at k
        show (holdMiss t part v).BytesOk
        unfold holdMiss
        split <;> exact k

/-- A write of the Dispatcher keeps the canonical form (Table 1.13, R46). -/
theorem dispWrite_bytesOk {s : State} (h : s.BytesOk) (part : BitVec 4) (va : Nat) (bs : List Byte) :
    (dispWrite s part va bs).1.BytesOk := by
  have k := walkPages_bytesOk part (pagesOf va bs.length) h
  unfold dispWrite
  split
  · exact h
  · split
    · rename_i t v heq
      rw [heq] at k
      split <;> exact k
    · rename_i t heq
      rw [heq] at k
      split
      · exact homeWrite_bytesOk (hostRequests_bytesOk k _ _ _) _
      · exact k
      · exact k

end Sys2Proof.Laws
end

