-- ==== Sys2Proof/Laws/Encoding.lean ====
section
/-! SUPPORT. Fields of words put together from fields: with these rules alone, simp reads the decoder of an encoded word. -/
namespace Sys2Proof.Laws

/-- A field above the lower part is a field of the upper part. -/
theorem field_high {m n : Nat} (x : BitVec m) (y : BitVec n) (lo w : Nat) (h : n ≤ lo) :
    (x ++ y).extractLsb' lo w = x.extractLsb' (lo - n) w := BitVec.extractLsb'_append_eq_of_le h

/-- A field within the lower part is a field of the lower part. -/
theorem field_low {m n : Nat} (x : BitVec m) (y : BitVec n) (lo w : Nat) (h : lo + w ≤ n) :
    (x ++ y).extractLsb' lo w = y.extractLsb' lo w := BitVec.extractLsb'_append_eq_of_add_le h

/-- A field that is the whole vector. -/
theorem field_all {n : Nat} (x : BitVec n) : x.extractLsb' 0 n = x := by simp

theorem bit_high {m n : Nat} (x : BitVec m) (y : BitVec n) (k : Nat) (h : n ≤ k) :
    (x ++ y).getLsbD k = x.getLsbD (k - n) := by simp [BitVec.getLsbD_append, Nat.not_lt.mpr h]

theorem bit_low {m n : Nat} (x : BitVec m) (y : BitVec n) (k : Nat) (h : k < n) :
    (x ++ y).getLsbD k = y.getLsbD k := by simp [BitVec.getLsbD_append, h]

theorem bit1_get (b : Bool) : (bit1 b).getLsbD 0 = b := by cases b <;> rfl

/-- A vector is its upper and lower part put together again. -/
theorem split_at {n : Nat} (x : BitVec n) (lo hi : Nat) (h : n = hi + lo) :
    x = ((x.extractLsb' lo hi) ++ (x.extractLsb' 0 lo)).cast h.symm := by
  apply BitVec.eq_of_getLsbD_eq
  intro i hi'
  simp only [BitVec.getLsbD_cast, BitVec.getLsbD_append, BitVec.getLsbD_extractLsb']
  by_cases hl : i < lo
  · simp [hl]
  · have h2 : i - lo < hi := by omega
    have h3 : lo + (i - lo) = i := by omega
    simp [hl, h2, h3]

/-- One control word, read back by the rules above: R77's add. -/
theorem decode_add (ad aa ab : BitVec 5) (v : Word32) : decode ((0#1 ++ 1#6) ++ ad ++ aa ++ ab ++ 0#10) v = some (.add ad aa ab) := by
  simp (disch := decide) only [decode, decodeControl, bitAt, field, bit_high, field_high, field_low, field_all, Nat.reduceSub]
  rfl

end Sys2Proof.Laws
end

