-- ==== Sys2Proof/Laws/Issue.lean ====
section
/-! SUPPORT. The shared operations of issue: everything that `conclude`, `issueControl`, `controlWrite` and `issuePrivate` can
answer, said once, and what stalls, faults and results leave. -/
namespace Sys2Proof.Laws
open Sys2Proof.Machine

/-! ### Every issue answers a next state -/

theorem conclude_next (s : State) (e : Engine) (r : Res) : ∃ t, conclude s e r = .next t := by
  cases r <;> exact ⟨_, rfl⟩

theorem concludeRead_next (s : State) (e : Engine) (shadow : Option Trap) (r : Res) : ∃ t, concludeRead s e shadow r = .next t := by
  cases r <;> cases shadow <;> exact ⟨_, rfl⟩

theorem issueControl_next (s : State) (legal : Bool) (srcs : List (BitVec 5)) (body : Engine → Res) :
    ∃ t, issueControl s legal srcs body = .next t := by
  unfold issueControl
  dsimp only
  repeat' (first | exact ⟨_, rfl⟩ | exact concludeRead_next .. | exact conclude_next .. | split)

/-- The end of a private meaning answers a next state. -/
theorem privateEnd_next (s : State) (e : Engine) (h : Hdr) (tag : Option (BitVec 3)) (shadow : Option Trap) (r : Res) :
    ∃ t, issuePrivate.privateEnd s e h tag shadow r = .next t := by
  cases r
  · cases shadow <;> exact ⟨_, rfl⟩
  · exact ⟨_, rfl⟩
  · exact ⟨_, rfl⟩

theorem issuePrivate_next (s : State) (e : Engine) (h : Hdr) (tag : Option (BitVec 3)) (legal : Bool) (reads : List Reg)
    (need : State → Option WaitKind) (body : State → Res) : ∃ t, issuePrivate s e h tag legal reads need body = .next t := by
  unfold issuePrivate
  repeat' (first | exact ⟨_, rfl⟩ | exact privateEnd_next .. | split)

/-! ### Control words -/

theorem issueControl_illegal (s : State) (srcs : List (BitVec 5)) (body : Engine → Res) :
    issueControl s false srcs body = illegalWord s := rfl

/-- A legal control word whose sources can be read does what its body says. -/
theorem issueControl_ready (s : State) (srcs : List (BitVec 5)) (body : Engine → Res) (hr : CtlReady s srcs) :
    issueControl s true srcs body = conclude s s.cur (body s.cur) := by
  have h : readHazard s s.cur (srcs.map fun r => Reg.a r.toNat) = none := hr
  simp [issueControl, h]

/-- A control word that writes one register: its result, at the end of the word. -/
theorem controlWrite_ready (s : State) (legal : Bool) (dst : BitVec 5) (srcs : List (BitVec 5)) (value : Engine → BitVec 64)
    (hl : (legal && uniformOk s.cur (some dst) srcs) = true) (hr : CtlReady s srcs) :
    controlWrite s legal dst srcs value = .next (wordPassed s (ctlResult s s.cur dst (value s.cur))) := by
  rw [controlWrite, hl, issueControl_ready s srcs _ hr]
  rfl

theorem controlWrite_illegal (s : State) (legal : Bool) (dst : BitVec 5) (srcs : List (BitVec 5)) (value : Engine → BitVec 64)
    (hl : (legal && uniformOk s.cur (some dst) srcs) = false) : controlWrite s legal dst srcs value = illegalWord s := by
  rw [controlWrite, hl]
  rfl

/-! ### Private instructions -/

theorem issuePrivate_illegal (s : State) (e : Engine) (h : Hdr) (tag : Option (BitVec 3)) (reads : List Reg)
    (need : State → Option WaitKind) (body : State → Res) :
    issuePrivate s e h tag false reads need body = .next (raise s e { code := .illegalOp, tag := tag }) := rfl

/-- A private instruction that has its tokens, needs no wait and can read its sources: its body decides. -/
theorem issuePrivate_ready (s : State) (e : Engine) (h : Hdr) (tag : Option (BitVec 3)) (legal : Bool) (reads : List Reg)
    (need : State → Option WaitKind) (body : State → Res) (hl : legal = true) (hi : Issues s e h reads)
    (hn : need s = none) :
    issuePrivate s e h tag legal reads need body = (match body s with
      | .done t => .next (pairPassed s t e h)
      | .wait t k => .next (stall t e k)
      | .trap t => .next (raise s e (if tag.isSome then { t with tag := tag } else t))) := by
  obtain ⟨h1, h2⟩ := hi
  have h2' : readHazard s e reads = none := h2
  subst hl
  simp only [issuePrivate, h1, hn, h2']
  rfl

/-- Tokens that are not there keep a legal private instruction waiting. -/
theorem issuePrivate_tokens (s : State) (e : Engine) (h : Hdr) (tag : Option (BitVec 3)) (reads : List Reg)
    (need : State → Option WaitKind) (body : State → Res) (k : WaitKind) (hp : popWait s e h = some k) :
    issuePrivate s e h tag true reads need body = .next (stall s e k) := by
  simp [issuePrivate, hp]

/-! ### Faults and stalls -/

/-- A fault of a running strand stops it and records the fault; nothing else changes (R46). -/
theorem strandStop_running (s : State) (i : FaultInfo) (b : Bool) (hs : s.ctx.stop = none)
    (hr : s.ctx.status = .running ∨ s.ctx.status = .handler ∨ s.ctx.status = .boundary) :
    strandStop s i b = { s with ctx := { s.ctx with
      status := .stopped
      stop := some { info := i, at_ := s.cycle, multi := false, afterTrap := b, recorded := false, toHost := false, was := s.ctx.status,
                     resuming := false } } } := by
  unfold strandStop
  rw [hs]
  rcases hr with h | h | h <;> rw [h] <;> rfl

/-- A fault touches no engine, token or register of the running context. -/
@[simp] theorem strandStop_ctx (s : State) (i : FaultInfo) (b : Bool) :
    (strandStop s i b).ctx.eng = s.ctx.eng ∧ (strandStop s i b).ctx.tokens = s.ctx.tokens ∧
    (strandStop s i b).ctx.vec = s.ctx.vec ∧ (strandStop s i b).ctx.mx = s.ctx.mx ∧ (strandStop s i b).ctx.bte = s.ctx.bte ∧
    (strandStop s i b).ctx.thr = s.ctx.thr ∧ (strandStop s i b).ctx.imem = s.ctx.imem := by
  unfold strandStop
  repeat' split
  all_goals and_intros <;> rfl

/-- A stall changes the waits of its engine alone. -/
theorem stall_onlyEngine (s : State) (e : Engine) (k : WaitKind) :
    ∃ w f, stall s e k = s.setEng e { (s.eng e) with wait := w, feWait := f } := ⟨_, _, rfl⟩

/-! ### Results of control words -/

/-- A result with no earlier one outstanding is there at once; a0 takes none (R23, R74). -/
theorem ctlResult_free (s : State) (e : Engine) (n : BitVec 5) (v : BitVec 64)
    (h : ∀ o ∈ s.ops, o.eng = e → o.writes (.a n.toNat) = false) : ctlResult s e n v = putA s e n v := by
  unfold ctlResult
  by_cases hn : n = 0
  · subst hn
    rw [if_pos rfl]
    unfold putA Eng.setA
    rw [if_pos rfl, setEng_self]
  · rw [if_neg hn, if_neg]
    simp only [List.any_eq_true, Bool.and_eq_true, beq_iff_eq, not_exists, not_and]
    intro o ho he hw
    rw [h o ho he] at hw
    exact Bool.noConfusion hw

/-- The end of a control word changes its engine alone. -/
theorem wordPassed_onlyEngine (s t : State) : OnlyEngine s.cur t (wordPassed s t) :=
  ⟨_, setEng_setEng t s.cur _ _⟩

/-- A stall that continues an earlier one counts from its first cycle (R18). -/
theorem stall_continues (s : State) (e : Engine) (k : WaitKind) (w : Wait) (hw : (s.eng e).wait = some w)
    (hk : k.continues w.kind = true) : ((stall s e k).eng e).wait = some { w with kind := k } := by
  simp [stall, stallWaits, hw, hk]

/-- The end of a control word keeps every byte. -/
theorem wordPassed_bytes (s t : State) : (wordPassed s t).mem = t.mem ∧ (wordPassed s t).l1 = t.l1 ∧
    (wordPassed s t).qc = t.qc ∧ (wordPassed s t).llc = t.llc := ⟨rfl, rfl, rfl, rfl⟩

/-- The end of a private instruction keeps every byte. -/
theorem pairPassed_bytes (s t : State) (e : Engine) (h : Hdr) : (pairPassed s t e h).mem = t.mem ∧
    (pairPassed s t e h).l1 = t.l1 ∧ (pairPassed s t e h).qc = t.qc ∧ (pairPassed s t e h).llc = t.llc := by
  unfold pairPassed issued
  simp [clearWait_eq, holdAfter_eq, passPair_eq]

end Sys2Proof.Laws
end

