-- ==== Sys2Proof/Laws/Steps.lean ====
section
/-! SUPPORT. What one step can do, said once: every statement about steps is a case analysis on these equations. -/
namespace Sys2Proof.Laws
open Sys2Proof.Machine

/-- A powered machine with an event due runs that event. -/
theorem step_event {s : State} (hp : s.host.powered = true) {i : Instr} {r : List Instr} (hi : s.inbox = i :: r) :
    step s = exec i { s with inbox := r } := by
  unfold step
  rw [if_neg (by simp [hp]), hi]

/-- At the end of a cycle the machine closes it. -/
theorem step_close {s : State} (hp : s.host.powered = true) (hi : s.inbox = []) (ht : s.turn = .close) :
    step s = .next (closeCycle s) := by
  unfold step
  rw [if_neg (by simp [hp]), hi, ht]

/-- In the turn of an engine what completes before its slot runs first (Table 13.1). -/
theorem step_due {s : State} (hp : s.host.powered = true) (hi : s.inbox = []) {e : Engine} (ht : s.turn = .eng e) {i : Instr}
    {r : List Instr} (hd : dueBefore s e = i :: r) : step s = exec i s := by
  unfold step
  rw [if_neg (by simp [hp]), hi, ht]
  simp only [hd]

/-- In the turn of an engine, where nothing completes before it, its slot decides. -/
theorem step_slot {s : State} (hp : s.host.powered = true) (hi : s.inbox = []) {e : Engine} (ht : s.turn = .eng e)
    (hd : dueBefore s e = []) :
    step s = (match slot s e with
      | .idle t => .next (advance t e)
      | .pass t => .next t
      | .free i => exec i s
      | .exec i => afterSlot e (exec i s)) := by
  unfold step
  rw [if_neg (by simp [hp]), hi, ht]
  simp only [hd]
  try rfl

/-- Without power and without a power-on reset to come nothing executes (R493). -/
theorem step_powerless {s : State} (hp : s.host.powered = false) (hs : ∀ x ∈ s.script, x.2 ≠ .powerOnReset) :
    step s = .fault .noPower := by
  unfold step
  rw [if_pos hp]
  unfold step.powerless
  have h : (s.script.find? fun x => x.2 == .powerOnReset) = none := by
    rw [List.find?_eq_none]
    intro x hx
    simpa using hs x hx
  rw [h]

/-- A slot that an instruction has used passes the turn on and changes nothing else of what the instruction left. -/
theorem afterSlot_next (e : Engine) (t : State) : afterSlot e (.next t) = .next { t with turn := nextTurn e } := rfl

/-- Whether `afterSlot` answers a next state depends on the instruction alone. -/
theorem afterSlot_isNext {e : Engine} {o : Host.Outcome State Fault Refusal} (h : ∃ t, o = .next t) :
    ∃ t, afterSlot e o = .next t := by
  obtain ⟨t, rfl⟩ := h
  exact ⟨_, rfl⟩

end Sys2Proof.Laws
end

