-- ==== Sys2Proof/Tests/Slice0.lean ====
section
/-! SUPPORT. Tests: words written out from the spec's encodings, ill-formed terms that the checks refuse, one-step results worked
out from the rules, and for every statement with hypotheses a state and operands that meet them. -/
namespace Sys2Proof.Tests
open Sys2Proof.Machine

set_option Elab.async false

/-- A header that does nothing, and one that a Thresher instruction may not have: it pops data, pushes upstream, or stalls. -/
def hp : Hdr := Hdr.plain
def hd : Hdr := { Hdr.plain with pd := true }
def hu : Hdr := { Hdr.plain with qu := true }
def hs : Hdr := { Hdr.plain with stall := 1 }

/-- Nothing of the engine is outstanding and no cache holds a dirty byte: a release is done at once (`released_of_clean`). -/
def clean (s : State) (e : Engine) : Bool := s.ops.isEmpty && !(s.eng e).prepared && s.l1.dirty.isEmpty && s.qc.dirty.isEmpty

theorem released_of_clean (s : State) (e : Engine) (scope : Option (BitVec 3)) (h : clean s e = true) : Released s e scope s := by
  simp only [clean, Bool.and_eq_true, Bool.not_eq_true', List.isEmpty_iff] at h
  obtain ⟨⟨⟨h1, h2⟩, h3⟩, h4⟩ := h
  cases scope <;> simp [Released, releasePrep, dirtyAt, h1, h2, h3, h4]

/-- Caches without a clean byte hold nothing old. -/
theorem fresh_of_empty (s : State) (h : s.l1.clean = [] ∧ s.qc.clean = []) : s.Fresh := by
  intro pa b; simp [h.1, h.2, ovGet]

/-- Ill-formed instructions, one for each check: control. -/
theorem test_illFormed_control : ∀ i ∈ ([
    .loop 0 0 0, .loop 1 1 1, .loopm 0 0 0 0, .loopm 0 1 0 8, .bfset 0 11 0 0, .bfadd 0 11 0 0, .bfget 0 11 0,
    .twait 1 0 0, .twait 1 3 1, .twait 0 0 1, .twait 2 2 1] : List Instr), wellFormed i = false := by decide

/-- Ill-formed instructions, one for each check: steward. -/
theorem test_illFormed_steward : ∀ i ∈ ([
    .ld hp 3 0 0 0 0 0 0 0 0 0, .ld hp 0 0 0 0 0 0 1 0 0 0, .ld hp 0 0 0 0 0 0 15 0 0 0, .ld hp 0 0 6 1 0 0 0 0 0 0,
    .ld hp 0 0 1 0 0 0 0 0 0 0, .ld hp 0 1 0 0 0 0 0 0 0 0, .ld hp 0 1 1 1 0 0 0 0 0 0, .ld hp 0 0 0 2 0 0 0 0 0 0,
    .ld hp 0 0 0 0 1 3 0 0 0 0, .st hp 3 0 0 0 0 0 0 0 0 0, .st hp 0 0 6 2 0 0 0 0 0 0, .st hp 0 0 1 0 0 0 0 0 0 0,
    .st hp 0 1 0 0 0 0 0 0 0 0, .st hp 0 1 1 2 0 0 0 0 0 0, .st hp 0 0 0 1 0 0 0 0 0 0, .st hp 0 0 0 0 1 0 0 0 0 0,
    .ldf hp 1 0 0 0, .ldf hp 15 0 0 0, .atom hp 1 0 0 0 0 2 0 0 0 0 0 0, .atom hp 0 0 0 0 0 2 1 0 0 0 0 0,
    .atom hp 0 0 0 0 0 2 15 0 0 0 0 0, .atom hp 0 0 6 1 0 2 0 0 0 0 0 0, .atom hp 0 0 1 0 0 2 0 0 0 0 0 0,
    .atom hp 0 1 0 0 0 2 0 0 0 0 0 0, .atom hp 0 1 1 1 0 2 0 0 0 0 0 0, .atom hp 0 0 0 0 1 2 0 0 0 0 0 0,
    .atom hp 0 0 0 0 0 1 0 0 0 0 0 0, .atom hp 0 0 0 0 0 2 0 0 0 0 10 0, .fence hp 6 1, .fence hp 0 0, .bara hp 5 0 0 0 0,
    .barw hp 5 0 0 0, .bars hp 5 0 0 0 0, .htake hp 1 0 0, .htake hp 15 0 0, .hqry hp 1 0 0, .hqry hp 15 0 0, .abc hp 0 0,
    .abc hp 16 0, .foot hp 5 0 0, .csrr hp 0x010 1, .csrr hp 0x010 15, .csrr hp 0x001 0, .csrr hp 0x016 0,
    .csrr hp 0x0A2 0, .csrw hp 0x001 0, .csrw hp 0x016 0, .csrw hp 0x0A2 0, .bellr hp 1, .bellr hp 15, .ttok hp 0,
    .qres hp 15 0 0, .qhead hp 15 0, .ditem hp 15 0, .gclkr hp 15] : List Instr), wellFormed i = false := by decide

/-- Ill-formed instructions, one for each check: vector_1. -/
theorem test_illFormed_vector_1 : ∀ i ∈ ([
    .vadd hp 0x13 0 0 0 0 0 0, .vadd hp 8 6 0 0 0 0 0, .vadd hp 0 1 0 0 0 0 0, .vsub hp 0x13 0 0 0 0 0 0,
    .vsub hp 8 6 0 0 0 0 0, .vsub hp 0 1 0 0 0 0 0, .vmul hp 0x13 0 0 0 0 0 0, .vmul hp 8 6 0 0 0 0 0,
    .vmul hp 0 1 0 0 0 0 0, .vmin hp 0x13 0 0 0 0 0, .vmax hp 0x13 0 0 0 0 0, .vmulh hp 0x13 0 0 0 0 0,
    .vadds hp 0x13 0 0 0 0 0, .vsubs hp 0x13 0 0 0 0 0, .vfma hp 0x13 0 0 0 0 0 0 0, .vfma hp 8 6 0 0 0 0 0 0,
    .vfma hp 0 1 0 0 0 0 0 0, .vfms hp 0x13 0 0 0 0 0 0 0, .vfms hp 8 6 0 0 0 0 0 0, .vfms hp 0 1 0 0 0 0 0 0,
    .vfnma hp 0x13 0 0 0 0 0 0 0, .vfnma hp 8 6 0 0 0 0 0 0, .vfnma hp 0 1 0 0 0 0 0 0, .vabs hp 0x13 0 0 0 0,
    .vneg hp 0x13 0 0 0 0, .vand hp 0x13 0 0 0 0 0, .vor hp 0x13 0 0 0 0 0, .vxor hp 0x13 0 0 0 0 0, .vnot hp 0x13 0 0 0 0,
    .vsll hp 0x13 0 0 0 0 0, .vsrl hp 0x13 0 0 0 0 0, .vsra hp 0x13 0 0 0 0 0, .vcmp hp 0x13 0 0 0 0 0 0,
    .vcmp hp 8 0 7 0 0 0 0, .vcmp hp 0 0 6 0 0 0 0, .vsel hp 0x13 0 0 0 0, .pcnt hp 0x13 16 0, .pcnt hp 8 15 0,
    .vcvt hp 0x13 0 0 0 0 0 8 0, .vcvt hp 8 0 0 0 0 0 0x13 0, .vcvt hp 0 1 0 0 0 0 4 0, .vcvt hp 8 0 0 1 0 0 8 0,
    .vcvt hp 8 0 0 4 0 0 8 0, .vcvt hp 0 0 0 0 0 0 6 0, .vcvt hp 2 0 0 0 1 0 4 0, .vcvt hp 4 0 0 0 0 1 2 0] : List Instr), wellFormed i = false := by decide

/-- Ill-formed instructions, one for each check: vector_2. -/
theorem test_illFormed_vector_2 : ∀ i ∈ ([
    .vred hp 0x13 0 0 0 0 0 0, .vred hp 8 0 7 0 0 0 0, .vred hp 8 1 1 0 0 0 0, .vred hp 8 0 0 0 0 0 11,
    .vred hp 8 0 0 0 0 0 8, .vperm hp 0x13 0 0 0 0 0 0, .vperm hp 8 0 2 0 0 0 0, .vperm hp 8 0 1 0 0 0 0,
    .vperm hp 16 0 0 0 0 0 0, .vdup hp 0x13 0 0 0 0, .vzip hp 0x13 0 0 0, .vzip hp 8 1 0 0, .vunzip hp 0x13 0 0,
    .vunzip hp 8 0 1, .vunzip hp 8 1 0, .vgetx hp 0x13 16 0 0, .vgetx hp 8 15 0 0, .vld hp 0x13 0 0 0 0 0 0 0,
    .vld hp 8 0 3 0 0 0 0 0, .vst hp 0x13 0 0 0 0 0 0, .vst hp 8 3 0 0 0 0 0, .vldg hp 0x13 0 0 0 0 0 0,
    .vldg hp 9 0 0 0 0 0 1, .vsts hp 0x13 0 0 0 0 0, .vsts hp 9 0 0 0 0 1, .vqld hp 0x13 0 0 0 0 0 0 0,
    .vqld hp 8 6 0 0 0 0 0 0, .vqst hp 0x13 0 0 0 0 0 0 0 0, .vrcp hp 0x13 0 0 0 0, .vrsqrt hp 0x13 0 0 0 0,
    .vsqrt hp 0x13 0 0 0 0, .vexp2 hp 0x13 0 0 0 0, .vlog2 hp 0x13 0 0 0 0, .vsinpi hp 0x13 0 0 0 0,
    .vcospi hp 0x13 0 0 0 0, .vtanh hp 0x13 0 0 0 0, .vsigm hp 0x13 0 0 0 0, .vgelu hp 0x13 0 0 0 0,
    .vsilu hp 0x13 0 0 0 0, .verf hp 0x13 0 0 0 0] : List Instr), wellFormed i = false := by decide

/-- Ill-formed instructions, one for each check: matrix. -/
theorem test_illFormed_matrix : ∀ i ∈ ([
    .mload hp 0 3 0 0 0 0 0 0 0, .mload hp 0 0 0 5 0 0 0 0 0, .mstream hp 0 3 0 0 0 0 0 0 0 0 0 0,
    .mstream hp 0 0 0 0 5 0 0 0 0 0 0 0, .mgetz hp 0 0 0 15 0, .mdrain hp 0 0 0 0 5 0 0 0 0 0, .msigr hp 15 0,
    .msigr hp 16 15, .mcb hp 3 0 0 0 0, .mstat hp 0 15, .mpref hp 3 0 0 0 0 0, .mpsamp hp 0 0 15 0, .rstat hp 0 15,
    .rstat hp 10 16] : List Instr), wellFormed i = false := by decide

/-- Ill-formed instructions, one for each check: transfer. -/
theorem test_illFormed_transfer : ∀ i ∈ ([
    .bcopy hp 0 0 3 0 0 0 0 0, .bcopyS hp 0 0 3 0 0 0 0 0 1, .bcopyS hp 0 0 0 0 0 0 0 0 0, .bcopyS hp 0 0 0 0 0 0 0 0 31,
    .bwait hp 1 1 0 0, .bacnt hp 0 15, .tcvt hp 0 3 0 0 0 0 0 0 0, .tcvt hp 5 0 0 0 0 0 0 0 0, .tcvt hd 0 0 0 0 0 0 0 0 0,
    .tcvt hu 0 0 0 0 0 0 0 0 0, .tcvt hs 0 0 0 0 0 0 0 0 0, .tcvti hp 3 0 0 0 0 0 0 0 0, .tcvti hd 0 0 0 0 0 0 0 0 0,
    .tcvti hu 0 0 0 0 0 0 0 0 0, .tcvti hs 0 0 0 0 0 0 0 0 0, .tamax hp 3 0 0 0 0 0 0 0, .tamax hd 0 0 0 0 0 0 0 0,
    .tamax hu 0 0 0 0 0 0 0 0, .tamax hs 0 0 0 0 0 0 0 0, .tsqze hp 3 0 0 0 0 0 0, .tsqze hd 0 0 0 0 0 0 0,
    .tsqze hu 0 0 0 0 0 0 0, .tsqze hs 0 0 0 0 0 0 0, .tsqzd hp 3 0 0 0 0 0 0, .tsqzd hd 0 0 0 0 0 0 0,
    .tsqzd hu 0 0 0 0 0 0 0, .tsqzd hs 0 0 0 0 0 0 0, .ttr hp 3 0 0 0 0 0 0, .ttr hd 0 0 0 0 0 0 0, .ttr hu 0 0 0 0 0 0 0,
    .ttr hs 0 0 0 0 0 0 0, .tbara hd 0 0, .tbara hu 0 0, .tbara hs 0 0, .tbarw hd 0, .tbarw hu 0, .tbarw hs 0,
    .tbars hd 0 0, .tbars hu 0 0, .tbars hs 0 0, .tld hd 0 0 0 0, .tld hu 0 0 0 0, .tld hs 0 0 0 0, .tst hd 0 0 0 0,
    .tst hu 0 0 0 0, .tst hs 0 0 0 0, .trd hd 0x080 0, .trd hu 0x080 0, .trd hs 0x080 0, .trd hp 0x07F 0, .trd hp 0x085 0,
    .twr hd 0x080 0, .twr hu 0x080 0, .twr hs 0x080 0, .twr hp 0x07F 0, .twr hp 0x085 0, .tsync hd, .tsync hu, .tsync hs,
    .cadd hp 4 0 0 0 0 0, .caxpy hp 4 0 0 0 0 0 0, .cscal hp 4 0 0 0 0, .binit hp 0 15 0 0 0, .binit hp 5 16 0 0 0,
    .cbar hp 15 0 0 0, .cbwait hp 15 0 0 0] : List Instr), wellFormed i = false := by decide

/-- Events that name what does not exist, and a reserved encoding that is none. -/
theorem test_illFormed_events : ∀ i ∈ ([
    .atomicRequest ⟨2 ^ 22, 0, 0, .reserve 0 0⟩, .tlbiPages 0 0 0xFFFFFFFFFF 2, .channelMigration 0 (2 ^ 20) 0,
    .shadowPlaneLoad 0x1000 [0], .planeDiffBroadcast ⟨0, [(0x1000, 0)], 0⟩, .limitLower .thermal 31 0,
    .limitLower .thermal 97 0, .unannouncedClamp 31 0, .unannouncedClamp 97 0, .rpcapWrite 0 31 0, .rpcapWrite 0 97 0,
    .flitReceive 24 [], .linkDown 24, .linkUp 24 0, .laneSpare 24 0, .laneSpare 0 5, .replayTimeout 24, .linkOff 24,
    .hostBarAccess ⟨.management, 1, 0, .read 8⟩, .reservedEncoding 0x02210C00 0] : List Instr), wellFormed i = false := by decide

/-- The same instructions with the field as it should be. -/
theorem test_wellFormed_control : ∀ i ∈ ([
    .loop 0 1 0, .loopm 0 1 0 0, .bfset 0 0 0 0, .bfadd 0 0 0 0, .bfget 0 0 0, .twait 1 0 1] : List Instr), wellFormed i = true := by decide

/-- The same instructions with the field as it should be. -/
theorem test_wellFormed_steward : ∀ i ∈ ([
    .ld hp 0 0 0 0 0 0 0 0 0 0, .st hp 0 0 0 0 0 0 0 0 0 0, .ldf hp 0 0 0 0, .atom hp 0 0 0 0 0 2 0 0 0 0 0 0,
    .fence hp 0 1, .bara hp 0 0 0 0 0, .barw hp 0 0 0 0, .bars hp 0 0 0 0 0, .htake hp 0 0 0, .hqry hp 0 0 0, .abc hp 1 0,
    .foot hp 0 0 0, .csrr hp 0x010 0, .csrw hp 0x010 0, .bellr hp 0, .ttok hp 1, .qres hp 16 0 0, .qhead hp 16 0,
    .ditem hp 16 0, .gclkr hp 16] : List Instr), wellFormed i = true := by decide

/-- The same instructions with the field as it should be. -/
theorem test_wellFormed_vector_1 : ∀ i ∈ ([
    .vadd hp 8 0 0 0 0 0 0, .vsub hp 8 0 0 0 0 0 0, .vmul hp 8 0 0 0 0 0 0, .vmin hp 8 0 0 0 0 0, .vmax hp 8 0 0 0 0 0,
    .vmulh hp 8 0 0 0 0 0, .vadds hp 8 0 0 0 0 0, .vsubs hp 8 0 0 0 0 0, .vfma hp 8 0 0 0 0 0 0 0,
    .vfms hp 8 0 0 0 0 0 0 0, .vfnma hp 8 0 0 0 0 0 0 0, .vabs hp 8 0 0 0 0, .vneg hp 8 0 0 0 0, .vand hp 8 0 0 0 0 0,
    .vor hp 8 0 0 0 0 0, .vxor hp 8 0 0 0 0 0, .vnot hp 8 0 0 0 0, .vsll hp 8 0 0 0 0 0, .vsrl hp 8 0 0 0 0 0,
    .vsra hp 8 0 0 0 0 0, .vcmp hp 8 0 0 0 0 0 0, .vsel hp 8 0 0 0 0, .pcnt hp 8 16 0, .vcvt hp 8 0 0 0 0 0 8 0] : List Instr), wellFormed i = true := by decide

/-- The same instructions with the field as it should be. -/
theorem test_wellFormed_vector_2 : ∀ i ∈ ([
    .vred hp 8 0 0 0 0 0 0, .vperm hp 8 0 0 0 0 0 0, .vdup hp 8 0 0 0 0, .vzip hp 8 0 0 0, .vunzip hp 8 0 0,
    .vgetx hp 8 16 0 0, .vld hp 8 0 0 0 0 0 0 0, .vst hp 8 0 0 0 0 0 0, .vldg hp 8 0 0 0 0 0 0, .vsts hp 8 0 0 0 0 0,
    .vqld hp 8 0 0 0 0 0 0 0, .vqst hp 8 0 0 0 0 0 0 0 0, .vrcp hp 8 0 0 0 0, .vrsqrt hp 8 0 0 0 0, .vsqrt hp 8 0 0 0 0,
    .vexp2 hp 8 0 0 0 0, .vlog2 hp 8 0 0 0 0, .vsinpi hp 8 0 0 0 0, .vcospi hp 8 0 0 0 0, .vtanh hp 8 0 0 0 0,
    .vsigm hp 8 0 0 0 0, .vgelu hp 8 0 0 0 0, .vsilu hp 8 0 0 0 0, .verf hp 8 0 0 0 0] : List Instr), wellFormed i = true := by decide

/-- The same instructions with the field as it should be. -/
theorem test_wellFormed_matrix : ∀ i ∈ ([
    .mload hp 0 0 0 0 0 0 0 0 0, .mstream hp 0 0 0 0 0 0 0 0 0 0 0 0, .mgetz hp 0 0 0 16 0, .mdrain hp 0 0 0 0 0 0 0 0 0 0,
    .msigr hp 16 0, .mcb hp 0 0 0 0 0, .mstat hp 0 16, .mpref hp 0 0 0 0 0 0, .mpsamp hp 0 0 16 0, .rstat hp 0 16] : List Instr), wellFormed i = true := by decide

/-- The same instructions with the field as it should be. -/
theorem test_wellFormed_transfer : ∀ i ∈ ([
    .bcopy hp 0 0 0 0 0 0 0 0, .bcopyS hp 0 0 0 0 0 0 0 0 1, .bwait hp 0 0 0 0, .bacnt hp 0 16, .tcvt hp 0 0 0 0 0 0 0 0 0,
    .tcvti hp 0 0 0 0 0 0 0 0 0, .tamax hp 0 0 0 0 0 0 0 0, .tsqze hp 0 0 0 0 0 0 0, .tsqzd hp 0 0 0 0 0 0 0,
    .ttr hp 0 0 0 0 0 0 0, .tbara hp 0 0, .tbarw hp 0, .tbars hp 0 0, .tld hp 0 0 0 0, .tst hp 0 0 0 0, .trd hp 0x080 0,
    .twr hp 0x080 0, .tsync hp, .cadd hp 0 0 0 0 0 0, .caxpy hp 0 0 0 0 0 0 0, .cscal hp 0 0 0 0 0, .binit hp 0 16 0 0 0,
    .cbar hp 16 0 0 0, .cbwait hp 16 0 0 0] : List Instr), wellFormed i = true := by decide

/-- The same events at the last value allowed. -/
theorem test_wellFormed_events : ∀ i ∈ ([
    .atomicRequest ⟨2 ^ 22 - 1, 0, 0, .reserve 0 0⟩, .tlbiPages 0 0 0xFFFFFFFFFF 1, .channelMigration 0 (2 ^ 20 - 1) 511,
    .shadowPlaneLoad 0xFFF [0], .planeDiffBroadcast ⟨0, [(0xFFF, 0)], 0⟩, .limitLower .thermal 32 0,
    .unannouncedClamp 96 0, .rpcapWrite 0 96 0, .flitReceive 23 [], .linkDown 23, .linkUp 23 0, .laneSpare 23 4,
    .replayTimeout 23, .linkOff 23, .hostBarAccess ⟨.management, 2, 0, .read 8⟩, .reservedEncoding 0x0200000E 0] : List Instr), wellFormed i = true := by decide

/-! ### Words from the spec's encodings -/

/-- A header with no tokens and no STALL (R64): 31 is 1, 30:28 tag, 27:24 tokens, 23:21 STALL, 20:12 opcode, 11:0 modifiers. -/
def hw (tag : BitVec 3) (op : BitVec 9) (m : BitVec 12) : Word32 := 1#1 ++ tag ++ 0#4 ++ 0#3 ++ op ++ m

/-- The words of a list decode to the instructions beside them. -/
def Decodes (l : List (Word32 × Word32 × Instr)) : Prop := ∀ x ∈ l, decode x.1 x.2.1 = some x.2.2

/-- Tables 2.1, 2.2 and 2.8: the CA words of the integer group, function codes 0x000 to 0x00D; ad 5, aa 6, ab 7. -/
theorem test_decode_integer : Decodes [
    (0#1 ++ 0x01#6 ++ 5#5 ++ 6#5 ++ 7#5 ++ 0x000#10, 0, .add 5 6 7), (0#1 ++ 0x01#6 ++ 5#5 ++ 6#5 ++ 7#5 ++ 0x001#10, 0, .sub 5 6 7),
    (0#1 ++ 0x01#6 ++ 5#5 ++ 6#5 ++ 7#5 ++ 0x002#10, 0, .and 5 6 7), (0#1 ++ 0x01#6 ++ 5#5 ++ 6#5 ++ 7#5 ++ 0x003#10, 0, .or 5 6 7),
    (0#1 ++ 0x01#6 ++ 5#5 ++ 6#5 ++ 7#5 ++ 0x004#10, 0, .xor 5 6 7), (0#1 ++ 0x01#6 ++ 5#5 ++ 6#5 ++ 7#5 ++ 0x005#10, 0, .sll 5 6 7),
    (0#1 ++ 0x01#6 ++ 5#5 ++ 6#5 ++ 7#5 ++ 0x006#10, 0, .srl 5 6 7), (0#1 ++ 0x01#6 ++ 5#5 ++ 6#5 ++ 7#5 ++ 0x007#10, 0, .sra 5 6 7),
    (0#1 ++ 0x01#6 ++ 5#5 ++ 6#5 ++ 7#5 ++ 0x008#10, 0, .slt 5 6 7), (0#1 ++ 0x01#6 ++ 5#5 ++ 6#5 ++ 7#5 ++ 0x009#10, 0, .sltu 5 6 7),
    (0#1 ++ 0x01#6 ++ 5#5 ++ 6#5 ++ 7#5 ++ 0x00A#10, 0, .mul 5 6 7), (0#1 ++ 0x01#6 ++ 5#5 ++ 6#5 ++ 7#5 ++ 0x00B#10, 0, .mulh 5 6 7),
    (0#1 ++ 0x01#6 ++ 5#5 ++ 6#5 ++ 7#5 ++ 0x00C#10, 0, .min 5 6 7), (0#1 ++ 0x01#6 ++ 5#5 ++ 6#5 ++ 7#5 ++ 0x00D#10, 0, .max 5 6 7)] := by
  unfold Decodes; decide

/-- Tables 2.1 and 2.2: CI, CU, CB, CJ, CL, CF, CW and CN words. -/
theorem test_decode_control : Decodes [
    (0#1 ++ 0x02#6 ++ 5#5 ++ 6#5 ++ 0x7FFF#15, 0, .addi 5 6 (-1)), (0#1 ++ 0x03#6 ++ 5#5 ++ 6#5 ++ 7#15, 0, .andi 5 6 7),
    (0#1 ++ 0x04#6 ++ 5#5 ++ 6#5 ++ 7#15, 0, .ori 5 6 7), (0#1 ++ 0x05#6 ++ 5#5 ++ 6#5 ++ 7#15, 0, .xori 5 6 7),
    (0#1 ++ 0x06#6 ++ 5#5 ++ 6#5 ++ 7#15, 0, .slti 5 6 7), (0#1 ++ 0x07#6 ++ 5#5 ++ 6#5 ++ 0#9 ++ 63#6, 0, .slli 5 6 63),
    (0#1 ++ 0x08#6 ++ 5#5 ++ 6#5 ++ 0#9 ++ 63#6, 0, .srli 5 6 63), (0#1 ++ 0x09#6 ++ 5#5 ++ 6#5 ++ 0#9 ++ 63#6, 0, .srai 5 6 63),
    (0#1 ++ 0x0A#6 ++ 5#5 ++ 0x80001#20, 0, .lui 5 0x80001), (0#1 ++ 0x0B#6 ++ 5#5 ++ 0x80001#20, 0, .lhi 5 0x80001),
    (0#1 ++ 0x0C#6 ++ 5#5 ++ 0x80001#20, 0, .auipc 5 0x80001),
    (0#1 ++ 0x10#6 ++ 5#5 ++ 6#5 ++ 0#3 ++ 0x801#12, 0, .bEq 5 6 0x801), (0#1 ++ 0x10#6 ++ 5#5 ++ 6#5 ++ 1#3 ++ 0x801#12, 0, .bNe 5 6 0x801),
    (0#1 ++ 0x10#6 ++ 5#5 ++ 6#5 ++ 2#3 ++ 0x801#12, 0, .bLt 5 6 0x801), (0#1 ++ 0x10#6 ++ 5#5 ++ 6#5 ++ 3#3 ++ 0x801#12, 0, .bGe 5 6 0x801),
    (0#1 ++ 0x10#6 ++ 5#5 ++ 6#5 ++ 4#3 ++ 0x801#12, 0, .bLtu 5 6 0x801), (0#1 ++ 0x10#6 ++ 5#5 ++ 6#5 ++ 5#3 ++ 0x801#12, 0, .bGeu 5 6 0x801),
    (0#1 ++ 0x11#6 ++ 0x1000001#25, 0, .j 0x1000001), (0#1 ++ 0x12#6 ++ 0x1000001#25, 0, .jal 0x1000001),
    (0#1 ++ 0x13#6 ++ 0#5 ++ 6#5 ++ 0x4001#15, 0, .jr 6 0x4001), (0#1 ++ 0x18#6 ++ 0#5 ++ 9#10 ++ 1023#10, 0, .loop 0 9 1023),
    (0#1 ++ 0x19#6 ++ 5#5 ++ 9#10 ++ 63#6 ++ 7#4, 0, .loopm 5 9 63 7), (0#1 ++ 0x1A#6 ++ 0#25, 0, .stage),
    (0#1 ++ 0x1B#6 ++ 9#4 ++ 0#21, 0, .bfclr 9), (0#1 ++ 0x1C#6 ++ 9#4 ++ 10#5 ++ 6#5 ++ 0x7FF#11, 0, .bfset 9 10 6 0x7FF),
    (0#1 ++ 0x1D#6 ++ 9#4 ++ 10#5 ++ 6#5 ++ 0x7FF#11, 0, .bfadd 9 10 6 0x7FF), (0#1 ++ 0x1E#6 ++ 9#4 ++ 10#5 ++ 6#5 ++ 0#11, 0, .bfget 9 10 6),
    (0#1 ++ 0x1F#6 ++ 9#4 ++ 0#17 ++ 3#4, 0, .bfmov 9 3), (0#1 ++ 0x20#6 ++ 9#4 ++ 1#2 ++ 15#4 ++ 0#15, 0, .twait 9 1 15),
    (0#1 ++ 0x21#6 ++ 0#25, 0, .phase), (0#1 ++ 0x22#6 ++ 0#5 ++ 6#5 ++ 0x4001#15, 0, .slipw 6 0x4001),
    (0#1 ++ 0x23#6 ++ 0#25, 0, .nop), (0#1 ++ 0x24#6 ++ 0#25, 0, .endText)] := by
  unfold Decodes; decide

/-- R64: each header field in its place; the header of the R67 example. -/
theorem test_decode_header :
    decodeHdr 0xA9640000 = ⟨true, false, false, true, 3⟩ ∧ decodeHdr (hw 0 0 0 + 0x0C800000) = ⟨true, true, false, false, 4⟩ ∧
    decodeHdr (hw 0 0 0 + 0x03200000) = ⟨false, false, true, true, 1⟩ := by decide

/-- Tables 4.6 to 4.8. Memory modifiers: FE in 10:9, SD in 8, SCOPE in 7:5, ORD in 4:3, ZEXT in 2, SIZE in 1:0. -/
theorem test_decode_steward : Decodes [
    (hw 0 0x000 (0#1 ++ 2#2 ++ 0#1 ++ 3#3 ++ 1#2 ++ 1#1 ++ 2#2), 17#5 ++ 9#4 ++ 6#5 ++ 0x20001#18, .ld hp 2 0 3 1 1 2 17 9 6 0x20001),
    (hw 0 0x001 (0#1 ++ 1#2 ++ 1#1 ++ 0#3 ++ 2#2 ++ 0#1 ++ 3#2), 17#5 ++ 9#4 ++ 6#5 ++ 0x20001#18, .st hp 1 1 0 2 0 3 17 9 6 0x20001),
    (hw 0 0x002 0, 17#5 ++ 9#4 ++ 6#5 ++ 0x20001#18, .ldf hp 17 9 6 0x20001),
    (hw 0 0x003 1, 17#5 ++ 9#4 ++ 6#5 ++ 0x20001#18, .stf hp 1 17 9 6 0x20001),
    (hw 0 0x008 (0#1 ++ 0#2 ++ 0#1 ++ 4#3 ++ 3#2 ++ 0#1 ++ 3#2), 17#5 ++ 9#4 ++ 6#5 ++ 7#5 ++ 8#4 ++ 0x101#9,
      .atom hp 0 0 4 3 0 3 17 9 6 7 8 0x101),
    (hw 0 0x010 (0#4 ++ 5#3 ++ 2#2 ++ 0#3), 0, .fence hp 5 2),
    (hw 0 0x018 (0#4 ++ 4#3 ++ 0#5), 17#5 ++ 0#4 ++ 6#5 ++ 7#5 ++ 9#13, .bara hp 4 17 6 7 9),
    (hw 0 0x019 (0#4 ++ 4#3 ++ 0#5), 17#5 ++ 0#4 ++ 0#5 ++ 7#5 ++ 9#13, .barw hp 4 17 7 9),
    (hw 0 0x01A (0#4 ++ 4#3 ++ 0#5), 17#5 ++ 0#4 ++ 6#5 ++ 7#5 ++ 9#13, .bars hp 4 17 6 7 9),
    (hw 0 0x020 0, 0#5 ++ 0#4 ++ 6#5 ++ 7#5 ++ 9#13, .hgive hp 6 7 9), (hw 0 0x021 0, 17#5 ++ 0#4 ++ 6#5 ++ 0#5 ++ 9#13, .htake hp 17 6 9),
    (hw 0 0x022 0, 17#5 ++ 0#4 ++ 6#5 ++ 0#5 ++ 9#13, .hqry hp 17 6 9), (hw 0 0x028 0, 9#5 ++ 0#4 ++ 6#5 ++ 0#18, .abc hp 9 6),
    (hw 0 0x029 3, 0#5 ++ 0#4 ++ 6#5 ++ 0#5 ++ 9#13, .foot hp 3 6 9), (hw 0 0x030 0x0A1, 17#5 ++ 0#27, .csrr hp 0x0A1 17),
    (hw 0 0x031 0x010, 0#9 ++ 6#5 ++ 0#18, .csrw hp 0x010 6), (hw 0 0x032 0, 17#5 ++ 0#27, .bellr hp 17),
    (hw 0 0x038 0, 0#19 ++ 15#13, .ttok hp 15), (hw 0 0x039 0, 0#5 ++ 0#4 ++ 6#5 ++ 7#5 ++ 9#13, .tstart hp 6 7 9),
    (hw 0 0x040 0, 0#19 ++ 9#13, .trap hp 9), (hw 0 0x041 0, 0, .eret hp), (hw 0 0x042 0, 0#9 ++ 6#5 ++ 0#18, .taskend hp 6)] := by
  unfold Decodes; decide

/-- Tables 12.12 and 13.4, with the operand words that R440 to R443 and R467 give. -/
theorem test_decode_dispatcher : Decodes [
    (0x801C0000, 0x80240000, .qres hp 16 9 0), (0x801C1000, 0#5 ++ 0#4 ++ 6#5 ++ 7#5 ++ 0#13, .qtail hp 6 7),
    (0x801C2000, 17#5 ++ 0#4 ++ 6#5 ++ 0#18, .qhead hp 17 6), (0x801C8000, 0x80000004, .ditem hp 16 4),
    (0x801C9000, 0#5 ++ 0#4 ++ 6#5 ++ 0#5 ++ 5#13, .dpush hp 6 5), (0x801E0000, 0x80000000, .gclkr hp 16),
    (0x801E1000, 0#5 ++ 0#4 ++ 6#5 ++ 0#5 ++ 9#13, .bellw hp 6 9)] := by
  unfold Decodes; decide

/-- Tables 5.6 to 5.8. Modifiers: TYPE in 11:7, RM in 6:4, MZ in 3, AUX in 2:0. Layout V: vd, va, vb, vc of six bits, pg, X. -/
theorem test_decode_arithmetic :
    let m : BitVec 12 := 8#5 ++ 2#3 ++ 1#1 ++ 0#3
    let n : BitVec 12 := 4#5 ++ 0#3 ++ 1#1 ++ 0#3
    let v : Word32 := 33#6 ++ 34#6 ++ 35#6 ++ 0#6 ++ 9#4 ++ 0#4
    let f : Word32 := 33#6 ++ 34#6 ++ 35#6 ++ 36#6 ++ 9#4 ++ 0#4
    let u : Word32 := 33#6 ++ 34#6 ++ 0#6 ++ 0#6 ++ 9#4 ++ 0#4
    Decodes [
    (hw 3 0x000 m, v, .vadd hp 8 2 1 33 34 35 9), (hw 3 0x001 m, v, .vsub hp 8 2 1 33 34 35 9), (hw 3 0x002 m, v, .vmul hp 8 2 1 33 34 35 9),
    (hw 3 0x003 n, v, .vmin hp 4 1 33 34 35 9), (hw 3 0x004 n, v, .vmax hp 4 1 33 34 35 9), (hw 3 0x005 n, v, .vmulh hp 4 1 33 34 35 9),
    (hw 3 0x006 n, v, .vadds hp 4 1 33 34 35 9), (hw 3 0x007 n, v, .vsubs hp 4 1 33 34 35 9), (hw 3 0x008 m, f, .vfma hp 8 2 1 33 34 35 36 9),
    (hw 3 0x009 m, f, .vfms hp 8 2 1 33 34 35 36 9), (hw 3 0x00A m, f, .vfnma hp 8 2 1 33 34 35 36 9), (hw 3 0x010 n, u, .vabs hp 4 1 33 34 9),
    (hw 3 0x011 n, u, .vneg hp 4 1 33 34 9), (hw 3 0x020 n, v, .vand hp 4 1 33 34 35 9), (hw 3 0x021 n, v, .vor hp 4 1 33 34 35 9),
    (hw 3 0x022 n, v, .vxor hp 4 1 33 34 35 9), (hw 3 0x023 n, u, .vnot hp 4 1 33 34 9), (hw 3 0x024 n, v, .vsll hp 4 1 33 34 35 9),
    (hw 3 0x025 n, v, .vsrl hp 4 1 33 34 35 9), (hw 3 0x026 n, v, .vsra hp 4 1 33 34 35 9)] := by
  unfold Decodes; decide

/-- R208 to R217: the fields of the compares, predicates, conversions, reductions and permutes. -/
theorem test_decode_permutes : Decodes [
    (hw 3 0x030 (4#5 ++ 0#3 ++ 1#1 ++ 5#3), 0#2 ++ 11#4 ++ 34#6 ++ 35#6 ++ 0#6 ++ 9#4 ++ 0#4, .vcmp hp 4 1 5 11 34 35 9),
    (hw 3 0x031 (4#5 ++ 0#7), 33#6 ++ 34#6 ++ 35#6 ++ 0#6 ++ 9#4 ++ 0#4, .vsel hp 4 33 34 35 9),
    (hw 3 0x038 0, 0#2 ++ 11#4 ++ 0#2 ++ 12#4 ++ 0#2 ++ 13#4 ++ 0#14, .pand hp 11 12 13),
    (hw 3 0x039 0, 0#2 ++ 11#4 ++ 0#2 ++ 12#4 ++ 0#2 ++ 13#4 ++ 0#14, .por hp 11 12 13),
    (hw 3 0x03A 0, 0#2 ++ 11#4 ++ 0#2 ++ 12#4 ++ 0#2 ++ 13#4 ++ 0#14, .pxor hp 11 12 13),
    (hw 3 0x03B 0, 0#2 ++ 11#4 ++ 0#2 ++ 12#4 ++ 0#20, .pnot hp 11 12),
    (hw 3 0x03C (9#5 ++ 0#7), 0#1 ++ 17#5 ++ 0#2 ++ 12#4 ++ 0#20, .pcnt hp 9 17 12),
    (hw 3 0x040 (8#5 ++ 5#3 ++ 1#1 ++ 4#3), 32#6 ++ 36#6 ++ 0#6 ++ 0#1 ++ 12#5 ++ 9#4 ++ 0#4, .vcvt hp 8 5 1 4 32 36 12 9),
    (hw 3 0x050 (8#5 ++ 1#3 ++ 0#1 ++ 0#3), 33#6 ++ 34#6 ++ 0#12 ++ 9#4 ++ 7#4, .vred hp 8 1 0 33 34 9 7),
    (hw 3 0x060 (1#5 ++ 0#3 ++ 1#1 ++ 1#3), 33#6 ++ 34#6 ++ 35#6 ++ 0#6 ++ 9#4 ++ 0#4, .vperm hp 1 1 1 33 34 35 9),
    (hw 3 0x061 (4#5 ++ 0#3 ++ 1#1 ++ 0#3), 33#6 ++ 0#1 ++ 6#5 ++ 0#12 ++ 9#4 ++ 0#4, .vdup hp 4 1 33 6 9),
    (hw 3 0x062 (4#5 ++ 0#7), 34#6 ++ 36#6 ++ 37#6 ++ 0#14, .vzip hp 4 34 36 37),
    (hw 3 0x063 (4#5 ++ 0#7), 34#6 ++ 36#6 ++ 0#20, .vunzip hp 4 34 36),
    (hw 3 0x064 (4#5 ++ 0#7), 0#1 ++ 17#5 ++ 34#6 ++ 0#1 ++ 6#5 ++ 0#14, .vgetx hp 4 17 34 6)] := by
  unfold Decodes; decide

/-- Tables 5.6 and 5.7: layouts VM, VG and VQ, with FE in 2:1, IMP in 2 and CB in 1:0. -/
theorem test_decode_vecMem : Decodes [
    (hw 3 0x080 (4#5 ++ 0#3 ++ 1#1 ++ 2#2 ++ 0#1), 33#6 ++ 9#4 ++ 6#5 ++ 10#4 ++ 0x1001#13, .vld hp 4 1 2 33 9 6 10 0x1001),
    (hw 3 0x081 (4#5 ++ 0#3 ++ 0#1 ++ 2#2 ++ 0#1), 33#6 ++ 9#4 ++ 6#5 ++ 10#4 ++ 0x1001#13, .vst hp 4 2 33 9 6 10 0x1001),
    (hw 3 0x082 (4#5 ++ 0#3 ++ 1#1 ++ 0#3), 33#6 ++ 9#4 ++ 6#5 ++ 10#4 ++ 34#6 ++ 0#7, .vldg hp 4 1 33 9 6 10 34),
    (hw 3 0x083 (4#5 ++ 0#7), 33#6 ++ 9#4 ++ 6#5 ++ 10#4 ++ 34#6 ++ 0#7, .vsts hp 4 33 9 6 10 34),
    (hw 3 0x088 (8#5 ++ 4#3 ++ 1#1 ++ 0#1 ++ 3#2), 33#6 ++ 9#4 ++ 6#5 ++ 10#4 ++ 0#13, .vqld hp 8 4 1 3 33 9 6 10),
    (hw 3 0x089 (8#5 ++ 0#3 ++ 0#1 ++ 1#1 ++ 3#2), 33#6 ++ 9#4 ++ 6#5 ++ 10#4 ++ 7#5 ++ 35#6 ++ 0#2, .vqst hp 8 1 3 33 9 6 10 7 35)] := by
  unfold Decodes; decide

/-- Table 5.8: the special functions, 0x0A0 to 0x0AB in its order. -/
theorem test_decode_special :
    let n : BitVec 12 := 8#5 ++ 0#3 ++ 1#1 ++ 0#3
    let u : Word32 := 33#6 ++ 34#6 ++ 0#12 ++ 9#4 ++ 0#4
    Decodes [
    (hw 3 0x0A0 n, u, .vrcp hp 8 1 33 34 9), (hw 3 0x0A1 n, u, .vrsqrt hp 8 1 33 34 9), (hw 3 0x0A2 n, u, .vsqrt hp 8 1 33 34 9),
    (hw 3 0x0A3 n, u, .vexp2 hp 8 1 33 34 9), (hw 3 0x0A4 n, u, .vlog2 hp 8 1 33 34 9), (hw 3 0x0A5 n, u, .vsinpi hp 8 1 33 34 9),
    (hw 3 0x0A6 n, u, .vcospi hp 8 1 33 34 9), (hw 3 0x0A7 n, u, .vtanh hp 8 1 33 34 9), (hw 3 0x0A8 n, u, .vsigm hp 8 1 33 34 9),
    (hw 3 0x0A9 n, u, .vgelu hp 8 1 33 34 9), (hw 3 0x0AA n, u, .vsilu hp 8 1 33 34 9), (hw 3 0x0AB n, u, .verf hp 8 1 33 34 9)] := by
  unfold Decodes; decide

/-- Table 6.8 and the Encoding lines of chapter 6; the memory operand word is bf, aa, ab, ac, am, M - 1, zero. -/
theorem test_decode_matrix : Decodes [
    (hw 2 0x000 (1#1 ++ 2#2 ++ 1#1 ++ 0#2 ++ 4#3 ++ 3#2 ++ 0#1), 9#4 ++ 5#5 ++ 6#5 ++ 7#5 ++ 0#13, .mload hp 1 2 1 4 3 9 5 6 7),
    (hw 2 0x001 0x800, 0, .mflip hp 1), (hw 2 0x002 0, 0, .mdrop hp),
    (hw 2 0x008 (1#1 ++ 2#2 ++ 1#1 ++ 3#2 ++ 4#3 ++ 1#2 ++ 0#1), 9#4 ++ 5#5 ++ 6#5 ++ 7#5 ++ 8#5 ++ 127#7 ++ 0#1,
      .mstream hp 1 2 1 3 4 1 9 5 6 7 8 127),
    (hw 2 0x010 (0#4 ++ 3#2 ++ 0#6), 0, .mzero hp 3), (hw 2 0x011 (0#4 ++ 3#2 ++ 0#6), 0#25 ++ 0x60#7, .mwin hp 3 0x60),
    (hw 2 0x012 (0#4 ++ 3#2 ++ 2#2 ++ 0#4), 0, .mcopy hp 3 2), (hw 2 0x013 (0#4 ++ 3#2 ++ 2#2 ++ 0#4), 0, .madd hp 3 2),
    (hw 2 0x014 (0#4 ++ 3#2 ++ 0#4 ++ 1#1 ++ 1#1), 17#5 ++ 6#5 ++ 0#22, .mgetz hp 3 1 1 17 6),
    (hw 2 0x018 (1#1 ++ 1#1 ++ 1#1 ++ 0#1 ++ 3#2 ++ 4#3 ++ 0#3), 9#4 ++ 5#5 ++ 6#5 ++ 7#5 ++ 8#5 ++ 0#8, .mdrain hp 1 1 1 3 4 9 5 6 7 8),
    (hw 2 0x019 0, 17#5 ++ 18#5 ++ 0#22, .msigr hp 17 18), (hw 2 0x01A 0, 0, .msync hp),
    (hw 2 0x020 (0#1 ++ 2#2 ++ 0#1 ++ 3#2 ++ 0#5 ++ 1#1), 9#4 ++ 5#5 ++ 0#23, .mcb hp 2 3 1 9 5),
    (hw 2 0x021 1, 17#5 ++ 0#27, .mstat hp 1 17)] := by
  unfold Decodes; decide

/-- Tables 7.6 and 9.10, headers as they print them. -/
theorem test_decode_sowerReeve : Decodes [
    (0xA0100000, 5#5 ++ 6#5 ++ 7#5 ++ 0#17, .mpert hp 5 6 7), (0xA0101000, 0, .mpoff hp), (0xA0102001, 0#16 ++ 0x8001#16, .mpstep hp 1 0x8001),
    (0xA0108000 + 0x500, 9#4 ++ 5#5 ++ 6#5 ++ 7#5 ++ 0#13, .mpref hp 2 1 9 5 6 7), (0xA0110003, 17#5 ++ 6#5 ++ 0#22, .mpsamp hp 1 1 17 6),
    (0xA0180005, 0x80000000, .rstat hp 5 16), (0xA0181000, 6#5 ++ 0#27, .rchk hp 6), (0xA0182000, 6#5 ++ 0#27, .rmode hp 6),
    (0xA0183001, 0x84400000, .rinj hp 1 16 17)] := by
  unfold Decodes; decide

/-- Tables 8.13 to 8.15: AC in 11:8, CR or RING in 7, FE in 6:5; layouts C, D and W. -/
theorem test_decode_transfer : Decodes [
    (hw 1 0x000 (12#4 ++ 1#1 ++ 2#2 ++ 0#5), 9#4 ++ 10#4 ++ 5#5 ++ 6#5 ++ 7#5 ++ 0#9, .bcopy hp 12 1 2 9 10 5 6 7),
    (hw 1 0x001 (12#4 ++ 1#1 ++ 2#2 ++ 0#5), 9#4 ++ 10#4 ++ 5#5 ++ 6#5 ++ 7#5 ++ 8#5 ++ 0#4, .bcopyS hp 12 1 2 9 10 5 6 7 8),
    (hw 1 0x002 (12#4 ++ 1#1 ++ 0#7), 9#4 ++ 0#4 ++ 5#5 ++ 6#5 ++ 7#5 ++ 0#9, .bfill hp 12 1 9 5 6 7),
    (hw 1 0x010 (12#4 ++ 1#1 ++ 0#7), 9#4 ++ 10#4 ++ 5#5 ++ 6#5 ++ 0#14, .bdedup hp 12 1 9 10 5 6),
    (hw 1 0x011 (12#4 ++ 1#1 ++ 0#7), 9#4 ++ 10#4 ++ 5#5 ++ 6#5 ++ 7#5 ++ 0#9, .bcow hp 12 1 9 10 5 6 7),
    (hw 1 0x012 (12#4 ++ 1#1 ++ 0#7), 9#4 ++ 10#4 ++ 5#5 ++ 6#5 ++ 0#14, .bcmp hp 12 1 9 10 5 6),
    (hw 1 0x020 (0#4 ++ 1#1 ++ 0#7), 6#5 ++ 0#11 ++ 0x8001#16, .bwait hp 0 1 6 0x8001), (hw 1 0x021 (12#4 ++ 0#8), 17#5 ++ 0#27, .bacnt hp 12 17),
    (hw 1 0x022 0, 0, .bsync hp)] := by
  unfold Decodes; decide

/-- Tables 10.2 to 10.4, headers as they print them: RM in 11:9, FE in 8:7, SF in 6, AUX in 5:2; layouts T and M. -/
theorem test_decode_thresher :
    let t : Word32 := 9#4 ++ 10#4 ++ 5#5 ++ 6#5 ++ 7#5 ++ 0#9
    Decodes [
    (0xC0000000 + (4#3 ++ 2#2 ++ 1#1 ++ 11#4 ++ 0#2 : BitVec 12).setWidth 32, t, .tcvt hp 4 2 1 11 9 10 5 6 7),
    (0xC0001000 + (0#3 ++ 2#2 ++ 1#1 ++ 11#4 ++ 0#2 : BitVec 12).setWidth 32, 9#4 ++ 10#4 ++ 5#5 ++ 6#5 ++ 7#5 ++ 8#5 ++ 0#4,
      .tcvti hp 2 1 11 9 10 5 6 7 8),
    (0xC0008000 + (0#3 ++ 2#2 ++ 1#1 ++ 0#2 ++ 3#2 ++ 0#2 : BitVec 12).setWidth 32, t, .tamax hp 2 1 3 9 10 5 6 7),
    (0xC0010000 + (0#3 ++ 2#2 ++ 1#1 ++ 0#6 : BitVec 12).setWidth 32, t, .tsqze hp 2 1 9 10 5 6 7),
    (0xC0011000 + (0#3 ++ 2#2 ++ 1#1 ++ 0#6 : BitVec 12).setWidth 32, t, .tsqzd hp 2 1 9 10 5 6 7),
    (0xC0018000 + (0#3 ++ 2#2 ++ 1#1 ++ 0#6 : BitVec 12).setWidth 32, t, .ttr hp 2 1 9 10 5 6 7),
    (0xC002000B, 6#5 ++ 0#27, .tbara hp 11 6), (0xC002100B, 0, .tbarw hp 11), (0xC002200B, 6#5 ++ 0#27, .tbars hp 11 6),
    (0xC0028000, 17#5 ++ 9#4 ++ 6#5 ++ 0x20001#18, .tld hp 17 9 6 0x20001), (0xC0029000, 17#5 ++ 9#4 ++ 6#5 ++ 0x20001#18, .tst hp 17 9 6 0x20001),
    (0xC0030084, 17#5 ++ 0#27, .trd hp 0x084 17), (0xC0031080, 6#5 ++ 0#27, .twr hp 0x080 6), (0xC0038000, 0, .tsync hp)] := by
  unfold Decodes; decide

/-- Tables 11.1 to 11.3, headers as they print them: RM in 11:9, SCOPE in 7:5; layouts N and K. -/
theorem test_decode_bank :
    let n : Word32 := 9#4 ++ 10#4 ++ 5#5 ++ 6#5 ++ 7#5 ++ 0#9
    let k : Word32 := 17#5 ++ 9#4 ++ 6#5 ++ 7#5 ++ 0#13
    Decodes [
    (0xD0000600, n, .cadd hp 3 9 10 5 6 7), (0xD0001000, n, .cmin hp 9 10 5 6 7), (0xD0002000, n, .cmax hp 9 10 5 6 7),
    (0xD0003600, 9#4 ++ 10#4 ++ 5#5 ++ 6#5 ++ 7#5 ++ 8#5 ++ 0#4, .caxpy hp 3 9 10 5 6 7 8),
    (0xD0004600, 9#4 ++ 0#4 ++ 5#5 ++ 0#5 ++ 7#5 ++ 8#5 ++ 0#4, .cscal hp 3 9 5 7 8), (0xD0020080, k, .binit hp 4 17 9 6 7),
    (0xD0021000, k, .cbar hp 17 9 6 7), (0xD0022000, k, .cbwait hp 17 9 6 7)] := by
  unfold Decodes; decide

/-- Words that the spec reserves decode to no instruction: the zero word, an unlisted function, condition, opcode or tag, and a
field that must be zero. -/
theorem test_decode_reserved : (([(0, 0), (0x0200000E, 0), (0x20006000, 0), (0x46000001, 0), (hw 0 0x004 0, 0), (hw 3 0x00B 0, 0),
    (hw 2 0x003 0, 0), (hw 1 0x003 0, 0), (hw 4 0x002 0, 0), (hw 5 0x005 0, 0), (hw 6 0 0, 0), (hw 7 0 0, 0), (hw 0 0x041 0, 1),
    (hw 0 0x041 1, 0), (hw 2 0x01A 0x800, 0)] : List (Word32 × Word32)).all fun x => (decode x.1 x.2).isNone) = true := by decide

/-! ### States that meet the hypotheses of the statements

Each `wit_` theorem names a statement and shows, clause by clause, a state and operands that meet its hypotheses together; where
a clause has a range, at its ends. -/

/-- A running strand with nothing outstanding, in the Steward's turn. -/
def r0 : State := { State.reset with ctx := { Ctx.reset with status := .running } }

/-- The same in the turn of another engine. -/
def rT (e : Engine) : State := { r0 with turn := .eng e }

/-- `s` with one engine changed. -/
def withEng (s : State) (e : Engine) (f : Eng → Eng) : State := s.setEng e (f (s.eng e))

/-- A buffer record: space, format, base, and a row of `n` elements. -/
def rec1 (space fmt base n : Nat) : BitVec 256 :=
  BitVec.ofNat 256 (base + fmt * 2 ^ 57 + n * 2 ^ 64 + 2 ^ 96 + n * 2 ^ 128 + 2 ^ 160 + space * 2 ^ 232)

/-- An operation in flight: number, engine, cycle due, writes and kind. -/
def op1 (id : Nat) (e : Engine) (ws : List RegWrite) (k : OpKind) : Op :=
  { id := id, eng := e, pc := 64, strand := 0, due := 5, ws := ws, fixed := false, fx := {}, kind := k, held := none, aborted := [] }

/-- Two nested loop entries. -/
def le1 : LoopEntry := ⟨4, 12, 1⟩
def le2 : LoopEntry := ⟨0, 12, 3⟩

/-- A modulo sequencer at the start of pass 1 of 4 trips and 3 stages. -/
def ms1 : ModSeq := { start := 4, stop := 40, trips := 4, ii := 2, sc := 3, k := 1, stage := 0, passStart := 0, between := true, rrb := 31 }

theorem wit_IntegerGroup :
    intForm 0 1 16 2 = some (.add 1 16 2) ∧ uniformOk r0.cur (some 1) [16, 2] = false ∧
    intForm 13 16 1 2 = some (.max 16 1 2) ∧ uniformOk r0.cur (some 16) [1, 2] = true ∧ CtlReady r0 [1, 2] ∧
    field 0x0200000E#32 25 7 = 0x01#7 ∧ 14 ≤ (field 0x0200000E#32 0 10).toNat ∧
    field 0x020003FF#32 25 7 = 0x01#7 ∧ 14 ≤ (field 0x020003FF#32 0 10).toNat := by
  unfold CtlReady Readable; decide

theorem wit_ImmediateAndUpperForms :
    immForm 2 1 16 0x4000 = some (.addi 1 16 0x4000) ∧ uniformOk r0.cur (some 1) [16] = false ∧
    immForm 9 1 2 63 = some (.srai 1 2 63) ∧ uniformOk r0.cur (some 1) [2] = true ∧ CtlReady r0 [2] ∧
    (0x7FFFFFFF#32).getLsbD 31 = false := by
  unfold CtlReady Readable; decide

theorem wit_BranchesAndJumps :
    branchForm 0 1 0 0x800 = some (.bEq 1 0 0x800) ∧ branchForm 5 1 0 4 = some (.bGeu 1 0 4) ∧ allUniform r0.cur [1, 0] = true ∧
    (r0.eng r0.cur).seq = none ∧ CtlReady r0 [1, 0] ∧ readA r0 r0.cur 1 = readA r0 r0.cur 0 ∧
    ¬(readA r0 r0.cur 1).toInt < (readA r0 r0.cur 0).toInt ∧ (r0.eng r0.cur).loops = [] ∧
    field 0x20006000#32 25 7 = 0x10#7 ∧ 6 ≤ (field 0x20006000#32 12 3).toNat ∧
    field 0x20007000#32 25 7 = 0x10#7 ∧ 6 ≤ (field 0x20007000#32 12 3).toNat ∧
    allUniform r0.cur [15] = true ∧ CtlReady r0 [15] ∧
    (BitVec.ofInt 64 ((readA r0 r0.cur 15).toNat + (8#15).toInt)).toNat % 4 = 0 ∧
    (BitVec.ofInt 64 ((readA r0 r0.cur 15).toNat + (6#15).toInt)).toNat % 4 ≠ 0 := by
  unfold CtlReady Readable; decide

theorem wit_LoopPushAndEnds_push :
    let l3 := withEng r0 .ctl fun x => { x with loops := [le1, le2, le2] }
    let l4 := withEng r0 .ctl fun x => { x with loops := [le1, le1, le2, le2] }
    ((1#5) ≠ 0 ∧ (3#10) ≠ 0) ∧ ((9#10) ≠ 0 ∧ (0#5 = 0)) ∧ allUniform r0.cur [0] = true ∧ (r0.eng r0.cur).seq = none ∧
    CtlReady r0 [0] ∧ (0#10).toNat = 0 ∧ allUniform l3.cur [0] = true ∧ (l3.eng l3.cur).seq = none ∧ CtlReady l3 [0] ∧
    (1023#10).toNat ≠ 0 ∧ (l3.eng l3.cur).loops.length < 4 ∧ allUniform l4.cur [0] = true ∧ (l4.eng l4.cur).seq = none ∧
    CtlReady l4 [0] ∧ 4 ≤ (l4.eng l4.cur).loops.length := by
  unfold CtlReady Readable; decide

theorem wit_LoopPushAndEnds_ends :
    let x := { Eng.reset with loops := [le1, le2] }
    let y := { Eng.reset with loops := [le2] }
    Eng.reset.seq = none ∧ Eng.reset.loops = [] ∧ x.seq = none ∧ x.loops = le1 :: [le2] ∧ (8 : BitVec 64) ≠ le1.stop ∧
    (12 : BitVec 64) = le1.stop ∧ le1.count = 1 ∧ y.loops = le2 :: [] ∧ (12 : BitVec 64) = le2.stop ∧ 2 ≤ le2.count ∧
    le1.start.toNat ≤ (4#64).toNat ∧ (4#64).toNat < le1.stop.toNat ∧
    ¬(le1.start.toNat ≤ (0#64).toNat ∧ (0#64).toNat < le1.stop.toNat) := by decide

theorem wit_ModuloLoop :
    let s := putA r0 .ctl 1 4
    let v := { withEng r0 .vec (fun x => { x with seq := some ms1 }) with cycle := 2 }
    let b := withEng r0 .bte fun x => { x with seq := some { ms1 with k := 0 } }
    let c := withEng r0 .ctl fun x => { x with seq := some { ms1 with between := false } }
    let d := withEng r0 .ctl fun x => { x with seq := some { ms1 with between := false, stage := 2 } }
    8 ≤ (8#4).toNat ∧ (7#4).toNat < 8 ∧ (9#10) ≠ 0 ∧ allUniform s.cur [1] = true ∧ (s.eng s.cur).seq = none ∧ CtlReady s [1] ∧
    uintA s s.cur 1 ≠ 0 ∧ uintA s s.cur 0 = 0 ∧ CtlReady s [0] ∧ (v.eng .vec).seq = some ms1 ∧ passReady v .vec ms1 = true ∧
    (b.eng .bte).seq = some { ms1 with k := 0 } ∧ passReady b .bte { ms1 with k := 0 } = true ∧ (r0.eng r0.cur).seq = none ∧
    (c.eng c.cur).seq = some { ms1 with between := false } ∧ ms1.stage + 1 < ms1.sc ∧
    (d.eng d.cur).seq = some { ms1 with between := false, stage := 2 } ∧ ms1.sc ≤ 2 + 1 := by
  unfold CtlReady Readable; decide

theorem wit_BufferRecords :
    0x0B ≤ (11#5).toNat ∧ bfField 0 = some (0, 57) ∧ bfField 10 = some (232, 2) ∧ allUniform r0.cur [1] = true ∧ CtlReady r0 [1] := by
  unfold CtlReady Readable; decide

theorem wit_TokenAndWindowForms :
    let s := tokSet r0 3 15
    let t := rT .thr
    let v := rT .vec
    (¬((0#4) ≠ 0)) ∧ ((15#4) ≠ 0 ∧ (0#2) ≠ 3 ∧ (8#4) ≠ 0) ∧ v.cur ≠ .thr ∧ bitAt (7#4) v.cur.tag = false ∧
    bitAt (1#4) s.cur.tag = true ∧ (15#4).toNat ≤ tokGet s (twaitCounter s.cur 0) ∧ tokGet r0 (twaitCounter r0.cur 0) < (1#4).toNat ∧
    (s.cur = .thr ∨ bitAt (1#4) s.cur.tag = true) ∧ (t.cur = .thr ∧ (0#4) = 0 ∧ (2#2) = 2) ∧
    (r0.cur = .ctl ∧ allUniform r0.cur [1] = true ∧ CtlReady r0 [1]) ∧ v.cur ≠ .ctl ∧ allUniform v.cur [1] = true ∧ CtlReady v [1] := by
  unfold CtlReady Readable; decide

/-- Every ring engine but the Steward stands at its PHASE. -/
def ph : State :=
  let at_ (x : Eng) : Eng := { x with atPhase := true }
  withEng (withEng (withEng r0 .bte at_) .mxe at_) .vec at_

/-- Two engines ask to write one granule. -/
def phDet : State :=
  let f : Option (List FootRange) := some [⟨3, 5, 1⟩]
  let s := withEng (withEng ph .bte fun x => { x with pending := f }) .vec fun x => { x with pending := f }
  { s with ctx := { s.ctx with det := true } }

theorem wit_PhaseAndEnd_phase :
    let u (s : State) := s.setEng s.cur { (s.eng s.cur) with atPhase := true }
    let all (s : State) : Prop := ∀ f ∈ ringEngines, ((u s).eng f).atPhase = true ∧ ∀ o ∈ s.ops, o.eng = f → o.touchesMemory = false
    let busy := { ph with ops := [op1 0 .vec [.a 16 9] .result] }
    r0.cur ≠ .thr ∧ (r0.eng r0.cur).seq = none ∧ ¬all r0 ∧ all ph ∧ ph.ctx.det = false ∧ all busy ∧ outstanding busy .vec = true ∧
    all phDet ∧ phDet.ctx.det = true ∧ footOverlap (u phDet) = some (5, .bte, .vec) := by decide +kernel

theorem wit_PhaseAndEnd_end :
    let at_ (x : Eng) : Eng := { x with atStop := true }
    let s := withEng (withEng (withEng r0 .bte at_) .mxe at_) .vec at_
    let w := { s with ctx := { s.ctx with trailer := 7 } }
    (rT .bte).cur = .bte ∧ ((rT .bte).eng (rT .bte).cur).seq = none ∧ s.cur = .ctl ∧ (s.eng .bte).atStop = true ∧
    (s.eng .mxe).atStop = true ∧ (s.eng .vec).atStop = true ∧ (∀ f ∈ ringEngines, outstanding s f = false) ∧
    bitAt s.ctx.trailer 3 = true ∧ s.ctx.thrrun = false ∧ outstanding s .thr = false ∧ bitAt w.ctx.trailer 3 = false ∧
    (∀ f ∈ ringEngines, outstanding w f = false) ∧ (rT .thr).cur = .thr ∧ outstanding (rT .thr) .thr = false := by decide

theorem wit_IssueFrames :
    let o := op1 0 .ctl [.a 16 9] .result
    let s := { r0 with ops := [o] }
    ((16#5) ≠ 0 ∧ ∀ o ∈ r0.ops, o.eng = r0.cur → o.writes (.a 16) = false) ∧
    ((16#5) ≠ 0 ∧ ∃ o ∈ s.ops, o.eng = s.cur ∧ o.writes (.a (16#5).toNat) = true) ∧ ((17#5) ≠ 16) ∧ Engine.bte ≠ r0.cur ∧
    Straight (r0.eng r0.cur) ∧ (6#3) ≠ 7 ∧ (7#3) = 7 := by
  unfold Straight; decide

theorem wit_IllegalPrivate :
    r0.ctx.stop = none ∧ r0.ctx.status = .running ∧ encodingOk (.ld hp 3 0 0 0 0 2 16 2 0 0) false = false ∧
    encodingOk (.st hp 0 0 0 0 1 2 5 2 0 0) false = false ∧ encodingOk (.atom hp 0 0 0 0 0 1 16 2 0 5 0 0) false = false ∧
    encodingOk (.fence hp 0 0) false = false ∧ encodingOk (.csrr hp 0x0A2 16) false = false ∧
    encodingOk (.csrw hp 0x001 5) false = false ∧ encodingOk (.ttok hp 0) false = false ∧ encodingOk (.abc hp 16 5) false = false ∧
    encodingOk (.qres hp 15 9 0) false = false := by decide

theorem wit_IllegalPrivate_rest : ∀ i ∈ [Instr.ldf hp 15 2 0 0, .bara hp 5 16 0 0 0, .barw hp 7 16 0 0, .bars hp 6 16 0 0 0, .htake hp 1 0 0,
    .hqry hp 15 0 0, .foot hp 5 0 0, .bellr hp 15, .qhead hp 15 0, .ditem hp 15 0, .gclkr hp 15], encodingOk i false = false := by decide

/-! #### The Steward (chapters 4, 11 and 12) -/

/-- A record of 16 bytes at 64 of the own scratchpad, clipping with zero; byte 12 is the last at which four fit. -/
def sL : State := putBf r0 .ctl 2 (rec1 1 1 64 16 + 2 ^ 224)

/-- The same with its granule full. -/
def sF : State := setFull sL [4] true

theorem wit_LoadCompletes :
    StewardReady sL (.ld hp 0 0 0 0 0 2 16 2 0 12) hp [ra 0] ∧ accessNeed .ctl false false sL = none ∧
    scalarPlace sL .ctl (recOf sL .ctl 2) (sintA sL .ctl 0 + (12#18).toInt) 4 .read false false =
      .ok 76 (.local ((List.range 4).map fun i => scratchKey 0 (76 + i))) ∧ granuleWait sL .ctl [] true = none ∧ NoAlias sL ∧ sL.BytesOk ∧ sL.l1.clean = [] ∧ sL.qc.clean = [] ∧
    StewardReady sL (.ld hp 0 0 0 0 0 2 16 2 0 13) hp [ra 0] ∧
    scalarPlace sL .ctl (recOf sL .ctl 2) (sintA sL .ctl 0 + (13#18).toInt) 4 .read false false = .clip ∧
    StewardReady sF (.ld hp 2 0 0 0 0 2 16 2 0 0) hp [ra 0] ∧ accessNeed .ctl false false sF = none ∧
    scalarPlace sF .ctl (recOf sF .ctl 2) (sintA sF .ctl 0 + (0#18).toInt) 4 .read false true =
      .ok 64 (.local ((List.range 4).map fun i => scratchKey 0 (64 + i))) ∧
    granuleWait sF .ctl (accGranules sF (recOf sF .ctl 2) 64 4) true = none := by
  unfold StewardReady Issues Readable NoAlias State.BytesOk State.MemOk Cache.Ok Rising; decide +kernel

theorem wit_Stores :
    StewardReady sL (.st hp 0 0 3 2 0 3 5 2 0 8) hp [ra 0, ra 5] ∧ accessNeed .ctl true true sL = none ∧
    scalarPlace sL .ctl (recOf sL .ctl 2) (sintA sL .ctl 0 + (8#18).toInt) 8 .write false false =
      .ok 72 (.local ((List.range 8).map fun i => scratchKey 0 (72 + i))) ∧ granuleWait sL .ctl [] false = none ∧
    widerScope (ordScope true 0 3 (recOf sL .ctl 2)) (feScope (recOf sL .ctl 2) false) = some 3 ∧ clean sL .ctl = true ∧
    StewardReady sL (.st hp 0 0 3 2 0 3 5 2 0 9) hp [ra 0, ra 5] ∧
    scalarPlace sL .ctl (recOf sL .ctl 2) (sintA sL .ctl 0 + (9#18).toInt) 8 .write false false = .clip ∧
    StewardReady sL (.st hp 2 0 0 0 0 2 5 2 0 0) hp [ra 0, ra 5] ∧
    granuleWait sL .ctl (accGranules sL (recOf sL .ctl 2) 64 4) false = none ∧
    widerScope (ordScope false 0 0 (recOf sL .ctl 2)) (feScope (recOf sL .ctl 2) true) = some 0 ∧ clean sL .ctl = true := by
  unfold StewardReady Issues Readable; decide +kernel

theorem wit_Stores_bytes :
    r0.BytesOk ∧ NoAlias r0 ∧ r0.l1.clean = [] ∧ r0.qc.clean = [] ∧ clean r0 .ctl = true ∧
    (Place.local [7, 8]).keys.length = [1#8, 2#8].length ∧ (Place.local [7, 8]).keys.Nodup ∧
    (Place.global [(7, false), (8, false)]).keys.Nodup ∧ 1 < [1#8, 2#8].length := by
  unfold State.BytesOk State.MemOk Cache.Ok Rising NoAlias; decide +kernel

theorem wit_GranuleForms :
    StewardReady sL (.ldf hp 16 2 0 0) hp [ra 0] ∧ accessNeed .ctl false false sL = none ∧
    granuleBase sL 2 0 0 .read true = .inr (recOf sL .ctl 2, 64) ∧
    rangeCheck sL .ctl (recOf sL .ctl 2) 64 (min 1024 ((recOf sL .ctl 2).limit - 64)) .read = none ∧
    StewardReady (putA sL .ctl 5 2) (.stf hp 1 5 2 0 0) hp [ra 0, ra 5] ∧ accessNeed .ctl true true (putA sL .ctl 5 2) = none ∧
    granuleBase (putA sL .ctl 5 2) 2 0 0 .write true = .inr (recOf sL .ctl 2, 64) ∧
    rangeCheck (putA sL .ctl 5 2) .ctl (recOf sL .ctl 2) 64 (16 * uintA (putA sL .ctl 5 2) .ctl 5) .write = none ∧
    clean (putA sL .ctl 5 2) .ctl = true ∧ StewardReady sL (.stf hp 1 5 2 0 0) hp [ra 0, ra 5] ∧ uintA sL .ctl 5 = 0 ∧
    granuleBase sL 2 0 0 .write false = .inr (recOf sL .ctl 2, 64) := by
  unfold StewardReady Issues Readable; decide +kernel

/-- A partition with Commons on every die, and a record of eight 64-bit integers there. -/
def sC : State :=
  let s := putBf r0 .ctl 2 (rec1 3 4 0 8)
  { s with disp := { s.disp with parts := s.disp.parts.set 0 { Part.reset with cmSize := Vector.replicate 8 1 } } }

theorem wit_Atomics :
    StewardReady sC (.atom hp 0 0 4 3 0 3 16 2 0 5 9 56) hp ([ra 0, ra 5] ++ [ra 16]) ∧ accessNeed .ctl true false sC = none ∧
    (recOf sC .ctl 2).isScratch = false ∧ (((recOf sC .ctl 2).baseAddr.1 : Int) + (sintA sC .ctl 0 + (56#9).toInt)) % 8 = 0 ∧
    scalarPlace sC .ctl (recOf sC .ctl 2) (sintA sC .ctl 0 + (56#9).toInt) 8 .atomic false false =
      .ok 56 (.local ((List.range 8).map fun i => commonsKey 0 0 (56 + i))) ∧
    ordScope true 0 4 (recOf sC .ctl 2) = some 4 ∧ clean sC .ctl = true := by
  unfold StewardReady Issues Readable; decide +kernel

theorem wit_Atomics_request :
    (∃ r ∈ [(⟨unitOf 0 64, 3, 5, 9⟩ : Reply)], r.unit = unitOf 0 64 ∧ r.port = 3 ∧ r.seqNo = 5) ∧
    (¬∃ r ∈ r0.replies, r.unit = unitOf 0 64 ∧ r.port = 3 ∧ r.seqNo = 5) ∧ r0.MemOk ∧ NoAlias r0 ∧ armedLine r0 64 = false ∧
    poisoned r0 (keyRange 64 8) = false := by
  unfold State.MemOk NoAlias; decide

/-- The engine of the Steward waits at a bars at which it has arrived. -/
def sB : State := withEng r0 .ctl fun x => { x with begun := true }

theorem wit_FencesAndBarriers :
    StewardReady r0 (.fence hp 5 3) hp [] ∧ orderNeed .ctl true r0 = none ∧
    (∀ o ∈ r0.ops, o.eng = .ctl → o.isAccess = false) ∧ clean r0 .ctl = true ∧ clean r0 .ctl = true ∧
    StewardReady r0 (.bara hp 4 0 1 0 15) hp [ra 1] ∧ (getNet r0 (netIdx 4 15)).pendingFor .ctl = false ∧
    clean r0 .ctl = true ∧ StewardReady r0 (.barw hp 4 0 0 15) hp [] ∧ (getNet r0 (netIdx 4 15)).mine = none ∧
    StewardReady r0 (.bars hp 4 0 1 0 15) hp [ra 1] ∧ (r0.eng .ctl).begun = false ∧
    StewardReady sB (.bars hp 4 0 1 0 15) hp [ra 1] ∧ (sB.eng .ctl).begun = true ∧ (getNet sB (netIdx 4 15)).mine = none ∧
    (getNet (setNet r0 (netIdx 4 15) ((getNet r0 (netIdx 4 15)).arrive .ctl (readA r0 .ctl 1))) (netIdx 4 15)).mine = some 0 ∧
    0 < (getNet (setNet r0 (netIdx 4 15) ((getNet r0 (netIdx 4 15)).arrive .ctl (readA r0 .ctl 1))) (netIdx 4 15)).episode ∧
    1 ≤ Net.reset.arrived + 1 ∧ Net.reset.arrived + 1 < (2#64).toNat := by
  unfold StewardReady Issues Readable; decide +kernel

/-- Handle 0 of this core is in transit back to it. -/
def sH : State := setHandle r0 0 (.transit 1 0)

theorem wit_HandlesBroadcastFoot_handles :
    designationOk (readA r0 .ctl 0) = true ∧ handleInWindow r0 (readA r0 .ctl 0) = true ∧ designationOk 47 = true ∧
    StewardReady (putA r0 .ctl 5 3) (.hgive hp 0 5 0) hp [ra 0, ra 5] ∧ orderNeed .ctl true (putA r0 .ctl 5 3) = none ∧
    uintA (putA r0 .ctl 5 3) .ctl 5 < 4 ∧
    (putA r0 .ctl 5 3).handles.getD (handleIdx (readA (putA r0 .ctl 5 3) .ctl 0)) .text = .held 0 ∧
    (∀ o ∈ (putA r0 .ctl 5 3).ops, handleIdx (readA (putA r0 .ctl 5 3) .ctl 0) ∉ o.touches) ∧ clean (putA r0 .ctl 5 3) .ctl = true ∧
    StewardReady sH (.htake hp 16 0 0) hp [ra 0] ∧ orderNeed .ctl false sH = none ∧
    sH.handles.getD (handleIdx (readA sH .ctl 0)) .text = .transit 1 0 ∧ StewardReady sH (.hqry hp 16 0 0) hp [ra 0] := by
  unfold StewardReady Issues Readable; decide +kernel

/-- Three values wait at the vector engine's receive point, whose turn it is. -/
def sA : State :=
  let s := rT .vec
  { s with ctx := { s.ctx with abcVec := [(3, 7), (4, 8), (5, 9)] } }

/-- a5 holds the last offset at which a footprint descriptor fits. -/
def sD : State := putA r0 .ctl 5 0x2FFFC0

theorem wit_HandlesBroadcastFoot_abc :
    StewardReady sA (.abc hp 3 5) hp [ra 5] ∧ sA.ctx.abcBte.length < 4 ∧ sA.ctx.abcMxe.length < 4 ∧ sA.ctx.abcVec.length < 4 ∧
    sA.cur = .vec ∧ abcQueue sA .vec = (3, 7) :: [(4, 8), (5, 9)] ∧ (3#5) ≠ 0 ∧
    StewardReady sD (.foot hp 4 5 0) hp [ra 5] ∧ orderNeed .ctl false sD = none ∧
    ((readA sD .ctl 5).toNat + (0#13).toNat) % 8 = 0 ∧ (readA sD .ctl 5).toNat + 64 ≤ 0x300000 ∧ inWindow sD 0x2FFFC0 64 = true ∧
    rangeCheck sD .ctl localRec 0x2FFFC0 64 .read = none ∧
    (∀ i : Fin 8, leValue (((rawRead sD (keyRange (scratchKey sD.coreNo.toNat 0x2FFFC0) 64)).drop (8 * i.val)).take 8) = 0) := by
  unfold StewardReady Issues Readable; decide +kernel

theorem wit_SystemRegisters_writes :
    ({ r0 with mx := { r0.mx with modeok := false } } : State).mx.modeok = false ∧ ({ r0 with mx := { r0.mx with modeok := true } } : State).mx.modeok = true ∧
    (let taken (s : State) (v : BitVec 64) : Prop := ((sysRead s 0x067).extractLsb' 16 16 - v.extractLsb' 0 16).toNat ≤
        2 ^ ((sysRead s 0x066).extractLsb' 2 4).toNat;
      taken r0 0 ∧ ¬taken r0 1) := by decide +kernel

theorem wit_SystemRegisters :
    StewardReady r0 (.csrr hp 0x0A1 16) hp [] ∧ accessNeed .ctl false false r0 = none ∧ StewardReady r0 (.csrw hp 0x000 5) hp [ra 5] := by
  unfold StewardReady Issues Readable; decide +kernel

/-- The Bell stands at 7 and the Steward waits for it to reach 7; a6 is the length of the longest Thresher text. -/
def sW : State := putA { withEng r0 .ctl (fun x => { x with wait := some ⟨.bell 7, 0, 0⟩ }) with bell := 7 } .ctl 6 16384

theorem wit_BellAndThresherStart :
    StewardReady sW (.bellr hp 16) hp [] ∧ StewardReady sW (.gclkr hp 16) hp [] ∧ StewardReady sW (.ttok hp 15) hp [] ∧
    StewardReady sW (.bellw hp 0 7) hp [ra 0] ∧ (readA sW .ctl 0 + (7#13).setWidth 64).toNat ≤ sW.bell.toNat ∧
    sW.bell.toNat < (readA sW .ctl 0 + (8#13).setWidth 64).toNat ∧ (sW.eng .ctl).wait = some ⟨.bell 7, 0, 0⟩ ∧
    StewardReady sW (.tstart hp 0 6 0xFFF) hp [ra 0, ra 6] ∧ Memory.wf sW.ctx.imem ∧ orderNeed .ctl false sW = none ∧
    sW.ctx.thrrun = false ∧ outstanding sW .thr = false ∧ uintA sW .ctl 6 ≤ 16384 ∧ uintA sW .ctl 6 % 4 = 0 ∧
    uintA sW .ctl 0 % 16 = 0 ∧ rangeCheck sW .ctl localRec 0 16384 .read = none ∧
    StewardReady sW (.tstart hp 0 5 0) hp [ra 0, ra 5] ∧ uintA sW .ctl 5 = 0 := by
  unfold StewardReady Issues Readable; decide +kernel

/-- A handling strand, and the context that it handles: stopped by a trap, and by a fault elsewhere. -/
def sX (afterTrap : Bool) : State :=
  { r0 with
    ctx := { r0.ctx with status := .handler, taskHandler := true }
    saved := [({ r0.ctx with status := .stopped, stop := some ⟨⟨.trap, 0, false, 5, 0⟩, 0, false, afterTrap, true, false, .running, false⟩ }, [])] }

theorem wit_TrapAndReturn :
    StewardReady r0 (.trap hp 0x1FFF) hp [] ∧ r0.ctx.stop = none ∧ r0.ctx.status = .running ∧ (sX true).ctx.status = .handler ∧
    StewardReady (sX true) (.trap hp 0) hp [] ∧ (sX true).ctx.stop = none ∧
    encodingOk (.eret hp) false = true ∧ (∀ b : Bool, popWait (sX b) .ctl hp = none ∧ (sX b).ctx.taskHandler = true ∧ (sX b).ops = [] ∧
      (sX b).mx.pound = [] ∧ quotaHolds (sX b) (sX b).ctx.part = false ∧ areaImage (sX b) (sX b).ctx.part = [] ∧
      ((sX b).saved.find? (fun x => x.1.part == (sX b).ctx.part)).isSome) ∧
    areaImage (rawWrite (sX true) [(saveArea r0 0, 1)]) 0 ≠ [] := by
  unfold StewardReady Issues Readable; decide +kernel

/-- Queue 16383 of partition 0 is enabled, and the strand runs an item of an instance of three stages, at stage 1. -/
def sQ : State :=
  let st : Stage := ⟨0, 0, 0, 2, 0, 0, ⟨0, 0, 0, 0, false, 0, 0, 0⟩⟩
  let p : Pipe := { (default : Pipe) with id := 4, queue := 16383, stages := [st, st, st], queues := [[], [], []] }
  let s := setWq r0 16383 { Wq.reset with en := true }
  putA (putA { s with disp := { s.disp with pipes := [p] }, ctx := { s.ctx with inst := some 4, taskStage := 1 } } .ctl 5 16383) .ctl 6 4096

theorem wit_TaskAndQueueForms_end :
    StewardReady r0 (.taskend hp 5) hp [ra 5] ∧ trailerReached r0 = false ∧
    StewardReady { r0 with ctx := { r0.ctx with trailer := 0 } } (.taskend hp 5) hp [ra 5] ∧
    trailerReached { r0 with ctx := { r0.ctx with trailer := 0 } } = true ∧
    trailerReached { r0 with ctx := { r0.ctx with trailer := 8 } } = true := by
  unfold StewardReady Issues Readable; decide +kernel

theorem wit_TaskAndQueueForms_queues :
    uintA sQ .ctl 5 < 16384 ∧ (getWq sQ 16383).part = sQ.ctx.part ∧ (getWq sQ 16383).en = true ∧
    StewardReady sQ (.qres hp 16 5 6) hp [ra 5, ra 6] ∧ accessNeed .ctl true false sQ = none ∧ readA sQ .ctl 6 ≠ 0 ∧
    (readA sQ .ctl 6).toNat ≤ 4096 ∧ StewardReady sQ (.qres hp 16 5 0) hp [ra 5, ra 0] ∧
    (∀ r ∈ sQ.replies, r.unit ≠ 2 ^ 40 + 16383) ∧ StewardReady sQ (.qtail hp 5 6) hp [ra 5, ra 6] ∧ orderNeed .ctl true sQ = none ∧ clean sQ .ctl = true ∧
    StewardReady sQ (.qhead hp 16 5) hp [ra 5] ∧ accessNeed .ctl false false sQ = none ∧ StewardReady sQ (.ditem hp 16 15) hp [] ∧
    StewardReady sQ (.dpush hp 0 2) hp [ra 0] ∧ sQ.ctx.taskHandler = false ∧ uintA sQ .ctl 0 % 16 = 0 ∧
    sQ.ctx.taskStage.toNat < (2#3).toNat ∧ rangeCheck sQ .ctl localRec 0 128 .read = none ∧
    ((sQ.ctx.inst.bind (findPipe sQ)).any fun p => decide ((2#3).toNat < p.stages.length) && !p.stageFull 2) = true := by
  unfold StewardReady Issues Readable; decide +kernel

/-! #### The vector engine (chapter 5) -/

/-- The turn of the vector engine. -/
def sV : State := rT .vec

/-- All the element-wise forms. -/
def laneForms : List LaneForm :=
  [.add, .sub, .mul, .min, .max, .mulh, .adds, .subs, .fma, .fms, .fnma, .abs, .neg, .and, .or, .xor, .not, .sll, .srl, .sra]

/-- All the special functions. -/
def sfuForms : List SfuForm := [.rcp, .rsqrt, .sqrt, .exp2, .log2, .sinpi, .cospi, .tanh, .sigm, .gelu, .silu, .erf]

theorem wit_VectorLaneForms :
    (∀ k ∈ laneForms, VectorReady sV (k.instr hp 4 0 1 16 1 2 3 0) hp (laneReads sV 1 16 (k.sources 1 2 3) 0) ∧ k.accepts 4 = true) ∧
    (∀ k ∈ laneForms, VectorReady sV (k.instr hp 17 0 0 16 1 2 3 15) hp (laneReads sV 0 16 (k.sources 1 2 3) 15) ∧
      (k.accepts 17 = false ∨ k ∈ [.and, .or, .xor, .not])) ∧ RMode.ofCode 0 sV.ctx.vec.rm = some .rne ∧
    VectorReady sV (.vfma hp 8 5 0 16 1 2 3 0) hp (laneReads sV 0 16 [1, 2, 3] 0) ∧ (RMode.ofCode 5 sV.ctx.vec.rm).isSome ∧
    (∀ k ∈ sfuForms, VectorReady sV (k.instr hp 8 0 16 1 0) hp (laneReads sV 0 16 [1] 0) ∧
      VectorReady sV (k.instr hp 7 0 16 1 0) hp (laneReads sV 0 16 [1] 0)) ∧ sV.ctx.vec.sfuFree ≤ sV.cycle ∧
    tyOk 0 = true ∧ tyOk 18 = true ∧ vtFloat 8 = true ∧ vtFloat 7 = false := by
  unfold VectorReady Issues Readable; decide +kernel

theorem wit_ComparesAndPredicates :
    VectorReady sV (.vcmp hp 10 1 6 15 1 2 0) hp ([regV sV 1, regV sV 2, regP 0] ++ [regP 15]) ∧ predOwned sV 15 = false ∧
    vtFloat 10 = true ∧ VectorReady sV (.vcmp hp 0 0 0 0 1 2 0) hp ([regV sV 1, regV sV 2, regP 0] ++ []) ∧ predOwned sV 0 = false ∧
    vtInt 0 = true ∧ VectorReady sV (.vsel hp 18 16 1 2 0) hp [regV sV 1, regV sV 2, regP 0] ∧
    VectorReady sV (.pand hp 15 1 2) hp [regP 1, regP 2] ∧ VectorReady sV (.por hp 15 1 2) hp [regP 1, regP 2] ∧
    VectorReady sV (.pxor hp 15 1 2) hp [regP 1, regP 2] ∧ VectorReady sV (.pnot hp 0 1) hp [regP 1, regP 0] ∧
    VectorReady sV (.pcnt hp 18 31 15) hp [regP 15] := by
  unfold VectorReady Issues Readable; decide +kernel

theorem wit_VectorConvert :
    VectorReady sV (.vcvt hp 0 0 1 0 16 1 4 0) hp ((groupRegs sV 1 1).map .v ++ [regP 0] ++ (groupRegs sV 16 4).map .v) ∧
    cvtPair 0 4 = true ∧ cvtRatio 0 4 = 4 ∧
    VectorReady sV (.vcvt hp 8 5 0 0 16 4 9 0) hp ((groupRegs sV 4 2).map .v ++ [regP 0] ++ []) ∧ cvtPair 8 9 = true ∧ cvtRatio 8 9 = 2 ∧
    (RMode.ofCode 5 sV.ctx.vec.rm).isSome ∧ RMode.ofCode 0 sV.ctx.vec.rm = some .rne ∧
    VectorReady sV (.vcvt hp 17 0 0 3 16 1 1 0) hp ((groupRegs sV 1 1).map .v ++ [regP 0] ++ []) ∧ cvtPair 17 1 = false := by
  unfold VectorReady Issues Readable; decide +kernel

theorem wit_ReductionsAndPermutes :
    (∀ op : Fin 7, VectorReady sV (.vred hp 8 0 (BitVec.ofNat 3 op.val) 16 1 0 3) hp [regV sV 1, regP 0] ∧ redTypes 8 (BitVec.ofNat 3 op.val) = true) ∧
    RMode.ofCode 0 sV.ctx.vec.rm = some .rne ∧ VectorReady sV (.vred hp 8 0 0 16 1 0 0) hp [regV sV 1, regP 0] ∧
    VectorReady sV (.vperm hp 0 0 1 16 1 2 0) hp (laneReads sV 0 16 [1, 2] 0) ∧
    VectorReady sV (.vdup hp 0 1 16 5 0) hp (ra 5 :: laneReads sV 1 16 [] 0) ∧
    VectorReady sV (.vzip hp 0 16 1 2) hp [regV sV 1, regV sV 2] ∧
    VectorReady sV (.vunzip hp 0 16 2) hp ((groupRegs sV 2 2).map .v) ∧
    VectorReady sV (.vgetx hp 0 16 1 5) hp [regV sV 1, ra 5] := by
  unfold VectorReady Issues Readable; decide +kernel

/-- A record of 64 INT64 elements from 64 of the own scratchpad, which clips with zero. -/
def sM : State := putBf sV .vec 2 (rec1 1 4 64 64 + 2 ^ 224)

/-- The same over the first three elements only, with their granule full. -/
def sN : State := setFull (putBf sV .vec 2 (rec1 1 4 64 3 + 2 ^ 224)) [5] true

/-- What bytes were located, none if an access traps or waits. -/
def spotLs (x : Spots) : List (List Loc) := match x with | .ok ls => ls | _ => []
def spotOk (x : Spots) : Bool := match x with | .ok _ => true | _ => false

/-- Where element `j` of an access at index 0 lies. -/
def vlin (s : State) (d : Int) (j : Nat) : Int := sintA s .vec 0 + d + j

theorem wit_VectorLoads :
    VectorReady sN (.vld hp 6 1 0 16 2 0 0 2) hp (ra 0 :: laneReads sN 1 16 [] 0) ∧ vecNeed false sN = none ∧
    (recOf sN .vec 2).fieldTrap false (memFmtOk 6) = none ∧ (recOf sN .vec 2).fieldTrap true (memFmtOk 6) = none ∧
    spotOk (vecSpots sN (recOf sN .vec 2) .read ((activeLanes sN 6 0).map (vlin sN 2))) = true ∧
    (recOf sN .vec 2).inBounds (vlin sN 2 0) = true ∧ (recOf sN .vec 2).inBounds (vlin sN 2 1) = false ∧
    granuleWait sN .vec [] true = none ∧ NoAlias sN ∧ sN.BytesOk ∧ sN.l1.clean = [] ∧ sN.qc.clean = [] ∧ VectorReady sN (.vld hp 6 1 2 16 2 0 0 2) hp (ra 0 :: laneReads sN 1 16 [] 0) ∧
    locGranules sN (recOf sN .vec 2) (spotLs (vecSpots sN (recOf sN .vec 2) .read ((activeLanes sN 6 0).map (vlin sN 2)))).flatten = [5] ∧
    granuleWait sN .vec [5] true = none ∧
    VectorReady sN (.vldg hp 6 0 16 2 0 0 4) hp (ra 0 :: (groupRegs sN 4 (idxRegs 6)).map .v ++ laneReads sN 0 16 [] 0) ∧
    spotOk (vecSpots sN (recOf sN .vec 2) .read ((activeLanes sN 6 0).map fun j => sintA sN .vec 0 + gatherIndex sN 4 j)) = true := by
  unfold VectorReady Issues Readable NoAlias State.BytesOk State.MemOk Cache.Ok Rising; decide +kernel

theorem wit_VectorStores :
    VectorReady sM (.vst hp 6 2 16 2 0 0 2) hp [ra 0, regV sM 16, regP 0] ∧ vecNeed true sM = none ∧
    (recOf sM .vec 2).fieldTrap true (memFmtOk 6) = none ∧ granuleWait sM .vec (List.range 40) false = none ∧
    spotOk (vecSpots sM (recOf sM .vec 2) .write ((activeLanes sM 6 0).map (vlin sM 2))) = true ∧
    feScope (recOf sM .vec 2) true = some 0 ∧ clean sM .vec = true ∧ (∀ l ∈ [64, 65], armedLine sM l = false) ∧
    VectorReady sM (.vst hp 6 0 16 2 0 0 4095) hp [ra 0, regV sM 16, regP 0] ∧ feScope (recOf sM .vec 2) false = none ∧
    clean sM .vec = true ∧ (recOf sM .vec 2).fieldTrap false (memFmtOk 6) = none ∧
    VectorReady sM (.vsts hp 6 16 2 0 0 4) hp ([ra 0, regV sM 16, regP 0] ++ (groupRegs sM 4 (idxRegs 6)).map .v) ∧
    spotOk (vecSpots sM (recOf sM .vec 2) .write ((activeLanes sM 6 0).map fun j => sintA sM .vec 0 + gatherIndex sM 4 j)) = true ∧
    NoAlias sM ∧ sM.BytesOk ∧ sM.l1.clean = [] ∧ sM.qc.clean = [] := by
  unfold VectorReady Issues Readable NoAlias State.BytesOk State.MemOk Cache.Ok Rising; decide +kernel

/-- A record of one row of `n` elements of a quantised format, which clips with zero. -/
def sK (fmt n : Nat) : State := putBf sV .vec 2 (rec1 1 fmt 64 n + 2 ^ 224)

/-- The spans of a vqld of f32 at index 0 through b2, each lane's. -/
def qldSpans (s : State) (f : Fmt) : List (List Span) :=
  (((activeLanes s 8 0).filter fun j => (recOf s .vec 2).inBounds (vlin s 0 j))).map fun j => quantSpans (recOf s .vec 2) f (vlin s 0 j)

theorem wit_QuantisedForms_load : ∀ c ∈ [(0x28, Fmt.mxe4m3t, 32), (0x30, .tl8, 16), (0x39, .cb8, 3), (0x14, .e2m1, 4)],
    let s := sK c.1 c.2.2
    VectorReady s (.vqld hp 8 5 1 3 16 2 0 0) hp (ra 0 :: laneReads s 1 16 [] 0) ∧ vecNeed false s = none ∧
    (RMode.ofCode 5 s.ctx.vec.rm).isSome ∧ (recOf s .vec 2).format = some c.2.1 ∧ (recOf s .vec 2).fieldTrap false vqldFmt = none ∧
    worst ((recOf s .vec 2).oobTraps .read ((activeLanes s 8 0).map (vlin s 0)) ++
      spanTraps s .vec (recOf s .vec 2) .read (qldSpans s c.2.1).flatten) = none ∧
    spotOk (reachSpans s (recOf s .vec 2) .read (qldSpans s c.2.1).flatten) = true ∧
    (∀ x ∈ ((activeLanes s 8 0).filter fun j => (recOf s .vec 2).inBounds (vlin s 0 j)).zip
        (regroup ((qldSpans s c.2.1).map (·.length)) (spotLs (reachSpans s (recOf s .vec 2) .read (qldSpans s c.2.1).flatten))),
      tagWrong s c.2.1 (quantBlk (recOf s .vec 2) c.2.1 (vlin s 0 x.1)) x.2 = false) := by
  unfold VectorReady Issues Readable; decide +kernel

/-- The spans of a vqst of f32 at index 0 through b2. -/
def qstSpans (s : State) (f : Fmt) : List Span :=
  if f.isCb then ((List.range 128).filter fun j => (recOf s .vec 2).inBounds (vlin s 0 j)).map fun j => ((recOf s .vec 2).codeAt (vlin s 0 j)).1
  else ((quantBlocks (recOf s .vec 2) f (vlin s 0 0) 128).filter fun b => (recOf s .vec 2).inBounds (vlin s 0 b.lane0)).flatMap
    fun b => b.spans (recOf s .vec 2) f

theorem wit_QuantisedForms_store :
    ∀ c ∈ [(0x28, Fmt.mxe4m3t, 32, 1#1, 0#5), (0x20, .mxe4m3, 33, 0, 0), (0x30, .tl8, 16, 0, 5), (0x31, .tl4, 128, 1, 0), (0x38, .cb4, 5, 0, 0)],
    let s := sK c.1 c.2.2.1
    VectorReady s (.vqst hp 8 c.2.2.2.1 0 16 2 0 0 c.2.2.2.2 (if c.2.2.2.1 = 1 then 17 else 0)) hp
      ([ra 0, regV s 16, regP 0, ra c.2.2.2.2] ++ (if c.2.2.2.1 = 1 then [regV s 17] else [])) ∧
    vecNeed true s = none ∧ (recOf s .vec 2).format = some c.2.1 ∧ (recOf s .vec 2).fieldTrap false vqstFmt = none ∧
    (c.2.2.2.1 = 1 → c.2.1.isCb = false) ∧ (c.2.2.2.2 ≠ 0 → c.2.1.isTl = true) ∧
    (c.2.1.isCb = false → ((recOf s .vec 2).linear (vlin s 0 0)).1 % (c.2.1.block : Int) = 0) ∧
    worst ((recOf s .vec 2).oobTraps .write ((activeLanes s 8 0).map (vlin s 0)) ++
      spanTraps s .vec (recOf s .vec 2) .write (qstSpans s c.2.1)) = none ∧
    spotOk (reachSpans s (recOf s .vec 2) .write (qstSpans s c.2.1)) = true ∧
    (∀ l ∈ (spotLs (reachSpans s (recOf s .vec 2) .write (qstSpans s c.2.1))).flatten, armedLine s l.key = false) := by
  unfold VectorReady Issues Readable; decide +kernel

/-- Two tagged blocks whose tags are both 0: the second one's is wrong. -/
theorem wit_QuantisedForms_tag :
    let s := sK 0x28 64
    let r := recOf s .vec 2
    VectorReady s (.vqld hp 8 5 1 3 16 2 0 0) hp (ra 0 :: laneReads s 1 16 [] 0) ∧
    worst (r.oobTraps .read ((activeLanes s 8 0).map (vlin s 0)) ++ spanTraps s .vec r .read (qldSpans s .mxe4m3t).flatten) = none ∧
    spotOk (reachSpans s r .read (qldSpans s .mxe4m3t).flatten) = true ∧
    (vecRead s r.cache (spotLs (reachSpans s r .read (qldSpans s .mxe4m3t).flatten)).flatten).2 = none ∧
    ((((activeLanes s 8 0).filter fun j => r.inBounds (vlin s 0 j)).zip
      (regroup ((qldSpans s .mxe4m3t).map (·.length)) (spotLs (reachSpans s r .read (qldSpans s .mxe4m3t).flatten)))).any fun x =>
        tagWrong s .mxe4m3t (quantBlk r .mxe4m3t (vlin s 0 x.1)) x.2) = true := by
  unfold VectorReady Issues Readable; decide +kernel

/-! #### The matrix engine, the Sower and the Reeve (chapters 6, 7 and 9) -/

/-- The turn of the matrix engine, both of its paths running, in a context of tiles 0 and 1. -/
def sT : State :=
  let s := rT .mxe
  { s with ctx := { s.ctx with mx := { s.ctx.mx with zBase := 0, zCount := 2 } } }

/-- The same with one operation in flight. -/
def mxOp (a : MxAct) : State := { sT with ops := [op1 7 .mxe [] (.mx a)] }

theorem wit_MatrixTiles_issue :
    MatrixReady sT (.mdrop hp) hp [] ∧ loadPending sT = false ∧ flipPending sT = false ∧ statPending sT = false ∧
    MatrixReady sT (.mzero hp 1) hp [] ∧ tileOk sT 1 = true ∧ tileOk sT 0 = true ∧ MatrixReady sT (.mzero hp 2) hp [] ∧
    tileOk sT 2 = false ∧ MatrixReady sT (.mwin hp 1 127) hp [] ∧ MatrixReady sT (.mwin hp 3 0) hp [] ∧ tileOk sT 3 = false ∧
    MatrixReady sT (.mcopy hp 0 1) hp [] := by
  unfold MatrixReady Issues Readable; decide +kernel

theorem wit_MatrixTiles_rest :
    MatrixReady sT (.madd hp 0 1) hp [] ∧
    MatrixReady sT (.mgetz hp 1 1 1 16 0) hp [ra 0] ∧ (readA sT .mxe 0).toNat < 2 ^ 15 ∧ (readA sT .mxe 0).getLsbD 7 = false ∧
    MatrixReady (putA sT .mxe 5 0x7F7F) (.mgetz hp 0 0 0 16 5) hp [ra 5] ∧ (readA (putA sT .mxe 5 0x7F7F) .mxe 5).toNat < 2 ^ 15 ∧
    (readA (putA sT .mxe 5 0x7F7F) .mxe 5).getLsbD 7 = false ∧ (readA (putA sT .mxe 5 0x8000) .mxe 5).toNat = 2 ^ 15 ∧
    MatrixReady (putA sT .mxe 5 0x8000) (.mgetz hp 0 0 0 16 5) hp [ra 5] ∧ (readA (putA sT .mxe 5 0x80) .mxe 5).getLsbD 7 = true ∧
    MatrixReady sT (.msigr hp 16 17) hp [] ∧ MatrixReady sT (.msync hp) hp [] ∧ sT.mx.pound = [] ∧
    MatrixReady sT (.mstat hp 1 16) hp [] := by
  unfold MatrixReady Issues Readable; decide +kernel

theorem wit_MatrixTiles_landing :
    (∀ a ∈ ([MxAct.zero 1, .win 3 127, .copy 0 1, .add 0 1, .getz 1 true true 16 127 127, .sigr 16 17 none 5 6, .stat true 16, .stat false 31, .rstat 0 16] : List MxAct),
      ∃ op, findOp (mxOp a) 7 = some op ∧ op.strand = (mxOp a).ctx.strand ∧ op.kind = .mx a) ∧
    millRuns sT = true ∧ quernRuns sT = true ∧ sT.mx.mode = .dual ∧ (127 : Nat) < 128 ∧ sT.mx.mill.tiles[0].rows.length ≤ 128 := by
  refine ⟨fun a h => ⟨op1 7 .mxe [] (.mx a), rfl, rfl, rfl⟩, by decide +kernel⟩

/-- A record of a 3 by 2 element matrix of 8-bit integers in the own scratchpad, which clips with zero. -/
def bf32 (fmt : Nat) : BitVec 256 := BitVec.ofNat 256 (64 + fmt * 2 ^ 57 + 3 * 2 ^ 64 + 2 * 2 ^ 96 + 16 * 2 ^ 128 + 2 ^ 160 + 2 ^ 224 + 2 ^ 232)
def sP (fmt : Nat) : State := putBf sT .mxe 2 (bf32 fmt)

/-- The shadow of both paths in state `p`, and their active planes full. -/
def shadow (s : State) (p : PlaneState) : State :=
  let f (m : MPath) : MPath := { m with shadow := { m.shadow with st := p }, active := { m.active with st := .full } }
  { s with mx := { s.mx with mill := f s.mx.mill, quern := f s.mx.quern } }

/-- A fill in flight and a flip in flight. -/
def ldOp (fmt : Nat) : State :=
  { shadow (sP fmt) .filling with ops := [op1 7 .mxe [] (.mx (.load ⟨memOp (sP fmt) 2 0 0 0 false 0 0, sT.mx.mill.sow, sT.mx.quern.sow, 0, none⟩ 0))] }
def flOp : State := { shadow sT .full with ops := [op1 7 .mxe [] (.mx .flip)] }

def isGo (x : Ready) : Bool := match x with | .go _ _ => true | _ => false

theorem wit_PlaneLoads_load : ∀ fmt ∈ [0x00, 0x05, 0x24, 0x38, 0x48],
    let s := sP fmt
    let o := memOp s 2 0 0 0 true 0 0
    MatrixReady s (.mload hp 0 0 1 0 0 2 0 0 0) hp [ra 0, ra 0, ra 0] ∧ loadPending s = false ∧ flipPending s = false ∧
    statPending s = false ∧ slotWait s o.rcd = none ∧ o.fieldTrap 0 loadFmt = none ∧
    worst ((o.planeRegion (if doubleFmt o.fmt then 256 else 128)).check s .mxe o.rcd o.fmt .read) = none ∧
    granuleWait s .mxe (feGranules s 0 o.rcd ((o.planeRegion (if doubleFmt o.fmt then 256 else 128)).spans o.rcd o.fmt)) true = none ∧
    (findOp (ldOp fmt) 7).isSome = true ∧
    isGo (readySpans (ldOp fmt) o.rcd false (((memOp s 2 0 0 0 false 0 0).planeRegion (classK (doubleFmt o.fmt))).spans o.rcd o.fmt) []) = true ∧
    o.fmt ≠ .sqz8 := by
  unfold MatrixReady Issues Readable; decide +kernel

theorem wit_PlaneLoads_flip :
    MatrixReady (shadow sT .empty) (.mflip hp 0) hp [] ∧ (runPath (shadow sT .empty)).shadow.st = .empty ∧
    MatrixReady flOp (.mflip hp 0) hp [] ∧ flipPending flOp = true ∧ MatrixReady (shadow sT .full) (.mflip hp 0) hp [] ∧
    flipPending (shadow sT .full) = false ∧ (runPath (shadow sT .full)).shadow.st = .full ∧ statPending (shadow sT .full) = false ∧
    (∃ op, findOp flOp 7 = some op ∧ op.kind = .mx .flip) := by
  unfold MatrixReady Issues Readable
  refine ⟨by decide +kernel, by decide +kernel, by decide +kernel, by decide +kernel, by decide +kernel, by decide +kernel,
    by decide +kernel, by decide +kernel, ⟨_, rfl, rfl⟩⟩

def w0 : LoadDesc := ⟨memOp (sP 0) 2 0 0 0 false 0 0, sT.mx.mill.sow, sT.mx.quern.sow, 0, none⟩

/-- An mstream of one row in flight, on full planes of the standard class. -/
def strOp (fmt : Nat) : State :=
  let s := shadow (sP fmt) .full
  { s with ops := [op1 7 .mxe [] (.mx (.stream 1 ⟨memOp (sP fmt) 2 0 0 0 false 0 0, 127, 1, true, 0, none, none⟩ 0 s.mx.mill.active s.mx.quern.active 0))] }

theorem wit_StreamForms : ∀ fmt ∈ [0x00, 0x10],
    let s := shadow (sP fmt) .full
    let o := memOp s 2 0 0 0 false 0 0
    MatrixReady s (.mstream hp 0 0 1 1 0 0 2 0 0 0 0 127) hp [ra 0, ra 0, ra 0, ra 0] ∧ (runPath s).active.st = .full ∧
    flipPending s = false ∧ (runPath s).active.dbl = false ∧ s.mx.streamFree ≤ s.cycle ∧ slotWait s o.rcd = none ∧
    o.fieldTrap 0 wideFmt = none ∧
    worst ((⟨o.ab.toInt, o.aa.toInt, o.ac.toInt, 128, 128⟩ : Region2).check s .mxe o.rcd o.fmt .read) = none ∧ tileOk s 1 = true ∧
    0 + ((127#7).toNat + 1) ≤ 128 ∧
    granuleWait s .mxe (feGranules s 0 o.rcd ((⟨o.ab.toInt, o.aa.toInt, o.ac.toInt, 128, 128⟩ : Region2).spans o.rcd o.fmt)) true = none ∧
    (findOp (strOp fmt) 7).isSome = true ∧ o.fmt ≠ .sqz8 ∧
    isGo (readySpans (strOp fmt) o.rcd false ((⟨o.ab.toInt, o.aa.toInt, o.ac.toInt, 128, 1⟩ : Region2).spans o.rcd o.fmt) []) = true := by
  unfold MatrixReady Issues Readable; decide +kernel

theorem wit_StreamForms_sum : ∀ x ∈ [((⟨3, 1⟩, ⟨-5, 4⟩) : Q × Q), (⟨1, 8⟩, ⟨1, 1⟩)],
    -2 ^ 86 ≤ ((x.1.mul x.2).scale (-(-2 : Int))).floor ∧ ((x.1.mul x.2).scale (-(-2 : Int))).floor ≤ 2 ^ 86 - 1 := by decide

/-- A drain of one element of tile 1 as FP32, and its entry, whose paths differ where `q` is not 0. -/
def dr1 : DrainDesc := { (default : DrainDesc) with tile := 1, area := ⟨0, 0, 1, 1⟩, bfr := bf32 8, mode := .dual }
def pe1 (formed : Bool) (q : Byte) : PEntry :=
  { (default : PEntry) with op := 7, units := 2, d := dr1, formed := formed, mill := [0, 0, 0, 0], quern := [q, 0, 0, 0], sigQ := BitVec.ofNat 64 q.toNat }
def sE (e : PEntry) : State :=
  { sT with ops := [{ op1 7 .mxe [] (.mx (.drain 1 false false e.formed)) with due := 0 }], mx := { sT.mx with pound := [e] } }

/-- b2 and b3 name the destination, a5 the region, REF is set. -/
def sG (fmt : Nat) (word : BitVec 64) : State :=
  let s := putBf (putBf sT .mxe 2 (bf32 fmt)) .mxe 3 (bf32 8)
  putA { s with ctx := { s.ctx with mx := { s.ctx.mx with ref := true } } } .mxe 5 word

theorem wit_DrainsAndCommits_issue :
    ∀ c ∈ [(0x08, 0#1, 5#5, (⟨127, 127, 1, 1⟩ : Area)), (0x08, 1, 5, ⟨127, 127, 1, 1⟩), (0x20, 0, 5, ⟨127, 96, 1, 32⟩), (0x10, 0, 0, ⟨0, 0, 128, 128⟩)],
    let s := sG c.1 (BitVec.ofNat 64 (c.2.2.2.row0 + 256 * c.2.2.2.col0 + 65536 * (c.2.2.2.rows - 1) + 2 ^ 24 * (c.2.2.2.cols - 1)))
    let r := recOf s .mxe 2
    MatrixReady s (.mdrain hp 0 1 c.2.1 1 0 2 0 0 0 c.2.2.1) hp [ra 0, ra 0, ra 0, ra c.2.2.1] ∧ s.ctx.mx.ref = true ∧
    statPending s = false ∧ areaOf (c.2.2.1 = 0) (readA s .mxe c.2.2.1) = some c.2.2.2 ∧
    poundUsed s + entryUnits (canonLength (r.format.getD .fp32) (c.2.1 = 1) c.2.2.2) ≤ 256 ∧
    drainTraps s 1 (c.2.1 = 1) r (recOf s .mxe 3) 0 0 0 (readA s .mxe c.2.2.1) (some c.2.2.2) = none ∧
    reachDest s r (drainSpans r (r.format.getD .fp32) ⟨0, 0, 0, c.2.2.2.cols, c.2.2.2.rows⟩) = none ∧
    reachDest s (recOf s .mxe 3) (drainSpans (recOf s .mxe 3) .fp32 ⟨0, 0, 0, c.2.2.2.cols, c.2.2.2.rows⟩) = none := by
  unfold MatrixReady Issues Readable; decide +kernel

theorem wit_DrainsAndCommits_forming :
    (findOp (sE (pe1 false 0)) 7).isSome = true ∧ (sE (pe1 false 0)).mx.pound.find? (fun x => x.op == 7) = some (pe1 false 0) ∧
    (pe1 false 0).formed = false ∧ dr1.mode = .dual ∧ (sE (pe1 false 0)).mx.mode = .dual ∧ dr1.injM = none ∧ dr1.injQ = none ∧
    dr1.area.rows ≤ 128 ∧ dr1.area.cols ≤ 128 := by decide +kernel

theorem wit_DrainsAndCommits_commit :
    (sE (pe1 true 0)).mx.pound = [pe1 true 0] ∧ poundDue (sE (pe1 true 0)) = true ∧ poundDue (sE (pe1 true 1)) = false ∧
    (∃ o, findOp (sE (pe1 true 0)) (pe1 true 0).op = some o ∧ o.aborted = []) ∧
    ((pe1 true 0).dests.flatMap fun x => spanPages x.1 x.2) = [] ∧ (∀ s, walkPages s dr1.part [] = (s, none)) ∧
    (pe1 true 0).settled = none :=
  ⟨rfl, by decide +kernel, by decide +kernel, ⟨_, rfl, rfl⟩, by decide +kernel, fun _ => rfl, rfl⟩

/-- Every byte of the destination is this package's; an msigr waits for a forming drain's signatures. -/
theorem wit_DrainsAndCommits_near : ((pe1 true 0).keys (sE (pe1 true 0))).filterMap (remotePkg (sE (pe1 true 0))) = [] ∧
    (let s := { sE (pe1 false 0) with ops := (sE (pe1 false 0)).ops ++ [op1 8 .mxe [] (.mx (.sigr 16 17 (some 7) 0 0))] };
      (findOp s 7).isSome = true ∧ ∃ o ∈ s.ops, o.id ≠ 7 ∧ o.kind = .mx (.sigr 16 17 (some 7) 0 0)) := by
  refine ⟨by decide +kernel, by decide +kernel, op1 8 .mxe [] (.mx (.sigr 16 17 (some 7) 0 0)), ?_, by decide, rfl⟩
  simp

theorem wit_SowerAndStamps_issue :
    MatrixReady sT (.mpert hp 1 2 3) hp [ra 1, ra 2, ra 3] ∧ MatrixReady sT (.mpoff hp) hp [] ∧
    MatrixReady sT (.mpstep hp 1 0x8000) hp [] ∧ MatrixReady sT (.mpsamp hp 1 1 16 2) hp [ra 2] ∧ sT.mx.mode = .dual ∧
    MatrixReady (sP 0x48) (.mpref hp 0 1 2 0 0 0) hp [ra 0, ra 0, ra 0] ∧ prefWait (sP 0x48) = false ∧
    slotWait (sP 0x48) (memOp (sP 0x48) 2 0 0 0 true 0 0).rcd = none ∧
    (memOp (sP 0x48) 2 0 0 0 true 0 0).fieldTrap 0 (· == .mld16) = none ∧
    worst (((memOp (sP 0x48) 2 0 0 0 true 0 0).planeRegion 128).check (sP 0x48) .mxe (memOp (sP 0x48) 2 0 0 0 true 0 0).rcd .mld16 .read) = none ∧
    MatrixReady (sP 0x10) (.mcb hp 0 3 1 2 0) hp [ra 0] ∧ slotWait (sP 0x10) (recOf (sP 0x10) .mxe 2) = none ∧
    (recOf (sP 0x10) .mxe 2).fieldTrap false (· == .e4m3) = none ∧
    worst ((⟨0, 0, 0, 256, 1⟩ : Region2).check (sP 0x10) .mxe (recOf (sP 0x10) .mxe 2) .e4m3 .read) = none ∧
    granuleWait (sP 0x10) .mxe (feGranules (sP 0x10) 0 (recOf (sP 0x10) .mxe 2) ((⟨0, 0, 0, 256, 1⟩ : Region2).spans (recOf (sP 0x10) .mxe 2) .e4m3)) true = none := by
  unfold MatrixReady Issues Readable; decide +kernel

/-- An mcb in flight. -/
def cbOp (n256 : Bool) : State := { sP 0x10 with ops := [op1 7 .mxe [] (.mx (.cb 3 ⟨bf32 0x10, 0, n256⟩ 0))] }

theorem wit_SowerAndStamps_landing : ∀ b : Bool,
    (findOp (cbOp b) 7).isSome = true ∧
    isGo (readySpans (cbOp b) (Rec.of (bf32 0x10)) false ((⟨bf32 0x10, 0, b⟩ : CbDesc).region.spans (Rec.of (bf32 0x10)) .e4m3) []) = true := by
  decide +kernel

/-- A full shadow, the Bell at 9, and a31 at the stamp; and the same waiting at a captured stamp. -/
def sI (stamp : BitVec 64) : State := { putA (shadow sT .full) .mxe 31 stamp with bell := 9 }
def sJ (stamp : BitVec 64) : State := { sI 0 with mx := { (sI 0).mx with parked := some stamp } }

theorem wit_SowerAndStamps_stamp :
    encodingOk (.mflip hp 1) false = true ∧ (sI 9).mx.mode ≠ .offline ∧ flipPending (sI 9) = false ∧
    (runPath (sI 9)).shadow.st = .full ∧ (sI 9).mx.parked = none ∧ regBusy (sI 9) .mxe (.a 31) = false ∧
    popWait (sI 9) .mxe hp = none ∧ statPending (sI 9) = false ∧ stallHeld (sI 9) .mxe = false ∧
    (privateHeld (sI 9) .mxe).isSome = false ∧ (sI 9).bell = 9 := by decide +kernel

theorem wit_SowerAndStamps_stamps :
    readA (sI 8) .mxe 31 = 8 ∧ readA (sI 9) .mxe 31 = 9 ∧ readA (sI 10) .mxe 31 = 10 ∧ (sJ 8).mx.parked = some 8 ∧
    (sJ 9).mx.parked = some 9 ∧ (sJ 10).mx.parked = some 10 := by decide +kernel

/-- The text of the matrix engine at its start: a stamped mflip. -/
def sU : State :=
  { sI 9 with ctx := { (sI 9).ctx with text := { (sI 9).ctx.text with base := (sT.eng .mxe).pc, words := (encode (.mflip hp 1)).getD [] } } }

theorem wit_SowerAndStamps_text : ∃ w v, fetchWord sU .mxe (sU.eng .mxe).pc = some w ∧
    fetchWord sU .mxe ((sU.eng .mxe).pc + 4) = some v ∧ decode w v = some (.mflip hp 1) ∧ stamped (some (.mflip hp 1)) = true :=
  ⟨((encode (.mflip hp 1)).getD []).getD 0 0, ((encode (.mflip hp 1)).getD []).getD 1 0, by decide +kernel⟩

/-- The stamped `i` stands at the matrix engine's place in the text, in the cycle of its stamp. -/
def sStm (s : State) (i : Instr) : State :=
  putA { s with bell := 9, ctx := { s.ctx with text := { s.ctx.text with base := (s.eng .mxe).pc, words := (encode i).getD [] } } } .mxe 31 9

/-- The words of `i` are fetched and decode to it, no flip and no status is pending. -/
def stampText (s : State) (i : Instr) : Bool :=
  let w := ((encode i).getD []).getD 0 0
  let v := ((encode i).getD []).getD 1 0
  fetchWord s .mxe (s.eng .mxe).pc == some w && fetchWord s .mxe ((s.eng .mxe).pc + 4) == some v && decide (decode w v = some i) &&
    stamped (some i) && !flipPending s && !statPending s

theorem wit_SowerAndStamps_loads :
    let f := Instr.mflip hp 1
    let sf := sStm (shadow sT .full) f
    let l := Instr.mload hp 1 0 0 0 0 2 0 0 0
    let sl := sStm (sP 0x00) l
    let o := memOp sl 2 0 0 0 false 0 0
    let g := o.planeRegion (classK o.dbl)
    stampText sf f = true ∧ StampReady sf f hp [] ∧ (runPath sf).shadow.st = .full ∧
    stampText sl l = true ∧ StampReady sl l hp [ra 0, ra 0, ra 0] ∧ o.rcd.space ≠ 0 ∧ loadPending sl = false ∧
    o.fieldTrap 0 loadFmt = none ∧ worst (g.check sl .mxe o.rcd o.fmt .read) = none ∧
    granuleWait sl .mxe (feGranules sl 0 o.rcd (g.spans o.rcd o.fmt)) true = none := by
  unfold StampReady MatrixReady Issues Readable; decide +kernel

theorem wit_SowerAndStamps_stream :
    let i := Instr.mstream hp 1 0 1 1 0 0 2 0 0 0 0 127
    let s := sStm (shadow (sP 0x00) .full) i
    let o := memOp s 2 0 0 0 false 0 0
    let g : Region2 := ⟨o.ab.toInt, o.aa.toInt, o.ac.toInt, classK (runPath s).active.dbl, 128⟩
    stampText s i = true ∧ StampReady s i hp [ra 0, ra 0, ra 0, ra 0] ∧ o.rcd.space ≠ 0 ∧ (runPath s).active.st = .full ∧
    s.mx.streamFree ≤ s.cycle ∧ (runPath s).active.dbl = false ∧ o.fieldTrap 0 wideFmt = none ∧
    worst (g.check s .mxe o.rcd o.fmt .read) = none ∧ tileOk s 1 = true ∧
    granuleWait s .mxe (feGranules s 0 o.rcd (g.spans o.rcd o.fmt)) true = none := by
  unfold StampReady MatrixReady Issues Readable; decide +kernel

theorem wit_SowerAndStamps_drain : ∀ grad ∈ [0#1, 1],
    let i := Instr.mdrain hp 1 1 grad 1 0 2 0 0 0 5
    let s := sStm (sG 0x08 0x7F7F) i
    let r := recOf s .mxe 2
    let r2 := recOf s .mxe 3
    let g : Area := ⟨127, 127, 1, 1⟩
    stampText s i = true ∧ StampReady s i hp [ra 0, ra 0, ra 0, ra 5] ∧ r.space ≠ 0 ∧ r2.space ≠ 0 ∧ s.ctx.mx.ref = true ∧
    areaOf false (readA s .mxe 5) = some g ∧ poundUsed s + entryUnits (canonLength (r.format.getD .fp32) (grad = 1) g) ≤ 256 ∧
    drainTraps s 1 (grad = 1) r r2 0 0 0 (readA s .mxe 5) (some g) = none ∧
    reachDest s r (drainSpans r (r.format.getD .fp32) ⟨0, 0, 0, 1, 1⟩) = none ∧
    reachDest s r2 (drainSpans r2 .fp32 ⟨0, 0, 0, 1, 1⟩) = none := by
  unfold StampReady MatrixReady Issues Readable; decide +kernel

/-- What the policy lets a program do. -/
def sY (b : Bool) (n : BitVec 64) : State := { putA sT .mxe 5 n with mx := { sT.mx with injok := b, forceok := b, modeok := b } }

theorem wit_Reeve_instructions :
    encodingOk (.rstat hp 8 16) false = true ∧ Issues sT .mxe hp [] ∧ MatrixReady (sY true 0) (.rchk hp 5) hp [ra 5] ∧
    MatrixReady (sY true 0) (.rchk hp 0) hp [ra 0] ∧ (sY true 0).mx.forceok = true ∧ (sY false 0).mx.forceok = false ∧
    MatrixReady (sY false 0) (.rchk hp 5) hp [ra 5] ∧ areaOf false (readA (sY true 0x7F7F0000) .mxe 5) = some ⟨0, 0, 128, 128⟩ ∧
    areaOf false (readA (sY true 0x7F7F0001) .mxe 5) = none ∧ MatrixReady (sY true 0x7F7F0001) (.rchk hp 5) hp [ra 5] ∧
    MatrixReady (sY true 0xFF000F) (.rmode hp 5) hp [ra 5] ∧ statPending (sY true 0) = false ∧ (sY true 0).mx.modeok = true ∧
    MatrixReady (sY false 0) (.rmode hp 5) hp [ra 5] ∧ (sY false 0).mx.modeok = false ∧
    MatrixReady (sY true 0) (.rinj hp 1 5 6) hp [ra 5, ra 6] ∧ MatrixReady (sY false 0) (.rinj hp 0 5 6) hp [ra 5, ra 6] ∧
    (sY true 0).mx.injok = true ∧ (sY false 0).mx.injok = false := by
  unfold MatrixReady Issues Readable; decide +kernel

/-- Entries that are each kind of request: paths that differ, a sampled check, a forced one. -/
def pe2 (sampled : Option Nat) (forced : Option Area) : PEntry := { pe1 true 0 with d := { dr1 with sampled := sampled, forced := forced } }

theorem wit_Reeve_requests :
    reeveNext (sE (pe1 true 1)) = some (pe1 true 1, .mismatch) ∧ reeveNext (sE (pe2 (some 1) none)) = some (pe2 (some 1) none, .sampled) ∧
    reeveNext (sE (pe2 none (some ⟨0, 0, 1, 1⟩))) = some (pe2 none (some ⟨0, 0, 1, 1⟩), .forced) ∧ reeveNext sT = none ∧
    (arbitrate (sE (pe1 true 1)) (pe1 true 1) .mismatch).reason = 0 ∧
    (arbitrate (sE (pe1 true 1)) { pe1 true 1 with mill := [2, 0, 0, 0] } .mismatch).reason ≠ 0 ∧ sT.ctx.stop = none ∧
    sT.ctx.status = .running := by decide +kernel

theorem wit_Reeve_unit :
    requestUnits sT (pe1 true 1) .mismatch = [0] ∧ (pe1 true 1).journal.jovf = false ∧ reeveUnit sT (pe1 true 1) 0 = some [0, 0, 0, 0] ∧
    (pe1 true 1).d.unitBytes (pe1 true 1).mill 0 = [0, 0, 0, 0] ∧ (pe1 true 1).d.unitBytes (pe1 true 1).quern 0 = [1, 0, 0, 0] ∧
    sT.mx.rvErr ≠ some 0 ∧ ({ sT with mx := { sT.mx with rvErr := some 0 } } : State).mx.rvErr = some 0 := by
  decide +kernel

/-! #### Block transfer and the Thresher (chapters 8 and 10) -/

/-- Two records of rows of 8-bit integers, 4096 bytes from 0 and from 8192 of the own scratchpad, a block table, and the table
size that R321 asks for. -/
def bRec (fmt base n : Nat) : BitVec 256 := rec1 1 fmt base n
def sCopy : State :=
  let s := putBf (putBf (putBf (rT .bte) .bte 2 (bRec 0x01 0 4096)) .bte 3 (bRec 0x01 8192 4096)) .bte 4 (bRec 0x04 16384 4)
  let s := putA s .bte 5 (BitVec.ofNat 64 (4096 + 2 ^ 24 + 2 ^ 44))
  let s := putA s .bte 6 (BitVec.ofNat 64 (4096 * 65536))
  { s with ctx := { s.ctx with bte := { s.ctx.bte with dlog2 := 10 } } }

/-- A captured copy-class instruction of those records. -/
def cpy (form : CopyForm) (fe : BitVec 2) (rd rs : BitVec 256) (d src n : BitVec 64) : CopyDesc :=
  { form := form, ac := 15, cr := true, fe := fe, iseq := sCopy.ctx.bte.iseq, rd := rd, rs := rs, d := d, s := src, n := n, sig := 0,
    seed := 0, regs := sCopy.ctx.bte, tries := 0, ringSince := none }

theorem wit_TransferForms_copies :
    TransferReady sCopy (.bcopy hp 15 1 0 2 3 0 0 5) hp [ra 0, ra 0, ra 5] ∧ copySlots sCopy < 128 ∧
    copyTraps sCopy (cpy .copy 0 (bRec 1 0 4096) (bRec 1 8192 4096) 0 0 (readA sCopy .bte 5)) = none ∧
    copyWaits sCopy (cpy .copy 0 (bRec 1 0 4096) (bRec 1 8192 4096) 0 0 (readA sCopy .bte 5)) = false ∧
    TransferReady sCopy (.bfill hp 15 1 2 0 0 0) hp [ra 0, ra 0, ra 0] ∧
    copyTraps sCopy (cpy .fill 0 (bRec 1 0 4096) (bRec 1 0 4096) 0 0 (shapeOf (recOf sCopy .bte 2))) = none ∧
    copyWaits sCopy (cpy .fill 0 (bRec 1 0 4096) (bRec 1 0 4096) 0 0 (shapeOf (recOf sCopy .bte 2))) = false := by
  unfold TransferReady Issues Readable; decide +kernel

theorem wit_TransferForms_signed :
    TransferReady sCopy (.bcopyS hp 15 1 0 2 3 0 0 0 8) hp [ra 0, ra 0, ra 0, ra 8, ra (8 + 1)] ∧
    copyTraps sCopy (cpy .signed 0 (bRec 0 0 4096) (bRec 0 8192 4096) 0 0 (shapeOf (recOf sCopy .bte 3))) = none ∧
    copyWaits sCopy (cpy .signed 0 (bRec 0 0 4096) (bRec 0 8192 4096) 0 0 (shapeOf (recOf sCopy .bte 3))) = false := by
  unfold TransferReady Issues Readable; decide +kernel

theorem wit_TransferForms_tables :
    TransferReady sCopy (.bdedup hp 15 1 4 3 0 0) hp [ra 0, ra 0] ∧ TransferReady sCopy (.bcow hp 15 1 4 3 0 0 6) hp [ra 0, ra 0, ra 6] ∧
    TransferReady sCopy (.bcmp hp 15 1 2 3 0 0) hp [ra 0, ra 0] ∧
    (∀ c ∈ [cpy .dedup 0 (readBf sCopy .bte 4) (readBf sCopy .bte 3) 0 0 0, cpy .cow 0 (readBf sCopy .bte 4) (readBf sCopy .bte 3) 3 0 (readA sCopy .bte 6),
        cpy .cmp 0 (readBf sCopy .bte 2) (readBf sCopy .bte 3) 0 0 0], c.table = true ∧ tableTraps sCopy c = none ∧ copyWaits sCopy c = false) := by
  unfold TransferReady Issues Readable; decide +kernel

/-- A copy in flight of this strand, and one of another. -/
def cOp (strand : Nat) : State :=
  { sCopy with ops := [{ op1 7 .bte [] (.copy (cpy .copy 0 (bRec 1 0 4096) (bRec 1 8192 4096) 0 0 0)) with strand := strand }] }

theorem wit_TransferForms_waits :
    TransferReady sCopy (.bwait hp 15 0 0 0) hp [ra 0] ∧
    (sCopy.ctx.bte.arrive[(15#4).toNat].1 - BitVec.ofNat 15 0).toNat < 2 ^ 14 ∧
    2 ^ 14 ≤ (sCopy.ctx.bte.arrive[(15#4).toNat].1 - BitVec.ofNat 15 1).toNat ∧ TransferReady sCopy (.bwait hp 15 0 0 1) hp [ra 0] ∧
    TransferReady sCopy (.bwait hp 0 1 0 0) hp [ra 0] ∧ TransferReady sCopy (.bwait hp 0 1 0 1) hp [ra 0] ∧
    (sCopy.ctx.bte.tail - sCopy.ctx.bte.head).toNat = 0 ∧ TransferReady sCopy (.bacnt hp 15 16) hp [] ∧ TransferReady sCopy (.bsync hp) hp [] ∧
    sCopy.ops = [] ∧ TransferReady (cOp 0) (.bsync hp) hp [] ∧ (∃ o ∈ (cOp 0).ops, o.strand = (cOp 0).ctx.strand) := by
  unfold TransferReady Issues Readable; decide +kernel

/-- A copy of 16 bytes in flight, and the same with a completion ring of one slot that is full. -/
def cOp2 (form : CopyForm) : State :=
  { sCopy with ops := [op1 7 .bte [] (.copy { cpy form 0 (bRec 1 0 4096) (bRec 1 8192 4096) 4080 0 (BitVec.ofNat 64 (16 + 2 ^ 24 + 2 ^ 44)) with cr := false })] }
def cFull : CopyDesc :=
  { cpy .copy 0 (bRec 1 0 4096) (bRec 1 8192 4096) 0 0 0 with regs := { sCopy.ctx.bte with ringEn := true, ringLog2 := 0 } }

theorem wit_CopyCompletes_rows : ∀ form ∈ [CopyForm.copy, .fill],
    let s := cOp2 form
    let c := { cpy form 0 (bRec 1 0 4096) (bRec 1 8192 4096) 4080 0 (BitVec.ofNat 64 (16 + 2 ^ 24 + 2 ^ 44)) with cr := false }
    findOp s 7 = some (op1 7 .bte [] (.copy c)) ∧ s.ctx.strand = 0 ∧ ringFull s c = false ∧ c.dst.space = 1 ∧ c.dst.format = some .uint8 ∧
    c.src.space = 1 ∧ c.src.format = some .uint8 ∧ coords c.n = (16, 1, 1) ∧ (coords c.d).1 + 16 ≤ c.dst.ext0 ∧
    (coords c.d).2.1 < c.dst.ext1 ∧ (coords c.d).2.2 < c.dst.ext2 ∧ c.dst.rowAt (coords c.d).2.1 (coords c.d).2.2 + (coords c.d).1 = 4080 ∧
    c.src.rowAt (coords c.s).2.1 (coords c.s).2.2 + (coords c.s).1 = 8192 ∧ 4080 + 16 ≤ 8192 ∧ firstFail s c [] c.items = none ∧ armedItem s c c.items = none := by
  decide +kernel

theorem wit_CopyCompletes_ring :
    ringFull { sCopy with ctx := { sCopy.ctx with bte := { sCopy.ctx.bte with tail := 1 } } } cFull = true ∧ cFull.posts = true ∧
    (cOp2 .fill).MemOk := by
  unfold State.MemOk; decide +kernel

/-- The Thresher's turn, with records of one row of 512 integers and of other formats. -/
def sZ (fd fs : Nat) : State :=
  putBf (putBf (putBf (rT .thr) .thr 2 (rec1 1 fd 0 512)) .thr 3 (rec1 1 fs 8192 512)) .thr 4 (rec1 1 0x08 0x4000 512)
def trf (s : State) (form : TrForm) (rm : BitVec 3) (x : BitVec 4) : TrDesc :=
  { form := form, rm := rm, fe := 0, sf := false, rd := readBf s .thr 2, rs := readBf s .thr 3, rx := readBf s .thr x, d := 0, s := 0,
    n := shapeOf (recOf s .thr 3), ax := 0, seed := 0, stream := 0, ibase := 0 }

theorem wit_Transforms_issue :
    ThresherReady (sZ 9 8) (.tcvt hp 4 0 0 0 2 3 0 0 0) hp [ra 0, ra 0, ra 0] ∧ transformBusy (sZ 9 8) = false ∧
    (trf (sZ 9 8) .cvt 4 0).traps (sZ 9 8) 0 = none ∧
    ThresherReady (sZ 0x10 0x48) (.tcvti hp 0 0 0 2 3 0 0 0 0) hp [ra 0, ra 0, ra 0, ra 0] ∧
    ThresherReady (sZ 8 9) (.tamax hp 0 0 1 2 3 0 0 0) hp [ra 0, ra 0, ra 0] ∧
    ThresherReady (sZ 0x40 0) (.tsqze hp 0 0 2 3 0 0 0) hp [ra 0, ra 0, ra 0] ∧ (trf (sZ 0x40 0) .sqze 0 0).traps (sZ 0x40 0) 0 = none ∧
    ThresherReady (sZ 0 0x40) (.tsqzd hp 0 0 2 3 0 0 0) hp [ra 0, ra 0, ra 0] ∧ (trf (sZ 0 0x40) .sqzd 0 0).traps (sZ 0 0x40) 0 = none := by
  unfold ThresherReady Issues Readable; decide +kernel

/-- The transposition of a 3 by 2 region of bytes into a 2 by 3 one. -/
def rec2 (base n m : Nat) : BitVec 256 := BitVec.ofNat 256 (base + 2 ^ 57 + n * 2 ^ 64 + m * 2 ^ 96 + 16 * 2 ^ 128 + 2 ^ 160 + 2 ^ 232)
def sTr : State := putBf (putBf (rT .thr) .thr 2 (rec2 0 2 3)) .thr 3 (rec2 8192 3 2)
def trTr : TrDesc := { trf sTr .tr 0 0 with fe := 2 }
def sTrOp : State := { setFull sTr (spanGranules sTr trTr.src trTr.srcSpans) true with ops := [op1 7 .thr [] (.transform trTr)] }

theorem wit_Transforms_issue_rest :
    ThresherReady (putBf (sZ 0x20 8) .thr 4 (rec1 1 1 0x4000 512)) (.tcvti hp 0 0 4 2 3 0 0 0 0) hp [ra 0, ra 0, ra 0, ra 0] ∧
    (trf (putBf (sZ 0x30 8) .thr 4 (rec1 1 1 0x4000 512)) .cvti 0 4).traps (sZ 0x30 8) 1 = none ∧
    (trf (sZ 8 9) (.amax 1) 0 0).traps (sZ 8 9) 0 = none ∧
    ThresherReady sTr (.ttr hp 0 0 2 3 0 0 0) hp [ra 0, ra 0, ra 0] ∧ (trf sTr .tr 0 0).traps sTr 0 = none ∧
    granuleWait sTrOp .thr (spanGranules sTrOp trTr.src trTr.srcSpans) true = none := by
  unfold ThresherReady Issues Readable; decide +kernel

theorem wit_Transforms_completes :
    sTrOp.ops.find? (fun o => o.kind matches .transform _) = some (op1 7 .thr [] (.transform trTr)) ∧
    firstOf ((trTr.unitList sTrOp).map (·.fail)) = none ∧ trTr.fe = 2 ∧ trTr.dst.space = 1 ∧ trTr.src.space = 1 ∧
    trTr.dst.format = some .uint8 ∧ trTr.src.format = some .uint8 ∧ coords trTr.n = (3, 2, 1) ∧ sTrOp.MemOk ∧ sTrOp.poison = [] ∧ sTrOp.armed = [] ∧
    (∀ j0 : Fin 3, ∀ j1 : Fin 2, trTr.dst.inside (j1 : Nat) (j0 : Nat) 0 = true ∧ trTr.src.inside (j0 : Nat) (j1 : Nat) 0 = true ∧
      0 ≤ trTr.dst.rowAt (j0 : Nat) 0 + (j1 : Nat) ∧ 0 ≤ trTr.src.rowAt (j1 : Nat) 0 + (j0 : Nat)) ∧
    (∀ j0 k0 : Fin 3, ∀ j1 k1 : Fin 2, trTr.dst.rowAt (j0 : Nat) 0 + (j1 : Nat) = trTr.dst.rowAt (k0 : Nat) 0 + (k1 : Nat) → j0 = k0 ∧ j1 = k1) := by
  unfold State.MemOk; decide +kernel

/-- The same with a source byte that no read can deliver. -/
def sTrBad : State := { sTrOp with poison := [wordBase (scratchKey 0 8192)] }

theorem wit_Transforms_fails :
    (firstOf ((trTr.unitList sTrBad).map (·.fail))).isSome = true ∧ sTrBad.ctx.stop = none ∧ sTrBad.ctx.status = .running := by decide +kernel

/-- Scratchpad doublewords for the Thresher; a barrier of scope 0 of which it is the one participant. -/
def sO : State := putA (putBf (rT .thr) .thr 2 (rec1 1 4 0 8)) .thr 5 1
def sOB (b : Bool) : State := withEng sO .thr fun x => { x with begun := b }

theorem wit_ThresherForms :
    transformBusy sO = false ∧ ThresherReady sO (.tld hp 16 2 0 56) hp [ra 0] ∧ (recOf sO .thr 2).isScratch = true ∧
    scalarPlace sO .thr (recOf sO .thr 2) (sintA sO .thr 0 + (56#18).toInt) 8 .read false false =
      .ok 56 (.local ((List.range 8).map fun i => scratchKey 0 (56 + i))) ∧
    ThresherReady sO (.tst hp 5 2 0 56) hp [ra 5, ra 0] ∧
    scalarPlace sO .thr (recOf sO .thr 2) (sintA sO .thr 0 + (56#18).toInt) 8 .write false false =
      .ok 56 (.local ((List.range 8).map fun i => scratchKey 0 (56 + i))) ∧
    ThresherReady sO (.trd hp 0x084 16) hp [] ∧ ThresherReady sO (.twr hp 0x080 5) hp [ra 5] ∧ ThresherReady sO (.tsync hp) hp [] ∧
    transformBusy sTrOp = true ∧ ThresherReady sTrOp (.tsync hp) hp [] := by
  unfold ThresherReady Issues Readable; decide +kernel

theorem wit_ThresherForms_barriers :
    ThresherReady sO (.tbara hp 15 0) hp [ra 0] ∧ (getNet sO (netIdx 0 15)).pendingFor .thr = false ∧ clean sO .thr = true ∧
    ThresherReady sO (.tbarw hp 15) hp [] ∧ (getNet sO (netIdx 0 15)).thr = none ∧
    ThresherReady (sOB false) (.tbars hp 15 5) hp [ra 5] ∧ ((sOB false).eng .thr).begun = false ∧
    ((getNet (setNet sO (netIdx 0 15) ((getNet sO (netIdx 0 15)).arrive .thr (readA sO .thr 5))) (netIdx 0 15)).thr.all
      fun ep => decide (ep < (getNet (setNet sO (netIdx 0 15) ((getNet sO (netIdx 0 15)).arrive .thr (readA sO .thr 5))) (netIdx 0 15)).episode)) = true := by
  unfold ThresherReady Issues Readable; decide +kernel

/-! #### Bank operations, results, waits and the memory side (chapters 1, 4 and 11) -/

/-- Destination elements in the Commons of die 0, and sources in the own scratchpad. -/
def sBk (fd fs : Nat) : State := putA (putBf (putBf sC .ctl 2 (rec1 3 fd 0 4)) .ctl 3 (rec1 1 fs 64 4)) .ctl 5 4
def bnk (s : State) (op : BankOp) (rm : BitVec 3) (src : BitVec 4) : BankDesc :=
  { op := op, rm := rm, dst := recOf s .ctl 2, src := recOf s .ctl src, d0 := 0, s0 := 0, n := 4, alpha := 0 }

theorem wit_BankUpdates_issue :
    accessNeed .ctl true true (sBk 8 9) = none ∧ StewardReady (sBk 8 9) (.cadd hp 3 2 3 0 0 5) hp [ra 0, ra 0, ra 5] ∧
    (bnk (sBk 8 9) .add 3 3).trap (sBk 8 9) = none ∧ StewardReady (sBk 3 3) (.cmin hp 2 3 0 0 5) hp [ra 0, ra 0, ra 5] ∧
    StewardReady (sBk 3 3) (.cmax hp 2 3 0 0 5) hp [ra 0, ra 0, ra 5] ∧ (bnk (sBk 3 3) .min 0 3).trap (sBk 3 3) = none ∧
    (bnk (sBk 3 3) .max 0 3).trap (sBk 3 3) = none ∧ StewardReady (sBk 8 9) (.caxpy hp 3 2 3 0 0 5 0) hp [ra 0, ra 0, ra 5, ra 0] ∧
    (bnk (sBk 8 9) .axpy 3 3).trap (sBk 8 9) = none ∧ StewardReady (sBk 3 3) (.cscal hp 0 2 0 5 0) hp [ra 0, ra 5, ra 0] ∧
    (bnk (sBk 3 3) .scal 0 2).trap (sBk 3 3) = none := by
  unfold StewardReady Issues Readable; decide +kernel

theorem wit_BankUpdates_run :
    spotOk (reachSpans (sBk 8 9) (recOf (sBk 8 9) .ctl 2) .atomic (bnk (sBk 8 9) .add 3 3).dstSpans) = true ∧
    spotOk (reachSpans (sBk 8 9) (recOf (sBk 8 9) .ctl 3) .read (bnk (sBk 8 9) .add 3 3).srcSpans) = true ∧
    (bnk (sBk 8 9) .add 3 3).ordered (sBk 8 9) = false ∧ (bnk (sBk 3 3) .scal 0 2).ordered (sBk 3 3) = false ∧ (sBk 8 9).MemOk ∧
    (sBk 8 9).poison = [] ∧ (sBk 8 9).armed = [] ∧ (bnk (sBk 8 9) .add 3 3).dst.space = 3 ∧ (bnk (sBk 8 9) .add 3 3).src.space ≠ 0 ∧
    bankDstFmt (bnk (sBk 8 9) .add 3 3).fd = true ∧ (bnk (sBk 8 9) .add 3 3).dst.format.isSome = true ∧
    (RMode.ofCode (bnk (sBk 8 9) .add 3 3).rm 0).isSome = true ∧ (bnk (sBk 8 9) .add 3 3).live = [0, 1, 2, 3] := by
  unfold State.MemOk; decide +kernel

def placedKey (x : ObjPlace) : Option (Nat × BitVec 64) := match x with | .ok _ key a => some (key, a) | _ => none
def placed (x : ObjPlace) : State := match x with | .ok s _ _ => s | _ => r0

/-- A line of the Commons for an object, unarmed, and armed for three arrivals with two of them made; a5 is a count or a token. -/
def sL0 (n : BitVec 64) : State := putA (putBf sC .ctl 2 (rec1 3 4 64 8)) .ctl 5 n
def objKey : Nat := commonsKey 0 0 64
def sL1 (n : BitVec 64) : State := writeObj (sL0 n) objKey ⟨true, 4, 0, 9, 3, 2⟩

theorem wit_BarrierObjects_init :
    StewardReady (sL0 3) (.binit hp 4 16 2 0 5) hp [ra 0, ra 5] ∧ accessNeed .ctl true true (sL0 3) = none ∧ objKey % 64 = 0 ∧
    placedKey (objPlace (sL0 3) 2 0 .atomic) = some (objKey, 64) ∧ lineBad (placed (objPlace (sL0 3) 2 0 .atomic)) objKey = false ∧
    (placed (objPlace (sL0 3) 2 0 .atomic)).MemOk ∧ StewardReady (sL0 0) (.binit hp 0 16 2 0 5) hp [ra 0, ra 5] ∧
    StewardReady (sL0 3) (.cbar hp 16 2 0 5) hp [ra 0, ra 5] ∧ (readObj (placed (objPlace (sL0 3) 2 0 .atomic)) objKey).armed = false := by
  unfold StewardReady Issues Readable State.MemOk; decide +kernel

theorem wit_BarrierObjects_arrive :
    StewardReady (sL1 1) (.cbar hp 16 2 0 5) hp [ra 0, ra 5] ∧ accessNeed .ctl true true (sL1 1) = none ∧
    placedKey (objPlace (sL1 1) 2 0 .atomic) = some (objKey, 64) ∧ lineBad (placed (objPlace (sL1 1) 2 0 .atomic)) objKey = false ∧
    (placed (objPlace (sL1 1) 2 0 .atomic)).MemOk ∧ readObj (placed (objPlace (sL1 1) 2 0 .atomic)) objKey = ⟨true, 4, 0, 9, 3, 2⟩ ∧
    clean (placed (objPlace (sL1 1) 2 0 .atomic)) .ctl = true ∧ (3#32).toNat ≤ 2 + 1 := by
  unfold StewardReady Issues Readable State.MemOk; decide +kernel

theorem wit_BarrierObjects_wait :
    StewardReady (sL1 9) (.cbwait hp 16 2 0 5) hp [ra 0, ra 5] ∧ placedKey (objPlace (sL1 9) 2 0 .read) = some (objKey, 64) ∧
    (placed (objPlace (sL1 9) 2 0 .read)).MemOk ∧ ((placed (objPlace (sL1 9) 2 0 .read)).eng .ctl).begun = false ∧
    readA (sL1 9) .ctl 5 = 9 ∧ armedLine (sL1 9) objKey = true ∧ armedLine (sL0 9) objKey = false ∧
    softIndex (sL0 9) objKey = some 4 := by
  unfold StewardReady Issues Readable State.MemOk; decide +kernel

theorem wit_BarrierObjects_passed :
    StewardReady (sL1 8) (.cbwait hp 16 2 0 5) hp [ra 0, ra 5] ∧ placedKey (objPlace (sL1 8) 2 0 .read) = some (objKey, 64) ∧
    readA (sL1 8) .ctl 5 = 8 ∧ StewardReady (sL0 8) (.cbwait hp 16 2 0 5) hp [ra 0, ra 5] ∧
    placedKey (objPlace (sL0 8) 2 0 .read) = some (objKey, 64) ∧ ((placed (objPlace (sL0 8) 2 0 .read)).eng .ctl).begun = false := by
  unfold StewardReady Issues Readable; decide +kernel

/-- Results of each kind in flight. -/
def oneOp (e : Engine) (ws : List RegWrite) (k : OpKind) : State := { r0 with ops := [op1 7 e ws k] }

theorem wit_ResultsLand :
    (∀ w ∈ [RegWrite.a 31 5, .v 63 1, .p 15 1], findOp (oneOp .vec [w] .result) 7 = some (op1 7 .vec [w] .result)) ∧
    (op1 7 .vec [.a 31 5] .result).strand = r0.ctx.strand ∧
    findOp (oneOp .ctl [.a 16 5] .sysRead) 7 = some (op1 7 .ctl [.a 16 5] .sysRead) ∧
    findOp (oneOp .ctl [.a 16 5] (.load (some 5) none 0)) 7 = some (op1 7 .ctl [.a 16 5] (.load (some 5) none 0)) ∧
    findOp (oneOp .ctl [.a 16 5] (.load none (some (.bounds, 64)) 3)) 7 =
      some (op1 7 .ctl [.a 16 5] (.load none (some (.bounds, 64)) 3)) ∧
    findOp (oneOp .ctl [] (.writeBack 5)) 7 = some (op1 7 .ctl [] (.writeBack 5)) ∧
    findOp (oneOp .ctl [] .text) 7 = some (op1 7 .ctl [] .text) ∧
    findOp (oneOp .vec [] (.store none)) 7 = some (op1 7 .vec [] (.store none)) ∧ r0.ctx.stop = none ∧ r0.ctx.status = .running := by
  decide +kernel

/-- A push of the vector engine upstream and of credits that waits for nothing; with the counters at 15. -/
def sPu (n : BitVec 4) : State :=
  let s := withEng r0 .vec fun x => { x with pushes := [⟨true, true, 0, 0, 0⟩] }
  { s with ctx := { s.ctx with tokens := Vector.replicate 10 n } }
def sPc : State := withEng r0 .ctl fun x => { x with pushes := [⟨false, false, 15, 0, 0⟩] }

theorem wit_PushesAndTimeouts_pushes :
    pushDue (sPu 14) .vec = some ⟨true, true, 0, 0, 0⟩ ∧ pushFull (sPu 14) .vec ⟨true, true, 0, 0, 0⟩ = none ∧
    (pushFull (sPu 15) .vec ⟨true, true, 0, 0, 0⟩).isSome = true ∧ pushDue (sPu 15) .vec = some ⟨true, true, 0, 0, 0⟩ ∧
    pushDue sPc .ctl = some ⟨false, false, 15, 0, 0⟩ ∧ pushFull sPc .ctl ⟨false, false, 15, 0, 0⟩ = none ∧ pushDue r0 .vec = none := by
  decide +kernel

/-- A wait of a kind, since cycle 0, at a cycle, both fields of WAITTO at a value. -/
def sWt (k : WaitKind) (limit : BitVec 16) (cycle : Nat) : State :=
  let s := withEng r0 .ctl fun x => { x with wait := some ⟨k, 0, 0⟩ }
  { s with cycle := cycle, ctx := { s.ctx with tokto := limit, feto := limit } }

theorem wit_PushesAndTimeouts_timeouts : ∀ k ∈ [WaitKind.token 8, .push 4, .granule 0 64 [4] true, .handle 3, .net 4 15, .arrival 15, .ring, .object 64, .stageQueue 2, .bell 7],
    (waitCode k).isSome = true ∧ ((sWt k 0 5000).eng .ctl).wait = some ⟨k, 0, 0⟩ ∧ (sWt k 0 5000).ctx.tokto = 0 ∧
    (sWt k 1 1024).cycle - 0 ≤ (sWt k 1 1024).ctx.feto.toNat * 1024 ∧ (sWt k 1 1025).ctx.tokto.toNat * 1024 < (sWt k 1 1025).cycle - 0 ∧
    (sWt k 1 1025).ctx.feto.toNat * 1024 < (sWt k 1 1025).cycle - 0 ∧ (sWt k 1 1025).ctx.stop = none := by decide +kernel

/-- What each of these waits wants is not there; a token is. -/
theorem wit_PushesAndTimeouts_waits :
    (∀ k ∈ [WaitKind.token 8, .granule 0 64 [4] true, .arrival 15, .bell 7],
      (sWt k 1 1025 |>.eng .ctl).waits = [⟨k, 0, 0⟩] ∧ waitOver (sWt k 1 1025) .ctl k = false) ∧
    (let s := sWt (.token 8) 1 1025;
      waitOver { s with ctx := { s.ctx with tokens := Vector.replicate 10 1 } } .ctl (.token 8) = true) := by decide +kernel

/-! #### Translations, regions and the Dispatcher (chapters 11 and 12) -/

/-- Four levels of tables that map virtual page 0 to page 10, for partition 0. -/
def walkCells : List Host.Cell :=
  let word (pa v : Nat) : List Host.Cell := (keyRange (paKey r0.pkgNo pa) 8).zip (leBytes 8 v)
  word 8192 (1 + 4 * 4096) ++ word 16384 (1 + 6 * 4096) ++ word 24576 (1 + 8 * 4096) ++ word 32768 (7 + 10 * 4096)
def sPw : State :=
  let s := rawWrite r0 walkCells
  { s with disp := { s.disp with parts := s.disp.parts.set 0 { Part.reset with root := 1 } } }

/-- A translation that is held, and a miss that an engine waits for. -/
def sTl : State := { r0 with tlb := [⟨0, 0, 4096, 4096, true, false⟩] }
def sMi : State :=
  let s := withEng r0 .ctl fun x => { x with wait := some ⟨.miss 0 5 64 0, 0, 0⟩ }
  { s with misses := [(0, 5)] }

theorem wit_MissesAndWalks :
    (tlbFind sTl 0 4095).isSome = true ∧ tlbFind sPw 0 0 = none ∧ (pageWalkOf sPw 0 0).2 = some ⟨10, 1, true, false⟩ ∧
    NoAlias sPw ∧ (pageWalkOf sPw 0 1).2 = none ∧ tlbFind sPw 0 1 = none ∧ heldQueues sMi 0 5 = [] ∧ heldDones sMi 0 5 = [] ∧ sMi.disp.launchHeld = false ∧ sMi.disp.pipes = [] ∧
    (0, 5) ∈ sMi.misses ∧ (0, 5) ∉ sPw.misses ∧ sMi.ctx.part = 0 ∧ sMi.ctx.frec.toNat * 64 / 4096 ≠ 5 ∧ sMi.held.isNone = true ∧
    sMi.ctx.stop = none ∧ sMi.ctx.status = .running ∧ (sMi.eng .ctl).wait = some ⟨.miss 0 5 64 0, 0, 0⟩ := by
  unfold NoAlias; decide +kernel

/-- An invalidation in die 7, one that has passed its queues, and regions 255 and 254 of stack 15 in use or not. -/
def sIv : State := { r0 with tlbi := r0.tlbi.set 7 ⟨0, 0, true, 0, true, 0, ⟨0, 0, true, 0⟩⟩, tlb := [⟨0, 5, 1, 9, true, false⟩, ⟨1, 5, 1, 9, true, false⟩] }
def rg1 (en : Bool) : Region := { Region.reset with en := en, dbase := 1, sbase := 2 ^ 16, abase := 4, asize := 1, fmt := 0x20 }
def sRg (en : Bool) : State := putRegion r0 0 (rg1 en)

theorem wit_InvalidationsAndRegions :
    (sIv.tlbi[7]).busy = true ∧ (sIv.tlbi[0]).busy = false ∧ (2 ^ 27 - 1 : BitVec 27) ≠ 0 ∧ tlbiReady r0 = none ∧
    tlbiReady sIv = some (7, ⟨0, 0, true, 0, true, 0, ⟨0, 0, true, 0⟩⟩) ∧ (getRegion r0 255).en = false ∧
    regionRefused (sRg false) 0 0 { rg1 false with fmt := 0x20, asize := 1 } = false ∧
    regionRefused (sRg false) 0 0 { rg1 false with fmt := 0, asize := 0 } = true ∧
    regionRefused (sRg true) 0 1 { rg1 false with fmt := 0x20, asize := 1 } = true ∧ (getRegion (sRg true) 0).en = true ∧
    (sRg true).llc = [] ∧ (sRg true).llcLines = [] ∧ (rg1 true).fmt = BitVec.ofNat 8 (0x20 * 2 ^ 48 / 2 ^ 48) ∧
    BitVec.ofNat 14 (0x20 * 2 ^ 48 + 1) = (rg1 true).asize ∧ BitVec.ofNat 14 (0x20 * 2 ^ 48 + 2) ≠ (rg1 true).asize ∧ aliasRegion r0 0 = none ∧ (aliasRegion (sRg true) (4 * 2 ^ 21)).isSome = true := by decide +kernel

/-- Queue 16383 of partition 3, at index 2 ^ 64 - 1 with room for an instance, its ring mapped. -/
def wq1 (en : Bool) : Wq := { Wq.reset with en := en, part := 3, widx := 2 ^ 64 - 1, head := 2 ^ 64 - 1, tail := 2 ^ 64 - 1 }
def sWq (en : Bool) : State :=
  let s := setWq r0 16383 (wq1 en)
  { s with host := { s.host with stage := 7 }, tlb := [⟨3, 0, 4096, 4096, true, false⟩] }
def readBack (x : DRead) : Option (List Byte) := match x with | .ok b _ => some b | _ => none
def readBackState (x : DRead) : State := match x with | .ok _ s => s | _ => r0

theorem wit_QueuesAndInstances_queues :
    (sWq false).ctx.status = .running ∧ (wq1 false).en = false ∧ (wq1 true).en = true ∧ (wq1 true).held = none ∧
    ahead 0 (wq1 true).head = true ∧ ahead (2 ^ 64 - 2) (wq1 true).head = false ∧ (0 - (wq1 true).tail).toNat < 2 ^ 63 ∧
    (wq1 true).live.toNat < (wq1 true).maxinst.toNat ∧ (getPart (sWq true) 3).halted = false ∧ (sWq true).host.stage = 7 ∧
    readBack (dispRead (setWq (sWq true) 16383 { wq1 true with tail := 0 }) 3 (128 * ((2 ^ 64 - 1) % 2 ^ 3)) 8) = some [0, 0, 0, 0, 0, 0, 0, 0] ∧
    (readBackState (dispRead (setWq (sWq true) 16383 { wq1 true with tail := 0 }) 3 (128 * ((2 ^ 64 - 1) % 2 ^ 3)) 8)).ctx = (sWq true).ctx ∧
    (0 : BitVec 64) ≠ (wq1 true).head ∧ (sWq true).replies = [] := by decide +kernel

/-- An instance of one stage that has items to generate, and one that has ended and names a completion word. -/
def pip (gen : Nat) (done : BitVec 64) : Pipe :=
  { (default : Pipe) with id := 4, queue := 16383, seqNo := 9, nitems := 3, generated := gen, done := done,
                          stages := [⟨0, 0, 0, 2, 0, 0, ⟨0, 0, 0, 0, false, 0, 0, 0⟩⟩], queues := [[]], bases := [6] }
def sPp (gen : Nat) (done : BitVec 64) : State := { sWq true with disp := { (sWq true).disp with pipes := [pip gen done] } }

/-- The same with an item waiting, a limit of 1 and the Bell at it. -/
def sSt : State :=
  let s := sPp 0 0
  { s with bell := 1024, disp := { s.disp with parts := s.disp.parts.set 3 { Part.reset with stallto := 1 }, pipes := [{ pip 0 0 with queues := [[⟨6, none⟩]] }] } }

/-- The same, its instance ended. -/
def endedAt (s : State) : State :=
  setWq { s with disp := { s.disp with pipes := s.disp.pipes.filter (fun x => x.id != 4), rings := s.disp.rings.map fun r => r.filter (· != 4) } }
    16383 { getWq s 16383 with live := (getWq s 16383).live - 1 }

theorem wit_QueuesAndInstances_instances :
    findPipe (sPp 0 0) 4 = some (pip 0 0) ∧ (pip 0 0).stages[0]?.isSome = true ∧ 0 < (pip 0 0).queues.length ∧ instDone (sPp 0 0) (pip 0 0) = false ∧
    findPipe (sPp 3 64) 4 = some (pip 3 64) ∧ instDone (sPp 3 64) (pip 3 64) = true ∧ instDone (sPp 3 0) (pip 3 0) = true ∧
    ahead (getWq (sPp 3 64) 16383).tail (getWq (sPp 3 64) 16383).head = false ∧
    (let st (p : Part) : State × Option (Option Nat) := dispWrite { endedAt (sPp 3 64) with disp := { (endedAt (sPp 3 64)).disp with
        parts := (endedAt (sPp 3 64)).disp.parts.set 3 p } } 3 64 (leBytes 8 9);
      (st Part.reset).2 = none ∧ (st Part.reset).1.disp = { (endedAt (sPp 3 64)).disp with parts := (endedAt (sPp 3 64)).disp.parts.set 3 Part.reset } ∧
      (st Part.reset).1.ctx = r0.ctx ∧ (st Part.reset).1.held = none) ∧
    (let st := dispWrite { endedAt (sPp 3 64) with tlb := [], misses := [(3, 0)] } 3 64 (leBytes 8 9);
      st.2 = some (some 0) ∧ st.1.disp = (endedAt (sPp 3 64)).disp ∧ st.1.ctx = r0.ctx ∧ st.1.held = none) ∧
    (sPp 0 0).held = none ∧ (sPp 0 0).MemOk ∧ (sPp 0 0).armed = [] ∧ (getPart (sPp 0 0) 3).stallto.toNat = 0 ∧
    (getPart sSt 3).stallto.toNat ≠ 0 ∧ (findPipe sSt 4).any (fun p => !p.stalled && p.queues != [[]]) = true ∧
    1 * 1024 ≤ (sSt.bell - (pip 0 0).progress).toNat ∧
    ({ sSt with ctx := { sSt.ctx with inst := some 4 } } : State).ctx.inst = some 4 := by
  unfold State.MemOk; decide +kernel

/-- A partition that has this core, whose grants meet no other's; an enabled one that it meets. -/
def sEn (meets : Bool) : State :=
  let x : Part := { Part.reset with qmask := 1 }
  { r0 with disp := { r0.disp with parts := (r0.disp.parts.set 0 x).set 15 { x with en := meets } } }

/-- A context in the store beside one that has drained. -/
def sSw (exh halted : Bool) : State :=
  let s := { sEn false with held := some { Ctx.reset with part := 15 } }
  let x : Part := { Part.reset with qmask := 1, eqEn := exh, eqAction := exh, exh := exh, halted := halted }
  { s with ctx := { s.ctx with status := .boundary }, disp := { s.disp with swapping := true, parts := s.disp.parts.set 15 x } }

theorem wit_PartitionsAndSwaps :
    (getPart (sEn true) 15).en = true ∧ (getPart (sEn true) 0).en = false ∧ enableRefused (sEn true) 0 = true ∧
    enableRefused (sEn false) 0 = false ∧ partHasCore (sEn false) 0 r0.coreNo.toNat = true ∧ partHasCore (sEn false) 1 r0.coreNo.toNat = false ∧
    enableRefused (sEn false) 1 = false ∧ (sEn false).ctx.part = 0 ∧ (sEn false).held.isNone = true ∧ swapDue (sEn false) = false ∧
    (sSw false false).held.any (fun h => h.part == 15 && h.mx.activeSaved.isNone && h.mx.shadowSaved.isNone && !h.mx.ref) = true ∧
    (getPart (sSw false false) 15).halted = false ∧ quotaHolds (sSw false false) 15 = false ∧ quotaHolds (sSw true false) 15 = true ∧
    (getPart (sSw false true) 15).halted = true ∧ swapDue (sSw false false) = true := by decide +kernel

/-- A context stopped for the host, running or in the store. -/
def stp (rec host trap : Bool) : Stop := ⟨⟨.trap, 0, false, 5, 0⟩, 0, false, trap, rec, host, .running, false⟩
def sCm (quota trap : Bool) : State :=
  let x : Part := { Part.reset with qmask := 1, eqEn := quota, eqAction := quota, exh := quota }
  { sEn false with
    ctx := { r0.ctx with status := .stopped, stop := some (stp true true trap), inst := some 4 }
    disp := { (sEn false).disp with pipes := [pip 3 0], parts := (sEn false).disp.parts.set 0 x } }
def sCh : State := { sEn false with held := some { Ctx.reset with part := 15, status := .stopped, stop := some (stp true true false) } }

theorem wit_PartitionCommands :
    r0.coreNo ≠ 255 ∧ (getPart (setPart r0 0 { Part.reset with halted := true }) 0).halted = true ∧ (getPart (sCm false true) 0).halted = false ∧
    (sCm false true).ctx.part = 0 ∧ (sCm false true).ctx.status = .stopped ∧ (sCm false true).ctx.stop = some (stp true true true) ∧
    quotaHolds (sCm false true) 0 = false ∧ quotaHolds (sCm true false) 0 = true ∧ (sCm false true).ctx.heldFaults = [] ∧
    Straight ((sCm false true).eng .ctl) ∧ (findPipe (sCm false true) 4).isSome = true ∧ sCh.ctx.status = .running ∧
    (sCh.held.any fun h => h.part == 15 && h.status == .stopped && h.stop == some (stp true true false) && h.heldFaults.isEmpty) = true ∧
    (getPart sCh 15).halted = false ∧ quotaHolds sCh 15 = false ∧ partHasCore sCh 15 255 = false ∧
    partHasCore sCh 15 r0.coreNo.toNat = true ∧ partHasCore (sEn false) 15 3 = true ∧ (getPart r0 15).halted = false := by
  unfold Straight; decide +kernel

/-- A stop that waits for its record, of a strand and of a handler, with its record's page mapped. -/
def sRc (recorded : Bool) (was : CoreStatus) : State :=
  { r0 with
    ctx := { r0.ctx with status := .stopped, stop := some ⟨⟨.trap, 0, false, 5, 0⟩, 0, false, true, recorded, false, was, false⟩ }
    tlb := [⟨0, 0, 4096, 4096, true, false⟩] }

theorem wit_RecordsAndLaunches_record :
    (sRc true .running).ctx.stop.isSome = true ∧
    (dispWrite (sRc false .running) 0 0 (List.replicate 64 1)).2 = none ∧
    (dispWrite (sRc false .running) 0 0 (List.replicate 64 1)).1.ctx = (sRc false .running).ctx ∧
    (BitVec.ofNat 64 (planeVal (sRc false .running) 0x000 8)).getLsbD (Code.trap.number / 16) = false ∧
    (getPart (setPart (sRc false .running) 0 { Part.reset with halted := true }) 0).halted = true ∧
    (getPart (sRc false .handler) 0).halted = false ∧ (sRc false .handler).ctx.stop.any (fun st => st.was == .handler) = true := by
  decide +kernel

/-- An item of an instance of one stage waits for its launch; the text of the overlay is mapped. -/
def sLa : State :=
  let g : Stage := ⟨0, 0, 0, 2, 0, 0, ⟨8, 8, 0, 15, false, 0, 0, 0⟩⟩
  { r0 with
    ctx := { r0.ctx with status := .idle }
    tlb := [⟨0, 0, 4096, 4096, true, false⟩]
    disp := { r0.disp with pipes := [{ pip 3 0 with stages := [g] }], launching := some (4, 0, Vector.replicate 16 7) } }

theorem wit_RecordsAndLaunches_launch :
    sLa.disp.launching = some (4, 0, Vector.replicate 16 7) ∧ (findPipe sLa 4).any (fun p => p.stages[0]?.isSome) = true ∧
    sLa.ctx.stop = none ∧ (getPart sLa sLa.ctx.part).halted = false ∧ ringsStopped sLa = true ∧
    handlesBusy sLa ⟨8, 8, 0, 15, false, 0, 0, 0⟩ = false ∧
    isResident sLa 0 ⟨8, 8, 0, 15, false, 0, 0, 0⟩ = false ∧ (readBack (dispRead sLa 0 (0 + 0x40) (8 + 8))).isSome = true := by
  decide +kernel

/-- What the read leaves. -/
def sLaU : State := readBackState (dispRead sLa 0 (0 + 0x40) (8 + 8))

theorem wit_RecordsAndLaunches_read : sLaU.ctx = sLa.ctx ∧ sLaU.handles = sLa.handles ∧ sLaU.MemOk ∧ sLaU.coreNo = sLa.coreNo ∧
    sLaU.l1.dirty = [] ∧ sLaU.qc.dirty = [] ∧ quotaHolds sLaU sLa.ctx.part = false := by
  unfold State.MemOk; decide +kernel

/-- The same with the text resident. -/
def sLaR : State :=
  let at_ (x : Eng) : Eng := { x with atStop := true }
  let s := setHandle (withEng (withEng (withEng sLa .bte at_) .mxe at_) .vec at_) 47 .text
  { s with ctx := { s.ctx with text := { s.ctx.text with base := 0x40, words := [0, 0] } } }

theorem wit_RecordsAndLaunches_resident : isResident sLaR 0 ⟨8, 8, 0, 15, false, 0, 0, 0⟩ = true ∧
    (readBack (dispRead sLaR 0 (0 + 0x40 + 8) 8)).isSome = true ∧ ringsStopped sLaR = true := by decide +kernel

/-- At a drain point: two queued differences, and a shadow plane whose checksum field is 0xFFFFFFFF or 0. -/
def sPl (b : Bool) : State :=
  { r0 with
    ctx := { r0.ctx with status := .idle }
    disp := { r0.disp with
              diffs := [⟨9, [(5, 1)], 3⟩, ⟨2, [], 3⟩], swapToken := true
              shadow := if b then [(0xFFC, 255), (0xFFD, 255), (0xFFE, 255), (0xFFF, 255)] else [] } }

theorem wit_ConfigurationPlanes :
    Memory.wf (sPl true).disp.plane = true ∧ Memory.wf (sPl true).disp.shadow = true ∧ drainPoint r0 = false ∧ r0.disp.diffs = [] ∧
    drainPoint (sPl true) = true ∧ (sPl true).held = none ∧ firstDiff (sPl true).disp.diffs = some ⟨2, [], 3⟩ ∧ (sPl true).disp.swapToken = true ∧
    r0.disp.swapToken = false := by decide +kernel

/-- One of the two shadow planes has a wrong checksum: they differ in that field alone. -/
theorem wit_ConfigurationPlanes_bad : ∃ b : Bool, crc32c ((List.range 0xFFC).map (memGet (sPl b).disp.shadow)) ≠
    BitVec.ofNat 32 (leValue ((List.range 4).map fun i => memGet (sPl b).disp.shadow (0xFFC + i))) := by
  have same : (List.range 0xFFC).map (memGet (sPl true).disp.shadow) = (List.range 0xFFC).map (memGet (sPl false).disp.shadow) := by
    refine List.map_congr_left fun k hk => ?_
    have := List.mem_range.mp hk
    simp only [sPl, if_true, memGet]
    rw [if_neg (by omega), if_neg (by omega), if_neg (by omega), if_neg (by omega)]
    rfl
  have t1 : BitVec.ofNat 32 (leValue ((List.range 4).map fun i => memGet (sPl true).disp.shadow (0xFFC + i))) = 0xFFFFFFFF := by decide +kernel
  have t0 : BitVec.ofNat 32 (leValue ((List.range 4).map fun i => memGet (sPl false).disp.shadow (0xFFC + i))) = 0 := by decide +kernel
  by_cases h : crc32c ((List.range 0xFFC).map (memGet (sPl true).disp.shadow)) = 0xFFFFFFFF
  · exact ⟨false, by rw [← same, h, t0]; decide⟩
  · exact ⟨true, by rw [t1]; exact h⟩

/-- A plane of zeros but for its last four bytes. -/
def sealed (c : BitVec 32) : Mem := memWrite [] ((keyRange 0xFFC 4).zip (leBytes 4 c.toNat))

/-- Its first bytes read zero, and its last four as the number. -/
theorem sealed_spec (c : BitVec 32) : Memory.wf (sealed c) = true ∧ (∀ k, k < 0xFFC → memGet (sealed c) k = memGet [] k) ∧
    BitVec.ofNat 32 (leValue ((List.range 4).map fun i => memGet (sealed c) (0xFFC + i))) = c := by
  have hz : (keyRange 0xFFC 4).zip (leBytes 4 c.toNat) = [(0xFFC, BitVec.ofNat 8 c.toNat), (0xFFD, BitVec.ofNat 8 (c.toNat / 256)),
      (0xFFE, BitVec.ofNat 8 (c.toNat / 256 / 256)), (0xFFF, BitVec.ofNat 8 (c.toNat / 256 / 256 / 256))] := rfl
  refine ⟨Sys2Proof.Laws.memWrite_wf _ rfl, fun k h => ?_, ?_⟩
  · rw [sealed, hz]
    exact Sys2Proof.Laws.memGet_memWrite_outside k _ rfl (by simp; omega)
  · have g (k : Nat) (b : Byte) (h : (k, b) ∈ (keyRange 0xFFC 4).zip (leBytes 4 c.toNat)) : memGet (sealed c) k = b :=
      Sys2Proof.Laws.memGet_memWrite_inside k b _ rfl (by rw [hz]; simp) h
    rw [hz] at g
    have g0 := g 0xFFC (BitVec.ofNat 8 c.toNat) (by simp)
    have g1 := g 0xFFD (BitVec.ofNat 8 (c.toNat / 256)) (by simp)
    have g2 := g 0xFFE (BitVec.ofNat 8 (c.toNat / 256 / 256)) (by simp)
    have g3 := g 0xFFF (BitVec.ofNat 8 (c.toNat / 256 / 256 / 256)) (by simp)
    apply BitVec.eq_of_toNat_eq
    have := c.isLt
    simp [List.range, List.range.loop, leValue, g0, g1, g2, g3]
    omega

/-- A plane whose checksum is right. -/
theorem wit_ConfigurationPlanes_good : ∃ m : Mem, Memory.wf m = true ∧ crc32c ((List.range 0xFFC).map (memGet m)) =
    BitVec.ofNat 32 (leValue ((List.range 4).map fun i => memGet m (0xFFC + i))) := by
  obtain ⟨h, g, t⟩ := sealed_spec (crc32c ((List.range 0xFFC).map (memGet [])))
  refine ⟨_, h, ?_⟩
  rw [t, List.map_congr_left fun k hk => g k (List.mem_range.mp hk)]

/-! #### The Moot, the links, the host port and start-up (chapters 13 and 14) -/

/-- A group of slots 0 and 5 at a Bell, seen from one of them, both heard when the Bell was 0. -/
def sGr (me : BitVec 8) (state : BitVec 3) (bell : BitVec 64) : State :=
  { r0 with bell := bell, moot := { r0.moot with slot := me, state := state, members := [⟨0, 0, true, 32, 0, 0, false, [], false⟩, ⟨5, 1, true, 32, 0, 0, false, [], false⟩] } }

/-- The same when SILTO has passed since both were heard. -/
def sQt (me : BitVec 8) : State := { sGr me 2 0 with moot := { (sGr me 2 0).moot with time := refMicros 250 } }

/-- A message of member 5 of package 1, of slot `arg`. -/
def msg (limit : BitVec 8) (eff : BitVec 64) (arg : BitVec 32) : MootMsg := ⟨5, 1, 77, eff, 0, limit, 0, false, 0, arg⟩

/-- The ceiling at code 96. -/
def sHi : State := { r0 with moot := { r0.moot with gceil := 96 } }

theorem wit_MootLimits :
    sHi.moot.coreCode.toNat = 96 ∧ 32 ≤ (95#8).toNat ∧ (95#8).toNat < sHi.moot.coreCode.toNat ∧ (ceilingAt sHi 0).toNat = 96 ∧
    r0.moot.coreCode.toNat ≤ (32#8).toNat ∧ (ceilingAt r0 0).toNat ≤ (32#8).toNat ∧
    (let s := { sHi with moot := { sHi.moot with criers := [⟨40, 0, 0, false⟩] } };
      (ceilingAt s 0).toNat ≤ (50#8).toNat ∧ (50#8).toNat < s.moot.coreCode.toNat) ∧
    accept sHi (msg 31 0 0) true = none ∧ accept sHi (msg 97 0 0) true = none ∧
    (accept sHi (msg 32 0 0) true).isSome = true ∧ (accept sHi (msg 96 0 0) true).isSome = true ∧
    accept { sHi with moot := { sHi.moot with seen := [(5, 77)] } } (msg 96 0 0) true = none ∧
    ((msg 32 0 0).sent - sHi.moot.deadline).toNat < 2 ^ 63 ∧ blindSite 0 = false ∧ blindSite (BitVec.allOnes 64) = true ∧ anyBlind r0 = false ∧
    anyBlind { r0 with moot := { r0.moot with sensFail := r0.moot.sensFail.set 7 (BitVec.allOnes 64) } } = true := by
  decide +kernel

/-- Messages of a live member to a member that has joined, and to one that joins; and one of a member that is silent. -/
theorem wit_MootLimits_messages :
    (acceptLive (sGr 0 2 0) (msg 32 9 0) true).isSome = true ∧ (sGr 0 2 0).moot.state ≠ 3 ∧
    (acceptLive (sGr 0 2 10) (msg 32 9 0) true).isSome = true ∧ (acceptLive (sGr 0 3 0) (msg 32 9 0) true).isSome = true ∧
    (sGr 0 3 0).moot.state = 3 ∧
    (let s := { sGr 0 2 0 with moot := { (sGr 0 2 0).moot with members := [⟨5, 1, false, 32, 0, 0, false, [], false⟩] } };
      acceptLive s (msg 32 9 0) true = none ∧ acceptLive s (msg 32 9 0) false = none) ∧
    (sGr 0 2 0).moot.silents = [] := by decide +kernel

/-- A cap that rises from 1,500 W, with the power limiter at or above the code that it allows, and one that falls. -/
theorem wit_MootLimits_caps :
    let low : Moot := { sHi.moot with rpcap := 1500 }
    low.cap < ({ low with rpcap := 4800 } : Moot).cap ∧ low.limits[limIdx .power].toNat ≤ (96#8).toNat ∧
    ¬low.cap < ({ low with rpcap := 1500 } : Moot).cap := by decide +kernel

theorem wit_MootRounds :
    (accept (sGr 0 2 0) (msg 32 800000 1) true).isSome = true ∧ (sGr 0 2 0).moot.round = 1 ∧ (sGr 0 2 0).moot.tick = 800000 ∧
    (sGr 0 2 0).moot.missed = false ∧ (sGr 0 2 0).moot.alone = false ∧ (sGr 0 3 0).moot.state = 3 ∧
    (accept (sGr 0 3 0) (msg 32 800000 1) false).isSome = true ∧ roundSendDue (sGr 0 2 0) = false ∧ roundSendDue (sGr 0 2 800000) = true ∧
    roundSendDue { r0 with bell := 800000 } = true ∧ r0.moot.alone = true ∧ (sGr 0 2 800000).moot.joins = [] ∧
    (sGr 0 2 800000).moot.leaves = [] ∧ (sGr 0 2 800000).moot.silents = [] ∧ joinDue r0 = none ∧ roundDue r0 = false ∧
    roundDue { r0 with bell := 800000 } = true ∧ missDue r0 = false ∧ missDue (sGr 0 2 800000) = true ∧ (getPart r0 0).eqEn = false := by
  decide +kernel

/-- A round that comes with its decision and parameters held, one of a group of one, and one at which the member leaves. -/
theorem wit_MootRounds_ticks :
    let hold (s : State) : State := { s with moot := { s.moot with decision := some 40, params := [0] } }
    let g := hold (sGr 0 2 800000)
    let a := hold { r0 with bell := 800000 }
    let p : State := { g with moot := { g.moot with parting := [0] } }
    joinDue g = none ∧ roundDue g = true ∧ g.moot.slot ∉ g.moot.parting ∧ g.moot.holdsRound = true ∧ g.moot.missed = false ∧
    g.moot.criers = [] ∧ g.moot.alone = false ∧ a.moot.alone = true ∧ roundDue a = true ∧ a.moot.holdsRound = true ∧
    joinersOf a.moot.params = [] ∧ a.moot.decision = some 40 ∧ p.moot.slot ∈ p.moot.parting ∧
    (sGr 0 2 800000).moot.holdsRound = false := by decide +kernel

theorem wit_MootMembers_heartbeats :
    heartbeatDue r0 = false ∧ heartbeatDue (sQt 0) = true ∧ (sQt 0).moot.alone = false ∧
    (let a := { r0 with moot := { r0.moot with time := refMicros 20 } };
      heartbeatDue a = true ∧ a.moot.alone = true ∧ a.moot.state ≠ 3) ∧
    accept (sGr 0 2 0) { msg 32 0 0 with gid := 1 } true = none ∧
    accept (sGr 0 2 0) { msg 32 0 0 with gid := 1 } false = none ∧ (accept (sGr 0 2 0) (msg 32 0 0) true).isSome = true ∧
    (∃ x ∈ (sGr 0 2 0).moot.members, x.slot = (msg 32 0 0).member ∧ x.pkg = (msg 32 0 0).pkg ∧ x.left = false) ∧
    (¬∃ x ∈ (sGr 0 2 0).moot.members, x.slot = (6 : BitVec 8) ∧ x.pkg = 2 ∧ x.left = false) ∧ (sGr 0 2 0).moot.joins = [] ∧
    (sGr 0 2 0).moot.state = 2 ∧ (sGr 0 0 0).moot.state ≠ 1 ∧ (sGr 0 0 0).moot.state ≠ 2 ∧
    (accept (sGr 0 0 0) { msg 32 0 0 with member := 6, pkg := 2 } true).isSome = true ∧
    (accept (sGr 0 2 0) { msg 32 0 0 with member := 6, pkg := 2 } true).isSome = true := by decide +kernel

/-- Heartbeats of a member that still joins, to the coordinator, to another member and to a machine of no group; of a package in a
slot that is free and in one that is not. -/
theorem wit_MootMembers_joiners :
    (msg 32 0x10000 1).effective.getLsbD 16 = true ∧ (msg 32 0 1).effective.getLsbD 16 = false ∧
    (accept (sGr 0 2 0) (msg 32 0x10000 1) true).isSome = true ∧ isCoord (sGr 0 2 0) = true ∧
    (accept (sGr 5 2 0) (msg 32 0x10000 1) true).isSome = true ∧ isCoord (sGr 5 2 0) = false ∧ (sGr 5 2 0).moot.state = 2 ∧
    (accept (sGr 5 0 0) (msg 32 0x10000 1) true).isSome = true ∧ isCoord (sGr 5 0 0) = false ∧
    (acceptLive (sGr 0 2 0) { msg 32 0 0 with member := 6, pkg := 2 } true).isSome = true ∧
    (∀ x ∈ (sGr 0 2 0).moot.alive, x.slot ≠ (6 : BitVec 8)) ∧
    (acceptLive (sGr 0 2 0) { msg 32 0 0 with pkg := 2 } true).isSome = true ∧ (∃ x ∈ (sGr 0 2 0).moot.alive, x.slot = (5 : BitVec 8)) ∧
    (acceptLive (sGr 0 2 0) (msg 0 800000 0) false).isSome = true ∧
    (accept (sGr 0 2 0) (msg 0 (BitVec.allOnes 64) 7) false).isSome = true := by decide +kernel

theorem wit_MootMembers_silence :
    (∃ x ∈ (sQt 0).moot.alive, x.slot = 5 ∧ (5 : BitVec 8) ≠ (sQt 0).moot.slot ∧ (sQt 0).moot.siltoTime ≤ (sQt 0).moot.time - x.heardAt) ∧
    isCoord (sQt 0) = true ∧ isCoord (sGr 5 2 0) = false ∧ isCoord (sQt 5) = true ∧
    (let q := { sQt 5 with moot := { (sQt 5).moot with
      members := [⟨0, 0, true, 32, 0, refMicros 250, false, [], false⟩, ⟨5, 1, true, 32, 0, 0, false, [], false⟩, ⟨9, 2, true, 32, 0, 0, false, [], false⟩] } };
      isCoord q = false ∧ ∃ x ∈ q.moot.alive, x.slot = 9 ∧ (9 : BitVec 8) ≠ q.moot.slot ∧ q.moot.siltoTime ≤ q.moot.time - x.heardAt) ∧
    (¬∃ x ∈ (sGr 0 2 1).moot.alive, x.slot = 5 ∧ (sGr 0 2 1).moot.siltoTime ≤ (sGr 0 2 1).moot.time - x.heardAt) := by decide +kernel

/-- A report of member 5, with no tick, reaches the coordinator, of itself or of the coordinator. -/
theorem wit_MootMembers_reports :
    (accept (sGr 0 2 0) (msg 0 0 5) false).isSome = true ∧ (msg 0 0 5).effective = 0 ∧ (msg 0 9 5).effective ≠ 0 ∧
    isCoord (sGr 0 2 0) = true ∧ (5 : BitVec 8) ≠ (sGr 0 2 0).moot.slot ∧ (∃ x ∈ (sGr 0 2 0).moot.alive, x.slot = 5) ∧
    (sGr 0 2 0).moot.silents = [] ∧ (accept (sGr 0 2 0) (msg 0 0 0) false).isSome = true ∧ (0 : BitVec 8) = (sGr 0 2 0).moot.slot ∧
    (accept (sGr 7 3 0) (msg 0 (BitVec.allOnes 64) 7) false).isSome = true ∧ (sGr 7 3 0).moot.state = 3 ∧ (sGr 7 3 0).moot.slot = 7 := by
  decide +kernel

theorem wit_MootMembers_joins :
    (accept (sGr 0 2 0) (msg 0 0 143) false).isSome = true ∧ isCoord (sGr 0 2 0) = true ∧ ((143#32).extractLsb' 0 8 : BitVec 8).toNat ≤ 143 ∧
    (sGr 0 2 0).moot.alive.length + (sGr 0 2 0).moot.joins.length < 144 ∧ (∀ x ∈ (sGr 0 2 0).moot.alive, x.slot ≠ (143 : BitVec 8)) ∧
    143 < ((144#32).extractLsb' 0 8 : BitVec 8).toNat ∧ (∃ x ∈ (sGr 0 2 0).moot.alive, x.slot = (5 : BitVec 8)) ∧
    (msg 0 0 0).member ≠ (sGr 5 2 0).moot.coordSlot ∧ { msg 0 800000 0 with member := 0 }.member = (sGr 5 2 0).moot.coordSlot ∧
    (accept (sGr 5 2 0) { msg 0 800000 0 with member := 0 } false).isSome = true ∧ (sGr 5 2 0).moot.tick = 800000 ∧
    r0.moot.alone = true ∧ (∀ p : Fin 16, (getPart r0 (BitVec.ofNat 4 p.val)).en = false) ∧ r0.moot.state ≠ 3 ∧ r0.moot.state ≠ 1 ∧ r0.moot.state ≠ 2 ∧
    (sGr 5 2 0).moot.state = 2 := by decide +kernel

/-- Port 23, up, with flits that are not acknowledged and a count of resends, and other lanes retired. -/
def sPo (state : BitVec 4) (n : Nat) (bad : BitVec 5) : State :=
  setPort r0 23 { Port.reset with state := state, replayBuf := List.replicate n ⟨0, default, []⟩, resends := 15 + n, badlane := bad }

/-- A sound flit of a class with a sequence number. -/
def flit (q : BitVec 8) (cls : BitVec 3) : List Byte :=
  let h : BitVec 64 := 0#32 ++ 0#12 ++ cls ++ 0#1 ++ 0#8 ++ q
  let b := List.replicate 240 0 ++ leBytes 8 h.toNat ++ List.replicate 4 0
  b ++ leBytes 4 (crc32c b).toNat

theorem wit_LinkPorts_flits :
    (getPort (sPo 2 0 0) 23).state = 2 ∧ (getPort (sPo 4 0 0) 23).state = 4 ∧ (getPort (sPo 3 0 0) 23).state = 3 ∧ flitDamaged [] = true ∧
    flitDamaged (flit 0 0) = false ∧ flitDamaged (flit 255 3) = false ∧ (flitHeader (flit 0 0)).getLsbD 16 = false ∧
    (flitHeader (flit 0 0)).extractLsb' 17 3 = (0 : BitVec 3) ∧ (flitHeader (flit 0 0)).extractLsb' 0 8 = (getPort (sPo 2 0 0) 23).rxNext ∧
    (flitHeader (flit 255 3)).extractLsb' 17 3 = (3 : BitVec 3) ∧ (flitHeader (flit 255 3)).extractLsb' 0 8 ≠ (getPort (sPo 2 0 0) 23).rxNext := by
  decide +kernel

theorem wit_LinkPorts_lanes :
    (getPort (sPo 2 0 0) 23).replayBuf = [] ∧ (sPo 2 0 0).outq = [] ∧ (getPort (sPo 2 1 0) 23).replayBuf ≠ [] ∧
    (getPort (sPo 2 1 0) 23).rmax.toNat ≤ (getPort (sPo 2 1 0) 23).resends ∧
    (getPort (setPort r0 23 { Port.reset with state := 2, replayBuf := [⟨0, default, []⟩], resends := 15 }) 23).resends <
      (getPort (setPort r0 23 { Port.reset with state := 2, replayBuf := [⟨0, default, []⟩], resends := 15 }) 23).rmax.toNat ∧
    (getPort (sPo 0 0 0x1E) 23).sound < 2 ∧ (getPort (sPo 0 0 0) 23).en = true ∧ 2 ≤ (getPort (sPo 0 0 0x1C) 23).sound ∧
    (getPort (sPo 2 0 0x10) 23).badlane.getLsbD 4 = true ∧ (getPort (sPo 2 0 0) 23).badlane.getLsbD 4 = false ∧
    (getPort (sPo 2 0 0x0C) 23).sound = 3 ∧ (getPort (sPo 2 0 0) 23).badlane = 0 ∧ (getPort (sPo 2 0 0) 23).sound = 5 ∧ (getPort (sPo 2 0 0x1C) 23).sound < 3 ∧ (getPort (sPo 2 0 0) 23).lspare = false := by
  decide +kernel

/-- A port that retrains; one whose lane 3 reaches LTHR with the next damaged flit; one with a request that waits for its answer. -/
theorem wit_LinkPorts_states :
    let a := setPort r0 23 { Port.reset with state := 2, retrain := some 5 }
    let b := setPort r0 23 { Port.reset with state := 2, lthr := 1, damagedBy := [3, 4] }
    let c := setPort r0 23 { Port.reset with state := 2, unanswered := [default] }
    (getPort a 23).retrain ≠ none ∧ (getPort (sPo 2 0 0) 23).retrain = none ∧ (getPort (sPo 2 0 0) 23).damagedBy = [] ∧
    (getPort b 23).damagedBy = [3, 4] ∧ (getPort b 23).badlane.getLsbD 3 = false ∧
    (getPort b 23).laneHits.getD 3 0 + 1 = max 1 (getPort b 23).lthr.toNat ∧ 3 ≤ (getPort b 23).sound ∧
    (getPort c 23).unanswered = [default] ∧ silentPkg c (default : Outbound).dpkg.toNat = false ∧ c.outq = [] := by
  decide +kernel

/-- A part that start-up has trained; an engine that waits for package 9, which is in no group, since Bell 0. -/
def sHo : State :=
  let s := withEng r0 .vec fun x => { x with wait := some ⟨.route 9, 0, 0⟩ }
  { s with moot := { s.moot with time := 2 ^ 150 }, host := { s.host with stage := 7 }, disp := { s.disp with wqs := [(16383, { Wq.reset with part := 3, en := true })] } }
def memKeys (x : HostPlace) : Option (List Nat) := match x with | .mem k => some k | _ => none

theorem wit_HostAccess_places :
    inGroup sHo 0 = true ∧ inGroup sHo 9 = false ∧ routeOps sHo 9 = [] ∧ routeEngines sHo 9 = [.vec] ∧ routeEngines r0 9 = [] ∧
    sHo.outq = [] ∧ sHo.ctx.stop = none ∧ sHo.ctx.status = .running ∧ r0.host.stage.toNat < 4 ∧ 4 ≤ sHo.host.stage.toNat ∧ sHo.host.fail = 0 ∧
    hostPlace sHo ⟨.virt 3, 2, 0, .read 8⟩ 8 = .none ∧ memKeys (hostPlace sHo ⟨.physical, 2, 2 ^ 36 - 8, .read 8⟩ 8) = some (keyRange (2 ^ 36 - 8) 8) ∧
    hostPlace sHo ⟨.physical, 2, 2 ^ 36 - 7, .read 8⟩ 8 = .none ∧ (keyRange (2 ^ 36 - 8) 8).Nodup ∧ (∀ k ∈ keyRange (2 ^ 36 - 8) 8, armedLine sHo k = false) ∧
    sHo.MemOk ∧ NoAlias sHo ∧ memKeys (hostPlace sHo ⟨.physical, 0, 0, .write [1]⟩ 1) = some [commonsKey r0.pkgNo.toNat 0 0] := by
  unfold State.MemOk NoAlias; decide +kernel

theorem wit_HostAccess_registers :
    hostPlace sHo ⟨.virt 3, 0, 0xFFFF8, .read 8⟩ 8 = .queue 16383 0x38 ∧ (getWq sHo 16383).part = 3 ∧ (getWq sHo 16383).en = true ∧
    findOp r0 7 = none ∧ findOp (oneOp .ctl [.a 16 5] (.load (some 5) none 0)) 7 = some (op1 7 .ctl [.a 16 5] (.load (some 5) none 0)) ∧
    (2 ^ 29 + 5) % 2 ^ 29 < 2 ^ 28 ∧ ctrlReg 7 0x710008 = .route 1 ∧ ctrlReg 7 0xFFFFFFF = .none ∧ ctrlReg 7 0x41FFC0 = .wq 16383 0 ∧
    (getWq r0 16383).en = false := by decide +kernel

/-- A fill whose page lies in host memory. -/
def sHp : State :=
  let s := putBf { sT with tlb := [⟨0, 0, 1, hostBase / 4096, true, false⟩] } .mxe 2 (rec1 0 0 0 128)
  { s with ops := [op1 7 .mxe [] (.mx (.load ⟨memOp s 2 0 0 0 false 0 0, sT.mx.mill.sow, sT.mx.quern.sow, 0, none⟩ 0))] }

theorem wit_HostAccess_completion : ((findOp sHp 7).bind (hostPage sHp)) = some 0 ∧
    (match (findOp sHp 7).map (·.kind) with
      | some (.mx (.load _ _)) => true
      | _ => false) = true := by decide +kernel

/-- Start-up in a stage; no power; a part that quiesces. -/
def sUp (n : BitVec 4) (q : Bool) : State := { r0 with host := { r0.host with stage := n, quiescing := q } }

theorem wit_PowerAndStartup :
    (sUp 4 false).host.stage.toNat < 7 ∧ (sUp 5 false).host.stage = 5 ∧ (getPort (sPo 1 0 0) 23).state = 1 ∧ (sUp 1 false).host.fail = 0 ∧ ¬(sUp 7 false).host.stage.toNat < 7 ∧
    ({ r0 with host := { r0.host with powered := false } } : State).host.powered = false ∧ r0.script = [] ∧
    (∃ x ∈ (sPo 2 0 0).ports, x.state ≠ 0) ∧ (∀ x ∈ r0.ports, x.state = 0) ∧ r0.host.restoring = none ∧ quadHalted r0 r0.coreNo = true ∧
    quadHalted (setPart r0 0 { Part.reset with qmask := 1, en := true }) r0.coreNo = false ∧ drainPoint r0 = false ∧
    drainPoint (sPl true) = true ∧ r0.mx.thresh.toNat = 16 ∧ (sUp 8 false).host.stage = 8 ∧ (sUp 7 false).host.stage ≠ 8 ∧
    quiesceReady (sUp 7 true) = true ∧ portsDraining (sUp 7 true) = false ∧
    quiesceReady { sPo 2 0 0 with host := (sUp 7 true).host } = true := by decide +kernel

/-- Stage 3 with a shadow plane whose checksum is right, and with one whose is wrong. -/
theorem wit_PowerAndStartup_planes :
    (sUp 3 false).host.stage = 3 ∧ (sUp 3 false).disp.last ≠ 1 ∧ (sUp 3 false).host.fail = 0 ∧ (sUp 6 false).host.stage = 6 ∧
    (∃ m : Mem, crc32c ((List.range 0xFFC).map (memGet m)) = BitVec.ofNat 32 (leValue ((List.range 4).map fun i => memGet m (0xFFC + i)))) ∧
    ∃ m : Mem, crc32c ((List.range 0xFFC).map (memGet m)) ≠ BitVec.ofNat 32 (leValue ((List.range 4).map fun i => memGet m (0xFFC + i))) := by
  refine ⟨by decide, by decide, by decide, by decide, ?_, ?_⟩
  · exact wit_ConfigurationPlanes_good.imp fun _ h => h.2
  · exact wit_ConfigurationPlanes_bad.imp' (fun b => (sPl b).disp.shadow) fun _ h => h

/-! #### The whole machine -/

/-- The vector engine's turn at an instruction of its text. -/
def sAt (l : List Word32) : State :=
  { sV with ctx := { sV.ctx with text := { sV.ctx.text with base := (sV.eng .vec).pc, words := l } } }

theorem wit_StepRunsDecoded : ∀ l ∈ [[0x0410000A#32, 0], [0xB0002400, 0x8A104000], [0x7E000000, 0], [0xB0000000 + 0xFC00, 0xFFFFFFFF]],
    (sAt l).host.powered = true ∧ (sAt l).inbox = [] ∧ (sAt l).turn = .eng .vec ∧ engineRuns (sAt l) .vec = true ∧ slipHeld (sAt l) .vec = false ∧
    (sAt l).mx.parked = none ∧ ((sAt l).eng .vec).seq = none ∧ fetchWord (sAt l) .vec ((sAt l).eng .vec).pc = l[0]? ∧
    fetchWord (sAt l) .vec (((sAt l).eng .vec).pc + 4) = l[1]? ∧ stallHeld (sAt l) .vec = false ∧ pairBroken ((sAt l).eng .vec) = false ∧
    privateHeld (sAt l) .vec = none ∧ dueBefore (sAt l) .vec = [] ∧ carryOver (sAt l) .vec = false ∧ (bitAt (l.getD 0 0) 31 = true → tagOwner ((l.getD 0 0).extractLsb' 28 3) = some .vec) := by decide +kernel

/-- A header of a tag that no engine has, in the vector engine's turn; and a turn ahead of which something is served. -/
theorem wit_StepRunsDecoded_tags :
    let s := sAt [0xE0000000, 0]
    s.inbox = [] ∧ dueBefore s .vec = [] ∧ engineRuns s .vec = true ∧ slipHeld s .vec = false ∧ s.mx.parked = none ∧ (s.eng .vec).seq = none ∧
    fetchWord s .vec (s.eng .vec).pc = some 0xE0000000 ∧ stallHeld s .vec = false ∧ carryOver s .vec = false ∧
    (0xE0000000#32).getLsbD 31 = true ∧ reservedTag .vec 0xE0000000 = true := by decide +kernel

theorem wit_StepRunsDecoded_decodes :
    decode 0x0410000A 0 = some (.addi 1 0 10) ∧ (decode 0xB0002400 0x8A104000).isSome = true ∧ decode 0x7E000000 0 = none ∧
    decode (0xB0000000 + 0xFC00) 0xFFFFFFFF = none := by decide

theorem wit_EncodingRoundTrip :
    encode (.addi 31 16 0x7FFF) ≠ none ∧ (encode (.addi 1 0 10)).any (fun l => l.length == 1) = true ∧
    (encode (.vmul hp 8 0 0 34 33 1 0)).any (fun l => l.length == 2) = true := by decide

theorem wit_BytesStayCanonical : r0.BytesOk ∧ r0.host.powered = true ∧ r0.inbox = [] := by
  unfold State.BytesOk State.MemOk Cache.Ok Rising; decide +kernel

/-! ### One step each

Expected values are worked out by hand from the rules and examples that the comments name. -/

/-- The state that an outcome goes on in. -/
def ran (o : Host.Outcome State Fault Refusal) : State := match o with | .next t => t | _ => r0

/-- The register writes of the operation that an outcome started. -/
def started (o : Host.Outcome State Fault Refusal) : List RegWrite := ((ran o).ops.getLast?.map (·.ws)).getD []

/-- The lanes of the first vector register that an outcome writes. -/
def lanes (ty : BitVec 5) (n : Nat) (o : Host.Outcome State Fault Refusal) : List Nat :=
  match started o with
  | .v _ x :: _ => (List.range n).map (lane ty x)
  | _ => []

/-- a1 and a2 of the Steward. -/
def sa (x y : BitVec 64) : State := putA (putA r0 .ctl 1 x) .ctl 2 y

/-- v1 and v2. -/
def sv (x y : Nat) : State :=
  { sV with ctx := { sV.ctx with vec := { sV.ctx.vec with v := (sV.ctx.vec.v.set 1 (BitVec.ofNat 4096 x)).set 2 (BitVec.ofNat 4096 y) } } }

-- The integer group (R79): sums wrap, shifts take the low six bits, mulh is the signed high half.
theorem test_add_wraps : readA (ran (exec (.add 3 1 2) (sa (BitVec.allOnes 64) 2))) .ctl 3 = 1 := by decide +kernel
theorem test_sub_order : readA (ran (exec (.sub 3 1 2) (sa 5 7))) .ctl 3 = 0xFFFFFFFFFFFFFFFE := by decide +kernel
theorem test_mulh_signed : started (exec (.mulh 3 1 2) (sa (BitVec.allOnes 64) 3)) = [.a 3 (BitVec.allOnes 64)] := by decide +kernel
theorem test_slt_signed : readA (ran (exec (.slt 3 1 2) (sa (BitVec.allOnes 64) 0))) .ctl 3 = 1 := by decide +kernel
theorem test_sltu_unsigned : readA (ran (exec (.sltu 3 1 2) (sa (BitVec.allOnes 64) 0))) .ctl 3 = 0 := by decide +kernel
theorem test_sra_sign : readA (ran (exec (.sra 3 1 2) (sa 0x8000000000000000 63))) .ctl 3 = BitVec.allOnes 64 := by decide +kernel
theorem test_addi_sign : readA (ran (exec (.addi 3 1 0x7FFF) (sa 1 0))) .ctl 3 = 0 := by decide +kernel
theorem test_add_source_is_dest : readA (ran (exec (.add 1 1 1) (sa 21 0))) .ctl 1 = 42 := by decide +kernel
theorem test_a0_discards : readA (ran (exec (.addi 0 1 5) (sa 1 0))) .ctl 0 = 0 := by decide +kernel
theorem test_lui_sign : readA (ran (exec (.lui 3 0x80000) r0)) .ctl 3 = 0xFFFFFFFF80000000 := by decide +kernel
theorem test_lhi_keeps_low : readA (ran (exec (.lhi 1 1) (sa 0xFFFFFFFF00000005 0))) .ctl 1 = 0x0000000100000005 := by decide +kernel

-- R80, R81: a branch taken goes to pc + 4 × disp, and jal leaves pc + 4 in a15.
theorem test_branch_back : ((ran (exec (.bNe 1 2 0xFFF) (sa 1 2))).eng .ctl).pc = (r0.eng .ctl).pc - 4 := by decide +kernel
theorem test_branch_falls : ((ran (exec (.bEq 1 2 0xFFF) (sa 1 2))).eng .ctl).pc = (r0.eng .ctl).pc + 4 := by decide +kernel
theorem test_jal_links : readA (ran (exec (.jal 2) r0)) .ctl 15 = (r0.eng .ctl).pc + 4 := by decide +kernel

-- R82 and the worked encoding of chapter 2: a loop of a count of 0 is passed over, another pushes its body.
theorem test_loop_zero : ((ran (exec (.loop 1 2 0) (sa 0 0))).eng .ctl).pc = (r0.eng .ctl).pc + 12 := by decide +kernel
theorem test_loop_push : ((ran (exec (.loop 1 2 0) (sa 10 0))).eng .ctl).loops.length = 1 := by decide +kernel

-- R171: loads are little-endian and sign-extend unless ZEXT is set.
def sLd : State := rawWrite sL [(scratchKey 0 76, 0x01), (scratchKey 0 79, 0x80)]
theorem test_ld_sign : started (exec (.ld hp 0 0 0 0 0 2 16 2 0 12) sLd) = [.a 16 0xFFFFFFFF80000001] := by decide +kernel
theorem test_ld_zero : started (exec (.ld hp 0 0 0 0 1 2 16 2 0 12) sLd) = [.a 16 0x80000001] := by decide +kernel
-- R100 of chapter 2's records: a clipped load reads zero.
theorem test_ld_clips : started (exec (.ld hp 0 0 0 0 0 2 16 2 0 13) sLd) = [.a 16 0] := by decide +kernel
theorem test_st_bytes : (List.range 3).map (fun i => memGet (ran (exec (.st hp 0 0 0 0 0 1 5 2 0 0) (putA sL .ctl 5 0xABCD1234))).mem (scratchKey 0 (64 + i))) = [0x34, 0x12, 0] := by
  decide +kernel

-- R396 and its example: 1 added to a word that holds 5; the replay of the request leaves 6 and answers 5.
def rq : Instr := .atomicRequest ⟨3, 9, 64, .rmw 0 true 1 0⟩
theorem test_atomic_once : memVal (ran (exec rq (rawWrite r0 [(64, 5)]))) 64 8 = 6 := by decide +kernel
theorem test_atomic_replay : memVal (ran (exec rq (ran (exec rq (rawWrite r0 [(64, 5)]))))) 64 8 = 6 := by decide +kernel
theorem test_atomic_reply : (ran (exec rq (rawWrite r0 [(64, 5)]))).replies.map (·.old) = [5] := by decide +kernel

-- R46, R52: trap stops the strand, its fault synchronous.
theorem test_trap_stops : ((ran (exec (.trap hp 5) r0)).ctx.stop.map fun x => (x.info.code, x.info.async)) = some (Code.trap, false) := by
  decide +kernel
theorem test_trap_status : (ran (exec (.trap hp 5) r0)).ctx.status = .stopped := by decide +kernel

-- R9: the slip window stays between 64 and 4096.
theorem test_window_low : (ran (exec (.slipwWrite 3) r0)).ctx.window = 64 := by decide +kernel
theorem test_window_high : (ran (exec (.slipwWrite 0x1388) r0)).ctx.window = 4096 := by decide +kernel

-- Table 5.9: wraps, clamps, the high half of an unsigned product, and shifts of the width and more.
theorem test_vadd_wraps : lanes 0 2 (exec (.vadd hp 0 0 0 16 1 2 0) (sv 0x017F 0x0201)) = [0x80, 0x03] := by decide +kernel
theorem test_vadds_clamps : lanes 0 2 (exec (.vadds hp 0 0 16 1 2 0) (sv 0x807F 0xFF01)) = [0x7F, 0x80] := by decide +kernel
theorem test_vmulh_unsigned : lanes 1 1 (exec (.vmulh hp 1 0 16 1 2 0) (sv 0xFF 0xFF)) = [0xFE] := by decide +kernel
theorem test_vsub_order : lanes 6 1 (exec (.vsub hp 6 0 0 16 1 2 0) (sv 5 7)) = [2 ^ 64 - 2] := by decide +kernel
theorem test_vsra_width : lanes 2 1 (exec (.vsra hp 2 0 16 1 2 0) (sv 0x8000 16)) = [0xFFFF] := by decide +kernel
theorem test_vsll_width : lanes 2 1 (exec (.vsll hp 2 0 16 1 2 0) (sv 1 16)) = [0] := by decide +kernel
theorem test_vfma_float : lanes 8 1 (exec (.vfma hp 8 0 0 16 1 1 2 0) (sv 0x40000000 0xBF800000)) = [0x40400000] := by decide +kernel
-- R208: a NaN compares unequal to itself.
theorem test_vcmp_nan : started (exec (.vcmp hp 8 0 0 1 1 1 0) (sv 0x7FC00000 0)) = [.p 1 (BitVec.allOnes 1024 &&& (2 ^ 128 - 2))] := by
  decide +kernel
-- R214: an index beyond the register gives zero.
theorem test_vperm_far : lanes 6 3 (exec (.vperm hp 6 0 0 16 1 2 0) (sv (7 * 2 ^ 64 + 5) (64 * 2 ^ 64 + 1))) = [7, 0, 5] := by
  decide +kernel
theorem test_vzip_order : lanes 6 3 (exec (.vzip hp 6 16 1 2) (sv (3 * 2 ^ 64 + 1) (4 * 2 ^ 64 + 2))) = [1, 2, 3] := by decide +kernel
theorem test_pcnt_all : started (exec (.pcnt hp 8 16 0) sV) = [.a 16 128] := by decide +kernel
theorem test_vgetx_sign : started (exec (.vgetx hp 0 16 1 0) (sv 0x80 0)) = [.a 16 (BitVec.ofInt 64 (-128))] := by decide +kernel

-- R135: UE4M3 code 0x62 is 40.
theorem test_ue4m3 : (ue4m3Value 0x62).eqv ⟨40, 1⟩ = true := by decide

-- The worked MX block of chapter 3: 10, -0.3 and 0.0009 as FP32, then zeros.
theorem test_mx_block :
    let src (c : Nat) : Src := { v := FFmt.fp32.value c }
    let r := encMxBlock .mxe4m3 .rne none ([src 0x41200000, src 0xBE99999A, src 0x3A6BEDFA] ++ List.replicate 29 (src 0))
    (r.1, r.2.1.take 4, r.2.2.satq, r.2.2.undq) = (0x7A, [0x7A, 0xD2, 0x0F, 0x00], false, false) := by decide +kernel

-- Table 3.7: products through the window, and the two drains of the sum.
theorem test_window_products :
    let f (c : Nat) : Val := FFmt.e4m3.value c
    (accumulate (-8) AccElem.zero [f 0x3C, f 0x81, f 0x7E] [f 0x3A, f 0x38, f 0x04]).1 = ⟨1375, .none⟩ := by decide +kernel
theorem test_window_bf16 : drainElem .bf16 .rne 0 (AccElem.value ⟨1375, .none⟩ (BitVec.ofInt 7 (-8))) = (0x40AC, { nx := true }) := by
  decide +kernel
theorem test_window_e4m3 : (drainElem .e4m3 .rne 0 (AccElem.value ⟨1375, .none⟩ (BitVec.ofInt 7 (-8)))).1 = 0x4B := by decide +kernel

-- R246's example: the tile signature, and that of the Quern with 0x41 in row 2.
theorem test_tile_signature : tsd64 0x0000000700150304 [0x38, 0x40, 0x44, 0x48, 0xB8, 0x00, 0x3C, 0x7E, 0x40, 0x40, 0x40, 0x40] = 0x00000007405D43C4 := by
  decide +kernel
theorem test_tile_signature_differs : tsd64 0x0000000700150304 [0x38, 0x40, 0x44, 0x48, 0xB8, 0x00, 0x3C, 0x7E, 0x41, 0x40, 0x40, 0x40] = 0x00000007405D43C7 := by
  decide +kernel

-- Table 7.1, and the first row of Table 7.11.
theorem test_sow_mix : sowMix 0x5EED 5 0 = 0x16AC7965 := by decide
theorem test_sow_n : sowN 0x5EED 5 0 = 23 := by decide
theorem test_grad_ls : (FFmt.fp32.convert .rne 0 false (gradLs (.fin false ⟨1, 2⟩) ⟨23, 256⟩)).1 = 0x3BFF1402 := by decide +kernel

-- Chapter 8's worked ring: the first word of record 7, a bdedup with OUTCOME 3.
theorem test_completion_word :
    let c := { cpy .dedup 0 0 0 0 0 0 with ac := 0, iseq := 23 }
    let s : State := { sCopy with ctx := { sCopy.ctx with bte := { sCopy.ctx.bte with tail := 7 } } }
    leValue ((completionRecord s c { status := 0, outcome := 3 }).take 8) = 0x0007001710300000 := by
  decide +kernel

-- R391, R392: the last arrival completes the episode, and its token is the episode that it joined.
theorem test_cbar_completes : readObj (ran (exec (.cbar hp 16 2 0 5) (sL1 1))) objKey = ⟨true, 4, 0, 10, 3, 0⟩ := by decide +kernel
theorem test_cbar_token : started (exec (.cbar hp 16 2 0 5) (sL1 1)) = [.a 16 9] := by decide +kernel

-- R386: -1 to the destination's 2, in the order of its operands.
theorem test_cadd : memVal (ran (exec (.cadd hp 0 2 3 0 0 5) (rawWrite (sBk 3 3) [(commonsKey 0 0 0, 2), (scratchKey 0 64, 5)]))) (commonsKey 0 0 0) 4 = 7 := by
  decide +kernel

-- Table 13.3: the Crier of member 2's thermal limiter, and that of the clamp at Bell 52,400,000.
def sEx (ceil : BitVec 8) (bell : BitVec 64) : State :=
  { r0 with bell := bell, moot := { r0.moot with gceil := ceil, lead := 50, glat := 4000, limits := Vector.replicate 5 88 } }
theorem test_crier_tick : (ran (exec (.limitLower .thermal 72 0) (sEx 80 50600000))).moot.outbox.map (fun x => (x.1, x.2.limit, x.2.effective)) = [(1, 72, 50700000)] := by
  decide +kernel
theorem test_clamp_tick : (ran (exec (.unannouncedClamp 64 3) (sEx 76 52400000))).moot.outbox.map (fun x => (x.2.unann, x.2.effective)) = [(true, 52415200)] := by
  decide +kernel
-- Table 13.3: after round k with D = 80 the next falls at 52,000,000.
theorem test_round_tick :
    let s := sEx 80 50000000
    let m : Moot := { s.moot with tick := 50000000, cfgGmax := 88, params := [0], decision := some 80 }
    (ran (exec .roundTick { s with moot := m })).moot.tick = 52000000 := by decide +kernel

-- R408: enabling a queue clears its three indices.
theorem test_queue_enable : (getWq (ran (exec (.wqEnable 16383 0) (sWq false))) 16383).head = 0 := by decide +kernel

-- R493: nothing executes without power.
theorem test_no_power : step { r0 with host := { r0.host with powered := false } } = .fault .noPower := rfl

-- R301: the copy of 16 bytes from 8192 to 4080 moves the last byte too, and raises the counter.
def sCp : State := rawWrite (cOp2 .copy) [(scratchKey 0 8207, 0xEE), (scratchKey 0 8208, 0xDD)]
theorem test_copy_last_byte : memGet (ran (exec (.copyCompletion 7) sCp)).mem (scratchKey 0 4095) = 0xEE := by decide +kernel
theorem test_copy_stops : memGet (ran (exec (.copyCompletion 7) sCp)).mem (scratchKey 0 4096) = 0 := by decide +kernel
theorem test_copy_counts : (ran (exec (.copyCompletion 7) sCp)).ctx.bte.arrive[15] = (1, false) := by decide +kernel

-- R373: element (2, 1) of the source goes to (1, 2) of the destination, whose rows are 16 bytes apart.
theorem test_transpose : memGet (ran (exec .transformCompletion (rawWrite sTrOp [(scratchKey 0 (8192 + 16 + 2), 0x5A)]))).mem (scratchKey 0 33) = 0x5A := by
  decide +kernel

-- R261: mzero leaves nothing in its tile; R262: mwin sets the window.
theorem test_mwin : ((ran (exec (.registerResultLanding 7) (mxOp (.win 3 127)))).mx.mill.tile 3).w = 127 := by decide +kernel

-- Chapter 5: an inactive lane merges its old element, or is zero.
def sIn : State :=
  let s := sv 5 7
  { s with ctx := { s.ctx with vec := { s.ctx.vec with p := s.ctx.vec.p.set 1 2, v := s.ctx.vec.v.set 16 9 } } }
theorem test_lane_merges : lanes 6 2 (exec (.vadd hp 6 0 1 16 1 2 1) sIn) = [9, 0] := by decide +kernel
theorem test_lane_zeroes : lanes 6 2 (exec (.vadd hp 6 0 0 16 1 2 1) sIn) = [0, 0] := by decide +kernel

-- R213: a sum over segments of two elements stands in the first lanes.
theorem test_vred_segments : lanes 6 3 (exec (.vred hp 6 0 0 16 1 0 1) (sv (4 * 2 ^ 192 + 3 * 2 ^ 128 + 2 * 2 ^ 64 + 1) 0)) = [3, 7, 0] := by
  decide +kernel
-- R212: INT32 to INT64 in two registers, element i in register i mod 2.
theorem test_vcvt_spreads : started (exec (.vcvt hp 4 0 0 0 16 1 6 0) (sv 0xFFFFFFFF00000002 0)) = [.v 16 2, .v 17 (2 ^ 64 - 1)] := by
  decide +kernel

-- Table 2.10: bfset writes its field of the record and no other.
theorem test_bfset : readBf (ran (exec (.bfset 2 2 1 0) (sa 0x1FFFFFFFF 0))) .ctl 2 = BitVec.ofNat 256 (0xFFFFFFFF * 2 ^ 64) := by decide +kernel
-- R100: STR1 is sign-extended.
theorem test_bfget_sign : readA (ran (exec (.bfget 2 4 1) (putBf r0 .ctl 2 (BitVec.ofNat 256 (0x80000000 * 2 ^ 128))))) .ctl 1 = 0xFFFFFFFF80000000 := by
  decide +kernel

-- R440: qres gives the old write index and advances it by its count.
theorem test_qres_old : started (exec (.qres hp 16 5 6) (setWq sQ 16383 { getWq sQ 16383 with widx := 9 })) = [.a 16 9] := by decide +kernel
theorem test_qres_counts : (getWq (ran (exec (.qres hp 16 5 6) sQ)) 16383).widx = 4096 := by decide +kernel
-- R11: a0 to a15 are uniform: in shared text they take no value from a16 to a31.
theorem test_uniform_trap : ((ran (exec (.add 1 16 2) r0)).ctx.stop.map fun x => x.info.code) = some Code.illegalOp := by decide +kernel

end Sys2Proof.Tests
end

section
/-! PROOF. The bytes of memory and of the caches stay in canonical form (Chapter 1, memory; R2, R97): the proof of O60.

`Laws/Memory` and `Laws/Caches` prove that every write to the bytes keeps the form. Here each function of the model that takes a
state to a state gets one lemma `<function>_bytesOk`, in the order of the model's files: the function's own branches, each closed
by the lemmas of the functions it calls. An update of a field that holds no bytes keeps `State.BytesOk` by computation, so such
a step is the hypothesis itself. Where a function answers more than a state, one of the predicates below says that the state
inside the answer is canonical. `exec_bytesOk` collects the instructions and `step_bytesOk` the branches of the step. -/
namespace Sys2Proof.Laws
open Sys2Proof.Machine

/-! ### A canonical state inside an answer -/

/-- What an instruction or a step ends in: a next state is canonical. -/
def NextOk : Host.Outcome State Fault Refusal → Prop
  | .next t => t.BytesOk
  | _ => True

/-- What an instruction's own effect ends in: done or waiting, in a canonical state. -/
def ResOk : Res → Prop
  | .done t | .wait t _ => t.BytesOk
  | .trap _ => True

/-- What a read by the dispatcher leaves. -/
def DReadOk : DRead → Prop
  | .ok _ t | .hold _ t | .fail t => t.BytesOk

/-- What reading a descriptor leaves. -/
def ParsedOk {α : Type} : Parsed α → Prop
  | .ok _ t | .hold _ t | .bad t => t.BytesOk

/-- What an engine's slot leaves when no instruction takes it. -/
def SlotOk : Slot → Prop
  | .idle t | .pass t => t.BytesOk
  | .exec _ | .free _ => True

/-- What making an operand's bytes ready leaves. -/
def ReadyOk : Ready → Prop
  | .go t _ | .held t _ | .later _ t => t.BytesOk

/-- What a step of a table or slot command leaves. -/
def GotOk {α : Type} : Got α → Prop
  | .ok _ t | .hold _ t | .again _ t | .bad _ _ t | .fin _ t => t.BytesOk

/-- What finding a barrier object's place leaves. -/
def ObjPlaceOk : ObjPlace → Prop
  | .ok t _ _ => t.BytesOk
  | _ => True

/-- What an operation that may be refused leaves. -/
def SomeOk : Option State → Prop
  | some t => t.BytesOk
  | none => True

theorem NextOk.of_eq {x y : Host.Outcome State Fault Refusal} (h : NextOk x) (e : x = y) : NextOk y := e ▸ h

theorem DReadOk.of_eq {x y : DRead} (h : DReadOk x) (e : x = y) : DReadOk y := e ▸ h

theorem ParsedOk.of_eq {α : Type} {x y : Parsed α} (h : ParsedOk x) (e : x = y) : ParsedOk y := e ▸ h

theorem SlotOk.of_eq {x y : Slot} (h : SlotOk x) (e : x = y) : SlotOk y := e ▸ h

theorem ReadyOk.of_eq {x y : Ready} (h : ReadyOk x) (e : x = y) : ReadyOk y := e ▸ h

theorem GotOk.of_eq {α : Type} {x y : Got α} (h : GotOk x) (e : x = y) : GotOk y := e ▸ h

theorem ObjPlaceOk.of_eq {x y : ObjPlace} (h : ObjPlaceOk x) (e : x = y) : ObjPlaceOk y := e ▸ h

theorem SomeOk.of_eq {x y : Option State} (h : SomeOk x) (e : x = y) : SomeOk y := e ▸ h

theorem bytesOk_fst {α : Type} {p : State × α} {t : State} {a : α} (h : p.1.BytesOk) (e : p = (t, a)) : t.BytesOk := by
  rw [e] at h
  exact h

theorem bytesOk_ite {c : Prop} [Decidable c] {t u : State} (ht : t.BytesOk) (hu : u.BytesOk) : (if c then t else u).BytesOk := by
  split
  · exact ht
  · exact hu

/-! ### Sys2Proof/Machine/Memory.lean -/

theorem drawFree_bytesOk {s : State} {w} (hs : s.BytesOk) : (drawFree s w).2.BytesOk := hs

/-! ### Sys2Proof/Machine/Operands.lean -/

theorem setEng_bytesOk {s : State} {e x} (hs : s.BytesOk) : (State.setEng s e x).BytesOk := hs

theorem putA_bytesOk {s : State} {e n v} (hs : s.BytesOk) : (putA s e n v).BytesOk := setEng_bytesOk hs

theorem setFull_bytesOk {s : State} {gs v} (hs : s.BytesOk) : (setFull s gs v).BytesOk := by
  unfold setFull
  split <;> exact hs

/-! ### Sys2Proof/Machine/Ops.lean -/

theorem takeDelay_bytesOk {s : State} (hs : s.BytesOk) : (takeDelay s).2.BytesOk := by
  unfold takeDelay
  split <;> exact hs

theorem tokSet_bytesOk {s : State} {i n} (hs : s.BytesOk) : (tokSet s i n).BytesOk := hs

theorem popTokens_bytesOk {s : State} {e h} (hs : s.BytesOk) : (popTokens s e h).BytesOk := by
  unfold popTokens
  extract_lets s1
  have hs1 : s1.BytesOk := bytesOk_ite (tokSet_bytesOk hs) hs
  split
  · exact tokSet_bytesOk hs1
  · exact hs1

theorem addOp_bytesOk {s : State} {e lat ws fixed fx kind} (hs : s.BytesOk) : (addOp s e lat ws fixed fx kind).BytesOk := hs

theorem removeOp_bytesOk {s : State} {id} (hs : s.BytesOk) : (removeOp s id).BytesOk := hs

theorem updateOp_bytesOk {s : State} {id f} (hs : s.BytesOk) : (updateOp s id f).BytesOk := hs

theorem withAccess_bytesOk {s : State} {id a touches} (hs : s.BytesOk) : (withAccess s id a touches).BytesOk :=
  updateOp_bytesOk hs

theorem retryOp_bytesOk {s : State} {id pkg} (hs : s.BytesOk) : (retryOp s id pkg).BytesOk := updateOp_bytesOk hs

theorem landWrite_bytesOk {s : State} {e x} (hs : s.BytesOk) : (landWrite s e x).BytesOk := by
  unfold landWrite
  split
  · exact putA_bytesOk hs
  · exact hs
  · split <;> exact hs

theorem landWrites_bytesOk {s : State} {e ws} (hs : s.BytesOk) : (landWrites s e ws).BytesOk :=
  foldl_keeps State.BytesOk _ (fun _ _ ht => landWrite_bytesOk ht) _ _ hs

theorem passWord_bytesOk {s : State} {e} (hs : s.BytesOk) : (passWord s e).BytesOk := setEng_bytesOk hs

theorem passPair_bytesOk {s : State} {e} (hs : s.BytesOk) : (passPair s e).BytesOk := setEng_bytesOk hs

theorem strandStop_bytesOk {s : State} {info afterTrap} (hs : s.BytesOk) : (strandStop s info afterTrap).BytesOk := by
  unfold strandStop
  split
  · split <;> exact hs
  · split <;> split <;> exact hs

theorem raise_bytesOk {s : State} {e t} (hs : s.BytesOk) : (raise s e t).BytesOk := strandStop_bytesOk hs

theorem raiseAsync_bytesOk {s : State} {e pc code op0} (hs : s.BytesOk) : (raiseAsync s e pc code op0).BytesOk :=
  strandStop_bytesOk hs

theorem stall_bytesOk {s : State} {e k} (hs : s.BytesOk) : (stall s e k).BytesOk := setEng_bytesOk hs

theorem clearWait_bytesOk {s : State} {e} (hs : s.BytesOk) : (clearWait s e).BytesOk := setEng_bytesOk hs

theorem conclude_bytesOk {s : State} {e} {r : Res} (hs : s.BytesOk) (hr : ResOk r) : NextOk (conclude s e r) := by
  unfold conclude
  split
  · exact clearWait_bytesOk hr
  · exact stall_bytesOk hr
  · exact raise_bytesOk hs

theorem resumeStrand_bytesOk {s : State} (hs : s.BytesOk) : (resumeStrand s).BytesOk := by
  unfold resumeStrand
  split
  · exact hs
  · extract_lets g ctl again _ _ s1
    have hs1 : s1.BytesOk := hs
    split
    · exact hs1
    · exact strandStop_bytesOk hs1

theorem ctlResult_bytesOk {s : State} {e n v} (hs : s.BytesOk) : (ctlResult s e n v).BytesOk := by
  unfold ctlResult
  split
  · exact hs
  · split
    · exact addOp_bytesOk hs
    · exact putA_bytesOk hs

theorem concludeRead_bytesOk {s : State} {e shadow} {r : Res} (hs : s.BytesOk) (hr : ResOk r) :
    NextOk (concludeRead s e shadow r) := by
  unfold concludeRead
  split
  · split
    · exact raise_bytesOk hs
    · exact conclude_bytesOk hs hr
  · exact conclude_bytesOk hs hr

theorem issueControl_bytesOk {s : State} {legal srcs} {body : Engine → Res} (hs : s.BytesOk) (hbody : ∀ x, ResOk (body x)) :
    NextOk (issueControl s legal srcs body) := by
  unfold issueControl
  extract_lets e
  split
  · exact raise_bytesOk hs
  · split
    · exact stall_bytesOk hs
    · exact concludeRead_bytesOk hs (hbody _)
    · exact conclude_bytesOk hs (hbody _)

theorem controlWrite_bytesOk {s : State} {legal dst srcs value} (hs : s.BytesOk) :
    NextOk (controlWrite s legal dst srcs value) :=
  issueControl_bytesOk hs (fun _ => passWord_bytesOk (ctlResult_bytesOk hs))

theorem queuePush_bytesOk {s : State} {e qu qd ct first} (hs : s.BytesOk) : (queuePush s e qu qd ct first).BytesOk := by
  unfold queuePush
  split
  · exact setEng_bytesOk hs
  · exact hs

theorem issued_bytesOk {s0 s : State} {e h} (hs : s.BytesOk) : (issued s0 s e h).BytesOk :=
  queuePush_bytesOk (popTokens_bytesOk hs)

theorem privateEnd_bytesOk {s : State} {e h tag shadow} {r : Res} (hs : s.BytesOk) (hr : ResOk r) :
    NextOk (issuePrivate.privateEnd s e h tag shadow r) := by
  unfold issuePrivate.privateEnd
  split
  · split
    · exact raise_bytesOk hs
    · exact clearWait_bytesOk (issued_bytesOk hr)
  · exact stall_bytesOk hr
  · exact raise_bytesOk hs

theorem issuePrivate_bytesOk {s : State} {e h tag legal reads need} {body : State → Res} (hs : s.BytesOk)
    (hbody : ∀ t, t.BytesOk → ResOk (body t)) : NextOk (issuePrivate s e h tag legal reads need body) := by
  unfold issuePrivate
  split
  · exact raise_bytesOk hs
  · split
    · exact stall_bytesOk hs
    · split
      · exact stall_bytesOk hs
      · split
        · exact stall_bytesOk hs
        · exact privateEnd_bytesOk hs (hbody _ hs)
        · exact privateEnd_bytesOk hs (hbody _ hs)

theorem makePush_bytesOk {s : State} {e p} (hs : s.BytesOk) : (makePush s e p).BytesOk := by
  unfold makePush
  extract_lets s1 s2 s3
  have hs1 : s1.BytesOk := bytesOk_ite (tokSet_bytesOk hs) hs
  have hs2 : s2.BytesOk := bytesOk_ite (tokSet_bytesOk hs1) hs1
  have hs3 : s3.BytesOk := bytesOk_ite (tokSet_bytesOk hs2) hs2
  exact setEng_bytesOk hs3

theorem dropPush_bytesOk {s : State} {e id} (hs : s.BytesOk) : (dropPush s e id).BytesOk := setEng_bytesOk hs

/-! ### Sys2Proof/Machine/Flits.lean -/

theorem setPort_bytesOk {s : State} {p x} (hs : s.BytesOk) : (setPort s p x).BytesOk := hs

theorem pump_bytesOk {s : State} (hs : s.BytesOk) : (pump s).BytesOk := hs

theorem sendOut_bytesOk {s : State} {l} (hs : s.BytesOk) : (sendOut s l).BytesOk := pump_bytesOk hs

theorem mootFlits_bytesOk {s : State} {ty m pkgs} (hs : s.BytesOk) : (mootFlits s ty m pkgs).BytesOk := by
  unfold mootFlits
  split
  · exact hs
  · exact sendOut_bytesOk hs

theorem engineFlits_bytesOk {s : State} {e acc keys} (hs : s.BytesOk) : (engineFlits s e acc keys).BytesOk :=
  hostRequests_bytesOk (podRequests_bytesOk hs _ _ _ _) _ _ _

theorem requestFlits_bytesOk {s : State} {e acc keys} (hs : s.BytesOk) : (requestFlits s e acc keys).BytesOk :=
  hostRequests_bytesOk (podRequests_bytesOk hs _ _ _ _) _ _ _

theorem stampWaiting_bytesOk {s : State} (hs : s.BytesOk) : (stampWaiting s).BytesOk := hs

theorem failAccess_bytesOk {s : State} {o} (hs : s.BytesOk) : (failAccess s o).BytesOk := by
  unfold failAccess
  extract_lets op0
  split
  · exact hs
  · split
    · split
      · exact updateOp_bytesOk hs
      · exact hs
    · split
      · exact raiseAsync_bytesOk hs
      · exact hs

theorem failRequests_bytesOk {s : State} {gone} (hs : s.BytesOk) : (failRequests s gone).BytesOk :=
  foldl_keeps State.BytesOk _ (fun _ _ ht => failAccess_bytesOk ht) _ _ hs

/-! ### Sys2Proof/Machine/Strand.lean -/

theorem report_bytesOk {s : State} {r} (hs : s.BytesOk) : (report s r).BytesOk := hs

theorem post_bytesOk {s : State} {i} (hs : s.BytesOk) : (post s i).BytesOk := hs

theorem setCtx_bytesOk {s : State} {c} (hs : s.BytesOk) : (setCtx s c).BytesOk := hs

theorem setDisp_bytesOk {s : State} {d} (hs : s.BytesOk) : (setDisp s d).BytesOk := hs

theorem loadPlane_bytesOk {s : State} (hs : s.BytesOk) : (loadPlane s).BytesOk := hs

theorem tlbInsert_bytesOk {s : State} {part vpn l} (hs : s.BytesOk) : (tlbInsert s part vpn l).BytesOk := hs

theorem holdMiss_bytesOk {s : State} {part vpn} (hs : s.BytesOk) : (holdMiss s part vpn).BytesOk := by
  unfold holdMiss
  split
  · exact hs
  · exact report_bytesOk hs

theorem quietWalk_bytesOk {part} : ∀ (l : List Nat) {s : State}, s.BytesOk → (quietWalk s part l).BytesOk
  | [], _, hs => hs
  | v :: r, s, hs => by
    unfold quietWalk
    split
    · exact quietWalk_bytesOk r hs
    · split
      · rename_i e
        have k := bytesOk_fst (pageWalkOf_bytesOk hs _ _) e
        exact quietWalk_bytesOk r k
      · rename_i e
        exact quietWalk_bytesOk r (bytesOk_fst (pageWalkOf_bytesOk hs _ _) e)

theorem useAbort_bytesOk {s : State} {part v} (hs : s.BytesOk) : (useAbort s part v).BytesOk := hs

theorem dispRead_bytesOk {s : State} {part va n} (hs : s.BytesOk) : DReadOk (dispRead s part va n) := by
  unfold dispRead
  split
  · exact hs
  · split
    · rename_i e
      have k := bytesOk_fst (walkPages_bytesOk _ _ hs) e
      split
      · exact useAbort_bytesOk k
      · exact k
    · rename_i e
      have k := bytesOk_fst (walkPages_bytesOk _ _ hs) e
      split
      · extract_lets pas s1 a
        have hs1 : s1.BytesOk := homePrep_bytesOk (hostRequests_bytesOk k _ _ _) _
        have ha : a.1.BytesOk := noteAliasRead_bytesOk hs1 _ _
        split <;> exact ha
      · exact k
      · exact k

theorem commonsWrite_bytesOk {s : State} {l} (hs : s.BytesOk) : (commonsWrite s l).BytesOk := rawWrite_bytesOk hs _

theorem setWq_bytesOk {s : State} {q w} (hs : s.BytesOk) : (setWq s q w).BytesOk := setDisp_bytesOk hs

theorem setPart_bytesOk {s : State} {p x} (hs : s.BytesOk) : (setPart s p x).BytesOk := setDisp_bytesOk hs

theorem updPipe_bytesOk {s : State} {id f} (hs : s.BytesOk) : (updPipe s id f).BytesOk := setDisp_bytesOk hs

theorem writeItem_bytesOk {s : State} {part place dw} (hs : s.BytesOk) : (writeItem s part place dw).BytesOk :=
  commonsWrite_bytesOk hs

theorem drr_bytesOk {lvl} : ∀ (fuel : Nat) {s : State}, s.BytesOk → (drr s lvl fuel).1.BytesOk
  | 0, _, hs => hs
  | fuel + 1, s, hs => by
    unfold drr
    split
    · exact hs
    · extract_lets rotate _ s1
      split
      · exact drr_bytesOk fuel hs
      · split
        · exact drr_bytesOk fuel hs
        · split
          · exact drr_bytesOk fuel hs
          · split <;> exact hs

theorem chooseWork_bytesOk {s : State} (hs : s.BytesOk) : (chooseWork s).1.BytesOk := by
  unfold chooseWork
  split
  · exact hs
  · extract_lets rule5
    have hrule5 : rule5.1.BytesOk := drr_bytesOk _ hs
    split
    · exact hrule5
    · split
      · exact hrule5
      · split
        · exact updPipe_bytesOk hs
        · exact hrule5

theorem takeItem_bytesOk {s : State} {id st} (hs : s.BytesOk) : (takeItem s id st).BytesOk := by
  unfold takeItem
  split
  · exact hs
  · split
    · exact hs
    · extract_lets dw s1 _ s2
      have hs1 : s1.BytesOk := updPipe_bytesOk hs
      have hs2 : s2.BytesOk := setDisp_bytesOk hs1
      refine post_bytesOk ?_
      split
      · exact post_bytesOk hs2
      · exact hs2

theorem yieldOut_bytesOk {s : State} (hs : s.BytesOk) : (yieldOut s).BytesOk := by
  unfold yieldOut
  split
  · exact hs
  · split
    · exact setDisp_bytesOk hs
    · exact hs

theorem chooseItem_bytesOk {s : State} (hs : s.BytesOk) : (chooseItem s).BytesOk := by
  unfold chooseItem
  split
  · extract_lets p
    split
    · exact hs
    · split
      · next e => exact takeItem_bytesOk (bytesOk_fst (chooseWork_bytesOk hs) e)
      · next e => exact setCtx_bytesOk (bytesOk_fst (chooseWork_bytesOk hs) e)
  · extract_lets p
    split
    · exact hs
    · split
      · next e => exact takeItem_bytesOk (bytesOk_fst (chooseWork_bytesOk hs) e)
      · next e => exact setCtx_bytesOk (bytesOk_fst (chooseWork_bytesOk hs) e)
  · exact hs

theorem selectWork_bytesOk {s : State} (hs : s.BytesOk) : (selectWork s).BytesOk := yieldOut_bytesOk (chooseItem_bytesOk hs)

theorem postEnds_bytesOk {s : State} (hs : s.BytesOk) : (postEnds s).BytesOk := by
  unfold postEnds
  refine foldl_keeps State.BytesOk _ ?_ _ _ hs
  intro a b ht
  split
  · exact post_bytesOk ht
  · exact ht

theorem noteStatus_bytesOk {s : State} {inst status} (hs : s.BytesOk) : (noteStatus s inst status).BytesOk := by
  unfold noteStatus
  split
  · exact hs
  · exact updPipe_bytesOk hs

theorem endItem_bytesOk {s : State} {status} (hs : s.BytesOk) : (endItem s status).BytesOk :=
  selectWork_bytesOk (postEnds_bytesOk (setEng_bytesOk (setCtx_bytesOk (noteStatus_bytesOk (releaseActions_bytesOk hs _)))))

theorem setHandle_bytesOk {s : State} {i h} (hs : s.BytesOk) : (setHandle s i h).BytesOk := hs

theorem residentText_bytesOk {s : State} {ovl hdr bytes} (hs : s.BytesOk) : (residentText s ovl hdr bytes).BytesOk :=
  setCtx_bytesOk (rawWrite_bytesOk (foldl_keeps State.BytesOk _ (fun _ _ ht => setHandle_bytesOk ht) _ _
    (foldl_keeps State.BytesOk _ (fun _ _ ht => setFull_bytesOk (setHandle_bytesOk ht)) _ _ hs)) _)

theorem launchUnits_bytesOk {s : State} (hs : s.BytesOk) : (launchUnits s).BytesOk := hs

theorem clearNets_bytesOk {s : State} (hs : s.BytesOk) : (clearNets s).BytesOk := by
  unfold clearNets
  exact bytesOk_of_eq hs rfl rfl rfl rfl

theorem restoreNets_bytesOk {s : State} {l} (hs : s.BytesOk) : (restoreNets s l).BytesOk := by
  unfold restoreNets clearNets
  exact bytesOk_of_eq hs rfl rfl rfl rfl

theorem startStrand_bytesOk {s : State} {a1 pc hdr it inst handler} (hs : s.BytesOk) :
    (startStrand s a1 pc hdr it inst handler).BytesOk :=
  launchUnits_bytesOk (clearNets_bytesOk (setCtx_bytesOk (loadPlane_bytesOk (cacheActions_bytesOk hs _))))

theorem launchFailed_bytesOk {s : State} {id} (hs : s.BytesOk) : (launchFailed s id).BytesOk := by
  unfold launchFailed
  extract_lets s1 s2 _ s3
  have hs1 : s1.BytesOk := by
    unfold s1
    split
    · exact report_bytesOk hs
    · exact hs
  have hs2 : s2.BytesOk := noteStatus_bytesOk hs1
  have hs3 : s3.BytesOk := setDisp_bytesOk hs2
  exact selectWork_bytesOk (postEnds_bytesOk (setCtx_bytesOk hs3))

theorem overlayRead_bytesOk {s : State} {part ovl hdr} (hs : s.BytesOk) : DReadOk (overlayRead s part ovl hdr) := by
  unfold overlayRead
  split <;> exact dispRead_bytesOk hs

theorem placeOverlay_bytesOk {s : State} {ovl hdr bytes} (hs : s.BytesOk) : (placeOverlay s ovl hdr bytes).BytesOk := by
  unfold placeOverlay
  extract_lets img s1 c s2
  have hs1 : s1.BytesOk := bytesOk_ite hs (residentText_bytesOk hs)
  have hs2 : s2.BytesOk := rawWrite_bytesOk hs1 _
  exact setFull_bytesOk hs2

theorem quotaStop_bytesOk {s : State} (hs : s.BytesOk) : (quotaStop s).BytesOk := strandStop_bytesOk hs

theorem launchStrand_bytesOk {s : State} (hs : s.BytesOk) : (launchStrand s).BytesOk := by
  unfold launchStrand
  split
  · exact hs
  · split
    · exact setDisp_bytesOk hs
    · extract_lets g hdr
      split
      · exact hs
      · split
        · next e => exact setDisp_bytesOk ((overlayRead_bytesOk hs).of_eq e)
        · next e => exact launchFailed_bytesOk ((overlayRead_bytesOk hs).of_eq e)
        · rename_i e
          have k := (overlayRead_bytesOk hs).of_eq e
          extract_lets s1 _ s2 s3
          have hs1 : s1.BytesOk := placeOverlay_bytesOk k
          have hs2 : s2.BytesOk := setDisp_bytesOk hs1
          have hs3 : s3.BytesOk := startStrand_bytesOk hs2
          split
          · exact quotaStop_bytesOk hs3
          · exact hs3

theorem readHeaders_bytesOk {part} : ∀ (l acc : List Stage) {s : State}, s.BytesOk → ParsedOk (readHeaders s part l acc)
  | [], _, _, hs => hs
  | g :: r, acc, s, hs => by
    have k := dispRead_bytesOk (part := part) (va := g.ovl.toNat) (n := 64) hs
    unfold readHeaders
    split
    · next e => exact k.of_eq e
    · next e => exact k.of_eq e
    · rename_i e
      split
      · exact k.of_eq e
      · exact readHeaders_bytesOk r _ (k.of_eq e)

theorem readDesc_bytesOk {s : State} {part va} (hs : s.BytesOk) : ParsedOk (readDesc s part va) := by
  unfold readDesc
  split
  · exact hs
  · split
    · next e => exact (dispRead_bytesOk hs).of_eq e
    · next e => exact (dispRead_bytesOk hs).of_eq e
    · rename_i e
      have k := (dispRead_bytesOk hs).of_eq e
      extract_lets d rest n weight
      split
      · exact k
      · split
        · next e1 => exact (dispRead_bytesOk k).of_eq e1
        · next e1 => exact (dispRead_bytesOk k).of_eq e1
        · rename_i e1
          have k1 := (dispRead_bytesOk k).of_eq e1
          extract_lets gs
          split
          · exact k1
          · split
            · next e2 => exact (readHeaders_bytesOk _ _ k1).of_eq e2
            · next e2 => exact (readHeaders_bytesOk _ _ k1).of_eq e2
            · next e2 => exact (readHeaders_bytesOk _ _ k1).of_eq e2

theorem copyImages_bytesOk {part} : ∀ (l : List Stage) {s : State}, s.BytesOk → ParsedOk (copyImages s part l)
  | [], _, hs => hs
  | g :: r, s, hs => by
    unfold copyImages
    extract_lets p die
    split
    · exact hs
    · split
      · next e => exact (dispRead_bytesOk hs).of_eq e
      · next e => exact (dispRead_bytesOk hs).of_eq e
      · next e => exact copyImages_bytesOk r (commonsWrite_bytesOk ((dispRead_bytesOk hs).of_eq e))

theorem storeDone_bytesOk {s : State} {d} (hs : s.BytesOk) : (storeDone s d).BytesOk := by
  unfold storeDone
  split
  · exact hs
  · split
    · next e => exact bytesOk_fst (dispWrite_bytesOk hs _ _ _) e
    · next e => exact setDisp_bytesOk (bytesOk_fst (dispWrite_bytesOk hs _ _ _) e)
    · next e => exact report_bytesOk (setWq_bytesOk (bytesOk_fst (dispWrite_bytesOk hs _ _ _) e))

theorem refuseEntry_bytesOk {s : State} {q reason done} (hs : s.BytesOk) : (refuseEntry s q reason done).BytesOk :=
  storeDone_bytesOk (report_bytesOk (setWq_bytesOk hs))

theorem generateItems_bytesOk {id} : ∀ (fuel : Nat) {s : State}, s.BytesOk → (generateItems s id fuel).BytesOk
  | 0, _, hs => hs
  | fuel + 1, s, hs => by
    unfold generateItems
    split
    · exact hs
    · split
      · exact hs
      · extract_lets dw it
        exact generateItems_bytesOk fuel (updPipe_bytesOk (writeItem_bytesOk hs))

theorem admitEntry_bytesOk {s : State} {q slot b} (hs : s.BytesOk) : (admitEntry s q slot b).BytesOk := by
  unfold admitEntry
  extract_lets w at8 ctl nitems pin done pins inRing
  split
  · next e => exact setWq_bytesOk ((readDesc_bytesOk hs).of_eq e)
  · next e => exact refuseEntry_bytesOk ((readDesc_bytesOk hs).of_eq e)
  · rename_i e
    have k := (readDesc_bytesOk hs).of_eq e
    split
    · exact refuseEntry_bytesOk k
    · split
      · exact refuseEntry_bytesOk k
      · split
        · exact refuseEntry_bytesOk k
        · split
          · exact refuseEntry_bytesOk k
          · split
            · next e1 => exact setWq_bytesOk ((copyImages_bytesOk _ k).of_eq e1)
            · next e1 => exact refuseEntry_bytesOk ((copyImages_bytesOk _ k).of_eq e1)
            · next e1 => exact generateItems_bytesOk _ (setWq_bytesOk (setDisp_bytesOk ((copyImages_bytesOk _ k).of_eq e1)))

theorem examine_bytesOk {q} : ∀ (fuel : Nat) {s : State}, s.BytesOk → (examine s q fuel).BytesOk
  | 0, _, hs => hs
  | fuel + 1, s, hs => by
    unfold examine
    extract_lets w slot
    split
    · exact hs
    · split
      · next e => exact (dispRead_bytesOk hs).of_eq e
      · next e => exact examine_bytesOk fuel (refuseEntry_bytesOk ((dispRead_bytesOk hs).of_eq e))
      · rename_i e
        have k := (dispRead_bytesOk hs).of_eq e
        split
        · exact k
        · split
          · next e1 => exact (dispRead_bytesOk k).of_eq e1
          · next e1 => exact examine_bytesOk fuel (refuseEntry_bytesOk ((dispRead_bytesOk k).of_eq e1))
          · rename_i e1
            have k1 := (dispRead_bytesOk k).of_eq e1
            extract_lets t
            split
            · exact admitEntry_bytesOk k1
            · exact examine_bytesOk fuel (admitEntry_bytesOk k1)

theorem examineQueue_bytesOk {s : State} {q} (hs : s.BytesOk) : (examineQueue s q).BytesOk :=
  selectWork_bytesOk (examine_bytesOk _ hs)

theorem writeTail_bytesOk {s : State} {q v} (hs : s.BytesOk) : (writeTail s q v).BytesOk :=
  examineQueue_bytesOk (setWq_bytesOk hs)

/-! ### Sys2Proof/Machine/Control.lean -/

theorem intOp_bytesOk {s : State} {ad aa ab f} (hs : s.BytesOk) : NextOk (intOp ad aa ab f s) := controlWrite_bytesOk hs

theorem immOp_bytesOk {s : State} {ad aa y f} (hs : s.BytesOk) : NextOk (immOp ad aa y f s) := controlWrite_bytesOk hs

theorem mulOp_bytesOk {s : State} {ad aa ab f} (hs : s.BytesOk) : NextOk (mulOp ad aa ab f s) := by
  unfold mulOp
  refine issueControl_bytesOk hs fun _ => ?_
  extract_lets s'
  have hs' : s'.BytesOk := bytesOk_ite hs (addOp_bytesOk hs)
  exact passWord_bytesOk hs'

theorem execAdd_bytesOk {s : State} {ad aa ab} (hs : s.BytesOk) : NextOk (execAdd ad aa ab s) := intOp_bytesOk hs

theorem execSub_bytesOk {s : State} {ad aa ab} (hs : s.BytesOk) : NextOk (execSub ad aa ab s) := intOp_bytesOk hs

theorem execAnd_bytesOk {s : State} {ad aa ab} (hs : s.BytesOk) : NextOk (execAnd ad aa ab s) := intOp_bytesOk hs

theorem execOr_bytesOk {s : State} {ad aa ab} (hs : s.BytesOk) : NextOk (execOr ad aa ab s) := intOp_bytesOk hs

theorem execXor_bytesOk {s : State} {ad aa ab} (hs : s.BytesOk) : NextOk (execXor ad aa ab s) := intOp_bytesOk hs

theorem execSll_bytesOk {s : State} {ad aa ab} (hs : s.BytesOk) : NextOk (execSll ad aa ab s) := intOp_bytesOk hs

theorem execSrl_bytesOk {s : State} {ad aa ab} (hs : s.BytesOk) : NextOk (execSrl ad aa ab s) := intOp_bytesOk hs

theorem execSra_bytesOk {s : State} {ad aa ab} (hs : s.BytesOk) : NextOk (execSra ad aa ab s) := intOp_bytesOk hs

theorem execSlt_bytesOk {s : State} {ad aa ab} (hs : s.BytesOk) : NextOk (execSlt ad aa ab s) := intOp_bytesOk hs

theorem execSltu_bytesOk {s : State} {ad aa ab} (hs : s.BytesOk) : NextOk (execSltu ad aa ab s) := intOp_bytesOk hs

theorem execMin_bytesOk {s : State} {ad aa ab} (hs : s.BytesOk) : NextOk (execMin ad aa ab s) := intOp_bytesOk hs

theorem execMax_bytesOk {s : State} {ad aa ab} (hs : s.BytesOk) : NextOk (execMax ad aa ab s) := intOp_bytesOk hs

theorem execMul_bytesOk {s : State} {ad aa ab} (hs : s.BytesOk) : NextOk (execMul ad aa ab s) := mulOp_bytesOk hs

theorem execMulh_bytesOk {s : State} {ad aa ab} (hs : s.BytesOk) : NextOk (execMulh ad aa ab s) := mulOp_bytesOk hs

theorem execAddi_bytesOk {s : State} {ad aa imm} (hs : s.BytesOk) : NextOk (execAddi ad aa imm s) := immOp_bytesOk hs

theorem execAndi_bytesOk {s : State} {ad aa imm} (hs : s.BytesOk) : NextOk (execAndi ad aa imm s) := immOp_bytesOk hs

theorem execOri_bytesOk {s : State} {ad aa imm} (hs : s.BytesOk) : NextOk (execOri ad aa imm s) := immOp_bytesOk hs

theorem execXori_bytesOk {s : State} {ad aa imm} (hs : s.BytesOk) : NextOk (execXori ad aa imm s) := immOp_bytesOk hs

theorem execSlti_bytesOk {s : State} {ad aa imm} (hs : s.BytesOk) : NextOk (execSlti ad aa imm s) := immOp_bytesOk hs

theorem execSlli_bytesOk {s : State} {ad aa sh} (hs : s.BytesOk) : NextOk (execSlli ad aa sh s) := immOp_bytesOk hs

theorem execSrli_bytesOk {s : State} {ad aa sh} (hs : s.BytesOk) : NextOk (execSrli ad aa sh s) := immOp_bytesOk hs

theorem execSrai_bytesOk {s : State} {ad aa sh} (hs : s.BytesOk) : NextOk (execSrai ad aa sh s) := immOp_bytesOk hs

theorem execLui_bytesOk {s : State} {ad imm} (hs : s.BytesOk) : NextOk (execLui ad imm s) := controlWrite_bytesOk hs

theorem execLhi_bytesOk {s : State} {ad imm} (hs : s.BytesOk) : NextOk (execLhi ad imm s) := controlWrite_bytesOk hs

theorem execAuipc_bytesOk {s : State} {ad imm} (hs : s.BytesOk) : NextOk (execAuipc ad imm s) := controlWrite_bytesOk hs

theorem jumpTo_bytesOk {s : State} {e target} (hs : s.BytesOk) : (jumpTo s e target).BytesOk := setEng_bytesOk hs

theorem branchOp_bytesOk {s : State} {aa ab disp c} (hs : s.BytesOk) : NextOk (branchOp aa ab disp c s) := by
  unfold branchOp
  refine issueControl_bytesOk hs fun _ => ?_
  split
  · exact jumpTo_bytesOk hs
  · exact passWord_bytesOk hs

theorem execBEq_bytesOk {s : State} {aa ab disp} (hs : s.BytesOk) : NextOk (execBEq aa ab disp s) := branchOp_bytesOk hs

theorem execBNe_bytesOk {s : State} {aa ab disp} (hs : s.BytesOk) : NextOk (execBNe aa ab disp s) := branchOp_bytesOk hs

theorem execBLt_bytesOk {s : State} {aa ab disp} (hs : s.BytesOk) : NextOk (execBLt aa ab disp s) := branchOp_bytesOk hs

theorem execBGe_bytesOk {s : State} {aa ab disp} (hs : s.BytesOk) : NextOk (execBGe aa ab disp s) := branchOp_bytesOk hs

theorem execBLtu_bytesOk {s : State} {aa ab disp} (hs : s.BytesOk) : NextOk (execBLtu aa ab disp s) := branchOp_bytesOk hs

theorem execBGeu_bytesOk {s : State} {aa ab disp} (hs : s.BytesOk) : NextOk (execBGeu aa ab disp s) := branchOp_bytesOk hs

theorem execJ_bytesOk {s : State} {disp} (hs : s.BytesOk) : NextOk (execJ disp s) :=
  issueControl_bytesOk hs (fun _ => jumpTo_bytesOk hs)

theorem execJal_bytesOk {s : State} {disp} (hs : s.BytesOk) : NextOk (execJal disp s) :=
  issueControl_bytesOk hs (fun _ => jumpTo_bytesOk (ctlResult_bytesOk hs))

theorem execJr_bytesOk {s : State} {aa imm} (hs : s.BytesOk) : NextOk (execJr aa imm s) := by
  unfold execJr
  refine issueControl_bytesOk hs fun _ => ?_
  extract_lets t
  split
  · trivial
  · exact jumpTo_bytesOk hs

theorem skipBody_bytesOk {s : State} {e stop} (hs : s.BytesOk) : (skipBody s e stop).BytesOk := setEng_bytesOk hs

theorem execLoop_bytesOk {s : State} {aa len cnt} (hs : s.BytesOk) : NextOk (execLoop aa len cnt s) := by
  unfold execLoop
  refine issueControl_bytesOk hs fun _ => ?_
  extract_lets x1 start stop n
  split
  · exact skipBody_bytesOk hs
  · split
    · trivial
    · exact setEng_bytesOk hs

theorem execLoopm_bytesOk {s : State} {aa len ii sc} (hs : s.BytesOk) : NextOk (execLoopm aa len ii sc s) := by
  unfold execLoopm
  refine issueControl_bytesOk hs fun _ => ?_
  extract_lets x1 start stop n
  split
  · exact skipBody_bytesOk hs
  · exact setEng_bytesOk hs

theorem execLoopmPass_bytesOk {s : State} {e} (hs : s.BytesOk) : NextOk (execLoopmPass e s) := by
  unfold execLoopmPass
  split
  · exact hs
  · split
    · exact hs
    · extract_lets _ s1
      have hs1 : s1.BytesOk := setEng_bytesOk hs
      split
      · exact setCtx_bytesOk hs1
      · exact hs1

theorem execStage_bytesOk {s : State} (hs : s.BytesOk) : NextOk (execStage s) := by
  unfold execStage
  split
  · exact raise_bytesOk hs
  · exact issueControl_bytesOk hs (fun _ => passWord_bytesOk (setEng_bytesOk hs))

theorem putBf_bytesOk {s : State} {e bf v} (hs : s.BytesOk) : (putBf s e bf v).BytesOk := setEng_bytesOk hs

theorem execBfclr_bytesOk {s : State} {bf} (hs : s.BytesOk) : NextOk (execBfclr bf s) :=
  issueControl_bytesOk hs (fun _ => passWord_bytesOk (putBf_bytesOk hs))

theorem bfWrite_bytesOk {s : State} {bf fld aa imm accum} (hs : s.BytesOk) : NextOk (bfWrite bf fld aa imm accum s) := by
  unfold bfWrite
  refine issueControl_bytesOk hs fun _ => ?_
  split
  · exact hs
  · exact passWord_bytesOk (putBf_bytesOk hs)

theorem execBfset_bytesOk {s : State} {bf fld aa imm} (hs : s.BytesOk) : NextOk (execBfset bf fld aa imm s) :=
  bfWrite_bytesOk hs

theorem execBfadd_bytesOk {s : State} {bf fld aa imm} (hs : s.BytesOk) : NextOk (execBfadd bf fld aa imm s) :=
  bfWrite_bytesOk hs

theorem execBfget_bytesOk {s : State} {bf fld aa} (hs : s.BytesOk) : NextOk (execBfget bf fld aa s) := controlWrite_bytesOk hs

theorem execBfmov_bytesOk {s : State} {bf src} (hs : s.BytesOk) : NextOk (execBfmov bf src s) :=
  issueControl_bytesOk hs (fun _ => passWord_bytesOk (putBf_bytesOk hs))

theorem execTwait_bytesOk {s : State} {mask sel n} (hs : s.BytesOk) : NextOk (execTwait mask sel n s) := by
  unfold execTwait
  refine issueControl_bytesOk hs fun _ => ?_
  split
  · exact passWord_bytesOk hs
  · extract_lets c
    split
    · exact hs
    · exact passWord_bytesOk (tokSet_bytesOk hs)

theorem leavePhase_bytesOk {s : State} (hs : s.BytesOk) : (leavePhase s).BytesOk :=
  foldl_keeps State.BytesOk _ (fun _ _ ht => setEng_bytesOk ht) _ _ (foldl_keeps State.BytesOk _ (fun _ _ ht =>
    setEng_bytesOk ht) _ _ hs)

theorem execPhase_bytesOk {s : State} (hs : s.BytesOk) : NextOk (execPhase s) := by
  unfold execPhase
  refine issueControl_bytesOk hs fun _ => ?_
  extract_lets _ s1
  have hs1 : s1.BytesOk := setEng_bytesOk hs
  split
  · exact hs1
  · split
    · trivial
    · exact leavePhase_bytesOk hs1

theorem execSlipw_bytesOk {s : State} {aa imm} (hs : s.BytesOk) : NextOk (execSlipw aa imm s) := by
  unfold execSlipw
  refine issueControl_bytesOk hs fun _ => ?_
  extract_lets _ s'
  have hs' : s'.BytesOk := bytesOk_ite (setCtx_bytesOk hs) hs
  exact passWord_bytesOk hs'

theorem execNop_bytesOk {s : State} (hs : s.BytesOk) : NextOk (execNop s) :=
  issueControl_bytesOk hs (fun _ => passWord_bytesOk hs)

theorem haltThresher_bytesOk {s : State} (hs : s.BytesOk) : (haltThresher s).BytesOk := setEng_bytesOk (setCtx_bytesOk hs)

theorem execEndText_bytesOk {s : State} (hs : s.BytesOk) : NextOk (execEndText s) := by
  unfold execEndText
  refine issueControl_bytesOk hs fun _ => ?_
  split
  · extract_lets _ s1
    have hs1 : s1.BytesOk := setEng_bytesOk hs
    split
    · exact hs1
    · exact setCtx_bytesOk hs1
  · split
    · exact hs
    · split
      · split
        · exact endItem_bytesOk hs
        · exact hs
      · exact endItem_bytesOk (haltThresher_bytesOk hs)
  · exact setEng_bytesOk hs

/-! ### Sys2Proof/Machine/Fetch.lean -/

theorem squash_bytesOk {s : State} {e i control} (hs : s.BytesOk) : SlotOk (squash s e i control) := by
  unfold squash
  split
  · split
    · exact passWord_bytesOk hs
    · exact passPair_bytesOk hs
  · exact raise_bytesOk hs

theorem foreign_bytesOk {s : State} {e i} (hs : s.BytesOk) : SlotOk (foreign s e i) := by
  unfold foreign
  split
  · exact passPair_bytesOk hs
  · exact passPair_bytesOk hs
  · split
    · exact raise_bytesOk hs
    · split
      · split
        · exact hs
        · trivial
      · exact passPair_bytesOk hs
  · exact setEng_bytesOk hs
  · exact passPair_bytesOk hs

theorem reach_bytesOk {s : State} {e w} (hs : s.BytesOk) : SlotOk (reach s e w) := by
  unfold reach
  extract_lets x kept
  split
  · split
    · exact hs
    · split
      · trivial
      · split
        · exact raise_bytesOk hs
        · split
          · exact squash_bytesOk hs
          · trivial
  · split
    · split
      · exact hs
      · trivial
    · split
      · exact raise_bytesOk hs
      · split
        · exact raise_bytesOk hs
        · split
          · exact foreign_bytesOk hs
          · split
            · exact hs
            · split
              · trivial
              · split
                · exact raise_bytesOk hs
                · split
                  · exact squash_bytesOk hs
                  · split
                    · trivial
                    · split
                      · exact stall_bytesOk hs
                      · trivial

theorem slipStop_bytesOk {s : State} {e} (hs : s.BytesOk) : (slipStop s e).BytesOk := by
  unfold slipStop
  split
  · split
    · exact setEng_bytesOk hs
    · exact hs
  · exact hs

theorem slotWalk_bytesOk {s : State} {e x} (hs : s.BytesOk) : SlotOk (slot.walk s e x) := by
  unfold slot.walk
  split
  · exact raise_bytesOk hs
  · exact reach_bytesOk hs

theorem slot_bytesOk {s : State} {e} (hs : s.BytesOk) : SlotOk (slot s e) := by
  unfold slot
  extract_lets x
  split
  · exact hs
  · split
    · exact slipStop_bytesOk hs
    · split
      · split
        · exact hs
        · trivial
      · split
        · split
          · split
            · trivial
            · exact hs
          · exact slotWalk_bytesOk hs
        · exact slotWalk_bytesOk hs

theorem advance_bytesOk {s : State} {e} (hs : s.BytesOk) : (advance s e).BytesOk := hs

theorem execReservedEncoding_bytesOk {s : State} (w0 w1 : Word32) (hs : s.BytesOk) : NextOk (execReservedEncoding w0 w1 s) := by
  unfold execReservedEncoding
  extract_lets e
  split
  · exact raise_bytesOk hs
  · split
    · exact raise_bytesOk hs
    · exact raise_bytesOk hs

/-! ### Sys2Proof/Machine/Steward.lean -/

theorem loadBody_bytesOk {s : State} {e r o n zext useScope fe acq ad} (hs : s.BytesOk) :
    ResOk (loadBody e r o n zext useScope fe acq ad s) := by
  unfold loadBody
  split
  · trivial
  · exact hs
  · exact addVarOp_bytesOk hs _ _ _
  · extract_lets gs scope t v s1 bad
    have ht : t.1.BytesOk := readState_bytesOk (requestFlits_bytesOk hs) _ _ _
    have hs1 : s1.BytesOk := bytesOk_ite (setFull_bytesOk ht) ht
    split
    · exact hs
    · exact withAccess_bytesOk (addVarOp_bytesOk hs1 _ _ _)

theorem storeBody_bytesOk {s : State} {e r o n useScope fe rel v} (hs : s.BytesOk) :
    ResOk (storeBody e r o n useScope fe rel v s) := by
  unfold storeBody
  split
  · trivial
  · exact hs
  · exact hs
  · extract_lets gs write
    have hwrite : ∀ t x, t.BytesOk → (write t x).BytesOk := by
      unfold write
      intro t x ht
      exact setFull_bytesOk (releaseWrite_bytesOk (requestFlits_bytesOk ht) _ _ _ _)
    split
    · exact hs
    · split
      · exact hwrite _ _ hs
      · split
        · next e1 => exact bytesOk_fst (releasePrep_bytesOk hs _ _) e1
        · next e1 => exact hwrite _ _ (bytesOk_fst (releasePrep_bytesOk hs _ _) e1)

theorem execLd_bytesOk {s : State} {h fe sd scope ord zext size ad bf aa imm} (hs : s.BytesOk) :
    NextOk (execLd h fe sd scope ord zext size ad bf aa imm s) :=
  issuePrivate_bytesOk hs (fun _ ht => loadBody_bytesOk ht)

theorem execSt_bytesOk {s : State} {h fe sd scope ord zext size src bf aa imm} (hs : s.BytesOk) :
    NextOk (execSt h fe sd scope ord zext size src bf aa imm s) :=
  issuePrivate_bytesOk hs (fun _ ht => storeBody_bytesOk ht)

theorem execLdf_bytesOk {s : State} {h ad bf aa imm} (hs : s.BytesOk) : NextOk (execLdf h ad bf aa imm s) := by
  unfold execLdf
  refine issuePrivate_bytesOk hs fun _ ht => ?_
  split
  · trivial
  · extract_lets n gs v
    split
    · trivial
    · exact withAccess_bytesOk (addVarOp_bytesOk ht _ _ _)

theorem execStf_bytesOk {s : State} {h full ab bf aa imm} (hs : s.BytesOk) : NextOk (execStf h full ab bf aa imm s) := by
  unfold execStf
  refine issuePrivate_bytesOk hs fun _ ht => ?_
  extract_lets n
  split
  · trivial
  · split
    · exact ht
    · split
      · trivial
      · split
        · exact setFull_bytesOk ht
        · split
          · next e => exact bytesOk_fst (releasePrep_bytesOk ht _ _) e
          · next e => exact setFull_bytesOk (bytesOk_fst (releasePrep_bytesOk ht _ _) e)

theorem reserveIndex_bytesOk {s : State} {q count} (hs : s.BytesOk) : (reserveIndex s q count).2.BytesOk := setWq_bytesOk hs

theorem performAtomic_bytesOk {s : State} {q} (hs : s.BytesOk) : (performAtomic s q).2.BytesOk := by
  unfold performAtomic
  split
  · exact reserveIndex_bytesOk hs
  · extract_lets n s1 old bytes t
    have hs1 : s1.BytesOk := homePrep_bytesOk hs _
    have ht : t.BytesOk := by
      unfold t
      split
      · exact hs1
      · split
        · exact homeWriteVia_bytesOk hs1 _ _
        · exact rawWrite_bytesOk hs1 _
    dsimp only
    exact ht

theorem applyAtomic_bytesOk {s : State} {q} (hs : s.BytesOk) : (applyAtomic s q).2.BytesOk := by
  unfold applyAtomic
  split
  · exact hs
  · exact performAtomic_bytesOk hs

theorem noteStep_bytesOk {s : State} {e key old} (hs : s.BytesOk) : (noteStep s e key old).BytesOk := hs

theorem sendAtomic_bytesOk {s : State} {e key kind} (hs : s.BytesOk) : (sendAtomic s e key kind).2.BytesOk :=
  applyAtomic_bytesOk hs

theorem execAtom_bytesOk {s : State} {h fe sd scope ord zext size ad bf aa ab op imm} (hs : s.BytesOk) :
    NextOk (execAtom h fe sd scope ord zext size ad bf aa ab op imm s) := by
  unfold execAtom
  refine issuePrivate_bytesOk hs fun _ ht => ?_
  extract_lets r o n a acq ready s1
  have hready : ready.1.BytesOk := by
    unfold ready
    split
    · exact releasePrep_bytesOk ht _ _
    · exact ht
  have hs1 : s1.BytesOk := hready
  split
  · trivial
  · split
    · trivial
    · split
      · trivial
      · exact ht
      · exact addVarOp_bytesOk ht _ _ _
      · extract_lets key bad t1
        have ht1 : t1.2.BytesOk := sendAtomic_bytesOk (requestFlits_bytesOk hs1)
        split
        · split
          · trivial
          · split
            · exact hready
            · exact addVarOp_bytesOk ht1 _ _ _
        · split
          · trivial
          · split
            · exact hready
            · exact addVarOp_bytesOk ht1 _ _ _

theorem execAtomicRequest_bytesOk {s : State} {req} (hs : s.BytesOk) : NextOk (execAtomicRequest req s) :=
  applyAtomic_bytesOk hs

theorem execFence_bytesOk {s : State} {h scope ord} (hs : s.BytesOk) : NextOk (execFence h scope ord s) := by
  unfold execFence
  refine issuePrivate_bytesOk hs fun _ ht => ?_
  split
  · exact ht
  · extract_lets ready
    have hready : ready.1.BytesOk := by
      unfold ready
      split
      · exact releasePrep_bytesOk ht _ _
      · exact ht
    split
    · exact hready
    · split
      · exact cacheActions_bytesOk hready _
      · exact hready

theorem setNet_bytesOk {s : State} {i n} (hs : s.BytesOk) : (setNet s i n).BytesOk := hs

theorem netWait_bytesOk {s : State} {e scope bid} (hs : s.BytesOk) : ResOk (netWait s e scope bid) := by
  unfold netWait
  extract_lets n
  split
  · exact cacheActions_bytesOk hs _
  · split
    · trivial
    · split
      · exact cacheActions_bytesOk hs _
      · exact hs

theorem netArrive_bytesOk {s : State} {e scope bid count} (hs : s.BytesOk) : (netArrive s e scope bid count).1.BytesOk := by
  unfold netArrive
  extract_lets i
  split
  · exact hs
  · split
    · next e1 => exact bytesOk_fst (releasePrep_bytesOk hs _ _) e1
    · next e1 => exact setNet_bytesOk (bytesOk_fst (releasePrep_bytesOk hs _ _) e1)

theorem arriveBody_bytesOk {s : State} {e scope bid count} (hs : s.BytesOk) : ResOk (arriveBody e scope bid count s) := by
  unfold arriveBody
  split
  · next e1 => exact bytesOk_fst (netArrive_bytesOk hs) e1
  · next e1 => exact bytesOk_fst (netArrive_bytesOk hs) e1

theorem arriveWaitBody_bytesOk {s : State} {e scope bid count} (hs : s.BytesOk) :
    ResOk (arriveWaitBody e scope bid count s) := by
  unfold arriveWaitBody
  split
  · exact netWait_bytesOk hs
  · split
    · next e1 => exact bytesOk_fst (netArrive_bytesOk hs) e1
    · next e1 => exact netWait_bytesOk (setEng_bytesOk (bytesOk_fst (netArrive_bytesOk hs) e1))

theorem execBara_bytesOk {s : State} {h scope ad aa ab bid} (hs : s.BytesOk) : NextOk (execBara h scope ad aa ab bid s) :=
  issuePrivate_bytesOk hs (fun _ ht => arriveBody_bytesOk ht)

theorem execBarw_bytesOk {s : State} {h scope ad ab bid} (hs : s.BytesOk) : NextOk (execBarw h scope ad ab bid s) :=
  issuePrivate_bytesOk hs (fun _ ht => netWait_bytesOk ht)

theorem execBars_bytesOk {s : State} {h scope ad aa ab bid} (hs : s.BytesOk) : NextOk (execBars h scope ad aa ab bid s) :=
  issuePrivate_bytesOk hs (fun _ ht => arriveWaitBody_bytesOk ht)

theorem execHgive_bytesOk {s : State} {h aa ab imm} (hs : s.BytesOk) : NextOk (execHgive h aa ab imm s) := by
  unfold execHgive
  refine issuePrivate_bytesOk hs fun _ ht => ?_
  extract_lets d g me dest
  split
  · trivial
  · split
    · trivial
    · split
      · exact ht
      · split
        · next e => exact bytesOk_fst (releasePrep_bytesOk ht _ _) e
        · next e => exact setHandle_bytesOk (bytesOk_fst (releasePrep_bytesOk ht _ _) e)

theorem execHtake_bytesOk {s : State} {h ad aa imm} (hs : s.BytesOk) : NextOk (execHtake h ad aa imm s) := by
  unfold execHtake
  refine issuePrivate_bytesOk hs fun t ht => ?_
  extract_lets d me take
  have htake : ∀ t x, t.BytesOk → ResOk (take t x) := by
    unfold take
    intro t' x ht'
    exact addVarOp_bytesOk (cacheActions_bytesOk (setHandle_bytesOk ht') _) _ _ _
  split
  · split
    · trivial
    · split
      · exact addVarOp_bytesOk (cacheActions_bytesOk (setHandle_bytesOk ht) _) _ _ _
      · exact ht
  · split
    · trivial
    · split
      · split
        · exact addVarOp_bytesOk (cacheActions_bytesOk (setHandle_bytesOk ht) _) _ _ _
        · exact ht
      · exact ht

theorem execHqry_bytesOk {s : State} {h ad aa imm} (hs : s.BytesOk) : NextOk (execHqry h ad aa imm s) := by
  unfold execHqry
  refine issuePrivate_bytesOk hs fun _ ht => ?_
  extract_lets d
  split
  · trivial
  · exact addVarOp_bytesOk ht _ _ _

theorem setAbcQueue_bytesOk {s : State} {e q} (hs : s.BytesOk) : (setAbcQueue s e q).BytesOk := by
  unfold setAbcQueue
  split
  · exact setCtx_bytesOk hs
  · exact setCtx_bytesOk hs
  · exact setCtx_bytesOk hs
  · exact hs

theorem execAbc_bytesOk {s : State} {h ad aa} (hs : s.BytesOk) : NextOk (execAbc h ad aa s) := by
  unfold execAbc
  refine issuePrivate_bytesOk hs fun _ ht => ?_
  extract_lets full v
  split
  · exact ht
  · exact ctlResult_bytesOk (foldl_keeps State.BytesOk _ (fun _ _ hu => setAbcQueue_bytesOk hu) _ _ ht)

theorem execAbcReceive_bytesOk {s : State} {dst} (hs : s.BytesOk) : NextOk (execAbcReceive dst s) := by
  unfold execAbcReceive
  extract_lets e
  split
  · exact stall_bytesOk hs
  · exact clearWait_bytesOk (passPair_bytesOk (ctlResult_bytesOk (setAbcQueue_bytesOk hs)))

theorem execFoot_bytesOk {s : State} {h eng aa imm} (hs : s.BytesOk) : NextOk (execFoot h eng aa imm s) := by
  unfold execFoot
  refine issuePrivate_bytesOk hs fun _ ht => ?_
  extract_lets a b e
  split
  · trivial
  · split
    · trivial
    · split
      · trivial
      · split
        · trivial
        · exact setEng_bytesOk ht

theorem execBellr_bytesOk {s : State} {h ad} (hs : s.BytesOk) : NextOk (execBellr h ad s) :=
  issuePrivate_bytesOk hs (fun _ ht => addVarOp_bytesOk ht _ _ _)

theorem execTtok_bytesOk {s : State} {h n} (hs : s.BytesOk) : NextOk (execTtok h n s) :=
  issuePrivate_bytesOk hs (fun _ ht => queuePush_bytesOk ht)

theorem execTstart_bytesOk {s : State} {h aa ab entry} (hs : s.BytesOk) : NextOk (execTstart h aa ab entry s) := by
  unfold execTstart
  refine issuePrivate_bytesOk hs fun _ ht => ?_
  extract_lets src len b lat _ s1 s2 c s3 s4
  have hs1 : s1.BytesOk := setCtx_bytesOk ht
  have hs2 : s2.BytesOk := tokSet_bytesOk (tokSet_bytesOk hs1)
  have hs3 : s3.BytesOk := setEng_bytesOk hs2
  have hs4 : s4.BytesOk := setEng_bytesOk hs3
  split
  · trivial
  · split
    · trivial
    · exact withAccess_bytesOk (addOp_bytesOk hs4)

theorem execTrap_bytesOk {s : State} {h imm} (hs : s.BytesOk) : NextOk (execTrap h imm s) :=
  issuePrivate_bytesOk hs (fun _ _ => trivial)

theorem execTaskend_bytesOk {s : State} {h aa} (hs : s.BytesOk) : NextOk (execTaskend h aa s) := by
  unfold execTaskend
  refine issuePrivate_bytesOk hs fun _ ht => ?_
  split
  · exact ht
  · extract_lets s1
    have hs1 : s1.BytesOk := bytesOk_ite ht (haltThresher_bytesOk ht)
    exact endItem_bytesOk hs1

/-! ### Sys2Proof/Machine/Elements.lean -/

theorem vecRead_bytesOk {s : State} {cache ls} (hs : s.BytesOk) : (vecRead s cache ls).1.BytesOk :=
  fetchLines_bytesOk (readPrep_bytesOk (engineFlits_bytesOk hs) _ _) _ _ _

/-! ### Sys2Proof/Machine/Collector.lean -/

theorem readySpans_bytesOk {s : State} {r write l aborted} (hs : s.BytesOk) : ReadyOk (readySpans s r write l aborted) := by
  unfold readySpans
  extract_lets pages
  split
  · next e => exact bytesOk_fst (walkPages_bytesOk _ _ hs) e
  · rename_i e
    have k := bytesOk_fst (walkPages_bytesOk _ _ hs) e
    split
    · exact k
    · split
      · exact k
      · exact k
      · split
        · exact k
        · exact k
        · extract_lets s1
          have hs1 : s1.BytesOk := engineFlits_bytesOk k
          split
          · exact readPrep_bytesOk hs1 _ _
          · exact hs1

/-! ### Sys2Proof/Machine/Matrix.lean -/

theorem setMx_bytesOk {s : State} {m} (hs : s.BytesOk) : (setMx s m).BytesOk := hs

theorem setMxCtx_bytesOk {s : State} {m} (hs : s.BytesOk) : (setMxCtx s m).BytesOk := setCtx_bytesOk hs

theorem onPaths_bytesOk {s : State} {f} (hs : s.BytesOk) : (onPaths s f).BytesOk := setMx_bytesOk hs

theorem updJournal_bytesOk {s : State} {t f} (hs : s.BytesOk) : (updJournal s t f).BytesOk := setMx_bytesOk hs

theorem addMx_bytesOk {s : State} {lat fromReady ws a} (hs : s.BytesOk) : (addMx s lat fromReady ws a).BytesOk :=
  addOp_bytesOk hs

theorem addMxOn_bytesOk {s : State} {lat fromReady a touches} (hs : s.BytesOk) : (addMxOn s lat fromReady a touches).BytesOk :=
  withAccess_bytesOk (addMx_bytesOk hs)

theorem mxPrivate_bytesOk {s : State} {h reads g} {body : State → State} (hs : s.BytesOk)
    (hbody : ∀ t, t.BytesOk → (body t).BytesOk) : NextOk (mxPrivate s h reads g body) := by
  unfold mxPrivate
  refine issuePrivate_bytesOk hs fun _ ht => ?_
  split
  · trivial
  · split
    · exact ht
    · trivial
    · split
      · exact ht
      · exact hbody _ ht

theorem missed_bytesOk {s : State} {stamp} (hs : s.BytesOk) : NextOk (missed s stamp) := raise_bytesOk (setMx_bytesOk hs)

theorem mxStamped_bytesOk {s : State} {h reads g} {body : State → State} (hs : s.BytesOk)
    (hbody : ∀ t, t.BytesOk → (body t).BytesOk) : NextOk (mxStamped s h reads g body) := by
  unfold mxStamped
  split
  · exact raise_bytesOk (setMx_bytesOk hs)
  · split
    · exact stall_bytesOk hs
    · extract_lets stamp _ s1
      have hs1 : s1.BytesOk := setMx_bytesOk hs
      split
      · exact stall_bytesOk (setMx_bytesOk hs)
      · split
        · exact missed_bytesOk hs
        · split
          · exact missed_bytesOk hs
          · split
            · exact raise_bytesOk (setMx_bytesOk hs)
            · split
              · exact missed_bytesOk hs
              · exact clearWait_bytesOk (issued_bytesOk (hbody _ hs1))

theorem mxIssue_bytesOk {s : State} {st h reads g} {body : State → State} (hs : s.BytesOk)
    (hbody : ∀ t, t.BytesOk → (body t).BytesOk) : NextOk (mxIssue st h reads g body s) := by
  unfold mxIssue
  split
  · exact mxStamped_bytesOk hs (fun _ ht => hbody _ ht)
  · exact mxPrivate_bytesOk hs (fun _ ht => hbody _ ht)

theorem feAcquire_bytesOk {s : State} {fe r} (hs : s.BytesOk) : (feAcquire s fe r).BytesOk := by
  unfold feAcquire
  split
  · exact cacheActions_bytesOk hs _
  · exact hs

theorem fetchIssue_bytesOk {s : State} {fe r spans} (hs : s.BytesOk) : (fetchIssue s fe r spans).BytesOk :=
  quietWalk_bytesOk _ (feAcquire_bytesOk hs)

theorem setShadow_bytesOk {s : State} {f} (hs : s.BytesOk) : (setShadow s f).BytesOk := onPaths_bytesOk hs

theorem execMload_bytesOk {s : State} {h st fe tr pfmt cb bf aa ab ac} (hs : s.BytesOk) :
    NextOk (execMload h st fe tr pfmt cb bf aa ab ac s) :=
  mxIssue_bytesOk hs (fun _ ht => addMxOn_bytesOk (fetchIssue_bytesOk (setShadow_bytesOk ht)))

theorem logEcc_bytesOk {s : State} {kind x} (hs : s.BytesOk) : (logEcc s kind x).BytesOk := by
  unfold logEcc
  split
  · exact hs
  · exact setMxCtx_bytesOk hs

theorem putShadows_bytesOk {s : State} {m q} (hs : s.BytesOk) : (putShadows s m q).BytesOk := setMx_bytesOk hs

theorem faultAsync_bytesOk {s : State} {e pc x} (hs : s.BytesOk) : (faultAsync s e pc x).BytesOk := by
  unfold faultAsync
  split
  · exact hs
  · exact raiseAsync_bytesOk hs

theorem withOperand_bytesOk {s : State} {op r spans} {k : State → Option (Code × BitVec 64) → State} (hs : s.BytesOk)
    (hk : ∀ t x, t.BytesOk → (k t x).BytesOk) : (withOperand s op r spans k).BytesOk := by
  unfold withOperand
  split
  · next e => exact updateOp_bytesOk ((readySpans_bytesOk hs).of_eq e)
  · next e => exact retryOp_bytesOk ((readySpans_bytesOk hs).of_eq e)
  · next e => exact hk _ _ ((readySpans_bytesOk hs).of_eq e)

theorem emptyAfter_bytesOk {s : State} {fe r spans} (hs : s.BytesOk) : (emptyAfter s fe r spans).BytesOk := by
  unfold emptyAfter
  split
  · exact setFull_bytesOk hs
  · exact hs

theorem execMloadFillComplete_bytesOk {s : State} {id} (hs : s.BytesOk) : NextOk (execMloadFillComplete id s) := by
  unfold execMloadFillComplete
  split
  · split
    · exact withOperand_bytesOk hs (fun _ _ ht => faultAsync_bytesOk (removeOp_bytesOk (emptyAfter_bytesOk (logEcc_bytesOk
        (putShadows_bytesOk ht)))))
    · exact hs
  · exact hs

theorem execMflip_bytesOk {s : State} {h st} (hs : s.BytesOk) : NextOk (execMflip h st s) :=
  mxIssue_bytesOk hs (fun _ ht => addOp_bytesOk ht)

theorem execMflipTakesEffect_bytesOk {s : State} {id} (hs : s.BytesOk) : NextOk (execMflipTakesEffect id s) := by
  unfold execMflipTakesEffect
  split
  · split
    · exact removeOp_bytesOk (onPaths_bytesOk hs)
    · exact hs
  · exact hs

theorem execMdrop_bytesOk {s : State} {h} (hs : s.BytesOk) : NextOk (execMdrop h s) :=
  mxPrivate_bytesOk hs (fun _ ht => addMx_bytesOk (setShadow_bytesOk ht))

theorem execMstream_bytesOk {s : State} {h st fe acc zd pfmt cb bf aa ab ac am m1} (hs : s.BytesOk) :
    NextOk (execMstream h st fe acc zd pfmt cb bf aa ab ac am m1 s) :=
  mxIssue_bytesOk hs (fun _ ht => setMx_bytesOk (addMxOn_bytesOk (fetchIssue_bytesOk ht)))

theorem joinMxFlags_bytesOk {s : State} {f} (hs : s.BytesOk) : (joinMxFlags s f).BytesOk := setMxCtx_bytesOk hs

theorem execMstreamComplete_bytesOk {s : State} {id} (hs : s.BytesOk) : NextOk (execMstreamComplete id s) := by
  unfold execMstreamComplete
  split
  · split
    · exact withOperand_bytesOk hs (fun _ _ ht => faultAsync_bytesOk (removeOp_bytesOk (emptyAfter_bytesOk (logEcc_bytesOk
        (joinMxFlags_bytesOk (updJournal_bytesOk (setMx_bytesOk ht)))))))
    · exact hs
  · exact hs

theorem tileOp_bytesOk {s : State} {h legal zs lat a} (hs : s.BytesOk) : NextOk (tileOp s h legal zs lat a) :=
  mxPrivate_bytesOk hs (fun _ ht => addMx_bytesOk ht)

theorem execMzero_bytesOk {s : State} {h zd} (hs : s.BytesOk) : NextOk (execMzero h zd s) := tileOp_bytesOk hs

theorem execMwin_bytesOk {s : State} {h zd w} (hs : s.BytesOk) : NextOk (execMwin h zd w s) := tileOp_bytesOk hs

theorem execMcopy_bytesOk {s : State} {h zd za} (hs : s.BytesOk) : NextOk (execMcopy h zd za s) := tileOp_bytesOk hs

theorem execMadd_bytesOk {s : State} {h zd za} (hs : s.BytesOk) : NextOk (execMadd h zd za s) := tileOp_bytesOk hs

theorem execMgetz_bytesOk {s : State} {h zd q hi ad aa} (hs : s.BytesOk) : NextOk (execMgetz h zd q hi ad aa s) :=
  mxPrivate_bytesOk hs (fun _ ht => addMx_bytesOk ht)

theorem execMdrain_bytesOk {s : State} {h st clr grad zd rm bf aa ab ac am} (hs : s.BytesOk) :
    NextOk (execMdrain h st clr grad zd rm bf aa ab ac am s) :=
  mxIssue_bytesOk hs (fun _ ht => setMxCtx_bytesOk (setMx_bytesOk (addMxOn_bytesOk ht)))

theorem passSample_bytesOk {strand} : ∀ (l : List PEntry) {s : State}, s.BytesOk → (passSample s strand l).BytesOk
  | [], s, hs => by
    unfold passSample
    split <;> exact hs
  | e :: rest, s, hs => by
    unfold passSample
    split
    · split
      · exact passSample_bytesOk rest hs
      · exact hs
    · exact passSample_bytesOk rest hs

theorem giveSignatures_bytesOk {s : State} {id m q} (hs : s.BytesOk) : (giveSignatures s id m q).BytesOk := hs

theorem execTileSignatureFormed_bytesOk {s : State} {id} (hs : s.BytesOk) : NextOk (execTileSignatureFormed id s) := by
  unfold execTileSignatureFormed
  split
  · split
    · exact hs
    · extract_lets d cm cq bm bq bm' bq' seed j passes e' _ t t1 later _ t2 t3 t4
      have ht : t.BytesOk := setMx_bytesOk hs
      have ht1 : t1.BytesOk := bytesOk_ite (updJournal_bytesOk (onPaths_bytesOk ht)) ht
      have ht2 : t2.BytesOk := setMxCtx_bytesOk ht1
      have ht3 : t3.BytesOk := giveSignatures_bytesOk ht2
      have ht4 : t4.BytesOk := bytesOk_ite (passSample_bytesOk _ ht3) ht3
      exact updateOp_bytesOk ht4
  · exact hs

theorem execMsigr_bytesOk {s : State} {h ad ab} (hs : s.BytesOk) : NextOk (execMsigr h ad ab s) :=
  mxPrivate_bytesOk hs (fun _ ht => addMx_bytesOk ht)

theorem execMsync_bytesOk {s : State} {h} (hs : s.BytesOk) : NextOk (execMsync h s) := mxPrivate_bytesOk hs (fun _ ht => ht)

theorem execMcb_bytesOk {s : State} {h fe cbn n256 bf aa} (hs : s.BytesOk) : NextOk (execMcb h fe cbn n256 bf aa s) :=
  mxPrivate_bytesOk hs (fun _ ht => addMxOn_bytesOk (fetchIssue_bytesOk ht))

theorem landCb_bytesOk {s : State} {op n d fe} (hs : s.BytesOk) : (landCb s op n d fe).BytesOk :=
  withOperand_bytesOk hs (fun _ _ ht => faultAsync_bytesOk (removeOp_bytesOk (emptyAfter_bytesOk (logEcc_bytesOk
    (setCtx_bytesOk ht)))))

theorem execMstat_bytesOk {s : State} {h clr ad} (hs : s.BytesOk) : NextOk (execMstat h clr ad s) :=
  mxPrivate_bytesOk hs (fun _ ht => addMx_bytesOk ht)

theorem commitRecord_bytesOk {s : State} {r f g runs} (hs : s.BytesOk) : (commitRecord s r f g runs).1.BytesOk := by
  unfold commitRecord
  extract_lets w q t spans u
  have ht : t.1.BytesOk := writeCodes_bytesOk hs _ _ _
  have hu : u.BytesOk := bytesOk_ite (releaseActions_bytesOk ht _) ht
  exact bytesOk_of_eq (setFull_bytesOk hu) rfl rfl rfl rfl

theorem commitWrites_bytesOk {s : State} {e} (hs : s.BytesOk) : (commitWrites s e).1.BytesOk := by
  unfold commitWrites
  extract_lets d r f g bytes runs t u
  have ht : t.1.BytesOk := commitRecord_bytesOk hs
  have hu : u.1.BytesOk := commitRecord_bytesOk ht
  split
  · exact hu
  · exact ht

/-! ### Sys2Proof/Machine/Sower.lean -/

theorem setSow_bytesOk {s : State} {f} (hs : s.BytesOk) : (setSow s f).BytesOk := setMx_bytesOk hs

theorem execMpert_bytesOk {s : State} {h aa ab ac} (hs : s.BytesOk) : NextOk (execMpert h aa ab ac s) :=
  mxPrivate_bytesOk hs (fun _ ht => setSow_bytesOk ht)

theorem execMpoff_bytesOk {s : State} {h} (hs : s.BytesOk) : NextOk (execMpoff h s) :=
  mxPrivate_bytesOk hs (fun _ ht => setSow_bytesOk ht)

theorem execMpstep_bytesOk {s : State} {h ib imm} (hs : s.BytesOk) : NextOk (execMpstep h ib imm s) :=
  mxPrivate_bytesOk hs (fun _ ht => setSow_bytesOk ht)

theorem execMpsamp_bytesOk {s : State} {h q hh ad aa} (hs : s.BytesOk) : NextOk (execMpsamp h q hh ad aa s) :=
  mxPrivate_bytesOk hs (fun _ ht => addMx_bytesOk ht)

theorem execMpref_bytesOk {s : State} {h fe tr bf aa ab ac} (hs : s.BytesOk) : NextOk (execMpref h fe tr bf aa ab ac s) :=
  mxPrivate_bytesOk hs (fun _ ht => setMxCtx_bytesOk (addMxOn_bytesOk (fetchIssue_bytesOk ht)))

theorem landPref_bytesOk {s : State} {op d fe} (hs : s.BytesOk) : (landPref s op d fe).BytesOk :=
  withOperand_bytesOk hs (fun _ _ ht => faultAsync_bytesOk (removeOp_bytesOk (emptyAfter_bytesOk (logEcc_bytesOk
    (setMxCtx_bytesOk (onPaths_bytesOk ht))))))

/-! ### Sys2Proof/Machine/Reeve.lean -/

theorem reevePrep_bytesOk {s : State} {r l} (hs : s.BytesOk) : (reevePrep s r l).BytesOk := by
  unfold reevePrep
  split
  · exact hs
  · extract_lets s1
    have hs1 : s1.BytesOk := quietWalk_bytesOk _ hs
    split
    · exact readPrep_bytesOk (engineFlits_bytesOk hs1) _ _
    · exact hs1

theorem prepBook_bytesOk {s : State} {x} (hs : s.BytesOk) : (prepBook s x).BytesOk := by
  unfold prepBook
  split
  · exact reevePrep_bytesOk hs
  · exact hs

theorem prepSources_bytesOk {s : State} {steps ref} (hs : s.BytesOk) : (prepSources s steps ref).BytesOk := by
  unfold prepSources
  extract_lets s1
  have hs1 : s1.BytesOk := by
    unfold s1
    refine foldl_keeps State.BytesOk _ ?_ _ _ hs
    intro a b ht
    split
    · extract_lets s2
      have hs2 : s2.BytesOk := prepBook_bytesOk (reevePrep_bytesOk ht)
      split
      · exact prepBook_bytesOk (reevePrep_bytesOk hs2)
      · exact hs2
    · exact ht
  split
  · exact reevePrep_bytesOk hs1
  · exact hs1

theorem addHealth_bytesOk {s : State} {m q} (hs : s.BytesOk) : (addHealth s m q).1.BytesOk := setMx_bytesOk hs

theorem setMode_bytesOk {s : State} {m q} (hs : s.BytesOk) : (setMode s m q).BytesOk := setMx_bytesOk hs

theorem finishRequest_bytesOk {s : State} {e k v} (hs : s.BytesOk) : (finishRequest s e k v).BytesOk := by
  unfold finishRequest
  extract_lets op0 _ s1 sig _ s2 counts h s3 e' _ sample h1 s4 _ s5 s6
  have hs1 : s1.BytesOk := bytesOk_ite (setMx_bytesOk hs) hs
  have hs2 : s2.BytesOk := setMxCtx_bytesOk hs1
  have hh : h.1.BytesOk := addHealth_bytesOk hs2
  have hs3 : s3.BytesOk := hh
  have hh1 : h1.1.BytesOk := addHealth_bytesOk hs2
  have hs4 : s4.BytesOk := setMode_bytesOk hh1
  have hs5 : s5.BytesOk := setMx_bytesOk hs4
  have hs6 : s6.BytesOk := removeOp_bytesOk (dropPush_bytesOk hs5)
  split
  · exact setMx_bytesOk hs3
  · exact strandStop_bytesOk hs6

theorem serveRequest_bytesOk {s : State} {k} (hs : s.BytesOk) : (serveRequest s k).BytesOk := by
  unfold serveRequest
  split
  · split
    · exact finishRequest_bytesOk (prepSources_bytesOk hs)
    · exact hs
  · exact hs

theorem execReeveMismatch_bytesOk {s : State} (hs : s.BytesOk) : NextOk (execReeveMismatch s) := serveRequest_bytesOk hs

theorem execReeveSampledCheck_bytesOk {s : State} (hs : s.BytesOk) : NextOk (execReeveSampledCheck s) := serveRequest_bytesOk hs

theorem execReeveForcedCheck_bytesOk {s : State} (hs : s.BytesOk) : NextOk (execReeveForcedCheck s) := serveRequest_bytesOk hs

theorem logWrite_bytesOk {s : State} {addr bs} (hs : s.BytesOk) : SomeOk (logWrite s addr bs) := by
  unfold logWrite
  split
  · split
    · trivial
    · exact rawWrite_bytesOk hs _
  · split
    · trivial
    · extract_lets s1
      have hs1 : s1.BytesOk := quietWalk_bytesOk _ hs
      split
      · exact homeStore_bytesOk hs1 _ _
      · trivial

theorem postInfo_bytesOk {s : State} {e v} (hs : s.BytesOk) : (postInfo s e v).BytesOk := by
  unfold postInfo
  extract_lets m slot bytes
  split
  · exact setMxCtx_bytesOk hs
  · split
    · exact setMxCtx_bytesOk hs
    · next e1 => exact setCtx_bytesOk ((logWrite_bytesOk hs).of_eq e1)

theorem commitEntry_bytesOk {s : State} {e pc bad} (hs : s.BytesOk) : (commitEntry s e pc bad).BytesOk := by
  unfold commitEntry
  extract_lets bytes w s1 seed _ s2 s3 _ s4
  have hw : w.1.BytesOk := commitWrites_bytesOk hs
  have hs1 : s1.BytesOk := joinMxFlags_bytesOk hw
  have hs2 : s2.BytesOk := setMxCtx_bytesOk hs1
  have hs3 : s3.BytesOk := by
    unfold s3
    split
    · refine setMode_bytesOk ?_
      split
      · exact postInfo_bytesOk hs2
      · exact hs2
    · exact hs2
  have hs4 : s4.BytesOk := removeOp_bytesOk (setMx_bytesOk hs3)
  exact faultAsync_bytesOk hs4

theorem execPoundCommit_bytesOk {s : State} (hs : s.BytesOk) : NextOk (execPoundCommit s) := by
  unfold execPoundCommit
  split
  · exact hs
  · split
    · exact hs
    · extract_lets aborted pages
      split
      · next e => exact updateOp_bytesOk (bytesOk_fst (walkPages_bytesOk _ _ hs) e)
      · rename_i e
        have k := bytesOk_fst (walkPages_bytesOk _ _ hs) e
        split
        · exact retryOp_bytesOk k
        · exact commitEntry_bytesOk k

theorem execRstat_bytesOk {s : State} {h sel ad} (hs : s.BytesOk) : NextOk (execRstat h sel ad s) :=
  issuePrivate_bytesOk hs (fun _ ht => addMx_bytesOk ht)

theorem execRchk_bytesOk {s : State} {h aa} (hs : s.BytesOk) : NextOk (execRchk h aa s) :=
  mxPrivate_bytesOk hs (fun _ ht => setMxCtx_bytesOk ht)

theorem putReeveMode_bytesOk {s : State} {v} (hs : s.BytesOk) : (putReeveMode s v).BytesOk := setMxCtx_bytesOk hs

theorem execRmode_bytesOk {s : State} {h aa} (hs : s.BytesOk) : NextOk (execRmode h aa s) :=
  mxPrivate_bytesOk hs (fun _ ht => putReeveMode_bytesOk ht)

theorem execReeveModeWrite_bytesOk {s : State} {v} (hs : s.BytesOk) : NextOk (execReeveModeWrite v s) := by
  unfold execReeveModeWrite
  split
  · exact putReeveMode_bytesOk hs
  · exact hs

theorem execRinj_bytesOk {s : State} {h q aa ab} (hs : s.BytesOk) : NextOk (execRinj h q aa ab s) :=
  mxPrivate_bytesOk hs (fun _ ht => setMxCtx_bytesOk ht)

theorem landMx_bytesOk {s : State} {op a} (hs : s.BytesOk) : (landMx s op a).BytesOk := by
  unfold landMx
  extract_lets fin onTile _ p v
  have hfin : ∀ t, t.BytesOk → (fin t).BytesOk := by
    unfold fin
    intro t ht
    exact removeOp_bytesOk ht
  have honTile : ∀ x y, (onTile x y).BytesOk := by
    unfold onTile
    intro x y
    exact onPaths_bytesOk hs
  split
  · exact hfin _ (updJournal_bytesOk (honTile _ _))
  · exact hfin _ (setMx_bytesOk hs)
  · exact hfin _ (updJournal_bytesOk (honTile _ _))
  · exact hfin _ (joinMxFlags_bytesOk (updJournal_bytesOk (honTile _ _)))
  · exact hfin _ (putA_bytesOk hs)
  · exact hfin _ (putA_bytesOk (putA_bytesOk hs))
  · extract_lets s1
    have hs1 : s1.BytesOk := putA_bytesOk hs
    refine hfin _ ?_
    split
    · exact setMxCtx_bytesOk hs1
    · exact hs1
  · exact hfin _ (putA_bytesOk hs)
  · exact landCb_bytesOk hs
  · exact landPref_bytesOk hs
  · exact hfin _ (landWrites_bytesOk hs)
  · exact hfin _ hs
  · exact hs

theorem execStampedIssue_bytesOk {s : State} (hs : s.BytesOk) : NextOk (execStampedIssue s) := by
  unfold execStampedIssue
  extract_lets pc
  split
  · split
    · exact execMload_bytesOk hs
    · exact execMflip_bytesOk hs
    · exact execMstream_bytesOk hs
    · exact execMdrain_bytesOk hs
    · exact hs
  · exact hs

/-! ### Sys2Proof/Machine/Bte.lean -/

theorem copyStart_bytesOk {s : State} {c} (hs : s.BytesOk) : (copyStart s c).BytesOk := by
  unfold copyStart
  extract_lets s1 b id t t1
  have hs1 : s1.BytesOk := by
    unfold s1
    split
    · exact cacheActions_bytesOk hs _
    · exact hs
  have ht : t.BytesOk := addOp_bytesOk hs1
  have ht1 : t1.BytesOk := withAccess_bytesOk ht
  exact quietWalk_bytesOk _ (setCtx_bytesOk ht1)

theorem copyIssue_bytesOk {s : State} {h legal reads c} (hs : s.BytesOk) : NextOk (copyIssue s h legal reads c) := by
  unfold copyIssue
  refine issuePrivate_bytesOk hs fun _ ht => ?_
  split
  · trivial
  · split
    · exact ht
    · exact copyStart_bytesOk ht

theorem execBcopy_bytesOk {s : State} {h ac cr fe bfd bfs ad src an} (hs : s.BytesOk) :
    NextOk (execBcopy h ac cr fe bfd bfs ad src an s) :=
  copyIssue_bytesOk hs

theorem execBcopyS_bytesOk {s : State} {h ac cr fe bfd bfs ad src an ag} (hs : s.BytesOk) :
    NextOk (execBcopyS h ac cr fe bfd bfs ad src an ag s) :=
  copyIssue_bytesOk hs

theorem execBfill_bytesOk {s : State} {h ac cr bfd ad src an} (hs : s.BytesOk) : NextOk (execBfill h ac cr bfd ad src an s) :=
  copyIssue_bytesOk hs

theorem execBdedup_bytesOk {s : State} {h ac cr bft bfs slot src} (hs : s.BytesOk) :
    NextOk (execBdedup h ac cr bft bfs slot src s) :=
  copyIssue_bytesOk hs

theorem execBcow_bytesOk {s : State} {h ac cr bft bfs slot src ap} (hs : s.BytesOk) :
    NextOk (execBcow h ac cr bft bfs slot src ap s) :=
  copyIssue_bytesOk hs

theorem execBcmp_bytesOk {s : State} {h ac cr bft bfs slot src} (hs : s.BytesOk) :
    NextOk (execBcmp h ac cr bft bfs slot src s) :=
  copyIssue_bytesOk hs

theorem freeOrder_bytesOk {s : State} {α : Type} {l : List α} (hs : s.BytesOk) : (freeOrder s l).2.BytesOk := by
  unfold freeOrder
  refine foldl_keeps (fun a : List (Nat × α) × State => a.2.BytesOk) _ ?_ _ _ ?_
  · exact fun _ _ ht => ht
  · exact hs

theorem overlapValues_bytesOk {s : State} {c l} (hs : s.BytesOk) : (overlapValues s c l).2.BytesOk := by
  unfold overlapValues
  refine foldl_keeps (fun a : List (Item' × Nat) × State => a.2.BytesOk) _ ?_ _ _ ?_
  · exact fun _ _ ht => ht
  · exact freeOrder_bytesOk hs

theorem putItems_bytesOk {s : State} {c l} (hs : s.BytesOk) : (putItems s c l).BytesOk := by
  unfold putItems
  extract_lets vals v
  have hv : v.2.BytesOk := by
    unfold v
    split
    · exact overlapValues_bytesOk hs
    · exact hs
  exact writeCodes_bytesOk hv _ _ _

theorem freeKeep_bytesOk {s : State} {l} (hs : s.BytesOk) : (freeKeep s l).2.BytesOk := by
  unfold freeKeep
  refine foldl_keeps (fun a : List Item' × State => a.2.BytesOk) _ ?_ _ _ ?_
  · exact fun _ _ ht => ht
  · exact hs

theorem postRecord_bytesOk {s : State} {op c e} (hs : s.BytesOk) : (postRecord s op c e).1.BytesOk := by
  unfold postRecord
  split
  · exact hs
  · extract_lets r x bs _ _ t
    have ht : t.BytesOk := setCtx_bytesOk hs
    split
    · exact setCtx_bytesOk hs
    · split
      · exact setCtx_bytesOk hs
      · split
        · exact writeLocs_bytesOk (engineFlits_bytesOk ht) _ _ _
        · exact setCtx_bytesOk hs

theorem countArrival_bytesOk {s : State} {op ac bad} (hs : s.BytesOk) : (countArrival s op ac bad).BytesOk := by
  unfold countArrival
  split
  · exact setCtx_bytesOk hs
  · split <;> exact hs

theorem faultOf_bytesOk {s : State} {op f} (hs : s.BytesOk) : (faultOf s op f).BytesOk := by
  unfold faultOf
  split
  · exact hs
  · split
    · exact hs
    · exact raiseAsync_bytesOk hs

theorem endCopy_bytesOk {s : State} {op c e} (hs : s.BytesOk) : (endCopy s op c e).BytesOk := by
  unfold endCopy
  extract_lets s1 s2 s3 p s4
  have hs1 : s1.BytesOk := bytesOk_ite (releaseActions_bytesOk hs _) hs
  have hs2 : s2.BytesOk := setFull_bytesOk hs1
  have hs3 : s3.BytesOk := bytesOk_ite (setFull_bytesOk hs2) hs2
  have hp : p.1.BytesOk := postRecord_bytesOk hs3
  have hs4 : s4.BytesOk := countArrival_bytesOk hp
  exact faultOf_bytesOk (faultOf_bytesOk (removeOp_bytesOk hs4))

theorem refused_bytesOk {s : State} {op c} (hs : s.BytesOk) : (refused s op c).BytesOk := by
  unfold refused
  split
  · exact updateOp_bytesOk hs
  · exact endCopy_bytesOk hs

theorem failCopy_bytesOk {s : State} {op c items pos at_ code op0} (hs : s.BytesOk) :
    (failCopy s op c items pos at_ code op0).BytesOk :=
  endCopy_bytesOk (putItems_bytesOk (freeKeep_bytesOk hs))

theorem runCopy_bytesOk {s : State} {op c} (hs : s.BytesOk) : (runCopy s op c).BytesOk := by
  unfold runCopy
  extract_lets items fail t
  have ht : t.BytesOk := putItems_bytesOk hs
  split
  · split
    · exact refused_bytesOk hs
    · exact endCopy_bytesOk ht
  · exact failCopy_bytesOk hs
  · exact failCopy_bytesOk hs
  · split <;> exact failCopy_bytesOk hs

theorem andThen_bytesOk {α : Type} {β : Type} {g : Got α} {k : α → State → Got β} (hg : GotOk g)
    (hk : ∀ x t, t.BytesOk → GotOk (k x t)) : GotOk (Got.andThen g k) := by
  unfold Got.andThen
  split
  · exact hk _ _ hg
  · exact hg
  · exact hg
  · exact hg
  · exact hg

theorem gLocate_bytesOk {s : State} {aborted r x write ms} (hs : s.BytesOk) : GotOk (gLocate s aborted r x write ms) := by
  have hw : (if aborted.isEmpty then walkPages s s.ctx.part (spanPages r [x])
      else (quietWalk s s.ctx.part (spanPages r [x]), none)).1.BytesOk := by
    split
    · exact walkPages_bytesOk _ _ hs
    · exact quietWalk_bytesOk _ hs
  unfold gLocate
  split
  · exact hs
  · split
    · next e => exact bytesOk_fst hw e
    · rename_i e
      have k := bytesOk_fst hw e
      split
      · exact k
      · split
        · split
          · exact k
          · split
            · exact k
            · exact engineFlits_bytesOk k
        · exact k

theorem gRead_bytesOk {s : State} {aborted r x ms} (hs : s.BytesOk) : GotOk (gRead s aborted r x ms) := by
  unfold gRead
  refine andThen_bytesOk (gLocate_bytesOk hs) fun _ _ ht => ?_
  extract_lets s1
  have hs1 : s1.BytesOk := bytesOk_ite (readPrep_bytesOk ht _ _) ht
  exact hs1

theorem gWord_bytesOk {s : State} {aborted r a ms} (hs : s.BytesOk) : GotOk (gWord s aborted r a ms) := by
  unfold gWord
  refine andThen_bytesOk (gRead_bytesOk hs) fun _ _ ht => ?_
  split <;> exact ht

theorem gWrite_bytesOk {s : State} {aborted r a bs ms} (hs : s.BytesOk) : GotOk (gWrite s aborted r a bs ms) := by
  unfold gWrite
  refine andThen_bytesOk (gLocate_bytesOk hs) fun _ _ ht => ?_
  extract_lets t1
  have ht1 : t1.BytesOk := writeLocs_bytesOk ht _ _ _
  split <;> exact ht1

theorem gPut_bytesOk {s : State} {aborted r a v ms} (hs : s.BytesOk) : GotOk (gPut s aborted r a v ms) := gWrite_bytesOk hs

theorem stepDone_bytesOk {s : State} {a old} (hs : s.BytesOk) : (stepDone s a old).BytesOk := by
  unfold stepDone
  split
  · exact noteStep_bytesOk hs
  · exact hs

theorem tableAcquire_bytesOk {s : State} (hs : s.BytesOk) : (tableAcquire s).BytesOk := cacheActions_bytesOk hs _

theorem tableRelease_bytesOk {s : State} (hs : s.BytesOk) : (tableRelease s).BytesOk := releaseActions_bytesOk hs _

theorem putEntry_bytesOk {s : State} {ab a w} (hs : s.BytesOk) : GotOk (putEntry s ab a w) :=
  andThen_bytesOk (gPut_bytesOk hs) (fun _ _ ht => stepDone_bytesOk ht)

theorem popBlock_bytesOk {s : State} {ab c} (hs : s.BytesOk) : GotOk (popBlock s ab c) := by
  unfold popBlock
  extract_lets base
  refine andThen_bytesOk (gWord_bytesOk hs) fun _ _ ht => ?_
  split
  · exact stepDone_bytesOk ht
  · refine andThen_bytesOk (gRead_bytesOk ht) fun _ _ ht' => ?_
    split
    · exact ht'
    · exact andThen_bytesOk (gPut_bytesOk ht') (fun _ _ hu => stepDone_bytesOk hu)

theorem releaseClaim_bytesOk {c ab e id} {g : Got CopyEnd} (hg : GotOk g) : GotOk (releaseClaim c ab e id g) := by
  unfold releaseClaim
  split
  · extract_lets s
    have hs : s.BytesOk := by
      unfold s
      split
      · next e1 => exact (putEntry_bytesOk hg).of_eq e1
      · exact hg
    exact hs
  · exact hg

theorem writeSlot_bytesOk {s : State} {ab c w e} (hs : s.BytesOk) : GotOk (writeSlot s ab c w e) :=
  andThen_bytesOk (gPut_bytesOk hs) (fun _ _ ht => ht)

theorem dedupClaim_bytesOk {s : State} {ab c e buf} (hs : s.BytesOk) : GotOk (dedupClaim s ab c e buf) := by
  unfold dedupClaim
  split
  · rename_i e1
    have k := (popBlock_bytesOk hs).of_eq e1
    exact releaseClaim_bytesOk (andThen_bytesOk (putEntry_bytesOk k) (fun _ _ ht => ht))
  · rename_i e1
    have k := (popBlock_bytesOk hs).of_eq e1
    extract_lets aux
    split
    · exact releaseClaim_bytesOk (andThen_bytesOk (putEntry_bytesOk k) (fun _ _ ht => ht))
    · exact releaseClaim_bytesOk (andThen_bytesOk (gWrite_bytesOk k) (fun _ _ ht => andThen_bytesOk (putEntry_bytesOk
        (tableRelease_bytesOk ht)) (fun _ _ hu => hu)))
  · next e1 => exact (popBlock_bytesOk hs).of_eq e1
  · next e1 => exact (popBlock_bytesOk hs).of_eq e1
  · next e1 => exact releaseClaim_bytesOk ((popBlock_bytesOk hs).of_eq e1)
  · next e1 => exact (popBlock_bytesOk hs).of_eq e1

theorem dedupNew_bytesOk {s : State} {ab c e buf col} (hs : s.BytesOk) : GotOk (dedupNew s ab c e buf col) :=
  andThen_bytesOk (dedupClaim_bytesOk hs) (fun _ _ ht => writeSlot_bytesOk ht)

theorem dedupProbe_bytesOk {ab c fp buf} :
    ∀ (fuel p : Nat) (col : Bool) {s : State}, s.BytesOk → GotOk (dedupProbe ab c fp buf fuel p col s)
  | 0, _, _, _, hs => hs
  | fuel + 1, p, col, s, hs => by
    unfold dedupProbe
    extract_lets n e a
    refine andThen_bytesOk (gWord_bytesOk hs) fun _ _ h1 => ?_
    refine andThen_bytesOk (gWord_bytesOk h1) fun _ _ h2 => ?_
    refine andThen_bytesOk (gWord_bytesOk h2) fun _ _ h3 => ?_
    refine andThen_bytesOk (gWord_bytesOk h3) fun _ _ h4 => ?_
    extract_lets s1 state same blk
    generalize c.blockAt blk = block
    have hs1 : s1.BytesOk := stepDone_bytesOk (tableAcquire_bytesOk h4)
    split
    · exact andThen_bytesOk (gWrite_bytesOk hs1) fun _ _ h5 => dedupNew_bytesOk h5
    · split
      · exact hs1
      · split
        · refine andThen_bytesOk (gPut_bytesOk hs1) fun _ _ h5 => ?_
          refine andThen_bytesOk (gRead_bytesOk h5) fun _ _ h6 => ?_
          split
          · exact writeSlot_bytesOk h6
          · refine andThen_bytesOk (gPut_bytesOk (tableRelease_bytesOk h6)) fun _ _ h7 => ?_
            exact dedupProbe_bytesOk fuel _ _ (stepDone_bytesOk h7)
        · exact dedupProbe_bytesOk fuel _ _ hs1

theorem runDedup_bytesOk {s : State} {ab c} (hs : s.BytesOk) : GotOk (runDedup s ab c) := by
  unfold runDedup
  refine andThen_bytesOk (gWord_bytesOk hs) fun _ _ ht => ?_
  split
  · exact ht
  · refine andThen_bytesOk (gRead_bytesOk ht) fun _ _ ht' => ?_
    split
    · exact ht'
    · exact dedupProbe_bytesOk _ _ _ ht'

theorem openEnd_bytesOk {s : State} {e} (hs : s.BytesOk) : GotOk (openEnd s e) := drawFree_bytesOk hs

theorem stranded_bytesOk {id} {g : Got CopyEnd} (hg : GotOk g) : GotOk (stranded id g) := by
  unfold stranded
  split
  · exact openEnd_bytesOk hg
  · exact hg

theorem cowFresh_bytesOk {s : State} {ab c} {old : State → Got (List Byte × Option Nat)} {new} {after : State → Got Unit}
    (hs : s.BytesOk) (hold : ∀ t, t.BytesOk → GotOk (old t)) (hafter : ∀ t, t.BytesOk → GotOk (after t)) :
    GotOk (cowFresh s ab c old new after) := by
  unfold cowFresh
  refine andThen_bytesOk (popBlock_bytesOk hs) fun x _ ht => ?_
  split
  · exact openEnd_bytesOk ht
  · split
    · exact openEnd_bytesOk ht
    · refine stranded_bytesOk ?_
      refine andThen_bytesOk (hold _ ht) fun _ _ ht' => ?_
      split
      · exact ht'
      · exact andThen_bytesOk (gWrite_bytesOk ht') (fun _ _ hu => andThen_bytesOk (hafter _ hu) (fun _ _ hw =>
          writeSlot_bytesOk hw))

theorem runCow_bytesOk {s : State} {ab c} (hs : s.BytesOk) : GotOk (runCow s ab c) := by
  unfold runCow
  extract_lets n off
  refine andThen_bytesOk (gWord_bytesOk hs) fun _ _ h1 => ?_
  refine andThen_bytesOk (gRead_bytesOk h1) fun _ _ h2 => ?_
  split
  · exact openEnd_bytesOk h2
  · extract_lets blk e a
    generalize c.blockAt blk = block
    split
    · exact cowFresh_bytesOk h2 (fun _ hu => hu) (fun _ hu => hu)
    · split
      · exact andThen_bytesOk (gWrite_bytesOk h2) (fun _ _ hu => hu)
      · split
        · exact openEnd_bytesOk h2
        · refine andThen_bytesOk (gWord_bytesOk h2) fun _ _ h3 => ?_
          refine andThen_bytesOk (gWord_bytesOk h3) fun _ _ h4 => ?_
          extract_lets s1
          have hs1 : s1.BytesOk := stepDone_bytesOk (tableAcquire_bytesOk h4)
          split
          · exact openEnd_bytesOk hs1
          · split
            · refine andThen_bytesOk (gPut_bytesOk (tableRelease_bytesOk hs1)) fun _ _ h5 => ?_
              refine andThen_bytesOk (gPut_bytesOk h5) fun _ _ h6 => ?_
              exact andThen_bytesOk (gWrite_bytesOk h6) fun _ _ h7 => writeSlot_bytesOk h7
            · refine cowFresh_bytesOk hs1 (fun _ hu => gRead_bytesOk hu) fun _ hu => ?_
              exact andThen_bytesOk (gPut_bytesOk (tableRelease_bytesOk hu)) fun _ _ hw => stepDone_bytesOk hw

theorem runCmp_bytesOk {s : State} {ab c} (hs : s.BytesOk) : GotOk (runCmp s ab c) := by
  unfold runCmp
  refine andThen_bytesOk (gRead_bytesOk hs) fun _ _ ht => ?_
  refine andThen_bytesOk (gRead_bytesOk ht) fun _ _ ht' => ?_
  split
  · exact openEnd_bytesOk (drawFree_bytesOk ht')
  · split <;> exact ht'

theorem runTable_bytesOk {s : State} {op c} (hs : s.BytesOk) : (runTable s op c).BytesOk := by
  unfold runTable
  extract_lets g
  have hg : GotOk g := by
    unfold g
    split
    · exact runDedup_bytesOk hs
    · exact runCow_bytesOk hs
    · exact runCmp_bytesOk hs
  clear_value g
  cases g with
  | ok e t => exact endCopy_bytesOk hg
  | hold v t => exact updateOp_bytesOk hs
  | again p t => exact retryOp_bytesOk hs
  | bad code op0 t =>
    dsimp only
    split
    · exact endCopy_bytesOk hg
    · exact endCopy_bytesOk (drawFree_bytesOk hg)
  | fin e t => exact endCopy_bytesOk hg

theorem holdForRing_bytesOk {s : State} {op c} (hs : s.BytesOk) : (holdForRing s op c).BytesOk := by
  unfold holdForRing
  extract_lets since s1 t
  have hs1 : s1.BytesOk := updateOp_bytesOk hs
  split
  · exact strandStop_bytesOk hs1
  · exact hs1

theorem execCopyCompletion_bytesOk {s : State} {id} (hs : s.BytesOk) : NextOk (execCopyCompletion id s) := by
  unfold execCopyCompletion
  split
  · rename_i op _
    split
    · split
      · exact holdForRing_bytesOk hs
      · extract_lets places pages
        have hw : (if op.aborted.isEmpty then walkPages s s.ctx.part pages
            else (quietWalk s s.ctx.part pages, none)).1.BytesOk := by
          split
          · exact walkPages_bytesOk _ _ hs
          · exact quietWalk_bytesOk _ hs
        split
        · next e => exact updateOp_bytesOk (bytesOk_fst hw e)
        · rename_i e
          have k := bytesOk_fst hw e
          extract_lets waiting s1
          split
          · exact retryOp_bytesOk k
          · split
            · exact runTable_bytesOk k
            · refine runCopy_bytesOk (?_ : s1.BytesOk)
              unfold s1
              split
              · exact k
              · split
                · extract_lets s2
                  have hs2 : s2.BytesOk := engineFlits_bytesOk k
                  split
                  · exact hs2
                  · exact readPrep_bytesOk hs2 _ _
                · exact k
    · exact hs
  · exact hs

theorem execBwait_bytesOk {s : State} {h ac ring aa imm} (hs : s.BytesOk) : NextOk (execBwait h ac ring aa imm s) := by
  unfold execBwait
  refine issuePrivate_bytesOk hs fun _ ht => ?_
  split <;> exact ht

theorem execBacnt_bytesOk {s : State} {h ac ad} (hs : s.BytesOk) : NextOk (execBacnt h ac ad s) :=
  issuePrivate_bytesOk hs (fun _ ht => addVarOp_bytesOk ht _ _ _)

theorem execBsync_bytesOk {s : State} {h} (hs : s.BytesOk) : NextOk (execBsync h s) := issuePrivate_bytesOk hs (fun _ ht => ht)

theorem execCringHeadWrite_bytesOk {s : State} {v} (hs : s.BytesOk) : NextOk (execCringHeadWrite v s) := setCtx_bytesOk hs

/-! ### Sys2Proof/Machine/Vector.lean -/

theorem vecPrivate_bytesOk {s : State} {h legal reads rm types need} {body : RMode → State → Res} (hs : s.BytesOk)
    (hbody : ∀ x t, t.BytesOk → ResOk (body x t)) : NextOk (vecPrivate s h legal reads rm types need body) := by
  unfold vecPrivate
  refine issuePrivate_bytesOk hs fun _ ht => ?_
  split
  · trivial
  · split
    · trivial
    · exact hbody _ _ ht

theorem advanceIbase_bytesOk {s : State} {m n} (hs : s.BytesOk) : (advanceIbase s m n).BytesOk := by
  unfold advanceIbase
  split
  · exact setCtx_bytesOk hs
  · exact hs

theorem vecResult_bytesOk {s : State} {lat ws fx} (hs : s.BytesOk) : (vecResult s lat ws fx).BytesOk := addOp_bytesOk hs

theorem laneOp_bytesOk {s : State} {h legal accept ty rm mz vd src pg lat f} (hs : s.BytesOk) :
    NextOk (laneOp s h legal accept ty rm mz vd src pg lat f) :=
  vecPrivate_bytesOk hs (fun _ _ ht => vecResult_bytesOk (advanceIbase_bytesOk ht))

theorem execVadd_bytesOk {s : State} {h ty rm mz vd va vb pg} (hs : s.BytesOk) : NextOk (execVadd h ty rm mz vd va vb pg s) :=
  laneOp_bytesOk hs

theorem execVsub_bytesOk {s : State} {h ty rm mz vd va vb pg} (hs : s.BytesOk) : NextOk (execVsub h ty rm mz vd va vb pg s) :=
  laneOp_bytesOk hs

theorem execVmul_bytesOk {s : State} {h ty rm mz vd va vb pg} (hs : s.BytesOk) : NextOk (execVmul h ty rm mz vd va vb pg s) :=
  laneOp_bytesOk hs

theorem execVmin_bytesOk {s : State} {h ty mz vd va vb pg} (hs : s.BytesOk) : NextOk (execVmin h ty mz vd va vb pg s) :=
  laneOp_bytesOk hs

theorem execVmax_bytesOk {s : State} {h ty mz vd va vb pg} (hs : s.BytesOk) : NextOk (execVmax h ty mz vd va vb pg s) :=
  laneOp_bytesOk hs

theorem execVmulh_bytesOk {s : State} {h ty mz vd va vb pg} (hs : s.BytesOk) : NextOk (execVmulh h ty mz vd va vb pg s) :=
  laneOp_bytesOk hs

theorem execVadds_bytesOk {s : State} {h ty mz vd va vb pg} (hs : s.BytesOk) : NextOk (execVadds h ty mz vd va vb pg s) :=
  laneOp_bytesOk hs

theorem execVsubs_bytesOk {s : State} {h ty mz vd va vb pg} (hs : s.BytesOk) : NextOk (execVsubs h ty mz vd va vb pg s) :=
  laneOp_bytesOk hs

theorem execVfma_bytesOk {s : State} {h ty rm mz vd va vb vc pg} (hs : s.BytesOk) :
    NextOk (execVfma h ty rm mz vd va vb vc pg s) :=
  laneOp_bytesOk hs

theorem execVfms_bytesOk {s : State} {h ty rm mz vd va vb vc pg} (hs : s.BytesOk) :
    NextOk (execVfms h ty rm mz vd va vb vc pg s) :=
  laneOp_bytesOk hs

theorem execVfnma_bytesOk {s : State} {h ty rm mz vd va vb vc pg} (hs : s.BytesOk) :
    NextOk (execVfnma h ty rm mz vd va vb vc pg s) :=
  laneOp_bytesOk hs

theorem execVabs_bytesOk {s : State} {h ty mz vd va pg} (hs : s.BytesOk) : NextOk (execVabs h ty mz vd va pg s) :=
  laneOp_bytesOk hs

theorem execVneg_bytesOk {s : State} {h ty mz vd va pg} (hs : s.BytesOk) : NextOk (execVneg h ty mz vd va pg s) :=
  laneOp_bytesOk hs

theorem execVand_bytesOk {s : State} {h ty mz vd va vb pg} (hs : s.BytesOk) : NextOk (execVand h ty mz vd va vb pg s) :=
  laneOp_bytesOk hs

theorem execVor_bytesOk {s : State} {h ty mz vd va vb pg} (hs : s.BytesOk) : NextOk (execVor h ty mz vd va vb pg s) :=
  laneOp_bytesOk hs

theorem execVxor_bytesOk {s : State} {h ty mz vd va vb pg} (hs : s.BytesOk) : NextOk (execVxor h ty mz vd va vb pg s) :=
  laneOp_bytesOk hs

theorem execVnot_bytesOk {s : State} {h ty mz vd va pg} (hs : s.BytesOk) : NextOk (execVnot h ty mz vd va pg s) :=
  laneOp_bytesOk hs

theorem execVsll_bytesOk {s : State} {h ty mz vd va vb pg} (hs : s.BytesOk) : NextOk (execVsll h ty mz vd va vb pg s) :=
  laneOp_bytesOk hs

theorem execVsrl_bytesOk {s : State} {h ty mz vd va vb pg} (hs : s.BytesOk) : NextOk (execVsrl h ty mz vd va vb pg s) :=
  laneOp_bytesOk hs

theorem execVsra_bytesOk {s : State} {h ty mz vd va vb pg} (hs : s.BytesOk) : NextOk (execVsra h ty mz vd va vb pg s) :=
  laneOp_bytesOk hs

theorem execVcmp_bytesOk {s : State} {h ty mz cond pd va vb pg} (hs : s.BytesOk) :
    NextOk (execVcmp h ty mz cond pd va vb pg s) :=
  vecPrivate_bytesOk hs (fun _ _ ht => vecResult_bytesOk ht)

theorem execVsel_bytesOk {s : State} {h ty vd va vb pg} (hs : s.BytesOk) : NextOk (execVsel h ty vd va vb pg s) :=
  vecPrivate_bytesOk hs (fun _ _ ht => vecResult_bytesOk ht)

theorem predOp_bytesOk {s : State} {h legal pd pa pb f} (hs : s.BytesOk) : NextOk (predOp s h legal pd pa pb f) :=
  vecPrivate_bytesOk hs (fun _ _ ht => vecResult_bytesOk ht)

theorem execPand_bytesOk {s : State} {h pd pa pb} (hs : s.BytesOk) : NextOk (execPand h pd pa pb s) := predOp_bytesOk hs

theorem execPor_bytesOk {s : State} {h pd pa pb} (hs : s.BytesOk) : NextOk (execPor h pd pa pb s) := predOp_bytesOk hs

theorem execPxor_bytesOk {s : State} {h pd pa pb} (hs : s.BytesOk) : NextOk (execPxor h pd pa pb s) := predOp_bytesOk hs

theorem execPnot_bytesOk {s : State} {h pd pa} (hs : s.BytesOk) : NextOk (execPnot h pd pa s) := predOp_bytesOk hs

theorem execPcnt_bytesOk {s : State} {h ty ad pa} (hs : s.BytesOk) : NextOk (execPcnt h ty ad pa s) :=
  vecPrivate_bytesOk hs (fun _ _ ht => vecResult_bytesOk ht)

theorem execVcvt_bytesOk {s : State} {h ty rm mz aux vd va dty pg} (hs : s.BytesOk) :
    NextOk (execVcvt h ty rm mz aux vd va dty pg s) :=
  vecPrivate_bytesOk hs (fun _ _ ht => setEng_bytesOk (vecResult_bytesOk (advanceIbase_bytesOk ht)))

theorem execVred_bytesOk {s : State} {h ty rm op vd va pg seg} (hs : s.BytesOk) : NextOk (execVred h ty rm op vd va pg seg s) :=
  vecPrivate_bytesOk hs (fun _ _ ht => vecResult_bytesOk (advanceIbase_bytesOk ht))

theorem execVperm_bytesOk {s : State} {h ty mz aux vd va vb pg} (hs : s.BytesOk) :
    NextOk (execVperm h ty mz aux vd va vb pg s) :=
  vecPrivate_bytesOk hs (fun _ _ ht => vecResult_bytesOk ht)

theorem execVdup_bytesOk {s : State} {h ty mz vd aa pg} (hs : s.BytesOk) : NextOk (execVdup h ty mz vd aa pg s) :=
  vecPrivate_bytesOk hs (fun _ _ ht => vecResult_bytesOk ht)

theorem execVzip_bytesOk {s : State} {h ty vd va vb} (hs : s.BytesOk) : NextOk (execVzip h ty vd va vb s) :=
  vecPrivate_bytesOk hs (fun _ _ ht => vecResult_bytesOk ht)

theorem execVunzip_bytesOk {s : State} {h ty vd va} (hs : s.BytesOk) : NextOk (execVunzip h ty vd va s) :=
  vecPrivate_bytesOk hs (fun _ _ ht => vecResult_bytesOk ht)

theorem execVgetx_bytesOk {s : State} {h ty ad va aa} (hs : s.BytesOk) : NextOk (execVgetx h ty ad va aa s) :=
  vecPrivate_bytesOk hs (fun _ _ ht => vecResult_bytesOk ht)

/-! ### Sys2Proof/Machine/VecMem.lean -/

theorem vecLoad_bytesOk {s : State} {r ty mz vd pg fe lin} (hs : s.BytesOk) : ResOk (vecLoad s r ty mz vd pg fe lin) := by
  unfold vecLoad
  split
  · trivial
  · extract_lets g idx act here
    split
    · trivial
    · exact hs
    · extract_lets gs p s1 old codes s2
      have hp : p.1.BytesOk := vecRead_bytesOk hs
      have hs1 : s1.BytesOk := hp
      have hs2 : s2.BytesOk := bytesOk_ite (setFull_bytesOk hs1) hs1
      split
      · exact hs
      · exact withAccess_bytesOk (addVarOp_bytesOk hs2 _ _ _)

theorem storeOp_bytesOk {s : State} {fx bad touches} (hs : s.BytesOk) : (storeOp s fx bad touches).BytesOk :=
  withAccess_bytesOk (addOp_bytesOk (takeDelay_bytesOk hs))

theorem vecStore_bytesOk {s : State} {r ty vs pg fe lin} (hs : s.BytesOk) : ResOk (vecStore s r ty vs pg fe lin) := by
  unfold vecStore
  split
  · trivial
  · extract_lets g act ready s1 x
    have hready : ready.1.BytesOk := by
      unfold ready
      split
      · exact releasePrep_bytesOk hs _ _
      · exact hs
    have hs1 : s1.BytesOk := hready
    split
    · trivial
    · exact hs
    · extract_lets gs lanes w
      have hw : w.1.BytesOk := writeCodes_bytesOk hs1 _ _ _
      split
      · exact hs
      · split
        · exact hready
        · exact storeOp_bytesOk (setFull_bytesOk hw)

theorem execVld_bytesOk {s : State} {h ty mz fe vd bf aa pg imm} (hs : s.BytesOk) :
    NextOk (execVld h ty mz fe vd bf aa pg imm s) :=
  vecPrivate_bytesOk hs (fun _ _ ht => vecLoad_bytesOk ht)

theorem execVst_bytesOk {s : State} {h ty fe vs bf aa pg imm} (hs : s.BytesOk) : NextOk (execVst h ty fe vs bf aa pg imm s) :=
  vecPrivate_bytesOk hs (fun _ _ ht => vecStore_bytesOk ht)

theorem execVldg_bytesOk {s : State} {h ty mz vd bf aa pg vi} (hs : s.BytesOk) : NextOk (execVldg h ty mz vd bf aa pg vi s) :=
  vecPrivate_bytesOk hs (fun _ _ ht => vecLoad_bytesOk ht)

theorem execVsts_bytesOk {s : State} {h ty vs bf aa pg vi} (hs : s.BytesOk) : NextOk (execVsts h ty vs bf aa pg vi s) :=
  vecPrivate_bytesOk hs (fun _ _ ht => vecStore_bytesOk ht)

theorem execVqld_bytesOk {s : State} {h ty rm mz cb vd bf aa pg} (hs : s.BytesOk) :
    NextOk (execVqld h ty rm mz cb vd bf aa pg s) := by
  unfold execVqld
  refine vecPrivate_bytesOk hs fun _ _ ht => ?_
  extract_lets r f g idx lin act inb spans here
  split
  · trivial
  · split
    · trivial
    · split
      · trivial
      · split
        · trivial
        · split
          · trivial
          · exact ht
          · extract_lets ls p s1 old book rs d
            have hp : p.1.BytesOk := vecRead_bytesOk ht
            have hs1 : s1.BytesOk := hp
            have hd : d.2.BytesOk := takeDelay_bytesOk (advanceIbase_bytesOk hs1)
            split
            · trivial
            · exact withAccess_bytesOk (addOp_bytesOk hd)

theorem execVqst_bytesOk {s : State} {h ty imp cb vs bf aa pg ab vb} (hs : s.BytesOk) :
    NextOk (execVqst h ty imp cb vs bf aa pg ab vb s) := by
  unfold execVqst
  refine vecPrivate_bytesOk hs fun _ _ ht => ?_
  extract_lets r f n l0 lin g act blocks lanes spans skew book qs w
  split
  · trivial
  · split
    · trivial
    · split
      · trivial
      · split
        · trivial
        · split
          · trivial
          · exact ht
          · split <;> exact storeOp_bytesOk (writeCodes_bytesOk ht _ _ _)

/-! ### Sys2Proof/Machine/Bank.lean -/

theorem bankUpdate_bytesOk {s : State} {b m j x} (hs : s.BytesOk) : (BankDesc.update s b m j x).1.BytesOk := by
  unfold BankDesc.update
  extract_lets ls a y done
  clear_value ls
  have hdone {t : State} (ht : t.BytesOk) : (done t).BytesOk := by
    unfold done
    split
    · exact noteStep_bytesOk ht
    · exact ht
  split
  · exact hdone hs
  · split
    · exact hdone hs
    · split
      · exact hdone hs
      · exact hdone (rawWrite_bytesOk hs _)

theorem bankRun_bytesOk {s : State} {b} (hs : s.BytesOk) : (BankDesc.run s b).1.BytesOk := by
  unfold BankDesc.run
  extract_lets m before o
  split
  · exact foldl_keeps (fun t : State × List (Nat × BankBad) => t.1.BytesOk) _ (fun _ _ ht => bankUpdate_bytesOk ht) _ _ hs
  · exact foldl_keeps (fun t : State × List (Nat × BankBad) => t.1.BytesOk) _
      (fun _ _ ht => bankUpdate_bytesOk (by exact ht)) _ _ (freeOrder_bytesOk hs)

theorem bankOp_bytesOk {s : State} {ws acq bad} (hs : s.BytesOk) : (bankOp s ws acq bad).BytesOk := addVarOp_bytesOk hs _ _ _

theorem bankData_bytesOk {s : State} {b} (hs : s.BytesOk) : ResOk (bankData b s) := by
  unfold bankData
  extract_lets b1
  split
  · trivial
  · split
    · trivial
    · trivial
    · exact hs
    · exact hs
    · extract_lets r t poison clobber t1
      have hr : r.1.BytesOk := bankRun_bytesOk (requestFlits_bytesOk hs)
      have ht : t.BytesOk := hr
      have ht1 : t1.BytesOk := withAccess_bytesOk (bankOp_bytesOk ht)
      split
      · exact bankOp_bytesOk ht1
      · exact ht1

theorem bankPrivate_bytesOk {s : State} {h legal reads} {body : State → Res} (hs : s.BytesOk)
    (hbody : ∀ t, t.BytesOk → ResOk (body t)) : NextOk (bankPrivate s h legal reads body) :=
  issuePrivate_bytesOk hs (fun _ ht => hbody _ ht)

theorem execCadd_bytesOk {s : State} {h rm bfd bfs ad src an} (hs : s.BytesOk) : NextOk (execCadd h rm bfd bfs ad src an s) :=
  bankPrivate_bytesOk hs (fun _ ht => bankData_bytesOk ht)

theorem execCmin_bytesOk {s : State} {h bfd bfs ad src an} (hs : s.BytesOk) : NextOk (execCmin h bfd bfs ad src an s) :=
  bankPrivate_bytesOk hs (fun _ ht => bankData_bytesOk ht)

theorem execCmax_bytesOk {s : State} {h bfd bfs ad src an} (hs : s.BytesOk) : NextOk (execCmax h bfd bfs ad src an s) :=
  bankPrivate_bytesOk hs (fun _ ht => bankData_bytesOk ht)

theorem execCaxpy_bytesOk {s : State} {h rm bfd bfs ad src an ab} (hs : s.BytesOk) :
    NextOk (execCaxpy h rm bfd bfs ad src an ab s) :=
  bankPrivate_bytesOk hs (fun _ ht => bankData_bytesOk ht)

theorem execCscal_bytesOk {s : State} {h rm bfd ad an ab} (hs : s.BytesOk) : NextOk (execCscal h rm bfd ad an ab s) :=
  bankPrivate_bytesOk hs (fun _ ht => bankData_bytesOk ht)

theorem disarmLine_bytesOk {s : State} {key} (hs : s.BytesOk) : (disarmLine s key).BytesOk := by
  unfold disarmLine
  extract_lets s1
  have hs1 : s1.BytesOk := writeObj_bytesOk hs _ _
  split
  · split
    · exact setEng_bytesOk hs1
    · exact hs1
  · exact hs1

theorem objPlace_bytesOk {s : State} {bf aa acc} (hs : s.BytesOk) : ObjPlaceOk (objPlace s bf aa acc) := by
  unfold objPlace
  extract_lets r o a key
  split
  · trivial
  · split
    · trivial
    · split
      · trivial
      · split
        · split <;> trivial
        · split
          · trivial
          · split
            · trivial
            · trivial
            · split
              · exact disarmLine_bytesOk hs
              · exact hs

theorem objStep_bytesOk {s : State} {key a ad} {f : State → BitVec 64 × State × Option (BitVec 3)} (hs : s.BytesOk)
    (hf : ∀ t, t.BytesOk → (f t).2.1.BytesOk) : ResOk (objStep s key a ad f) := by
  unfold objStep
  extract_lets s1 r
  have hs1 : s1.BytesOk := requestFlits_bytesOk hs
  split
  · exact bankOp_bytesOk hs1
  · exact bankOp_bytesOk (noteStep_bytesOk (hf _ hs1))

theorem execBinit_bytesOk {s : State} {h scope ad bf aa ab} (hs : s.BytesOk) : NextOk (execBinit h scope ad bf aa ab s) := by
  unfold execBinit
  refine bankPrivate_bytesOk hs fun _ ht => ?_
  split
  · trivial
  · exact ht
  · exact bankOp_bytesOk ht
  · next e => exact objStep_bytesOk ((objPlace_bytesOk ht).of_eq e) (fun _ hu => writeObj_bytesOk hu _ _)

theorem execCbar_bytesOk {s : State} {h ad bf aa ab} (hs : s.BytesOk) : NextOk (execCbar h ad bf aa ab s) := by
  unfold execCbar
  refine bankPrivate_bytesOk hs fun _ ht => ?_
  split
  · trivial
  · exact ht
  · exact bankOp_bytesOk ht
  · rename_i e
    have k := (objPlace_bytesOk ht).of_eq e
    split
    · exact objStep_bytesOk k (fun _ hu => hu)
    · split
      · next e1 => exact bytesOk_fst (releasePrep_bytesOk k _ _) e1
      · next e1 => exact objStep_bytesOk (bytesOk_fst (releasePrep_bytesOk k _ _) e1) (fun _ hu => writeObj_bytesOk hu _ _)

theorem execCbwait_bytesOk {s : State} {h ad bf aa ab} (hs : s.BytesOk) : NextOk (execCbwait h ad bf aa ab s) := by
  unfold execCbwait
  refine bankPrivate_bytesOk hs fun _ ht => ?_
  split
  · trivial
  · exact ht
  · exact bankOp_bytesOk ht
  · rename_i e
    have k := (objPlace_bytesOk ht).of_eq e
    extract_lets asked o
    have hasked : asked.BytesOk := requestFlits_bytesOk k
    split
    · exact bankOp_bytesOk hasked
    · split
      · exact bankOp_bytesOk hasked
      · split
        · exact k
        · exact bankOp_bytesOk hasked

theorem countSoft_bytesOk {s : State} {i corrected} (hs : s.BytesOk) : (countSoft s i corrected).BytesOk := hs

theorem countError_bytesOk {s : State} {key} (hs : s.BytesOk) : (countError s key).BytesOk := by
  unfold countError
  split
  · exact hs
  · exact countSoft_bytesOk hs

theorem poisonWord_bytesOk {s : State} {key} (hs : s.BytesOk) : (poisonWord s key).BytesOk := by
  unfold poisonWord
  split
  · exact disarmLine_bytesOk hs
  · split <;> exact hs

theorem execBarrierLinePoison_bytesOk {s : State} {key} (hs : s.BytesOk) : NextOk (execBarrierLinePoison key s) :=
  poisonWord_bytesOk (countError_bytesOk hs)

/-! ### Sys2Proof/Machine/Queues.lean -/

theorem hostRefuse_bytesOk {s : State} {v offset} (hs : s.BytesOk) : (hostRefuse s v offset).BytesOk := report_bytesOk hs

theorem putWqCfg_bytesOk {s : State} {q v mgmt} (hs : s.BytesOk) : (putWqCfg s q v mgmt).BytesOk := setWq_bytesOk hs

theorem execWqEnable_bytesOk {s : State} {q v} (hs : s.BytesOk) : NextOk (execWqEnable q v s) := putWqCfg_bytesOk hs

theorem execWqDisable_bytesOk {s : State} {q v} (hs : s.BytesOk) : NextOk (execWqDisable q v s) := putWqCfg_bytesOk hs

theorem execWqTailWrite_bytesOk {s : State} {q v} (hs : s.BytesOk) : NextOk (execWqTailWrite q v s) := writeTail_bytesOk hs

theorem hostReserve_bytesOk {s : State} {q count} (hs : s.BytesOk) : (hostReserve s q count).2.BytesOk := applyAtomic_bytesOk hs

theorem hostReply_bytesOk {s : State} {bs} (hs : s.BytesOk) : (hostReply s bs).BytesOk := hs

theorem execHostFetchadd_bytesOk {s : State} {fn q v} (hs : s.BytesOk) : NextOk (execHostFetchadd fn q v s) := by
  unfold execHostFetchadd
  extract_lets w r go
  have hr : r.2.BytesOk := hostReserve_bytesOk hs
  have hgo : go.BytesOk := hostReply_bytesOk hr
  split
  · split
    · exact hostReply_bytesOk (hostRefuse_bytesOk hs)
    · exact hgo
  · exact hgo

theorem execStage0ItemGenerate_bytesOk {s : State} {id} (hs : s.BytesOk) : NextOk (execStage0ItemGenerate id s) := by
  unfold execStage0ItemGenerate
  split
  · exact selectWork_bytesOk (generateItems_bytesOk _ hs)
  · exact hs

theorem endInstance_bytesOk {s : State} {id} (hs : s.BytesOk) : (endInstance s id).BytesOk := by
  unfold endInstance
  split
  · exact hs
  · split
    · exact hs
    · exact examineQueue_bytesOk (storeDone_bytesOk (setWq_bytesOk (setDisp_bytesOk hs)))

theorem execInstanceEnd_bytesOk {s : State} {id} (hs : s.BytesOk) : NextOk (execInstanceEnd id s) := endInstance_bytesOk hs

theorem execPipelineStall_bytesOk {s : State} {id} (hs : s.BytesOk) : NextOk (execPipelineStall id s) := by
  unfold execPipelineStall
  split
  · exact hs
  · split
    · exact hs
    · exact report_bytesOk (setWq_bytesOk (updPipe_bytesOk hs))

theorem execQres_bytesOk {s : State} {h ad aa ab} (hs : s.BytesOk) : NextOk (execQres h ad aa ab s) := by
  unfold execQres
  refine issuePrivate_bytesOk hs fun _ ht => ?_
  extract_lets n c t1
  have ht1 : t1.2.BytesOk := sendAtomic_bytesOk ht
  split
  · trivial
  · split
    · trivial
    · exact addVarOp_bytesOk ht1 _ _ _

theorem execQtail_bytesOk {s : State} {h aa ab} (hs : s.BytesOk) : NextOk (execQtail h aa ab s) := by
  unfold execQtail
  refine issuePrivate_bytesOk hs fun _ ht => ?_
  extract_lets n
  split
  · trivial
  · split
    · next e => exact bytesOk_fst (releasePrep_bytesOk ht _ _) e
    · next e => exact writeTail_bytesOk (bytesOk_fst (releasePrep_bytesOk ht _ _) e)

theorem execQhead_bytesOk {s : State} {h ad aa} (hs : s.BytesOk) : NextOk (execQhead h ad aa s) := by
  unfold execQhead
  refine issuePrivate_bytesOk hs fun _ ht => ?_
  extract_lets n
  split
  · trivial
  · exact addVarOp_bytesOk ht _ _ _

theorem execDitem_bytesOk {s : State} {h ad idx} (hs : s.BytesOk) : NextOk (execDitem h ad idx s) :=
  issuePrivate_bytesOk hs (fun _ ht => addVarOp_bytesOk ht _ _ _)

theorem enqueue_bytesOk {s : State} {id st buf} (hs : s.BytesOk) : (enqueue s id st buf).BytesOk := by
  unfold enqueue
  split
  · exact hs
  · exact updPipe_bytesOk (writeItem_bytesOk hs)

theorem execDpush_bytesOk {s : State} {h aa stg} (hs : s.BytesOk) : NextOk (execDpush h aa stg s) := by
  unfold execDpush
  refine issuePrivate_bytesOk hs fun _ ht => ?_
  extract_lets a st pipe nst
  clear_value pipe
  split
  · trivial
  · split
    · trivial
    · split
      · trivial
      · split
        · trivial
        · split
          · exact ht
          · split
            · exact ht
            · split
              · next e => exact bytesOk_fst (releasePrep_bytesOk ht _ _) e
              · next e => exact enqueue_bytesOk (bytesOk_fst (releasePrep_bytesOk ht _ _) e)

/-! ### Sys2Proof/Machine/Recovery.lean -/

theorem refillPlane_bytesOk {s : State} {put x} (hs : s.BytesOk) : (refillPlane s put x).BytesOk := by
  unfold refillPlane
  split
  · exact onPaths_bytesOk hs
  · exact faultAsync_bytesOk (logEcc_bytesOk (setMx_bytesOk hs))

theorem restoreMx_bytesOk {s : State} (hs : s.BytesOk) : (restoreMx s).BytesOk := by
  unfold restoreMx
  extract_lets m s1 s2 s3
  have hs1 : s1.BytesOk := onPaths_bytesOk (setSow_bytesOk hs)
  have hs2 : s2.BytesOk := refillPlane_bytesOk hs1
  have hs3 : s3.BytesOk := refillPlane_bytesOk hs2
  split
  · split
    · exact faultAsync_bytesOk (logEcc_bytesOk (onPaths_bytesOk hs3))
    · exact hs3
  · exact hs3

theorem restoreCtx_bytesOk {s : State} {c} (hs : s.BytesOk) : (restoreCtx s c).BytesOk :=
  restoreMx_bytesOk (restoreNets_bytesOk (setCtx_bytesOk hs))

theorem haltPartition_bytesOk {s : State} {p} (hs : s.BytesOk) : (haltPartition s p).BytesOk := by
  unfold haltPartition
  extract_lets x s1 h
  have hs1 : s1.BytesOk := report_bytesOk (setPart_bytesOk hs)
  split
  · exact hs
  · exact selectWork_bytesOk hs1

theorem writeSaveArea_bytesOk {s : State} {p} (hs : s.BytesOk) : (writeSaveArea s p).BytesOk :=
  homeWrite_bytesOk (drawFree_bytesOk hs) _

theorem saveStopped_bytesOk {s : State} (hs : s.BytesOk) : (saveStopped s).BytesOk := writeSaveArea_bytesOk hs

theorem dropStrand_bytesOk {s : State} {status} (hs : s.BytesOk) : (dropStrand s status).BytesOk :=
  endItem_bytesOk (setCtx_bytesOk hs)

theorem handlerFailed_bytesOk {s : State} (hs : s.BytesOk) : (handlerFailed s).BytesOk := by
  unfold handlerFailed
  extract_lets s1
  have hs1 : s1.BytesOk := by
    unfold s1
    split
    · exact report_bytesOk hs
    · exact hs
  exact dropStrand_bytesOk hs1

theorem launchHandler_bytesOk {s : State} (hs : s.BytesOk) : (launchHandler s).BytesOk := by
  unfold launchHandler
  extract_lets c ovl
  split
  · exact hs
  · split
    · next e => exact setDisp_bytesOk ((dispRead_bytesOk hs).of_eq e)
    · next e => exact handlerFailed_bytesOk ((dispRead_bytesOk hs).of_eq e)
    · rename_i e
      have k := (dispRead_bytesOk hs).of_eq e
      split
      · exact handlerFailed_bytesOk k
      · split
        · next e1 => exact setDisp_bytesOk ((overlayRead_bytesOk k).of_eq e1)
        · next e1 => exact handlerFailed_bytesOk ((overlayRead_bytesOk k).of_eq e1)
        · rename_i e1
          have k1 := (overlayRead_bytesOk k).of_eq e1
          exact startStrand_bytesOk (placeOverlay_bytesOk (saveStopped_bytesOk (setDisp_bytesOk k1)))

theorem routeFault_bytesOk {s : State} {st} (hs : s.BytesOk) : (routeFault s st).BytesOk := by
  unfold routeFault
  extract_lets fmask handler set
  have hset : ∀ t x, t.BytesOk → (set t x).BytesOk := by
    unfold set
    intro t x ht
    exact setCtx_bytesOk ht
  split
  · exact haltPartition_bytesOk (report_bytesOk (hset _ _ hs))
  · split
    · exact launchHandler_bytesOk (hset _ _ hs)
    · exact report_bytesOk (hset _ _ hs)

theorem recordFault_bytesOk {s : State} (hs : s.BytesOk) : (recordFault s).BytesOk := by
  unfold recordFault
  split
  · exact hs
  · split
    · exact hs
    · extract_lets op0 bs second
      split
      · next e => exact bytesOk_fst (dispWrite_bytesOk hs _ _ _) e
      · rename_i e
        have k := bytesOk_fst (dispWrite_bytesOk hs _ _ _) e
        exact haltPartition_bytesOk (report_bytesOk (report_bytesOk (setCtx_bytesOk k)))
      · next e => exact routeFault_bytesOk (setCtx_bytesOk (bytesOk_fst (dispWrite_bytesOk hs _ _ _) e))

theorem execFaultRecord_bytesOk {s : State} (hs : s.BytesOk) : NextOk (execFaultRecord s) := recordFault_bytesOk hs

theorem execStrandLaunch_bytesOk {s : State} (hs : s.BytesOk) : NextOk (execStrandLaunch s) := by
  unfold execStrandLaunch
  split
  · exact launchHandler_bytesOk hs
  · exact launchStrand_bytesOk hs

theorem runsAgain_bytesOk {s : State} (hs : s.BytesOk) : (runsAgain s).BytesOk := by
  unfold runsAgain
  split
  · split
    · exact updPipe_bytesOk hs
    · exact hs
  · exact hs

theorem restoreSaved_bytesOk {s : State} {c img} (hs : s.BytesOk) : (restoreSaved s c img).BytesOk := by
  unfold restoreSaved
  extract_lets p s1 _ s2
  have hs1 : s1.BytesOk := hs
  have hs2 : s2.BytesOk := residentText_bytesOk hs1
  split
  · exact haltPartition_bytesOk hs
  · exact runsAgain_bytesOk (resumeStrand_bytesOk (restoreCtx_bytesOk hs2))

theorem endHandler_bytesOk {s : State} (hs : s.BytesOk) : (endHandler s).BytesOk := haltThresher_bytesOk (setCtx_bytesOk hs)

theorem execEret_bytesOk {s : State} {h} (hs : s.BytesOk) : NextOk (execEret h s) := by
  unfold execEret
  extract_lets back wait
  clear_value back
  have hwait : NextOk wait := by
    unfold wait
    refine issuePrivate_bytesOk hs fun t ht => ?_
    split
    · trivial
    · exact endHandler_bytesOk ht
  split
  · split
    · exact restoreSaved_bytesOk (endHandler_bytesOk hs)
    · exact hwait
  · exact hwait

theorem ignoreCommand_bytesOk {s : State} {p} (hs : s.BytesOk) : (ignoreCommand s p).BytesOk := setPart_bytesOk hs

theorem onStopped_bytesOk {s : State} {p} {f : State → State} {g : State → Ctx → State} (hs : s.BytesOk)
    (hf : ∀ t, t.BytesOk → (f t).BytesOk) (hg : ∀ t x, t.BytesOk → (g t x).BytesOk) : (onStopped s p f g).BytesOk := by
  unfold onStopped
  split
  · exact ignoreCommand_bytesOk hs
  · split
    · exact hf _ hs
    · split
      · split
        · exact hg _ _ hs
        · exact ignoreCommand_bytesOk hs
      · exact ignoreCommand_bytesOk hs

theorem resumeHeld_bytesOk {s : State} {h} (hs : s.BytesOk) : (resumeHeld s h).BytesOk := hs

theorem execResume_bytesOk {s : State} {p core} (hs : s.BytesOk) : NextOk (execResume p core s) := by
  unfold execResume
  split
  · exact ignoreCommand_bytesOk hs
  · refine onStopped_bytesOk hs ?_ ?_
    · intro t ht
      split
      · exact setCtx_bytesOk ht
      · exact runsAgain_bytesOk (resumeStrand_bytesOk ht)
    · intro t x ht
      split
      · exact ht
      · exact resumeHeld_bytesOk ht

theorem abortHeld_bytesOk {s : State} {h} (hs : s.BytesOk) : (abortHeld s h).BytesOk := postEnds_bytesOk (noteStatus_bytesOk hs)

theorem execAbort_bytesOk {s : State} {p core} (hs : s.BytesOk) : NextOk (execAbort p core s) := by
  unfold execAbort
  split
  · exact ignoreCommand_bytesOk hs
  · exact onStopped_bytesOk hs (fun _ ht => dropStrand_bytesOk ht) (fun _ _ ht => abortHeld_bytesOk ht)

theorem execRun_bytesOk {s : State} {p core} (hs : s.BytesOk) : NextOk (execRun p core s) := by
  unfold execRun
  split
  · exact ignoreCommand_bytesOk hs
  · split
    · exact hs
    · split
      · split
        · exact setDisp_bytesOk hs
        · exact hs
      · exact hs

theorem execHalt_bytesOk {s : State} {p} (hs : s.BytesOk) : NextOk (execHalt p s) := haltPartition_bytesOk hs

theorem execSliceExpiry_bytesOk {s : State} (hs : s.BytesOk) : NextOk (execSliceExpiry s) := by
  unfold execSliceExpiry
  split
  · exact hs
  · split <;> exact setDisp_bytesOk hs

theorem swapContexts_bytesOk {s : State} {h} (hs : s.BytesOk) : (swapContexts s h).BytesOk :=
  selectWork_bytesOk (runsAgain_bytesOk (restoreCtx_bytesOk (setDisp_bytesOk hs)))

theorem trySwap_bytesOk {s : State} (hs : s.BytesOk) : (trySwap s).BytesOk := by
  unfold trySwap
  split
  · exact hs
  · split
    · exact setDisp_bytesOk hs
    · split
      · rename_i e
        have k := bytesOk_fst (walkPages_bytesOk _ _ hs) e
        split
        · exact swapContexts_bytesOk (useAbort_bytesOk k)
        · exact k
      · next e => exact swapContexts_bytesOk (bytesOk_fst (walkPages_bytesOk _ _ hs) e)

theorem execContextSwap_bytesOk {s : State} (hs : s.BytesOk) : NextOk (execContextSwap s) := trySwap_bytesOk hs

theorem installRunning_bytesOk {s : State} {c} (hs : s.BytesOk) : (installRunning s c).BytesOk := by
  unfold installRunning
  extract_lets _ s1
  have hs1 : s1.BytesOk := setDisp_bytesOk hs
  exact hs1

theorem installCtx_bytesOk {s : State} {c} (hs : s.BytesOk) : (installCtx s c).BytesOk := by
  unfold installCtx
  extract_lets dead
  split
  · split
    · exact installRunning_bytesOk hs
    · split
      · exact hs
      · split
        · exact installRunning_bytesOk hs
        · exact hs
  · split
    · exact installRunning_bytesOk hs
    · split
      · exact installRunning_bytesOk hs
      · exact hs

theorem assignHandles_bytesOk {s : State} {base count} (hs : s.BytesOk) : (assignHandles s base count).BytesOk := by
  unfold assignHandles
  refine foldl_keeps State.BytesOk _ ?_ _ _ hs
  intro a b ht
  refine foldl_keeps State.BytesOk _ ?_ _ _ ht
  intro a' b' ht'
  split
  · exact setFull_bytesOk (setHandle_bytesOk ht')
  · exact ht'

theorem discardPipes_bytesOk {s : State} {p} (hs : s.BytesOk) : (discardPipes s p).BytesOk := setDisp_bytesOk hs

theorem enablePartition_bytesOk {s : State} {p} (hs : s.BytesOk) : (enablePartition s p).BytesOk := by
  unfold enablePartition
  extract_lets x s1 mine s2 s3 s4 s5
  have hs1 : s1.BytesOk := discardPipes_bytesOk hs
  have hs2 : s2.BytesOk := hs1
  have hs3 : s3.BytesOk := bytesOk_ite (installCtx_bytesOk hs2) hs2
  have hs4 : s4.BytesOk := setPart_bytesOk hs3
  split
  · exact hs
  · split
    · exact setPart_bytesOk hs
    · split
      · exact selectWork_bytesOk (bytesOk_of_eq (assignHandles_bytesOk hs4) rfl rfl rfl rfl)
      · exact hs4

theorem execPartitionEnable_bytesOk {s : State} {p} (hs : s.BytesOk) : NextOk (execPartitionEnable p s) :=
  enablePartition_bytesOk hs

theorem disablePartition_bytesOk {s : State} {p} (hs : s.BytesOk) : (disablePartition s p).BytesOk := setPart_bytesOk hs

theorem execPartitionDisable_bytesOk {s : State} {p} (hs : s.BytesOk) : NextOk (execPartitionDisable p s) :=
  disablePartition_bytesOk hs

theorem feedPlane_bytesOk {s : State} (hs : s.BytesOk) : (feedPlane s).BytesOk := by
  unfold feedPlane
  extract_lets s1 seed s2
  have hs1 : s1.BytesOk := loadPlane_bytesOk hs
  have hs2 : s2.BytesOk := setSow_bytesOk hs1
  exact hs2

theorem execPlaneDiffBroadcast_bytesOk {s : State} {msg} (hs : s.BytesOk) : NextOk (execPlaneDiffBroadcast msg s) :=
  setDisp_bytesOk hs

theorem execPlaneDiffApply_bytesOk {s : State} (hs : s.BytesOk) : NextOk (execPlaneDiffApply s) := by
  unfold execPlaneDiffApply
  split
  · exact hs
  · split
    · exact hs
    · extract_lets copy _ s1 copy1
      have hs1 : s1.BytesOk := setDisp_bytesOk hs
      split
      · exact feedPlane_bytesOk (setDisp_bytesOk hs1)
      · exact report_bytesOk (setDisp_bytesOk hs1)

theorem execShadowPlaneLoad_bytesOk {s : State} {offset data} (hs : s.BytesOk) : NextOk (execShadowPlaneLoad offset data s) :=
  setDisp_bytesOk hs

theorem execSwapToken_bytesOk {s : State} (hs : s.BytesOk) : NextOk (execSwapToken s) := setDisp_bytesOk hs

theorem swapPlanes_bytesOk {s : State} (hs : s.BytesOk) : (swapPlanes s).BytesOk := by
  unfold swapPlanes
  extract_lets _ d
  split
  · exact feedPlane_bytesOk (setDisp_bytesOk hs)
  · exact report_bytesOk (setDisp_bytesOk hs)

theorem execPlaneSwap_bytesOk {s : State} (hs : s.BytesOk) : NextOk (execPlaneSwap s) := by
  unfold execPlaneSwap
  split
  · exact hs
  · exact swapPlanes_bytesOk hs

/-! ### Sys2Proof/Machine/MemSide.lean -/

theorem dropMiss_bytesOk {s : State} {p vpn} (hs : s.BytesOk) : (dropMiss s p vpn).BytesOk := hs

theorem execPageWalk_bytesOk {s : State} {p vpn} (hs : s.BytesOk) : NextOk (execPageWalk p vpn s) := by
  unfold execPageWalk
  extract_lets v
  split
  · exact hs
  · split
    · next e => exact dropMiss_bytesOk (tlbInsert_bytesOk (bytesOk_fst (pageWalkOf_bytesOk hs _ _) e))
    · next e => exact holdMiss_bytesOk (bytesOk_fst (pageWalkOf_bytesOk hs _ _) e)

theorem releaseQueues_bytesOk {s : State} {p vpn} {f : State → State} (hs : s.BytesOk) (hf : ∀ t, t.BytesOk → (f t).BytesOk) :
    (releaseQueues s p vpn f).BytesOk :=
  foldl_keeps State.BytesOk _ (fun _ _ ht => storeDone_bytesOk (hf _ ht)) _ _ (setDisp_bytesOk (foldl_keeps State.BytesOk _
    (fun _ _ ht => examineQueue_bytesOk (setWq_bytesOk (hf _ ht))) _ _ hs))

theorem execTranslationResolve_bytesOk {s : State} {p vpn} (hs : s.BytesOk) : NextOk (execTranslationResolve p vpn s) := by
  unfold execTranslationResolve
  extract_lets v s1 s2 s3 _ s4
  have hs1 : s1.BytesOk := dropMiss_bytesOk hs
  have hs2 : s2.BytesOk := by unfold s2; split <;> exact hs1
  have hs3 : s3.BytesOk := releaseQueues_bytesOk hs2 (fun _ ht => ht)
  have hs4 : s4.BytesOk := bytesOk_ite (post_bytesOk (setDisp_bytesOk hs3)) hs3
  exact postEnds_bytesOk hs4

theorem armAbort_bytesOk {s : State} {p vpn} (hs : s.BytesOk) : (armAbort p vpn s).BytesOk := setDisp_bytesOk hs

theorem abortDispatcher_bytesOk {s : State} {p vpn} (hs : s.BytesOk) : (abortDispatcher s p vpn).BytesOk := by
  unfold abortDispatcher
  extract_lets arm s1 _ t s2 s3 s4
  have harm : ∀ t, t.BytesOk → (arm t).BytesOk := by
    unfold arm
    intro t' ht
    exact armAbort_bytesOk ht
  have hs1 : s1.BytesOk := releaseQueues_bytesOk hs (fun _ ht => harm _ ht)
  have ht : t.BytesOk := harm _ (setDisp_bytesOk hs1)
  have hs2 : s2.BytesOk := by
    unfold s2
    split
    · split
      · exact launchHandler_bytesOk ht
      · exact launchStrand_bytesOk ht
    · exact hs1
  have hs3 : s3.BytesOk := bytesOk_ite (recordFault_bytesOk (harm _ hs2)) hs2
  have hs4 : s4.BytesOk := by
    unfold s4
    split
    · split
      · exact trySwap_bytesOk (harm _ hs3)
      · exact hs3
    · exact hs3
  exact setDisp_bytesOk hs4

theorem execTranslationAbort_bytesOk {s : State} {p vpn} (hs : s.BytesOk) : NextOk (execTranslationAbort p vpn s) := by
  unfold execTranslationAbort
  extract_lets v s1 s2 s3
  have hs1 : s1.BytesOk := dropMiss_bytesOk hs
  have hs2 : s2.BytesOk := by
    unfold s2
    split
    · exact raise_bytesOk hs1
    · exact hs1
  have hs3 : s3.BytesOk := by unfold s3; split <;> exact hs2
  split
  · exact hs
  · exact abortDispatcher_bytesOk hs3

theorem putTlbi_bytesOk {s : State} {die t} (hs : s.BytesOk) : (putTlbi s die t).BytesOk := hs

theorem startTlbi_bytesOk {s : State} {die t} (hs : s.BytesOk) : (startTlbi s die t).BytesOk := by
  unfold startTlbi
  split <;> exact putTlbi_bytesOk hs

theorem execTlbiAll_bytesOk {s : State} {die p} (hs : s.BytesOk) : NextOk (execTlbiAll die p s) := startTlbi_bytesOk hs

theorem execTlbiPages_bytesOk {s : State} {die p vpn pages} (hs : s.BytesOk) : NextOk (execTlbiPages die p vpn pages s) :=
  startTlbi_bytesOk hs

theorem execInvalidationComplete_bytesOk {s : State} (hs : s.BytesOk) : NextOk (execInvalidationComplete s) := by
  unfold execInvalidationComplete
  split
  · exact hs
  · exact report_bytesOk hs

theorem putRegion_bytesOk {s : State} {n r} (hs : s.BytesOk) : (putRegion s n r).BytesOk := hs

theorem flushRegion_bytesOk {s : State} {r} (hs : s.BytesOk) : (flushRegion s r).BytesOk :=
  foldl_keeps State.BytesOk _ (fun _ _ ht => aliasWriteLine_bytesOk ht _) _ _ hs

theorem enableRegion_bytesOk {s : State} {stack n v} (hs : s.BytesOk) : (enableRegion s stack n v).BytesOk := by
  unfold enableRegion
  extract_lets r q s1 c q1
  have hs1 : s1.BytesOk := bytesOk_ite (flushRegion_bytesOk hs) hs
  split
  · exact putRegion_bytesOk hs
  · exact putRegion_bytesOk hs1

theorem execFrEnable_bytesOk {s : State} {stack region v} (hs : s.BytesOk) : NextOk (execFrEnable stack region v s) :=
  enableRegion_bytesOk hs

theorem disableRegion_bytesOk {s : State} {n} (hs : s.BytesOk) : (disableRegion s n).BytesOk :=
  putRegion_bytesOk (flushRegion_bytesOk hs)

theorem execFrDisable_bytesOk {s : State} {stack region} (hs : s.BytesOk) : NextOk (execFrDisable stack region s) := by
  unfold execFrDisable
  extract_lets n
  split
  · exact disableRegion_bytesOk hs
  · exact hs

theorem execAliasWriteback_bytesOk {s : State} {line} (hs : s.BytesOk) : NextOk (execAliasWriteback line s) :=
  aliasWriteLine_bytesOk hs _

theorem execChannelMigration_bytesOk {s : State} (stack : BitVec 4) (unit64k : Nat) (channel : BitVec 9) (hs : s.BytesOk) :
    NextOk (execChannelMigration stack unit64k channel s) :=
  hs

/-! ### Sys2Proof/Machine/Thresher.lean -/

theorem setThr_bytesOk {s : State} {t} (hs : s.BytesOk) : (setThr s t).BytesOk := setCtx_bytesOk hs

theorem putThrReg_bytesOk {s : State} {n v} (hs : s.BytesOk) : (putThrReg s n v).BytesOk := by
  unfold putThrReg
  extract_lets t f
  split
  · exact setThr_bytesOk hs
  · exact setThr_bytesOk hs
  · exact setThr_bytesOk hs
  · exact setThr_bytesOk hs
  · exact hs

theorem landThr_bytesOk {s : State} {f} (hs : s.BytesOk) : (landThr s f).BytesOk := setThr_bytesOk hs

theorem transform_bytesOk {s : State} {h legal reads auxField t} (hs : s.BytesOk) :
    NextOk (transform s h legal reads auxField t) := by
  unfold transform
  refine issuePrivate_bytesOk hs fun _ ht => ?_
  extract_lets r t1 u
  have hu : u.BytesOk := withAccess_bytesOk (addOp_bytesOk ht)
  split
  · trivial
  · split
    · exact ht
    · split
      · exact setThr_bytesOk hu
      · exact hu

theorem execTcvt_bytesOk {s : State} {h rm fe sf aux bfd bfs ad src an} (hs : s.BytesOk) :
    NextOk (execTcvt h rm fe sf aux bfd bfs ad src an s) :=
  transform_bytesOk hs

theorem execTcvti_bytesOk {s : State} {h fe sf aux bfd bfs ad src an ax} (hs : s.BytesOk) :
    NextOk (execTcvti h fe sf aux bfd bfs ad src an ax s) :=
  transform_bytesOk hs

theorem execTamax_bytesOk {s : State} {h fe sf bs bfd bfs ad src an} (hs : s.BytesOk) :
    NextOk (execTamax h fe sf bs bfd bfs ad src an s) :=
  transform_bytesOk hs

theorem execTsqze_bytesOk {s : State} {h fe sf bfd bfs ad src an} (hs : s.BytesOk) :
    NextOk (execTsqze h fe sf bfd bfs ad src an s) :=
  transform_bytesOk hs

theorem execTsqzd_bytesOk {s : State} {h fe sf bfd bfs ad src an} (hs : s.BytesOk) :
    NextOk (execTsqzd h fe sf bfd bfs ad src an s) :=
  transform_bytesOk hs

theorem execTtr_bytesOk {s : State} {h fe sf bfd bfs ad src an} (hs : s.BytesOk) :
    NextOk (execTtr h fe sf bfd bfs ad src an s) :=
  transform_bytesOk hs

theorem putUnits_bytesOk {s : State} {t l} (hs : s.BytesOk) : (putUnits s t l).BytesOk := writeCodes_bytesOk hs _ _ _

theorem freeUnits_bytesOk {s : State} {l} (hs : s.BytesOk) : (freeUnits s l).2.BytesOk := by
  unfold freeUnits
  refine foldl_keeps (fun a : List TUnit × State => a.2.BytesOk) _ ?_ _ _ ?_
  · exact fun _ _ ht => ht
  · exact hs

theorem endTransform_bytesOk {s : State} {op t} (hs : s.BytesOk) : (endTransform s op t).BytesOk := by
  unfold endTransform
  extract_lets units u gs u1 u2 u3 whole
  have hu : u.BytesOk := putUnits_bytesOk hs
  have hu1 : u1.BytesOk := bytesOk_ite (releaseActions_bytesOk hu _) hu
  have hu2 : u2.BytesOk := bytesOk_ite (setFull_bytesOk hu1) hu1
  have hu3 : u3.BytesOk := bytesOk_ite (setFull_bytesOk hu2) hu2
  split
  · exact removeOp_bytesOk (landThr_bytesOk hu3)
  · exact raiseAsync_bytesOk (removeOp_bytesOk (dropPush_bytesOk (landThr_bytesOk (putUnits_bytesOk (freeUnits_bytesOk hs)))))

theorem execTransformCompletion_bytesOk {s : State} (hs : s.BytesOk) : NextOk (execTransformCompletion s) := by
  unfold execTransformCompletion
  split
  · split
    · exact endTransform_bytesOk hs
    · exact hs
  · exact hs

theorem execTld_bytesOk {s : State} {h ad bf aa imm} (hs : s.BytesOk) : NextOk (execTld h ad bf aa imm s) := by
  unfold execTld
  refine issuePrivate_bytesOk hs fun _ ht => ?_
  split
  · trivial
  · exact loadBody_bytesOk ht

theorem execTst_bytesOk {s : State} {h src bf aa imm} (hs : s.BytesOk) : NextOk (execTst h src bf aa imm s) := by
  unfold execTst
  refine issuePrivate_bytesOk hs fun _ ht => ?_
  split
  · trivial
  · exact storeBody_bytesOk ht

theorem execTrd_bytesOk {s : State} {h reg ad} (hs : s.BytesOk) : NextOk (execTrd h reg ad s) :=
  issuePrivate_bytesOk hs (fun _ ht => addOp_bytesOk ht)

theorem execTwr_bytesOk {s : State} {h reg aa} (hs : s.BytesOk) : NextOk (execTwr h reg aa s) :=
  issuePrivate_bytesOk hs (fun _ ht => putThrReg_bytesOk ht)

theorem execTsync_bytesOk {s : State} {h} (hs : s.BytesOk) : NextOk (execTsync h s) := issuePrivate_bytesOk hs (fun _ ht => ht)

theorem execTbara_bytesOk {s : State} {h bid aa} (hs : s.BytesOk) : NextOk (execTbara h bid aa s) :=
  issuePrivate_bytesOk hs (fun _ ht => arriveBody_bytesOk ht)

theorem execTbarw_bytesOk {s : State} {h bid} (hs : s.BytesOk) : NextOk (execTbarw h bid s) :=
  issuePrivate_bytesOk hs (fun _ ht => netWait_bytesOk ht)

theorem execTbars_bytesOk {s : State} {h bid aa} (hs : s.BytesOk) : NextOk (execTbars h bid aa s) :=
  issuePrivate_bytesOk hs (fun _ ht => arriveWaitBody_bytesOk ht)

/-! ### Sys2Proof/Machine/Events.lean -/

theorem landOwn_bytesOk {s : State} {op} (hs : s.BytesOk) : (landOwn s op).BytesOk := landWrites_bytesOk hs

theorem landFlags_bytesOk {s : State} {op} (hs : s.BytesOk) : (landFlags s op).BytesOk := by
  unfold landFlags
  split
  · exact setCtx_bytesOk hs
  · exact hs

theorem keepMxeRegs_bytesOk {s t : State} {op} (ht : t.BytesOk) : (keepMxeRegs s t op).BytesOk := by
  unfold keepMxeRegs
  split
  · exact ht
  · exact ht

theorem execRegisterResultLanding_bytesOk {s : State} {id} (hs : s.BytesOk) : NextOk (execRegisterResultLanding id s) := by
  unfold execRegisterResultLanding
  split
  · exact hs
  · split
    · exact removeOp_bytesOk (landFlags_bytesOk (landOwn_bytesOk hs))
    · exact removeOp_bytesOk hs
    · exact removeOp_bytesOk (landOwn_bytesOk hs)
    · extract_lets t
      have ht : t.BytesOk := removeOp_bytesOk (landFlags_bytesOk hs)
      split
      · exact ht
      · exact raiseAsync_bytesOk ht
    · exact keepMxeRegs_bytesOk (landMx_bytesOk hs)
    · exact hs

theorem execLoadDataReturn_bytesOk {s : State} {id} (hs : s.BytesOk) : NextOk (execLoadDataReturn id s) := by
  unfold execLoadDataReturn
  split
  · exact hs
  · split
    · extract_lets t t1
      have ht : t.BytesOk := removeOp_bytesOk hs
      have ht1 : t1.BytesOk := landFlags_bytesOk (landOwn_bytesOk ht)
      split
      · exact strandStop_bytesOk ht
      · split
        · exact cacheActions_bytesOk ht1 _
        · exact ht1
    · exact hs

theorem execWriteBackAcknowledged_bytesOk {s : State} {id} (hs : s.BytesOk) : NextOk (execWriteBackAcknowledged id s) := by
  unfold execWriteBackAcknowledged
  split
  · split
    · exact removeOp_bytesOk hs
    · exact hs
  · exact hs

theorem execPendingPush_bytesOk {s : State} {e} (hs : s.BytesOk) : NextOk (execPendingPush e s) := by
  unfold execPendingPush
  split
  · split
    · exact makePush_bytesOk hs
    · exact hs
  · exact hs

theorem timeoutStop_bytesOk {s : State} {e token} (hs : s.BytesOk) : (timeoutStop s e token).BytesOk := by
  unfold timeoutStop
  split
  · exact hs
  · split
    · exact hs
    · exact raise_bytesOk hs

theorem execTokenTimeout_bytesOk {s : State} {e} (hs : s.BytesOk) : NextOk (execTokenTimeout e s) := timeoutStop_bytesOk hs

theorem execFeTimeout_bytesOk {s : State} {e} (hs : s.BytesOk) : NextOk (execFeTimeout e s) := timeoutStop_bytesOk hs

theorem execSlipwWrite_bytesOk {s : State} {v} (hs : s.BytesOk) : NextOk (execSlipwWrite v s) := setCtx_bytesOk hs

/-! ### Sys2Proof/Machine/Moot.lean -/

theorem setMoot_bytesOk {s : State} {m} (hs : s.BytesOk) : (setMoot s m).BytesOk := hs

theorem sendTo_bytesOk {s : State} {ty msg pkgs} (hs : s.BytesOk) : (sendTo s ty msg pkgs).BytesOk :=
  mootFlits_bytesOk (setMoot_bytesOk hs)

theorem sendMsg_bytesOk {s : State} {ty msg} (hs : s.BytesOk) : (sendMsg s ty msg).BytesOk := sendTo_bytesOk hs

theorem accept_bytesOk {s : State} {msg coded} (hs : s.BytesOk) : SomeOk (accept s msg coded) := by
  unfold accept
  extract_lets m
  split
  · trivial
  · exact setMoot_bytesOk hs

theorem noteCrier_bytesOk {s : State} {c} (hs : s.BytesOk) : (noteCrier s c).BytesOk := by
  unfold noteCrier
  extract_lets m
  split
  · exact setMoot_bytesOk hs
  · exact hs

theorem acceptLive_bytesOk {s : State} {msg coded} (hs : s.BytesOk) : SomeOk (acceptLive s msg coded) := by
  unfold acceptLive
  split
  · trivial
  · exact accept_bytesOk hs

theorem abandonNets_bytesOk {s : State} {pkg} (hs : s.BytesOk) : (abandonNets s pkg).BytesOk := by
  unfold abandonNets
  exact bytesOk_of_eq hs rfl rfl rfl rfl

theorem markRow_bytesOk {s : State} {declared slot} (hs : s.BytesOk) : (markRow declared s slot).BytesOk := by
  unfold markRow
  extract_lets m s1
  have hs1 : s1.BytesOk := setMoot_bytesOk hs
  split
  · exact report_bytesOk (report_bytesOk hs1)
  · exact hs1

theorem markSilent_bytesOk {s : State} {slots declared} (hs : s.BytesOk) : (markSilent s slots declared).BytesOk := by
  unfold markSilent
  extract_lets gone s1
  have hs1 : s1.BytesOk := foldl_keeps State.BytesOk _ (fun _ _ ht => markRow_bytesOk ht) _ _ hs
  split
  · exact failRequests_bytesOk (abandonNets_bytesOk hs1)
  · exact hs1

theorem sendCrier_bytesOk {s : State} {code cause unann e} (hs : s.BytesOk) : (sendCrier s code cause unann e).BytesOk :=
  noteCrier_bytesOk (sendMsg_bytesOk hs)

theorem changeLimit_bytesOk {s : State} {lim code cause effective} (hs : s.BytesOk) :
    (changeLimit s lim code cause effective).BytesOk := by
  unfold changeLimit
  extract_lets m at_ e m1 later s1
  have hs1 : s1.BytesOk := sendCrier_bytesOk (setMoot_bytesOk hs)
  split
  · exact hs
  · split
    · exact setMoot_bytesOk hs1
    · split <;> exact setMoot_bytesOk hs

theorem raiseLimits_bytesOk {s : State} {p} (hs : s.BytesOk) : (raiseLimits s p).BytesOk := setMoot_bytesOk hs

theorem execLimitLower_bytesOk {s : State} {lim code effective} (hs : s.BytesOk) :
    NextOk (execLimitLower lim code effective s) :=
  changeLimit_bytesOk hs

theorem execUnannouncedClamp_bytesOk {s : State} {code cause} (hs : s.BytesOk) :
    NextOk (execUnannouncedClamp code cause s) := by
  unfold execUnannouncedClamp
  extract_lets m lim e s1
  have hs1 : s1.BytesOk := setMoot_bytesOk hs
  split
  · exact hs
  · exact sendCrier_bytesOk hs1

theorem noteLate_bytesOk {s : State} {msg} (hs : s.BytesOk) : (noteLate s msg).BytesOk := by
  unfold noteLate
  split
  · exact report_bytesOk (setMoot_bytesOk hs)
  · exact hs

theorem execCrier_bytesOk {s : State} {msg} (hs : s.BytesOk) : NextOk (execCrier msg s) := by
  unfold execCrier
  split
  · exact hs
  · rename_i e
    have k := (acceptLive_bytesOk hs).of_eq e
    extract_lets c _ s1
    have hs1 : s1.BytesOk := noteCrier_bytesOk (noteLate_bytesOk k)
    split
    · exact setMoot_bytesOk k
    · exact setMoot_bytesOk hs1

theorem tellJoiners_bytesOk {s : State} {words} (hs : s.BytesOk) : (tellJoiners s words).BytesOk :=
  foldl_keeps State.BytesOk _ (fun _ _ ht => mootFlits_bytesOk ht) _ _ hs

theorem execRoundSend_bytesOk {s : State} (hs : s.BytesOk) : NextOk (execRoundSend s) := by
  unfold execRoundSend
  split
  · exact hs
  · extract_lets m p before join part voters alone d d1 words s1 k _ s2 s3 s4
    have hs1 : s1.BytesOk := setMoot_bytesOk hs
    have hs2 : s2.BytesOk := sendMsg_bytesOk hs1
    have hs3 : s3.BytesOk := foldl_keeps State.BytesOk _ (fun _ _ ht => sendMsg_bytesOk ht) _ _ hs2
    have hs4 : s4.BytesOk := foldl_keeps State.BytesOk _ (fun _ _ ht => sendMsg_bytesOk ht) _ _ hs3
    split
    · exact hs1
    · exact tellJoiners_bytesOk hs4

theorem addMember_bytesOk {s : State} {slot pkg posting rack} (hs : s.BytesOk) : (addMember s slot pkg posting rack).BytesOk :=
  setMoot_bytesOk hs

theorem admitJoiner_bytesOk {s : State} {j} (hs : s.BytesOk) : (admitJoiner s j).BytesOk :=
  setMoot_bytesOk (addMember_bytesOk hs)

theorem setExtra_bytesOk {s : State} {p x} (hs : s.BytesOk) : (setExtra s p x).BytesOk := hs

theorem exhaust_bytesOk {s : State} {p} (hs : s.BytesOk) : (exhaust s p).BytesOk := by
  unfold exhaust
  extract_lets x s1 s2
  have hs1 : s1.BytesOk := setPart_bytesOk hs
  have hs2 : s2.BytesOk := bytesOk_ite (quotaStop_bytesOk hs1) hs1
  split
  · exact setExtra_bytesOk hs1
  · split
    · split
      · exact setDisp_bytesOk hs2
      · exact hs2
    · exact hs2

theorem spendEnergy_bytesOk {s : State} (hs : s.BytesOk) : (spendEnergy s).BytesOk := by
  unfold spendEnergy
  extract_lets p x d x1
  have hd : d.2.BytesOk := drawFree_bytesOk hs
  split
  · exact hs
  · exact setPart_bytesOk hd

theorem startPeriod_bytesOk {s : State} {p} (hs : s.BytesOk) : (startPeriod s p).BytesOk := by
  unfold startPeriod
  extract_lets x q x1 x2 s1
  have hs1 : s1.BytesOk := setExtra_bytesOk (setPart_bytesOk hs)
  split
  · exact exhaust_bytesOk hs1
  · exact hs1

theorem startPeriods_bytesOk {s : State} {k} (hs : s.BytesOk) : (startPeriods s k).BytesOk := by
  unfold startPeriods
  extract_lets due
  split
  · exact hs
  · exact selectWork_bytesOk (foldl_keeps State.BytesOk _ (fun _ _ ht => startPeriod_bytesOk ht) _ _ hs)

theorem execQuotaExhausted_bytesOk {s : State} {p} (hs : s.BytesOk) : NextOk (execQuotaExhausted p s) := by
  unfold execQuotaExhausted
  extract_lets x d used x1
  have hd : d.2.BytesOk := drawFree_bytesOk hs
  split
  · exact hs
  · split
    · exact exhaust_bytesOk hs
    · exact exhaust_bytesOk (setPart_bytesOk hd)

theorem freeCode_bytesOk {s : State} (hs : s.BytesOk) : (freeCode s).2.BytesOk := by
  unfold freeCode
  extract_lets d
  have hd : d.2.BytesOk := drawFree_bytesOk hs
  exact hd

theorem capLimit_bytesOk {s : State} {old code effective} (hs : s.BytesOk) : (capLimit s old code effective).BytesOk := by
  unfold capLimit
  extract_lets m was
  split
  · exact setMoot_bytesOk hs
  · exact changeLimit_bytesOk hs

theorem recap_bytesOk {s : State} {old} (hs : s.BytesOk) : (recap old s).BytesOk := by
  unfold recap
  extract_lets new d was
  have hd : d.2.BytesOk := freeCode_bytesOk hs
  split
  · exact hs
  · exact capLimit_bytesOk hd

theorem execCeilingEffective_bytesOk {s : State} (hs : s.BytesOk) : NextOk (execCeilingEffective s) :=
  recap_bytesOk (markSilent_bytesOk (setMoot_bytesOk hs))

theorem measureLatency_bytesOk {s : State} (hs : s.BytesOk) : (measureLatency s).BytesOk :=
  setMoot_bytesOk (drawFree_bytesOk hs)

theorem redoLimits_bytesOk {s : State} {l e} (hs : s.BytesOk) : (redoLimits l e s).BytesOk := by
  unfold redoLimits
  refine foldl_keeps State.BytesOk _ ?_ _ _ hs
  intro a b ht
  split
  · exact changeLimit_bytesOk ht
  · exact ht

theorem becomeAlone_bytesOk {s : State} (hs : s.BytesOk) : (becomeAlone s).BytesOk :=
  redoLimits_bytesOk (measureLatency_bytesOk (setMoot_bytesOk hs))

theorem closeRound_bytesOk {s : State} {b k p} (hs : s.BytesOk) : (closeRound s b k p).BytesOk := setMoot_bytesOk hs

theorem liftClamp_bytesOk {s : State} {b} (hs : s.BytesOk) : (liftClamp s b).BytesOk := by
  unfold liftClamp
  split
  · split
    · exact setMoot_bytesOk hs
    · exact hs
  · exact hs

theorem adoptRound_bytesOk {s : State} (hs : s.BytesOk) : (adoptRound s).BytesOk := setMoot_bytesOk hs

theorem ownRound_bytesOk {s : State} (hs : s.BytesOk) : (ownRound s).BytesOk := by
  unfold ownRound
  extract_lets m p leaving joiners s1 s2 s3 _ s4 s5 s6
  have hs1 : s1.BytesOk := foldl_keeps State.BytesOk _ (fun _ _ ht => admitJoiner_bytesOk ht) _ _ (adoptRound_bytesOk hs)
  have hs2 : s2.BytesOk := bytesOk_ite hs1 (measureLatency_bytesOk hs1)
  have hs3 : s3.BytesOk := by
    unfold s3
    split
    · exact setMoot_bytesOk hs
    · split
      · exact markSilent_bytesOk hs2
      · exact hs
  have hs4 : s4.BytesOk := bytesOk_ite hs3 (setMoot_bytesOk hs3)
  have hs5 : s5.BytesOk := liftClamp_bytesOk (raiseLimits_bytesOk (closeRound_bytesOk hs4))
  have hs6 : s6.BytesOk := bytesOk_ite (becomeAlone_bytesOk hs5) hs5
  exact startPeriods_bytesOk (recap_bytesOk hs6)

theorem clampAtJoin_bytesOk {s : State} (hs : s.BytesOk) : (clampAtJoin s).BytesOk := by
  unfold clampAtJoin
  extract_lets m e
  split
  · exact sendCrier_bytesOk (setMoot_bytesOk hs)
  · exact hs

theorem joinGroup_bytesOk {s : State} {j} (hs : s.BytesOk) : (joinGroup s j).BytesOk :=
  startPeriods_bytesOk (recap_bytesOk (clampAtJoin_bytesOk (redoLimits_bytesOk (liftClamp_bytesOk (closeRound_bytesOk
    (measureLatency_bytesOk (foldl_keeps State.BytesOk _ (fun _ _ ht => addMember_bytesOk ht) _ _ (addMember_bytesOk
    (setMoot_bytesOk (setMoot_bytesOk hs))))))))))

theorem execRoundTick_bytesOk {s : State} (hs : s.BytesOk) : NextOk (execRoundTick s) := by
  unfold execRoundTick
  split
  · exact joinGroup_bytesOk hs
  · split
    · exact ownRound_bytesOk hs
    · exact hs

theorem execRoundMiss_bytesOk {s : State} (hs : s.BytesOk) : NextOk (execRoundMiss s) := by
  unfold execRoundMiss
  split
  · exact hs
  · exact sendCrier_bytesOk (setMoot_bytesOk hs)

theorem execRound_bytesOk {s : State} {msg} (hs : s.BytesOk) : NextOk (execRound msg s) := by
  unfold execRound
  split
  · exact hs
  · rename_i e
    have k := (acceptLive_bytesOk hs).of_eq e
    extract_lets m
    split
    · exact setMoot_bytesOk k
    · split
      · exact setMoot_bytesOk k
      · exact k

theorem execRparam_bytesOk {s : State} {msg} (hs : s.BytesOk) : NextOk (execRparam msg s) := by
  unfold execRparam
  split
  · exact hs
  · rename_i e
    have k := (acceptLive_bytesOk hs).of_eq e
    extract_lets m
    split
    · exact setMoot_bytesOk k
    · split
      · exact tellJoiners_bytesOk (setMoot_bytesOk k)
      · exact k

theorem execHeartbeatSend_bytesOk {s : State} (hs : s.BytesOk) : NextOk (execHeartbeatSend s) := by
  unfold execHeartbeatSend
  split
  · exact hs
  · extract_lets m v _ t
    have ht : t.BytesOk := bytesOk_ite hs (sendTo_bytesOk hs)
    exact setMoot_bytesOk ht

theorem joinerHeartbeat_bytesOk {s : State} {msg} (hs : s.BytesOk) : (joinerHeartbeat s msg).BytesOk := by
  unfold joinerHeartbeat
  extract_lets m
  split
  · exact setMoot_bytesOk hs
  · split
    · exact sendTo_bytesOk hs
    · exact hs

theorem execHeartbeat_bytesOk {s : State} {msg} (hs : s.BytesOk) : NextOk (execHeartbeat msg s) := by
  unfold execHeartbeat
  extract_lets joining
  have hw : SomeOk (if joining then accept s msg true else acceptLive s msg true) := by
    split
    · exact accept_bytesOk hs
    · exact acceptLive_bytesOk hs
  split
  · exact hs
  · rename_i e
    have k := hw.of_eq e
    extract_lets m
    split
    · exact joinerHeartbeat_bytesOk k
    · split
      · exact recap_bytesOk (setMoot_bytesOk k)
      · split
        · exact recap_bytesOk (addMember_bytesOk k)
        · exact k

theorem declareSilent_bytesOk {s : State} {member} (hs : s.BytesOk) : (declareSilent s member).BytesOk :=
  setMoot_bytesOk (sendMsg_bytesOk hs)

theorem execPeerSilenceTimeout_bytesOk {s : State} {member} (hs : s.BytesOk) : NextOk (execPeerSilenceTimeout member s) := by
  unfold execPeerSilenceTimeout
  extract_lets m _ s1
  have hs1 : s1.BytesOk := sendTo_bytesOk hs
  split
  · exact hs
  · split
    · exact declareSilent_bytesOk hs
    · exact setMoot_bytesOk hs1

theorem execSilent_bytesOk {s : State} {msg} (hs : s.BytesOk) : NextOk (execSilent msg s) := by
  unfold execSilent
  split
  · exact hs
  · rename_i e
    have k := (acceptLive_bytesOk hs).of_eq e
    extract_lets slot s1
    have hs1 : s1.BytesOk := noteLate_bytesOk k
    split
    · split
      · exact declareSilent_bytesOk k
      · exact k
    · split
      · exact hs1
      · exact setMoot_bytesOk hs1

theorem execJoin_bytesOk {s : State} {msg} (hs : s.BytesOk) : NextOk (execJoin msg s) := by
  unfold execJoin
  split
  · exact hs
  · rename_i e
    have k := (accept_bytesOk hs).of_eq e
    extract_lets m slot
    split
    · split
      · exact setMoot_bytesOk k
      · exact k
    · split
      · exact sendTo_bytesOk k
      · split
        · exact sendTo_bytesOk k
        · exact setMoot_bytesOk k

theorem execLeave_bytesOk {s : State} {msg} (hs : s.BytesOk) : NextOk (execLeave msg s) := by
  unfold execLeave
  split
  · exact hs
  · rename_i e
    have k := (acceptLive_bytesOk hs).of_eq e
    extract_lets m slot
    split
    · exact setMoot_bytesOk k
    · split
      · exact setMoot_bytesOk k
      · exact sendTo_bytesOk k

theorem joinCommand_bytesOk {s : State} {place} (hs : s.BytesOk) : (joinCommand s place).BytesOk := by
  unfold joinCommand
  extract_lets m slot enabled s1
  have hs1 : s1.BytesOk := setMoot_bytesOk hs
  split
  · exact setMoot_bytesOk hs
  · exact sendTo_bytesOk hs1

theorem execMootJoinCommand_bytesOk {s : State} {place} (hs : s.BytesOk) : NextOk (execMootJoinCommand place s) :=
  joinCommand_bytesOk hs

theorem leaveCommand_bytesOk {s : State} (hs : s.BytesOk) : (leaveCommand s).BytesOk := by
  unfold leaveCommand
  extract_lets m _ t
  have ht : t.BytesOk := sendTo_bytesOk hs
  split
  · exact setMoot_bytesOk hs
  · split
    · exact setMoot_bytesOk hs
    · exact setMoot_bytesOk ht

theorem execMootLeaveCommand_bytesOk {s : State} (hs : s.BytesOk) : NextOk (execMootLeaveCommand s) := leaveCommand_bytesOk hs

theorem failSensor_bytesOk {s : State} {die site} (hs : s.BytesOk) : (failSensor s die site).BytesOk := by
  unfold failSensor
  extract_lets m f s1
  have hs1 : s1.BytesOk := report_bytesOk (setMoot_bytesOk hs)
  split
  · exact changeLimit_bytesOk hs1
  · exact hs1

theorem execSensorFail_bytesOk {s : State} {die site} (hs : s.BytesOk) : NextOk (execSensorFail die site s) :=
  failSensor_bytesOk hs

theorem markSensors_bytesOk {s : State} (hs : s.BytesOk) : (markSensors s).BytesOk := by
  unfold markSensors
  refine foldl_keeps State.BytesOk _ ?_ _ _ hs
  intro a b ht
  split
  · exact failSensor_bytesOk ht
  · exact ht

theorem clearSensors_bytesOk {s : State} {die mask} (hs : s.BytesOk) : (clearSensors s die mask).BytesOk := by
  unfold clearSensors
  extract_lets m s1
  have hs1 : s1.BytesOk := setMoot_bytesOk hs
  split
  · exact hs1
  · exact changeLimit_bytesOk hs1

theorem execSensFailClear_bytesOk {s : State} {die mask} (hs : s.BytesOk) : NextOk (execSensFailClear die mask s) :=
  clearSensors_bytesOk hs

theorem writeCap_bytesOk {s : State} {cap code effective} (hs : s.BytesOk) : (writeCap s cap code effective).BytesOk :=
  capLimit_bytesOk (setMoot_bytesOk hs)

theorem execRpcapWrite_bytesOk {s : State} {cap code effective} (hs : s.BytesOk) :
    NextOk (execRpcapWrite cap code effective s) :=
  writeCap_bytesOk hs

theorem execGclkr_bytesOk {s : State} {h ad} (hs : s.BytesOk) : NextOk (execGclkr h ad s) :=
  issuePrivate_bytesOk hs (fun _ ht => addVarOp_bytesOk ht _ _ _)

theorem execBellw_bytesOk {s : State} {h aa imm} (hs : s.BytesOk) : NextOk (execBellw h aa imm s) := by
  unfold execBellw
  refine issuePrivate_bytesOk hs fun _ ht => ?_
  extract_lets t1
  split <;> exact ht

theorem execBellTargetReached_bytesOk {s : State} (hs : s.BytesOk) : NextOk (execBellTargetReached s) := by
  unfold execBellTargetReached
  split
  · exact setEng_bytesOk hs
  · exact hs

theorem mootTick_bytesOk {s : State} (hs : s.BytesOk) : (mootTick s).BytesOk := setMoot_bytesOk (setMoot_bytesOk hs)

/-! ### Sys2Proof/Machine/SysRegs.lean -/

theorem setVec_bytesOk {s : State} {v} (hs : s.BytesOk) : (setVec s v).BytesOk := setCtx_bytesOk hs

theorem setBte_bytesOk {s : State} {b} (hs : s.BytesOk) : (setBte s b).BytesOk := setCtx_bytesOk hs

theorem putArrive_bytesOk {s : State} {n v} (hs : s.BytesOk) : (putArrive s n v).BytesOk := setBte_bytesOk hs

theorem putMecc_bytesOk {s : State} {v} (hs : s.BytesOk) : (putMecc s v).BytesOk := setMxCtx_bytesOk hs

theorem putCring_bytesOk {s : State} {v} (hs : s.BytesOk) : (putCring s v).BytesOk := setBte_bytesOk hs

theorem putCringIdx_bytesOk {s : State} {v} (hs : s.BytesOk) : (putCringIdx s v).BytesOk := setBte_bytesOk hs

theorem putReeveLog_bytesOk {s : State} {v} (hs : s.BytesOk) : (putReeveLog s v).BytesOk := setMxCtx_bytesOk hs

theorem sysWrite_bytesOk {s : State} {n v} (hs : s.BytesOk) : (sysWrite s n v).BytesOk := by
  unfold sysWrite
  extract_lets c x m b
  split
  · exact setCtx_bytesOk hs
  · exact setCtx_bytesOk hs
  · exact setVec_bytesOk hs
  · exact setVec_bytesOk hs
  · exact setVec_bytesOk hs
  · exact setVec_bytesOk hs
  · exact setMxCtx_bytesOk hs
  · exact putMecc_bytesOk hs
  · exact setMxCtx_bytesOk hs
  · exact setSow_bytesOk hs
  · exact setSow_bytesOk hs
  · exact setSow_bytesOk hs
  · exact setSow_bytesOk hs
  · exact putArrive_bytesOk hs
  · exact putArrive_bytesOk hs
  · exact putArrive_bytesOk hs
  · exact putArrive_bytesOk hs
  · exact putCring_bytesOk hs
  · exact putCringIdx_bytesOk hs
  · exact setBte_bytesOk hs
  · exact setBte_bytesOk hs
  · exact setBte_bytesOk hs
  · exact setBte_bytesOk hs
  · split
    · exact putReeveMode_bytesOk hs
    · exact hs
  · exact putReeveLog_bytesOk hs
  · exact setMxCtx_bytesOk hs
  · exact putThrReg_bytesOk hs
  · exact putThrReg_bytesOk hs
  · exact putThrReg_bytesOk hs
  · exact putThrReg_bytesOk hs
  · exact hs

theorem execCsrr_bytesOk {s : State} {h reg ad} (hs : s.BytesOk) : NextOk (execCsrr h reg ad s) :=
  issuePrivate_bytesOk hs (fun _ ht => addVarOp_bytesOk ht _ _ _)

theorem execCsrw_bytesOk {s : State} {h reg aa} (hs : s.BytesOk) : NextOk (execCsrw h reg aa s) :=
  issuePrivate_bytesOk hs (fun _ ht => sysWrite_bytesOk ht)

/-! ### Sys2Proof/Machine/Links.lean -/

theorem dropLink_bytesOk {s : State} {p x} (hs : s.BytesOk) : (dropLink s p x).BytesOk :=
  pump_bytesOk (failRequests_bytesOk (setPort_bytesOk (stampWaiting_bytesOk hs)))

theorem portDown_bytesOk {s : State} {p} (hs : s.BytesOk) : (portDown s p).BytesOk := report_bytesOk (dropLink_bytesOk hs)

theorem sendNak_bytesOk {s : State} {p} (hs : s.BytesOk) : (sendNak s p).BytesOk := by
  unfold sendNak
  extract_lets x
  split
  · exact hs
  · exact setPort_bytesOk hs

theorem resend_bytesOk {s : State} {p} (hs : s.BytesOk) : (resend s p).BytesOk := by
  unfold resend
  extract_lets x
  split
  · exact hs
  · split
    · exact portDown_bytesOk hs
    · exact setPort_bytesOk hs

theorem takeAck_bytesOk {s : State} {p ack} (hs : s.BytesOk) : (takeAck s p ack).BytesOk := by
  unfold takeAck
  extract_lets x rest asked
  split
  · split
    · exact pump_bytesOk (setPort_bytesOk hs)
    · exact hs
  · exact hs

theorem answerRequest_bytesOk {s : State} {p pkg} (hs : s.BytesOk) : (answerRequest s p pkg).BytesOk := by
  unfold answerRequest
  extract_lets waits
  split
  · split
    · exact pump_bytesOk (setPort_bytesOk hs)
    · exact hs
  · exact hs

theorem deliver_bytesOk {s : State} {p f} (hs : s.BytesOk) : (deliver s p f).BytesOk := by
  unfold deliver
  extract_lets x h cls taken s1
  have hs1 : s1.BytesOk := setPort_bytesOk hs
  split
  · split
    · exact post_bytesOk hs1
    · exact hs1
  · split
    · exact sendOut_bytesOk hs1
    · split
      · exact answerRequest_bytesOk hs1
      · exact hs1

theorem spareLane_bytesOk {s : State} {p lane} (hs : s.BytesOk) : (spareLane s p lane).BytesOk := by
  unfold spareLane
  extract_lets x y spared y1 s1
  have hs1 : s1.BytesOk := report_bytesOk (setPort_bytesOk hs)
  split
  · exact hs
  · split
    · exact portDown_bytesOk hs1
    · exact hs1

theorem countFlit_bytesOk {s : State} {p bad} (hs : s.BytesOk) : (countFlit s p bad).BytesOk := by
  unfold countFlit
  extract_lets c s1
  have hs1 : s1.BytesOk := setPort_bytesOk hs
  split
  · exact spareLane_bytesOk hs1
  · exact hs1

theorem execFlitReceive_bytesOk {s : State} {p f} (hs : s.BytesOk) : NextOk (execFlitReceive p f s) := by
  unfold execFlitReceive
  extract_lets x h s1 s2
  have hs1 : s1.BytesOk := takeAck_bytesOk (countFlit_bytesOk hs)
  have hs2 : s2.BytesOk := bytesOk_ite (resend_bytesOk hs1) hs1
  split
  · exact hs
  · split
    · exact sendNak_bytesOk (countFlit_bytesOk hs)
    · split
      · exact hs2
      · split
        · exact deliver_bytesOk hs2
        · exact sendNak_bytesOk hs2

theorem execReplayTimeout_bytesOk {s : State} {p} (hs : s.BytesOk) : NextOk (execReplayTimeout p s) := by
  unfold execReplayTimeout
  split
  · exact resend_bytesOk hs
  · exact hs

theorem execLinkDown_bytesOk {s : State} {p} (hs : s.BytesOk) : NextOk (execLinkDown p s) := portDown_bytesOk hs

theorem execLinkUp_bytesOk {s : State} {p peer} (hs : s.BytesOk) : NextOk (execLinkUp p peer s) := by
  unfold execLinkUp
  extract_lets x
  split
  · exact hs
  · exact pump_bytesOk (report_bytesOk (setPort_bytesOk hs))

theorem execLinkOff_bytesOk {s : State} {p} (hs : s.BytesOk) : NextOk (execLinkOff p s) := dropLink_bytesOk hs

theorem execLaneSpare_bytesOk {s : State} {p lane} (hs : s.BytesOk) : NextOk (execLaneSpare p lane s) := spareLane_bytesOk hs

theorem endRetraining_bytesOk {s : State} (hs : s.BytesOk) : (endRetraining s).BytesOk := by
  unfold endRetraining
  extract_lets due
  split
  · exact hs
  · exact pump_bytesOk (foldl_keeps State.BytesOk _ (fun _ _ ht => report_bytesOk (setPort_bytesOk ht)) _ _ hs)

theorem endUnreached_bytesOk {s : State} {o} (hs : s.BytesOk) : (endUnreached s o).BytesOk := by
  unfold endUnreached
  extract_lets out
  have hout : NextOk out := by
    unfold out
    split
    · exact execMloadFillComplete_bytesOk hs
    · exact execMstreamComplete_bytesOk hs
    · exact execRegisterResultLanding_bytesOk hs
    · exact execCopyCompletion_bytesOk hs
    · exact hs
  clear_value out
  split
  · exact hout
  · exact hs

theorem execRouteWaitTimeout_bytesOk {s : State} {pkg} (hs : s.BytesOk) : NextOk (execRouteWaitTimeout pkg s) := by
  unfold execRouteWaitTimeout
  extract_lets p s1 s2 s3 _ lost t t1
  have hs1 : s1.BytesOk := report_bytesOk hs
  have hs2 : s2.BytesOk := by
    unfold s2
    split
    · exact raise_bytesOk hs1
    · exact hs1
  have hs3 : s3.BytesOk := by
    unfold s3
    split
    · exact failRequests_bytesOk hs2
    · exact hs2
  have hlost : lost.BytesOk := setMoot_bytesOk hs3
  have ht : t.BytesOk := foldl_keeps State.BytesOk _ (fun _ _ ht => endUnreached_bytesOk ht) _ _ hlost
  have ht1 : t1.BytesOk := ht
  split
  · exact hs
  · exact setMoot_bytesOk ht1

theorem mapPorts_bytesOk {s : State} {f} (hs : s.BytesOk) : (mapPorts s f).BytesOk := hs

theorem quiesceStep_bytesOk {s : State} (hs : s.BytesOk) : (quiesceStep s).BytesOk := by
  unfold quiesceStep
  split
  · exact hs
  · split
    · extract_lets s1 _ s2
      have hs1 : s1.BytesOk := foldl_keeps State.BytesOk _ (fun _ _ ht => haltPartition_bytesOk ht) _ _ hs
      have hs2 : s2.BytesOk := hs1
      split
      · exact leaveCommand_bytesOk hs2
      · exact hs2
    · split
      · exact hs
      · split
        · exact mapPorts_bytesOk hs
        · split
          · exact hs
          · extract_lets s1
            have hs1 : s1.BytesOk := mapPorts_bytesOk hs
            exact hs1

theorem execQuiesce_bytesOk {s : State} (hs : s.BytesOk) : NextOk (execQuiesce s) := quiesceStep_bytesOk hs

theorem restorePaths_bytesOk {s : State} {path} (hs : s.BytesOk) : (restorePaths s path).BytesOk := setMx_bytesOk hs

theorem restoreCommand_bytesOk {s : State} {core path} (hs : s.BytesOk) : (restoreCommand s core path).BytesOk := by
  unfold restoreCommand
  split
  · split
    · exact restorePaths_bytesOk hs
    · exact hs
  · split <;> exact hs

theorem execRestore_bytesOk {s : State} {core path} (hs : s.BytesOk) : NextOk (execRestore core path s) :=
  restoreCommand_bytesOk hs

/-- Bytes taken out of a canonical list leave a canonical list. -/
theorem memFilter_wfFrom (p : Host.Cell → Bool) :
    ∀ (lo : Nat) (m : Mem), memWfFrom lo m = true → memWfFrom lo (m.filter p) = true
  | _, [], _ => rfl
  | lo, (k, b) :: r, w => by
    simp only [memWfFrom, Bool.and_eq_true, decide_eq_true_eq] at w
    have ih := memFilter_wfFrom p (k + 1) r w.2
    by_cases h : p (k, b)
    · rw [List.filter_cons_of_pos h]
      simp only [memWfFrom, Bool.and_eq_true, decide_eq_true_eq]
      exact ⟨w.1, ih⟩
    · rw [List.filter_cons_of_neg h]
      exact memWfFrom_mono (by omega) _ ih

/-- Commons bytes that follow the package number are written one by one into what is left of memory. -/
theorem setPkgnum_bytesOk {s : State} {number} (hs : s.BytesOk) : (setPkgnum s number).BytesOk := by
  unfold setPkgnum
  split
  · exact hs
  · exact ⟨memWrite_wf _ (memFilter_wfFrom _ 0 _ hs.1), hs.2⟩

theorem execPkgnum_bytesOk {s : State} {number} (hs : s.BytesOk) : NextOk (execPkgnum number s) := setPkgnum_bytesOk hs

theorem reset_bytesOk : State.reset.BytesOk := ⟨rfl, cacheReset_ok, cacheReset_ok, rising_nil⟩

theorem resetAll_bytesOk {s : State} : (resetAll s).BytesOk := bytesOk_of_eq reset_bytesOk rfl rfl rfl rfl

theorem execReset_bytesOk {s : State} : NextOk (execReset s) := resetAll_bytesOk

theorem execPowerOnReset_bytesOk {s : State} : NextOk (execPowerOnReset s) :=
  bytesOk_of_eq (resetAll_bytesOk (s := s)) rfl rfl rfl rfl

theorem execPowerFault_bytesOk {s : State} (hs : s.BytesOk) : NextOk (execPowerFault s) := report_bytesOk hs

theorem ignoreMgmt_bytesOk {s : State} (hs : s.BytesOk) : (ignoreMgmt s).BytesOk := hs

theorem mgmtCommand_bytesOk {s : State} {v} (hs : s.BytesOk) : (mgmtCommand s v).BytesOk := by
  unfold mgmtCommand
  split
  · exact ignoreMgmt_bytesOk hs
  · split
    · exact quiesceStep_bytesOk hs
    · exact restoreCommand_bytesOk hs
    · exact setPkgnum_bytesOk hs
    · exact resetAll_bytesOk
    · exact ignoreMgmt_bytesOk hs

theorem wqWrite_bytesOk {s : State} {q reg v mgmt} (hs : s.BytesOk) : (wqWrite s q reg v mgmt).BytesOk := by
  unfold wqWrite
  extract_lets w
  split
  · split
    · exact hs
    · exact setWq_bytesOk hs
  · exact putWqCfg_bytesOk hs
  · split
    · exact hs
    · exact setWq_bytesOk hs
  · exact writeTail_bytesOk hs
  · exact setWq_bytesOk hs
  · exact hs

theorem partCommand_bytesOk {s : State} {p v} (hs : s.BytesOk) : (partCommand s p v).BytesOk := by
  unfold partCommand
  extract_lets core
  split
  · exact post_bytesOk hs
  · exact post_bytesOk hs
  · exact post_bytesOk hs
  · exact post_bytesOk hs
  · exact hs

theorem partWrite_bytesOk {s : State} {p reg v} (hs : s.BytesOk) : (partWrite s p reg v).BytesOk := by
  unfold partWrite
  extract_lets x locked y y1 s1
  have hlocked : ∀ x, (locked x).BytesOk := by
    unfold locked
    intro x'
    split
    · exact hs
    · exact setPart_bytesOk hs
  have hs1 : s1.BytesOk := setPart_bytesOk hs
  split
  · exact hlocked _
  · split
    · exact hlocked _
    · split
      · exact enablePartition_bytesOk hs1
      · split
        · exact disablePartition_bytesOk hs1
        · exact hs1
    · exact hlocked _
    · exact setPart_bytesOk hs
    · exact hlocked _
    · exact hlocked _
    · exact hlocked _
    · exact setPart_bytesOk hs
    · exact partCommand_bytesOk hs
    · exact setPart_bytesOk hs
    · exact hs

theorem frWrite_bytesOk {s : State} {n reg v} (hs : s.BytesOk) : (frWrite s n reg v).BytesOk := by
  unfold frWrite
  extract_lets r locked s1 y
  have hlocked : ∀ x, (locked x).BytesOk := by
    unfold locked
    intro x
    split
    · exact hs
    · exact putRegion_bytesOk hs
  have hs1 : s1.BytesOk := bytesOk_ite (disableRegion_bytesOk hs) hs
  split
  · exact hlocked _
  · exact hlocked _
  · exact hlocked _
  · split
    · exact enableRegion_bytesOk hs
    · exact putRegion_bytesOk hs1
  · exact putRegion_bytesOk hs
  · exact hs

theorem tlbiWrite_bytesOk {s : State} {die reg v} (hs : s.BytesOk) : (tlbiWrite s die reg v).BytesOk := by
  unfold tlbiWrite
  extract_lets d t t1
  split
  · exact putTlbi_bytesOk hs
  · split
    · exact startTlbi_bytesOk hs
    · exact putTlbi_bytesOk hs

theorem mootWrite_bytesOk {s : State} {o v} (hs : s.BytesOk) : (mootWrite s o v).BytesOk := by
  unfold mootWrite
  extract_lets m p x d
  have hd : d.2.BytesOk := freeCode_bytesOk hs
  split
  · exact clearSensors_bytesOk hs
  · split
    · split
      · exact setPart_bytesOk hs
      · exact setPart_bytesOk hs
      · exact hs
    · split
      · exact setMoot_bytesOk hs
      · split
        · exact joinCommand_bytesOk hs
        · exact leaveCommand_bytesOk hs
        · exact hs
      · exact setMoot_bytesOk hs
      · exact setMoot_bytesOk hs
      · exact writeCap_bytesOk hd
      · exact recap_bytesOk (setMoot_bytesOk hs)
      · exact hs

theorem portWrite_bytesOk {s : State} {p reg v} (hs : s.BytesOk) : (portWrite s p reg v).BytesOk := by
  unfold portWrite
  extract_lets x en x1
  split
  · split
    · exact dropLink_bytesOk hs
    · exact setPort_bytesOk hs
  · exact setPort_bytesOk hs
  · exact setPort_bytesOk hs
  · exact hs

theorem hostWrite_bytesOk {s : State} {o v} (hs : s.BytesOk) : (hostWrite s o v).BytesOk := by
  unfold hostWrite
  split
  · exact hs
  · exact mgmtCommand_bytesOk hs
  · exact hs
  · exact hs

theorem ctrlWrite_bytesOk {s : State} {die o v mgmt} (hs : s.BytesOk) : (ctrlWrite s die o v mgmt).BytesOk := by
  unfold ctrlWrite
  split
  · exact frWrite_bytesOk hs
  · exact tlbiWrite_bytesOk hs
  · exact wqWrite_bytesOk hs
  · exact partWrite_bytesOk hs
  · exact mootWrite_bytesOk hs
  · exact portWrite_bytesOk hs
  · exact pump_bytesOk (stampWaiting_bytesOk hs)
  · exact hs
  · exact hostWrite_bytesOk hs
  · exact report_bytesOk hs

theorem execRegisterWrite_bytesOk {s : State} {offset v} (hs : s.BytesOk) : NextOk (execRegisterWrite offset v s) := by
  unfold execRegisterWrite
  extract_lets o
  split
  · exact ctrlWrite_bytesOk hs
  · exact report_bytesOk hs

theorem unsupported_bytesOk {s : State} {r} (hs : s.BytesOk) : (unsupported s r).BytesOk := report_bytesOk hs

theorem hostMemWrite_bytesOk {s : State} {r l} (hs : s.BytesOk) : (hostMemWrite s r l).BytesOk := by
  unfold hostMemWrite
  extract_lets bad l1 s1
  have hs1 : s1.BytesOk := bytesOk_ite (homeWrite_bytesOk hs _) (rawWrite_bytesOk hs _)
  split
  · exact report_bytesOk hs1
  · exact hs1

theorem hostMemRead_bytesOk {s : State} {r keys} (hs : s.BytesOk) : (hostMemRead s r keys).BytesOk := by
  unfold hostMemRead
  extract_lets s1 a s2
  have hs1 : s1.BytesOk := bytesOk_ite (homePrep_bytesOk hs _) hs
  have ha : a.1.BytesOk := by
    unfold a
    split
    · exact noteAliasRead_bytesOk hs1 _ _
    · dsimp only
      exact hs1
  have hs2 : s2.BytesOk := bytesOk_ite (report_bytesOk ha) ha
  exact hostReply_bytesOk hs2

theorem hostQueueOp_bytesOk {s : State} {q reg r mgmt} (hs : s.BytesOk) : (hostQueueOp s q reg r mgmt).BytesOk := by
  unfold hostQueueOp
  extract_lets old put
  have hput : ∀ x, (put x).BytesOk := by
    unfold put
    intro x
    exact hostReply_bytesOk (wqWrite_bytesOk hs)
  split
  · exact hostReply_bytesOk hs
  · split
    · exact wqWrite_bytesOk hs
    · exact unsupported_bytesOk hs
  · split
    · exact hostReply_bytesOk (hostReserve_bytesOk hs)
    · exact hput _
  · exact hput _
  · split
    · exact hput _
    · exact hostReply_bytesOk hs

theorem virtualOp_bytesOk {s : State} {v q reg r} (hs : s.BytesOk) : (virtualOp s v q reg r).BytesOk := by
  unfold virtualOp
  extract_lets w s1
  have hs1 : s1.BytesOk := hostRefuse_bytesOk hs
  split
  · split
    · exact hs1
    · exact hostReply_bytesOk hs1
  · exact hostQueueOp_bytesOk hs

theorem execHostBarAccess_bytesOk {s : State} {r} (hs : s.BytesOk) : NextOk (execHostBarAccess r s) := by
  unfold execHostBarAccess
  split
  · exact unsupported_bytesOk hs
  · extract_lets mgmt
    split
    · exact unsupported_bytesOk hs
    · split
      · exact virtualOp_bytesOk hs
      · exact unsupported_bytesOk hs
    · exact hostMemRead_bytesOk hs
    · exact hostMemWrite_bytesOk hs
    · exact unsupported_bytesOk hs
    · split
      · exact hostQueueOp_bytesOk hs
      · exact unsupported_bytesOk hs
      · split
        · exact hostReply_bytesOk hs
        · exact ctrlWrite_bytesOk hs
        · exact unsupported_bytesOk hs
      · split
        · exact hostReply_bytesOk hs
        · split
          · exact ctrlWrite_bytesOk hs
          · exact unsupported_bytesOk hs
        · exact unsupported_bytesOk hs

theorem execHostCompletion_bytesOk {s : State} {id error} (hs : s.BytesOk) : NextOk (execHostCompletion id error s) := by
  unfold execHostCompletion
  split
  · exact hs
  · split
    · exact updateOp_bytesOk hs
    · split
      · exact updateOp_bytesOk hs
      · split
        · exact updateOp_bytesOk hs
        · exact hs

theorem enterStage_bytesOk {s : State} {n} (hs : s.BytesOk) : (enterStage s n).BytesOk := by
  unfold enterStage
  split
  · exact hs
  · exact mapPorts_bytesOk hs
  · extract_lets s1
    have hs1 : s1.BytesOk := measureLatency_bytesOk (mapPorts_bytesOk hs)
    split
    · exact joinCommand_bytesOk hs1
    · exact hs1
  · exact selectWork_bytesOk hs
  · exact hs

theorem stageWork_bytesOk {s : State} {ok code} (hs : s.BytesOk) : (stageWork ok code s).1.BytesOk := by
  unfold stageWork
  extract_lets n t
  have ht : t.BytesOk := swapPlanes_bytesOk hs
  split
  · exact hs
  · split
    · exact swapPlanes_bytesOk hs
    · exact hs

theorem execStartupStage_bytesOk {s : State} {ok code} (hs : s.BytesOk) : NextOk (execStartupStage ok code s) := by
  unfold execStartupStage
  split
  · exact hs
  · extract_lets w h n
    have hw : w.1.BytesOk := stageWork_bytesOk hs
    split
    · exact report_bytesOk hw
    · exact enterStage_bytesOk (report_bytesOk hw)

theorem fatalError_bytesOk {s : State} {die} (hs : s.BytesOk) : (fatalError s die).BytesOk :=
  report_bytesOk (foldl_keeps State.BytesOk _ (fun _ _ ht => haltPartition_bytesOk ht) _ _ hs)

theorem execControlPathError_bytesOk {s : State} {die} (hs : s.BytesOk) : NextOk (execControlPathError die s) :=
  fatalError_bytesOk hs

theorem strike_bytesOk {s : State} {x} (hs : s.BytesOk) : (strike s x).BytesOk := by
  unfold strike
  extract_lets s1
  have hs1 : s1.BytesOk := countSoft_bytesOk hs
  split
  · exact hs1
  · split
    · exact poisonWord_bytesOk hs1
    · split
      · exact hs1
      · exact fatalError_bytesOk hs1

theorem takeInputs_bytesOk {s : State} {n} (hs : s.BytesOk) : (takeInputs s n).BytesOk := by
  unfold takeInputs
  extract_lets now later t
  have ht : t.BytesOk := foldl_keeps State.BytesOk _ (fun _ _ ht => strike_bytesOk ht) _ _ hs
  split
  · exact ht
  · exact setMoot_bytesOk ht

/-! ### Sys2Proof/Machine/Cycle.lean -/

theorem tick_bytesOk {s : State} (hs : s.BytesOk) : (tick s).BytesOk := by
  unfold tick
  extract_lets k _ s1 s2
  have hs1 : s1.BytesOk := markSensors_bytesOk (endRetraining_bytesOk (mootTick_bytesOk (spendEnergy_bytesOk hs)))
  have hs2 : s2.BytesOk := bytesOk_ite (takeInputs_bytesOk hs1) hs1
  exact hs2

theorem closeCycle_bytesOk {s : State} (hs : s.BytesOk) : (closeCycle s).BytesOk := by
  unfold closeCycle
  split
  · exact tick_bytesOk hs
  · exact hs

theorem afterSlot_bytesOk {e} {o : Host.Outcome State Fault Refusal} (ho : NextOk o) : NextOk (afterSlot e o) := by
  unfold afterSlot
  split
  · exact advance_bytesOk ho
  · trivial
  · trivial

/-! ### Sys2Proof/Machine/Special.lean -/

theorem sfuOp_bytesOk {s : State} {h legal ty mz vd va pg fn f} (hs : s.BytesOk) :
    NextOk (sfuOp s h legal ty mz vd va pg fn f) := by
  unfold sfuOp
  exact vecPrivate_bytesOk hs (fun _ _ ht => setCtx_bytesOk (vecResult_bytesOk ht))

theorem execVrcp_bytesOk {s : State} {h ty mz vd va pg} (hs : s.BytesOk) : NextOk (execVrcp h ty mz vd va pg s) :=
  sfuOp_bytesOk hs

theorem execVrsqrt_bytesOk {s : State} {h ty mz vd va pg} (hs : s.BytesOk) : NextOk (execVrsqrt h ty mz vd va pg s) :=
  sfuOp_bytesOk hs

theorem execVsqrt_bytesOk {s : State} {h ty mz vd va pg} (hs : s.BytesOk) : NextOk (execVsqrt h ty mz vd va pg s) :=
  sfuOp_bytesOk hs

theorem execVexp2_bytesOk {s : State} {h ty mz vd va pg} (hs : s.BytesOk) : NextOk (execVexp2 h ty mz vd va pg s) :=
  sfuOp_bytesOk hs

theorem execVlog2_bytesOk {s : State} {h ty mz vd va pg} (hs : s.BytesOk) : NextOk (execVlog2 h ty mz vd va pg s) :=
  sfuOp_bytesOk hs

theorem execVsinpi_bytesOk {s : State} {h ty mz vd va pg} (hs : s.BytesOk) : NextOk (execVsinpi h ty mz vd va pg s) :=
  sfuOp_bytesOk hs

theorem execVcospi_bytesOk {s : State} {h ty mz vd va pg} (hs : s.BytesOk) : NextOk (execVcospi h ty mz vd va pg s) :=
  sfuOp_bytesOk hs

theorem execVtanh_bytesOk {s : State} {h ty mz vd va pg} (hs : s.BytesOk) : NextOk (execVtanh h ty mz vd va pg s) :=
  sfuOp_bytesOk hs

theorem execVsigm_bytesOk {s : State} {h ty mz vd va pg} (hs : s.BytesOk) : NextOk (execVsigm h ty mz vd va pg s) :=
  sfuOp_bytesOk hs

theorem execVgelu_bytesOk {s : State} {h ty mz vd va pg} (hs : s.BytesOk) : NextOk (execVgelu h ty mz vd va pg s) :=
  sfuOp_bytesOk hs

theorem execVsilu_bytesOk {s : State} {h ty mz vd va pg} (hs : s.BytesOk) : NextOk (execVsilu h ty mz vd va pg s) :=
  sfuOp_bytesOk hs

theorem execVerf_bytesOk {s : State} {h ty mz vd va pg} (hs : s.BytesOk) : NextOk (execVerf h ty mz vd va pg s) :=
  sfuOp_bytesOk hs

/-! ### Sys2Proof/Machine/Dispatch.lean -/

/-- Every instruction keeps the bytes canonical: each arm is the lemma about its own effect. -/
theorem exec_bytesOk {s : State} (hs : s.BytesOk) : ∀ i : Instr, NextOk (exec i s)
  | .add .. => execAdd_bytesOk hs
  | .sub .. => execSub_bytesOk hs
  | .and .. => execAnd_bytesOk hs
  | .or .. => execOr_bytesOk hs
  | .xor .. => execXor_bytesOk hs
  | .sll .. => execSll_bytesOk hs
  | .srl .. => execSrl_bytesOk hs
  | .sra .. => execSra_bytesOk hs
  | .slt .. => execSlt_bytesOk hs
  | .sltu .. => execSltu_bytesOk hs
  | .mul .. => execMul_bytesOk hs
  | .mulh .. => execMulh_bytesOk hs
  | .min .. => execMin_bytesOk hs
  | .max .. => execMax_bytesOk hs
  | .addi .. => execAddi_bytesOk hs
  | .andi .. => execAndi_bytesOk hs
  | .ori .. => execOri_bytesOk hs
  | .xori .. => execXori_bytesOk hs
  | .slti .. => execSlti_bytesOk hs
  | .slli .. => execSlli_bytesOk hs
  | .srli .. => execSrli_bytesOk hs
  | .srai .. => execSrai_bytesOk hs
  | .lui .. => execLui_bytesOk hs
  | .lhi .. => execLhi_bytesOk hs
  | .auipc .. => execAuipc_bytesOk hs
  | .bEq .. => execBEq_bytesOk hs
  | .bNe .. => execBNe_bytesOk hs
  | .bLt .. => execBLt_bytesOk hs
  | .bGe .. => execBGe_bytesOk hs
  | .bLtu .. => execBLtu_bytesOk hs
  | .bGeu .. => execBGeu_bytesOk hs
  | .j .. => execJ_bytesOk hs
  | .jal .. => execJal_bytesOk hs
  | .jr .. => execJr_bytesOk hs
  | .loop .. => execLoop_bytesOk hs
  | .loopm .. => execLoopm_bytesOk hs
  | .loopmPass .. => execLoopmPass_bytesOk hs
  | .bfclr .. => execBfclr_bytesOk hs
  | .bfset .. => execBfset_bytesOk hs
  | .bfadd .. => execBfadd_bytesOk hs
  | .bfget .. => execBfget_bytesOk hs
  | .bfmov .. => execBfmov_bytesOk hs
  | .twait .. => execTwait_bytesOk hs
  | .slipw .. => execSlipw_bytesOk hs
  | .ld .. => execLd_bytesOk hs
  | .st .. => execSt_bytesOk hs
  | .ldf .. => execLdf_bytesOk hs
  | .stf .. => execStf_bytesOk hs
  | .atom .. => execAtom_bytesOk hs
  | .fence .. => execFence_bytesOk hs
  | .bara .. => execBara_bytesOk hs
  | .barw .. => execBarw_bytesOk hs
  | .bars .. => execBars_bytesOk hs
  | .hgive .. => execHgive_bytesOk hs
  | .htake .. => execHtake_bytesOk hs
  | .hqry .. => execHqry_bytesOk hs
  | .abc .. => execAbc_bytesOk hs
  | .abcReceive .. => execAbcReceive_bytesOk hs
  | .foot .. => execFoot_bytesOk hs
  | .csrr .. => execCsrr_bytesOk hs
  | .csrw .. => execCsrw_bytesOk hs
  | .bellr .. => execBellr_bytesOk hs
  | .ttok .. => execTtok_bytesOk hs
  | .tstart .. => execTstart_bytesOk hs
  | .trap .. => execTrap_bytesOk hs
  | .eret .. => execEret_bytesOk hs
  | .taskend .. => execTaskend_bytesOk hs
  | .qres .. => execQres_bytesOk hs
  | .qtail .. => execQtail_bytesOk hs
  | .qhead .. => execQhead_bytesOk hs
  | .ditem .. => execDitem_bytesOk hs
  | .dpush .. => execDpush_bytesOk hs
  | .gclkr .. => execGclkr_bytesOk hs
  | .bellw .. => execBellw_bytesOk hs
  | .vadd .. => execVadd_bytesOk hs
  | .vsub .. => execVsub_bytesOk hs
  | .vmul .. => execVmul_bytesOk hs
  | .vmin .. => execVmin_bytesOk hs
  | .vmax .. => execVmax_bytesOk hs
  | .vmulh .. => execVmulh_bytesOk hs
  | .vadds .. => execVadds_bytesOk hs
  | .vsubs .. => execVsubs_bytesOk hs
  | .vfma .. => execVfma_bytesOk hs
  | .vfms .. => execVfms_bytesOk hs
  | .vfnma .. => execVfnma_bytesOk hs
  | .vabs .. => execVabs_bytesOk hs
  | .vneg .. => execVneg_bytesOk hs
  | .vand .. => execVand_bytesOk hs
  | .vor .. => execVor_bytesOk hs
  | .vxor .. => execVxor_bytesOk hs
  | .vnot .. => execVnot_bytesOk hs
  | .vsll .. => execVsll_bytesOk hs
  | .vsrl .. => execVsrl_bytesOk hs
  | .vsra .. => execVsra_bytesOk hs
  | .vcmp .. => execVcmp_bytesOk hs
  | .vsel .. => execVsel_bytesOk hs
  | .pand .. => execPand_bytesOk hs
  | .por .. => execPor_bytesOk hs
  | .pxor .. => execPxor_bytesOk hs
  | .pnot .. => execPnot_bytesOk hs
  | .pcnt .. => execPcnt_bytesOk hs
  | .vcvt .. => execVcvt_bytesOk hs
  | .vred .. => execVred_bytesOk hs
  | .vperm .. => execVperm_bytesOk hs
  | .vdup .. => execVdup_bytesOk hs
  | .vzip .. => execVzip_bytesOk hs
  | .vunzip .. => execVunzip_bytesOk hs
  | .vgetx .. => execVgetx_bytesOk hs
  | .vld .. => execVld_bytesOk hs
  | .vst .. => execVst_bytesOk hs
  | .vldg .. => execVldg_bytesOk hs
  | .vsts .. => execVsts_bytesOk hs
  | .vqld .. => execVqld_bytesOk hs
  | .vqst .. => execVqst_bytesOk hs
  | .vrcp .. => execVrcp_bytesOk hs
  | .vrsqrt .. => execVrsqrt_bytesOk hs
  | .vsqrt .. => execVsqrt_bytesOk hs
  | .vexp2 .. => execVexp2_bytesOk hs
  | .vlog2 .. => execVlog2_bytesOk hs
  | .vsinpi .. => execVsinpi_bytesOk hs
  | .vcospi .. => execVcospi_bytesOk hs
  | .vtanh .. => execVtanh_bytesOk hs
  | .vsigm .. => execVsigm_bytesOk hs
  | .vgelu .. => execVgelu_bytesOk hs
  | .vsilu .. => execVsilu_bytesOk hs
  | .verf .. => execVerf_bytesOk hs
  | .mload .. => execMload_bytesOk hs
  | .mloadFillComplete .. => execMloadFillComplete_bytesOk hs
  | .mflip .. => execMflip_bytesOk hs
  | .mflipTakesEffect .. => execMflipTakesEffect_bytesOk hs
  | .mdrop .. => execMdrop_bytesOk hs
  | .mstream .. => execMstream_bytesOk hs
  | .mstreamComplete .. => execMstreamComplete_bytesOk hs
  | .mzero .. => execMzero_bytesOk hs
  | .mwin .. => execMwin_bytesOk hs
  | .mcopy .. => execMcopy_bytesOk hs
  | .madd .. => execMadd_bytesOk hs
  | .mgetz .. => execMgetz_bytesOk hs
  | .mdrain .. => execMdrain_bytesOk hs
  | .tileSignatureFormed .. => execTileSignatureFormed_bytesOk hs
  | .msigr .. => execMsigr_bytesOk hs
  | .msync .. => execMsync_bytesOk hs
  | .mcb .. => execMcb_bytesOk hs
  | .mstat .. => execMstat_bytesOk hs
  | .mpert .. => execMpert_bytesOk hs
  | .mpoff .. => execMpoff_bytesOk hs
  | .mpstep .. => execMpstep_bytesOk hs
  | .mpref .. => execMpref_bytesOk hs
  | .mpsamp .. => execMpsamp_bytesOk hs
  | .rstat .. => execRstat_bytesOk hs
  | .rchk .. => execRchk_bytesOk hs
  | .rmode .. => execRmode_bytesOk hs
  | .rinj .. => execRinj_bytesOk hs
  | .bcopy .. => execBcopy_bytesOk hs
  | .bcopyS .. => execBcopyS_bytesOk hs
  | .bfill .. => execBfill_bytesOk hs
  | .bdedup .. => execBdedup_bytesOk hs
  | .bcow .. => execBcow_bytesOk hs
  | .bcmp .. => execBcmp_bytesOk hs
  | .bwait .. => execBwait_bytesOk hs
  | .bacnt .. => execBacnt_bytesOk hs
  | .bsync .. => execBsync_bytesOk hs
  | .copyCompletion .. => execCopyCompletion_bytesOk hs
  | .tcvt .. => execTcvt_bytesOk hs
  | .tcvti .. => execTcvti_bytesOk hs
  | .tamax .. => execTamax_bytesOk hs
  | .tsqze .. => execTsqze_bytesOk hs
  | .tsqzd .. => execTsqzd_bytesOk hs
  | .ttr .. => execTtr_bytesOk hs
  | .tbara .. => execTbara_bytesOk hs
  | .tbarw .. => execTbarw_bytesOk hs
  | .tbars .. => execTbars_bytesOk hs
  | .tld .. => execTld_bytesOk hs
  | .tst .. => execTst_bytesOk hs
  | .trd .. => execTrd_bytesOk hs
  | .twr .. => execTwr_bytesOk hs
  | .tsync .. => execTsync_bytesOk hs
  | .cadd .. => execCadd_bytesOk hs
  | .cmin .. => execCmin_bytesOk hs
  | .cmax .. => execCmax_bytesOk hs
  | .caxpy .. => execCaxpy_bytesOk hs
  | .cscal .. => execCscal_bytesOk hs
  | .binit .. => execBinit_bytesOk hs
  | .cbar .. => execCbar_bytesOk hs
  | .cbwait .. => execCbwait_bytesOk hs
  | .barrierLinePoison .. => execBarrierLinePoison_bytesOk hs
  | .atomicRequest .. => execAtomicRequest_bytesOk hs
  | .registerResultLanding .. => execRegisterResultLanding_bytesOk hs
  | .loadDataReturn .. => execLoadDataReturn_bytesOk hs
  | .pendingPush .. => execPendingPush_bytesOk hs
  | .tokenTimeout .. => execTokenTimeout_bytesOk hs
  | .feTimeout .. => execFeTimeout_bytesOk hs
  | .translationResolve .. => execTranslationResolve_bytesOk hs
  | .translationAbort .. => execTranslationAbort_bytesOk hs
  | .pageWalk .. => execPageWalk_bytesOk hs
  | .tlbiAll .. => execTlbiAll_bytesOk hs
  | .tlbiPages .. => execTlbiPages_bytesOk hs
  | .aliasWriteback .. => execAliasWriteback_bytesOk hs
  | .frEnable .. => execFrEnable_bytesOk hs
  | .frDisable .. => execFrDisable_bytesOk hs
  | .channelMigration stack unit64k channel => execChannelMigration_bytesOk stack unit64k channel hs
  | .slipwWrite .. => execSlipwWrite_bytesOk hs
  | .cringHeadWrite .. => execCringHeadWrite_bytesOk hs
  | .reeveModeWrite .. => execReeveModeWrite_bytesOk hs
  | .wqEnable .. => execWqEnable_bytesOk hs
  | .wqDisable .. => execWqDisable_bytesOk hs
  | .wqTailWrite .. => execWqTailWrite_bytesOk hs
  | .hostFetchadd .. => execHostFetchadd_bytesOk hs
  | .stage0ItemGenerate .. => execStage0ItemGenerate_bytesOk hs
  | .instanceEnd .. => execInstanceEnd_bytesOk hs
  | .pipelineStall .. => execPipelineStall_bytesOk hs
  | .partitionEnable .. => execPartitionEnable_bytesOk hs
  | .partitionDisable .. => execPartitionDisable_bytesOk hs
  | .resume .. => execResume_bytesOk hs
  | .abort .. => execAbort_bytesOk hs
  | .run .. => execRun_bytesOk hs
  | .halt .. => execHalt_bytesOk hs
  | .planeDiffBroadcast .. => execPlaneDiffBroadcast_bytesOk hs
  | .shadowPlaneLoad .. => execShadowPlaneLoad_bytesOk hs
  | .crier .. => execCrier_bytesOk hs
  | .limitLower .. => execLimitLower_bytesOk hs
  | .unannouncedClamp .. => execUnannouncedClamp_bytesOk hs
  | .heartbeat .. => execHeartbeat_bytesOk hs
  | .round .. => execRound_bytesOk hs
  | .rparam .. => execRparam_bytesOk hs
  | .peerSilenceTimeout .. => execPeerSilenceTimeout_bytesOk hs
  | .silent .. => execSilent_bytesOk hs
  | .join .. => execJoin_bytesOk hs
  | .leave .. => execLeave_bytesOk hs
  | .mootJoinCommand .. => execMootJoinCommand_bytesOk hs
  | .quotaExhausted .. => execQuotaExhausted_bytesOk hs
  | .rpcapWrite .. => execRpcapWrite_bytesOk hs
  | .sensFailClear .. => execSensFailClear_bytesOk hs
  | .flitReceive .. => execFlitReceive_bytesOk hs
  | .linkDown .. => execLinkDown_bytesOk hs
  | .routeWaitTimeout .. => execRouteWaitTimeout_bytesOk hs
  | .hostBarAccess .. => execHostBarAccess_bytesOk hs
  | .hostCompletion .. => execHostCompletion_bytesOk hs
  | .restore .. => execRestore_bytesOk hs
  | .pkgnum .. => execPkgnum_bytesOk hs
  | .startupStage .. => execStartupStage_bytesOk hs
  | .registerWrite .. => execRegisterWrite_bytesOk hs
  | .reservedEncoding w0 w1 => execReservedEncoding_bytesOk w0 w1 hs
  | .writeBackAcknowledged .. => execWriteBackAcknowledged_bytesOk hs
  | .sensorFail .. => execSensorFail_bytesOk hs
  | .linkUp .. => execLinkUp_bytesOk hs
  | .controlPathError .. => execControlPathError_bytesOk hs
  | .laneSpare .. => execLaneSpare_bytesOk hs
  | .replayTimeout .. => execReplayTimeout_bytesOk hs
  | .linkOff .. => execLinkOff_bytesOk hs
  | .stampedIssue => execStampedIssue_bytesOk hs
  | .poundCommit => execPoundCommit_bytesOk hs
  | .reeveMismatch => execReeveMismatch_bytesOk hs
  | .reeveSampledCheck => execReeveSampledCheck_bytesOk hs
  | .reeveForcedCheck => execReeveForcedCheck_bytesOk hs
  | .transformCompletion => execTransformCompletion_bytesOk hs
  | .faultRecord => execFaultRecord_bytesOk hs
  | .invalidationComplete => execInvalidationComplete_bytesOk hs
  | .strandLaunch => execStrandLaunch_bytesOk hs
  | .sliceExpiry => execSliceExpiry_bytesOk hs
  | .contextSwap => execContextSwap_bytesOk hs
  | .planeDiffApply => execPlaneDiffApply_bytesOk hs
  | .swapToken => execSwapToken_bytesOk hs
  | .planeSwap => execPlaneSwap_bytesOk hs
  | .ceilingEffective => execCeilingEffective_bytesOk hs
  | .heartbeatSend => execHeartbeatSend_bytesOk hs
  | .roundSend => execRoundSend_bytesOk hs
  | .roundTick => execRoundTick_bytesOk hs
  | .roundMiss => execRoundMiss_bytesOk hs
  | .mootLeaveCommand => execMootLeaveCommand_bytesOk hs
  | .quiesce => execQuiesce_bytesOk hs
  | .reset => execReset_bytesOk
  | .powerOnReset => execPowerOnReset_bytesOk
  | .powerFault => execPowerFault_bytesOk hs
  | .bellTargetReached => execBellTargetReached_bytesOk hs
  | .stage => execStage_bytesOk hs
  | .phase => execPhase_bytesOk hs
  | .nop => execNop_bytesOk hs
  | .endText => execEndText_bytesOk hs

/-! ### Sys2Proof/Machine/Step.lean -/

theorem stepPowerless_bytesOk {s : State} (hs : s.BytesOk) : NextOk (step.powerless s) := by
  unfold step.powerless
  split
  · exact exec_bytesOk hs .powerOnReset
  · trivial

/-- One step of the machine, along the branches of `step`: power, inputs, close of the cycle, what is due, the engine's slot. -/
theorem step_bytesOk {s : State} (hs : s.BytesOk) : NextOk (step s) := by
  unfold step
  split
  · exact stepPowerless_bytesOk hs
  · split
    · next i r _ => exact exec_bytesOk (s := { s with inbox := r }) hs i
    · split
      · exact closeCycle_bytesOk hs
      · split
        · exact exec_bytesOk hs _
        · split
          · next e => exact advance_bytesOk ((slot_bytesOk hs).of_eq e)
          · next e => exact (slot_bytesOk hs).of_eq e
          · exact exec_bytesOk hs _
          · exact afterSlot_bytesOk (exec_bytesOk hs _)

/-- Settles O60: by `step_bytesOk`, since every effect changes the bytes only by the writes of `Laws/Memory` and `Laws/Caches`, by
taking bytes out of the list (`setPkgnum`) or by putting the reset state in its place (`reset_bytesOk`). -/
theorem bytesStayCanonical : Obligations.BytesStayCanonical := by
  unfold Obligations.BytesStayCanonical
  intro s t hs e
  exact (step_bytesOk hs).of_eq e

end Sys2Proof.Laws
end
